-- ==== Sys2Proof/Word.lean ====
section
/-! DEFINITION. Words, bytes, tags, the two lot slots, and a pair of values indexed by them. -/

namespace Sys2Proof

/-- A word is 32 bits (00_scope.md, Words and addresses). -/
abbrev Word := BitVec 32
abbrev Byte := BitVec 8
/-- The tag that ties a reply to its order, 0 to 255 (R24, R49, R144). -/
abbrev Tag := BitVec 8
/-- Four byte enables; enable k enables byte lane k (R191). -/
abbrev Enables := BitVec 4

/-- A lot slot, and the load port of the same number (R1: slot 0 belongs to load port 0). -/
inductive Slot where
  | zero
  | one
  deriving DecidableEq, Repr

def Slot.other : Slot → Slot
  | .zero => .one
  | .one => .zero

def Slot.toNat : Slot → Nat
  | .zero => 0
  | .one => 1

/-- One value for each of the two slots or ports. -/
structure Two (α : Type) where
  zero : α
  one : α
  deriving DecidableEq, Repr

def Two.get {α : Type} (t : Two α) : Slot → α
  | .zero => t.zero
  | .one => t.one

def Two.set {α : Type} (t : Two α) (k : Slot) (v : α) : Two α :=
  match k with
  | .zero => { t with zero := v }
  | .one => { t with one := v }

def Two.both {α : Type} (v : α) : Two α := ⟨v, v⟩

end Sys2Proof
end

