-- ==== Sys2Proof/Syntax.lean ====
section
/-! DEFINITION. The commands the part takes: one constructor of Instr for each row of opcode_table.json, with its operands. -/

namespace Sys2Proof

/-- What a mapper answers for one carrier slot (R24). -/
inductive MapAnswer where
  | present
  | empty
  | double
  | cross
  deriving DecidableEq, Repr

/-- The four handler units (R24). -/
inductive HandlerUnit where
  | robot
  | prealigner
  | mapper (port : Slot)
  deriving DecidableEq, Repr

/-- The codes of a handler FAULT reply (R24). -/
inductive HandlerFaultCode where
  | vacuumLost
  | notPresent
  | occupied
  | stopped
  | driveFault
  deriving DecidableEq, Repr

/-- The codes of a motion FAULT reply (R49); the part keeps none of them. -/
inductive MotionFaultCode where
  | limit
  | following
  | drive
  | homeNotFound
  deriving DecidableEq, Repr

/-- The two groups of axes (R47). -/
inductive MotionGroup where
  | xy
  | z
  deriving DecidableEq, Repr

/-- The cell's input lines as levels: INTERLOCK, and carrier presence at each port. -/
structure CellLines where
  interlockOpen : Bool
  carrier : Two Bool
  deriving DecidableEq, Repr

/-- A PART record of a region (R178). Wafer entries and rows are numbered 1 to 25, defect entries from 0. -/
inductive RecId where
  | lotHeader (slot : Slot)
  | waferEntry (slot : Slot) (n : Nat)
  | defectEntry (slot : Slot) (i : Nat)
  | reportHeader (slot : Slot)
  | reportRow (slot : Slot) (n : Nat)
  deriving DecidableEq, Repr

/-- The commands. A P-port write is one word access; `be` are its byte enables. A row whose request has a fixed code in
11_memory_formats.md writes that code; `pPortWrite` carries any value to any address. `wafer` is a wafer slot, 1 to 25;
`entry` an index of a defect array. -/
inductive Instr where
  /-- HARDWARE_RESET: the sampled ANCHOR_SEL lines and the cell lines read afresh (R45, R174, R190). -/
  | hardwareReset (sel : BitVec 2) (lines : CellLines)
  | attach (be : Enables)
  | detach (be : Enables)
  | attachLayoutReadDone
  | detachComplete
  | start (slot : Slot) (be : Enables)
  | abort (slot : Slot) (be : Enables)
  | release (slot : Slot) (be : Enables)
  | startFetchReadDone
  | resume (be : Enables)
  | inventory (be : Enables)
  | home (be : Enables)
  | noticeClear (value : Word) (be : Enables)
  | noticeMaskWrite (value : Word) (be : Enables)
  | post (slot : Slot) (entry : Nat) (be : Enables)
  | withdraw (slot : Slot) (entry : Nat) (be : Enables)
  | postingClose (slot : Slot) (wafer : Nat) (be : Enables)
  | rowClose (slot : Slot) (wafer : Nat) (be : Enables)
  | classWrite (slot : Slot) (entry : Nat) (value : Word) (be : Enables)
  | classTableWrite (word : Nat) (value : Word) (be : Enables)
  | defectHostWrite (slot : Slot) (entry : Nat) (word : Nat) (value : Word) (be : Enables)
  | pPortWrite (addr : BitVec 28) (value : Word) (be : Enables)
  | heldAccessRelease
  | postVersionReadDone
  | fillReadDone
  | classTableFetchReadDone
  | pPortAccessServed
  | writeQueueWordWritten
  | writerMove
  | recordWrittenBack (id : RecId)
  | interlockOpen
  | interlockClose
  | carrierLoss (port : Slot)
  | carrierPresent (port : Slot)
  | pickDone (tag : Tag)
  | placeDone (tag : Tag)
  | inventoryDone (tag : Tag) (ua la pa st : Bool)
  | prealignDone (tag : Tag)
  | mapDone (port : Slot) (tag : Tag) (results : List MapAnswer)
  | handlerFault (unit : HandlerUnit) (tag : Tag) (code : HandlerFaultCode)
  | handlerOrderTimeout (unit : HandlerUnit)
  | arrived (tag : Tag)
  | homed (tag : Tag)
  | motionLinkFault (tag : Tag) (code : MotionFaultCode)
  | motionOrderTimeout (group : MotionGroup)
  | settleTimerExpiry (group : MotionGroup)
  | markResult (tag : Tag) (found : Bool) (ox oy : Int)
  | grabDone (tag : Tag) (first : Word) (frames : Word)
  | grabFault (tag : Tag) (code : Word)
  | grabTimeout
  | sensorWord (sample : BitVec 16) (mark : Bool) (parity : Bool)
  | silenceTimerExpiry
  | autofocusTimerExpiry
  | postingWaitExpiry
  deriving DecidableEq, Repr

end Sys2Proof
end

