-- ==== Sys2Proof/Decode.lean ====
section
/-! DEFINITION. The command a word spells. The table gives its rows no bits, so no word spells a command. -/

namespace Sys2Proof

/-- Every row of opcode_table.json has an empty list of fields: the part's commands are accesses, messages and events, not words
(log entry 20). -/
def decodeTableWord (_nbits _w : Nat) : Option Instr := none

end Sys2Proof
end

