-- ==== Sys2Proof/Config.lean ====
section
/-! DEFINITION. The free value of the model: what the manual leaves open with either outcome allowed. -/

namespace Sys2Proof

/-- Whether, at a group's entry into FAULT, the refusal of the group's waiting request is taken before the motion fault is
reported. R105 and R154 say the two may come together and give the outcome of each order; they do not say which comes first, so
each occurrence (numbered by `State.free`) has an order of its own. Free value, log entry 10. -/
opaque Config.refusalFirst : Nat → Bool

end Sys2Proof
end

