-- ==== Sys2Proof/Machine/State.lean ====
section
/-! DEFINITION. The state of the part as plain data, block by block, and the machine right after reset. -/

namespace Sys2Proof.Machine

/-- What stops the machine. The spec gives every command an effect, so no command faults and the type has no constructor. -/
inductive Fault where
  deriving DecidableEq, Repr

/-- Why a command is refused. `notModelled` would be raised by an arm of exec whose command has no meaning yet (safe); no arm
does. -/
inductive Refusal where
  | notModelled (mnemonic : String)
  deriving DecidableEq, Repr

/-- A timer on the review clock: the clock value at its starting event and its duration in milliseconds (R19). -/
structure Timer where
  start : Word
  duration : Nat
  deriving DecidableEq, Repr

/-- A wafer, named by its lot slot and wafer slot (R21). -/
structure WaferName where
  slot : Slot
  n : Nat
  deriving DecidableEq, Repr

/-- A point of the stage frame, nm. -/
structure Point where
  x : Int
  y : Int
  deriving DecidableEq, Repr

/-! ## Lot control (R1 to R20) -/

inductive LotState where
  | empty | starting | queued | running | finishing | aborting | done | aborted
  deriving DecidableEq, Repr

inductive RefusalCode where
  | none | busy | noCarrier | notReferenced | badRecipe | marksTooClose | noneSelected
  deriving DecidableEq, Repr

inductive WaferState where
  | waiting | skipped | absent | mapFault | unaligned | prealigning | ready | onStage | reviewEnded | returning | returned | orphaned
  deriving DecidableEq, Repr

/-- A wafer's map result (R10). -/
inductive MapResult where
  | unmapped
  | answered (a : MapAnswer)
  deriving DecidableEq, Repr

inductive FinalResult where
  | none | reviewed | alignFailed | aborted | suspect | notProcessed
  deriving DecidableEq, Repr

/-- The state of the transform record (R68). -/
inductive TransformState where
  | none | provisional | measuring | aligned | failed
  deriving DecidableEq, Repr

inductive AlignReason where
  | none | markMove | markTravel | markFocus | markNotFound | scale | rotation | residual | lotAbort | motionFault
  deriving DecidableEq, Repr

/-- The fetched recipe: the lot id and the 33 fields of R5, each read as a signed 32-bit integer. -/
structure Recipe where
  lotIdLow : Word
  lotIdHigh : Word
  inspectionNotch : Int
  loadNotch : Int
  pitchX : Int
  pitchY : Int
  originX : Int
  originY : Int
  markCount : Int
  p1x : Int
  p1y : Int
  p2x : Int
  p2y : Int
  p3x : Int
  p3y : Int
  scaleTolerance : Int
  rotationTolerance : Int
  residualTolerance : Int
  markRetryLimit : Int
  revisitLimit : Int
  retryLimit : Int
  framesPerGrab : Int
  settleTime : Int
  zLow : Int
  zHigh : Int
  nominalZ : Int
  framesPerMeasurement : Int
  lightMinimum : Int
  focusWindow : Int
  focusGain : Int
  stepMaximum : Int
  iterationLimit : Int
  searchStep : Int
  searchLimit : Int
  postingWait : Int
  deriving DecidableEq, Repr

/-- A wafer record (R10). Its location is read from the location table (`State.locationOf`), its version word from `wb`. -/
structure Wafer where
  selected : Bool
  state : WaferState
  mapResult : MapResult
  /-- The pending result; `none` when none is set (R11). -/
  pendingResult : Option FinalResult
  finalResult : FinalResult
  /-- The four lanes of the alignment word, as last shown (R67). -/
  alignState : TransformState
  alignMark : Nat
  alignAttempts : Nat
  alignReason : AlignReason
  a : Int
  b : Int
  tx : Int
  ty : Int
  startClock : Word
  endClock : Word
  postingClosed : Bool
  deriving DecidableEq, Repr

/-- A word the start fetch takes (R3). -/
inductive FetchItem where
  | header (w : Nat)
  | entry (n w : Nat)
  | entryVersion (n : Nat)
  | reportVersion
  | rowVersion (n : Nat)
  deriving DecidableEq, Repr

/-- A lot slot (R1). `fetch` holds the values the start fetch has returned, while one is in flight. `wafers` is empty or holds
the 25 wafer records, wafer slot 1 first. -/
structure Lot where
  state : LotState
  refusal : RefusalCode
  badField : Nat
  ignored : Nat
  changed : Nat
  fetch : Option (List (FetchItem × Word))
  recipe : Option Recipe
  wafers : List Wafer
  deriving DecidableEq, Repr

/-! ## Handling unit (R21 to R45) -/

/-- What a wafer location holds (R21). -/
inductive Occupant where
  | empty
  | unknown
  | wafer (w : WaferName)
  deriving DecidableEq, Repr

/-- A wafer location (R21): a carrier slot, an arm, the prealigner or the stage. -/
inductive Loc where
  | carrier (port : Slot) (n : Nat)
  | ua
  | la
  | pa
  | st
  deriving DecidableEq, Repr

inductive Arm where
  | upper
  | lower
  deriving DecidableEq, Repr

/-- The location table: 25 occupants for each port, and the four outside places, with UA's put-back mark (R21). -/
structure LocationTable where
  carriers : Two (List Occupant)
  ua : Occupant
  la : Occupant
  pa : Occupant
  st : Occupant
  putBack : Bool
  deriving DecidableEq, Repr

inductive HandlingState where
  | unknown | inventory | idle | busy | hold | halted
  deriving DecidableEq, Repr

/-- A robot order's kind and operands (R24). -/
inductive RobotKind where
  | pick (loc : Loc) (arm : Arm)
  | place (loc : Loc) (arm : Arm)
  | inventory
  deriving DecidableEq, Repr

structure RobotOrder where
  tag : Tag
  kind : RobotKind
  timer : Timer
  deriving DecidableEq, Repr

structure PrealignOrder where
  tag : Tag
  notch : Int
  timer : Timer
  deriving DecidableEq, Repr

/-- An outstanding MAP; `cancelled` by carrier loss (R29). -/
structure MapOrder where
  tag : Tag
  cancelled : Bool
  timer : Timer
  deriving DecidableEq, Repr

/-- The uncertain move (R36). -/
structure UncertainMove where
  wafer : Occupant
  source : Loc
  destination : Loc
  deriving DecidableEq, Repr

structure Handling where
  state : HandlingState
  table : LocationTable
  robot : Option RobotOrder
  prealigner : Option PrealignOrder
  mapper : Two (Option MapOrder)
  tag : Tag
  carrierMap : Two (Option (List MapAnswer))
  mapRequest : Two Bool
  uncertain : Option UncertainMove
  haltMark : Bool
  /-- The first inventory after attach that agrees is still to come, and will ask for homing (R44). -/
  homingDue : Bool
  deriving DecidableEq, Repr

/-! ## Motion unit (R46 to R61) -/

inductive AxisState where
  | unreferenced | homing | idle | moving | settling | fault
  deriving DecidableEq, Repr

structure Axis where
  state : AxisState
  referenced : Bool
  position : Int
  target : Int
  deriving DecidableEq, Repr

/-- The units that make move requests (R52, R55). `loadForReview` is the revisit unit asking for the load position. -/
inductive MoveUnit where
  | alignment | revisit | autofocus | loadForHandling | loadForReview
  deriving DecidableEq, Repr

/-- A requester of a move: the unit and the number of its request. -/
structure Requester where
  unit : MoveUnit
  number : Nat
  deriving DecidableEq, Repr

inductive MoveTarget where
  | xy (x y : Int)
  | z (height : Int)
  deriving DecidableEq, Repr

inductive MotionKind where
  | move (target : MoveTarget)
  | home
  deriving DecidableEq, Repr

structure MotionOrder where
  tag : Tag
  kind : MotionKind
  timer : Timer
  requesters : List Requester
  deriving DecidableEq, Repr

/-- The settle timer of a group, with the requesters of the order that arrived (R54). -/
structure Settling where
  timer : Timer
  requesters : List Requester
  deriving DecidableEq, Repr

/-- The waiting request of a group (R53); `load` marks a load-position request. -/
structure WaitingMove where
  target : MoveTarget
  load : Bool
  requesters : List Requester
  deriving DecidableEq, Repr

structure GroupRecord where
  order : Option MotionOrder
  settling : Option Settling
  waiting : Option WaitingMove
  deriving DecidableEq, Repr

structure Motion where
  x : Axis
  y : Axis
  z : Axis
  xyGroup : GroupRecord
  zGroup : GroupRecord
  tag : Tag
  epoch : Word
  nextReq : Nat
  deriving DecidableEq, Repr

inductive MoveRefusal where
  | notReady | travel | stageHeld
  deriving DecidableEq, Repr

/-- A unit's current move request, and whether its settled event has come (R71, R142). -/
structure Awaited where
  number : Nat
  settled : Bool
  deriving DecidableEq, Repr

/-! ## Alignment unit (R62 to R83) -/

inductive MarkPhase where
  | move | focus | grab
  deriving DecidableEq, Repr

/-- A mark: the target at which it was sought and its measured position (R67). -/
structure Mark where
  target : Option Point
  measured : Option Point
  deriving DecidableEq, Repr

/-- The transform record (R67). -/
structure Align where
  wafer : Option WaferName
  state : TransformState
  mark : Nat
  phase : MarkPhase
  attempts : Nat
  a : Int
  b : Int
  tx : Int
  ty : Int
  m1 : Mark
  m2 : Mark
  m3 : Mark
  reason : AlignReason
  xyReq : Option Awaited
  zReq : Option Awaited
  deriving DecidableEq, Repr

/-! ## Sensor link receiver (R84 to R95) -/

inductive LinkState where
  | down | hunt | locked
  deriving DecidableEq, Repr

/-- The frame assembler (R85). The word count of a partial frame is the number of its words, the first first. -/
inductive Assembler where
  | outside (joining stray : Bool)
  | inside (words : List (BitVec 16)) (parity : Bool) (epoch : Word)
  deriving DecidableEq, Repr

/-- A frame summary (R92). -/
structure Summary where
  sequence : Word
  sumA : Nat
  sumB : Nat
  light : Nat
  epoch : Word
  dark : Bool
  e : Int
  deriving DecidableEq, Repr

structure Sensor where
  link : LinkState
  good : Nat
  assembler : Assembler
  misframes : Nat
  parityErrors : Nat
  sequence : Word
  /-- The frame ring, oldest first, at most 8 (R94). -/
  ring : List Summary
  silence : Option Timer
  deriving DecidableEq, Repr

/-! ## Autofocus unit (R96 to R115) -/

inductive FocusState where
  | idle | prefocus | measure | step | search | focused | failed
  deriving DecidableEq, Repr

inductive FocusRequester where
  | alignment | revisit
  deriving DecidableEq, Repr

inductive FocusReason where
  | outOfRange | noConverge | noSignal | link | timeout | zRefused | busy
  deriving DecidableEq, Repr

structure FocusRequest where
  requester : FocusRequester
  wafer : WaferName
  point : Point
  startZ : Int
  deriving DecidableEq, Repr

inductive FocusOutcome where
  | focused (z : Int)
  | failed (reason : FocusReason)
  deriving DecidableEq, Repr

/-- The autofocus record (R96). `atSearch` marks a height of a running search (R106); `zReq` is the current Z request. -/
structure Autofocus where
  state : FocusState
  request : Option FocusRequest
  zTarget : Int
  epoch : Word
  startMark : Option Word
  taken : Nat
  sum : Int
  inWindow : Nat
  iterations : Nat
  centre : Int
  index : Nat
  budget : Nat
  atSearch : Bool
  timer : Option Timer
  outcome : Option FocusOutcome
  zReq : Option Nat
  deriving DecidableEq, Repr

/-- A zone of the focus map (R111). -/
structure Zone where
  valid : Bool
  z : Int
  samples : Nat
  deriving DecidableEq, Repr

/-! ## Revisit unit (R116 to R157) -/

inductive EntryState where
  | posting | queued | active | reviewed | focusFail | grabFail | travel | aborted | notSampled | refused | withdrawn
  deriving DecidableEq, Repr

inductive EntryReason where
  | none | lotNotActive | badSlot | notSelected | rowClosed | waferPassed | zeroId | duplicateId | badCoord | offWafer | storeFull
  | limit | displaced | lotAbort | motionFault | alignFail | waferUnavailable | outOfRange | noConverge | noSignal | link | timeout
  | zRefused | busy | grabFault | grabTimeout | outOfTravel | notReady | stageHeld
  deriving DecidableEq, Repr

/-- A defect entry's record, in the posting list or in the store (R117, R129). `host` holds the eight HOST words as far as the
fill has gathered them; `rowClosed` is set when the row of its wafer closes (R136); `bin` is its counted bin (R166). -/
structure Entry where
  slot : Slot
  index : Nat
  host : List (Option Word)
  wx : Int
  wy : Int
  sequence : Nat
  state : EntryState
  reason : EntryReason
  ignored : Nat
  attempts : Nat
  stageX : Int
  stageY : Int
  focusZ : Int
  firstFrame : Word
  frames : Word
  rowClosed : Bool
  bin : Option Nat
  deriving DecidableEq, Repr

inductive ReviewState where
  | none | aligning | revisiting | waiting | ended
  deriving DecidableEq, Repr

inductive RevisitPhase where
  | target | move | focus | grab
  deriving DecidableEq, Repr

/-- The kind of a failed attempt, with its reason (R147). -/
inductive LastFailure where
  | focus (reason : FocusReason)
  | grabFault
  | grabTimeout
  deriving DecidableEq, Repr

/-- The active revisit (R138). -/
structure ActiveRevisit where
  slot : Slot
  index : Nat
  phase : RevisitPhase
  target : Point
  startZ : Int
  xyReq : Option Awaited
  zReq : Option Awaited
  lastFailure : Option LastFailure
  deriving DecidableEq, Repr

/-- The posting list, the store, the post sequence counts, and the review record (R122, R129, R121, R138). -/
structure Revisit where
  posting : List Entry
  store : List Entry
  postSequence : Two Nat
  wafer : Option WaferName
  review : ReviewState
  active : Option ActiveRevisit
  timer : Option Timer
  timeoutFlag : Bool
  deriving DecidableEq, Repr

/-! ## Grab link (R73, R144, R145) -/

inductive GrabKind where
  | mark | defect
  deriving DecidableEq, Repr

/-- A grab order's kind and operands. The requester is the alignment unit for MARK and the revisit unit for DEFECT. -/
structure GrabAsk where
  kind : GrabKind
  hostReference : Word
  frames : Nat
  deriving DecidableEq, Repr

structure Grab where
  tag : Tag
  ask : GrabAsk
  timer : Timer
  discard : Bool
  deriving DecidableEq, Repr

structure GrabLink where
  tag : Tag
  outstanding : Option Grab
  waiting : Option GrabAsk
  deriving DecidableEq, Repr

/-! ## Report unit (R158 to R172) -/

inductive ReportState where
  | none | opened | closed | released
  deriving DecidableEq, Repr

inductive RowState where
  | opened | closed
  deriving DecidableEq, Repr

/-- The eight outcome counts, in the order of R159's table. -/
structure Outcomes where
  reviewed : Nat
  focusFail : Nat
  grabFail : Nat
  travel : Nat
  aborted : Nat
  notSampled : Nat
  refused : Nat
  withdrawn : Nat
  deriving DecidableEq, Repr

/-- A report row (R160). `bins` are class bins 0 to 15. -/
structure Row where
  state : RowState
  finalResult : FinalResult
  posts : Nat
  outcomes : Outcomes
  bins : List Nat
  scale : Int
  rotation : Int
  mapZones : Nat
  mapLeast : Int
  mapGreatest : Int
  duration : Word
  postingTimeout : Bool
  late : Nat
  deriving DecidableEq, Repr

/-- An index of the class lock, naming the wafer slot of the row that put it there (R170). -/
structure ClassLocked where
  index : Nat
  wafer : Nat
  deriving DecidableEq, Repr

/-- A lot slot's report: state, header fields that are not sums of the rows, the 25 rows (or none), and the class lock. -/
structure Report where
  state : ReportState
  lotIdLow : Word
  lotIdHigh : Word
  startClock : Word
  endClock : Word
  unattributed : Nat
  rows : List Row
  classLock : List ClassLocked
  deriving DecidableEq, Repr

/-- A class table entry: the byte last written for its code, and the filled mark (R164). -/
structure ClassByte where
  value : Byte
  filled : Bool
  deriving DecidableEq, Repr

structure ClassTable where
  bytes : List ClassByte
  valid : Bool
  deriving DecidableEq, Repr

/-! ## Path unit (R173 to R190) -/

inductive AttachState where
  | detached | checking | attached | detaching
  deriving DecidableEq, Repr

inductive AttachReason where
  | none | badCapacity | badAlign | outOfMemory | overlap | detachRefused
  deriving DecidableEq, Repr

/-- The anchor's place (a byte address), and what its PART words show but for the notice record (R174). -/
structure Anchor where
  base : Nat
  attach : AttachState
  reason : AttachReason
  masked : Nat
  captureMiss : Nat
  stale : Nat
  deriving DecidableEq, Repr

inductive NoticeKind where
  | lotEnd | waferReturned | reviewWait | alignFail | handlingHalt | motionFault | linkLost | maskedWrite | reportClosed | attachResult
  deriving DecidableEq, Repr

/-- The notice record (R188): pending marks (bit n for kind n), the ten counts, and the mask copy. -/
structure Notice where
  pending : Word
  counts : List Nat
  mask : Word
  deriving DecidableEq, Repr

/-- The window map: the seven regions' byte addresses and the defect capacities (R175, R176). -/
structure Windows where
  lotBase : Two Nat
  defectBase : Two Nat
  reportBase : Two Nat
  classBase : Nat
  capacity : Two Nat
  deriving DecidableEq, Repr

/-- A P-port word access (R173): a byte address, and for a write its data and byte enables. -/
structure PAccess where
  write : Bool
  addr : Nat
  data : Word
  be : Enables
  deriving DecidableEq, Repr

/-- Why an access is held with wait states (R173). -/
inductive HoldReason where
  | directWrites | postRoom | postVersion | classTable
  deriving DecidableEq, Repr

/-- The P-port access in the path (R173). -/
inductive PathSlot where
  | idle
  | waiting (a : PAccess)
  | held (a : PAccess) (why : HoldReason)
  deriving DecidableEq, Repr

/-- A word of a capture line (R186). -/
structure CapturedWord where
  value : Word
  valid : Bool
  deriving DecidableEq, Repr

structure CaptureLine where
  slot : Slot
  index : Nat
  words : List CapturedWord
  deriving DecidableEq, Repr

structure Path where
  layoutGot : List Word
  windows : Option Windows
  layoutLock : Bool
  startLock : Two Bool
  closedLock : Two Bool
  slot : PathSlot
  offered : List PAccess
  readData : Option Word
  /-- The capture cache, least recently written first, at most 16 lines (R186). -/
  capture : List CaptureLine
  deriving DecidableEq, Repr

/-- A record image: word offsets from the record's first word, with values; the version word is not in it. -/
abbrev Image := List (Nat × Word)

/-- A record on the dirty list with the offsets of its dirty words, lowest first (R183). -/
structure DirtyRecord where
  id : RecId
  words : List Nat
  deriving DecidableEq, Repr

/-- A record held with the words it had when its owner dropped it, or a direct write (R178, R184). -/
structure HeldImage where
  id : RecId
  image : Image
  deriving DecidableEq, Repr

/-- Write-back (R182 to R184): the version words of held records, the dirty list, the direct-write list, and the records kept
after their owner dropped them; and the anchor version. -/
structure WriteBack where
  versions : List (RecId × Word)
  dirty : List DirtyRecord
  direct : List HeldImage
  kept : List HeldImage
  anchorVersion : Word
  deriving DecidableEq, Repr

/-- A part request to the M-port arbiter (R185): a queued word (with the record it is of), or a fetch read. -/
inductive PartRequest where
  | write (addr : Nat) (value : Word) (of : RecId)
  | layout (k : Nat)
  | startFetch (slot : Slot) (item : FetchItem)
  | postVersion (slot : Slot) (index : Nat)
  | fill (slot : Slot) (index : Nat) (w : Nat)
  | classTable (w : Nat)
  deriving DecidableEq, Repr

/-- Whose access the M-port is serving (R185). -/
inductive Server where
  | pPort | part
  deriving DecidableEq, Repr

/-- The M-port: the part requests in the order they were made (the queued words among them are the write queue), the access in
service, and the drain flag. -/
structure MPort where
  requests : List PartRequest
  serving : Option Server
  drain : Bool
  deriving DecidableEq, Repr

/-- The memory behind the M-port: the bytes that do not read 0, by address, addresses rising (log entry 3). -/
abbrev Memory := List Host.Cell

/-! ## Messages -/

/-- An order sent on a link (R24, R49, R73, R146). STOP and HOME name the axes by their group. -/
inductive LinkOrder where
  | robot (tag : Tag) (kind : RobotKind)
  | prealign (tag : Tag) (notch : Int)
  | map (port : Slot) (tag : Tag)
  | move (tag : Tag) (target : MoveTarget)
  | home (tag : Tag) (group : MotionGroup)
  | stop (tag : Tag) (group : MotionGroup)
  | grab (tag : Tag) (ask : GrabAsk)
  deriving DecidableEq, Repr

/-- What one block tells another within a step. -/
inductive Msg where
  | settled (r : Requester) (g : MotionGroup)
  | refused (r : Requester) (g : MotionGroup) (why : MoveRefusal)
  | focusAnswer (who : FocusRequester) (outcome : FocusOutcome)
  /-- The revisit unit looks at the stage wafer's list (R148, R149). -/
  | lookAtList
  deriving DecidableEq, Repr

/-- What is under way inside one step; empty between steps (log entry 11). `written`: records all of whose words the step writes.
`versioned`: records whose version word the step has set. `touched`: defect entries the step has changed. -/
structure Scratch where
  msgs : List Msg
  written : List RecId
  versioned : List RecId
  touched : List RecId
  deriving DecidableEq, Repr

/-- The state of the part, its command queue, and the memory behind it. -/
structure State where
  pending : List Instr
  clock : Word
  cell : CellLines
  lots : Two Lot
  reports : Two Report
  classTable : ClassTable
  handling : Handling
  motion : Motion
  align : Align
  sensor : Sensor
  af : Autofocus
  focusMap : List Zone
  revisit : Revisit
  grab : GrabLink
  anchor : Anchor
  notice : Notice
  path : Path
  wb : WriteBack
  mport : MPort
  mem : Memory
  out : List LinkOrder
  free : Nat
  scratch : Scratch
  deriving DecidableEq, Repr

/-! ## Values after hardware reset -/

/-- A lot slot after reset (R1, R20). -/
def Lot.reset : Lot where
  state := .empty
  refusal := .none
  badField := 0
  ignored := 0
  changed := 0
  fetch := none
  recipe := none
  wafers := []

/-- The location table after reset (R21). -/
def LocationTable.reset : LocationTable where
  carriers := .both (List.replicate 25 .empty)
  ua := .unknown
  la := .unknown
  pa := .unknown
  st := .unknown
  putBack := false

/-- The handling unit after reset (R45). -/
def Handling.reset : Handling where
  state := .unknown
  table := .reset
  robot := none
  prealigner := none
  mapper := .both none
  tag := 0
  carrierMap := .both none
  mapRequest := .both false
  uncertain := none
  haltMark := false
  homingDue := false

/-- An axis after reset (R46). -/
def Axis.reset : Axis where
  state := .unreferenced
  referenced := false
  position := 0
  target := 0

def GroupRecord.reset : GroupRecord := ⟨none, none, none⟩

/-- The motion unit after reset (R46, R61). -/
def Motion.reset : Motion where
  x := .reset
  y := .reset
  z := .reset
  xyGroup := .reset
  zGroup := .reset
  tag := 0
  epoch := 0
  nextReq := 0

/-- The transform record naming no wafer, with the identity coefficients (R67). -/
def Align.reset : Align where
  wafer := none
  state := .none
  mark := 1
  phase := .move
  attempts := 0
  a := 2 ^ 30
  b := 0
  tx := 0
  ty := 0
  m1 := ⟨none, none⟩
  m2 := ⟨none, none⟩
  m3 := ⟨none, none⟩
  reason := .none
  xyReq := none
  zReq := none

/-- The sensor link receiver after reset (R85). -/
def Sensor.reset : Sensor where
  link := .down
  good := 0
  assembler := .outside true false
  misframes := 0
  parityErrors := 0
  sequence := 0
  ring := []
  silence := none

/-- The autofocus record after reset (R96). The measurement's epoch 0, no start mark, the sum 0, the search centre, index and budget 0
and no running search are DESIGN CHOICE: R96 gives reset values to its counts, and does not call these counts (log entry 8). -/
def Autofocus.reset : Autofocus where
  state := .idle
  request := none
  zTarget := 0
  epoch := 0
  startMark := none
  taken := 0
  sum := 0
  inWindow := 0
  iterations := 0
  centre := 0
  index := 0
  budget := 0
  atSearch := false
  timer := none
  outcome := none
  zReq := none

/-- The cleared focus map (R111). -/
def clearedMap : List Zone := List.replicate 64 ⟨false, 0, 0⟩

/-- The revisit unit after reset (R137, R138). -/
def Revisit.reset : Revisit where
  posting := []
  store := []
  postSequence := .both 0
  wafer := none
  review := .none
  active := none
  timer := none
  timeoutFlag := false

/-- The grab link after reset (R144). -/
def GrabLink.reset : GrabLink := ⟨0, none, none⟩

def Outcomes.zero : Outcomes := ⟨0, 0, 0, 0, 0, 0, 0, 0⟩

/-- A report slot with no report held (R158). -/
def Report.reset : Report where
  state := .none
  lotIdLow := 0
  lotIdHigh := 0
  startClock := 0
  endClock := 0
  unattributed := 0
  rows := []
  classLock := []

/-- The class table after reset (R164). -/
def ClassTable.reset : ClassTable := ⟨List.replicate 256 ⟨0, false⟩, false⟩

/-- The notice record cleared (R189). -/
def Notice.reset : Notice := ⟨0, List.replicate 10 0, 0⟩

/-- The anchor's place by the sampled ANCHOR_SEL lines (R174). -/
def anchorBase (sel : BitVec 2) : Nat :=
  match sel.toNat with
  | 0 => 0x0000000
  | 1 => 0x0400000
  | 2 => 0x8000000
  | _ => 0xFFFF000

def Anchor.reset (sel : BitVec 2) : Anchor where
  base := anchorBase sel
  attach := .detached
  reason := .none
  masked := 0
  captureMiss := 0
  stale := 0

/-- The path unit after reset (R190). -/
def Path.reset : Path where
  layoutGot := []
  windows := none
  layoutLock := false
  startLock := .both false
  closedLock := .both false
  slot := .idle
  offered := []
  readData := none
  capture := []

def WriteBack.reset : WriteBack := ⟨[], [], [], [], 0⟩

def MPort.reset : MPort := ⟨[], none, false⟩

def Scratch.empty : Scratch := ⟨[], [], [], []⟩

/-- Every block at its reset values, with the lines as sampled; memory, the queue and the free-value counter are the caller's. -/
def State.resetWith (sel : BitVec 2) (lines : CellLines) (mem : Memory) (pending : List Instr) (free : Nat) : State where
  pending := pending
  clock := 0
  cell := lines
  lots := .both .reset
  reports := .both .reset
  classTable := .reset
  handling := .reset
  motion := .reset
  align := .reset
  sensor := .reset
  af := .reset
  focusMap := clearedMap
  revisit := .reset
  grab := .reset
  anchor := .reset sel
  notice := .reset
  path := .reset
  wb := .reset
  mport := .reset
  mem := mem
  out := []
  free := free
  scratch := .empty

/-- The machine right after reset. The input lines' levels and the memory's contents are log entries 3 and 4. -/
def State.reset : State :=
  State.resetWith 0 ⟨false, .both false⟩ [] [] 0

end Sys2Proof.Machine
end

