-- ==== Sys2Proof/Machine/Arith.lean ====
section
/-! DEFINITION. Rounding, saturation, clamping, byte lanes, and timers: the conventions of 00_scope.md and R19, R191. -/

namespace Sys2Proof.Machine

/-- Rounding of n / d to the nearest integer, halves away from zero; n exact, d positive (00_scope.md, Rounding). -/
def rnd (n : Int) (d : Nat) : Int :=
  let q : Int := ((2 * n.natAbs + d) / (2 * d) : Nat)
  if n < 0 then -q else q

/-- A count of `n` increased by 1 that saturates at `top` (00_scope.md, Saturation). -/
def satInc (top n : Nat) : Nat := if n < top then n + 1 else n

/-- `x` clamped to lo..hi (00_scope.md, Saturation and clamping). -/
def clamp (lo hi x : Int) : Int := if x < lo then lo else if hi < x then hi else x

/-- `x` lies in lo..hi, both ends included (00_scope.md, Numbers). -/
def within (lo hi x : Int) : Bool := decide (lo ≤ x ∧ x ≤ hi)

/-- The magnitude of `x` is at most `m`. -/
def withinAbs (m x : Int) : Bool := within (-m) m x

/-- Byte lane k of a word: bits 8k to 8k + 7 (R191). -/
def lane (k : Nat) (w : Word) : Byte := w.extractLsb' (8 * k) 8

def lowHalf (w : Word) : BitVec 16 := w.extractLsb' 0 16
def highHalf (w : Word) : BitVec 16 := w.extractLsb' 16 16

/-- A word from four lane values (R191). -/
def ofLanes (l0 l1 l2 l3 : Nat) : Word :=
  BitVec.ofNat 32 (l0 % 256 + 2 ^ 8 * (l1 % 256) + 2 ^ 16 * (l2 % 256) + 2 ^ 24 * (l3 % 256))

/-- A word from its low and high halves (R191). -/
def ofHalves (low high : Nat) : Word := BitVec.ofNat 32 (low % 2 ^ 16 + 2 ^ 16 * (high % 2 ^ 16))

/-- A signed field of a whole word, in two's complement (R191). -/
def wordOfInt (x : Int) : Word := BitVec.ofInt 32 x

def wordOfNat (n : Nat) : Word := BitVec.ofNat 32 n

/-- All four byte enables set: a full-word write (00_scope.md, Words and addresses). -/
def isFull (be : Enables) : Bool := be == 15#4

/-- The bits of the enabled lanes. -/
def laneMask (be : Enables) : Word :=
  ofLanes (if be.getLsbD 0 then 255 else 0) (if be.getLsbD 1 then 255 else 0)
    (if be.getLsbD 2 then 255 else 0) (if be.getLsbD 3 then 255 else 0)

/-- `old` with the enabled lanes of `new` merged in (R186, R189). -/
def mergeLanes (be : Enables) (old new : Word) : Word :=
  (new &&& laneMask be) ||| (old &&& ~~~(laneMask be))

/-- A timer started at clock value `now`, for `ms` milliseconds (R19). -/
def Timer.at (now : Word) (ms : Nat) : Timer := ⟨now, ms⟩

/-- The timer has expired at clock value `now`: now minus start, modulo 2^32, equals or exceeds the duration (R19). -/
def Timer.due (t : Timer) (now : Word) : Bool := decide (t.duration ≤ (now - t.start).toNat)

end Sys2Proof.Machine
end

