-- ==== Sys2Proof/Machine/Codes.lean ====
section
/-! DEFINITION. The numeric codes of state, reason and request fields (11_memory_formats.md, Codes). -/

namespace Sys2Proof.Machine

/-! ## Requests written to trigger words -/

def codeAttach : Word := 1
def codeDetach : Word := 0
def codeResume : Word := 1
def codeInventory : Word := 2
def codeHome : Word := 1
def codeStart : Word := 1
def codeAbort : Word := 2
def codeRelease : Word := 3
def codeClose : Word := 1
def codePost : Word := 1
def codeWithdraw : Word := 2

/-! ## States and reasons -/

def AttachState.code : AttachState → Nat
  | .detached => 0 | .checking => 1 | .attached => 2 | .detaching => 3

def AttachReason.code : AttachReason → Nat
  | .none => 0 | .badCapacity => 1 | .badAlign => 2 | .outOfMemory => 3 | .overlap => 4 | .detachRefused => 5

def AxisState.code : AxisState → Nat
  | .unreferenced => 0 | .homing => 1 | .idle => 2 | .moving => 3 | .settling => 4 | .fault => 5

def LinkState.code : LinkState → Nat
  | .down => 0 | .hunt => 1 | .locked => 2

def HandlingState.code : HandlingState → Nat
  | .unknown => 0 | .inventory => 1 | .idle => 2 | .busy => 3 | .hold => 4 | .halted => 5

def LotState.code : LotState → Nat
  | .empty => 0 | .starting => 1 | .queued => 2 | .running => 3 | .finishing => 4 | .aborting => 5 | .done => 6 | .aborted => 7

def RefusalCode.code : RefusalCode → Nat
  | .none => 0 | .busy => 1 | .noCarrier => 2 | .notReferenced => 3 | .badRecipe => 4 | .marksTooClose => 5 | .noneSelected => 6

def WaferState.code : WaferState → Nat
  | .waiting => 1 | .skipped => 2 | .absent => 3 | .mapFault => 4 | .unaligned => 5 | .prealigning => 6 | .ready => 7
  | .onStage => 8 | .reviewEnded => 9 | .returning => 10 | .returned => 11 | .orphaned => 12

def FinalResult.code : FinalResult → Nat
  | .none => 0 | .reviewed => 1 | .alignFailed => 2 | .aborted => 3 | .suspect => 4 | .notProcessed => 5

def TransformState.code : TransformState → Nat
  | .none => 0 | .provisional => 1 | .measuring => 2 | .aligned => 3 | .failed => 4

def AlignReason.code : AlignReason → Nat
  | .none => 0 | .markMove => 1 | .markTravel => 2 | .markFocus => 3 | .markNotFound => 4 | .scale => 5 | .rotation => 6
  | .residual => 7 | .lotAbort => 8 | .motionFault => 9

def EntryState.code : EntryState → Nat
  | .posting => 1 | .queued => 2 | .active => 3 | .reviewed => 4 | .focusFail => 5 | .grabFail => 6 | .travel => 7
  | .aborted => 8 | .notSampled => 9 | .refused => 10 | .withdrawn => 11

def EntryReason.code : EntryReason → Nat
  | .none => 0 | .lotNotActive => 1 | .badSlot => 2 | .notSelected => 3 | .rowClosed => 4 | .waferPassed => 5 | .zeroId => 6
  | .duplicateId => 7 | .badCoord => 8 | .offWafer => 9 | .storeFull => 10 | .limit => 11 | .displaced => 12 | .lotAbort => 13
  | .motionFault => 14 | .alignFail => 15 | .waferUnavailable => 16 | .outOfRange => 17 | .noConverge => 18 | .noSignal => 19
  | .link => 20 | .timeout => 21 | .zRefused => 22 | .busy => 23 | .grabFault => 24 | .grabTimeout => 25 | .outOfTravel => 26
  | .notReady => 27 | .stageHeld => 28

/-- The report state; NONE has no code, since no report is held then (R158). -/
def ReportState.code : ReportState → Nat
  | .none => 0 | .opened => 1 | .closed => 2 | .released => 3

def RowState.code : RowState → Nat
  | .opened => 1 | .closed => 2

/-- The number of a notice kind (11_memory_formats.md, The anchor). -/
def NoticeKind.number : NoticeKind → Nat
  | .lotEnd => 0 | .waferReturned => 1 | .reviewWait => 2 | .alignFail => 3 | .handlingHalt => 4 | .motionFault => 5
  | .linkLost => 6 | .maskedWrite => 7 | .reportClosed => 8 | .attachResult => 9

/-- The encoding of a location, NONE being 0 (11_memory_formats.md, The lot record). -/
def Loc.code : Loc → Nat
  | .carrier .zero n => n
  | .carrier .one n => 32 + n
  | .ua => 64
  | .la => 65
  | .pa => 66
  | .st => 67

/-- The reason an entry takes from an autofocus reason (R119, R147). -/
def FocusReason.entry : FocusReason → EntryReason
  | .outOfRange => .outOfRange | .noConverge => .noConverge | .noSignal => .noSignal | .link => .link
  | .timeout => .timeout | .zRefused => .zRefused | .busy => .busy

/-- The reason an entry that ends TRAVEL takes from the refusal of its move (R142). -/
def MoveRefusal.entry : MoveRefusal → EntryReason
  | .notReady => .notReady | .stageHeld => .stageHeld | .travel => .outOfTravel

end Sys2Proof.Machine
end

