-- ==== Sys2Proof/Machine/Ops.lean ====
section
/-! DEFINITION. The named operations on State that every block uses: lots, wafers, the location table, notices, counts, link
orders, and the events in flight inside a step. -/

namespace Sys2Proof.Machine

/-- The n-th element (counted from 1) changed by `f`. -/
def modAt {α : Type} (l : List α) (n : Nat) (f : α → α) : List α :=
  match n with
  | 0 => l
  | n + 1 => l.modify n f

/-- The n-th element, counted from 1. -/
def getAt {α : Type} (l : List α) (n : Nat) : Option α :=
  match n with
  | 0 => none
  | n + 1 => l[n]?

/-! ## Lots and wafers -/

def State.lot (s : State) (k : Slot) : Lot := s.lots.get k
def State.setLot (s : State) (k : Slot) (l : Lot) : State := { s with lots := s.lots.set k l }
def State.modLot (s : State) (k : Slot) (f : Lot → Lot) : State := s.setLot k (f (s.lot k))

def State.wafer (s : State) (w : WaferName) : Option Wafer := getAt (s.lot w.slot).wafers w.n

def State.modWafer (s : State) (w : WaferName) (f : Wafer → Wafer) : State :=
  s.modLot w.slot fun l => { l with wafers := modAt l.wafers w.n f }

/-- The state of a wafer record, if there is one. -/
def State.waferState (s : State) (w : WaferName) : Option WaferState := (s.wafer w).map (·.state)

/-- The final states (R11). -/
def WaferState.isFinal : WaferState → Bool
  | .returned | .skipped | .absent | .mapFault | .orphaned => true
  | _ => false

/-- Outside the carrier in a non-final state (R16, R38). -/
def WaferState.isOutside : WaferState → Bool
  | .unaligned | .prealigning | .ready | .onStage | .reviewEnded | .returning => true
  | _ => false

/-- The lot states in which detach is refused (R177). -/
def LotState.isActive : LotState → Bool
  | .starting | .queued | .running | .finishing | .aborting => true
  | _ => false

/-- QUEUED, RUNNING or FINISHING (R12, R126, R134). -/
def LotState.takesPosts : LotState → Bool
  | .queued | .running | .finishing => true
  | _ => false

/-- The recipe fields of a slot that holds no fetched recipe; no rule reads them. -/
def Recipe.blank : Recipe :=
  ⟨0, 0, 0, 0, 0, 0, 0, 0, 0, 0, 0, 0, 0, 0, 0, 0, 0, 0, 0, 0, 0, 0, 0, 0, 0, 0, 0, 0, 0, 0, 0, 0, 0, 0, 0⟩

/-- The fetched recipe of a slot (R1). -/
def State.recipe (s : State) (k : Slot) : Recipe := (s.lot k).recipe.getD Recipe.blank

/-! ## The location table (R21) -/

def LocationTable.get (t : LocationTable) : Loc → Occupant
  | .carrier p n => (getAt (t.carriers.get p) n).getD .empty
  | .ua => t.ua
  | .la => t.la
  | .pa => t.pa
  | .st => t.st

/-- An entry written. Writing UA drops its put-back mark. -/
def LocationTable.set (t : LocationTable) (l : Loc) (o : Occupant) : LocationTable :=
  match l with
  | .carrier p n => { t with carriers := t.carriers.set p (modAt (t.carriers.get p) n fun _ => o) }
  | .ua => { t with ua := o, putBack := false }
  | .la => { t with la := o }
  | .pa => { t with pa := o }
  | .st => { t with st := o }

def State.at (s : State) (l : Loc) : Occupant := s.handling.table.get l

def State.setAt (s : State) (l : Loc) (o : Occupant) : State :=
  { s with handling := { s.handling with table := s.handling.table.set l o } }

/-- Where the location table names a wafer: the wafer entry's location word (R10), NONE when the table names it nowhere. -/
def State.locationOf (s : State) (w : WaferName) : Option Loc :=
  let t := s.handling.table
  if t.ua = .wafer w then some .ua
  else if t.la = .wafer w then some .la
  else if t.pa = .wafer w then some .pa
  else if t.st = .wafer w then some .st
  else if t.get (.carrier w.slot w.n) = .wafer w then some (.carrier w.slot w.n)
  else none

/-- The wafer a location holds, if it holds one. -/
def Occupant.name : Occupant → Option WaferName
  | .wafer w => some w
  | _ => none

/-- The state of the wafer at a location, if it holds one with a record. -/
def State.stateAt (s : State) (l : Loc) : Option WaferState := (s.at l).name.bind s.waferState

/-- The lot whose wafer the location table names at ST, when its slot holds a fetched recipe (R54, R92). -/
def State.stageRecipe (s : State) : Option Recipe := (s.at .st).name.bind fun w => (s.lot w.slot).recipe

/-! ## Notices and counts (R174, R188) -/

/-- Raising a notice: counted and marked while ATTACHED; ATTACH_RESULT in every attach state (R188). -/
def State.raise (s : State) (k : NoticeKind) : State :=
  if s.anchor.attach = .attached ∨ k = .attachResult then
    { s with notice := { s.notice with
        pending := s.notice.pending ||| (1#32 <<< k.number)
        counts := s.notice.counts.modify k.number (satInc 65535) } }
  else s

/-- The notice line, asserted while some kind is both pending and set in the mask copy; bits 10 to 31 name no kind (R188, R192). -/
def State.noticeLine (s : State) : Bool := (s.notice.pending &&& s.notice.mask &&& 0x3FF#32) != 0#32

/-- The anchor's stale-reply count, which the handler, motion and grab links feed (R26, R51, R145). -/
def State.countStale (s : State) : State :=
  { s with anchor := { s.anchor with stale := satInc 65535 s.anchor.stale } }

/-- A masked word access: counted, and MASKED_WRITE raised (R179). -/
def State.countMasked (s : State) : State :=
  { s with anchor := { s.anchor with masked := satInc 65535 s.anchor.masked } }.raise .maskedWrite

/-! ## Messages of a step -/

/-- An order sent on a link in this step. -/
def State.emit (s : State) (o : LinkOrder) : State := { s with out := s.out ++ [o] }

/-- One block tells another, to be delivered in the same step. -/
def State.say (s : State) (m : Msg) : State := { s with scratch := { s.scratch with msgs := s.scratch.msgs ++ [m] } }

def State.sayAll (s : State) (ms : List Msg) : State := { s with scratch := { s.scratch with msgs := s.scratch.msgs ++ ms } }

/-- An expiry taken: its effect when its timer is due; before that no expiry has happened, and nothing changes (R19; log entry 2). -/
def State.whenDue (s : State) (t : Timer) (f : State → State) : State := if t.due s.clock then f s else s

end Sys2Proof.Machine
end

