-- ==== Sys2Proof/Machine/Motion.lean ====
section
/-! DEFINITION. The motion unit: move requests, orders, settling, homing and the load position (R46 to R61). -/

namespace Sys2Proof.Machine

/-- X and Y travel of the load position (03, Travel and the load position; R48). -/
def loadX : Int := 0
def loadY : Int := -165000000

def xyTravel : Int := 170000000
def zTravel : Int := 3000000

def moveXYTimeout : Nat := 5000
def moveZTimeout : Nat := 2000
def homeTimeout : Nat := 60000

/-! ## Axes by group -/

def Motion.group (m : Motion) : MotionGroup → GroupRecord
  | .xy => m.xyGroup
  | .z => m.zGroup

def Motion.setGroup (m : Motion) (g : MotionGroup) (r : GroupRecord) : Motion :=
  match g with
  | .xy => { m with xyGroup := r }
  | .z => { m with zGroup := r }

/-- The state of a group's axes; X and Y always hold the same state (R47). -/
def Motion.stateOf (m : Motion) : MotionGroup → AxisState
  | .xy => m.x.state
  | .z => m.z.state

/-- Every axis of the group is IDLE (R52). -/
def Motion.groupIdle (m : Motion) : MotionGroup → Bool
  | .xy => decide (m.x.state = .idle ∧ m.y.state = .idle)
  | .z => decide (m.z.state = .idle)

/-- The reference flag is set exactly while the axis is IDLE, MOVING or SETTLING (R46). -/
def AxisState.isReferenced : AxisState → Bool
  | .idle | .moving | .settling => true
  | _ => false

/-- An axis entering a state, with the reference flag R46 gives it there. -/
def Axis.enter (a : Axis) (st : AxisState) : Axis := { a with state := st, referenced := st.isReferenced }

/-- The axes of a group entering a state. -/
def Motion.enter (m : Motion) (g : MotionGroup) (st : AxisState) : Motion :=
  match g with
  | .xy => { m with x := m.x.enter st, y := m.y.enter st }
  | .z => { m with z := m.z.enter st }

/-- The commanded target of the axes a target is for. -/
def Motion.setTarget (m : Motion) : MoveTarget → Motion
  | .xy x y => { m with x := { m.x with target := x }, y := { m.y with target := y } }
  | .z h => { m with z := { m.z with target := h } }

/-- The position of the axes a target is for. -/
def Motion.setPosition (m : Motion) : MoveTarget → Motion
  | .xy x y => { m with x := { m.x with position := x }, y := { m.y with position := y } }
  | .z h => { m with z := { m.z with position := h } }

def MoveTarget.group : MoveTarget → MotionGroup
  | .xy _ _ => .xy
  | .z _ => .z

/-- The target lies within travel (R52). -/
def MoveTarget.inTravel : MoveTarget → Bool
  | .xy x y => withinAbs xyTravel x && withinAbs xyTravel y
  | .z h => within 0 zTravel h

def MoveTarget.timeout : MoveTarget → Nat
  | .xy _ _ => moveXYTimeout
  | .z _ => moveZTimeout

/-- X and Y are settled at the load position (R48). -/
def Motion.atLoad (m : Motion) : Bool :=
  decide (m.x.state = .idle ∧ m.y.state = .idle ∧ m.x.position = loadX ∧ m.y.position = loadY)

/-- X, Y and Z are all referenced (R4). -/
def Motion.allReferenced (m : Motion) : Bool := m.x.referenced && m.y.referenced && m.z.referenced

/-- A robot order whose location is ST is outstanding (R52, R58). -/
def State.robotAtStage (s : State) : Bool :=
  match s.handling.robot with
  | some o => match o.kind with
    | .pick .st _ => true
    | .place .st _ => true
    | _ => false
  | none => false

def State.setMotion (s : State) (m : Motion) : State := { s with motion := m }
def State.setGroup (s : State) (g : MotionGroup) (r : GroupRecord) : State :=
  s.setMotion (s.motion.setGroup g r)

/-! ## Judging and sending (R52) -/

/-- The refusals that answer a request, one to each requester. -/
def refusals (rs : List Requester) (g : MotionGroup) (why : MoveRefusal) : List Msg := rs.map fun r => .refused r g why

/-- The first check of R52 that fails. -/
def State.moveCheck (s : State) (t : MoveTarget) : Option MoveRefusal :=
  if ¬ s.motion.groupIdle t.group then some .notReady
  else if ¬ t.inTravel then some .travel
  else if t.group = .xy ∧ s.robotAtStage then some .stageHeld
  else none

/-- A request that passes is sent: its tag taken, its timer started, its axes MOVING toward the target (R49, R50, R52). -/
def State.sendMove (s : State) (t : MoveTarget) (rs : List Requester) : State :=
  let m := s.motion
  let order : MotionOrder := ⟨m.tag, .move t, .at s.clock t.timeout, rs⟩
  let g := m.group t.group
  let m := ((m.setGroup t.group { g with order := some order }).enter t.group .moving).setTarget t
  (s.setMotion { m with tag := m.tag + 1 }).emit (.move order.tag t)

/-- A request judged for sending: sent, or refused to each requester (R52). -/
def State.judgeMove (s : State) (t : MoveTarget) (rs : List Requester) : State :=
  match s.moveCheck t with
  | some why => s.sayAll (refusals rs t.group why)
  | none => s.sendMove t rs

/-- The request becomes the group's waiting request; the one it replaces is refused NOT_READY (R53). -/
def State.waitMove (s : State) (w : WaitingMove) : State :=
  let g := w.target.group
  let r := s.motion.group g
  let s := match r.waiting with
    | some old => s.sayAll (refusals old.requesters g .notReady)
    | none => s
  s.setGroup g { r with waiting := some w }

/-- A move request by the state of its group (R52, R53). -/
def State.requestMove (s : State) (t : MoveTarget) (r : Requester) : State :=
  match s.motion.stateOf t.group with
  | .unreferenced | .fault => s.sayAll (refusals [r] t.group .notReady)
  | .idle => s.judgeMove t [r]
  | .moving | .settling | .homing => s.waitMove ⟨t, false, [r]⟩

/-- The number the next move request takes. -/
def State.takeRequest (s : State) : State :=
  s.setMotion { s.motion with nextReq := s.motion.nextReq + 1 }

/-! ## The load position request (R55) -/

def Requester.of (rs : List Requester) (u : MoveUnit) : Bool := rs.any fun r => r.unit == u

/-- A requester added to those an order or a waiting request will answer, unless its unit is already among them. -/
def addRequester (rs : List Requester) (r : Requester) : List Requester := if Requester.of rs r.unit then rs else rs ++ [r]

def loadTarget : MoveTarget := .xy loadX loadY

/-- The commanded target of X and Y is the load position. -/
def Motion.toLoad (m : Motion) : Bool := decide (m.x.target = loadX ∧ m.y.target = loadY)

/-- The request added to the requesters of the outstanding or settling XY order. -/
def GroupRecord.join (g : GroupRecord) (r : Requester) : GroupRecord where
  order := g.order.map fun o => { o with requesters := addRequester o.requesters r }
  settling := g.settling.map fun o => { o with requesters := addRequester o.requesters r }
  waiting := g.waiting

/-- A load-position request waiting: it joins a waiting load-position request, or takes the waiting request's place (R53).
At a review's cut-off that place may be held by an XY request that R81 and R152 leave waiting: DESIGN CHOICE, it is replaced as R53 says
(log entry 45). -/
def State.waitLoad (s : State) (r : Requester) : State :=
  match s.motion.xyGroup.waiting with
  | some w =>
    if w.load then s.setGroup .xy { s.motion.xyGroup with waiting := some { w with requesters := addRequester w.requesters r } }
    else s.waitMove ⟨loadTarget, true, [r]⟩
  | none => s.waitMove ⟨loadTarget, true, [r]⟩

/-- A load-position request, answered by the state of the XY group (R55). -/
def State.requestLoad (s : State) (u : MoveUnit) : State :=
  let r : Requester := ⟨u, s.motion.nextReq⟩
  if s.motion.atLoad then s.say (.settled r .xy)
  else match s.motion.x.state with
    | .moving | .settling =>
      if s.motion.toLoad then s.setGroup .xy (s.motion.xyGroup.join r) else s.waitLoad r
    | .homing => s.waitLoad r
    | .idle => s.judgeMove loadTarget [r]
    | .unreferenced | .fault => s.sayAll (refusals [r] .xy .notReady)

/-! ## Settling and homing (R54, R59) -/

/-- The Z epoch count increases by 1 (R54, R59). -/
def State.advanceEpoch (s : State) : State := s.setMotion { s.motion with epoch := s.motion.epoch + 1 }

/-- The group's waiting request, judged at the event that makes the group IDLE (R53). -/
def State.judgeWaiting (s : State) (g : MotionGroup) : State :=
  let r := s.motion.group g
  match r.waiting with
  | some w => (s.setGroup g { r with waiting := none }).judgeMove w.target w.requesters
  | none => s

/-- The settle timer's expiry: axes IDLE, settled events to the requesters, the Z epoch, then the waiting request (R54). -/
def State.settleExpires (s : State) (g : MotionGroup) (rs : List Requester) : State :=
  let r := s.motion.group g
  let s := s.setMotion ((s.motion.setGroup g { r with settling := none }).enter g .idle)
  let s := s.sayAll (rs.map fun q => .settled q g)
  let s := if g = .z then s.advanceEpoch else s
  s.judgeWaiting g

/-- The settle time: that of the lot whose wafer is on ST, 0 when ST holds no wafer of a started lot (R54). -/
def State.settleTime (s : State) : Nat :=
  match s.stageRecipe with
  | some r => r.settleTime.toNat
  | none => 0

/-- ARRIVED taken for a MOVE of group g: the order ends, the axes stand at its target, SETTLING; a settle time of 0 expires at
once (R54). -/
def State.arrive (s : State) (g : MotionGroup) (o : MotionOrder) (t : MoveTarget) : State :=
  let r := s.motion.group g
  let ms := s.settleTime
  let m := (s.motion.setGroup g { r with order := none, settling := some ⟨.at s.clock ms, o.requesters⟩ }).enter g .settling
  let s := s.setMotion (m.setPosition t)
  if ms = 0 then s.settleExpires g o.requesters else s

/-- The home position of a group (03, Homing). -/
def homeOf : MotionGroup → MoveTarget
  | .xy => .xy 0 0
  | .z => .z 0

/-- HOMED taken for a HOME order: IDLE, referenced, at home; no settle time follows (R59). -/
def State.homedGroup (s : State) (g : MotionGroup) : State :=
  let r := s.motion.group g
  let m := (s.motion.setGroup g { r with order := none }).enter g .idle
  let s := s.setMotion ((m.setPosition (homeOf g)).setTarget (homeOf g))
  let s := if g = .z then s.advanceEpoch else s
  s.judgeWaiting g

/-- HOME sent for a group: axes HOMING, reference lost (R58). -/
def State.sendHome (s : State) (g : MotionGroup) : State :=
  let m := s.motion
  let order : MotionOrder := ⟨m.tag, .home, .at s.clock homeTimeout, []⟩
  let r := m.group g
  let m := (m.setGroup g { r with order := some order }).enter g .homing
  (s.setMotion { m with tag := m.tag + 1 }).emit (.home order.tag g)

/-- Whether a homing request is taken (R58). -/
def State.homeAllowed (s : State) : Bool :=
  s.motion.xyGroup.order.isNone && s.motion.zGroup.order.isNone
    && decide (s.motion.x.state ≠ .settling ∧ s.motion.y.state ≠ .settling ∧ s.motion.z.state ≠ .settling)
    && !s.robotAtStage

/-- A homing request: both HOME orders, X and Y first, or refused and nothing changed (R58, R60). -/
def State.requestHome (s : State) : State :=
  if s.homeAllowed then (s.sendHome .xy).sendHome .z else s

/-- STOP sent: a tag is taken, nothing becomes outstanding (R49). -/
def State.sendStop (s : State) (g : MotionGroup) : State :=
  let t := s.motion.tag
  (s.setMotion { s.motion with tag := t + 1 }).emit (.stop t g)

/-- The group's order ends and its axes enter FAULT, positions kept (R56, R57). -/
def State.faultGroup (s : State) (g : MotionGroup) : State :=
  let r := s.motion.group g
  s.setMotion ((s.motion.setGroup g { r with order := none }).enter g .fault)

/-- The group whose outstanding order carries the tag; both groups' tags are compared (R51). Where both carry it, which the wrapping
tag counter allows, R51 does not say which is answered: DESIGN CHOICE, the order of X and Y, by whose kind alone the reply is judged
(log entry 41). -/
def Motion.orderWith (m : Motion) (tag : Tag) : Option (MotionGroup × MotionOrder) :=
  match m.xyGroup.order, m.zGroup.order with
  | some o, some p => if o.tag = tag then some (.xy, o) else if p.tag = tag then some (.z, p) else none
  | some o, none => if o.tag = tag then some (.xy, o) else none
  | none, some p => if p.tag = tag then some (.z, p) else none
  | none, none => none

/-! ## Detach (R61) -/

/-- A group at detach: an outstanding order is cut off with STOP and its axes lose their reference; SETTLING becomes IDLE. -/
def State.detachGroup (s : State) (g : MotionGroup) : State :=
  let r := s.motion.group g
  if r.order.isSome then
    let s := s.sendStop g
    s.setMotion ((s.motion.setGroup g .reset).enter g .unreferenced)
  else
    let m := s.motion.setGroup g .reset
    s.setMotion (if m.stateOf g = .settling then m.enter g .idle else m)

/-- Detach of the motion unit (R61). Where orders of both groups are cut off R61 does not say which STOP is sent, and takes its tag,
first: DESIGN CHOICE, X and Y before Z (log entry 31). -/
def State.detachMotion (s : State) : State :=
  let s := (s.detachGroup .xy).detachGroup .z
  s.setMotion { s.motion with tag := 0, epoch := 0 }

end Sys2Proof.Machine
end

