-- ==== Sys2Proof/Machine/Transform.lean ====
section
/-! DEFINITION. Coordinates: die to wafer, the quarter turn, the fine transform, and the solve with its checks (R62 to R82). -/

namespace Sys2Proof.Machine

/-! ## Die to wafer (R62, R63) -/

/-- The largest wafer coordinate (R63). -/
def waferEdge : Int := 160000000

/-- The wafer position of a site (R62). -/
def dieToWafer (r : Recipe) (col row dx dy : Int) : Point :=
  ⟨r.originX + col * r.pitchX + dx, r.originY + row * r.pitchY + dy⟩

/-- The first check of R63 that refuses a site. -/
def coordinateCheck (r : Recipe) (col row dx dy : Int) : Option EntryReason :=
  let p := dieToWafer r col row dx dy
  if ¬ (within 0 1023 col ∧ within 0 1023 row) then some .badCoord
  else if ¬ (within 0 (r.pitchX - 1) dx ∧ within 0 (r.pitchY - 1) dy) then some .badCoord
  else if ¬ (withinAbs waferEdge p.x ∧ withinAbs waferEdge p.y) then some .offWafer
  else none

/-! ## The quarter turn (R64) -/

/-- q = (inspection notch quarter - load notch quarter) mod 4. -/
def Recipe.quarter (r : Recipe) : Nat := ((r.inspectionNotch - r.loadNotch) % 4).toNat

def quarterTurn (q : Nat) (p : Point) : Point :=
  match q with
  | 0 => p
  | 1 => ⟨-p.y, p.x⟩
  | 2 => ⟨-p.x, -p.y⟩
  | _ => ⟨p.y, -p.x⟩

/-! ## The fine transform (R65, R66) -/

/-- 2^30, the scale of the coefficients a and b. -/
def unit30 : Nat := 2 ^ 30

/-- The rounded parts of R65, before the offsets are added. -/
def rotateScale (a b : Int) (p : Point) : Point :=
  ⟨rnd (a * p.x - b * p.y) unit30, rnd (b * p.x + a * p.y) unit30⟩

/-- The stage point of a quarter-turned point (R65). -/
def fineTransform (a b tx ty : Int) (p : Point) : Point :=
  let r := rotateScale a b p
  ⟨r.x + tx, r.y + ty⟩

/-- A stage point lies within X and Y travel. -/
def Point.inTravel (p : Point) : Bool := withinAbs xyTravel p.x && withinAbs xyTravel p.y

/-- The stage point of an inspection-frame point by the record's coefficients (R64, R65). -/
def Align.convert (al : Align) (r : Recipe) (p : Point) : Point :=
  fineTransform al.a al.b al.tx al.ty (quarterTurn r.quarter p)

/-! ## Marks and the solve (R71, R75 to R78, R82) -/

/-- The nominal position of mark n (R5). -/
def Recipe.markAt (r : Recipe) (n : Nat) : Point :=
  match n with
  | 1 => ⟨r.p1x, r.p1y⟩
  | 2 => ⟨r.p2x, r.p2y⟩
  | _ => ⟨r.p3x, r.p3y⟩

/-- The quarter-turned nominal position Pn' of mark n. -/
def Recipe.turnedMark (r : Recipe) (n : Nat) : Point := quarterTurn r.quarter (r.markAt n)

/-- The coefficients and offsets of a solve. -/
structure Solved where
  a : Int
  b : Int
  tx : Int
  ty : Int
  deriving DecidableEq, Repr

/-- The solve from the quarter-turned nominal positions and the measured positions of marks 1 and 2 (R75, R76). -/
def solve (p1 p2 m1 m2 : Point) : Solved :=
  let dnx := p2.x - p1.x
  let dny := p2.y - p1.y
  let dmx := m2.x - m1.x
  let dmy := m2.y - m1.y
  let n : Nat := (dnx * dnx + dny * dny).toNat
  let a := rnd (2 ^ 30 * (dmx * dnx + dmy * dny)) n
  let b := rnd (2 ^ 30 * (dmy * dnx - dmx * dny)) n
  let r := rotateScale a b p1
  ⟨a, b, m1.x - r.x, m1.y - r.y⟩

/-- The first check of R77 that fails. -/
def solveCheck (r : Recipe) (c : Solved) : Option AlignReason :=
  if ¬ (10 ^ 6 * ((c.a - 2 ^ 30).natAbs : Int) ≤ r.scaleTolerance * 2 ^ 30) then some .scale
  else if ¬ (10 ^ 6 * (c.b.natAbs : Int) ≤ r.rotationTolerance * 2 ^ 30) then some .rotation
  else none

/-- The scale figure, ppm (R82). -/
def Solved.scaleFigure (c : Solved) : Int := rnd (10 ^ 6 * (c.a - 2 ^ 30)) unit30
/-- The rotation figure, microradians (R82). -/
def Solved.rotationFigure (c : Solved) : Int := rnd (10 ^ 6 * c.b) unit30

/-- The residual of mark 3: the larger of the two distances (R78). -/
def residual (measured target : Point) : Nat :=
  max (measured.x - target.x).natAbs (measured.y - target.y).natAbs

/-- The largest offset of a found mark (R74). -/
def markOffsetMax : Int := 500000

end Sys2Proof.Machine
end

