-- ==== Sys2Proof/Machine/FocusMap.lean ====
section
/-! DEFINITION. The focus map: zones, update, prediction and figures (R111 to R114). -/

namespace Sys2Proof.Machine

/-- A column or row index: floor((v + 160,000,000) / 40,000,000), clamped to 0..7 (R111). -/
def zoneIndex (v : Int) : Nat := (clamp 0 7 ((v + 160000000) / 40000000)).toNat

/-- The zone of a stage point, in a map of 8 rows of 8 columns (R111). -/
def zoneOf (p : Point) : Nat := 8 * zoneIndex p.y + zoneIndex p.x

/-- A zone after a focused Z in it (R112). -/
def Zone.learn (zone : Zone) (z : Int) : Zone :=
  if zone.valid then ⟨true, rnd (3 * zone.z + z) 4, satInc 255 zone.samples⟩ else ⟨true, z, 1⟩

def learnFocus (map : List Zone) (p : Point) (z : Int) : List Zone := map.modify (zoneOf p) fun zone => zone.learn z

/-- The zones whose column and row each differ by at most 1 from (c, r), other than it (R113). -/
def neighbours (c r : Nat) : List Nat :=
  (List.range 64).filter fun k =>
    let dc : Int := (k % 8 : Nat) - (c : Int)
    let dr : Int := (k / 8 : Nat) - (r : Int)
    withinAbs 1 dc && withinAbs 1 dr && !(dc == 0 && dr == 0)

/-- The heights of the valid zones among those listed. -/
def validHeights (map : List Zone) (ks : List Nat) : List Int :=
  ks.filterMap fun k => match map[k]? with
    | some zone => if zone.valid then some zone.z else none
    | none => none

/-- The predicted start Z of a site: its own zone, the mean of its valid neighbours, or the nominal Z (R113). -/
def predictZ (map : List Zone) (nominal : Int) (p : Point) : Int :=
  match validHeights map [zoneOf p] with
  | z :: _ => z
  | [] =>
    let hs := validHeights map (neighbours (zoneIndex p.x) (zoneIndex p.y))
    if hs.isEmpty then nominal else rnd hs.sum hs.length

/-- The heights of all valid zones. -/
def allHeights (map : List Zone) : List Int := validHeights map (List.range 64)

/-- The row's three map figures: valid zones, least and greatest height, all 0 with no valid zone (R114). -/
def mapFigures (map : List Zone) : Nat × Int × Int :=
  match allHeights map with
  | [] => (0, 0, 0)
  | z :: zs => (zs.length + 1, zs.foldl min z, zs.foldl max z)

end Sys2Proof.Machine
end

