-- ==== Sys2Proof/Machine/Autofocus.lean ====
section
/-! DEFINITION. The autofocus unit: requests, measurements, steps, search and ends (R96 to R110). -/

namespace Sys2Proof.Machine

def focusTimeout : Nat := 10000

def State.setAf (s : State) (a : Autofocus) : State := { s with af := a }

/-- The active states (R97). -/
def FocusState.isActive : FocusState → Bool
  | .prefocus | .measure | .step | .search => true
  | _ => false

/-- The recipe of the request's lot (R96). -/
def State.afRecipe (s : State) : Recipe :=
  match s.af.request with
  | some r => s.recipe r.wafer.slot
  | none => Recipe.blank

/-- The requester is answered (R108). -/
def State.answerFocus (s : State) (o : FocusOutcome) : State :=
  match s.af.request with
  | some r => s.say (.focusAnswer r.requester o)
  | none => s

/-- A request ends FAILED (R108). -/
def State.failFocus (s : State) (why : FocusReason) : State :=
  (s.setAf { s.af with state := .failed, outcome := some (.failed why), timer := none, zReq := none }).answerFocus (.failed why)

/-- A request ends FOCUSED at the Z target; the map is updated before the answer (R108, R112). -/
def State.endFocused (s : State) : State :=
  let z := s.af.zTarget
  let s := match s.af.request with
    | some r => { s with focusMap := learnFocus s.focusMap r.point z }
    | none => s
  (s.setAf { s.af with state := .focused, outcome := some (.focused z), timer := none, zReq := none }).answerFocus (.focused z)

/-- The sequence of the newest summary in the ring, or none (R100). -/
def Sensor.newest (n : Sensor) : Option Summary := n.ring.getLast?

/-- A measurement begins with the given epoch (R100; R103 keeps the epoch of the measurement before). -/
def State.beginMeasureAt (s : State) (epoch : Word) : State :=
  s.setAf { s.af with
    state := .measure, epoch := epoch, startMark := s.sensor.newest.map (·.sequence), taken := 0, sum := 0, zReq := none }

def State.beginMeasure (s : State) : State := s.beginMeasureAt s.motion.epoch

/-- A Z request of the autofocus unit, in the given state (R99, R104, R106). -/
def State.focusMove (s : State) (st : FocusState) (z : Int) : State :=
  let k := s.motion.nextReq
  let s := s.setAf { s.af with state := st, zReq := some k }
  s.takeRequest.requestMove (.z z) ⟨.autofocus, k⟩

/-- An autofocus request (R98). The search centre, the sum and the search mark, which R98 does not name, become 0 and false: DESIGN
CHOICE (log entry 8). -/
def State.requestFocus (s : State) (r : FocusRequest) : State :=
  if s.af.state.isActive then s.say (.focusAnswer r.requester (.failed .busy))
  else
    let c := s.recipe r.wafer.slot
    let s := s.setAf { s.af with
      request := some r, zTarget := r.startZ, inWindow := 0, iterations := 0, taken := 0, sum := 0, centre := 0, index := 0
      budget := c.searchLimit.toNat, atSearch := false, timer := some (.at s.clock focusTimeout), outcome := none, zReq := none }
    if ¬ within c.zLow c.zHigh r.startZ then s.failFocus .outOfRange
    else if s.motion.z.state = .idle ∧ s.motion.z.position = r.startZ then s.beginMeasure
    else s.focusMove .prefocus r.startZ

/-- The step against a measured error (R104). -/
def focusStep (c : Recipe) (e : Int) : Int := clamp (-c.stepMaximum) c.stepMaximum (rnd (e * c.focusGain) 32768)

/-- A step, or OUT_OF_RANGE when the new height leaves the focus range (R104). -/
def State.stepFocus (s : State) (e : Int) : State :=
  let c := s.afRecipe
  let z := s.af.zTarget - focusStep c e
  if within c.zLow c.zHigh z then (s.setAf { s.af with zTarget := z }).focusMove .step z else s.failFocus .outOfRange

/-- A complete measurement that is not dark, of result e; it ends a running search (R103, R107). A dark measurement after it at the
same height then begins a new search: DEDUCED from R107 (log entry 44). -/
def State.evaluateLit (s : State) (e : Int) : State :=
  let c := s.afRecipe
  let s := s.setAf { s.af with atSearch := false }
  if withinAbs c.focusWindow e then
    let s := s.setAf { s.af with inWindow := s.af.inWindow + 1 }
    if 2 ≤ s.af.inWindow then s.endFocused else s.beginMeasureAt s.af.epoch
  else
    let s := s.setAf { s.af with inWindow := 0, iterations := s.af.iterations + 1 }
    if c.iterationLimit < (s.af.iterations : Int) then s.failFocus .noConverge else s.stepFocus e

/-- The search position for an index (R106). -/
def searchPosition (centre step : Int) (i : Nat) : Int :=
  if i % 2 = 1 then centre + ((i + 1) / 2 : Nat) * step else centre - (i / 2 : Nat) * step

/-- The next search position inside the range, its index and the budget left; a position outside is skipped, its index and
budget used (R106). -/
def pickSearch (c : Recipe) (centre : Int) : Nat → Nat → Option (Int × Nat × Nat)
  | 0, _ => none
  | budget + 1, index =>
    let z := searchPosition centre c.searchStep (index + 1)
    if within c.zLow c.zHigh z then some (z, index + 1, budget) else pickSearch c centre budget (index + 1)

/-- A complete dark measurement: a new search, or the next position of the running one, or NO_SIGNAL (R106). -/
def State.evaluateDark (s : State) : State :=
  let c := s.afRecipe
  let s := if s.af.atSearch then s
    else s.setAf { s.af with centre := s.af.zTarget, index := 0, inWindow := 0, atSearch := true }
  match pickSearch c s.af.centre s.af.budget s.af.index with
  | some (z, index, budget) =>
    (s.setAf { s.af with zTarget := z, index := index, budget := budget }).focusMove .search z
  | none => (s.setAf { s.af with index := s.af.index + s.af.budget, budget := 0 }).failFocus .noSignal

/-- A frame of the measurement's epoch (R101, first two rows). -/
def State.takeFrame (s : State) (f : Summary) : State :=
  if f.dark then (s.setAf { s.af with taken := 0, sum := 0 }).evaluateDark
  else
    let k := s.afRecipe.framesPerMeasurement
    let s := s.setAf { s.af with taken := s.af.taken + 1, sum := s.af.sum + f.e }
    if k ≤ (s.af.taken : Int) then s.evaluateLit (rnd s.af.sum s.af.taken) else s

/-- A frame arrival handed by the receiver (R101); disregarded in any state but MEASURE. Where the third row begins the measurement
again, the in-window count becomes 0: DEDUCED, since R103 wants two measurements in the window at one height (log entry 39). That the
measurement still counts as one at a search position, if it did, is a DESIGN CHOICE: R101 and R106 do not say (log entry 39). -/
def State.frameArrival (s : State) (f : Summary) : State :=
  if s.af.state ≠ .measure then s
  else if f.epoch = s.af.epoch then s.takeFrame f
  else if f.epoch = s.motion.epoch then (s.setAf { s.af with taken := 0, sum := 0, epoch := f.epoch, inWindow := 0 }).takeFrame f
  else s

/-- A settled event for the unit's current Z request: a measurement begins (R99, R104, R106). -/
def State.focusSettled (s : State) (n : Nat) : State :=
  if s.af.zReq = some n ∧ s.af.state.isActive then s.beginMeasure else s

/-- A refusal of the unit's current Z request (R99, R105). -/
def State.focusRefused (s : State) (n : Nat) : State :=
  if s.af.zReq = some n ∧ s.af.state.isActive then s.failFocus .zRefused else s

/-- A withdrawal, or a motion fault's IDLE: the request is dropped without an answer (R110). That the outcome of the last request is
cleared with it is a DESIGN CHOICE: no rule says whether it is kept (log entry 38). -/
def State.withdrawFocus (s : State) : State :=
  if s.af.state = .idle then s
  else s.setAf { s.af with state := .idle, request := none, timer := none, outcome := none, zReq := none }

/-- The stage wafer leaves: IDLE from any state, and the map is cleared (R110, R111). -/
def State.focusLeaves (s : State) : State := { s.withdrawFocus with focusMap := clearedMap }

/-- The overall timer's expiry (R109). -/
def State.focusExpires (s : State) : State :=
  if s.af.state.isActive then s.failFocus (if s.sensor.link = .locked then .timeout else .link) else s

end Sys2Proof.Machine
end

