-- ==== Sys2Proof/Machine/Report.lean ====
section
/-! DEFINITION. The report unit's rows and header: counting posts, outcomes and wafer figures (R158 to R163), class bins (R166). -/

namespace Sys2Proof.Machine

/-- The eight outcomes a row counts (R160). -/
inductive Outcome where
  | reviewed | focusFail | grabFail | travel | aborted | notSampled | refused | withdrawn
  deriving DecidableEq, Repr

def Outcomes.inc (o : Outcomes) : Outcome → Outcomes
  | .reviewed => { o with reviewed := o.reviewed + 1 }
  | .focusFail => { o with focusFail := o.focusFail + 1 }
  | .grabFail => { o with grabFail := o.grabFail + 1 }
  | .travel => { o with travel := o.travel + 1 }
  | .aborted => { o with aborted := o.aborted + 1 }
  | .notSampled => { o with notSampled := o.notSampled + 1 }
  | .refused => { o with refused := o.refused + 1 }
  | .withdrawn => { o with withdrawn := o.withdrawn + 1 }

/-- The counts in the order of header words 6 to 13 (11_memory_formats.md). -/
def Outcomes.list (o : Outcomes) : List Nat :=
  [o.reviewed, o.focusFail, o.grabFail, o.travel, o.aborted, o.notSampled, o.refused, o.withdrawn]

def State.report (s : State) (k : Slot) : Report := s.reports.get k
def State.modReport (s : State) (k : Slot) (f : Report → Report) : State :=
  { s with reports := s.reports.set k (f (s.report k)) }

def State.row (s : State) (w : WaferName) : Option Row := getAt (s.report w.slot).rows w.n

def State.modRow (s : State) (w : WaferName) (f : Row → Row) : State :=
  s.modReport w.slot fun r => { r with rows := modAt r.rows w.n f }

def State.rowOpen (s : State) (w : WaferName) : Bool :=
  match s.row w with
  | some r => decide (r.state = .opened)
  | none => false

def State.rowClosed (s : State) (w : WaferName) : Bool :=
  match s.row w with
  | some r => decide (r.state = .closed)
  | none => false

/-- A row as it is opened (R161). -/
def Row.fresh (result : FinalResult) : Row where
  state := .opened
  finalResult := result
  posts := 0
  outcomes := .zero
  bins := List.replicate 16 0
  scale := 0
  rotation := 0
  mapZones := 0
  mapLeast := 0
  mapGreatest := 0
  duration := 0
  postingTimeout := false
  late := 0

/-- A figure entered in a wafer's row while the row is OPEN (R163). -/
def State.enter (s : State) (w : WaferName) (f : Row → Row) : State :=
  s.modRow w fun r => if r.state = .opened then f r else r

/-- An unattributed refusal: entered in the header when the slot's report is OPEN (R128, R162). -/
def State.countUnattributed (s : State) (k : Slot) : State :=
  if (s.report k).state = .opened then
    s.modReport k fun r => { r with unattributed := satInc 65535 r.unattributed }
  else s

/-- A post handed at its checks: `fate` is `none` when it is admitted as QUEUED (R162). A refusal or post not kept handed to a
row that is not OPEN is entered as an unattributed refusal. -/
def State.countPost (s : State) (w : WaferName) (fate : Option Outcome) : State :=
  if s.rowOpen w then
    s.modRow w fun r => { r with
      posts := r.posts + 1
      outcomes := match fate with | some o => r.outcomes.inc o | none => r.outcomes }
  else if fate.isSome then s.countUnattributed w.slot
  else s

/-- A later outcome of an admitted entry (R162). -/
def State.countOutcome (s : State) (w : WaferName) (o : Outcome) : State :=
  s.enter w fun r => { r with outcomes := r.outcomes.inc o }

/-- A wafer's final result written, and handed to the report unit (R11, R163). -/
def State.writeFinal (s : State) (w : WaferName) (r : FinalResult) : State :=
  (s.modWafer w fun x => { x with finalResult := r }).enter w fun row => { row with finalResult := r }

/-- The class lock entry of a defect entry's index, if its class word is guarded (R170). -/
def State.classLocked (s : State) (k : Slot) (i : Nat) : Option ClassLocked :=
  (s.report k).classLock.find? fun c => c.index == i

/-- The index leaves the class lock (R170). -/
def State.unlockClass (s : State) (k : Slot) (i : Nat) : State :=
  s.modReport k fun r => { r with classLock := r.classLock.filter fun c => c.index != i }

/-- A late class write: the named row's count, saturating; the header total is the sum of the rows (R170). -/
def State.countLate (s : State) (k : Slot) (i : Nat) : State :=
  match s.classLocked k i with
  | some c => s.modRow ⟨k, c.wafer⟩ fun r => { r with late := satInc 65535 r.late }
  | none => s

def binInc (bins : List Nat) (k : Nat) : List Nat := bins.modify k (· + 1)
def binDec (bins : List Nat) (k : Nat) : List Nat := bins.modify k (· - 1)

/-- The bin of a class code by the class table: the byte when at most 15, else 15 (R164). -/
def State.binOf (s : State) (code : Byte) : Nat :=
  match s.classTable.bytes[code.toNat]? with
  | some b => if b.value.toNat ≤ 15 then b.value.toNat else 15
  | none => 15

/-- Every entry of the class table with enabled bytes of word `w` captured and marked filled (R164). -/
def ClassTable.capture (t : ClassTable) (w : Nat) (data : Word) (be : Enables) : ClassTable :=
  let put (t : ClassTable) (k : Nat) : ClassTable :=
    if be.getLsbD k then { t with bytes := t.bytes.modify (4 * w + k) fun _ => ⟨lane k data, true⟩ } else t
  put (put (put (put t 0) 1) 2) 3

/-- A fetched word of the class table: only bytes not yet filled take it (R164). -/
def ClassTable.fetched (t : ClassTable) (w : Nat) (data : Word) : ClassTable :=
  let put (t : ClassTable) (k : Nat) : ClassTable :=
    { t with bytes := t.bytes.modify (4 * w + k) fun b => if b.filled then b else ⟨lane k data, b.filled⟩ }
  put (put (put (put t 0) 1) 2) 3

end Sys2Proof.Machine
end

