-- ==== Sys2Proof/Machine/Entry.lean ====
section
/-! DEFINITION. Defect entries as the part holds them: their words, the revisit lists, the defect-id index, and how an entry
ends (R116 to R136). -/

namespace Sys2Proof.Machine

/-! ## The gathered HOST words (R116, R192) -/

def Entry.hostWord (e : Entry) (k : Nat) : Word := ((e.host[k]?).getD none).getD 0

def Entry.defectId (e : Entry) : Word := e.hostWord 0
def Entry.waferSlot (e : Entry) : Nat := (lane 0 (e.hostWord 1)).toNat
/-- A priority lane of 4 to 255 is taken as 3 (R192). -/
def Entry.priority (e : Entry) : Nat := min 3 (lane 1 (e.hostWord 1)).toNat
def Entry.col (e : Entry) : Int := (lowHalf (e.hostWord 2)).toInt
def Entry.row (e : Entry) : Int := (highHalf (e.hostWord 2)).toInt
def Entry.dx (e : Entry) : Int := (e.hostWord 3).toInt
def Entry.dy (e : Entry) : Int := (e.hostWord 4).toInt
def Entry.hostReference (e : Entry) : Word := e.hostWord 7

/-- The wafer an entry belongs to. -/
def Entry.wafer (e : Entry) : WaferName := ⟨e.slot, e.waferSlot⟩

def Entry.is (e : Entry) (k : Slot) (i : Nat) : Bool := e.slot == k && e.index == i

def Entry.id (e : Entry) : RecId := .defectEntry e.slot e.index

/-! ## Kinds of state (R118) -/

def EntryState.isLive : EntryState → Bool
  | .posting | .queued | .active => true
  | _ => false

def EntryState.isAdmitted : EntryState → Bool
  | .queued | .active | .reviewed | .focusFail | .grabFail | .travel | .aborted => true
  | _ => false

/-- The outcome the row counts for a state finished with review (R128). -/
def EntryState.outcome : EntryState → Option Outcome
  | .reviewed => some .reviewed
  | .focusFail => some .focusFail
  | .grabFail => some .grabFail
  | .travel => some .travel
  | .aborted => some .aborted
  | .notSampled => some .notSampled
  | .withdrawn => some .withdrawn
  | .refused => some .refused
  | .posting | .queued | .active => none

/-! ## Finding and changing records -/

def State.setRevisit (s : State) (r : Revisit) : State := { s with revisit := r }

/-- The held record of an entry, in the posting list or in the store (R117). -/
def State.entry (s : State) (k : Slot) (i : Nat) : Option Entry :=
  (s.revisit.posting.find? fun e => e.is k i).or (s.revisit.store.find? fun e => e.is k i)

/-- The store record of an entry (R129). -/
def State.storeEntry (s : State) (k : Slot) (i : Nat) : Option Entry := s.revisit.store.find? fun e => e.is k i

/-- A held record changed; the step remembers that it has touched it. -/
def State.modEntry (s : State) (k : Slot) (i : Nat) (f : Entry → Entry) : State :=
  let ch (l : List Entry) := l.map fun e => if e.is k i then f e else e
  { s with
    revisit := { s.revisit with posting := ch s.revisit.posting, store := ch s.revisit.store }
    scratch := { s.scratch with touched := .defectEntry k i :: s.scratch.touched } }

/-- The entry leaves the posting list. -/
def State.leavePosting (s : State) (k : Slot) (i : Nat) : State :=
  s.setRevisit { s.revisit with posting := s.revisit.posting.filter fun e => !e.is k i }

/-- The entry's record leaves the store, and with it the index (R121, R136). -/
def State.leaveStore (s : State) (k : Slot) (i : Nat) : State :=
  s.setRevisit { s.revisit with store := s.revisit.store.filter fun e => !e.is k i }

/-! ## The revisit list (R130) -/

/-- Whether column `c` comes before column `d` in a row: ascending in an even row, descending in an odd one. -/
def columnBefore (row c d : Int) : Bool := if row % 2 = 0 then decide (c < d) else decide (d < c)

/-- List order: the first key in which two entries differ decides. -/
def Entry.before (e f : Entry) : Bool :=
  if e.priority ≠ f.priority then decide (f.priority < e.priority)
  else if e.row ≠ f.row then decide (e.row < f.row)
  else if e.col ≠ f.col then columnBefore e.row e.col f.col
  else if e.sequence ≠ f.sequence then decide (e.sequence < f.sequence)
  else decide (e.index < f.index)

def insertEntry (e : Entry) : List Entry → List Entry
  | [] => [e]
  | f :: rest => if e.before f then e :: f :: rest else f :: insertEntry e rest

/-- The QUEUED entries of a wafer in list order (R130). -/
def State.queuedOf (s : State) (w : WaferName) : List Entry :=
  (s.revisit.store.filter fun e => decide (e.wafer = w ∧ e.state = .queued) && !e.rowClosed).foldr insertEntry []

/-- The number of admitted entries of a wafer (R131). -/
def State.admittedOf (s : State) (w : WaferName) : Nat :=
  (s.revisit.store.filter fun e => decide (e.wafer = w) && e.state.isAdmitted && !e.rowClosed).length

/-- The defect-id index holds the id for the lot slot: a record of the store whose row is still OPEN has it (R129). -/
def State.idTaken (s : State) (k : Slot) (id : Word) : Bool :=
  s.revisit.store.any fun e => decide (e.slot = k ∧ e.defectId = id) && !e.rowClosed

/-! ## Ends of entries (R128, R132) -/

/-- An admitted entry reaches a later state with its reason, and its outcome is handed to the row (R128). -/
def State.finishEntry (s : State) (e : Entry) (st : EntryState) (why : EntryReason) : State :=
  let s := s.modEntry e.slot e.index fun x => { x with state := st, reason := why }
  match st.outcome with
  | some o => s.countOutcome e.wafer o
  | none => s

/-- QUEUED entries of a wafer end ABORTED where they stand (R132). -/
def State.endQueued (s : State) (w : WaferName) (why : EntryReason) : State :=
  (s.queuedOf w).foldl (fun s e => s.finishEntry e .aborted why) s

/-- Every QUEUED entry of every wafer of a lot ends ABORTED (R132). -/
def State.endQueuedOfLot (s : State) (k : Slot) (why : EntryReason) : State :=
  (List.range 25).foldl (fun s n => s.endQueued ⟨k, n + 1⟩ why) s

end Sys2Proof.Machine
end

