-- ==== Sys2Proof/Machine/Grab.lean ====
section
/-! DEFINITION. The grab link: sending, the waiting grab, the judgement of replies, and the discard flag (R144, R145). -/

namespace Sys2Proof.Machine

def grabTimeout : Nat := 3000

def State.setGrab (s : State) (g : GrabLink) : State := { s with grab := g }

/-- A grab sent: its tag taken, its timer started (R144). -/
def State.sendGrab (s : State) (a : GrabAsk) : State :=
  let g := s.grab
  (s.setGrab { g with tag := g.tag + 1, outstanding := some ⟨g.tag, a, .at s.clock grabTimeout, false⟩ }).emit (.grab g.tag a)

/-- A grab asked for: sent at once, or the waiting grab (R144). -/
def State.askGrab (s : State) (a : GrabAsk) : State :=
  if s.grab.outstanding.isSome then s.setGrab { s.grab with waiting := some a } else s.sendGrab a

/-- The outstanding grab ends, its timer with it, and a waiting grab is sent (R144, R145). -/
def State.endGrab (s : State) : State :=
  let s' := s.setGrab { s.grab with outstanding := none, waiting := none }
  match s.grab.waiting with
  | some a => s'.sendGrab a
  | none => s'

/-- The judgement of a reply against the outstanding grab (R145). -/
inductive GrabVerdict where
  | stale
  | discarded
  | taken
  deriving DecidableEq, Repr

/-- `fits` says which kind of grab can receive the reply. -/
def State.judgeGrab (s : State) (tag : Tag) (fits : GrabKind → Bool) : GrabVerdict :=
  match s.grab.outstanding with
  | none => .stale
  | some o =>
    if o.tag ≠ tag then .stale
    else if o.discard then .discarded
    else if fits o.ask.kind then .taken
    else .stale

/-- A unit's grab given up: an outstanding one gets its discard flag, a waiting one is dropped (R144, R145, R152, R81). -/
def State.dropGrab (s : State) (k : GrabKind) : State :=
  s.setGrab { s.grab with
    outstanding := s.grab.outstanding.map fun o => if o.ask.kind = k then { o with discard := true } else o
    waiting := match s.grab.waiting with
      | some a => if a.kind = k then none else some a
      | none => none }

end Sys2Proof.Machine
end

