-- ==== Sys2Proof/Machine/Revisit.lean ====
section
/-! DEFINITION. The revisit unit: taking entries, the phases of a revisit, attempts, waiting, and the end of a wafer's review
(R138 to R155). -/

namespace Sys2Proof.Machine

def State.setActive (s : State) (a : Option ActiveRevisit) : State := s.setRevisit { s.revisit with active := a }

/-- The ACTIVE entry: the store record that the active revisit names (R138, R140). -/
def State.activeEntry (s : State) : Option Entry :=
  (s.revisit.active.bind fun a => s.storeEntry a.slot a.index).filter fun e => decide (e.state = .active)

/-! ## The end of a review at lot control and the report (R11, R114, R163) -/

/-- The map figures handed to the wafer's row (R114). -/
def State.handMapFigures (s : State) (w : WaferName) : State :=
  let f := mapFigures s.focusMap
  s.enter w fun r => { r with mapZones := f.1, mapLeast := f.2.1, mapGreatest := f.2.2 }

/-- The review duration handed to the wafer's row (R163). -/
def State.handDuration (s : State) (w : WaferName) (d : Word) : State := s.enter w fun r => { r with duration := d }

/-- The wafer becomes REVIEW_ENDED with its review end clock (R11); the row takes its duration and map figures, and a QUEUED entry
still in the list ends WAFER_UNAVAILABLE (R132). Only an ON_STAGE wafer changes. -/
def State.toReviewEnded (s : State) (w : WaferName) : State :=
  match s.wafer w with
  | some x =>
    if x.state = .onStage then
      let s := s.modWafer w fun x => { x with state := .reviewEnded, endClock := s.clock }
      ((s.handDuration w (s.clock - x.startClock)).handMapFigures w).endQueued w .waferUnavailable
    else s
  | none => s

/-- The pending result set to ABORTED when none is set (R11). -/
def State.pendAborted (s : State) (w : WaferName) : State :=
  s.modWafer w fun x => { x with pendingResult := some (x.pendingResult.getD .aborted) }

/-! ## Ends (R149, R151) -/

/-- The review's end: state ENDED, timer stopped, active revisit dropped. -/
def State.endReview (s : State) : State := s.setRevisit { s.revisit with review := .ended, active := none, timer := none }

/-- A normal end of review (R151). -/
def State.normalEnd (s : State) (w : WaferName) : State :=
  let late := s.revisit.timeoutFlag
  let s := s.endReview
  let s := s.modWafer w fun x => { x with pendingResult := some .reviewed }
  let s := (s.toReviewEnded w).enter w fun r => { r with postingTimeout := late }
  s.requestLoad .loadForReview

/-- Waiting for posts: the notice, and a timer when the posting wait is nonzero (R149). -/
def State.waitForPosts (s : State) (w : WaferName) : State :=
  let wait := (s.recipe w.slot).postingWait
  (s.setRevisit { s.revisit with
    review := .waiting
    timer := if wait = 0 then none else some (.at s.clock wait.toNat) }).raise .reviewWait

/-! ## The phases of a revisit (R141 to R148) -/

/-- An entry's end: its outcome to the row, the active revisit dropped, and the list to be looked at (R148). -/
def State.endActive (s : State) (e : Entry) (st : EntryState) (why : EntryReason) : State :=
  ((s.finishEntry e st why).setActive none).say .lookAtList

/-- Phase MOVE: the XY request, then the Z request (R142). -/
def State.beginMove (s : State) (a : ActiveRevisit) (z : Int) : State :=
  let k := s.motion.nextReq
  let s := s.setActive (some { a with phase := .move, startZ := z, xyReq := some ⟨k, false⟩, zReq := some ⟨k + 1, false⟩ })
  let s := s.takeRequest.requestMove (.xy a.target.x a.target.y) ⟨.revisit, k⟩
  s.takeRequest.requestMove (.z z) ⟨.revisit, k + 1⟩

/-- Phase TARGET of an entry just taken, in the same step (R141). -/
def State.beginTarget (s : State) (e : Entry) : State :=
  let p := s.align.convert (s.recipe e.slot) ⟨e.wx, e.wy⟩
  let s := s.modEntry e.slot e.index fun x => { x with stageX := p.x, stageY := p.y }
  if p.inTravel then
    s.beginMove ⟨e.slot, e.index, .target, p, 0, none, none, none⟩ (predictZ s.focusMap (s.recipe e.slot).nominalZ p)
  else s.endActive e .travel .outOfTravel

/-- An entry taken: ACTIVE, attempts 0, the state REVISITING, then TARGET (R140). -/
def State.takeEntry (s : State) (e : Entry) : State :=
  let s := s.modEntry e.slot e.index fun x => { x with state := .active, reason := .none, attempts := 0 }
  let s := s.setRevisit { s.revisit with
    review := .revisiting, timer := none
    active := some ⟨e.slot, e.index, .target, ⟨0, 0⟩, 0, none, none, none⟩ }
  s.beginTarget e

/-- The list looked at: the head taken, or the review ends, or the unit waits (R140, R149). -/
def State.look (s : State) (w : WaferName) : State :=
  match s.queuedOf w with
  | e :: _ => s.takeEntry e
  | [] =>
    match s.wafer w with
    | some x => if x.postingClosed then s.normalEnd w else s.waitForPosts w
    | none => s

/-- The look at the list after an entry's end (R148). -/
def State.lookAfterEnd (s : State) : State :=
  match s.revisit.wafer with
  | some w => if s.revisit.review = .revisiting ∧ s.revisit.active = none then s.look w else s
  | none => s

/-- The ALIGNED report (R79, R139). -/
def State.alignedReport (s : State) : State :=
  match s.revisit.wafer with
  | some w => if s.revisit.review = .aligning then s.look w else s
  | none => s

/-- An insertion for the wafer on ST: a waiting unit resumes (R131, R150). -/
def State.inserted (s : State) (w : WaferName) : State :=
  if s.revisit.review = .waiting ∧ s.revisit.wafer = some w then
    match s.queuedOf w with
    | e :: _ => s.takeEntry e
    | [] => s
  else s

/-- Phase FOCUS (R143). -/
def State.beginFocus (s : State) (a : ActiveRevisit) (e : Entry) : State :=
  let s := s.setActive (some { a with phase := .focus, xyReq := none, zReq := none })
  s.requestFocus ⟨.revisit, e.wafer, a.target, a.startZ⟩

/-- A request marked settled when it is the current one. -/
def Awaited.mark (q : Option Awaited) (n : Nat) : Option Awaited :=
  q.map fun a => if a.number = n then { a with settled := true } else a

def Awaited.done (q : Option Awaited) : Bool :=
  match q with
  | some a => a.settled
  | none => false

def Awaited.isCurrent (q : Option Awaited) (n : Nat) : Bool :=
  match q with
  | some a => a.number == n
  | none => false

/-- A settled event for a request of the revisit unit (R142). -/
def State.revisitSettled (s : State) (n : Nat) : State :=
  match s.revisit.active, s.activeEntry with
  | some a, some e =>
    if a.phase = .move then
      let a := { a with xyReq := Awaited.mark a.xyReq n, zReq := Awaited.mark a.zReq n }
      if Awaited.done a.xyReq && Awaited.done a.zReq then s.beginFocus a e else s.setActive (some a)
    else s
  | _, _ => s

/-- A refusal of a request of the revisit unit: the entry ends TRAVEL (R142). -/
def State.revisitRefused (s : State) (n : Nat) (why : MoveRefusal) : State :=
  match s.revisit.active, s.activeEntry with
  | some a, some e =>
    if a.phase = .move ∧ (Awaited.isCurrent a.xyReq n || Awaited.isCurrent a.zReq n) then s.endActive e .travel why.entry else s
  | _, _ => s

/-- The final state and reason of a last failure (R147). -/
def LastFailure.final : LastFailure → EntryState × EntryReason
  | .focus r => (.focusFail, r.entry)
  | .grabFault => (.grabFail, .grabFault)
  | .grabTimeout => (.grabFail, .grabTimeout)

/-- A failed attempt: a retry from MOVE at nominal Z, or the end with its last failure (R147). -/
def State.failedAttempt (s : State) (a : ActiveRevisit) (e : Entry) (why : LastFailure) : State :=
  let n := e.attempts + 1
  let s := s.modEntry e.slot e.index fun x => { x with attempts := n }
  let c := s.recipe e.slot
  if (n : Int) ≤ c.retryLimit then s.beginMove { a with lastFailure := some why } c.nominalZ
  else s.endActive e why.final.1 why.final.2

/-- The autofocus answer to the revisit unit (R143, R146). -/
def State.revisitFocus (s : State) (o : FocusOutcome) : State :=
  match s.revisit.active, s.activeEntry with
  | some a, some e =>
    if a.phase = .focus then
      match o with
      | .focused z =>
        let s := s.modEntry e.slot e.index fun x => { x with focusZ := z }
        (s.setActive (some { a with phase := .grab })).askGrab ⟨.defect, e.hostReference, (s.recipe e.slot).framesPerGrab.toNat⟩
      | .failed r => s.failedAttempt a e (.focus r)
    else s
  | _, _ => s

/-- GRAB_DONE handed to the revisit unit: the entry ends REVIEWED (R146, R148). -/
def State.revisitGrabbed (s : State) (first frames : Word) : State :=
  match s.revisit.active, s.activeEntry with
  | some a, some e =>
    if a.phase = .grab then
      (s.modEntry e.slot e.index fun x => { x with firstFrame := first, frames := frames }).endActive e .reviewed .none
    else s
  | _, _ => s

/-- A grab fault or timeout handed to the revisit unit (R146, R147). -/
def State.revisitGrabFailed (s : State) (why : LastFailure) : State :=
  match s.revisit.active, s.activeEntry with
  | some a, some e => if a.phase = .grab then s.failedAttempt a e why else s
  | _, _ => s

/-! ## Cut-offs and leaving (R152 to R155) -/

/-- The ACTIVE entry, if there is one, becomes ABORTED (R152). -/
def State.endActiveEntry (s : State) (why : EntryReason) : State :=
  match s.activeEntry with
  | some e => s.finishEntry e .aborted why
  | none => s

/-- What becomes of the ACTIVE entry and its work at a cut-off (R152); the cut-off withdraws its autofocus request (R110). -/
def State.cutActive (s : State) (why : EntryReason) : State :=
  match s.revisit.active with
  | none => s
  | some a =>
    let s := s.endActiveEntry why
    match a.phase with
    | .grab => s.dropGrab .defect
    | .target | .move | .focus => s

/-- ALIGNING, REVISITING or WAITING. -/
def ReviewState.inProgress : ReviewState → Bool
  | .aligning | .revisiting | .waiting => true
  | .none | .ended => false

/-- The stage wafer of the review record leaves ST (R155). No entry is ACTIVE then; in a state that no run reaches one would end
(log entry 40). -/
def State.reviewLeaves (s : State) (w : WaferName) : State :=
  if s.revisit.wafer = some w then
    let s := s.endActiveEntry .waferUnavailable
    s.setRevisit { s.revisit with wafer := none, review := .none, active := none, timer := none, timeoutFlag := false }
  else s

/-- A wafer reported as arriving on ST reaches the review record (R139). No entry is ACTIVE then, as at a leaving (log entry 40). -/
def State.reviewArrives (s : State) (w : WaferName) : State :=
  let s := s.endActiveEntry .waferUnavailable
  s.setRevisit { s.revisit with wafer := some w, review := .aligning, active := none, timer := none, timeoutFlag := false }

end Sys2Proof.Machine
end

