-- ==== Sys2Proof/Machine/Alignment.lean ====
section
/-! DEFINITION. The alignment unit: arrival, marks, the solve and its checks, failures and stops (R67 to R82). -/

namespace Sys2Proof.Machine

/-- The transform record changed; the wafer entry's alignment word follows while the record names the wafer (R67). -/
def State.setAlign (s : State) (a : Align) : State :=
  let s := { s with align := a }
  match a.wafer with
  | some w => s.modWafer w fun x => { x with
      alignState := a.state, alignMark := a.mark, alignAttempts := a.attempts, alignReason := a.reason }
  | none => s

/-- The wafer entry's transform words written with the record's coefficients (R69, R77). -/
def State.showTransform (s : State) : State :=
  match s.align.wafer with
  | some w => s.modWafer w fun x => { x with a := s.align.a, b := s.align.b, tx := s.align.tx, ty := s.align.ty }
  | none => s

/-- The recipe of the lot whose wafer the record names. -/
def State.alignRecipe (s : State) : Recipe :=
  match s.align.wafer with
  | some w => s.recipe w.slot
  | none => Recipe.blank

/-- An alignment failure (R80), with the revisit unit's end of review (R153). -/
def State.alignFail (s : State) (why : AlignReason) : State :=
  match s.align.wafer with
  | none => s
  | some w =>
    let s := s.setAlign { s.align with state := .failed, reason := why, xyReq := none, zReq := none }
    let s := s.modWafer w fun x => { x with pendingResult := some .alignFailed }
    let s := s.endQueued w .alignFail
    let s := if s.revisit.wafer = some w ∧ s.revisit.review.inProgress then s.endReview else s
    ((s.toReviewEnded w).raise .alignFail).requestLoad .loadForReview

/-- A stop: MEASURING becomes FAILED, with its work in flight left as R81 gives; what stops it withdraws the autofocus request. -/
def State.alignStop (s : State) (why : AlignReason) : State :=
  if s.align.state = .measuring then
    let phase := s.align.phase
    let s := s.setAlign { s.align with state := .failed, reason := why, xyReq := none, zReq := none }
    match phase with
    | .move | .focus => s
    | .grab => s.dropGrab .mark
  else s

def Align.setTarget (a : Align) (p : Point) : Align :=
  match a.mark with
  | 1 => { a with m1 := { a.m1 with target := some p } }
  | 2 => { a with m2 := { a.m2 with target := some p } }
  | _ => { a with m3 := { a.m3 with target := some p } }

def Align.setMeasured (a : Align) (p : Point) : Align :=
  match a.mark with
  | 1 => { a with m1 := { a.m1 with measured := some p } }
  | 2 => { a with m2 := { a.m2 with measured := some p } }
  | _ => { a with m3 := { a.m3 with measured := some p } }

def Align.markRecord (a : Align) : Mark :=
  match a.mark with
  | 1 => a.m1
  | 2 => a.m2
  | _ => a.m3

/-- The target of the current mark. -/
def Align.target (a : Align) : Point := a.markRecord.target.getD ⟨0, 0⟩

/-- The measurement of mark n begins in phase MOVE (R71). -/
def State.beginMark (s : State) (n : Nat) : State :=
  let c := s.alignRecipe
  let p := s.align.convert c (c.markAt n)
  let k := s.motion.nextReq
  let a := ({ s.align with state := .measuring, mark := n, phase := .move, attempts := 0 }).setTarget p
  if p.inTravel then
    let s := s.setAlign { a with xyReq := some ⟨k, false⟩, zReq := some ⟨k + 1, false⟩ }
    let s := s.takeRequest.requestMove (.xy p.x p.y) ⟨.alignment, k⟩
    s.takeRequest.requestMove (.z c.nominalZ) ⟨.alignment, k + 1⟩
  else (s.setAlign { a with xyReq := none, zReq := none }).alignFail .markTravel

/-- A wafer reported as arriving on ST (R69). -/
def State.alignArrives (s : State) (w : WaferName) : State :=
  ((s.setAlign { Align.reset with wafer := some w, state := .provisional }).showTransform).beginMark 1

/-- The mark grab of phase GRAB (R73). -/
def markGrab : GrabAsk := ⟨.mark, 0, 1⟩

/-- A settled event for a request of the alignment unit (R71, R72). -/
def State.alignSettled (s : State) (n : Nat) : State :=
  match s.align.wafer with
  | none => s
  | some w =>
    if s.align.state = .measuring ∧ s.align.phase = .move then
      let a := { s.align with xyReq := Awaited.mark s.align.xyReq n, zReq := Awaited.mark s.align.zReq n }
      if Awaited.done a.xyReq && Awaited.done a.zReq then
        (s.setAlign { a with phase := .focus, xyReq := none, zReq := none }).requestFocus
          ⟨.alignment, w, a.target, s.alignRecipe.nominalZ⟩
      else s.setAlign a
    else s

/-- A refusal of a current request (R71). -/
def State.alignRefused (s : State) (n : Nat) : State :=
  if s.align.state = .measuring ∧ s.align.phase = .move
      ∧ (Awaited.isCurrent s.align.xyReq n || Awaited.isCurrent s.align.zReq n) then s.alignFail .markMove
  else s

/-- The autofocus answer to the alignment unit (R72). -/
def State.alignFocus (s : State) (o : FocusOutcome) : State :=
  if s.align.state = .measuring ∧ s.align.phase = .focus then
    match o with
    | .focused _ => (s.setAlign { s.align with phase := .grab }).askGrab markGrab
    | .failed _ => s.alignFail .markFocus
  else s

/-- The state ALIGNED, told to the revisit unit in the same step (R79). -/
def State.toAligned (s : State) : State := (s.setAlign { s.align with state := .aligned }).alignedReport

/-- The figures of a solve handed to the wafer's row (R82). -/
def State.handSolve (s : State) (c : Solved) : State :=
  match s.align.wafer with
  | some w => s.enter w fun r => { r with scale := c.scaleFigure, rotation := c.rotationFigure }
  | none => s

/-- The solve at mark 2 and its checks (R75 to R77). -/
def State.solveMarks (s : State) : State :=
  let r := s.alignRecipe
  let c := solve (r.turnedMark 1) (r.turnedMark 2)
    (s.align.m1.measured.getD ⟨0, 0⟩) (s.align.m2.measured.getD ⟨0, 0⟩)
  let s := s.handSolve c
  match solveCheck r c with
  | some why => s.alignFail why
  | none =>
    let s := (s.setAlign { s.align with a := c.a, b := c.b, tx := c.tx, ty := c.ty }).showTransform
    if r.markCount = 3 then s.beginMark 3 else s.toAligned

/-- The residual check at mark 3 (R78). -/
def State.checkResidual (s : State) : State :=
  let r := s.alignRecipe
  if (residual (s.align.m3.measured.getD ⟨0, 0⟩) (s.align.convert r (r.markAt 3)) : Int) ≤ r.residualTolerance then s.toAligned
  else s.alignFail .residual

/-- A mark measured: Mn = Tn + (ox, oy) (R74). -/
def State.markMeasured (s : State) (ox oy : Int) : State :=
  let t := s.align.target
  let s := s.setAlign (s.align.setMeasured ⟨t.x + ox, t.y + oy⟩)
  match s.align.mark with
  | 1 => s.beginMark 2
  | 2 => s.solveMarks
  | _ => s.checkResidual

/-- An unsuccessful attempt: another grab, or MARK_NOT_FOUND (R74). -/
def State.markMissed (s : State) : State :=
  let n := s.align.attempts + 1
  let s := s.setAlign { s.align with attempts := n }
  if (n : Int) ≤ s.alignRecipe.markRetryLimit then s.askGrab markGrab else s.alignFail .markNotFound

/-- The alignment unit is waiting for a mark grab. -/
def Align.grabbing (a : Align) : Bool := decide (a.state = .measuring ∧ a.phase = .grab)

/-- MARK_RESULT handed to the alignment unit (R74). -/
def State.alignResult (s : State) (found : Bool) (ox oy : Int) : State :=
  if s.align.grabbing then
    if found ∧ withinAbs markOffsetMax ox ∧ withinAbs markOffsetMax oy then s.markMeasured ox oy else s.markMissed
  else s

/-- GRAB_FAULT or the timeout of a mark grab (R74). -/
def State.alignGrabFailed (s : State) : State := if s.align.grabbing then s.markMissed else s

/-- The record stops naming a wafer that leaves ST (R70). -/
def State.alignLeaves (s : State) (w : WaferName) : State := if s.align.wafer = some w then { s with align := Align.reset } else s

end Sys2Proof.Machine
end

