-- ==== Sys2Proof/Machine/Memory.lean ====
section
/-! DEFINITION. The memory behind the M-port: reads and byte-enabled writes of words, in one canonical form. -/

namespace Sys2Proof.Machine

/-- What a byte of memory that nothing has written reads as (DESIGN CHOICE, log entry 3). -/
def unlistedByte : Byte := 0

def Memory.readByte : Memory → Nat → Byte
  | [], _ => unlistedByte
  | (k, v) :: rest, a => if k = a then v else Memory.readByte rest a

/-- Writing keeps the addresses rising and lists no byte equal to `unlistedByte`. -/
def Memory.writeByte : Memory → Nat → Byte → Memory
  | [], a, b => if b = unlistedByte then [] else [(a, b)]
  | (k, v) :: rest, a, b =>
    if a < k then (if b = unlistedByte then (k, v) :: rest else (a, b) :: (k, v) :: rest)
    else if a = k then (if b = unlistedByte then rest else (a, b) :: rest)
    else (k, v) :: Memory.writeByte rest a b

/-- Every address of the list is above `a`. -/
def Memory.above (a : Nat) : Memory → Bool
  | [] => true
  | (k, _) :: rest => decide (a < k) && Memory.above a rest

/-- The canonical form: addresses strictly rising, no byte listed that an unlisted address reads as. -/
def Memory.wf : Memory → Bool
  | [] => true
  | (k, v) :: rest => decide (v ≠ unlistedByte) && Memory.above k rest && Memory.wf rest

/-- The byte address of the word holding `a`; addresses are 28 bits (00_scope.md). -/
def wordAddress (a : Nat) : Nat := a % 2 ^ 28 / 4 * 4

/-- A word, lane 0 at its lowest byte address (R191). -/
def Memory.readWord (m : Memory) (a : Nat) : Word :=
  let w := wordAddress a
  ofLanes (m.readByte w).toNat (m.readByte (w + 1)).toNat (m.readByte (w + 2)).toNat (m.readByte (w + 3)).toNat

/-- One lane of a word write, if its byte enable is set. -/
def Memory.writeLane (m : Memory) (w : Nat) (data : Word) (be : Enables) (k : Nat) : Memory :=
  if be.getLsbD k then m.writeByte (w + k) (lane k data) else m

/-- A word write with byte enables; with all four withheld memory is unchanged (R179). -/
def Memory.writeWord (m : Memory) (a : Nat) (data : Word) (be : Enables) : Memory :=
  let w := wordAddress a
  (((m.writeLane w data be 0).writeLane w data be 1).writeLane w data be 2).writeLane w data be 3

end Sys2Proof.Machine
end

