-- ==== Sys2Proof/Machine/Records.lean ====
section
/-! DEFINITION. The words of every record as memory shows them, where they lie, and how a word is read (11_memory_formats.md, R174,
R178, R181). -/

namespace Sys2Proof.Machine

/-! ## The anchor (11_memory_formats.md) -/

def anchorWords : Nat := 64

/-- The anchor's PART words but for its version (R174). -/
def State.anchorPart (s : State) : Image :=
  let c (k : Nat) : Nat := (s.notice.counts[k]?).getD 0
  [(1, ofLanes s.anchor.attach.code s.anchor.reason.code 0 0),
   (17, s.notice.pending),
   (18, ofHalves (c 0) (c 1)), (19, ofHalves (c 2) (c 3)), (20, ofHalves (c 4) (c 5)), (21, ofHalves (c 6) (c 7)),
   (22, ofHalves (c 8) (c 9)),
   (23, ofHalves s.anchor.masked s.anchor.captureMiss),
   (24, ofHalves s.anchor.stale 0)]

/-- The live focus error: that of the newest summary, 0 while the ring is empty (R95). -/
def State.liveFocusError (s : State) : Int :=
  match s.sensor.ring.getLast? with
  | some f => f.e
  | none => 0

/-- The anchor's LIVE words (R174). That the lanes without a field (lane 3 of word 29, the high half of word 30) read 0 is a DESIGN
CHOICE: R191 says it of PART words only (log entry 37). -/
def State.anchorLive (s : State) : Image :=
  [(25, s.clock), (26, wordOfInt s.motion.x.position), (27, wordOfInt s.motion.y.position), (28, wordOfInt s.motion.z.position),
   (29, ofLanes s.motion.x.state.code s.motion.y.state.code s.motion.z.state.code 0),
   (30, ofHalves (s.liveFocusError % 2 ^ 16).toNat 0),
   (31, wordOfNat s.sensor.link.code),
   (32, ofHalves s.sensor.misframes s.sensor.parityErrors),
   (33, wordOfNat s.handling.state.code)]

def Image.get (im : Image) (w : Nat) : Option Word := (im.find? fun p => p.1 == w).map (·.2)

/-- A PART or LIVE word of the anchor; none for a HOST word. -/
def State.anchorWord (s : State) (w : Nat) : Option Word :=
  if w = 2 then some s.wb.anchorVersion else (s.anchorPart.get w).or (s.anchorLive.get w)

/-! ## Record images -/

/-- Where a record's version word lies in it. -/
def versionOffset : RecId → Nat
  | .lotHeader _ => 39
  | .waferEntry _ _ => 13
  | .defectEntry _ _ => 15
  | .reportHeader _ => 16
  | .reportRow _ _ => 36

def Lot.image (l : Lot) : Image :=
  [(36, wordOfNat l.state.code), (37, ofLanes l.refusal.code l.badField 0 0), (38, ofHalves l.ignored l.changed)]

def Wafer.image (x : Wafer) (loc : Option Loc) : Image :=
  [(3, wordOfNat x.state.code), (4, wordOfNat x.finalResult.code),
   (5, wordOfNat (match loc with | some l => l.code | none => 0)),
   (6, ofLanes x.alignState.code x.alignMark x.alignAttempts x.alignReason.code),
   (7, wordOfInt x.a), (8, wordOfInt x.b), (9, wordOfInt x.tx), (10, wordOfInt x.ty),
   (11, x.startClock), (12, x.endClock)]

def Entry.image (e : Entry) : Image :=
  [(8, ofLanes e.state.code e.reason.code e.ignored 0), (9, wordOfNat e.attempts),
   (10, wordOfInt e.stageX), (11, wordOfInt e.stageY), (12, wordOfInt e.focusZ), (13, e.firstFrame), (14, e.frames)]

/-- Words numbered from `k`. -/
def numbered (k : Nat) : List Word → Image
  | [] => []
  | w :: ws => (k, w) :: numbered (k + 1) ws

def sumOver (rows : List Row) (f : Row → Nat) : Nat := (rows.map f).sum

/-- The header's totals are the sums over the rows (R159). -/
def Report.image (r : Report) : Image :=
  let t (k : Nat) : Word := wordOfNat (sumOver r.rows fun row => (row.outcomes.list[k]?).getD 0)
  numbered 0 [r.lotIdLow, r.lotIdHigh, wordOfNat r.state.code, r.startClock, r.endClock,
    wordOfNat (sumOver r.rows (·.posts)), t 0, t 1, t 2, t 3, t 4, t 5, t 6, t 7,
    wordOfNat (sumOver r.rows (·.late)), wordOfNat r.unattributed]
  ++ numbered 17 (List.replicate 15 0)

def Row.image (r : Row) (n : Nat) : Image :=
  numbered 0 ([wordOfNat n, wordOfNat r.state.code, wordOfNat r.finalResult.code, wordOfNat r.posts]
    ++ r.outcomes.list.map wordOfNat ++ r.bins.map wordOfNat
    ++ [wordOfInt r.scale, wordOfInt r.rotation, wordOfNat r.mapZones, wordOfInt r.mapLeast, wordOfInt r.mapGreatest,
        r.duration, (if r.postingTimeout then 1 else 0), wordOfNat r.late])
  ++ numbered 37 (List.replicate 11 0)

/-- The image of a record its owner holds (R178); region records are held while ATTACHED. -/
def State.ownerImage (s : State) (id : RecId) : Option Image :=
  if s.anchor.attach = .attached then
    match id with
    | .lotHeader k => some (s.lot k).image
    | .waferEntry k n => (s.wafer ⟨k, n⟩).map fun x => x.image (s.locationOf ⟨k, n⟩)
    | .defectEntry k i => (s.entry k i).map (·.image)
    | .reportHeader k => if (s.report k).rows.isEmpty then none else some (s.report k).image
    | .reportRow k n => (s.row ⟨k, n⟩).map fun r => r.image n
  else none

def findImage (l : List HeldImage) (id : RecId) : Option Image := (l.find? fun h => h.id == id).map (·.image)

/-- The image of a held record: its owner's, a direct write's, or one kept after its owner dropped it. -/
def State.heldImage (s : State) (id : RecId) : Option Image :=
  ((s.ownerImage id).or (findImage s.wb.direct id)).or (findImage s.wb.kept id)

/-! ## Version words (R182) -/

def versionIn (l : List (RecId × Word)) (id : RecId) : Word :=
  match l.find? fun p => p.1 == id with
  | some p => p.2
  | none => 0

def State.version (s : State) (id : RecId) : Word := versionIn s.wb.versions id

def putVersion (l : List (RecId × Word)) (id : RecId) (v : Word) : List (RecId × Word) :=
  (id, v) :: l.filter fun p => p.1 != id

/-- A record's version word set by the step itself: the step's one increase of it. -/
def State.setVersion (s : State) (id : RecId) (v : Word) : State :=
  { s with
    wb := { s.wb with versions := putVersion s.wb.versions id v }
    scratch := { s.scratch with versioned := id :: s.scratch.versioned } }

/-- A record all of whose words this step writes (R10, R161, R176). -/
def State.writeWhole (s : State) (id : RecId) : State :=
  { s with scratch := { s.scratch with written := id :: s.scratch.written } }

/-- A word of a held record, its version word among them. -/
def State.heldWord (s : State) (id : RecId) (w : Nat) : Option Word :=
  (s.heldImage id).bind fun im => if w = versionOffset id then some (s.version id) else im.get w

/-! ## Addresses (11_memory_formats.md, R175) -/

/-- The byte address of a record's region word 0. -/
def Windows.recordBase (ws : Windows) : RecId → Nat
  | .lotHeader k => ws.lotBase.get k
  | .waferEntry k n => ws.lotBase.get k + 4 * (64 + 32 * (n - 1))
  | .defectEntry k i => ws.defectBase.get k + 64 * i
  | .reportHeader k => ws.reportBase.get k
  | .reportRow k n => ws.reportBase.get k + 4 * (32 + 48 * (n - 1))

/-- Where a word access falls (R173). -/
inductive WordAt where
  | plain
  | anchor (w : Nat)
  | lotHeader (slot : Slot) (w : Nat)
  | waferEntry (slot : Slot) (n w : Nat)
  | defect (slot : Slot) (i w : Nat)
  | report (slot : Slot) (w : Nat)
  | classTable (w : Nat)
  deriving DecidableEq, Repr

def lotRecordWords : Nat := 864
def reportWords : Nat := 1232
def classTableWords : Nat := 64

/-- The word index of `a` in a region of `size` words at `base`. -/
def wordIn (a base size : Nat) : Option Nat := if base ≤ a ∧ a < base + 4 * size then some ((a - base) / 4) else none

/-- A word of a slot's three regions. -/
def Windows.slotWord (ws : Windows) (a : Nat) (k : Slot) : Option WordAt :=
  match wordIn a (ws.lotBase.get k) lotRecordWords with
  | some w => some (if w < 64 then .lotHeader k w else .waferEntry k ((w - 64) / 32 + 1) ((w - 64) % 32))
  | none =>
    match wordIn a (ws.defectBase.get k) (16 * ws.capacity.get k) with
    | some w => some (.defect k (w / 16) (w % 16))
    | none => (wordIn a (ws.reportBase.get k) reportWords).map fun w => .report k w

/-- The anchor is watched always, the regions while the window map holds them (R173, R174, R177). -/
def State.wordAt (s : State) (addr : Nat) : WordAt :=
  let a := wordAddress addr
  match wordIn a s.anchor.base anchorWords with
  | some w => .anchor w
  | none =>
    match s.path.windows with
    | none => .plain
    | some ws =>
      match (ws.slotWord a .zero).or (ws.slotWord a .one) with
      | some x => x
      | none =>
        match wordIn a ws.classBase classTableWords with
        | some w => .classTable w
        | none => .plain

/-- The record and offset of a PART word of a region (R178). -/
def WordAt.part : WordAt → Option (RecId × Nat)
  | .lotHeader k w => if 36 ≤ w ∧ w ≤ 39 then some (.lotHeader k, w) else none
  | .waferEntry k n w => if 3 ≤ w ∧ w ≤ 13 then some (.waferEntry k n, w) else none
  | .defect k i w => if 8 ≤ w then some (.defectEntry k i, w) else none
  | .report k w => if w < 32 then some (.reportHeader k, w) else some (.reportRow k ((w - 32) / 48 + 1), (w - 32) % 48)
  | .plain | .anchor _ | .classTable _ => none

/-! ## Reads (R181) -/

/-- The newest queued write of a word. -/
def MPort.forward (m : MPort) (a : Nat) : Option Word :=
  m.requests.foldl (fun r q => match q with
    | .write addr v _ => if addr = a then some v else r
    | _ => r) none

/-- What the part answers a read with, itself: a LIVE or anchor PART word, substitution, or forwarding; none when the read passes
to memory (R181). -/
def State.answer (s : State) (addr : Nat) : Option Word :=
  match s.wordAt addr with
  | .anchor w => s.anchorWord w
  | x =>
    match x.part with
    | some (id, w) => (s.heldWord id w).or (s.mport.forward (wordAddress addr))
    | none => none

/-- The value a P-port read of an address returns (R181). -/
def State.readWord (s : State) (addr : Nat) : Word := (s.answer addr).getD (s.mem.readWord addr)

end Sys2Proof.Machine
end

