-- ==== Sys2Proof/Machine/WriteBack.lean ====
section
/-! DEFINITION. What a step does at its end: version words and the dirty list follow the changes of the records, records no
longer needed are let go, and the arbiter chooses (R182 to R185). And the writer's move. -/

namespace Sys2Proof.Machine

def queueSize : Nat := 32

def PartRequest.isWrite : PartRequest → Bool
  | .write _ _ _ => true
  | _ => false

/-- The words in the write queue (R184). -/
def MPort.queued (m : MPort) : Nat := (m.requests.filter PartRequest.isWrite).length

/-! ## Dirty words (R183) -/

/-- Offsets merged in rising order, each once. -/
def insertOffset (w : Nat) : List Nat → List Nat
  | [] => [w]
  | v :: rest => if w < v then w :: v :: rest else if w = v then v :: rest else v :: insertOffset w rest

def mergeOffsets (ws vs : List Nat) : List Nat := ws.foldr insertOffset vs

/-- Words marked dirty: a record on the list keeps its place, another joins at the tail (R183). -/
def addDirty (l : List DirtyRecord) (id : RecId) (ws : List Nat) : List DirtyRecord :=
  if ws.isEmpty then l
  else if l.any fun d => d.id == id then l.map fun d => if d.id = id then { d with words := mergeOffsets ws d.words } else d
  else l ++ [⟨id, mergeOffsets ws []⟩]

/-- The offsets whose words differ between two images of a record. -/
def changedOffsets (old new : Image) : List Nat := (new.map (·.1)).filter fun w => old.get w != new.get w

/-- Every record a step may have changed, in the order log entry 13 gives. -/
def State.candidates (s : State) : List RecId :=
  let rows := (List.range 25).map (· + 1)
  [.lotHeader .zero, .lotHeader .one]
  ++ rows.map (fun n => .waferEntry .zero n) ++ rows.map (fun n => .waferEntry .one n)
  ++ (s.revisit.posting ++ s.revisit.store).map Entry.id ++ (s.wb.direct.map (·.id))
  ++ [.reportHeader .zero, .reportHeader .one]
  ++ rows.map (fun n => .reportRow .zero n) ++ rows.map (fun n => .reportRow .one n)

/-- One record at the end of a step that began in `s0`: its version increases by 1 if a word of it changed and the step has not
set the version itself, and its changed words become dirty. A direct write is not on the dirty list (R184). -/
def State.commitRecord (s0 s : State) (id : RecId) : State :=
  match s.heldImage id with
  | none => s
  | some new =>
    let changed : List Nat := match s0.heldImage id with
      | some old => if s.scratch.written.contains id then new.map (·.1) else changedOffsets old new
      | none => new.map (·.1)
    let v := s.version id
    let v := if s.scratch.versioned.contains id || changed.isEmpty then v else v + 1
    let dirty := if v ≠ s0.version id ∨ s0.heldImage id = none then insertOffset (versionOffset id) changed else changed
    let wb := { s.wb with versions := putVersion s.wb.versions id v }
    if s.wb.direct.any fun h => h.id == id then
      { s with wb := { wb with dirty := wb.dirty.filter fun d => d.id != id } }
    else { s with wb := { wb with dirty := addDirty wb.dirty id dirty } }

/-- The anchor version increases by 1 when another anchor PART word has changed (R174). -/
def State.commitAnchor (s0 s : State) : State :=
  if s0.anchorPart = s.anchorPart then s else { s with wb := { s.wb with anchorVersion := s.wb.anchorVersion + 1 } }

def State.commit (s0 s : State) : State := State.commitAnchor s0 (s.candidates.foldl (State.commitRecord s0) s)

/-- Records dropped by their owners are kept until their dirty words have entered the queue, and all of them while DETACHING
(R177, R178); the version words of records no longer held are let go. -/
def State.prune (s : State) : State :=
  let kept := s.wb.kept.filter fun h =>
    (decide (s.anchor.attach = .detaching) || s.wb.dirty.any fun d => d.id == h.id) && (s.ownerImage h.id).isNone
  let s := { s with wb := { s.wb with kept := kept } }
  { s with wb := { s.wb with versions := s.wb.versions.filter fun p => (s.heldImage p.1).isSome } }

/-! ## The arbiter (R185) -/

/-- A P-port access waits for the M-port. -/
def PathSlot.isWaiting : PathSlot → Bool
  | .waiting _ => true
  | _ => false

/-- The drain flag: set at 24 queued words, cleared at 16 or fewer (R185). -/
def drainFlag (queued : Nat) (flag : Bool) : Bool := if 24 ≤ queued then true else if queued ≤ 16 then false else flag

/-- The next access served when the M-port is free (R185). -/
def chooseServer (drain pWaits partWaits : Bool) : Option Server :=
  if pWaits && (!drain || !partWaits) then some .pPort else if partWaits then some .part else none

def State.arbitrate (s : State) : State :=
  let m := s.mport
  let drain := drainFlag m.queued m.drain
  let serving := match m.serving with
    | some x => some x
    | none => chooseServer drain s.path.slot.isWaiting (!m.requests.isEmpty)
  { s with mport := { m with drain := drain, serving := serving } }

/-! ## A step's beginning and end -/

/-- A step begins with nothing sent and nothing under way (log entries 5 and 11). -/
def State.begin (s : State) : State := { s with out := [], scratch := .empty }

/-- The end of a step that began in `s0`. -/
def State.finish (s0 s : State) : State :=
  { ((State.commit s0 s).prune).arbitrate with scratch := .empty }

/-- A whole step: its own effect, then the path unit's. -/
def State.run (s : State) (f : State → State) : State := State.finish s (f s.begin)

/-! ## Part requests -/

def State.ask (s : State) (q : PartRequest) : State :=
  { s with mport := { s.mport with requests := s.mport.requests ++ [q] } }

def State.askAll (s : State) (qs : List PartRequest) : State :=
  { s with mport := { s.mport with requests := s.mport.requests ++ qs } }

/-- The oldest part request, when it is the access in service. -/
def State.served (s : State) : Option PartRequest :=
  match s.mport.serving with
  | some .part => s.mport.requests.head?
  | _ => none

/-- The part request in service has been served: it leaves, and the M-port is free. -/
def State.endService (s : State) : State :=
  { s with mport := { s.mport with requests := s.mport.requests.tail, serving := none } }

/-! ## The writer (R183, R184) -/

/-- The queue words of a record's offsets, with their current values. -/
def queueWords (ws : Windows) (id : RecId) (value : Nat → Option Word) (offsets : List Nat) : List PartRequest :=
  offsets.filterMap fun w => (value w).map fun v => .write (ws.recordBase id + 4 * w) v id

/-- The oldest direct write `h` enters the queue: its eight words (R184). -/
def State.moveDirect (s : State) (ws : Windows) (h : HeldImage) (rest : List HeldImage) : State :=
  { s with wb := { s.wb with direct := rest } }.askAll
    (queueWords ws h.id (s.heldWord h.id) [8, 9, 10, 11, 12, 13, 14, 15])

/-- At most `n` direct writes enter the queue, oldest first, while the eight words of the oldest fit (R184). -/
def State.enterDirectFor : Nat → State → State
  | 0, s => s
  | n + 1, s =>
    match s.path.windows, s.wb.direct with
    | some ws, h :: rest => if s.mport.queued + 8 ≤ queueSize then State.enterDirectFor n (s.moveDirect ws h rest) else s
    | _, _ => s

/-- Direct writes enter the queue in the step in which they arise or room for them arises (R184; log entry 25). -/
def State.enterDirect (s : State) : State := s.enterDirectFor s.wb.direct.length

/-- The head dirty record moved, whole or in a part of 32 words, when it fits (R183). -/
def State.moveDirty (s : State) (ws : Windows) : State :=
  match s.wb.dirty with
  | [] => s
  | d :: rest =>
    let room := queueSize - s.mport.queued
    let value := s.heldWord d.id
    if d.words.length ≤ queueSize then
      if d.words.length ≤ room then
        { s with wb := { s.wb with dirty := rest } }.askAll (queueWords ws d.id value d.words)
      else s
    else if queueSize ≤ room then
      { s with wb := { s.wb with dirty := { d with words := d.words.drop queueSize } :: rest } }.askAll
        (queueWords ws d.id value (d.words.take queueSize))
    else s

/-- The writer's move: the oldest direct write before the dirty list (R184). -/
def State.moveRecord (s : State) : State :=
  match s.path.windows with
  | none => s
  | some ws =>
    match s.wb.direct with
    | [] => s.moveDirty ws
    | h :: rest =>
      if s.mport.queued + 8 ≤ queueSize then s.moveDirect ws h rest else s

/-- On neither list, and no word of it in the write queue (R183). -/
def State.writtenBack (s : State) (id : RecId) : Bool :=
  !(s.wb.dirty.any fun d => d.id == id) && !(s.wb.direct.any fun h => h.id == id)
    && !(s.mport.requests.any fun q => match q with
      | .write _ _ i => i == id
      | _ => false)

end Sys2Proof.Machine
end

