-- ==== Sys2Proof/Machine/LotControl.lean ====
section
/-! DEFINITION. Lot control: the start fetch and its checks, building the wafer table, the lot states, aborts, closing rows and
reports, and release (R1 to R20, R136, R158 to R172). -/

namespace Sys2Proof.Machine

/-! ## The halting of handling (R28), which aborts and releases may cause -/

def State.setHandling (s : State) (h : Handling) : State := { s with handling := h }

/-- Handling enters HALTED, and HANDLING_HALT is raised (R28). -/
def State.enterHalted (s : State) : State :=
  (s.setHandling { s.handling with state := .halted, haltMark := false }).raise .handlingHalt

/-- A halting event by the handling state (R28). -/
def State.halt (s : State) : State :=
  match s.handling.state with
  | .idle | .busy | .hold => s.enterHalted
  | .inventory => s.setHandling { s.handling with haltMark := true }
  | .halted | .unknown => s

/-! ## The stage wafer's cut-off and leaving (R152, R153, R155) -/

/-- The review of the record's wafer cut off, when it is in progress; its pending result is ABORTED if none is set (R81, R152, R153).
The unit that worked on the wafer withdraws its autofocus request in every phase, so that an answer taken first leaves autofocus IDLE
too (R110). An ORPHANED wafer is not made REVIEW_ENDED and no load position is asked for. R81 and R152 leave a request waiting at the
motion unit there, and by R53 and R55 the load-position request of the same step takes a waiting XY request's place: DESIGN CHOICE, R53
is followed, and the XY request is refused NOT_READY, which its unit disregards (log entry 45). -/
def State.cutReview (s : State) (why : EntryReason) (al : AlignReason) : State :=
  match s.revisit.wafer with
  | none => s
  | some w =>
    if s.revisit.review.inProgress then
      let s := (s.cutActive why).endQueued w why
      let s := ((s.alignStop al).withdrawFocus.endReview).pendAborted w
      if s.waferState w = some .onStage then (s.toReviewEnded w).requestLoad .loadForReview else s
    else s

/-- The units are told that the stage wafer has left (R23, R70, R110, R155). -/
def State.stageLeft (s : State) (w : WaferName) : State := ((s.alignLeaves w).focusLeaves).reviewLeaves w

/-- The units are told that a wafer has arrived on the stage (R23, R69, R139). -/
def State.stageArrived (s : State) (w : WaferName) : State := (s.reviewArrives w).alignArrives w

/-! ## The start fetch (R3) -/

/-- The header words fetched: the lot id and the recipe fields (R3). -/
def headerItems : List FetchItem := (List.range 35).map .header

/-- The HOST words of a wafer entry. -/
def hostWordsOfEntry : List Nat := [0, 1, 2] ++ (List.range 18).map (· + 14)

def slots25 : List Nat := (List.range 25).map (· + 1)

def entryItems : List FetchItem := slots25.flatMap fun n => hostWordsOfEntry.map fun w => .entry n w

def versionItems : List FetchItem := slots25.map .entryVersion ++ [.reportVersion] ++ slots25.map .rowVersion

/-- The words of the start fetch, in the order they are requested (log entry 12). -/
def fetchItems : List FetchItem := headerItems ++ entryItems ++ versionItems

/-- The byte address of a fetched word. -/
def Windows.itemAddress (ws : Windows) (k : Slot) : FetchItem → Nat
  | .header w => ws.recordBase (.lotHeader k) + 4 * w
  | .entry n w => ws.recordBase (.waferEntry k n) + 4 * w
  | .entryVersion n => ws.recordBase (.waferEntry k n) + 4 * versionOffset (.waferEntry k n)
  | .reportVersion => ws.recordBase (.reportHeader k) + 4 * versionOffset (.reportHeader k)
  | .rowVersion n => ws.recordBase (.reportRow k n) + 4 * versionOffset (.reportRow k n)

def FetchItem.isVersion : FetchItem → Bool
  | .entryVersion _ | .reportVersion | .rowVersion _ => true
  | .header _ | .entry _ _ => false

/-- A version word that substitution or forwarding answers at the START (R3). -/
def State.fetchAnswer (s : State) (ws : Windows) (k : Slot) (it : FetchItem) : Option Word :=
  if it.isVersion then s.answer (ws.itemAddress k it) else none

/-- The start fetch asked for: the words the part answers itself, and requests for the others (R3). -/
def State.beginFetch (s : State) (k : Slot) : State :=
  match s.path.windows with
  | none => s.modLot k fun l => { l with fetch := some [] }
  | some ws =>
    let known := fetchItems.filterMap fun it => (s.fetchAnswer ws k it).map fun v => (it, v)
    let asked := (fetchItems.filter fun it => (s.fetchAnswer ws k it).isNone).map fun it => PartRequest.startFetch k it
    (s.modLot k fun l => { l with fetch := some known }).askAll asked

def fetchedWord (got : List (FetchItem × Word)) (it : FetchItem) : Word :=
  match got.find? fun p => p.1 == it with
  | some p => p.2
  | none => 0

/-- Every word of the start fetch has returned. -/
def fetchComplete (got : List (FetchItem × Word)) : Bool := got.length == fetchItems.length

/-- The fetched recipe (R5); field i is header word i + 1. -/
def recipeOf (got : List (FetchItem × Word)) : Recipe :=
  let w (k : Nat) : Word := fetchedWord got (.header k)
  let f (i : Nat) : Int := (w (i + 1)).toInt
  { lotIdLow := w 0, lotIdHigh := w 1
    inspectionNotch := f 1, loadNotch := f 2, pitchX := f 3, pitchY := f 4, originX := f 5, originY := f 6, markCount := f 7
    p1x := f 8, p1y := f 9, p2x := f 10, p2y := f 11, p3x := f 12, p3y := f 13
    scaleTolerance := f 14, rotationTolerance := f 15, residualTolerance := f 16, markRetryLimit := f 17
    revisitLimit := f 18, retryLimit := f 19, framesPerGrab := f 20, settleTime := f 21
    zLow := f 22, zHigh := f 23, nominalZ := f 24, framesPerMeasurement := f 25, lightMinimum := f 26
    focusWindow := f 27, focusGain := f 28, stepMaximum := f 29, iterationLimit := f 30, searchStep := f 31
    searchLimit := f 32, postingWait := f 33 }

/-- A wafer's selected flag: any value but 0 selects (11_memory_formats.md). -/
def selectedOf (got : List (FetchItem × Word)) (n : Nat) : Bool := fetchedWord got (.entry n 0) != 0#32

/-! ## The start checks (R4 to R6) -/

/-- The range check of each field, in the order of its index (R5). -/
def Recipe.rangeChecks (r : Recipe) : List Bool :=
  let pos (v : Int) := withinAbs 160000000 v
  let third (v : Int) := r.markCount == 2 || pos v
  [within 0 3 r.inspectionNotch, within 0 3 r.loadNotch,
   within 100000 100000000 r.pitchX, within 100000 100000000 r.pitchY, pos r.originX, pos r.originY,
   within 2 3 r.markCount, pos r.p1x, pos r.p1y, pos r.p2x, pos r.p2y, third r.p3x, third r.p3y,
   within 1 1000 r.scaleTolerance, within 1 20000 r.rotationTolerance, within 0 50000 r.residualTolerance,
   within 0 3 r.markRetryLimit, within 1 512 r.revisitLimit, within 0 3 r.retryLimit, within 1 4 r.framesPerGrab,
   within 0 500 r.settleTime, within 0 3000000 r.zLow, within 0 3000000 r.zHigh && decide (r.zLow < r.zHigh),
   within r.zLow r.zHigh r.nominalZ, within 1 8 r.framesPerMeasurement, within 0 1048560 r.lightMinimum,
   within 1 32767 r.focusWindow, within 1 100000 r.focusGain, within 100 200000 r.stepMaximum,
   within 1 32 r.iterationLimit, within 1000 200000 r.searchStep, within 0 16 r.searchLimit,
   within 0 600000 r.postingWait]

/-- The index, from 1, of the first check that fails. -/
def firstFailure : Nat → List Bool → Option Nat
  | _, [] => none
  | k, b :: rest => if b then firstFailure (k + 1) rest else some k

/-- The lowest field index out of range (R5). -/
def Recipe.badField (r : Recipe) : Option Nat := firstFailure 1 r.rangeChecks

/-- P1 and P2 are at least 10 mm apart (R6). -/
def Recipe.marksApart (r : Recipe) : Bool :=
  let dx := r.p2x - r.p1x
  let dy := r.p2y - r.p1y
  decide (10 ^ 14 ≤ dx * dx + dy * dy)

/-- The first start check that fails, with the bad field index (R4). -/
def State.startCheck (s : State) (k : Slot) (got : List (FetchItem × Word)) : Option (RefusalCode × Nat) :=
  let r := recipeOf got
  if s.cell.carrier.get k = false then some (.noCarrier, 0)
  else if s.motion.allReferenced = false then some (.notReferenced, 0)
  else match r.badField with
    | some i => some (.badRecipe, i)
    | none =>
      if r.marksApart = false then some (.marksTooClose, 0)
      else if (slots25.any fun n => selectedOf got n) = false then some (.noneSelected, 0)
      else none

/-! ## Building the wafer table and opening the report (R7, R10, R16, R161) -/

/-- A wafer record as the table is built: WAITING or, for an aborted lot, RETURNED if selected; SKIPPED if not (R7, R16). -/
def Wafer.fresh (selected aborted : Bool) : Wafer where
  selected := selected
  state := if selected then (if aborted then .returned else .waiting) else .skipped
  mapResult := .unmapped
  pendingResult := none
  finalResult := if selected && !aborted then .none else .notProcessed
  alignState := .none
  alignMark := 0
  alignAttempts := 0
  alignReason := .none
  a := 0
  b := 0
  tx := 0
  ty := 0
  startClock := 0
  endClock := 0
  postingClosed := false

/-- The wafer table, the location table's entries for the selected wafers, and the entries' versions (R7, R10, R16, R22). -/
def State.buildWafers (s : State) (k : Slot) (got : List (FetchItem × Word)) (aborted : Bool) : State :=
  let s := s.modLot k fun l => { l with wafers := slots25.map fun n => Wafer.fresh (selectedOf got n) aborted }
  slots25.foldl (fun s n =>
    let s := if selectedOf got n then s.setAt (.carrier k n) (.wafer ⟨k, n⟩) else s
    (s.setVersion (.waferEntry k n) (fetchedWord got (.entryVersion n) + 1)).writeWhole (.waferEntry k n)) s

/-- The report opened (R161). -/
def State.openReport (s : State) (k : Slot) (got : List (FetchItem × Word)) (aborted : Bool) : State :=
  let r := recipeOf got
  let s := s.modReport k fun _ => {
    state := .opened, lotIdLow := r.lotIdLow, lotIdHigh := r.lotIdHigh, startClock := s.clock, endClock := 0, unattributed := 0
    rows := slots25.map fun n => Row.fresh (Wafer.fresh (selectedOf got n) aborted).finalResult
    classLock := [] }
  let s := (s.setVersion (.reportHeader k) (fetchedWord got .reportVersion + 1)).writeWhole (.reportHeader k)
  slots25.foldl (fun s n =>
    (s.setVersion (.reportRow k n) (fetchedWord got (.rowVersion n) + 1)).writeWhole (.reportRow k n)) s

def State.setStartLock (s : State) (k : Slot) (b : Bool) : State :=
  { s with path := { s.path with startLock := s.path.startLock.set k b } }

def State.setClosedLock (s : State) (k : Slot) (b : Bool) : State :=
  { s with path := { s.path with closedLock := s.path.closedLock.set k b } }

def State.setMapRequest (s : State) (k : Slot) (b : Bool) : State :=
  s.setHandling { s.handling with mapRequest := s.handling.mapRequest.set k b }

/-- A start refused: EMPTY, the refusal written, the lock lifted (R4). -/
def State.refuseStart (s : State) (k : Slot) (code : RefusalCode) (field : Nat) : State :=
  (s.modLot k fun l => { l with state := .empty, refusal := code, badField := field, fetch := none }).setStartLock k false

/-- A lot started (R7). -/
def State.startLot (s : State) (k : Slot) (got : List (FetchItem × Word)) : State :=
  let first : LotState := if (s.lot k.other).state = .running then .queued else .running
  let s := s.modLot k fun l => { l with state := first, fetch := none, recipe := some (recipeOf got) }
  ((s.buildWafers k got false).openReport k got false).setMapRequest k true

/-- The fetch of a lot aborted in STARTING completes: its table and report are built (R16). -/
def State.buildAborted (s : State) (k : Slot) (got : List (FetchItem × Word)) : State :=
  let s := s.modLot k fun l => { l with fetch := none, recipe := some (recipeOf got) }
  (s.buildWafers k got true).openReport k got true

/-- The start fetch completes (R4, R16). -/
def State.fetchDone (s : State) (k : Slot) (got : List (FetchItem × Word)) : State :=
  match (s.lot k).state with
  | .starting =>
    match s.startCheck k got with
    | some (code, field) => s.refuseStart k code field
    | none => s.startLot k got
  | .aborting => s.buildAborted k got
  | _ => s

/-! ## Closing rows and reports (R169, R171, R136) -/

/-- Whether a store record may be freed at once: none of its words is dirty, waits in the queue, or changes in this step (R136). -/
def State.clean (s : State) (e : Entry) : Bool := s.writtenBack e.id && !s.scratch.touched.contains e.id

/-- The records of a wafer whose row closes. Whether a record that the slot's released lot has left in the store belongs to the new lot's
wafer of the same slot no rule says: DESIGN CHOICE, it does not, as its own row has closed (log entry 47). -/
def Entry.inOpenRowOf (e : Entry) (w : WaferName) : Bool := decide (e.wafer = w) && !e.rowClosed

/-- A row that is OPEN closes: its entries join the class lock and leave the index, and those already written back are freed
(R136, R169). -/
def State.closeRow (s : State) (w : WaferName) : State :=
  if s.rowOpen w then
    let mine := s.revisit.store.filter fun e => e.inOpenRowOf w
    let s := s.modRow w fun r => { r with state := .closed }
    let s := s.modReport w.slot fun r => { r with
      classLock := r.classLock ++ ((mine.filter fun e => !(r.classLock.any fun c => c.index == e.index)).map fun e => ⟨e.index, w.n⟩) }
    let clean := s.clean
    s.setRevisit { s.revisit with
      store := (s.revisit.store.filter fun e => !(e.inOpenRowOf w && clean e)).map fun e =>
        if e.inOpenRowOf w then { e with rowClosed := true } else e }
  else s

/-- The report closes: every open row, then the header; the closed-report lock replaces the start lock (R17, R171). -/
def State.closeReport (s : State) (k : Slot) : State :=
  let s := slots25.foldl (fun s n => s.closeRow ⟨k, n⟩) s
  let s := s.modReport k fun r => { r with state := .closed, endClock := s.clock }
  (((s.setStartLock k false).setClosedLock k true).raise .lotEnd).raise .reportClosed

/-! ## The lot states (R9, R14, R16) -/

def Lot.anyWaiting (l : Lot) : Bool := l.wafers.any fun x => x.state == .waiting
def Lot.allFinal (l : Lot) : Bool := l.wafers.all fun x => x.state.isFinal
def Lot.anyOutside (l : Lot) : Bool := l.wafers.any fun x => x.state.isOutside

def State.setLotState (s : State) (k : Slot) (st : LotState) : State := s.modLot k fun l => { l with state := st }

/-- One change of a slot's lot state whose condition holds (R9, R14, R16). -/
def State.lotChange (s : State) (k : Slot) : State :=
  let l := s.lot k
  let other := (s.lot k.other).state
  match l.state with
  | .queued => if other ≠ .running then s.setLotState k .running else s
  | .running => if l.anyWaiting = false ∧ other ≠ .finishing then s.setLotState k .finishing else s
  | .finishing => if l.allFinal then (s.setLotState k .done).closeReport k else s
  | .aborting => if l.fetch = none ∧ l.anyOutside = false then (s.setLotState k .aborted).closeReport k else s
  | .empty | .starting | .done | .aborted => s

/-- The lots pass through every state whose condition the step has made true (R14). -/
def State.lotPass (s : State) : State :=
  (List.range 4).foldl (fun s _ => (s.lotChange .zero).lotChange .one) s

/-! ## Aborting a lot (R15) -/

/-- The wafers' changes at an abort, but for the stage wafer's review (R15). A pending result that is set is kept: DEDUCED from R11
(log entry 27). A WAITING wafer gets NOT_PROCESSED also when its pending result is SUSPECT: DESIGN CHOICE between R11's row with R15
and R11's text with R37 (log entry 27). -/
def State.abortWafer (s : State) (w : WaferName) : State :=
  match s.waferState w with
  | some .waiting => (s.modWafer w fun x => { x with state := .returned }).writeFinal w .notProcessed
  | some .unaligned => (s.modWafer w fun x => { x with state := .returning }).pendAborted w
  | some .ready =>
    let s := s.pendAborted w
    if s.locationOf w = some .ua then s.modWafer w fun x => { x with state := .returning } else s
  | some .prealigning | some .onStage => s.pendAborted w
  | _ => s

/-- An abort of a QUEUED, RUNNING or FINISHING lot (R15). -/
def State.abortLot (s : State) (k : Slot) : State :=
  let s := (s.setLotState k .aborting).setMapRequest k false
  let s := s.endQueuedOfLot k .lotAbort
  let s := if (s.revisit.wafer.map (·.slot)) = some k then s.cutReview .lotAbort .lotAbort else s
  slots25.foldl (fun s n => s.abortWafer ⟨k, n⟩) s

/-! ## Release (R18, R172) -/

/-- The words of a record put among those kept after their owner drops them (R178). -/
def State.keep (s : State) (id : RecId) : State :=
  match s.ownerImage id with
  | some im => { s with wb := { s.wb with kept := ⟨id, im⟩ :: s.wb.kept.filter fun h => h.id != id } }
  | none => s

/-- The ids of the records that a slot's RELEASE drops (R178). -/
def releasedIds (k : Slot) : List RecId :=
  slots25.map (fun n => .waferEntry k n) ++ [.reportHeader k] ++ slots25.map (fun n => .reportRow k n)

/-- A wafer of the slot. -/
def Occupant.ofSlot (o : Occupant) (k : Slot) : Bool :=
  match o with
  | .wafer w => w.slot == k
  | _ => false

/-- An outside place that names a wafer of a released slot becomes UNKNOWN (R18). -/
def State.forgetAt (s : State) (k : Slot) (l : Loc) : State := if (s.at l).ofSlot k then s.setAt l .unknown else s

/-- The location table at a release: carrier slots EMPTY, outside places UNKNOWN, a put-back out halts handling, and the stage
wafer leaves (R18, R22, R34). -/
def State.releasePlaces (s : State) (k : Slot) : State :=
  let putBack := s.handling.table.putBack && (s.at .ua).ofSlot k
  let stage := s.at .st
  let s := slots25.foldl (fun s n =>
    if (s.at (.carrier k n)).ofSlot k then s.setAt (.carrier k n) .empty else s) s
  let s := (((s.forgetAt k .ua).forgetAt k .la).forgetAt k .pa).forgetAt k .st
  let s := if putBack then s.halt else s
  match stage with
  | .wafer w => if w.slot = k then s.stageLeft w else s
  | _ => s

/-- A RELEASE taken (R18, R172). -/
def State.releaseLot (s : State) (k : Slot) : State :=
  let s := s.modReport k fun r => { r with state := .released }
  let s := (releasedIds k).foldl State.keep s
  let s := s.releasePlaces k
  let s := s.modReport k fun r => { r with rows := [], classLock := [] }
  let s := s.setRevisit { s.revisit with store := s.revisit.store.map fun e => if e.slot = k then { e with bin := none } else e }
  let s := s.modLot k fun l => { l with state := .empty, fetch := none, recipe := none, wafers := [] }
  (s.setStartLock k false).setClosedLock k false

end Sys2Proof.Machine
end

