-- ==== Sys2Proof/Machine/Handling.lean ====
section
/-! DEFINITION. The handling unit: orders, the robot arbiter, DONEs, faults, inventory and carrier loss (R21 to R45). -/

namespace Sys2Proof.Machine

def robotTimeout : Nat := 30000
def prealignTimeout : Nat := 20000
def mapTimeout : Nat := 60000

/-! ## Sending orders (R24, R25) -/

def State.takeHandlerTag (s : State) : State := s.setHandling { s.handling with tag := s.handling.tag + 1 }

def State.sendRobot (s : State) (k : RobotKind) : State :=
  let t := s.handling.tag
  (s.setHandling { s.handling with robot := some ⟨t, k, .at s.clock robotTimeout⟩ }).takeHandlerTag.emit (.robot t k)

def State.sendPrealign (s : State) (notch : Int) : State :=
  let t := s.handling.tag
  (s.setHandling { s.handling with prealigner := some ⟨t, notch, .at s.clock prealignTimeout⟩ }).takeHandlerTag.emit
    (.prealign t notch)

/-- Sending a MAP clears its request flag (R29). -/
def State.sendMap (s : State) (p : Slot) : State :=
  let t := s.handling.tag
  let h := { s.handling with
    mapper := s.handling.mapper.set p (some ⟨t, false, .at s.clock mapTimeout⟩)
    mapRequest := s.handling.mapRequest.set p false }
  (s.setHandling h).takeHandlerTag.emit (.map p t)

/-- INVENTORY sent, the state INVENTORY (R40, R44). -/
def State.sendInventory (s : State) : State :=
  let s := s.sendRobot .inventory
  s.setHandling { s.handling with state := .inventory }

/-- Some unit has an order outstanding. -/
def Handling.busy (h : Handling) : Bool :=
  h.robot.isSome || h.prealigner.isSome || h.mapper.zero.isSome || h.mapper.one.isSome

/-- BUSY or IDLE by the outstanding orders (R28). -/
def Handling.rest (h : Handling) : HandlingState := if h.busy then .busy else .idle

def HandlingState.mayOrder : HandlingState → Bool
  | .idle | .busy => true
  | _ => false

/-- In IDLE and BUSY the state follows the outstanding orders (R28). -/
def State.restHandling (s : State) : State :=
  if s.handling.state.mayOrder then s.setHandling { s.handling with state := s.handling.rest } else s

/-! ## The robot arbiter (R13, R25, R32, R33) -/

/-- A MAP of the port is outstanding. -/
def State.mapOut (s : State) (p : Slot) : Bool := (s.handling.mapper.get p).isSome

def State.carrierHere (s : State) (p : Slot) : Bool := s.cell.carrier.get p

/-- The next wafer a lot offers: the lowest WAITING wafer mapped PRESENT (R13). -/
def Lot.nextWafer (l : Lot) : Option Nat :=
  slots25.find? fun n => match getAt l.wafers n with
    | some x => decide (x.state = .waiting ∧ x.mapResult = .answered .present)
    | none => false

/-- The running lot's next wafer. -/
def State.offered (s : State) : Option WaferName :=
  if (s.lot .zero).state = .running then ((s.lot .zero).nextWafer).map fun n => ⟨.zero, n⟩
  else if (s.lot .one).state = .running then ((s.lot .one).nextWafer).map fun n => ⟨.one, n⟩
  else none

/-- Choice 1, but for the stage's place: ST holds a REVIEW_ENDED wafer and LA is empty. -/
def State.wantsOff (s : State) : Bool := decide (s.stateAt .st = some .reviewEnded ∧ s.at .la = .empty)

/-- Choice 2, but for the stage's place: ST is empty and UA holds a READY wafer of a RUNNING or FINISHING lot. -/
def State.wantsOn (s : State) : Bool :=
  match s.at .ua with
  | .wafer w => decide (s.at .st = .empty ∧ s.waferState w = some .ready
      ∧ ((s.lot w.slot).state = .running ∨ (s.lot w.slot).state = .finishing))
  | _ => false

/-- The order that takes a wafer of an arm to its carrier slot, when its carrier is there and no MAP of the port is outstanding. -/
def State.homeOrder (s : State) (arm : Arm) (w : WaferName) : Option RobotKind :=
  if s.carrierHere w.slot && !s.mapOut w.slot then some (.place (.carrier w.slot w.n) arm) else none

def State.choice1 (s : State) : Option RobotKind := if s.wantsOff && s.motion.atLoad then some (.pick .st .lower) else none
def State.choice2 (s : State) : Option RobotKind := if s.wantsOn && s.motion.atLoad then some (.place .st .upper) else none
def State.choice3 (s : State) : Option RobotKind :=
  match s.at .la with
  | .wafer w => if s.waferState w = some .returning then s.homeOrder .lower w else none
  | _ => none
def State.choice4 (s : State) : Option RobotKind :=
  match s.at .ua with
  | .wafer w => if s.waferState w = some .returning ∨ s.handling.table.putBack then s.homeOrder .upper w else none
  | _ => none
def State.choice5 (s : State) : Option RobotKind :=
  if s.stateAt .ua = some .unaligned ∧ s.at .pa = .empty then some (.place .pa .upper) else none
def State.choice6 (s : State) : Option RobotKind :=
  if (s.stateAt .pa = some .ready ∨ s.stateAt .pa = some .returning) ∧ s.at .ua = .empty then some (.pick .pa .upper) else none
def State.choice7 (s : State) : Option RobotKind :=
  if s.at .ua = .empty ∧ s.at .pa = .empty then
    match s.offered with
    | some w => if s.mapOut w.slot then none else some (.pick (.carrier w.slot w.n) .upper)
    | none => none
  else none

/-- The first choice whose conditions all hold (R32). -/
def State.robotChoice (s : State) : Option RobotKind :=
  ((((((s.choice1.or s.choice2).or s.choice3).or s.choice4).or s.choice5).or s.choice6).or s.choice7)

/-- The load position asked for when choice 1 or 2 waits for it alone (R33). -/
def State.askLoad (s : State) : State :=
  if s.handling.robot = none ∧ s.motion.atLoad = false ∧ (s.wantsOff || s.wantsOn) then s.requestLoad .loadForHandling else s

def State.chooseRobot (s : State) : State :=
  if s.handling.robot.isSome then s
  else match s.robotChoice with
    | some k => s.sendRobot k
    | none => s

/-- PREALIGN for a PREALIGNING wafer on PA (R30). -/
def State.choosePrealign (s : State) : State :=
  match s.at .pa with
  | .wafer w =>
    if s.waferState w = some .prealigning ∧ s.handling.prealigner = none then s.sendPrealign (s.recipe w.slot).loadNotch else s
  | _ => s

/-- A robot order to a slot of the port is outstanding (R25). -/
def State.robotAtPort (s : State) (p : Slot) : Bool :=
  match s.handling.robot with
  | some o => match o.kind with
    | .pick (.carrier q _) _ => q == p
    | .place (.carrier q _) _ => q == p
    | _ => false
  | none => false

/-- UA holds a wafer with a put-back mark for the port. -/
def State.putBackFor (s : State) (p : Slot) : Bool := s.handling.table.putBack && (s.at .ua).ofSlot p

/-- MAP when its flag is set and the conditions hold (R25, R29). -/
def State.chooseMap (s : State) (p : Slot) : State :=
  if s.handling.mapRequest.get p && !s.mapOut p && s.carrierHere p && !s.robotAtPort p && !s.putBackFor p then s.sendMap p else s

/-- What the handling unit sends in a step, in the order of its tags (R24, R28 to R33). -/
def State.sends (s : State) : State :=
  if s.handling.state.mayOrder then
    (((s.askLoad.chooseRobot).choosePrealign.chooseMap .zero).chooseMap .one).restHandling
  else s

/-! ## Wafer moves reported to lot control (R11, R34, R42) -/

/-- A wafer becomes RETURNED: final result, notice, and the end of its list (R11, R132). -/
def State.toReturned (s : State) (w : WaferName) : State :=
  let r := match s.wafer w with
    | some x => x.pendingResult.getD .notProcessed
    | none => .notProcessed
  (((s.modWafer w fun x => { x with state := .returned }).writeFinal w r).raise .waferReturned).endQueued w .waferUnavailable

/-- A wafer placed on ST only to be taken off: REVIEW_ENDED with both review clocks (R34, R42). -/
def State.toReviewEndedAtOnce (s : State) (w : WaferName) : State :=
  let s := s.modWafer w fun x => { x with state := .reviewEnded, startClock := s.clock, endClock := s.clock }
  (((s.handDuration w 0).handMapFigures w)).endQueued w .waferUnavailable

def State.setWaferState (s : State) (w : WaferName) (st : WaferState) : State := s.modWafer w fun x => { x with state := st }

/-- A wafer whose pending result is SUSPECT. -/
def State.isSuspect (s : State) (w : WaferName) : Bool :=
  match s.wafer w with
  | some x => decide (x.pendingResult = some .suspect)
  | none => false

/-- A READY wafer picked onto UA: RETURNING for an ABORTING lot or a suspect wafer (R11). -/
def State.readyOnUA (s : State) (w : WaferName) : State :=
  if (s.lot w.slot).state = .aborting ∨ s.isSuspect w then s.setWaferState w .returning else s

/-- Lot control applies a reported move (R11, R34). Only a READY wafer placed on ST is reported as arriving: DESIGN CHOICE for an ORPHANED
one, which R23's exceptions do not name (log entry 48). -/
def State.waferMoved (s : State) (w : WaferName) (dst : Loc) : State :=
  match s.waferState w, dst with
  | some .waiting, .ua => s.setWaferState w .unaligned
  | some .unaligned, .pa => s.setWaferState w .prealigning
  | some .ready, .ua => s.readyOnUA w
  | some .ready, .st => (s.modWafer w fun x => { x with state := .onStage, startClock := s.clock }).stageArrived w
  | some .reviewEnded, .la => s.setWaferState w .returning
  | some .returning, .carrier _ _ => s.toReturned w
  | some .returning, .st => s.toReviewEndedAtOnce w
  | some .returned, .ua => s.setHandling { s.handling with table := { s.handling.table with putBack := true } }
  | _, _ => s

/-- The source of a PICK or PLACE. -/
def RobotKind.source : RobotKind → Option Loc
  | .pick l _ => some l
  | .place _ .upper => some .ua
  | .place _ .lower => some .la
  | .inventory => none

/-- The destination of a PICK or PLACE. -/
def RobotKind.destination : RobotKind → Option Loc
  | .pick _ .upper => some .ua
  | .pick _ .lower => some .la
  | .place l _ => some l
  | .inventory => none

/-- A location in a carrier that is absent (R38). -/
def State.inAbsentCarrier (s : State) : Loc → Bool
  | .carrier p _ => !s.carrierHere p
  | _ => false

/-- The location table after a move: the source EMPTY, the destination with the wafer; an absent carrier takes none and gives none,
and an occupant without identity makes a carrier slot EMPTY (R22, R34, R38). R34 leaves open what becomes of a wafer that a new lot has
entered at that slot while the put-back was out: DESIGN CHOICE, the slot is EMPTY then too (log entry 22). -/
def State.moveTable (s : State) (src dst : Loc) : State :=
  let o := s.at src
  let s' := s.setAt src .empty
  match dst with
  | .carrier _ _ =>
    if s.inAbsentCarrier dst then s'
    else match o with
      | .wafer w => s'.setAt dst (.wafer w)
      | _ => s'.setAt dst .empty
  | _ =>
    if s.inAbsentCarrier src then s'.setAt dst .unknown
    else match o with
      | .wafer w => s'.setAt dst (.wafer w)
      | _ => s'.setAt dst .unknown

/-- The wafer that a move out of a location concerns: none out of or into an absent carrier. -/
def State.movedWafer (s : State) (src dst : Loc) : Option WaferName :=
  if s.inAbsentCarrier src || s.inAbsentCarrier dst then none else (s.at src).name

/-- The stage wafer leaves when the move's source is ST (R23). -/
def State.leaveFrom (s : State) (src : Loc) (o : Occupant) : State :=
  match src, o with
  | .st, .wafer w => s.stageLeft w
  | _, _ => s

/-- A move done: the table, the departure from the stage, and the report to lot control (R22). It moves what the table names at the
source by then, and a carrier is absent or not by its line then: DESIGN CHOICE where that has changed since the order (log entry 46). -/
def State.moveDone (s : State) (src dst : Loc) : State :=
  let o := s.at src
  let moved := s.movedWafer src dst
  let s := (s.moveTable src dst).leaveFrom src o
  match moved with
  | some w => s.waferMoved w dst
  | none => s

/-- A suspect wafer by the place where an inventory finds it (R42). -/
def State.suspectFound (s : State) (w : WaferName) (l : Loc) : State :=
  match s.waferState w with
  | none => s
  | some st =>
    if st.isFinal then s
    else match l with
      | .carrier _ _ => s.toReturned w
      | .ua => s.setWaferState w .returning
      | .la => s.setWaferState w .returning
      | .pa => if st = .returning then s else s.setWaferState w .ready
      | .st => if st = .reviewEnded ∨ st = .onStage then s.setWaferState w .reviewEnded else s.toReviewEndedAtOnce w

/-! ## Replies to the robot's orders (R22, R36, R37, R41 to R44) -/

/-- The order of a unit stops being outstanding (R26). -/
def State.endRobot (s : State) : State := s.setHandling { s.handling with robot := none }

/-- A DONE of a PICK or PLACE (R22). -/
def State.robotDone (s : State) (k : RobotKind) : State :=
  match k.source, k.destination with
  | some src, some dst => s.moveDone src dst
  | _, _ => s

/-- The uncertain move recorded, unless the source's occupant has no identity (R34, R36). -/
def State.recordUncertain (s : State) (k : RobotKind) : State :=
  match k.source, k.destination with
  | some src, some dst =>
    if s.at src = .unknown then s else s.setHandling { s.handling with uncertain := some ⟨s.at src, src, dst⟩ }
  | _, _ => s

/-- The wafer an order was moving becomes suspect, and its QUEUED entries end (R37, R132). -/
def State.markSuspect (s : State) (k : RobotKind) : State :=
  match k.source with
  | some src => match s.at src with
    | .wafer w => (s.modWafer w fun x => { x with pendingResult := some .suspect }).endQueued w .waferUnavailable
    | _ => s
  | none => s

/-- The end of an INVENTORY without a comparison: HALTED, the table as it was (R36, R28). -/
def State.inventoryFails (s : State) : State := if s.handling.state = .inventory then s.enterHalted else s.halt

/-- The codes that leave the wafer's place uncertain (R36). -/
def HandlerFaultCode.uncertain : HandlerFaultCode → Bool
  | .vacuumLost | .stopped | .driveFault => true
  | .notPresent | .occupied => false

/-- A FAULT of a robot order (R36, R37). -/
def State.robotFault (s : State) (k : RobotKind) (code : HandlerFaultCode) : State :=
  match k with
  | .inventory => s.inventoryFails
  | .pick _ _ | .place _ _ =>
    let s := if code = .vacuumLost then s.markSuspect k else s
    (if HandlerFaultCode.uncertain code then s.recordUncertain k else s).halt

/-- The timeout of a robot order (R27). -/
def State.robotTimesOut (s : State) (k : RobotKind) : State :=
  match k with
  | .inventory => s.inventoryFails
  | .pick _ _ | .place _ _ => (s.recordUncertain k).halt

/-! ### Inventory -/

/-- What an INVENTORY senses at UA, LA, PA and ST. -/
structure Sensed where
  ua : Bool
  la : Bool
  pa : Bool
  st : Bool
  deriving DecidableEq, Repr

/-- A sensed place; carrier slots are not sensed. -/
def Sensed.get (x : Sensed) : Loc → Option Bool
  | .ua => some x.ua
  | .la => some x.la
  | .pa => some x.pa
  | .st => some x.st
  | .carrier _ _ => none

/-- Whether an uncertain move is taken as done (R41). -/
def UncertainMove.taken (u : UncertainMove) (x : Sensed) : Bool :=
  match x.get u.destination with
  | some present => present
  | none => match x.get u.source with
    | some present => !present
    | none => false

def Loc.isCarrier : Loc → Bool
  | .carrier _ _ => true
  | _ => false

/-- The uncertain move settled, with R42's exception for a suspect wafer (R41). -/
def State.settleUncertain (s : State) (x : Sensed) : State :=
  match s.handling.uncertain with
  | none => s
  | some u =>
    let s := s.setHandling { s.handling with uncertain := none }
    let suspect := (s.movedWafer u.source u.destination).filter fun w =>
      s.isSuspect w && !((s.waferState w).map (·.isFinal)).getD true
    match suspect with
    | none => if u.taken x then s.moveDone u.source u.destination else s
    | some w =>
      if u.taken x then
        let o := s.at u.source
        let s := (s.moveTable u.source u.destination).leaveFrom u.source o
        if u.destination.isCarrier then s.suspectFound w u.destination else s
      else if u.source.isCarrier then s.suspectFound w u.source else s

/-- An ORPHANED wafer no longer sensed leaves its place (R43). -/
def State.clearOrphan (s : State) (x : Sensed) (l : Loc) : State :=
  if s.stateAt l = some .orphaned ∧ x.get l = some false then
    let o := s.at l
    (s.setAt l .empty).leaveFrom l o
  else s

/-- The comparison of one entry with what is sensed: whether it agrees (R41). -/
def Occupant.agrees (o : Occupant) (present : Bool) : Bool :=
  match o with
  | .wafer _ => present
  | .empty => !present
  | .unknown => !present

/-- The entry after the comparison (R41). -/
def Occupant.compared (o : Occupant) (present : Bool) : Occupant :=
  match o with
  | .wafer w => .wafer w
  | .empty => if present then .unknown else .empty
  | .unknown => if present then .unknown else .empty

def State.compareAt (s : State) (x : Sensed) (l : Loc) : State :=
  match x.get l with
  | some present => if (s.at l).compared present = s.at l then s else s.setAt l ((s.at l).compared present)
  | none => s

def State.agreesAt (s : State) (x : Sensed) (l : Loc) : Bool :=
  match x.get l with
  | some present => (s.at l).agrees present
  | none => true

/-- A suspect wafer sensed at a place it is named at (R42). -/
def State.findSuspect (s : State) (x : Sensed) (l : Loc) : State :=
  match s.at l with
  | .wafer w => if s.isSuspect w && x.get l == some true then s.suspectFound w l else s
  | _ => s

def outsidePlaces : List Loc := [.ua, .la, .pa, .st]

/-- The state after an inventory that agrees (R41, R44). -/
def State.inventoryAgrees (s : State) : State :=
  let st := if s.cell.interlockOpen then HandlingState.hold else s.handling.rest
  let due := s.handling.homingDue
  let s := s.setHandling { s.handling with state := st, homingDue := false }
  if due then s.requestHome else s

/-- A DONE of INVENTORY (R41 to R44, R28). -/
def State.inventoryDone (s : State) (x : Sensed) : State :=
  let s := s.settleUncertain x
  let s := outsidePlaces.foldl (fun s l => s.clearOrphan x l) s
  let agree := outsidePlaces.all fun l => s.agreesAt x l
  let s := outsidePlaces.foldl (fun s l => s.compareAt x l) s
  let s := outsidePlaces.foldl (fun s l => s.findSuspect x l) s
  if s.handling.state ≠ .inventory then s
  else if agree && !s.handling.haltMark then s.inventoryAgrees
  else s.enterHalted

/-! ## Replies of the other units (R29, R30) -/

def State.endPrealign (s : State) : State := s.setHandling { s.handling with prealigner := none }
def State.setMapper (s : State) (p : Slot) (o : Option MapOrder) : State :=
  s.setHandling { s.handling with mapper := s.handling.mapper.set p o }

/-- A DONE of PREALIGN: the wafer on PA becomes READY (R30, R11). R30 does not say what a DONE does when PA holds another PREALIGNING
wafer by then than the one it was sent for: DESIGN CHOICE, the one there now becomes READY (log entry 46). -/
def State.prealignDone (s : State) : State :=
  match s.at .pa with
  | .wafer w => if s.waferState w = some .prealigning then s.setWaferState w .ready else s
  | _ => s

/-- A wafer taken out of the carrier's plan by its map result (R12, R22, R132). -/
def State.mappedAway (s : State) (w : WaferName) (st : WaferState) : State :=
  (((s.setWaferState w st).writeFinal w .notProcessed).setAt (.carrier w.slot w.n) .empty).endQueued w .waferUnavailable

/-- A MAP answer for one wafer (R12). -/
def State.applyMap (s : State) (w : WaferName) (a : MapAnswer) : State :=
  let s := s.modWafer w fun x => { x with mapResult := .answered a }
  if s.waferState w = some .waiting then
    match a with
    | .present => s
    | .empty => s.mappedAway w .absent
    | .double | .cross => s.mappedAway w .mapFault
  else s

/-- A MAP's DONE: the carrier map takes the results, and lot control applies them (R12, R29). -/
def State.mapAnswered (s : State) (p : Slot) (results : List MapAnswer) : State :=
  let s := s.setHandling { s.handling with carrierMap := s.handling.carrierMap.set p (some results) }
  if (s.lot p).state.takesPosts then
    slots25.foldl (fun s n => match getAt results n with
      | some a => s.applyMap ⟨p, n⟩ a
      | none => s) s
  else s

/-- A FAULT or timeout of a MAP that has not been cancelled (R29). -/
def State.mapFails (s : State) (p : Slot) : State := (s.setMapRequest p true).halt

/-! ## Carrier loss (R38, R39) -/

/-- A wafer outside a lost carrier becomes ORPHANED; from ON_STAGE its row takes its duration and map figures (R38, R114, R163). -/
def State.orphan (s : State) (w : WaferName) : State :=
  match s.wafer w with
  | none => s
  | some x =>
    if x.state.isOutside then
      let s := if x.state = .onStage then (s.handDuration w (s.clock - x.startClock)).handMapFigures w else s
      (s.setWaferState w .orphaned).writeFinal w .aborted
    else s

/-- The carrier map and MAP request cleared, an outstanding MAP cancelled (R29, R38). -/
def State.dropMap (s : State) (p : Slot) : State :=
  let h := s.handling
  s.setHandling { h with
    carrierMap := h.carrierMap.set p none
    mapRequest := h.mapRequest.set p false
    mapper := h.mapper.set p ((h.mapper.get p).map fun o => { o with cancelled := true }) }

/-- Every WAITING wafer's map result returns to UNMAPPED (R12). -/
def State.unmap (s : State) (p : Slot) : State :=
  s.modLot p fun l => { l with wafers := l.wafers.map fun x => if x.state = .waiting then { x with mapResult := .unmapped } else x }

/-- Carrier loss on a port (R34, R38, R39). -/
def State.carrierLost (s : State) (p : Slot) : State :=
  let outside := (s.lot p).anyOutside
  let putBack := s.putBackFor p
  let s := { s with cell := { s.cell with carrier := s.cell.carrier.set p false } }
  let s := slots25.foldl (fun s n => s.orphan ⟨p, n⟩) s
  let s := (s.dropMap p).unmap p
  let s := if (s.lot p).state.takesPosts then s.abortLot p else s
  let s := if putBack then s.setAt .ua .unknown else s
  if outside || putBack then s.halt else s

/-! ## Reset and detach (R45) -/

/-- The occupant a location keeps at detach. -/
def Occupant.detached (o other : Occupant) : Occupant :=
  match o with
  | .wafer _ => other
  | _ => o

/-- The handling unit's detach values (R45). -/
def Handling.detach (h : Handling) : Handling :=
  let t := h.table
  { Handling.reset with table := {
      carriers := ⟨t.carriers.zero.map fun o => o.detached .empty, t.carriers.one.map fun o => o.detached .empty⟩
      ua := t.ua.detached .unknown
      la := t.la.detached .unknown
      pa := t.pa.detached .unknown
      st := t.st.detached .unknown
      putBack := false } }

end Sys2Proof.Machine
end

