-- ==== Sys2Proof/Machine/Sensor.lean ====
section
/-! DEFINITION. The sensor link receiver: frame assembly, parity, link states, summaries and silence (R84 to R95). -/

namespace Sys2Proof.Machine

def silenceTimeout : Nat := 2
def ringSize : Nat := 8
def frameWords : Nat := 16

def State.setSensor (s : State) (n : Sensor) : State := { s with sensor := n }

/-- The number of ones in a word's 16 data bits. -/
def onesIn (w : BitVec 16) : Nat := ((List.range 16).filter fun k => w.getLsbD k).length

/-- The ones of the data bits and the parity flag are even in number (R88). -/
def parityGood (words : List (BitVec 16)) (parity : Bool) : Bool :=
  ((words.map onesIn).sum + (if parity then 1 else 0)) % 2 == 0

/-- The sums of the A samples (words 1, 3, …) and of the B samples (words 2, 4, …) (R84, R92). -/
def halfSums : List (BitVec 16) → Nat × Nat
  | [] => (0, 0)
  | [a] => (a.toNat, 0)
  | a :: b :: rest =>
    let r := halfSums rest
    (a.toNat + r.1, b.toNat + r.2)

/-- The focus error (R93). -/
def focusError (sumA sumB : Nat) : Int :=
  if sumA + sumB = 0 then 0 else clamp (-32767) 32767 (rnd (32768 * ((sumA : Int) - sumB)) (sumA + sumB))

/-- The light minimum in force: that of the stage wafer's started lot, else 0 (R92). -/
def State.lightMinimum (s : State) : Int :=
  match s.stageRecipe with
  | some r => r.lightMinimum
  | none => 0

/-- The summary of an accepted frame (R92). -/
def summarise (sequence : Word) (words : List (BitVec 16)) (epoch : Word) (lightMin : Int) : Summary :=
  let h := halfSums words
  let l := h.1 + h.2
  ⟨sequence, h.1, h.2, l, epoch, decide ((l : Int) < lightMin ∨ l = 0), focusError h.1 h.2⟩

/-- The newest eight of the ring with a new summary (R94). -/
def ringAdd (ring : List Summary) (f : Summary) : List Summary :=
  let r := ring ++ [f]
  r.drop (r.length - ringSize)

/-- An accepted frame: sequence, summary, ring, and the frame arrival to the autofocus unit (R92, R94). -/
def State.acceptFrame (s : State) (words : List (BitVec 16)) (epoch : Word) : State :=
  let n := s.sensor
  let f := summarise (n.sequence + 1) words epoch s.lightMinimum
  (s.setSensor { n with sequence := n.sequence + 1, ring := ringAdd n.ring f }).frameArrival f

/-- A good frame at the link state (R89). -/
def State.goodFrame (s : State) (words : List (BitVec 16)) (epoch : Word) : State :=
  match s.sensor.link with
  | .locked => s.acceptFrame words epoch
  | .hunt =>
    if s.sensor.good + 1 < 2 then s.setSensor { s.sensor with good := s.sensor.good + 1 }
    else (s.setSensor { s.sensor with good := 2, link := .locked }).acceptFrame words epoch
  | .down => s

/-- A bad frame at the link state (R89, R91). -/
def State.badFrame (s : State) : State :=
  match s.sensor.link with
  | .locked => (s.setSensor { s.sensor with link := .hunt, good := 0 }).raise .linkLost
  | .hunt => s.setSensor { s.sensor with good := 0 }
  | .down => s

/-- A misframe, the partial frame discarded (R87). -/
def State.misframe (s : State) (next : Assembler) : State :=
  (s.setSensor { s.sensor with assembler := next, misframes := satInc 65535 s.sensor.misframes }).badFrame

/-- A frame begins with a MARK word (R86). -/
def State.beginFrame (s : State) (w : BitVec 16) (parity : Bool) : State :=
  s.setSensor { s.sensor with assembler := .inside [w] parity s.motion.epoch }

/-- A complete frame judged (R88). -/
def State.judgeFrame (s : State) (words : List (BitVec 16)) (parity : Bool) (epoch : Word) : State :=
  let s := s.setSensor { s.sensor with assembler := .outside false false }
  if parityGood words parity then s.goodFrame words epoch
  else (s.setSensor { s.sensor with parityErrors := satInc 65535 s.sensor.parityErrors }).badFrame

/-- A word taken by the assembler (R86). -/
def State.assemble (s : State) (w : BitVec 16) (mark parity : Bool) : State :=
  match s.sensor.assembler with
  | .outside joining stray =>
    if mark then s.beginFrame w parity
    else if joining then s
    else if stray then s
    else s.misframe (.outside false true)
  | .inside words p epoch =>
    if mark then (s.misframe (.outside false false)).beginFrame w parity
    else if words.length + 1 < frameWords then s.setSensor { s.sensor with assembler := .inside (words ++ [w]) p epoch }
    else s.judgeFrame (words ++ [w]) p epoch

/-- A word's arrival: the silence timer restarts, DOWN becomes HUNT, the assembler takes the word (R84, R89, R90). -/
def State.takeWord (s : State) (w : BitVec 16) (mark parity : Bool) : State :=
  let n := { s.sensor with silence := some (.at s.clock silenceTimeout) }
  let n := if n.link = .down then { n with link := .hunt, good := 0 } else n
  (s.setSensor n).assemble w mark parity

/-- Entering DOWN at the silence timer's expiry (R90, R91). -/
def State.fallSilent (s : State) : State :=
  let locked := s.sensor.link = .locked
  let s := s.setSensor { s.sensor with
    link := .down, good := 0, assembler := .outside true false, ring := [], silence := none }
  if locked then s.raise .linkLost else s

end Sys2Proof.Machine
end

