-- ==== Sys2Proof/Machine/Deliver.lean ====
section
/-! DEFINITION. What blocks tell each other inside a step, delivered in order, and the motion fault (R54 to R57, R154). -/

namespace Sys2Proof.Machine

/-- One message delivered to its block. Answers to a load-position request ask nothing of their units: the arbiter looks at X and Y
itself (R33, R151). -/
def State.deliver (s : State) (m : Msg) : State :=
  match m with
  | .settled r _ =>
    match r.unit with
    | .alignment => s.alignSettled r.number
    | .revisit => s.revisitSettled r.number
    | .autofocus => s.focusSettled r.number
    | .loadForHandling | .loadForReview => s
  | .refused r _ why =>
    match r.unit with
    | .alignment => s.alignRefused r.number
    | .revisit => s.revisitRefused r.number why
    | .autofocus => s.focusRefused r.number
    | .loadForHandling | .loadForReview => s
  | .focusAnswer .alignment o => s.alignFocus o
  | .focusAnswer .revisit o => s.revisitFocus o
  | .lookAtList => s.lookAfterEnd

def State.setMsgs (s : State) (ms : List Msg) : State := { s with scratch := { s.scratch with msgs := ms } }

/-- Messages delivered first in, first out, until none is left. -/
def State.drainFor : Nat → State → State
  | 0, s => s
  | fuel + 1, s =>
    match s.scratch.msgs with
    | [] => s
    | m :: rest => State.drainFor fuel ((s.setMsgs rest).deliver m)

/-- More deliveries than a step can make: each record of the store ends at most once, after at most four attempts (R147, R148). -/
def State.deliveries (s : State) : Nat := 16 * (s.revisit.store.length + s.revisit.posting.length + 8)

def State.drain (s : State) : State := State.drainFor s.deliveries s

/-- The consequences of a step's own effect: what blocks tell each other, the lot states, and the orders the handling unit sends. -/
def State.settle (s : State) : State := ((s.drain.lotPass).sends).drain

/-! ## Motion faults (R56, R57, R153, R154) -/

/-- The motion fault reported to the blocks (R57). -/
def State.reportFault (s : State) : State :=
  let s := (s.raise .motionFault).halt
  if s.stateAt .st = some .onStage then (s.withdrawFocus).cutReview .motionFault .motionFault else s

def Msg.isRefusal : Msg → Bool
  | .refused _ _ _ => true
  | _ => false

/-- The messages that are no refusals delivered, the refusals left for after the fault's report. -/
def State.drainOthers : Nat → State → State
  | 0, s => s
  | fuel + 1, s =>
    match s.scratch.msgs.find? (fun m => !m.isRefusal) with
    | none => s
    | some m => State.drainOthers fuel ((s.setMsgs (s.scratch.msgs.erase m)).deliver m)

/-- The refusals of a waiting request delivered before the fault is reported (R105, R154). -/
def State.refuseFirst (s : State) (ms : List Msg) : State :=
  let s := ms.foldl State.deliver s
  State.drainOthers s.deliveries s

/-- One of the requesters is the autofocus unit, waiting for the answer to this request (R105). -/
def State.focusWaits (s : State) (rs : List Requester) : Bool :=
  rs.any fun r => r.unit == .autofocus && s.af.zReq == some r.number && s.af.state.isActive

/-- The motion fault reported after the refusal of the group's waiting request. When that request was the autofocus unit's, the fault
makes the unit IDLE (R105), also where the answer to the refusal has ended the stage wafer's review, for which R57's table gives no
effect: DEDUCED, the rule that speaks of this refusal decides (log entry 42). -/
def State.reportAfterRefusal (s : State) (focus : Bool) : State := if focus then s.reportFault.withdrawFocus else s.reportFault

/-- The group enters FAULT, its waiting request is refused, and the fault is reported; which of refusal and report is taken first
the spec leaves open (R57, R105, R154; log entry 10). -/
def State.motionFault (s : State) (g : MotionGroup) : State :=
  let r := s.motion.group g
  let s := s.faultGroup g
  match r.waiting with
  | none => s.reportFault
  | some w =>
    let s := s.setGroup g { s.motion.group g with waiting := none }
    let ms := refusals w.requesters g .notReady
    let first := Config.refusalFirst s.free
    let s := { s with free := s.free + 1 }
    if first then (s.refuseFirst ms).reportAfterRefusal (s.focusWaits w.requesters) else (s.reportFault).sayAll ms

end Sys2Proof.Machine
end

