-- ==== Sys2Proof/Machine/Posting.lean ====
section
/-! DEFINITION. Posting: the capture cache, taking a post, the fill, the nine checks, admission, and withdrawal (R120 to R136, R164 to
R167, R186, R187). -/

namespace Sys2Proof.Machine

def postingSize : Nat := 16
def storeSize : Nat := 1024
def captureLines : Nat := 16

/-! ## The capture cache (R186) -/

/-- A word of a line after a write: merged, valid if it was valid before or all four bytes are written. -/
def CapturedWord.write (c : CapturedWord) (data : Word) (be : Enables) : CapturedWord :=
  ⟨mergeLanes be c.value data, c.valid || isFull be⟩

def CaptureLine.is (l : CaptureLine) (k : Slot) (i : Nat) : Bool := l.slot == k && l.index == i

def CaptureLine.fresh (k : Slot) (i : Nat) : CaptureLine := ⟨k, i, List.replicate 8 ⟨0, false⟩⟩

def captureLine (c : List CaptureLine) (k : Slot) (i : Nat) : Option CaptureLine := c.find? fun l => l.is k i

def dropLine (c : List CaptureLine) (k : Slot) (i : Nat) : List CaptureLine := c.filter fun l => !l.is k i

/-- A write to a HOST word of an entry: its line is updated and becomes the most recently written; a new line takes a free place or
that of the least recently written (R186). -/
def captureWrite (c : List CaptureLine) (k : Slot) (i w : Nat) (data : Word) (be : Enables) : List CaptureLine :=
  let line := (captureLine c k i).getD (CaptureLine.fresh k i)
  let rest := dropLine c k i
  let rest := if rest.length < captureLines then rest else rest.drop 1
  rest ++ [{ line with words := line.words.modify w fun x => x.write data be }]

def State.capture (s : State) (k : Slot) (i w : Nat) (data : Word) (be : Enables) : State :=
  { s with path := { s.path with capture := captureWrite s.path.capture k i w data be } }

/-! ## The checks of a post (R126) -/

/-- The wafer states that check 5 refuses. -/
def WaferState.passed : WaferState → Bool
  | .reviewEnded | .returning | .returned | .absent | .mapFault | .orphaned => true
  | _ => false

/-- The first check that refuses a post (R126, R63). -/
def State.postCheck (s : State) (e : Entry) : Option EntryReason :=
  let w := e.wafer
  if ¬ (s.lot e.slot).state.takesPosts then some .lotNotActive
  else if ¬ (1 ≤ e.waferSlot ∧ e.waferSlot ≤ 25) then some .badSlot
  else match s.wafer w with
    | none => some .notSelected
    | some x =>
      if ¬ x.selected then some .notSelected
      else if s.rowClosed w then some .rowClosed
      else if x.state.passed ∨ x.pendingResult = some .suspect then some .waferPassed
      else if e.defectId = 0 then some .zeroId
      else if s.idTaken e.slot e.defectId then some .duplicateId
      else match coordinateCheck (s.recipe e.slot) e.col e.row e.dx e.dy with
        | some why => some why
        | none => if storeSize ≤ s.revisit.store.length then some .storeFull else none

/-- The checks that attribute a refusal to no row (R128). -/
def EntryReason.unattributed : EntryReason → Bool
  | .lotNotActive | .badSlot => true
  | _ => false

/-- A refused post's words as a direct write, off the dirty list, with the version this step gives the record (R182, R184). -/
def State.addDirect (s : State) (e : Entry) : State :=
  let s := if s.scratch.versioned.contains e.id then s else s.setVersion e.id (s.version e.id + 1)
  { s with wb := { s.wb with
      direct := s.wb.direct ++ [(⟨e.id, e.image⟩ : HeldImage)], dirty := s.wb.dirty.filter fun d => d.id != e.id } }

/-- A refused post: REFUSED, out of the posting list, its words a direct write that enters the queue as soon as it fits (R127, R128,
R184). -/
def State.refusePost (s : State) (e : Entry) (why : EntryReason) : State :=
  let e : Entry := { e with state := .refused, reason := why }
  let s := ((s.leavePosting e.slot e.index).addDirect e).enterDirect
  if why.unattributed then s.countUnattributed e.slot else s.countPost e.wafer (some .refused)

/-- A record placed in the store (R129); the step has touched it. -/
def State.storeRecord (s : State) (e : Entry) : State :=
  { (s.leavePosting e.slot e.index).setRevisit { (s.leavePosting e.slot e.index).revisit with store := s.revisit.store ++ [e] } with
    scratch := { s.scratch with touched := e.id :: s.scratch.touched } }

/-- The QUEUED entry that an arrival of a given priority displaces: the last in list order of the lowest priority present (R131). -/
def State.displaced (s : State) (w : WaferName) (priority : Nat) : Option Entry :=
  match (s.queuedOf w).getLast? with
  | some e => if e.priority < priority then some e else none
  | none => none

/-- Admission by the first case that applies (R131). -/
def State.takeIn (s : State) (e : Entry) : State :=
  let w := e.wafer
  if (s.admittedOf w : Int) < (s.recipe e.slot).revisitLimit then
    ((s.countPost w none).storeRecord { e with state := .queued }).inserted w
  else match s.displaced w e.priority with
    | some d =>
      (((s.finishEntry d .notSampled .displaced).countPost w none).storeRecord { e with state := .queued }).inserted w
    | none => (s.countPost w (some .notSampled)).storeRecord { e with state := .notSampled, reason := .limit }

/-- The checks of a complete fill (R126, R127, R131). -/
def State.checkPost (s : State) (e : Entry) : State :=
  match s.postCheck e with
  | some why => s.refusePost e why
  | none =>
    let p := dieToWafer (s.recipe e.slot) e.col e.row e.dx e.dy
    s.takeIn { e with wx := p.x, wy := p.y }

/-- Every HOST word gathered. -/
def Entry.filled (e : Entry) : Bool := e.host.all Option.isSome

/-- The checks, when the fill of a POSTING entry is complete (R123). -/
def State.checkIfFilled (s : State) (k : Slot) (i : Nat) : State :=
  match s.revisit.posting.find? fun e => e.is k i with
  | some e => if e.filled then s.checkPost e else s
  | none => s

/-! ## Taking a post (R121, R123, R187) -/

/-- The store record of an earlier post dropped; an OPEN row gives back a counted bin (R121, R167). -/
def State.dropRecord (s : State) (e : Entry) : State :=
  let s := match e.bin with
    | some b => if e.state = EntryState.reviewed ∧ ¬ e.rowClosed then s.modRow e.wafer fun r => { r with bins := binDec r.bins b } else s
    | none => s
  s.leaveStore e.slot e.index

def Entry.fresh (k : Slot) (i : Nat) (host : List (Option Word)) (sequence : Nat) : Entry where
  slot := k
  index := i
  host := host
  wx := 0
  wy := 0
  sequence := sequence
  state := .posting
  reason := .none
  ignored := 0
  attempts := 0
  stageX := 0
  stageY := 0
  focusZ := 0
  firstFrame := 0
  frames := 0
  rowClosed := false
  bin := none

/-- The words a line hands over: its valid ones (R123). -/
def CaptureLine.handed (l : CaptureLine) : List (Option Word) := l.words.map fun c => if c.valid then some c.value else none

/-- The indices of the words still missing. -/
def missingFrom : Nat → List (Option Word) → List Nat
  | _, [] => []
  | k, some _ :: rest => missingFrom (k + 1) rest
  | k, none :: rest => k :: missingFrom (k + 1) rest

def State.countCaptureMiss (s : State) : State :=
  { s with anchor := { s.anchor with captureMiss := satInc 65535 s.anchor.captureMiss } }

/-- The post sequence count, saturating (R121). -/
def State.nextSequence (s : State) (k : Slot) : Nat := satInc (2 ^ 32 - 1) (s.revisit.postSequence.get k)

/-- The words a post's capture line hands over (R123, R187). -/
def State.handedWords (s : State) (k : Slot) (i : Nat) : List (Option Word) :=
  ((captureLine s.path.capture k i).getD (CaptureLine.fresh k i)).handed

/-- The store record of an earlier post of the entry dropped, if there is one, and its index out of the class lock (R121, R170). -/
def State.dropEarlier (s : State) (k : Slot) (i : Nat) : State :=
  (match s.storeEntry k i with
    | some e => s.dropRecord e
    | none => s).unlockClass k i

/-- The entry joins the posting list with its line's words and the next sequence; the line is freed, the version begins (R121, R122,
R187). -/
def State.listPost (s : State) (k : Slot) (i : Nat) (version : Word) : State :=
  let n := s.nextSequence k
  let s' := s.setRevisit { s.revisit with
    posting := s.revisit.posting ++ [Entry.fresh k i (s.handedWords k i) n]
    postSequence := s.revisit.postSequence.set k n }
  { s' with path := { s'.path with capture := dropLine s'.path.capture k i } }.setVersion (.defectEntry k i) version

/-- A POST taken, with the version its record begins with (R121, R123, R170, R187). -/
def State.takePost (s : State) (k : Slot) (i : Nat) (version : Word) : State :=
  let missing := missingFrom 0 (s.handedWords k i)
  let s := (s.dropEarlier k i).listPost k i version
  if missing.isEmpty then s.checkIfFilled k i
  else s.countCaptureMiss.askAll (missing.map fun w => .fill k i w)

/-- A fill read returned (R123). -/
def State.fillWord (s : State) (k : Slot) (i w : Nat) (v : Word) : State :=
  let s := s.setRevisit { s.revisit with
    posting := s.revisit.posting.map fun e => if e.is k i then { e with host := e.host.set w (some v) } else e }
  s.checkIfFilled k i

/-- A request not acted on, counted in the entry's record, saturating (R117, R121, R133). -/
def State.countIgnored (s : State) (k : Slot) (i : Nat) : State :=
  s.modEntry k i fun e => { e with ignored := satInc 255 e.ignored }

/-! ## Withdrawing (R133) -/

def State.withdraw (s : State) (k : Slot) (i : Nat) : State :=
  match s.entry k i with
  | none => s
  | some e => if e.state = .queued then s.finishEntry e .withdrawn .none else s.countIgnored k i

/-! ## Changed after post (R124) -/

/-- A write that passes to a HOST word of a live entry, but for the class and control words. -/
def State.countChanged (s : State) (k : Slot) (i : Nat) : State :=
  match s.entry k i with
  | some e => if e.state.isLive then s.modLot k fun l => { l with changed := satInc 65535 l.changed } else s
  | none => s

/-! ## Counted class writes (R166) -/

/-- The row's bins and the entry's counted bin after a counted class write of code c. -/
def State.countClass (s : State) (e : Entry) (c : Byte) : State :=
  let new : Option Nat := if c = 0 then none else some (s.binOf c)
  let s := s.modRow e.wafer fun r =>
    let bins := match e.bin with
      | some b => binDec r.bins b
      | none => r.bins
    let bins := match new with
      | some b => binInc bins b
      | none => bins
    { r with bins := bins }
  s.modEntry e.slot e.index fun x => { x with bin := new }

end Sys2Proof.Machine
end

