-- ==== Sys2Proof/Machine/Attach.lean ====
section
/-! DEFINITION. Attach and detach: the layout checks, taking hold of the regions, the detach values, and completion (R175 to R177,
R20, R45, R61, R83, R85, R115, R137, R157, R172). -/

namespace Sys2Proof.Machine

def State.setPath (s : State) (p : Path) : State := { s with path := p }
def State.setAnchor (s : State) (a : Anchor) : State := { s with anchor := a }

/-- The layout's ten words, and its memory top (R175). -/
def layoutWords : Nat := 10

/-- The layout's seven bases and two capacities, read as unsigned values (R175, R192). -/
def windowsOf (got : List Word) : Windows :=
  let w (k : Nat) : Nat := ((got[k]?).getD 0).toNat
  ⟨⟨w 0, w 1⟩, ⟨w 2, w 3⟩, ⟨w 4, w 5⟩, w 6, ⟨w 7, w 8⟩⟩

def memoryTopOf (got : List Word) : Nat := ((got[9]?).getD 0).toNat

/-- A region as its base and its size in bytes. -/
structure Span where
  base : Nat
  size : Nat
  deriving DecidableEq, Repr

/-- The seven regions (R175). -/
def Windows.spans (ws : Windows) : List Span :=
  [⟨ws.lotBase.zero, 3456⟩, ⟨ws.lotBase.one, 3456⟩,
   ⟨ws.defectBase.zero, 64 * ws.capacity.zero⟩, ⟨ws.defectBase.one, 64 * ws.capacity.one⟩,
   ⟨ws.reportBase.zero, 4928⟩, ⟨ws.reportBase.one, 4928⟩, ⟨ws.classBase, 256⟩]

def Span.apart (x y : Span) : Bool := decide (x.base + x.size ≤ y.base ∨ y.base + y.size ≤ x.base)

def allApart : List Span → Bool
  | [] => true
  | x :: rest => rest.all (fun y => x.apart y) && allApart rest

def memoryLimit : Nat := 268435456

/-- The first layout check that fails (R175). -/
def layoutCheck (anchor : Nat) (ws : Windows) (top : Nat) : Option AttachReason :=
  if ¬ (1 ≤ ws.capacity.zero ∧ ws.capacity.zero ≤ 4096 ∧ 1 ≤ ws.capacity.one ∧ ws.capacity.one ≤ 4096) then some .badCapacity
  else if ¬ (ws.spans.all fun x => x.base % 256 == 0) then some .badAlign
  else if ¬ (top ≤ memoryLimit ∧ ws.spans.all fun x => decide (x.base + x.size ≤ top)) then some .outOfMemory
  else if ¬ allApart (⟨anchor, 256⟩ :: ws.spans) then some .overlap
  else none

/-- An attach request taken: CHECKING, the layout lock, and the ten layout reads (R175). -/
def State.beginAttach (s : State) : State :=
  let s := s.setAnchor { s.anchor with attach := .checking }
  (s.setPath { s.path with layoutLock := true, layoutGot := [] }).askAll ((List.range layoutWords).map .layout)

/-- A layout that fails (R175). -/
def State.attachFails (s : State) (why : AttachReason) : State :=
  ((s.setAnchor { s.anchor with attach := .detached, reason := why }).setPath
    { s.path with layoutLock := false, layoutGot := [] }).raise .attachResult

/-- A lot header taken hold of, with version 1 and all its words dirty (R1, R176). -/
def State.holdHeader (s : State) (k : Slot) : State := (s.setVersion (.lotHeader k) 1).writeWhole (.lotHeader k)

/-- The part becomes ATTACHED (R176, R44). -/
def State.attachSucceeds (s : State) (ws : Windows) : State :=
  let s := s.setAnchor { s.anchor with attach := .attached, reason := .none }
  let s := s.setPath { s.path with windows := some ws, layoutGot := [] }
  let s := { s with lots := .both .reset }
  let s := (s.holdHeader .zero).holdHeader .one
  let s := s.askAll ((List.range classTableWords).map .classTable)
  let s := s.sendInventory
  (s.setHandling { s.handling with homingDue := true }).raise .attachResult

/-- The layout checks, when the last word has returned (R175, R176). -/
def State.checkLayout (s : State) : State :=
  let ws := windowsOf s.path.layoutGot
  match layoutCheck s.anchor.base ws (memoryTopOf s.path.layoutGot) with
  | some why => s.attachFails why
  | none => s.attachSucceeds ws

/-- A layout word returned (R175). -/
def State.layoutWord (s : State) (v : Word) : State :=
  let got := s.path.layoutGot ++ [v]
  let s := s.setPath { s.path with layoutGot := got }
  if got.length = layoutWords then s.checkLayout else s

/-! ## Detach (R177) -/

/-- Some lot slot is STARTING, QUEUED, RUNNING, FINISHING or ABORTING. -/
def State.lotActive (s : State) : Bool := (s.lot .zero).state.isActive || (s.lot .one).state.isActive

/-- A detach refused (R177); the write itself is masked by the caller. -/
def State.refuseDetach (s : State) : State := (s.setAnchor { s.anchor with reason := .detachRefused }).raise .attachResult

/-- Fetch reads not yet served are dropped (R177). -/
def MPort.dropReads (m : MPort) : MPort where
  requests := m.requests.filter PartRequest.isWrite
  serving := match m.serving, m.requests.head? with
    | some .part, some q => if q.isWrite then some .part else none
    | x, _ => x
  drain := m.drain

/-- POSTING entries are refused, and every held record is kept with its words as they are (R20, R137, R177). R137 gives the entries
refused together no order: DESIGN CHOICE, that of the posting list (log entry 43). -/
def State.keepForDetach (s : State) : State :=
  let s := s.revisit.posting.foldl (fun s e => s.refusePost e .lotNotActive) s
  s.candidates.foldl State.keep s

/-- Every block takes its detach values, and the part is DETACHING (R177). -/
def State.beginDetach (s : State) : State :=
  let s := s.keepForDetach.detachMotion
  { s with
    lots := .both .reset
    reports := .both .reset
    classTable := .reset
    handling := s.handling.detach
    align := .reset
    sensor := .reset
    af := .reset
    focusMap := clearedMap
    revisit := .reset
    grab := .reset
    anchor := { s.anchor with attach := .detaching, masked := 0, captureMiss := 0, stale := 0 }
    notice := .reset
    path := { s.path with startLock := .both false, capture := [] }
    mport := s.mport.dropReads }

/-- The direct-write list, the dirty list and the write queue are all empty (R177). -/
def State.nothingToWrite (s : State) : Bool := s.wb.direct.isEmpty && s.wb.dirty.isEmpty && s.mport.queued == 0

/-- DETACHED: windows cleared, held records dropped, locks lifted (R177, R180). -/
def State.detached (s : State) : State :=
  let s := s.setAnchor { s.anchor with attach := .detached, reason := .none }
  let s := s.setPath { s.path with windows := none, layoutLock := false, startLock := .both false, closedLock := .both false }
  { s with wb := { s.wb with kept := [], versions := [] } }

end Sys2Proof.Machine
end

