-- ==== Sys2Proof/Machine/Path.lean ====
section
/-! DEFINITION. The path unit: what a P-port access means, the requests that trigger words carry, holding and releasing an access,
and the M-port's served accesses (R2, R40, R58, R120, R134, R165, R168, R173, R179 to R181, R189). -/

namespace Sys2Proof.Machine

def State.isAttached (s : State) : Bool := decide (s.anchor.attach = .attached)

def State.setSlot (s : State) (p : PathSlot) : State := s.setPath { s.path with slot := p }

/-- The access passes to the M-port (R173). -/
def State.pass (s : State) (a : PAccess) : State := s.setSlot (.waiting a)

/-- The write is masked: counted, and carried with all byte enables withheld (R179). -/
def State.mask (s : State) (a : PAccess) : State := s.countMasked.setSlot (.waiting { a with be := 0 })

/-- The access is held with wait states (R173). -/
def State.hold (s : State) (a : PAccess) (why : HoldReason) : State := s.setSlot (.held a why)

/-! ## Lot requests (R2, R3, R8, R16) -/

/-- A START taken in EMPTY (R3, R121, R124). -/
def State.takeStart (s : State) (k : Slot) : State :=
  let s := s.modLot k fun l => { l with state := .starting, refusal := .none, badField := 0, ignored := 0, changed := 0 }
  let s := s.setRevisit { s.revisit with postSequence := s.revisit.postSequence.set k 0 }
  (s.setStartLock k true).beginFetch k

/-- A START refused BUSY (R2). -/
def State.startBusy (s : State) (k : Slot) : State := s.modLot k fun l => { l with refusal := .busy, badField := 0 }

/-- A lot request ignored and counted (R2). -/
def State.ignoreLotRequest (s : State) (k : Slot) : State := s.modLot k fun l => { l with ignored := satInc 65535 l.ignored }

def State.startRequest (s : State) (k : Slot) : State :=
  match (s.lot k).state with
  | .empty => s.takeStart k
  | .starting | .queued | .running | .finishing | .aborting | .done | .aborted => s.startBusy k

/-- ABORT: a lot that becomes ABORTING clears its port's MAP request flag, from STARTING too (R15, R16, R29). -/
def State.abortRequest (s : State) (k : Slot) : State :=
  match (s.lot k).state with
  | .starting => (s.setLotState k .aborting).setMapRequest k false
  | .queued | .running | .finishing => (s.abortLot k).settle
  | .empty | .aborting | .done | .aborted => s.ignoreLotRequest k

def State.releaseRequest (s : State) (k : Slot) : State :=
  match (s.lot k).state with
  | .done | .aborted => (s.releaseLot k).settle
  | .empty | .starting | .queued | .running | .finishing | .aborting => s.ignoreLotRequest k

/-- A full-word write to a lot request word (R2). -/
def State.lotRequest (s : State) (k : Slot) (v : Word) : State :=
  if v = codeStart then s.startRequest k
  else if v = codeAbort then s.abortRequest k
  else if v = codeRelease then s.releaseRequest k
  else s.ignoreLotRequest k

/-! ## Requests in the anchor and in wafer entries (R40, R58, R134) -/

/-- HALTED with the robot free, where RESUME and INVENTORY are taken alike (R40). -/
def State.mayRecover (s : State) : Bool := decide (s.handling.state = .halted ∧ s.handling.robot = none)

def State.resumeRequest (s : State) : State := if s.mayRecover then s.sendInventory else s

def State.inventoryRequest (s : State) : State :=
  if s.mayRecover || decide (s.handling.state = .idle) then s.sendInventory else s

def State.handlingRequest (s : State) (v : Word) : State :=
  if v = codeResume then s.resumeRequest else if v = codeInventory then s.inventoryRequest else s

def State.motionRequest (s : State) (v : Word) : State := if v = codeHome then s.requestHome else s

/-- A CLOSE to a posting-closed trigger (R134, R150). -/
def State.postingClose (s : State) (w : WaferName) : State :=
  if (s.lot w.slot).state.takesPosts then
    let s := s.modWafer w fun x => { x with postingClosed := true }
    if s.revisit.review = .waiting ∧ s.revisit.wafer = some w then (s.normalEnd w).settle else s
  else s

/-- A CLOSE to a row-close trigger whose lot record is not locked: whether it is masked, and its effect (R168). -/
def State.rowCloseRequest (s : State) (a : PAccess) (w : WaferName) : State :=
  match (s.report w.slot).state with
  | .none | .released | .closed => s.pass a
  | .opened =>
    if s.rowClosed w then s.pass a
    else match s.waferState w with
      | some st => if st.isFinal then (s.closeRow w).pass a else s.mask a
      | none => s.mask a

/-! ## Judging a write (R179, R180) -/

def clearBits (pending v : Word) : Word := pending &&& ~~~v

/-- A write to an anchor word (R174, R175, R177, R179, R189). -/
def State.judgeAnchor (s : State) (a : PAccess) (w : Nat) : State :=
  if w = 0 then
    if ¬ isFull a.be then s.mask a
    else if a.data = codeAttach ∧ s.anchor.attach = .detached then s.beginAttach.pass a
    else if a.data = codeDetach ∧ s.anchor.attach = .attached then
      if s.lotActive then s.refuseDetach.mask a else s.beginDetach.pass a
    else s.pass a
  else if w ≤ 2 then s.mask a
  else if w ≤ 12 then (if s.path.layoutLock then s.mask a else s.pass a)
  else if w = 13 then
    if ¬ isFull a.be then s.mask a
    else if s.isAttached then (s.handlingRequest a.data).pass a else s.pass a
  else if w = 14 then
    if ¬ isFull a.be then s.mask a
    else if s.isAttached then (s.motionRequest a.data).pass a else s.pass a
  else if w = 15 then
    { s with notice := { s.notice with mask := mergeLanes a.be s.notice.mask a.data } }.pass a
  else if w = 16 then
    if ¬ isFull a.be then s.mask a
    else { s with notice := { s.notice with pending := clearBits s.notice.pending a.data } }.pass a
  else if w ≤ 33 then s.mask a
  else s.pass a

/-- A write to a lot header word (R2, R3, R17, R179). -/
def State.judgeHeader (s : State) (a : PAccess) (k : Slot) (w : Nat) : State :=
  let closed := s.path.closedLock.get k
  if w = 35 then
    if ¬ isFull a.be then s.mask a
    else if s.isAttached then (s.lotRequest k a.data).pass a else s.pass a
  else if w ≤ 34 then (if closed || s.path.startLock.get k then s.mask a else s.pass a)
  else if w ≤ 39 then s.mask a
  else if closed then s.mask a else s.pass a

/-- A write to a wafer entry word (R3, R17, R134, R168, R179). -/
def State.judgeWaferEntry (s : State) (a : PAccess) (k : Slot) (n w : Nat) : State :=
  if s.path.closedLock.get k then s.mask a
  else if w = 0 then (if s.path.startLock.get k then s.mask a else s.pass a)
  else if w = 1 then
    if ¬ isFull a.be then s.mask a
    else if s.isAttached ∧ a.data = codeClose then (s.postingClose ⟨k, n⟩).pass a else s.pass a
  else if w = 2 then
    if ¬ isFull a.be then s.mask a
    else if s.isAttached ∧ a.data = codeClose then s.rowCloseRequest a ⟨k, n⟩ else s.pass a
  else if w ≤ 13 then s.mask a
  else s.pass a

/-- A write to a HOST word that passes and is captured (R186). -/
def State.passCaptured (s : State) (a : PAccess) (k : Slot) (i w : Nat) : State := (s.capture k i w a.data a.be).pass a

/-- A POST taken as its write passes: the control word captured, the post taken, and its consequences (R121, R187). -/
def State.passPost (s : State) (a : PAccess) (k : Slot) (i : Nat) (version : Word) : State :=
  (((s.capture k i 6 a.data a.be).takePost k i version).settle).pass a

/-- The byte address of an entry's version word. -/
def State.entryVersionAddress (s : State) (k : Slot) (i : Nat) : Nat :=
  match s.path.windows with
  | some ws => ws.recordBase (.defectEntry k i) + 4 * versionOffset (.defectEntry k i)
  | none => 0

/-- What a new post's version continues from: the dropped record's version, or what a P-port read returns without the M-port (R121). -/
def State.oldVersion (s : State) (k : Slot) (i : Nat) : Option Word :=
  if (s.storeEntry k i).isSome then some (s.version (.defectEntry k i)) else s.answer (s.entryVersionAddress k i)

/-- The entry's record is live: POSTING, QUEUED or ACTIVE (R118). -/
def State.entryLive (s : State) (k : Slot) (i : Nat) : Bool :=
  match s.entry k i with
  | some e => e.state.isLive
  | none => false

/-- A POST judged by the entry's state; `known` is the version word when it has been read for this POST; a record still in the store
gives its own (R121, R122). -/
def State.judgePost (s : State) (a : PAccess) (k : Slot) (i : Nat) (known : Option Word) : State :=
  if s.entryLive k i then ((s.countIgnored k i).passCaptured a k i 6)
  else if postingSize ≤ s.revisit.posting.length then s.hold a .postRoom
  else match (known.filter fun _ => (s.storeEntry k i).isNone).or (s.oldVersion k i) with
    | some v => s.passPost a k i (v + 1)
    | none => (s.ask (.postVersion k i)).hold a .postVersion

/-- A write to an unlocked control word (R120). -/
def State.judgeControl (s : State) (a : PAccess) (k : Slot) (i : Nat) (known : Option Word) : State :=
  if ¬ isFull a.be then s.mask a
  else if s.isAttached then
    if a.data = codePost then s.judgePost a k i known
    else if a.data = codeWithdraw then (s.withdraw k i).passCaptured a k i 6
    else s.passCaptured a k i 6
  else s.pass a

/-- The store record of an entry whose class writes are counted: REVIEWED with its row OPEN (R165). -/
def Entry.counts (e : Entry) : Bool := decide (e.state = .reviewed) && !e.rowClosed

/-- The late count of a masked class write (R165, R170). -/
def State.lateClass (s : State) (a : PAccess) (k : Slot) (i : Nat) : State :=
  if s.isAttached && a.be.getLsbD 0 then s.countLate k i else s

/-- A write to the class code word (R165 to R167). -/
def State.judgeClass (s : State) (a : PAccess) (k : Slot) (i : Nat) : State :=
  if s.path.closedLock.get k || (s.classLocked k i).isSome then (s.lateClass a k i).mask a
  else if ¬ s.isAttached then s.pass a
  else if a.be.getLsbD 0 = false then s.passCaptured a k i 5
  else match s.storeEntry k i with
    | some e =>
      if e.state = .reviewed ∧ s.classTable.valid = false then s.hold a .classTable
      else if e.counts then (s.countClass e (lane 0 a.data)).passCaptured a k i 5
      else s.passCaptured a k i 5
    | none => s.passCaptured a k i 5

/-- A write to a defect entry word (R116, R124, R179, R186). -/
def State.judgeDefect (s : State) (a : PAccess) (k : Slot) (i w : Nat) (known : Option Word) : State :=
  if w = 5 then s.judgeClass a k i
  else if s.path.closedLock.get k then s.mask a
  else if w = 6 then s.judgeControl a k i known
  else if w ≤ 7 then (if s.isAttached then (s.countChanged k i).passCaptured a k i w else s.pass a)
  else s.mask a

/-- A write to a class table word (R164). -/
def State.judgeClassTable (s : State) (a : PAccess) (w : Nat) : State :=
  if s.isAttached then { s with classTable := s.classTable.capture w a.data a.be }.pass a else s.pass a

/-- A write judged by its address (R173, R179). -/
def State.judgeWrite (s : State) (a : PAccess) (known : Option Word) : State :=
  match s.wordAt a.addr with
  | .plain => s.pass a
  | .anchor w => s.judgeAnchor a w
  | .lotHeader k w => s.judgeHeader a k w
  | .waferEntry k n w => s.judgeWaferEntry a k n w
  | .defect k i w => s.judgeDefect a k i w known
  | .report _ _ => s.mask a
  | .classTable w => s.judgeClassTable a w

/-- A read: answered by the part, or passed to the M-port (R173, R181). -/
def State.judgeRead (s : State) (a : PAccess) : State :=
  match s.answer a.addr with
  | some v => s.setPath { s.path with slot := .idle, readData := some v }
  | none => s.pass a

/-- An access judged by the state of the part at this moment (R173). -/
def State.judge (s : State) (a : PAccess) (known : Option Word) : State :=
  if a.write then s.judgeWrite a known else s.judgeRead a

/-- An access taken: held while a direct write waits, judged otherwise (R173, R184). -/
def State.take (s : State) (a : PAccess) : State := if s.wb.direct.isEmpty then s.judge a none else s.hold a .directWrites

/-- The next offered accesses taken while the path is free (R173; log entry 9). -/
def State.takeOfferedFor : Nat → State → State
  | 0, s => s
  | n + 1, s =>
    match s.path.slot, s.path.offered with
    | .idle, a :: rest => State.takeOfferedFor n ((s.setPath { s.path with offered := rest }).take a)
    | _, _ => s

def State.takeOffered (s : State) : State := s.takeOfferedFor s.path.offered.length

/-- An access presented at the P-port: taken when the previous one has completed (R173). -/
def State.present (s : State) (a : PAccess) : State :=
  match s.path.slot with
  | .idle => s.take a
  | .waiting _ | .held _ _ => s.setPath { s.path with offered := s.path.offered ++ [a] }

/-! ## The rows' addresses -/

/-- The regions the processor writes to: the window map, or the places its layout words name (log entry 17). -/
def State.regions (s : State) : Windows :=
  s.path.windows.getD (windowsOf ((List.range 9).map fun k => s.mem.readWord (s.anchor.base + 4 * (3 + k))))

/-- A write access; addresses are 28 bits (00_scope.md). -/
def writeAccess (addr : Nat) (v : Word) (be : Enables) : PAccess := ⟨true, addr % 2 ^ 28, v, be⟩

def State.anchorWrite (s : State) (w : Nat) (v : Word) (be : Enables) : PAccess := writeAccess (s.anchor.base + 4 * w) v be

def State.recordWrite (s : State) (id : RecId) (w : Nat) (v : Word) (be : Enables) : PAccess :=
  writeAccess (s.regions.recordBase id + 4 * w) v be

def State.classTableWrite (s : State) (w : Nat) (v : Word) (be : Enables) : PAccess :=
  writeAccess (s.regions.classBase + 4 * w) v be

/-! ## Held accesses (R173) -/

/-- Whether a hold has ended. A POST held for its version word is released by the read's return. -/
def State.holdEnded (s : State) : HoldReason → Bool
  | .directWrites => s.wb.direct.isEmpty
  | .postRoom => decide (s.revisit.posting.length < postingSize)
  | .postVersion => false
  | .classTable => s.classTable.valid

/-- A held access whose hold has ended, judged afresh (R173). -/
def State.releaseHeld (s : State) : State :=
  match s.path.slot with
  | .held a why => if s.holdEnded why then (((s.setSlot .idle).take a)).takeOffered else s
  | .idle | .waiting _ => s

/-! ## The M-port's served accesses (R185) -/

/-- The waiting P-port access served: it completes, and the next one is taken (R173, R185). -/
def State.servePPort (s : State) : State :=
  match s.mport.serving, s.path.slot with
  | some .pPort, .waiting a =>
    let s := { s with mport := { s.mport with serving := none } }
    let s := if a.write then { s with mem := s.mem.writeWord a.addr a.data a.be }
      else s.setPath { s.path with readData := some (s.mem.readWord a.addr) }
    (s.setSlot .idle).takeOffered
  | _, _ => s

/-- A queued word's write served; a direct write enters the room it leaves (R184). -/
def State.serveWrite (s : State) : State :=
  match s.served with
  | some (.write addr v _) => State.enterDirect { s.endService with mem := s.mem.writeWord addr v 15 }
  | _ => s

/-- A layout read served (R175). -/
def State.serveLayout (s : State) : State :=
  match s.served with
  | some (.layout k) => s.endService.layoutWord (s.mem.readWord (s.anchor.base + 4 * (3 + k)))
  | _ => s

/-- A start fetch read served; at the last one the fetch completes (R3, R4). -/
def State.serveStartFetch (s : State) : State :=
  match s.served, s.path.windows with
  | some (.startFetch k it), some ws =>
    match (s.lot k).fetch with
    | some got =>
      let got := got ++ [(it, s.mem.readWord (ws.itemAddress k it))]
      let s := s.endService.modLot k fun l => { l with fetch := some got }
      if fetchComplete got then (s.fetchDone k got).settle else s
    | none => s.endService
  | _, _ => s

/-- The read of a held POST's version word served: the POST is judged afresh with it (R121). -/
def State.servePostVersion (s : State) : State :=
  match s.served, s.path.slot with
  | some (.postVersion k i), .held a .postVersion =>
    let v := s.mem.readWord (s.entryVersionAddress k i)
    (((s.endService.setSlot .idle).judge a (some v))).takeOffered
  | _, _ => s

/-- A fill read served (R123). -/
def State.serveFill (s : State) : State :=
  match s.served, s.path.windows with
  | some (.fill k i w), some ws =>
    ((s.endService.fillWord k i w (s.mem.readWord (ws.recordBase (.defectEntry k i) + 4 * w)))).settle
  | _, _ => s

/-- A class table fetch read served; the table is valid at the last (R164). -/
def State.serveClassTable (s : State) : State :=
  match s.served, s.path.windows with
  | some (.classTable w), some ws =>
    let t := s.classTable.fetched w (s.mem.readWord (ws.classBase + 4 * w))
    { s.endService with classTable := { t with valid := t.valid || decide (w + 1 = classTableWords) } }
  | _, _ => s

/-- A record reported written back: a store record of a closed row is freed (R136, R183). -/
def State.recordWrittenBack (s : State) (id : RecId) : State :=
  match id with
  | .defectEntry k i =>
    match s.storeEntry k i with
    | some e => if s.writtenBack id && e.rowClosed then s.leaveStore k i else s
    | none => s
  | .lotHeader _ | .waferEntry _ _ | .reportHeader _ | .reportRow _ _ => s

end Sys2Proof.Machine
end

