-- ==== Sys2Proof/Machine/CellEvents.lean ====
section
/-! DEFINITION. The commands of the cell: hardware reset, the INTERLOCK line and the carrier presence lines (R35, R38, R39, R190). -/

namespace Sys2Proof.Machine

/-- Every command but HARDWARE_RESET is one whole step of the part. -/
def State.answerStep (s : State) (f : State → State) : Host.Outcome State Fault Refusal := .next (s.run f)

/-- HARDWARE_RESET: every block at its reset values, the lines read afresh, memory kept (R20, R45, R46, R85, R137, R190). -/
def execHardwareReset (sel : BitVec 2) (lines : CellLines) (s : State) : Host.Outcome State Fault Refusal :=
  .next (State.resetWith sel lines s.mem s.pending s.free)

def State.setInterlock (s : State) (b : Bool) : State := { s with cell := { s.cell with interlockOpen := b } }

/-- INTERLOCK opens: IDLE and BUSY become HOLD (R28, R35). -/
def State.opensInterlock (s : State) : State :=
  let s := s.setInterlock true
  if s.handling.state.mayOrder then s.setHandling { s.handling with state := .hold } else s

/-- INTERLOCK closes: HOLD becomes IDLE or BUSY, and the arbiter chooses again (R28, R35). -/
def State.closesInterlock (s : State) : State :=
  let s := s.setInterlock false
  (if s.handling.state = .hold then s.setHandling { s.handling with state := s.handling.rest } else s).settle

/-- INTERLOCK_OPEN (R35). -/
def execInterlockOpen (s : State) : Host.Outcome State Fault Refusal :=
  s.answerStep fun s => if s.cell.interlockOpen then s else s.opensInterlock

/-- INTERLOCK_CLOSE (R35). -/
def execInterlockClose (s : State) : Host.Outcome State Fault Refusal :=
  s.answerStep fun s => if s.cell.interlockOpen then s.closesInterlock else s

/-- CARRIER_LOSS (R38, R39). -/
def execCarrierLoss (p : Slot) (s : State) : Host.Outcome State Fault Refusal :=
  s.answerStep fun s => if s.carrierHere p then (s.carrierLost p).settle else s

/-- A carrier presence line rises (R39). -/
def State.carrierArrives (s : State) (p : Slot) : State := { s with cell := { s.cell with carrier := s.cell.carrier.set p true } }

/-- CARRIER_PRESENT (R39). -/
def execCarrierPresent (p : Slot) (s : State) : Host.Outcome State Fault Refusal :=
  s.answerStep fun s => if s.carrierHere p then s else (s.carrierArrives p).settle

end Sys2Proof.Machine
end

