-- ==== Sys2Proof/Machine/AnchorWrites.lean ====
section
/-! DEFINITION. The P-port writes to the anchor that have rows of their own (R40, R58, R175, R177, R189). Each is one write access,
presented at the anchor word with the request's code. -/

namespace Sys2Proof.Machine

/-- ATTACH: a write of 1 to the attach word (R175). -/
def execAttach (be : Enables) (s : State) : Host.Outcome State Fault Refusal :=
  s.answerStep fun s => s.present (s.anchorWrite 0 codeAttach be)

/-- DETACH: a write of 0 to the attach word (R177). -/
def execDetach (be : Enables) (s : State) : Host.Outcome State Fault Refusal :=
  s.answerStep fun s => s.present (s.anchorWrite 0 codeDetach be)

/-- RESUME: a write of RESUME to the handling request word (R40). -/
def execResume (be : Enables) (s : State) : Host.Outcome State Fault Refusal :=
  s.answerStep fun s => s.present (s.anchorWrite 13 codeResume be)

/-- INVENTORY: a write of INVENTORY to the handling request word (R40). -/
def execInventory (be : Enables) (s : State) : Host.Outcome State Fault Refusal :=
  s.answerStep fun s => s.present (s.anchorWrite 13 codeInventory be)

/-- HOME: a write of HOME to the motion request word (R58). -/
def execHome (be : Enables) (s : State) : Host.Outcome State Fault Refusal :=
  s.answerStep fun s => s.present (s.anchorWrite 14 codeHome be)

/-- NOTICE_MASK_WRITE: a write to the notice mask word (R189). -/
def execNoticeMaskWrite (v : Word) (be : Enables) (s : State) : Host.Outcome State Fault Refusal :=
  s.answerStep fun s => s.present (s.anchorWrite 15 v be)

/-- NOTICE_CLEAR: a write to the notice clear word (R189). -/
def execNoticeClear (v : Word) (be : Enables) (s : State) : Host.Outcome State Fault Refusal :=
  s.answerStep fun s => s.present (s.anchorWrite 16 v be)

end Sys2Proof.Machine
end

