-- ==== Sys2Proof/Machine/GrabReplies.lean ====
section
/-! DEFINITION. The grab link's replies and timeout (R74, R145 to R147). -/

namespace Sys2Proof.Machine

/-- A grab's fault or timeout handed to its requester (R74, R147). -/
def State.grabFails (s : State) (k : GrabKind) (why : LastFailure) : State :=
  match k with
  | .mark => s.alignGrabFailed
  | .defect => s.revisitGrabFailed why

/-- MARK_RESULT judged (R145, R74). -/
def State.markReply (s : State) (tag : Tag) (found : Bool) (ox oy : Int) : State :=
  match s.judgeGrab tag fun k => k == .mark with
  | .stale => s.countStale
  | .discarded => s.endGrab
  | .taken => (s.endGrab.alignResult found ox oy).settle

/-- MARK_RESULT (R74). -/
def execMarkResult (tag : Tag) (found : Bool) (ox oy : Int) (s : State) : Host.Outcome State Fault Refusal :=
  s.answerStep fun s => s.markReply tag found ox oy

/-- GRAB_DONE judged (R145, R146). -/
def State.grabDoneReply (s : State) (tag : Tag) (first frames : Word) : State :=
  match s.judgeGrab tag fun k => k == .defect with
  | .stale => s.countStale
  | .discarded => s.endGrab
  | .taken => (s.endGrab.revisitGrabbed first frames).settle

/-- GRAB_DONE (R146). -/
def execGrabDone (tag : Tag) (first frames : Word) (s : State) : Host.Outcome State Fault Refusal :=
  s.answerStep fun s => s.grabDoneReply tag first frames

/-- GRAB_FAULT judged; either kind of grab can receive it (R145). -/
def State.grabFaultReply (s : State) (tag : Tag) : State :=
  match s.judgeGrab tag fun _ => true, s.grab.outstanding with
  | .taken, some o => (s.endGrab.grabFails o.ask.kind .grabFault).settle
  | .discarded, _ => s.endGrab
  | _, _ => s.countStale

/-- GRAB_FAULT; its code is not kept (R145). -/
def execGrabFault (tag : Tag) (_code : Word) (s : State) : Host.Outcome State Fault Refusal :=
  s.answerStep fun s => s.grabFaultReply tag

/-- The outstanding grab's timer expires (R145). -/
def State.grabTimesOut (s : State) : State :=
  match s.grab.outstanding with
  | some o => s.whenDue o.timer fun s =>
    let s := s.endGrab
    if o.discard then s else (s.grabFails o.ask.kind .grabTimeout).settle
  | none => s

/-- GRAB_TIMEOUT (R145). -/
def execGrabTimeout (s : State) : Host.Outcome State Fault Refusal := s.answerStep State.grabTimesOut

end Sys2Proof.Machine
end

