-- ==== Sys2Proof/Machine/HandlerReplies.lean ====
section
/-! DEFINITION. The handler link's replies and timeouts (R22, R26 to R30, R36, R37, R41). -/

namespace Sys2Proof.Machine

/-- The robot order a reply answers (R26). -/
def State.robotWith (s : State) (tag : Tag) : Option RobotKind :=
  match s.handling.robot with
  | some o => if o.tag = tag then some o.kind else none
  | none => none

/-- A DONE that carries nothing more, at an outstanding PICK or PLACE; at an INVENTORY it is no answer (log entry 19). -/
def State.robotReply (s : State) (tag : Tag) : State :=
  match s.robotWith tag with
  | some .inventory => s.countStale
  | some k => (s.endRobot.robotDone k).settle
  | none => s.countStale

/-- PICK_DONE (R22). -/
def execPickDone (tag : Tag) (s : State) : Host.Outcome State Fault Refusal := s.answerStep fun s => s.robotReply tag

/-- PLACE_DONE (R22). -/
def execPlaceDone (tag : Tag) (s : State) : Host.Outcome State Fault Refusal := s.answerStep fun s => s.robotReply tag

/-- A DONE with the four presences, at an outstanding INVENTORY (R41). -/
def State.inventoryReply (s : State) (tag : Tag) (x : Sensed) : State :=
  match s.robotWith tag with
  | some .inventory => (s.endRobot.inventoryDone x).settle
  | _ => s.countStale

/-- INVENTORY_DONE (R41). -/
def execInventoryDone (tag : Tag) (ua la pa st : Bool) (s : State) : Host.Outcome State Fault Refusal :=
  s.answerStep fun s => s.inventoryReply tag ⟨ua, la, pa, st⟩

def State.prealignReply (s : State) (tag : Tag) : State :=
  match s.handling.prealigner with
  | some o => if o.tag = tag then (s.endPrealign.prealignDone).settle else s.countStale
  | none => s.countStale

/-- PREALIGN_DONE (R30). -/
def execPrealignDone (tag : Tag) (s : State) : Host.Outcome State Fault Refusal := s.answerStep fun s => s.prealignReply tag

/-- A DONE of MAP: applied, or discarded when the MAP was cancelled (R29). -/
def State.mapReply (s : State) (p : Slot) (tag : Tag) (results : List MapAnswer) : State :=
  match s.handling.mapper.get p with
  | some o =>
    if o.tag = tag then
      let s := s.setMapper p none
      (if o.cancelled then s else s.mapAnswered p results).settle
    else s.countStale
  | none => s.countStale

/-- MAP_DONE (R29, R12). -/
def execMapDone (p : Slot) (tag : Tag) (results : List MapAnswer) (s : State) : Host.Outcome State Fault Refusal :=
  s.answerStep fun s => s.mapReply p tag results

/-- A FAULT reply, by the unit it comes from (R26, R29, R30, R36, R37). -/
def State.faultReply (s : State) (u : HandlerUnit) (tag : Tag) (code : HandlerFaultCode) : State :=
  match u with
  | .robot =>
    match s.robotWith tag with
    | some k => (s.endRobot.robotFault k code).settle
    | none => s.countStale
  | .prealigner =>
    match s.handling.prealigner with
    | some o => if o.tag = tag then s.endPrealign.halt.settle else s.countStale
    | none => s.countStale
  | .mapper p =>
    match s.handling.mapper.get p with
    | some o =>
      if o.tag = tag then
        let s := s.setMapper p none
        (if o.cancelled then s else s.mapFails p).settle
      else s.countStale
    | none => s.countStale

/-- HANDLER_FAULT (R36). -/
def execHandlerFault (u : HandlerUnit) (tag : Tag) (code : HandlerFaultCode) (s : State) : Host.Outcome State Fault Refusal :=
  s.answerStep fun s => s.faultReply u tag code

/-- An order's timeout, by its unit (R27, R29). -/
def State.handlerTimesOut (s : State) (u : HandlerUnit) : State :=
  match u with
  | .robot =>
    match s.handling.robot with
    | some o => s.whenDue o.timer fun s => (s.endRobot.robotTimesOut o.kind).settle
    | none => s
  | .prealigner =>
    match s.handling.prealigner with
    | some o => s.whenDue o.timer fun s => s.endPrealign.halt.settle
    | none => s
  | .mapper p =>
    match s.handling.mapper.get p with
    | some o => s.whenDue o.timer fun s =>
      let s := s.setMapper p none
      (if o.cancelled then s else s.mapFails p).settle
    | none => s

/-- HANDLER_ORDER_TIMEOUT (R27). -/
def execHandlerOrderTimeout (u : HandlerUnit) (s : State) : Host.Outcome State Fault Refusal :=
  s.answerStep fun s => s.handlerTimesOut u

end Sys2Proof.Machine
end

