-- ==== Sys2Proof/Machine/MotionReplies.lean ====
section
/-! DEFINITION. The motion link's replies, timeouts and settle expiries (R51, R54, R56, R57, R59). -/

namespace Sys2Proof.Machine

/-- ARRIVED, for an outstanding MOVE; at a HOME it is no answer (R51, R54). -/
def State.arrivedReply (s : State) (tag : Tag) : State :=
  match s.motion.orderWith tag with
  | some (g, o) =>
    match o.kind with
    | .move t => (s.arrive g o t).settle
    | .home => s.countStale
  | none => s.countStale

/-- ARRIVED (R54). -/
def execArrived (tag : Tag) (s : State) : Host.Outcome State Fault Refusal := s.answerStep fun s => s.arrivedReply tag

/-- HOMED, for an outstanding HOME; at a MOVE it is no answer (R51, R59). -/
def State.homedReply (s : State) (tag : Tag) : State :=
  match s.motion.orderWith tag with
  | some (g, o) =>
    match o.kind with
    | .home => (s.homedGroup g).settle
    | .move _ => s.countStale
  | none => s.countStale

/-- HOMED (R59). -/
def execHomed (tag : Tag) (s : State) : Host.Outcome State Fault Refusal := s.answerStep fun s => s.homedReply tag

/-- A FAULT reply for a MOVE or HOME; its code is not kept (R57). -/
def State.motionFaultReply (s : State) (tag : Tag) : State :=
  match s.motion.orderWith tag with
  | some (g, _) => (s.motionFault g).settle
  | none => s.countStale

/-- MOTION_LINK_FAULT (R57). -/
def execMotionLinkFault (tag : Tag) (_code : MotionFaultCode) (s : State) : Host.Outcome State Fault Refusal :=
  s.answerStep fun s => s.motionFaultReply tag

/-- The timeout of a MOVE or HOME: STOP, and the motion fault (R56). -/
def State.motionTimesOut (s : State) (g : MotionGroup) : State :=
  match (s.motion.group g).order with
  | some o => s.whenDue o.timer fun s => ((s.sendStop g).motionFault g).settle
  | none => s

/-- MOTION_ORDER_TIMEOUT (R56). -/
def execMotionOrderTimeout (g : MotionGroup) (s : State) : Host.Outcome State Fault Refusal :=
  s.answerStep fun s => s.motionTimesOut g

/-- A settle timer's expiry (R54). -/
def State.settleTimesOut (s : State) (g : MotionGroup) : State :=
  match (s.motion.group g).settling with
  | some t => s.whenDue t.timer fun s => (s.settleExpires g t.requesters).settle
  | none => s

/-- SETTLE_TIMER_EXPIRY (R54). -/
def execSettleTimerExpiry (g : MotionGroup) (s : State) : Host.Outcome State Fault Refusal :=
  s.answerStep fun s => s.settleTimesOut g

end Sys2Proof.Machine
end

