-- ==== Sys2Proof/Machine/PortEvents.lean ====
section
/-! DEFINITION. The commands of the two ports' service: fetch reads returned, writes served, the writer's move, and releases
(R123, R164, R173, R175, R177, R183 to R185). A command whose event has not happened changes nothing (log entry 14). -/

namespace Sys2Proof.Machine

/-- ATTACH_LAYOUT_READ_DONE (R175). -/
def execAttachLayoutReadDone (s : State) : Host.Outcome State Fault Refusal := s.answerStep State.serveLayout

/-- DETACH_COMPLETE (R177). -/
def execDetachComplete (s : State) : Host.Outcome State Fault Refusal :=
  s.answerStep fun s => if s.anchor.attach = .detaching ∧ s.nothingToWrite then s.detached else s

/-- START_FETCH_READ_DONE (R4). -/
def execStartFetchReadDone (s : State) : Host.Outcome State Fault Refusal := s.answerStep State.serveStartFetch

/-- POST_VERSION_READ_DONE (R121). -/
def execPostVersionReadDone (s : State) : Host.Outcome State Fault Refusal := s.answerStep State.servePostVersion

/-- FILL_READ_DONE (R123). -/
def execFillReadDone (s : State) : Host.Outcome State Fault Refusal := s.answerStep State.serveFill

/-- CLASS_TABLE_FETCH_READ_DONE (R164). -/
def execClassTableFetchReadDone (s : State) : Host.Outcome State Fault Refusal := s.answerStep State.serveClassTable

/-- HELD_ACCESS_RELEASE (R173). -/
def execHeldAccessRelease (s : State) : Host.Outcome State Fault Refusal := s.answerStep State.releaseHeld

/-- P_PORT_ACCESS_SERVED (R185). -/
def execPPortAccessServed (s : State) : Host.Outcome State Fault Refusal := s.answerStep State.servePPort

/-- WRITE_QUEUE_WORD_WRITTEN (R184). -/
def execWriteQueueWordWritten (s : State) : Host.Outcome State Fault Refusal := s.answerStep State.serveWrite

/-- WRITER_MOVE (R183, R184). -/
def execWriterMove (s : State) : Host.Outcome State Fault Refusal := s.answerStep State.moveRecord

/-- RECORD_WRITTEN_BACK (R136, R183). -/
def execRecordWrittenBack (id : RecId) (s : State) : Host.Outcome State Fault Refusal := s.answerStep fun s => s.recordWrittenBack id

end Sys2Proof.Machine
end

