-- ==== Sys2Proof/Machine/RegionWrites.lean ====
section
/-! DEFINITION. The P-port writes to the regions, and to any address (R2, R120, R134, R164, R165, R168, R173, R179, R186). -/

namespace Sys2Proof.Machine

/-- START: a write of START to a lot request word (R2, R3). -/
def execStart (k : Slot) (be : Enables) (s : State) : Host.Outcome State Fault Refusal :=
  s.answerStep fun s => s.present (s.recordWrite (.lotHeader k) 35 codeStart be)

/-- ABORT: a write of ABORT to a lot request word (R2, R15, R16). -/
def execAbort (k : Slot) (be : Enables) (s : State) : Host.Outcome State Fault Refusal :=
  s.answerStep fun s => s.present (s.recordWrite (.lotHeader k) 35 codeAbort be)

/-- RELEASE: a write of RELEASE to a lot request word (R2, R18). -/
def execRelease (k : Slot) (be : Enables) (s : State) : Host.Outcome State Fault Refusal :=
  s.answerStep fun s => s.present (s.recordWrite (.lotHeader k) 35 codeRelease be)

/-- POST: a write of POST to a control word (R120, R121). -/
def execPost (k : Slot) (i : Nat) (be : Enables) (s : State) : Host.Outcome State Fault Refusal :=
  s.answerStep fun s => s.present (s.recordWrite (.defectEntry k i) 6 codePost be)

/-- WITHDRAW: a write of WITHDRAW to a control word (R120, R133). -/
def execWithdraw (k : Slot) (i : Nat) (be : Enables) (s : State) : Host.Outcome State Fault Refusal :=
  s.answerStep fun s => s.present (s.recordWrite (.defectEntry k i) 6 codeWithdraw be)

/-- POSTING_CLOSE: a write of CLOSE to a posting-closed trigger (R134). -/
def execPostingClose (k : Slot) (n : Nat) (be : Enables) (s : State) : Host.Outcome State Fault Refusal :=
  s.answerStep fun s => s.present (s.recordWrite (.waferEntry k n) 1 codeClose be)

/-- ROW_CLOSE: a write of CLOSE to a row-close trigger (R168). -/
def execRowClose (k : Slot) (n : Nat) (be : Enables) (s : State) : Host.Outcome State Fault Refusal :=
  s.answerStep fun s => s.present (s.recordWrite (.waferEntry k n) 2 codeClose be)

/-- CLASS_WRITE: a write to a class code word (R165). -/
def execClassWrite (k : Slot) (i : Nat) (v : Word) (be : Enables) (s : State) : Host.Outcome State Fault Refusal :=
  s.answerStep fun s => s.present (s.recordWrite (.defectEntry k i) 5 v be)

/-- CLASS_TABLE_WRITE: a write to a word of the class table (R164). -/
def execClassTableWrite (w : Nat) (v : Word) (be : Enables) (s : State) : Host.Outcome State Fault Refusal :=
  s.answerStep fun s => s.present (s.classTableWrite w v be)

/-- DEFECT_HOST_WRITE: a write to another HOST word of a defect entry (R124, R186). -/
def execDefectHostWrite (k : Slot) (i w : Nat) (v : Word) (be : Enables) (s : State) : Host.Outcome State Fault Refusal :=
  s.answerStep fun s => s.present (s.recordWrite (.defectEntry k i) w v be)

/-- P_PORT_WRITE: a write to any address (R173, R179). -/
def execPPortWrite (addr : BitVec 28) (v : Word) (be : Enables) (s : State) : Host.Outcome State Fault Refusal :=
  s.answerStep fun s => s.present (writeAccess addr.toNat v be)

end Sys2Proof.Machine
end

