-- ==== Sys2Proof/Machine/SensorEvents.lean ====
section
/-! DEFINITION. The sensor link's words and the timers of silence, autofocus and posting wait (R86, R90, R109, R151). -/

namespace Sys2Proof.Machine

/-- SENSOR_WORD (R84, R86). -/
def execSensorWord (sample : BitVec 16) (mark parity : Bool) (s : State) : Host.Outcome State Fault Refusal :=
  s.answerStep fun s => (s.takeWord sample mark parity).settle

/-- The silence timer's expiry: none once a word has restarted the timer (R90). -/
def State.silenceTimesOut (s : State) : State :=
  match s.sensor.silence with
  | some t => s.whenDue t State.fallSilent
  | none => s

/-- SILENCE_TIMER_EXPIRY (R90). -/
def execSilenceTimerExpiry (s : State) : Host.Outcome State Fault Refusal := s.answerStep State.silenceTimesOut

/-- The overall timer's expiry, when it is due (R109). -/
def State.focusTimesOut (s : State) : State :=
  match s.af.timer with
  | some t => s.whenDue t fun s => s.focusExpires.settle
  | none => s

/-- AUTOFOCUS_TIMER_EXPIRY (R109). -/
def execAutofocusTimerExpiry (s : State) : Host.Outcome State Fault Refusal := s.answerStep State.focusTimesOut

/-- The posting wait's expiry: the flag set, and a normal end of review (R150, R151). -/
def State.postingWaitEnds (s : State) : State :=
  match s.revisit.timer, s.revisit.wafer with
  | some t, some w => s.whenDue t fun s => ((s.setRevisit { s.revisit with timeoutFlag := true }).normalEnd w).settle
  | _, _ => s

/-- POSTING_WAIT_EXPIRY (R151). -/
def execPostingWaitExpiry (s : State) : Host.Outcome State Fault Refusal := s.answerStep State.postingWaitEnds

end Sys2Proof.Machine
end

