-- ==== Sys2Proof/Machine/Dispatch.lean ====
section
/-! DEFINITION. Each command and its meaning, in the order of opcode_table.json. -/

namespace Sys2Proof.Machine

def exec (i : Instr) (s : State) : Host.Outcome State Fault Refusal :=
  match i with
  | .hardwareReset sel lines => Sys2Proof.Machine.execHardwareReset sel lines s
  | .attach be => Sys2Proof.Machine.execAttach be s
  | .detach be => Sys2Proof.Machine.execDetach be s
  | .attachLayoutReadDone => Sys2Proof.Machine.execAttachLayoutReadDone s
  | .detachComplete => Sys2Proof.Machine.execDetachComplete s
  | .start slot be => Sys2Proof.Machine.execStart slot be s
  | .abort slot be => Sys2Proof.Machine.execAbort slot be s
  | .release slot be => Sys2Proof.Machine.execRelease slot be s
  | .startFetchReadDone => Sys2Proof.Machine.execStartFetchReadDone s
  | .resume be => Sys2Proof.Machine.execResume be s
  | .inventory be => Sys2Proof.Machine.execInventory be s
  | .home be => Sys2Proof.Machine.execHome be s
  | .noticeClear value be => Sys2Proof.Machine.execNoticeClear value be s
  | .noticeMaskWrite value be => Sys2Proof.Machine.execNoticeMaskWrite value be s
  | .post slot entry be => Sys2Proof.Machine.execPost slot entry be s
  | .withdraw slot entry be => Sys2Proof.Machine.execWithdraw slot entry be s
  | .postingClose slot wafer be => Sys2Proof.Machine.execPostingClose slot wafer be s
  | .rowClose slot wafer be => Sys2Proof.Machine.execRowClose slot wafer be s
  | .classWrite slot entry value be => Sys2Proof.Machine.execClassWrite slot entry value be s
  | .classTableWrite word value be => Sys2Proof.Machine.execClassTableWrite word value be s
  | .defectHostWrite slot entry word value be => Sys2Proof.Machine.execDefectHostWrite slot entry word value be s
  | .pPortWrite addr value be => Sys2Proof.Machine.execPPortWrite addr value be s
  | .heldAccessRelease => Sys2Proof.Machine.execHeldAccessRelease s
  | .postVersionReadDone => Sys2Proof.Machine.execPostVersionReadDone s
  | .fillReadDone => Sys2Proof.Machine.execFillReadDone s
  | .classTableFetchReadDone => Sys2Proof.Machine.execClassTableFetchReadDone s
  | .pPortAccessServed => Sys2Proof.Machine.execPPortAccessServed s
  | .writeQueueWordWritten => Sys2Proof.Machine.execWriteQueueWordWritten s
  | .writerMove => Sys2Proof.Machine.execWriterMove s
  | .recordWrittenBack id => Sys2Proof.Machine.execRecordWrittenBack id s
  | .interlockOpen => Sys2Proof.Machine.execInterlockOpen s
  | .interlockClose => Sys2Proof.Machine.execInterlockClose s
  | .carrierLoss port => Sys2Proof.Machine.execCarrierLoss port s
  | .carrierPresent port => Sys2Proof.Machine.execCarrierPresent port s
  | .pickDone tag => Sys2Proof.Machine.execPickDone tag s
  | .placeDone tag => Sys2Proof.Machine.execPlaceDone tag s
  | .inventoryDone tag ua la pa st => Sys2Proof.Machine.execInventoryDone tag ua la pa st s
  | .prealignDone tag => Sys2Proof.Machine.execPrealignDone tag s
  | .mapDone port tag results => Sys2Proof.Machine.execMapDone port tag results s
  | .handlerFault unit tag code => Sys2Proof.Machine.execHandlerFault unit tag code s
  | .handlerOrderTimeout unit => Sys2Proof.Machine.execHandlerOrderTimeout unit s
  | .arrived tag => Sys2Proof.Machine.execArrived tag s
  | .homed tag => Sys2Proof.Machine.execHomed tag s
  | .motionLinkFault tag code => Sys2Proof.Machine.execMotionLinkFault tag code s
  | .motionOrderTimeout group => Sys2Proof.Machine.execMotionOrderTimeout group s
  | .settleTimerExpiry group => Sys2Proof.Machine.execSettleTimerExpiry group s
  | .markResult tag found ox oy => Sys2Proof.Machine.execMarkResult tag found ox oy s
  | .grabDone tag first frames => Sys2Proof.Machine.execGrabDone tag first frames s
  | .grabFault tag code => Sys2Proof.Machine.execGrabFault tag code s
  | .grabTimeout => Sys2Proof.Machine.execGrabTimeout s
  | .sensorWord sample mark parity => Sys2Proof.Machine.execSensorWord sample mark parity s
  | .silenceTimerExpiry => Sys2Proof.Machine.execSilenceTimerExpiry s
  | .autofocusTimerExpiry => Sys2Proof.Machine.execAutofocusTimerExpiry s
  | .postingWaitExpiry => Sys2Proof.Machine.execPostingWaitExpiry s

end Sys2Proof.Machine
end

