-- ==== Sys2Proof/Machine/Step.lean ====
section
/-! DEFINITION. One step: the command at the front of the queue, or a millisecond of the review clock. -/

namespace Sys2Proof.Machine

/-- A step on an empty queue: the review clock counts one millisecond, and nothing is sent (R19; log entry 1). -/
def State.tick (s : State) : State := { s with clock := s.clock + 1, out := [] }

/-- The command at the front of the queue is taken, and its effect is on the state with the queue's rest. -/
def step (s : State) : Host.Outcome State Fault Refusal :=
  match s.pending with
  | [] => .next s.tick
  | c :: rest => exec c { s with pending := rest }

/-- The command a word spells put at the front of the queue; a word that spells none changes nothing (log entry 20). -/
def State.withFetchWord (s : State) (nbits w : Nat) : State :=
  match Sys2Proof.decodeTableWord nbits w with
  | some c => { s with pending := c :: s.pending }
  | none => s

end Sys2Proof.Machine
end

