-- ==== Sys2Proof/Safety.lean ====
section
/-! DEFINITION. The terms in which claims speak of the machine: what a byte of memory reads as, what rules hold of every state a
run reaches, and when the path takes a write. -/

namespace Sys2Proof

open Sys2Proof.Machine

/-- The records of a slot whose numbers the layout has place for (R175, R178). -/
def RecId.inLayout (ws : Windows) : RecId → Prop
  | .lotHeader _ | .reportHeader _ => True
  | .waferEntry _ n | .reportRow _ n => 1 ≤ n ∧ n ≤ 25
  | .defectEntry k i => i < ws.capacity.get k

/-- The words of a record (11_memory_formats.md). -/
def RecId.size : RecId → Nat
  | .lotHeader _ => 64
  | .waferEntry _ _ => 32
  | .defectEntry _ _ => 16
  | .reportHeader _ => 32
  | .reportRow _ _ => 48

/-- Where word `w` of a record is found: as the path unit names it. -/
def RecId.word (id : RecId) (w : Nat) : WordAt :=
  match id with
  | .lotHeader k => .lotHeader k w
  | .waferEntry k n => .waferEntry k n w
  | .defectEntry k i => .defect k i w
  | .reportHeader k => .report k w
  | .reportRow k n => .report k (32 + 48 * (n - 1) + w)

end Sys2Proof

namespace Sys2Proof.Machine

/-! ## Answers -/

/-- A safe run of n steps: none of them faults or is refused. -/
def SafeFor : Nat → State → Prop
  | 0, _ => True
  | n + 1, s => ∃ t, step s = .next t ∧ SafeFor n t

/-- The byte of the memory behind the M-port at an address. -/
def State.byteAt (s : State) (a : Nat) : Byte := s.mem.readByte a

/-! ## Rules every step keeps -/

/-- The reference flag is set exactly in IDLE, MOVING and SETTLING (R46). -/
def Axis.flagSound (a : Axis) : Prop := a.referenced = a.state.isReferenced

/-- Every axis's flag follows its state, and X and Y hold the same state (R46, R47). -/
structure Motion.Sound (m : Motion) : Prop where
  x : m.x.flagSound
  y : m.y.flagSound
  z : m.z.flagSound
  paired : m.x.state = m.y.state

/-- The sizes the spec gives the part's lists: posting list 16 (R122), store 1,024 (R129), frame ring 8 (R94), capture cache 16 (R186),
write queue 32 (R184). -/
structure State.Bounded (s : State) : Prop where
  posting : s.revisit.posting.length ≤ 16
  store : s.revisit.store.length ≤ 1024
  ring : s.sensor.ring.length ≤ 8
  capture : s.path.capture.length ≤ 16
  queue : s.mport.queued ≤ 32

/-- The anchor lies at one of the four places of R174. -/
def State.AnchorPlaced (s : State) : Prop := ∃ sel, s.anchor.base = anchorBase sel

/-- The defect entries and the review: no entry has two records (R122, R129); the records of the posting list are POSTING; an ACTIVE
record is the one the active revisit names, so at most one is (R140); and no wafer has more admitted entries than its lot's revisit
limit (R131). The other clauses tie the active revisit, the posting-wait timer and an alignment under way to the review state (R138,
R139, R149), and the two records of the stage wafer to one wafer (R67, R138). -/
structure State.EntriesSound (s : State) : Prop where
  once : ((s.revisit.posting ++ s.revisit.store).map Entry.id).Nodup
  posting : ∀ e ∈ s.revisit.posting, e.state = .posting
  active : ∀ e ∈ s.revisit.store, e.state = .active → ∃ a, s.revisit.active = some a ∧ e.is a.slot a.index = true
  limit : ∀ w, 0 < s.admittedOf w → (s.admittedOf w : Int) ≤ (s.recipe w.slot).revisitLimit
  revisiting : s.revisit.active.isSome → s.revisit.review = .revisiting
  timed : s.revisit.timer.isSome → s.revisit.review = .waiting
  aligned : s.align.state = .measuring → s.revisit.review = .aligning
  named : s.align.wafer = s.revisit.wafer

/-- The report state that goes with a lot state; `fetching` while the start fetch is in flight (R7, R16, R17, R161, R171, R172). -/
def LotState.reportFits (l : LotState) (fetching : Bool) (r : ReportState) : Bool :=
  match l with
  | .empty | .starting => r == .none || r == .released
  | .queued | .running | .finishing => r == .opened
  | .aborting => if fetching then r == .none || r == .released else r == .opened
  | .done | .aborted => r == .closed

/-- A lot slot with its report: a start fetch is in flight in STARTING and in no lot that takes posts; a slot without a table has no
report rows, an open report has 25 and a closed one no open row; and the records whose row has not closed are those of open rows (R129,
R136). -/
structure State.LotSound (s : State) (k : Slot) : Prop where
  starting : (s.lot k).state = .starting → (s.lot k).fetch.isSome
  started : (s.lot k).state.takesPosts = true → (s.lot k).fetch = none
  report : (s.lot k).state.reportFits (s.lot k).fetch.isSome (s.report k).state = true
  noTable : (s.report k).state = .none ∨ (s.report k).state = .released → (s.lot k).wafers = [] ∧ (s.report k).rows = []
  rows : (s.report k).state = .opened → (s.report k).rows.length = 25
  closed : (s.report k).state = .closed → ∀ n, s.rowOpen ⟨k, n⟩ = false
  opened : ∀ e ∈ s.revisit.store, e.slot = k → e.rowClosed = false → s.rowOpen e.wafer = true

def PartRequest.isLayout : PartRequest → Bool
  | .layout _ => true
  | _ => false

/-- The path unit: while ATTACHED the closed-report lock is set exactly for a CLOSED report (R17, R180); no lot, report or entry is held
when not ATTACHED (R177); the closed-report locks are clear outside ATTACHED and DETACHING; the layout words read and asked for are ten
together while CHECKING (R175); and no record is twice on the dirty list (R183). -/
structure State.PathSound (s : State) : Prop where
  lock : s.anchor.attach = .attached → ∀ k, s.path.closedLock.get k = decide ((s.report k).state = .closed)
  apart : s.anchor.attach ≠ .attached → s.revisit.posting = [] ∧ s.revisit.store = []
    ∧ ∀ k, (s.lot k).state = .empty ∧ (s.report k).state = .none
  unlocked : s.anchor.attach = .detached ∨ s.anchor.attach = .checking → s.path.closedLock = .both false
  layout : (s.mport.requests.filter PartRequest.isLayout).length
    = if s.anchor.attach = .checking then 10 - s.path.layoutGot.length else 0
  reading : s.anchor.attach = .checking → s.path.layoutGot.length < 10
  dirty : (s.wb.dirty.map (·.id)).Nodup

/-- All the above, with the memory in its canonical form. -/
structure State.Sound (s : State) : Prop where
  motion : s.motion.Sound
  bounded : s.Bounded
  anchor : s.AnchorPlaced
  memory : s.mem.wf = true
  entries : s.EntriesSound
  lots : ∀ k, s.LotSound k
  path : s.PathSound

/-! ## Accesses -/

/-- A write presented now is taken now: the path is idle and no direct write waits (R173). -/
structure State.PathFree (s : State) : Prop where
  idle : s.path.slot = .idle
  direct : s.wb.direct = []

/-- The regions lie where a layout that passes R175's checks puts them, and the anchor at its place. -/
structure State.Laid (s : State) (ws : Windows) : Prop where
  anchor : s.AnchorPlaced
  windows : s.path.windows = some ws
  checked : ∃ top, layoutCheck s.anchor.base ws top = none

/-- The write access `a` with its byte enables withheld, as a masked write is carried (R179). -/
def PAccess.withheld (a : PAccess) : PAccess := { a with be := 0 }

/-- Every word of a record is found where the memory formats put it, so that a write to it is judged by that record's rules (R173;
by R175 it is so of every record while the windows hold an accepted layout). -/
def State.Watches (s : State) (id : RecId) : Prop :=
  ∀ (w : Nat) (v : Word) (be : Enables), w < id.size → s.wordAt (s.recordWrite id w v be).addr = id.word w

/-- A write to the record, presented now, is taken now by an ATTACHED part. -/
structure State.ReadyFor (s : State) (id : RecId) : Prop where
  attached : s.anchor.attach = .attached
  free : s.PathFree
  watches : s.Watches id

/-- The trigger words (R2, R40, R58, R120, R134, R168, R175, R189): partial writes to them are masked. -/
def WordAt.isTrigger : WordAt → Bool
  | .anchor w => w == 0 || w == 13 || w == 14 || w == 16
  | .lotHeader _ w => w == 35
  | .waferEntry _ _ w => w == 1 || w == 2
  | .defect _ _ w => w == 6
  | .plain | .report _ _ | .classTable _ => false

/-- The words to which every write is masked, whatever its value and byte enables: PART and LIVE words, and the HOST and trigger words
under the layout, start and closed-report locks (R3, R17, R174, R175, R179, R180). A class code word has rules of its own (R165, R170). -/
def State.masks (s : State) : WordAt → Bool
  | .anchor w => decide (1 ≤ w ∧ w ≤ 2) || (decide (3 ≤ w ∧ w ≤ 12) && s.path.layoutLock) || decide (17 ≤ w ∧ w ≤ 33)
  | .lotHeader k w => (decide (w ≤ 34) && (s.path.closedLock.get k || s.path.startLock.get k)) || decide (36 ≤ w ∧ w ≤ 39)
      || (decide (40 ≤ w) && s.path.closedLock.get k)
  | .waferEntry k _ w => s.path.closedLock.get k || (w == 0 && s.path.startLock.get k) || decide (3 ≤ w ∧ w ≤ 13)
  | .defect k _ w => decide (8 ≤ w) || (w != 5 && s.path.closedLock.get k)
  | .report _ _ => true
  | .plain | .classTable _ => false

/-- The P-port write that a command is. -/
def State.accessOf (s : State) : Instr → Option PAccess
  | .attach be => some (s.anchorWrite 0 codeAttach be)
  | .detach be => some (s.anchorWrite 0 codeDetach be)
  | .resume be => some (s.anchorWrite 13 codeResume be)
  | .inventory be => some (s.anchorWrite 13 codeInventory be)
  | .home be => some (s.anchorWrite 14 codeHome be)
  | .noticeMaskWrite v be => some (s.anchorWrite 15 v be)
  | .noticeClear v be => some (s.anchorWrite 16 v be)
  | .start k be => some (s.recordWrite (.lotHeader k) 35 codeStart be)
  | .abort k be => some (s.recordWrite (.lotHeader k) 35 codeAbort be)
  | .release k be => some (s.recordWrite (.lotHeader k) 35 codeRelease be)
  | .post k i be => some (s.recordWrite (.defectEntry k i) 6 codePost be)
  | .withdraw k i be => some (s.recordWrite (.defectEntry k i) 6 codeWithdraw be)
  | .postingClose k n be => some (s.recordWrite (.waferEntry k n) 1 codeClose be)
  | .rowClose k n be => some (s.recordWrite (.waferEntry k n) 2 codeClose be)
  | .classWrite k i v be => some (s.recordWrite (.defectEntry k i) 5 v be)
  | .classTableWrite w v be => some (s.classTableWrite w v be)
  | .defectHostWrite k i w v be => some (s.recordWrite (.defectEntry k i) w v be)
  | .pPortWrite addr v be => some (writeAccess addr.toNat v be)
  | _ => none

/-! ## What the consequences of an effect leave alone -/

/-- The part of a lot slot that no consequence changes. -/
structure LotKept where
  refusal : RefusalCode
  badField : Nat
  ignored : Nat
  changed : Nat
  fetch : Option (List (FetchItem × Word))
  recipe : Option Recipe

def Lot.kept (l : Lot) : LotKept := ⟨l.refusal, l.badField, l.ignored, l.changed, l.fetch, l.recipe⟩

/-- A posting record by what its post gave it. -/
structure PostKept where
  slot : Slot
  index : Nat
  host : List (Option Word)
  sequence : Nat

def Entry.postKept (e : Entry) : PostKept := ⟨e.slot, e.index, e.host, e.sequence⟩

/-- The part of a report row that no consequence changes. -/
structure RowKept where
  posts : Nat
  bins : List Nat
  scale : Int
  rotation : Int
  late : Nat

def Row.kept (r : Row) : RowKept := ⟨r.posts, r.bins, r.scale, r.rotation, r.late⟩

/-- The part of a report that no consequence changes. -/
structure ReportKept where
  lotIdLow : Word
  lotIdHigh : Word
  startClock : Word
  unattributed : Nat
  rows : List RowKept

def Report.kept (r : Report) : ReportKept := ⟨r.lotIdLow, r.lotIdHigh, r.startClock, r.unattributed, r.rows.map (·.kept)⟩

/-- The part of the transform record that no consequence changes. -/
structure TransformKept where
  wafer : Option WaferName
  a : Int
  b : Int
  tx : Int
  ty : Int
  m1 : Mark
  m2 : Mark
  m3 : Mark

def Align.kept (a : Align) : TransformKept := ⟨a.wafer, a.a, a.b, a.tx, a.ty, a.m1, a.m2, a.m3⟩

/-- What `settle` leaves as the command's own effect made it: everything the blocks' messages, the lot states' changes and the
handling unit's orders do not touch. -/
structure Kept where
  pending : List Instr
  clock : Word
  cell : CellLines
  classTable : ClassTable
  sensor : Sensor
  focusMap : List Zone
  mem : Memory
  free : Nat
  anchor : Anchor
  mask : Word
  wb : WriteBack
  mport : MPort
  table : LocationTable
  carrierMap : Two (Option (List MapAnswer))
  uncertain : Option UncertainMove
  haltMark : Bool
  homingDue : Bool
  x : Int
  y : Int
  z : Int
  epoch : Word
  lots : Two LotKept
  reports : Two ReportKept
  posts : List PostKept
  postSequence : Two Nat
  reviewed : Option WaferName
  timeoutFlag : Bool
  transform : TransformKept
  layoutGot : List Word
  windows : Option Windows
  layoutLock : Bool
  slot : PathSlot
  offered : List PAccess
  readData : Option Word
  capture : List CaptureLine

def State.kept (s : State) : Kept where
  pending := s.pending
  clock := s.clock
  cell := s.cell
  classTable := s.classTable
  sensor := s.sensor
  focusMap := s.focusMap
  mem := s.mem
  free := s.free
  anchor := s.anchor
  mask := s.notice.mask
  wb := s.wb
  mport := s.mport
  table := s.handling.table
  carrierMap := s.handling.carrierMap
  uncertain := s.handling.uncertain
  haltMark := s.handling.haltMark
  homingDue := s.handling.homingDue
  x := s.motion.x.position
  y := s.motion.y.position
  z := s.motion.z.position
  epoch := s.motion.epoch
  lots := ⟨s.lots.zero.kept, s.lots.one.kept⟩
  reports := ⟨s.reports.zero.kept, s.reports.one.kept⟩
  posts := s.revisit.posting.map (·.postKept)
  postSequence := s.revisit.postSequence
  reviewed := s.revisit.wafer
  timeoutFlag := s.revisit.timeoutFlag
  transform := s.align.kept
  layoutGot := s.path.layoutGot
  windows := s.path.windows
  layoutLock := s.path.layoutLock
  slot := s.path.slot
  offered := s.path.offered
  readData := s.path.readData
  capture := s.path.capture

/-- The lot states a slot may pass through by consequences alone (R9, R14, R16). -/
def LotState.mayBecome : LotState → LotState → Bool
  | .queued, .queued | .queued, .running | .queued, .finishing | .queued, .done => true
  | .running, .running | .running, .finishing | .running, .done => true
  | .finishing, .finishing | .finishing, .done => true
  | .aborting, .aborting | .aborting, .aborted => true
  | .empty, .empty | .starting, .starting | .done, .done | .aborted, .aborted => true
  | _, _ => false

/-- A place the table has: any but a carrier slot beyond its list. -/
def State.hasPlace (s : State) : Loc → Prop
  | .carrier p n => 1 ≤ n ∧ n ≤ (s.handling.table.carriers.get p).length
  | _ => True

/-- What a move makes of a wafer, by its state and the destination (R11, R34); `away` when its lot is ABORTING or it is suspect. That a
READY wafer placed on ST becomes ON_STAGE stands in a statement of its own. -/
def WaferState.moved (st : WaferState) (dst : Loc) (away : Bool) : WaferState :=
  match st, dst with
  | .waiting, .ua => .unaligned
  | .unaligned, .pa => .prealigning
  | .ready, .ua => if away then .returning else .ready
  | .reviewEnded, .la => .returning
  | .returning, .carrier _ _ => .returned
  | .returning, .st => .reviewEnded
  | _, _ => st

/-- What an inventory that senses a suspect wafer makes of it, by the place where it is found (R42); its state was not final. That a
RETURNING one on PA stays RETURNING is the model's choice (log entry 23). -/
def WaferState.found (st : WaferState) (l : Loc) : WaferState :=
  match l with
  | .carrier _ _ => .returned
  | .ua | .la => .returning
  | .pa => if st = .returning then .returning else .ready
  | .st => .reviewEnded

/-- A link reply that no outstanding order of its unit takes: none has its tag, or it has but is of a kind the reply does not answer
(R26, R51, R145; log entry 19). -/
def State.isStale (s : State) : Instr → Prop
  | .pickDone tag | .placeDone tag => ∀ o, s.handling.robot = some o → o.tag ≠ tag ∨ o.kind = .inventory
  | .inventoryDone tag _ _ _ _ => ∀ o, s.handling.robot = some o → o.tag ≠ tag ∨ o.kind ≠ .inventory
  | .prealignDone tag => ∀ o, s.handling.prealigner = some o → o.tag ≠ tag
  | .mapDone p tag _ => ∀ o, s.handling.mapper.get p = some o → o.tag ≠ tag
  | .handlerFault .robot tag _ => ∀ o, s.handling.robot = some o → o.tag ≠ tag
  | .handlerFault .prealigner tag _ => ∀ o, s.handling.prealigner = some o → o.tag ≠ tag
  | .handlerFault (.mapper p) tag _ => ∀ o, s.handling.mapper.get p = some o → o.tag ≠ tag
  | .arrived tag => ∀ g o, (s.motion.group g).order = some o → o.tag ≠ tag ∨ o.kind = .home
  | .homed tag => ∀ g o, (s.motion.group g).order = some o → o.tag ≠ tag ∨ o.kind ≠ .home
  | .motionLinkFault tag _ => ∀ g o, (s.motion.group g).order = some o → o.tag ≠ tag
  | .markResult tag _ _ _ => ∀ o, s.grab.outstanding = some o → o.tag ≠ tag ∨ (o.discard = false ∧ o.ask.kind = .defect)
  | .grabDone tag _ _ => ∀ o, s.grab.outstanding = some o → o.tag ≠ tag ∨ (o.discard = false ∧ o.ask.kind = .mark)
  | .grabFault tag _ => ∀ o, s.grab.outstanding = some o → o.tag ≠ tag
  | _ => False

/-- What an abort makes of a wafer that is not on the stage, by its state and location (R15). -/
def WaferState.aborted (st : WaferState) (loc : Option Loc) : WaferState :=
  match st with
  | .waiting => .returned
  | .unaligned => .returning
  | .ready => if loc = some .ua then .returning else .ready
  | _ => st

/-- A state without what the end of every step brings up to date: the write-back record, the arbiter's choice and the scratch. -/
def State.content (s : State) : State :=
  { s with wb := WriteBack.reset, mport := { s.mport with serving := none, drain := false }, scratch := .empty }

/-- The command ends the service of the access that the M-port serves in `s` (R185). -/
def State.frees (s : State) : Instr → Prop
  | .pPortAccessServed => s.mport.serving = some .pPort ∧ s.path.slot.isWaiting = true
  | .writeQueueWordWritten => ∃ addr v id, s.served = some (.write addr v id)
  | .attachLayoutReadDone => ∃ k, s.served = some (.layout k)
  | .startFetchReadDone => s.path.windows.isSome = true ∧ ∃ k it, s.served = some (.startFetch k it)
  | .postVersionReadDone => ∃ k i a, s.served = some (.postVersion k i) ∧ s.path.slot = .held a .postVersion
  | .fillReadDone => s.path.windows.isSome = true ∧ ∃ k i w, s.served = some (.fill k i w)
  | .classTableFetchReadDone => s.path.windows.isSome = true ∧ ∃ w, s.served = some (.classTable w)
  | _ => False

/-- The state a step that began in `s` ends in when its command's own effect has left `u`: with the consequences, and the step's end. -/
def State.after (s u : State) : State := State.finish s u.settle

/-- The end of a cancelled MAP of port `p`, by a fault or its timeout: nothing halts, nothing is counted, and no more than the freed
mapper is changed where no order may be sent; where one may, what the handling unit then sends comes after (R29). -/
structure State.FreesMapper (s t : State) (p : Slot) : Prop where
  free : s.handling.mapRequest.get p = false → t.handling.mapper.get p = none ∧ t.handling.mapRequest.get p = false
  goesOn : s.handling.state.mayOrder = true → t.handling.state.mayOrder = true
  stays : s.handling.state.mayOrder = false → t.handling = { s.handling with mapper := s.handling.mapper.set p none }
  kept : t.content.kept = ({ s with out := [] } : State).content.kept

/-- The order `o` is outstanding for group `g`, and a reply with its tag answers it (R51): where both groups' orders carry the tag, that
of X and Y is the one answered, the model's choice (log entry 41). -/
structure State.Awaits (s : State) (g : MotionGroup) (o : MotionOrder) : Prop where
  order : (s.motion.group g).order = some o
  first : g = .z → ∀ p, s.motion.xyGroup.order = some p → p.tag ≠ o.tag

/-- The words that a refused post puts into the write queue: its PART words and its version (R127, R184). -/
def Entry.postWords (e : Entry) (ws : Windows) (version : Word) : List PartRequest :=
  (e.image ++ [(15, version)]).map fun (p : Nat × Word) => PartRequest.write (ws.recordBase e.id + 4 * p.1) p.2 e.id

/-- An entry with the wafer position that its HOST words give (R62). -/
def State.placed (s : State) (e : Entry) : Entry :=
  let p := dieToWafer (s.recipe e.slot) e.col e.row e.dx e.dy
  { e with wx := p.x, wy := p.y }

/-- A refusal (R127, R128, R182, R184): `u` has the record's words, with version `v`, in the write queue behind `rs`, or waiting for
room; the OPEN row counts a post and REFUSED, or the header an unattributed refusal. -/
structure State.Refused (s u : State) (e : Entry) (rs : List PartRequest) (v : Word) (why : EntryReason) : Prop where
  store : u.revisit.store = s.revisit.store
  queued : ∀ ws, s.path.windows = some ws → s.wb.direct = [] → (rs.filter PartRequest.isWrite).length + 8 ≤ 32 →
    u.wb.direct = [] ∧ u.mport.requests = rs ++ { e with state := .refused, reason := why }.postWords ws v
  waits : 32 < (rs.filter PartRequest.isWrite).length + 8 → u.mport.requests = rs ∧ u.version e.id = v
    ∧ u.wb.direct = s.wb.direct ++ [⟨e.id, Entry.image { e with state := .refused, reason := why }⟩]
  clean : ∀ d ∈ u.wb.dirty, d.id ≠ e.id
  header : why.unattributed = true ∨ s.rowOpen e.wafer = false → (s.report e.slot).state = .opened →
    (u.report e.slot).unattributed = satInc 65535 (s.report e.slot).unattributed
  row : why.unattributed = false → ∀ r, s.row e.wafer = some r → r.state = .opened →
    u.row e.wafer = some { r with posts := r.posts + 1, outcomes := r.outcomes.inc .refused }

/-- An admission (R131): below the revisit limit the entry is QUEUED; at it, the last QUEUED entry in list order gives way to one of
higher priority; otherwise it is NOT_SAMPLED with LIMIT; and a unit waiting for the wafer with an empty list takes the entry at once
(R150). -/
structure State.Admitted (s u : State) (e : Entry) : Prop where
  below : (s.admittedOf e.wafer : Int) < (s.recipe e.slot).revisitLimit →
    s.revisit.review ≠ .waiting ∨ s.revisit.wafer ≠ some e.wafer →
    u.revisit.store = s.revisit.store ++ [{ s.placed e with state := .queued }]
    ∧ ∀ r, s.row e.wafer = some r → r.state = .opened → u.row e.wafer = some { r with posts := r.posts + 1 }
  taken : (s.admittedOf e.wafer : Int) < (s.recipe e.slot).revisitLimit → s.revisit.review = .waiting →
    s.revisit.wafer = some e.wafer → s.queuedOf e.wafer = [] → e.rowClosed = false →
    u.revisit.review = .revisiting ∧ u.revisit.timer = none
    ∧ ∃ x ∈ u.revisit.store, x.id = e.id ∧ x.host = e.host ∧ (x.state = .active ∨ x.state = .travel)
  displaces : (s.recipe e.slot).revisitLimit ≤ (s.admittedOf e.wafer : Int) →
    s.revisit.review ≠ .waiting ∨ s.revisit.wafer ≠ some e.wafer →
    ∀ d, (s.queuedOf e.wafer).getLast? = some d → d.priority < e.priority →
    u.revisit.store = (s.revisit.store.map fun f =>
        if f.is d.slot d.index then { f with state := .notSampled, reason := .displaced } else f)
      ++ [{ s.placed e with state := .queued }]
    ∧ ∀ r, s.row e.wafer = some r → r.state = .opened →
      u.row e.wafer = some { r with posts := r.posts + 1, outcomes := r.outcomes.inc .notSampled }
  limit : (s.recipe e.slot).revisitLimit ≤ (s.admittedOf e.wafer : Int) →
    (∀ d, (s.queuedOf e.wafer).getLast? = some d → e.priority ≤ d.priority) →
    u.revisit.store = s.revisit.store ++ [{ s.placed e with state := .notSampled, reason := .limit }]
    ∧ ∀ r, s.row e.wafer = some r → r.state = .opened →
      u.row e.wafer = some { r with posts := r.posts + 1, outcomes := r.outcomes.inc .notSampled }

/-- What the checks make of an entry whose words are gathered, before the consequences (R126 to R131). -/
structure State.Judged (s u : State) (e : Entry) (rs : List PartRequest) (v : Word) : Prop where
  refused : ∀ why, s.postCheck e = some why → s.Refused u e rs v why
  admitted : s.postCheck e = none → s.Admitted u e ∧ u.mport.requests = rs ∧ u.wb.direct = s.wb.direct
  listed : ∀ x ∈ u.revisit.posting, x.is e.slot e.index = false

/-- What an alignment failure makes of the record and of the wafer, before the consequences (R80, R132, R153). -/
structure State.AlignFails (s u : State) (w : WaferName) (why : AlignReason) : Prop where
  record : u.align.state = .failed ∧ u.align.reason = why
  pending : ∀ x, s.wafer w = some x → ∃ y, u.wafer w = some y ∧ y.pendingResult = some .alignFailed
  stage : s.waferState w = some .onStage → u.waferState w = some .reviewEnded
  notice : s.anchor.attach = .attached → u.notice.pending.getLsbD 3 = true
  review : s.revisit.wafer = some w → s.revisit.review.inProgress = true → u.revisit.review = .ended
  entries : ∀ e ∈ s.queuedOf w, ∃ x ∈ u.revisit.store, x.id = e.id ∧ x.state = .aborted ∧ x.reason = .alignFail

/-- Entries that have ended ABORTED with a reason: each is in the store, with its HOST words, attempts and frame words as they were
(R132, R152). -/
def State.ended (t : State) (es : List Entry) (why : EntryReason) : Prop :=
  ∀ e ∈ es, ∃ x ∈ t.revisit.store, x.id = e.id ∧ x.state = .aborted ∧ x.reason = why ∧ x.host = e.host ∧ x.attempts = e.attempts
    ∧ x.firstFrame = e.firstFrame ∧ x.frames = e.frames

/-- The sixteenth word of a frame, good by parity, on a LOCKED link: the summary of the frame the receiver accepts (R88, R89, R92). -/
structure State.Accepts (s : State) (w : BitVec 16) (f : Summary) : Prop where
  locked : s.sensor.link = .locked
  frame : ∃ ws p e, s.sensor.assembler = .inside ws p e ∧ ws.length = 15 ∧ parityGood (ws ++ [w]) p = true
    ∧ f = summarise (s.sensor.sequence + 1) (ws ++ [w]) e s.lightMinimum

end Sys2Proof.Machine
end

