-- ==== Sys2Proof/Certificates/Slice0/Obligations.lean ====
section
/-! DEFINITION. The statements for the provers. `content` leaves out only what the end of every step brings up to date; `kept` is
what the consequences of an effect leave alone (Safety.lean). A statement that gives `t.content` or `t.kept` as an explicit state is
the command's frame too: nothing else changes. -/

open Sys2Proof Sys2Proof.Machine

/-! ## Steps and the whole machine -/

/-- A step takes the command at the front of the queue, and its effect is exec's on the state with the queue's rest. -/
def Obligations.StepRunsFrontCommand : Prop :=
  ∀ (c : Instr) (rest : List Instr) (s : State), s.pending = c :: rest → step s = exec c { s with pending := rest }

/-- On an empty queue the review clock counts one millisecond, from 2^32 - 1 to 0 (R19), and nothing else changes but that nothing is
sent. That a step on an empty queue is this millisecond is the model's choice (log entry 1). -/
def Obligations.EmptyQueueCountsAMillisecond : Prop :=
  ∀ s : State, s.pending = [] → ∃ t, step s = .next t ∧ t = { s with clock := s.clock + 1, out := [] }
    ∧ t.clock.toNat = (s.clock.toNat + 1) % 2 ^ 32

/-- No run stops: from every state, every run of every length answers next states only. -/
def Obligations.NoRunStops : Prop := ∀ (n : Nat) (s : State), SafeFor n s

/-- Every step keeps what State.Sound says (Safety.lean): the reference flags and the pairing of X and Y (R46, R47); the sizes of the
part's lists, the store's 1,024 among them (R94, R122, R129, R184, R186); the anchor at one of its four places (R174); memory's
canonical form; one record to an entry (R122, R129), at most one ACTIVE entry, the one the active revisit names (R140), and no more
admitted entries of a wafer than the revisit limit (R131); the alignment and the review of one wafer, MEASURING only under ALIGNING
(R67, R138, R139); the report state that each lot state goes with and no unclosed record of a row that is not OPEN (R16, R17, R136,
R171, R172); the closed-report lock set exactly for a CLOSED report while ATTACHED (R17, R180), no lot, report or record held when not
ATTACHED (R177), ten layout reads in all (R175), and each record once on the dirty list (R183). -/
def Obligations.EveryStepKeepsSound : Prop := ∀ s t : State, s.Sound → step s = .next t → t.Sound

/-- The machine right after reset has all that EveryStepKeepsSound keeps. -/
def Obligations.ResetIsSound : Prop := State.reset.Sound

/-- Memory changes only when a P-port access or a queued word is served at the M-port; no command, those two among them, changes the
queue of commands. That queue is the model's own, and that HARDWARE_RESET keeps it is the model's choice (log entry 28). -/
def Obligations.MemoryChangesOnlyWhenServed : Prop :=
  ∀ (c : Instr) (s t : State), exec c s = .next t →
    t.pending = s.pending
    ∧ (c ≠ .pPortAccessServed → c ≠ .writeQueueWordWritten → ∀ a, t.byteAt a = s.byteAt a)

/-- HARDWARE_RESET: the fields listed take the values that their chapters give for reset, whatever they held, the lines are as sampled,
and memory is kept. That the queue of commands is kept too, and that nothing stands as sent, are the model's choices (log entries 28
and 5). -/
def Obligations.HardwareResetGivesEveryBlockItsValues : Prop :=
  ∀ (sel : BitVec 2) (lines : CellLines) (s : State), ∃ t, exec (.hardwareReset sel lines) s = .next t
    ∧ t.pending = s.pending ∧ t.mem = s.mem ∧ t.cell = lines ∧ t.clock = 0 ∧ t.noticeLine = false ∧ t.out = []
    ∧ (∀ k, (t.lot k).state = .empty ∧ (t.lot k).refusal = .none ∧ (t.lot k).badField = 0 ∧ (t.lot k).ignored = 0
        ∧ (t.lot k).changed = 0 ∧ (t.lot k).recipe = none ∧ (t.lot k).fetch = none ∧ (t.lot k).wafers = []
        ∧ t.version (.lotHeader k) = 0)
    ∧ (∀ k, (t.report k).state = .none ∧ (t.report k).rows = [] ∧ (t.report k).classLock = [])
    ∧ t.handling.state = .unknown ∧ (∀ p n, t.at (.carrier p n) = .empty)
    ∧ (∀ l ∈ ([.ua, .la, .pa, .st] : List Loc), t.at l = .unknown)
    ∧ t.handling.robot = none ∧ t.handling.prealigner = none ∧ t.handling.tag = 0
    ∧ (∀ p, t.handling.mapper.get p = none ∧ t.handling.carrierMap.get p = none ∧ t.handling.mapRequest.get p = false)
    ∧ t.handling.uncertain = none ∧ t.handling.haltMark = false ∧ t.handling.table.putBack = false
    ∧ (∀ a ∈ [t.motion.x, t.motion.y, t.motion.z], a = ⟨.unreferenced, false, 0, 0⟩)
    ∧ t.motion.xyGroup = ⟨none, none, none⟩ ∧ t.motion.zGroup = ⟨none, none, none⟩ ∧ t.motion.tag = 0 ∧ t.motion.epoch = 0
    ∧ t.align.wafer = none ∧ t.align.state = .none ∧ t.align.reason = .none
    ∧ t.align.a = 2 ^ 30 ∧ t.align.b = 0 ∧ t.align.tx = 0 ∧ t.align.ty = 0
    ∧ (∀ m ∈ [t.align.m1, t.align.m2, t.align.m3], m = ⟨none, none⟩)
    ∧ t.sensor = ⟨.down, 0, .outside true false, 0, 0, 0, [], none⟩
    ∧ t.af.state = .idle ∧ t.af.request = none ∧ t.af.timer = none ∧ t.af.outcome = none
    ∧ (∀ zone ∈ t.focusMap, zone = ⟨false, 0, 0⟩) ∧ t.focusMap.length = 64
    ∧ t.revisit.posting = [] ∧ t.revisit.store = [] ∧ (∀ k, t.revisit.postSequence.get k = 0) ∧ t.revisit.wafer = none
    ∧ t.revisit.review = .none ∧ t.revisit.active = none ∧ t.revisit.timer = none ∧ t.revisit.timeoutFlag = false
    ∧ t.grab = ⟨0, none, none⟩
    ∧ t.classTable.valid = false ∧ (∀ b ∈ t.classTable.bytes, b = ⟨0, false⟩)
    ∧ t.anchor.base = [0x0000000, 0x0400000, 0x8000000, 0xFFFF000].getD sel.toNat 0 ∧ t.anchor.attach = .detached
    ∧ t.anchor.reason = .none ∧ t.anchor.masked = 0 ∧ t.anchor.captureMiss = 0 ∧ t.anchor.stale = 0 ∧ t.wb.anchorVersion = 0
    ∧ t.notice = ⟨0, [0, 0, 0, 0, 0, 0, 0, 0, 0, 0], 0⟩
    ∧ t.path.windows = none ∧ t.path.slot = .idle ∧ t.path.capture = [] ∧ t.path.layoutLock = false
    ∧ t.path.startLock = .both false ∧ t.path.closedLock = .both false
    ∧ t.wb.dirty = [] ∧ t.wb.direct = [] ∧ t.wb.kept = [] ∧ t.mport.requests = [] ∧ t.mport.serving = none ∧ t.mport.drain = false

/-! ## The M-port -/

/-- P_PORT_ACCESS_SERVED: a waiting write stores its enabled lanes and no other byte; a waiting read brings the word back. The access
completes, and the path is free. And, at the end of every command but a reset, the arbiter: the drain flag is set at 24 queued words,
cleared at 16 or fewer and kept between, and a free M-port serves a waiting P-port access before any part request while the flag is
clear, and part requests before it while the flag is set; a P-port access in service stays so until it is served. -/
def Obligations.ServedAccessReadsOrStoresItsWord : Prop :=
  (∀ (s : State) (a : PAccess), s.mem.wf = true → s.mport.serving = some .pPort → s.path.slot = .waiting a → s.path.offered = [] →
    ∃ t, exec .pPortAccessServed s = .next t
      ∧ t.content = ({ s with
          out := [], mem := t.mem, path := { s.path with slot := .idle, readData := t.path.readData } } : State).content
      ∧ (a.write = true → t.path.readData = s.path.readData
          ∧ (∀ k < 4, t.byteAt (wordAddress a.addr + k)
              = if a.be.getLsbD k then lane k a.data else s.byteAt (wordAddress a.addr + k))
          ∧ ∀ b, (∀ k < 4, b ≠ wordAddress a.addr + k) → t.byteAt b = s.byteAt b)
      ∧ (a.write = false → t.path.readData = some (s.mem.readWord a.addr) ∧ ∀ b, t.byteAt b = s.byteAt b))
  ∧ ∀ (c : Instr) (s : State), (∀ sel lines, c ≠ .hardwareReset sel lines) → ∃ t, exec c s = .next t
      ∧ t.mport.drain = (if 24 ≤ t.mport.queued then true else if t.mport.queued ≤ 16 then false else s.mport.drain)
      ∧ (s.mport.serving = none ∨ s.frees c →
          ((∃ a, t.path.slot = .waiting a) → t.mport.drain = false ∨ t.mport.requests = [] → t.mport.serving = some .pPort)
          ∧ ((∃ a, t.path.slot = .waiting a) → t.mport.drain = true → t.mport.requests ≠ [] → t.mport.serving = some .part)
          ∧ ((∀ a, t.path.slot ≠ .waiting a) → t.mport.requests ≠ [] → t.mport.serving = some .part)
          ∧ ((∀ a, t.path.slot ≠ .waiting a) → t.mport.requests = [] → t.mport.serving = none))
      ∧ (s.mport.serving = some .pPort → ¬ s.frees c → t.mport.serving = some .pPort)

/-- WRITE_QUEUE_WORD_WRITTEN: the oldest part request, a queued word, is stored whole and leaves the queue; a direct write that waits
enters the room left in the same step when its eight words fit, and waits on when they do not. -/
def Obligations.QueuedWordIsStoredAndLeaves : Prop :=
  ∀ (s : State) (addr : Nat) (v : Word) (id : RecId) (rest : List PartRequest), s.mem.wf = true →
    s.mport.serving = some .part → s.mport.requests = .write addr v id :: rest →
    ∃ t, exec .writeQueueWordWritten s = .next t
      ∧ (∀ k < 4, t.byteAt (wordAddress addr + k) = lane k v)
      ∧ (∀ b, (∀ k < 4, b ≠ wordAddress addr + k) → t.byteAt b = s.byteAt b)
      ∧ (s.wb.direct = [] ∨ 32 < (rest.filter PartRequest.isWrite).length + 8 → t.wb.direct = s.wb.direct
        ∧ t.content = ({ s with out := [], mem := t.mem, mport := { s.mport with requests := rest } } : State).content)
      ∧ (∀ ws h, s.path.windows = some ws → s.wb.direct = [h] → (rest.filter PartRequest.isWrite).length + 8 ≤ 32 → t.wb.direct = []
        ∧ t.content = ({ s with
            out := [], mem := t.mem
            mport := { s.mport with
              requests := rest ++ queueWords ws h.id (s.heldWord h.id) [8, 9, 10, 11, 12, 13, 14, 15] } } : State).content)

/-- WRITER_MOVE: while a direct write waits it is served first, its eight words entering the queue when they fit (R184); with none
waiting, the record at the head of the dirty list enters the queue and leaves the list when all its words fit, one of more than 32
words enters in parts of 32, each when it fits whole, and one that does not fit yet holds up those behind it (R183). And what the
writer finds: in each step of a sound state in which a word of a held record changes, that is not then on the direct-write list, the
record's version becomes 1 more (R182) and it stands on the dirty list with its changed words and its version word marked (R183);
where no word of a lot, wafer or report record changes its version stays. -/
def Obligations.WriterMovesTheOldestRecord : Prop :=
  (∀ (s : State) (ws : Windows), s.path.windows = some ws →
    (∀ h rest, s.wb.direct = h :: rest → s.mport.queued + 8 ≤ 32 → ∃ t, exec .writerMove s = .next t
      ∧ t.wb.direct = rest
      ∧ t.content = ({ s.askAll (queueWords ws h.id (s.heldWord h.id) [8, 9, 10, 11, 12, 13, 14, 15]) with
          out := [] } : State).content)
    ∧ (∀ d rest, s.wb.direct = [] → s.wb.dirty = d :: rest → d.words.length + s.mport.queued ≤ 32 →
      ∃ t, exec .writerMove s = .next t
      ∧ t.wb.dirty = rest
      ∧ t.content = ({ s.askAll (queueWords ws d.id (s.heldWord d.id) d.words) with out := [] } : State).content)
    ∧ (∀ d rest, s.wb.direct = [] → s.wb.dirty = d :: rest → 32 < d.words.length → s.mport.queued = 0 →
      ∃ t, exec .writerMove s = .next t
      ∧ t.wb.dirty = { d with words := d.words.drop 32 } :: rest
      ∧ t.content = ({ s.askAll (queueWords ws d.id (s.heldWord d.id) (d.words.take 32)) with out := [] } : State).content)
    ∧ (∀ d rest, s.wb.direct = [] → s.wb.dirty = d :: rest → d.words ≠ [] →
      32 < min 32 d.words.length + s.mport.queued →
      ∃ t, exec .writerMove s = .next t ∧ t.wb.dirty = s.wb.dirty ∧ t.content = ({ s with out := [] } : State).content)
    ∧ (∀ h rest, s.wb.direct = h :: rest → 32 < s.mport.queued + 8 → ∃ t, exec .writerMove s = .next t
      ∧ t.wb.direct = s.wb.direct ∧ t.content = ({ s with out := [] } : State).content))
  ∧ ∀ (c : Instr) (s t : State) (id : RecId) (old new : Image), s.Sound → exec c s = .next t →
      s.ownerImage id = some old → t.ownerImage id = some new → (∀ h ∈ t.wb.direct, h.id ≠ id) →
      (∀ k n, id = .waferEntry k n ∨ id = .reportRow k n → 1 ≤ n ∧ n ≤ 25) →
      (∀ w ∈ new.map Prod.fst, old.get w ≠ new.get w →
        t.version id = s.version id + 1
        ∧ ∃ d ∈ t.wb.dirty, d.id = id ∧ w ∈ d.words ∧ versionOffset id ∈ d.words)
      ∧ ((∀ w ∈ new.map Prod.fst, old.get w = new.get w) → (∀ k i, id ≠ .defectEntry k i) → t.version id = s.version id)

/-- RECORD_WRITTEN_BACK: a store record of a closed row on neither list, with no word of it queued, is freed; no other record is. -/
def Obligations.WrittenBackRecordOfAClosedRowIsFreed : Prop :=
  ∀ (s : State) (k : Slot) (i : Nat) (e : Entry), s.storeEntry k i = some e →
    ∃ t, exec (.recordWrittenBack (.defectEntry k i)) s = .next t
      ∧ t.content = (if e.rowClosed = true ∧ s.writtenBack (.defectEntry k i) = true then { s with
          out := [], revisit := { s.revisit with store := s.revisit.store.filter (fun f => !(f.slot == k && f.index == i)) } }
        else { s with out := [] } : State).content

/-- HELD_ACCESS_RELEASE: an access held for the direct writes, for posting room (R122) or for the class table (R165) is judged, when its
hold has ended and no direct write waits, as the command that it is would be taken then, and a read as R181 answers it; when a direct
write waits it is held for that; and before its hold ends nothing happens. -/
def Obligations.HeldAccessIsJudgedWhenItsHoldEnds : Prop :=
  (∀ (s : State) (a : PAccess), s.path.slot = .held a .directWrites → a.write = true → s.wordAt a.addr = .plain → s.path.offered = [] →
    ∃ t, exec .heldAccessRelease s = .next t
      ∧ t.content = (if s.wb.direct = [] then { s with out := [], path := { s.path with slot := .waiting a } }
        else { s with out := [] } : State).content)
  ∧ ∀ (s : State) (a : PAccess) (why : HoldReason) (ended : Prop), s.path.slot = .held a why → s.path.offered = [] →
    (ended ↔ (why = .directWrites ∧ s.wb.direct = []) ∨ (why = .postRoom ∧ s.revisit.posting.length < 16)
      ∨ (why = .classTable ∧ s.classTable.valid = true)) →
    (∀ c, ended → s.wb.direct = [] → s.accessOf c = some a →
      ∃ t, exec .heldAccessRelease s = .next t ∧ exec c { s with path := { s.path with slot := .idle } } = .next t)
    ∧ (ended → s.wb.direct = [] → a.write = false → ∃ t, exec .heldAccessRelease s = .next t
      ∧ t.content = (match s.answer a.addr with
        | some v => { s with out := [], path := { s.path with slot := .idle, readData := some v } }
        | none => { s with out := [], path := { s.path with slot := .waiting a } } : State).content)
    ∧ (ended → s.wb.direct ≠ [] → ∃ t, exec .heldAccessRelease s = .next t
      ∧ t.content = ({ s with out := [], path := { s.path with slot := .held a .directWrites } } : State).content)
    ∧ (¬ ended → ∃ t, exec .heldAccessRelease s = .next t ∧ t.content = ({ s with out := [] } : State).content)

/-! ## Where words lie and how writes are judged -/

/-- In a layout that R175 accepts, every word of every record, of the class table and of the anchor is found where R175 and the
memory formats put it: no word of one lies under another. A read of a PART word gives the held value, else the newest queued write of
the word, else memory; a read of any other region word gives memory (R181). The held words of lot headers, wafer and defect entries,
report headers and rows, and the anchor's PART and LIVE words, show their fields at the offsets and with the codes of
11_memory_formats.md. -/
def Obligations.EveryWordLiesWhereTheLayoutPutsIt : Prop :=
  (∀ (s : State) (ws : Windows), s.Laid ws →
    (∀ id : RecId, id.inLayout ws → s.Watches id)
    ∧ (∀ (w : Nat) (v : Word) (be : Enables), w < 64 → s.wordAt (s.classTableWrite w v be).addr = .classTable w)
    ∧ (∀ (w : Nat) (v : Word) (be : Enables), w < 64 → s.wordAt (s.anchorWrite w v be).addr = .anchor w)
    ∧ (∀ (id : RecId) (w a : Nat), id.inLayout ws → w < id.size → a = ws.recordBase id + 4 * w →
      ((id.word w).part = none → s.readWord a = s.mem.readWord a)
      ∧ ((id.word w).part ≠ none →
        (∀ v, s.heldWord id w = some v → s.readWord a = v)
        ∧ (s.heldWord id w = none → ∀ before v o later, s.mport.requests = before ++ .write a v o :: later →
            (∀ x y, PartRequest.write a x y ∉ later) → s.readWord a = v)
        ∧ (s.heldWord id w = none → (∀ x y, PartRequest.write a x y ∉ s.mport.requests) → s.readWord a = s.mem.readWord a)))
    ∧ (s.anchor.attach = .attached → ∀ k, ∀ r : Nat → Word, (∀ w, r w = s.readWord (ws.lotBase.get k + 4 * w)) →
      r 36 = BitVec.ofNat 32 (s.lot k).state.code ∧ lane 0 (r 37) = BitVec.ofNat 8 (s.lot k).refusal.code
      ∧ lane 1 (r 37) = BitVec.ofNat 8 (s.lot k).badField ∧ lowHalf (r 38) = BitVec.ofNat 16 (s.lot k).ignored
      ∧ highHalf (r 38) = BitVec.ofNat 16 (s.lot k).changed ∧ r 39 = s.version (.lotHeader k))
    ∧ (s.anchor.attach = .attached → ∀ k i e, i < ws.capacity.get k → s.entry k i = some e → ∀ r : Nat → Word,
      (∀ w, r w = s.readWord (ws.defectBase.get k + 64 * i + 4 * w)) →
      lane 0 (r 8) = BitVec.ofNat 8 e.state.code ∧ lane 1 (r 8) = BitVec.ofNat 8 e.reason.code ∧ lane 2 (r 8) = BitVec.ofNat 8 e.ignored
      ∧ r 9 = BitVec.ofNat 32 e.attempts ∧ r 10 = BitVec.ofInt 32 e.stageX ∧ r 11 = BitVec.ofInt 32 e.stageY
      ∧ r 12 = BitVec.ofInt 32 e.focusZ ∧ r 13 = e.firstFrame ∧ r 14 = e.frames ∧ r 15 = s.version (.defectEntry k i))
    ∧ (s.anchor.attach = .attached → ∀ k n x, n ≤ 25 → s.wafer ⟨k, n⟩ = some x → ∀ r : Nat → Word,
      (∀ w, r w = s.readWord (ws.lotBase.get k + 256 + 128 * (n - 1) + 4 * w)) →
      r 3 = BitVec.ofNat 32 x.state.code ∧ r 4 = BitVec.ofNat 32 x.finalResult.code
      ∧ r 5 = (match s.locationOf ⟨k, n⟩ with
        | none => 0
        | some (.carrier .zero m) => BitVec.ofNat 32 m
        | some (.carrier .one m) => BitVec.ofNat 32 (32 + m)
        | some .ua => 64
        | some .la => 65
        | some .pa => 66
        | some .st => 67)
      ∧ lane 0 (r 6) = BitVec.ofNat 8 x.alignState.code ∧ lane 1 (r 6) = BitVec.ofNat 8 x.alignMark
      ∧ lane 2 (r 6) = BitVec.ofNat 8 x.alignAttempts ∧ lane 3 (r 6) = BitVec.ofNat 8 x.alignReason.code
      ∧ [r 7, r 8, r 9, r 10] = [x.a, x.b, x.tx, x.ty].map (BitVec.ofInt 32) ∧ r 11 = x.startClock ∧ r 12 = x.endClock
      ∧ r 13 = s.version (.waferEntry k n))
    ∧ (s.anchor.attach = .attached → ∀ k, (s.report k).rows ≠ [] → ∀ r : Nat → Word,
      (∀ w, r w = s.readWord (ws.reportBase.get k + 4 * w)) →
      r 0 = (s.report k).lotIdLow ∧ r 1 = (s.report k).lotIdHigh ∧ r 2 = BitVec.ofNat 32 (s.report k).state.code
      ∧ r 3 = (s.report k).startClock ∧ r 4 = (s.report k).endClock ∧ r 5 = BitVec.ofNat 32 ((s.report k).rows.map (·.posts)).sum
      ∧ (∀ j < 8, r (6 + j) = BitVec.ofNat 32 ((s.report k).rows.map fun x => x.outcomes.list.getD j 0).sum)
      ∧ r 14 = BitVec.ofNat 32 ((s.report k).rows.map (·.late)).sum ∧ r 15 = BitVec.ofNat 32 (s.report k).unattributed
      ∧ r 16 = s.version (.reportHeader k) ∧ ∀ w, 17 ≤ w → w < 32 → r w = 0)
    ∧ (s.anchor.attach = .attached → ∀ k n x, n ≤ 25 → s.row ⟨k, n⟩ = some x → x.bins.length = 16 → ∀ r : Nat → Word,
      (∀ w, r w = s.readWord (ws.reportBase.get k + 128 + 192 * (n - 1) + 4 * w)) →
      r 0 = BitVec.ofNat 32 n ∧ r 1 = BitVec.ofNat 32 x.state.code ∧ r 2 = BitVec.ofNat 32 x.finalResult.code
      ∧ r 3 = BitVec.ofNat 32 x.posts ∧ (∀ j < 8, r (4 + j) = BitVec.ofNat 32 (x.outcomes.list.getD j 0))
      ∧ (∀ j < 16, r (12 + j) = BitVec.ofNat 32 (x.bins.getD j 0)) ∧ r 28 = BitVec.ofInt 32 x.scale
      ∧ r 29 = BitVec.ofInt 32 x.rotation ∧ r 30 = BitVec.ofNat 32 x.mapZones ∧ r 31 = BitVec.ofInt 32 x.mapLeast
      ∧ r 32 = BitVec.ofInt 32 x.mapGreatest ∧ r 33 = x.duration ∧ r 34 = (if x.postingTimeout then 1 else 0)
      ∧ r 35 = BitVec.ofNat 32 x.late ∧ r 36 = s.version (.reportRow k n) ∧ ∀ w, 37 ≤ w → w < 48 → r w = 0))
  ∧ (∀ s : State, s.AnchorPlaced → ∀ r : Nat → Word, (∀ w, r w = s.readWord (s.anchor.base + 4 * w)) →
    lane 0 (r 1) = BitVec.ofNat 8 s.anchor.attach.code ∧ lane 1 (r 1) = BitVec.ofNat 8 s.anchor.reason.code
    ∧ r 2 = s.wb.anchorVersion ∧ r 17 = s.notice.pending
    ∧ (∀ j n, j < 5 → (s.notice.counts[2 * j]? = some n → lowHalf (r (18 + j)) = BitVec.ofNat 16 n)
        ∧ (s.notice.counts[2 * j + 1]? = some n → highHalf (r (18 + j)) = BitVec.ofNat 16 n))
    ∧ lowHalf (r 23) = BitVec.ofNat 16 s.anchor.masked ∧ highHalf (r 23) = BitVec.ofNat 16 s.anchor.captureMiss
    ∧ lowHalf (r 24) = BitVec.ofNat 16 s.anchor.stale ∧ r 25 = s.clock
    ∧ r 26 = BitVec.ofInt 32 s.motion.x.position ∧ r 27 = BitVec.ofInt 32 s.motion.y.position
    ∧ r 28 = BitVec.ofInt 32 s.motion.z.position ∧ lane 0 (r 29) = BitVec.ofNat 8 s.motion.x.state.code
    ∧ lane 1 (r 29) = BitVec.ofNat 8 s.motion.y.state.code ∧ lane 2 (r 29) = BitVec.ofNat 8 s.motion.z.state.code
    ∧ (s.sensor.ring = [] → lowHalf (r 30) = 0)
    ∧ (∀ older f, s.sensor.ring = older ++ [f] → lowHalf (r 30) = BitVec.ofInt 16 f.e)
    ∧ r 31 = BitVec.ofNat 32 s.sensor.link.code ∧ lowHalf (r 32) = BitVec.ofNat 16 s.sensor.misframes
    ∧ highHalf (r 32) = BitVec.ofNat 16 s.sensor.parityErrors ∧ r 33 = BitVec.ofNat 32 s.handling.state.code)
  ∧ [AttachState.detached, .checking, .attached, .detaching].map AttachState.code = [0, 1, 2, 3]
  ∧ [AxisState.unreferenced, .homing, .idle, .moving, .settling, .fault].map AxisState.code = [0, 1, 2, 3, 4, 5]
  ∧ [LinkState.down, .hunt, .locked].map LinkState.code = [0, 1, 2]
  ∧ [HandlingState.unknown, .inventory, .idle, .busy, .hold, .halted].map HandlingState.code = [0, 1, 2, 3, 4, 5]
  ∧ [LotState.empty, .starting, .queued, .running, .finishing, .aborting, .done, .aborted].map LotState.code = [0, 1, 2, 3, 4, 5, 6, 7]
  ∧ [RefusalCode.none, .busy, .noCarrier, .notReferenced, .badRecipe, .marksTooClose, .noneSelected].map RefusalCode.code
    = [0, 1, 2, 3, 4, 5, 6]
  ∧ [WaferState.waiting, .skipped, .absent, .mapFault, .unaligned, .prealigning, .ready, .onStage, .reviewEnded, .returning, .returned,
      .orphaned].map WaferState.code = [1, 2, 3, 4, 5, 6, 7, 8, 9, 10, 11, 12]
  ∧ [FinalResult.none, .reviewed, .alignFailed, .aborted, .suspect, .notProcessed].map FinalResult.code = [0, 1, 2, 3, 4, 5]
  ∧ [TransformState.none, .provisional, .measuring, .aligned, .failed].map TransformState.code = [0, 1, 2, 3, 4]
  ∧ [AlignReason.none, .markMove, .markTravel, .markFocus, .markNotFound, .scale, .rotation, .residual, .lotAbort, .motionFault].map
      AlignReason.code = [0, 1, 2, 3, 4, 5, 6, 7, 8, 9]
  ∧ [NoticeKind.lotEnd, .waferReturned, .reviewWait, .alignFail, .handlingHalt, .motionFault, .linkLost, .maskedWrite, .reportClosed,
      .attachResult].map NoticeKind.number = List.range 10
  ∧ [ReportState.opened, .closed, .released].map ReportState.code = [1, 2, 3] ∧ [RowState.opened, .closed].map RowState.code = [1, 2]
  ∧ [AttachReason.none, .badCapacity, .badAlign, .outOfMemory, .overlap, .detachRefused].map AttachReason.code = [0, 1, 2, 3, 4, 5]
  ∧ [EntryReason.none, .lotNotActive, .badSlot, .notSelected, .rowClosed, .waferPassed, .zeroId, .duplicateId, .badCoord, .offWafer,
      .storeFull, .limit, .displaced, .lotAbort, .motionFault, .alignFail, .waferUnavailable, .outOfRange, .noConverge, .noSignal, .link,
      .timeout, .zRefused, .busy, .grabFault, .grabTimeout, .outOfTravel, .notReady, .stageHeld].map EntryReason.code = List.range 29
  ∧ [EntryState.posting, .queued, .active, .reviewed, .focusFail, .grabFail, .travel, .aborted, .notSampled, .refused,
      .withdrawn].map EntryState.code = [1, 2, 3, 4, 5, 6, 7, 8, 9, 10, 11]

/-- A write to a PART word of a region, by P_PORT_WRITE, is masked whatever its byte enables: counted, MASKED_WRITE raised while attached,
and carried with its byte enables withheld; nothing else changes. So is every write, whichever command it is, to a PART or LIVE word of
the anchor, to a HOST word under the layout, start or closed-report lock, and to a trigger word under the closed-report lock
(State.masks, from R179 and R180; class words have ClassWritesAreCountedOnce). -/
def Obligations.WriteToAPartWordIsMasked : Prop :=
  (∀ (s : State) (addr : BitVec 28) (v : Word) (be : Enables), s.PathFree → (s.wordAt addr.toNat).part.isSome →
    ∃ t, exec (.pPortWrite addr v be) s = .next t
      ∧ t.anchor.masked = (if s.anchor.masked < 65535 then s.anchor.masked + 1 else s.anchor.masked)
      ∧ (s.anchor.attach = .attached → t.notice.pending = s.notice.pending ||| 0x80#32)
      ∧ t.content = ({ s.countMasked with
          out := [], path := { s.path with slot := .waiting ⟨true, addr.toNat, v, 0⟩ } } : State).content)
  ∧ ∀ (s : State) (c : Instr) (a : PAccess), s.accessOf c = some a → s.PathFree → s.masks (s.wordAt a.addr) = true →
    ∃ t, exec c s = .next t
      ∧ t.anchor.masked = (if s.anchor.masked < 65535 then s.anchor.masked + 1 else s.anchor.masked)
      ∧ (s.anchor.attach = .attached → t.notice.pending = s.notice.pending ||| 0x80#32)
      ∧ t.content = ({ s.countMasked with out := [], path := { s.path with slot := .waiting a.withheld } } : State).content

/-- A P-port write command whose word lies in no window (every region word while DETACHED): it passes with its byte enables, waits
its turn behind the access in the path, or is held for a direct write; nothing else changes. That an access offered while another is in
the path waits behind it is the model's choice (log entry 9), and so is the place that a region command's write has without windows
(log entry 17). -/
def Obligations.UnwatchedWritePassesOrWaitsItsTurn : Prop :=
  ∀ (s : State) (c : Instr) (a : PAccess), s.accessOf c = some a → s.wordAt a.addr = .plain →
    (s.PathFree → ∃ t, exec c s = .next t
      ∧ t.content = ({ s with out := [], path := { s.path with slot := .waiting a } } : State).content)
    ∧ (s.path.slot ≠ .idle → ∃ t, exec c s = .next t
      ∧ t.content = ({ s with out := [], path := { s.path with offered := s.path.offered ++ [a] } } : State).content)
    ∧ (s.path.slot = .idle → s.wb.direct ≠ [] → ∃ t, exec c s = .next t
      ∧ t.content = ({ s with out := [], path := { s.path with slot := .held a .directWrites } } : State).content)

/-- A partial write to a trigger word is masked and counted and asks for nothing, whichever command it is and in every attach state
in which the word is watched. That a partial write to a region's trigger word is masked while DETACHING too is the model's choice (log
entry 33). -/
def Obligations.PartialTriggerWritesAreMasked : Prop :=
  ∀ (s : State) (c : Instr) (a : PAccess), s.accessOf c = some a → s.PathFree → (s.wordAt a.addr).isTrigger = true → a.be ≠ 15 →
    ∃ t, exec c s = .next t
      ∧ t.content = ({ s.countMasked with out := [], path := { s.path with slot := .waiting a.withheld } } : State).content

/-! ## Attach and detach -/

/-- ATTACH taken in DETACHED: CHECKING, the layout locked, the ten layout reads asked for, and the write passes. That they are asked
for in word order is the model's choice (log entry 12). -/
def Obligations.AttachBeginsTheLayoutCheck : Prop :=
  ∀ s : State, s.PathFree → s.AnchorPlaced → s.anchor.attach = .detached →
    ∃ t, exec (.attach 15) s = .next t
      ∧ t.content = ({ s.askAll ((List.range 10).map .layout) with
          out := []
          anchor := { s.anchor with attach := .checking }
          path := { s.path with layoutLock := true, layoutGot := [], slot := .waiting ⟨true, s.anchor.base, 1, 15⟩ } } : State).content

/-- ATTACH_LAYOUT_READ_DONE: the word read joins the layout. With fewer than ten the check waits; at the tenth, a layout that fails
leaves the part DETACHED with the first failing check's reason and the lock lifted, and one that passes makes it ATTACHED with
its windows, the class table asked for, INVENTORY sent, and ATTACH_RESULT raised either way. -/
def Obligations.LayoutReadsEndInAttachOrItsReason : Prop :=
  ∀ (s : State) (k : Nat) (rest : List PartRequest) (got : List Word), s.mport.serving = some .part →
    s.mport.requests = .layout k :: rest → got = s.path.layoutGot ++ [s.mem.readWord (s.anchor.base + 4 * (3 + k))] →
    (got.length < 10 → ∃ t, exec .attachLayoutReadDone s = .next t
      ∧ t.content = ({ s with
          out := [], mport := { s.mport with requests := rest }, path := { s.path with layoutGot := got } } : State).content)
    ∧ (got.length = 10 → ∀ why, layoutCheck s.anchor.base (windowsOf got) (memoryTopOf got) = some why →
      ∃ t, exec .attachLayoutReadDone s = .next t ∧ t.anchor.attach = .detached ∧ t.anchor.reason = why
      ∧ t.path.layoutLock = false ∧ t.path.windows = s.path.windows ∧ t.mport.requests = rest
      ∧ t.notice.pending = s.notice.pending ||| 0x200#32 ∧ t.handling = s.handling ∧ t.motion = s.motion)
    ∧ (got.length = 10 → layoutCheck s.anchor.base (windowsOf got) (memoryTopOf got) = none →
      ∃ t, exec .attachLayoutReadDone s = .next t ∧ t.anchor.attach = .attached ∧ t.anchor.reason = .none
      ∧ t.path.windows = some (windowsOf got) ∧ t.path.layoutLock = s.path.layoutLock
      ∧ t.mport.requests = rest ++ (List.range 64).map .classTable
      ∧ t.handling.state = .inventory ∧ t.out = [.robot s.handling.tag .inventory]
      ∧ t.handling.robot = some ⟨s.handling.tag, .inventory, ⟨s.clock, 30000⟩⟩ ∧ t.handling.table = s.handling.table
      ∧ (∀ j, t.lot j = ⟨.empty, .none, 0, 0, 0, none, none, []⟩)
      ∧ t.notice.pending = s.notice.pending ||| 0x200#32 ∧ t.motion = s.motion)

/-- DETACH taken with no active lot: every block at its detach values, which each field listed shows. Places that named a wafer are EMPTY
in a carrier and UNKNOWN outside, others are as they were (R45). A group with an order out is cut off by STOP and UNREFERENCED, SETTLING
axes are IDLE, and every other axis is as it was, in FAULT too; the motion tag and the Z epoch are 0 (R61). The read requests are
dropped and the queued words kept; POSTING entries end REFUSED with LOT_NOT_ACTIVE, and their words are queued when there is room
(R137). The write passes. The order of the two STOPs (log entry 31), that the closed-report lock stays until DETACHED (log entry 24),
and the mark phase MOVE of an alignment record that is NONE (log entry 8) are the model's choices. -/
def Obligations.DetachGivesEveryBlockItsDetachValues : Prop :=
  ∀ s : State, s.PathFree → s.AnchorPlaced → s.anchor.attach = .attached → s.lotActive = false →
    ∃ t, exec (.detach 15) s = .next t
      ∧ t.anchor = { s.anchor with attach := .detaching, masked := 0, captureMiss := 0, stale := 0 }
      ∧ t.notice = ⟨0, [0, 0, 0, 0, 0, 0, 0, 0, 0, 0], 0⟩ ∧ t.path.slot = .waiting ⟨true, s.anchor.base, 0, 15⟩
      ∧ t.path.capture = [] ∧ t.path.windows = s.path.windows ∧ t.path.layoutLock = s.path.layoutLock
      ∧ t.path.closedLock = s.path.closedLock
      ∧ (∀ k, t.lot k = ⟨.empty, .none, 0, 0, 0, none, none, []⟩ ∧ (t.report k).state = .none ∧ (t.report k).rows = []
          ∧ t.path.startLock.get k = false)
      ∧ t.handling.state = .unknown ∧ t.handling.robot = none ∧ t.handling.prealigner = none
      ∧ (∀ p, t.handling.mapper.get p = none ∧ t.handling.carrierMap.get p = none ∧ t.handling.mapRequest.get p = false)
      ∧ t.handling.tag = 0 ∧ t.handling.uncertain = none ∧ t.handling.table.putBack = false
      ∧ (∀ p n, t.at (.carrier p n) = if (s.at (.carrier p n)).name.isSome then .empty else s.at (.carrier p n))
      ∧ (∀ l ∈ outsidePlaces, t.at l = if (s.at l).name.isSome then .unknown else s.at l)
      ∧ t.motion.tag = 0 ∧ t.motion.epoch = 0
      ∧ t.motion.xyGroup = ⟨none, none, none⟩ ∧ t.motion.zGroup = ⟨none, none, none⟩
      ∧ t.motion.z = (if s.motion.zGroup.order.isSome then { s.motion.z with state := .unreferenced, referenced := false }
          else if s.motion.z.state = .settling then { s.motion.z with state := .idle, referenced := true } else s.motion.z)
      ∧ (∀ a b, (a, b) ∈ [(t.motion.x, s.motion.x), (t.motion.y, s.motion.y)] →
          a = if s.motion.xyGroup.order.isSome then { b with state := .unreferenced, referenced := false }
            else if s.motion.x.state = .settling then { b with state := .idle, referenced := true } else b)
      ∧ t.out = (if s.motion.xyGroup.order.isSome then [.stop s.motion.tag .xy] else [])
          ++ (if s.motion.zGroup.order.isSome then
              [.stop (if s.motion.xyGroup.order.isSome then s.motion.tag + 1 else s.motion.tag) .z] else [])
      ∧ t.align = Align.reset ∧ t.sensor = Sensor.reset ∧ t.af.state = .idle ∧ t.af.request = none ∧ t.af.timer = none
      ∧ (∀ zone ∈ t.focusMap, zone.valid = false) ∧ t.revisit.posting = [] ∧ t.revisit.store = []
      ∧ (∀ k, t.revisit.postSequence.get k = 0) ∧ t.revisit.wafer = none ∧ t.revisit.review = .none ∧ t.revisit.active = none
      ∧ t.grab = ⟨0, none, none⟩ ∧ t.classTable.valid = false
      ∧ (∃ extra, t.mport.requests = s.mport.requests.filter PartRequest.isWrite ++ extra
          ∧ (∀ q ∈ extra, ∃ addr v e, e ∈ s.revisit.posting ∧ q = .write addr v e.id) ∧ (s.revisit.posting = [] → extra = [])
          ∧ ∀ e ws, s.revisit.posting = [e] → s.storeEntry e.slot e.index = none → s.path.windows = some ws → s.mport.queued + 8 ≤ 32 →
              extra = Entry.postWords { e with state := .refused, reason := .lotNotActive } ws (s.version e.id + 1))
      ∧ t.mem = s.mem ∧ t.clock = s.clock ∧ t.cell = s.cell

/-- DETACH while a lot is active: refused with DETACH_REFUSED, ATTACH_RESULT raised, and the write masked and counted. -/
def Obligations.DetachIsRefusedWhileALotIsActive : Prop :=
  ∀ s : State, s.PathFree → s.AnchorPlaced → s.anchor.attach = .attached → s.lotActive = true →
    ∃ t, exec (.detach 15) s = .next t
      ∧ t.anchor.attach = .attached ∧ t.anchor.reason = .detachRefused
      ∧ t.anchor.masked = (if s.anchor.masked < 65535 then s.anchor.masked + 1 else s.anchor.masked)
      ∧ t.notice.pending = s.notice.pending ||| 0x280#32 ∧ t.path.slot = .waiting ⟨true, s.anchor.base, 0, 0⟩
      ∧ t.lots = s.lots ∧ t.handling = s.handling ∧ t.motion = s.motion ∧ t.revisit = s.revisit ∧ t.reports = s.reports
      ∧ t.mport.requests = s.mport.requests ∧ t.mem = s.mem

/-- DETACH_COMPLETE: with nothing left to write, DETACHED with reason NONE, the windows cleared and every lock lifted; nothing happens
before. That the command outside DETACHING changes nothing is the model's choice (log entry 14), and so is it that the closed-report
lock stays until here (log entry 24). -/
def Obligations.DetachCompletesWhenNothingIsLeftToWrite : Prop :=
  ∀ s : State,
    (s.anchor.attach = .detaching → s.wb.direct = [] → s.wb.dirty = [] → s.mport.queued = 0 →
      ∃ t, exec .detachComplete s = .next t
      ∧ t.content = ({ s with
          out := []
          anchor := { s.anchor with attach := .detached, reason := .none }
          path := { s.path with
            windows := none, layoutLock := false, startLock := .both false, closedLock := .both false } } : State).content)
    ∧ ((s.anchor.attach ≠ .detaching ∨ s.wb.direct ≠ [] ∨ s.wb.dirty ≠ [] ∨ s.mport.queued ≠ 0) →
      ∃ t, exec .detachComplete s = .next t ∧ t.content = ({ s with out := [] } : State).content)

/-! ## Lots -/

/-- START taken in EMPTY: STARTING, the refusal and the counts cleared, the lock on the recipe set, and every word of the start fetch
either answered by the part (version words only) or asked for at the M-port; nothing else changes. In an accepted layout a version word
answered is what R181 answers a read of it with, by substitution or forwarding, and one asked for is one that it does not answer. -/
def Obligations.StartTakenBeginsTheFetch : Prop :=
  ∀ (s : State) (k : Slot), s.ReadyFor (.lotHeader k) → (s.lot k).state = .empty →
    ∃ t known asked, exec (.start k 15) s = .next t
      ∧ (known.map Prod.fst ++ asked).Perm fetchItems ∧ (∀ p ∈ known, p.1.isVersion = true)
      ∧ (∀ ws, s.Laid ws → (∀ p ∈ known, s.answer (ws.itemAddress k p.1) = some p.2)
          ∧ ∀ it ∈ asked, it.isVersion = true → s.answer (ws.itemAddress k it) = none)
      ∧ t.content = ({ s.askAll (asked.map (.startFetch k)) with
          out := []
          lots := s.lots.set k { s.lot k with
            state := .starting, refusal := .none, badField := 0, ignored := 0, changed := 0, fetch := some known }
          revisit := { s.revisit with postSequence := s.revisit.postSequence.set k 0 }
          path := { s.path with
            startLock := s.path.startLock.set k true
            slot := .waiting (s.recordWrite (.lotHeader k) 35 codeStart 15) } } : State).content

/-- A lot request in a state that does not take it: START is refused BUSY; ABORT and RELEASE are ignored and counted; nothing else
changes and the write passes. -/
def Obligations.LotRequestsNotTakenAreRefusedOrCounted : Prop :=
  ∀ (s : State) (k : Slot), s.ReadyFor (.lotHeader k) →
    ((s.lot k).state ≠ .empty → ∃ t, exec (.start k 15) s = .next t
      ∧ t.content = ({ s with
          out := [], lots := s.lots.set k { s.lot k with refusal := .busy, badField := 0 }
          path := { s.path with slot := .waiting (s.recordWrite (.lotHeader k) 35 codeStart 15) } } : State).content)
    ∧ ((s.lot k).state ∈ [.empty, .aborting, .done, .aborted] → ∃ t, exec (.abort k 15) s = .next t
      ∧ t.content = ({ s with
          out := []
          lots := s.lots.set k { s.lot k with
            ignored := if (s.lot k).ignored < 65535 then (s.lot k).ignored + 1 else (s.lot k).ignored }
          path := { s.path with slot := .waiting (s.recordWrite (.lotHeader k) 35 codeAbort 15) } } : State).content)
    ∧ ((s.lot k).state ∉ [.done, .aborted] → ∃ t, exec (.release k 15) s = .next t
      ∧ t.content = ({ s with
          out := []
          lots := s.lots.set k { s.lot k with
            ignored := if (s.lot k).ignored < 65535 then (s.lot k).ignored + 1 else (s.lot k).ignored }
          path := { s.path with slot := .waiting (s.recordWrite (.lotHeader k) 35 codeRelease 15) } } : State).content)

/-- ABORT taken: a STARTING lot becomes ABORTING, its port's MAP request is dropped (R29), and its fetch goes on; an active lot becomes
ABORTED at once when none of its wafers is outside the carrier in a non-final state, and ABORTING otherwise (R15, R16); its MAP request
is dropped, and each wafer not on the stage becomes what R15 makes of it, with its pending result ABORTED if none was set. Its QUEUED
entries, and the ACTIVE entry of its wafer under review, end ABORTED with LOT_ABORT (R132, R152); that review ends, the wafer ON_STAGE
is REVIEW_ENDED at the review clock, and autofocus is IDLE (R110). A WAITING wafer is RETURNED with final result NOT_PROCESSED (R15).
That this holds too when its pending result is SUSPECT, and that a pending result already set, SUSPECT among them, is kept for
UNALIGNED, PREALIGNING and READY wafers too, as R11 has it, where R15 says ABORTED plainly, are the model's choices (log entry 27). -/
def Obligations.AbortTakenStopsTheLot : Prop :=
  ∀ (s : State) (k : Slot), s.ReadyFor (.lotHeader k) →
    ((s.lot k).state = .starting → ∃ t, exec (.abort k 15) s = .next t
      ∧ t.content = ({ s with
          out := [], lots := s.lots.set k { s.lot k with state := .aborting }
          handling := { s.handling with mapRequest := s.handling.mapRequest.set k false }
          path := { s.path with slot := .waiting (s.recordWrite (.lotHeader k) 35 codeAbort 15) } } : State).content)
    ∧ ((s.lot k).state.takesPosts = true → ∃ t, exec (.abort k 15) s = .next t
      ∧ ((s.lot k).fetch = none → (t.lot k).state = if (s.lot k).anyOutside then .aborting else .aborted)
      ∧ ((t.lot k).state = .aborting ∨ (t.lot k).state = .aborted) ∧ t.handling.mapRequest.get k = false
      ∧ (∀ n, 1 ≤ n → n ≤ 25 → ∀ st, s.waferState ⟨k, n⟩ = some st → st ≠ .onStage →
          t.waferState ⟨k, n⟩ = some (st.aborted (s.locationOf ⟨k, n⟩)))
      ∧ (∀ n x, 1 ≤ n → n ≤ 25 → s.wafer ⟨k, n⟩ = some x → x.state = .waiting →
          ∃ y, t.wafer ⟨k, n⟩ = some y ∧ y.state = .returned ∧ y.finalResult = .notProcessed)
      ∧ (s.Sound → (∀ n, 1 ≤ n → n ≤ 25 → ∀ x, s.wafer ⟨k, n⟩ = some x → x.state ∈ [.unaligned, .prealigning, .ready, .onStage] →
            ∃ y, t.wafer ⟨k, n⟩ = some y ∧ y.pendingResult = some (x.pendingResult.getD .aborted))
          ∧ t.ended ((List.range 25).flatMap fun n => s.queuedOf ⟨k, n + 1⟩) .lotAbort)
      ∧ (∀ w, s.revisit.wafer = some w → w.slot = k → s.revisit.review.inProgress = true →
          t.revisit.review = .ended ∧ t.revisit.active = none ∧ t.revisit.timer = none ∧ t.af.state = .idle
          ∧ (s.waferState w = some .onStage → t.waferState w = some .reviewEnded)
          ∧ (s.align.state = .measuring → t.align.state = .failed ∧ t.align.reason = .lotAbort)
          ∧ (∀ x, s.wafer w = some x → ∃ y, t.wafer w = some y ∧ y.pendingResult = some (x.pendingResult.getD .aborted)
              ∧ (x.state = .onStage → y.endClock = s.clock))
          ∧ ∀ a e, s.revisit.active = some a → s.storeEntry a.slot a.index = some e → e.state = .active → t.ended [e] .lotAbort)
      ∧ t.content.kept = ({ s with
          out := []
          path := { s.path with slot := .waiting (s.recordWrite (.lotHeader k) 35 codeAbort 15) } } : State).content.kept)

/-- RELEASE taken in DONE or ABORTED: the slot is EMPTY without recipe or wafers, its refusal and counts kept, its report RELEASED
without rows, its locks lifted and its class lock empty, and no place names one of its wafers: its carrier slots are EMPTY and outside
places UNKNOWN. -/
def Obligations.ReleaseEmptiesTheSlot : Prop :=
  ∀ (s : State) (k : Slot), s.ReadyFor (.lotHeader k) → (s.lot k).state = .done ∨ (s.lot k).state = .aborted →
    ∃ t, exec (.release k 15) s = .next t
      ∧ (t.lot k).state = .empty ∧ (t.lot k).kept = { (s.lot k).kept with fetch := none, recipe := none } ∧ (t.lot k).wafers = []
      ∧ (t.lot k.other).kept = (s.lot k.other).kept ∧ (s.lot k.other).state.mayBecome (t.lot k.other).state = true
      ∧ (t.report k).state = .released ∧ (t.report k).rows = [] ∧ (t.report k).classLock = []
      ∧ t.path.startLock.get k = false ∧ t.path.closedLock.get k = false
      ∧ (∀ n, 1 ≤ n → n ≤ 25 → t.at (.carrier k n) = if (s.at (.carrier k n)).ofSlot k then .empty else s.at (.carrier k n))
      ∧ (∀ l ∈ outsidePlaces, t.at l = if (s.at l).ofSlot k then .unknown else s.at l)
      ∧ t.path.slot = .waiting (s.recordWrite (.lotHeader k) 35 codeRelease 15)
      ∧ t.mem = s.mem ∧ t.clock = s.clock ∧ t.cell = s.cell ∧ t.sensor = s.sensor ∧ t.classTable = s.classTable

/-- START_FETCH_READ_DONE: the word read joins the fetch. While words are missing nothing else changes; at the last one a STARTING
lot that fails a start check is EMPTY with its refusal, one that passes is started with its wafer table and report, and an
ABORTING lot is ABORTED with its selected wafers RETURNED. -/
def Obligations.StartFetchEndsInTheLotOrItsRefusal : Prop :=
  ∀ (s : State) (ws : Windows) (k : Slot) (it : FetchItem) (rest : List PartRequest) (before got : List (FetchItem × Word)),
    s.path.windows = some ws → s.mport.serving = some .part → s.mport.requests = .startFetch k it :: rest →
    (s.lot k).fetch = some before → got = before ++ [(it, s.mem.readWord (ws.itemAddress k it))] →
    (fetchComplete got = false → ∃ t, exec .startFetchReadDone s = .next t
      ∧ t.content = ({ s with
          out := [], mport := { s.mport with requests := rest }, lots := s.lots.set k { s.lot k with fetch := some got } } : State).content)
    ∧ (fetchComplete got = true → (s.lot k).state = .starting → ∀ code field, s.startCheck k got = some (code, field) →
      ∃ t, exec .startFetchReadDone s = .next t
      ∧ (t.lot k).state = .empty ∧ (t.lot k).kept = { (s.lot k).kept with refusal := code, badField := field, fetch := none }
      ∧ t.path.startLock.get k = false ∧ t.mport.requests = rest ∧ t.handling.table = s.handling.table
      ∧ (t.report k).state = (s.report k).state)
    ∧ (fetchComplete got = true → (s.lot k).state = .starting → s.startCheck k got = none →
      ∃ t, exec .startFetchReadDone s = .next t
      ∧ (if (s.lot k.other).state = .running then LotState.queued else .running).mayBecome (t.lot k).state = true
      ∧ (t.lot k).kept = { (s.lot k).kept with fetch := none, recipe := some (recipeOf got) }
      ∧ (∀ n, 1 ≤ n → n ≤ 25 → t.waferState ⟨k, n⟩ = some (if selectedOf got n then .waiting else .skipped))
      ∧ (∀ n, 1 ≤ n → n ≤ 25 → selectedOf got n = true → n ≤ (s.handling.table.carriers.get k).length →
          t.at (.carrier k n) = .wafer ⟨k, n⟩)
      ∧ (t.report k).rows.length = 25 ∧ (t.report k).startClock = s.clock
      ∧ (t.handling.mapRequest.get k = true ∨ (t.handling.mapper.get k).isSome) ∧ t.mport.requests = rest)
    ∧ (fetchComplete got = true → (s.lot k).state = .aborting →
      ∃ t, exec .startFetchReadDone s = .next t
      ∧ (t.lot k).state = .aborted ∧ (t.lot k).kept = { (s.lot k).kept with fetch := none, recipe := some (recipeOf got) }
      ∧ (∀ n, 1 ≤ n → n ≤ 25 → t.waferState ⟨k, n⟩ = some (if selectedOf got n then .returned else .skipped))
      ∧ (t.report k).rows.length = 25 ∧ t.mport.requests = rest)

/-! ## Requests and notices in the anchor -/

/-- RESUME and INVENTORY: with handling HALTED and the robot free, and for INVENTORY also in IDLE, an INVENTORY order is sent and the
state is INVENTORY; otherwise nothing changes but that the write passes. -/
def Obligations.RecoveryRequestsSendInventory : Prop :=
  ∀ (s : State) (c : Instr) (v : Word), s.PathFree → s.AnchorPlaced → s.anchor.attach = .attached →
    (c, v) ∈ [(Instr.resume 15, (1 : Word)), (.inventory 15, 2)] →
    ((s.handling.state = .halted ∧ s.handling.robot = none) ∨ (c = .inventory 15 ∧ s.handling.state = .idle) →
      ∃ t, exec c s = .next t
      ∧ t.content = ({ s with
          out := [.robot s.handling.tag .inventory]
          handling := { s.handling with
            state := .inventory, tag := s.handling.tag + 1, robot := some ⟨s.handling.tag, .inventory, ⟨s.clock, 30000⟩⟩ }
          path := { s.path with slot := .waiting ⟨true, s.anchor.base + 52, v, 15⟩ } } : State).content)
    ∧ (¬ (s.handling.state = .halted ∧ s.handling.robot = none) → (c = .inventory 15 → s.handling.state ≠ .idle) →
      ∃ t, exec c s = .next t
      ∧ t.content = ({ s with
          out := [], path := { s.path with slot := .waiting ⟨true, s.anchor.base + 52, v, 15⟩ } } : State).content)

/-- HOME: with no motion order outstanding, no axis SETTLING and no robot order at ST, both HOME orders are sent, X and Y first, and
every axis is HOMING without its reference; otherwise nothing changes but that the write passes. -/
def Obligations.HomeRequestHomesEveryAxis : Prop :=
  ∀ s : State, s.PathFree → s.AnchorPlaced → s.anchor.attach = .attached →
    (s.motion.xyGroup.order = none → s.motion.zGroup.order = none → s.motion.x.state ≠ .settling → s.motion.y.state ≠ .settling →
      s.motion.z.state ≠ .settling → s.robotAtStage = false → ∃ t, exec (.home 15) s = .next t
      ∧ t.content = ({ s with
          out := [.home s.motion.tag .xy, .home (s.motion.tag + 1) .z]
          motion := { s.motion with
            x := { s.motion.x with state := .homing, referenced := false }
            y := { s.motion.y with state := .homing, referenced := false }
            z := { s.motion.z with state := .homing, referenced := false }
            xyGroup := { s.motion.xyGroup with order := some ⟨s.motion.tag, .home, ⟨s.clock, 60000⟩, []⟩ }
            zGroup := { s.motion.zGroup with order := some ⟨s.motion.tag + 1, .home, ⟨s.clock, 60000⟩, []⟩ }
            tag := s.motion.tag + 2 }
          path := { s.path with slot := .waiting ⟨true, s.anchor.base + 56, 1, 15⟩ } } : State).content)
    ∧ ((s.motion.xyGroup.order.isSome ∨ s.motion.zGroup.order.isSome ∨ s.motion.x.state = .settling ∨ s.motion.y.state = .settling
        ∨ s.motion.z.state = .settling ∨ s.robotAtStage = true) → ∃ t, exec (.home 15) s = .next t
      ∧ t.content = ({ s with
          out := [], path := { s.path with slot := .waiting ⟨true, s.anchor.base + 56, 1, 15⟩ } } : State).content)

/-- NOTICE_MASK_WRITE takes the enabled lanes into the mask copy; NOTICE_CLEAR clears the pending marks the value has set; in every
attach state, and nothing else changes but that the write passes. -/
def Obligations.NoticeWritesTakeTheirLanesAndBits : Prop :=
  ∀ (s : State) (v : Word) (be : Enables), s.PathFree → s.AnchorPlaced →
    (∃ t, exec (.noticeMaskWrite v be) s = .next t
      ∧ (∀ j < 4, lane j t.notice.mask = if be.getLsbD j then lane j v else lane j s.notice.mask)
      ∧ t.content = ({ s with
          out := [], notice := { s.notice with mask := t.notice.mask }
          path := { s.path with slot := .waiting ⟨true, s.anchor.base + 60, v, be⟩ } } : State).content)
    ∧ (∃ t, exec (.noticeClear v 15) s = .next t
      ∧ (∀ j < 32, t.notice.pending.getLsbD j = (s.notice.pending.getLsbD j && !v.getLsbD j))
      ∧ t.content = ({ s with
          out := [], notice := { s.notice with pending := t.notice.pending }
          path := { s.path with slot := .waiting ⟨true, s.anchor.base + 64, v, 15⟩ } } : State).content)

/-! ## The cell -/

/-- INTERLOCK_OPEN: the line is open, and IDLE and BUSY become HOLD; nothing else changes. INTERLOCK_CLOSE: the line is closed, HOLD
becomes IDLE or BUSY, and a stopped unit stays as it is. That an event without a change of level changes nothing is the model's
choice (log entry 14). -/
def Obligations.InterlockHoldsHandling : Prop :=
  ∀ s : State,
    (s.cell.interlockOpen = false → ∃ t, exec .interlockOpen s = .next t
      ∧ t.content = ({ s with
          out := [], cell := { s.cell with interlockOpen := true }
          handling := { s.handling with
            state := if s.handling.state = .idle ∨ s.handling.state = .busy then .hold else s.handling.state } } : State).content)
    ∧ (s.cell.interlockOpen = true → ∃ t, exec .interlockClose s = .next t
      ∧ (s.handling.state = .hold → t.handling.state = .idle ∨ t.handling.state = .busy)
      ∧ (s.handling.state ∈ [.unknown, .inventory, .halted] → t.handling = s.handling)
      ∧ t.content.kept = ({ s with out := [], cell := { s.cell with interlockOpen := false } } : State).content.kept)
    ∧ (s.cell.interlockOpen = true → ∃ t, exec .interlockOpen s = .next t ∧ t.content = ({ s with out := [] } : State).content)
    ∧ (s.cell.interlockOpen = false → ∃ t, exec .interlockClose s = .next t ∧ t.content = ({ s with out := [] } : State).content)

/-- CARRIER_LOSS: the line falls, the carrier map and the MAP request are cleared, an outstanding MAP is cancelled, each wafer outside
the carrier is ORPHANED with final result ABORTED, an active lot is ABORTED in the same step (R38), and a wafer outside halts handling.
The review of a wafer of that lot is cut off: the review ends, a MEASURING record FAILs with LOT_ABORT, and the wafer's pending result
is ABORTED if none was set (R81, R152). CARRIER_PRESENT: the line rises. That an event without a change of level changes nothing is the
model's choice (log entry 14). -/
def Obligations.CarrierLinesAreFollowed : Prop :=
  ∀ (s : State) (p : Slot),
    (s.cell.carrier.get p = true → ∃ t, exec (.carrierLoss p) s = .next t
      ∧ t.cell = { s.cell with carrier := s.cell.carrier.set p false }
      ∧ t.handling.carrierMap = s.handling.carrierMap.set p none ∧ t.handling.mapRequest.get p = false
      ∧ t.handling.mapper.get p = (s.handling.mapper.get p).map (fun o => { o with cancelled := true })
      ∧ ((s.lot p).state.takesPosts = true → (s.lot p).fetch = none → (s.lot p).wafers.length ≤ 25 → (t.lot p).state = .aborted)
      ∧ ((s.lot p).state.takesPosts = true → (t.lot p).state = .aborting ∨ (t.lot p).state = .aborted)
      ∧ (∀ n, 1 ≤ n → n ≤ 25 → ∀ x, s.wafer ⟨p, n⟩ = some x → x.state.isOutside = true →
          ∃ y, t.wafer ⟨p, n⟩ = some y ∧ y.state = .orphaned ∧ y.finalResult = .aborted)
      ∧ (∀ w, s.revisit.wafer = some w → w.slot = p → s.revisit.review.inProgress = true → (s.lot p).state.takesPosts = true →
          t.revisit.review = .ended ∧ t.revisit.active = none
          ∧ (s.align.state = .measuring → t.align.state = .failed ∧ t.align.reason = .lotAbort)
          ∧ (∀ x, s.wafer w = some x → ∃ y, t.wafer w = some y ∧ y.pendingResult = some (x.pendingResult.getD .aborted))
          ∧ ∀ a e, s.revisit.active = some a → s.storeEntry a.slot a.index = some e → e.state = .active → t.ended [e] .lotAbort)
      ∧ ((s.lot p).anyOutside = true → s.handling.state ∈ [.idle, .busy, .hold] → t.handling.state = .halted)
      ∧ t.mem = s.mem ∧ t.clock = s.clock ∧ t.sensor = s.sensor ∧ t.mport.requests = s.mport.requests)
    ∧ (s.cell.carrier.get p = false → ∃ t, exec (.carrierPresent p) s = .next t
      ∧ t.content.kept = ({ s with
          out := [], cell := { s.cell with carrier := s.cell.carrier.set p true } } : State).content.kept)
    ∧ (s.cell.carrier.get p = false → ∃ t, exec (.carrierLoss p) s = .next t ∧ t.content = ({ s with out := [] } : State).content)
    ∧ (s.cell.carrier.get p = true → ∃ t, exec (.carrierPresent p) s = .next t ∧ t.content = ({ s with out := [] } : State).content)

/-! ## The handler link -/

/-- PICK_DONE and PLACE_DONE of the outstanding order: the source is EMPTY, the destination names the wafer, every other place is as
it was, and the wafer's state moves as R11 gives: one RETURNED takes its pending result, or NOT_PROCESSED, as its final result and
raises WAFER_RETURNED, and one placed on ST takes its review clocks. Where a carrier is absent or the source is UNKNOWN, the source is
EMPTY too; a carrier slot takes nothing (and keeps its entry in an absent carrier), an arm, PA or ST becomes UNKNOWN, and no wafer's
state moves (R34, R38). That either of the two commands completes either kind of order (log entry 19), that an UNKNOWN source leaves an
arm, PA or ST UNKNOWN, and a carrier slot EMPTY elsewhere than at R34's put-back, and there too where a new lot has entered a wafer
(log entry 22), and that the move is of the wafer named at the source when the DONE is taken, whichever it was when the order was sent
(log entry 46), are the model's choices. -/
def Obligations.PickAndPlaceMoveTheWafer : Prop :=
  ∀ (s : State) (c : Instr) (o : RobotOrder) (src dst : Loc),
    c = .pickDone o.tag ∨ c = .placeDone o.tag → s.handling.robot = some o → o.kind.source = some src →
    o.kind.destination = some dst → src ≠ dst →
    (∀ w, s.hasPlace dst → s.inAbsentCarrier src = false → s.inAbsentCarrier dst = false → s.at src = .wafer w →
      ∃ t, exec c s = .next t
      ∧ t.at src = .empty ∧ t.at dst = .wafer w ∧ (∀ l, l ≠ src → l ≠ dst → t.at l = s.at l)
      ∧ (∀ st, s.waferState w = some st → st ≠ .onStage → ¬ (st = .ready ∧ dst = .st) →
          t.waferState w = some (st.moved dst (decide ((s.lot w.slot).state = .aborting) || s.isSuspect w)))
      ∧ (s.waferState w = some .ready → dst = .st →
          (t.waferState w = some .onStage ∨ t.waferState w = some .reviewEnded) ∧ t.revisit.wafer = some w
          ∧ t.align.wafer = some w ∧ t.align.a = 2 ^ 30 ∧ t.align.b = 0 ∧ t.align.tx = 0 ∧ t.align.ty = 0)
      ∧ (∀ x p n, s.wafer w = some x → x.state = .returning → dst = .carrier p n →
          (∃ y, t.wafer w = some y ∧ y.state = .returned ∧ y.finalResult = x.pendingResult.getD .notProcessed)
          ∧ (s.anchor.attach = .attached → t.notice.pending.getLsbD 1 = true))
      ∧ (∀ x, s.wafer w = some x → dst = .st → x.state = .ready ∨ x.state = .returning →
          ∃ y, t.wafer w = some y ∧ y.startClock = s.clock ∧ (x.state = .returning → y.endClock = s.clock))
      ∧ (src = .st → t.focusMap = clearedMap ∧ t.align.wafer ≠ some w)
      ∧ t.mem = s.mem ∧ t.clock = s.clock ∧ t.cell = s.cell ∧ t.sensor = s.sensor ∧ t.mport.requests = s.mport.requests)
    ∧ (s.inAbsentCarrier src = true ∨ s.inAbsentCarrier dst = true ∨ s.at src = .unknown → ∃ t, exec c s = .next t
      ∧ t.at src = .empty
      ∧ t.at dst = (if s.inAbsentCarrier dst then s.at dst else if dst.isCarrier then .empty else .unknown)
      ∧ (∀ l, l ≠ src → l ≠ dst → t.at l = s.at l)
      ∧ (∀ v, s.waferState v ≠ some .onStage → t.waferState v = s.waferState v)
      ∧ t.mem = s.mem ∧ t.clock = s.clock ∧ t.cell = s.cell ∧ t.sensor = s.sensor ∧ t.mport.requests = s.mport.requests)

/-- INVENTORY_DONE with no uncertain move, no orphan and no suspect outside: where every place agrees the unit goes on (HOLD with the
interlock open), an UNKNOWN place not sensed is EMPTY, and the first one after attach homes the axes; where one disagrees, or
a halting event came meanwhile, it is HALTED, and a place without a wafer is UNKNOWN if sensed and EMPTY if not. An uncertain move is
settled first and cleared (R41): taken as done, its wafer is named at the destination and moves as at a DONE; not taken, the table is
compared as it was. An ORPHANED wafer no longer sensed leaves its place (R43). A suspect wafer sensed, or found home by the settling,
becomes what R42 gives for the place, but that one RETURNING on PA stays RETURNING, where R42 says READY (log entry 23): that is the
model's choice, and so is it that an uncertain move taken as done moves the wafer that the table names at the source when the DONE is
taken, whichever the move was recorded with (log entry 46). -/
def Obligations.InventoryAgreesOrHalts : Prop :=
  ∀ (s : State) (o : RobotOrder) (x : Sensed), s.handling.robot = some o → o.kind = .inventory → s.handling.state = .inventory →
    (s.handling.uncertain = none → (∀ l ∈ outsidePlaces, s.stateAt l ≠ some .orphaned) →
        (∀ l ∈ outsidePlaces, ∀ w, s.at l = .wafer w → s.isSuspect w = false) →
      ((∀ l ∈ outsidePlaces, (s.at l).name.isSome = (x.get l).getD false) → s.handling.haltMark = false →
        ∃ t, exec (.inventoryDone o.tag x.ua x.la x.pa x.st) s = .next t
        ∧ (s.cell.interlockOpen = true → t.handling.state = .hold)
        ∧ (s.cell.interlockOpen = false → t.handling.state.mayOrder = true)
        ∧ t.handling.homingDue = false
        ∧ (s.handling.homingDue = true → s.homeAllowed = true →
            t.motion.x.state = .homing ∧ t.motion.y.state = .homing ∧ t.motion.z.state = .homing)
        ∧ (∀ l ∈ outsidePlaces, t.at l = if s.at l = .unknown then .empty else s.at l)
        ∧ t.handling.table.carriers = s.handling.table.carriers ∧ t.mem = s.mem ∧ t.clock = s.clock ∧ t.cell = s.cell)
      ∧ ((∃ l ∈ outsidePlaces, (s.at l).name.isSome ≠ (x.get l).getD false) ∨ s.handling.haltMark = true →
        ∃ t, exec (.inventoryDone o.tag x.ua x.la x.pa x.st) s = .next t
        ∧ t.handling.state = .halted ∧ t.handling.robot = none ∧ t.handling.haltMark = false
        ∧ (s.anchor.attach = .attached → t.notice.pending.getLsbD 4 = true)
        ∧ (∀ l ∈ outsidePlaces, t.at l = if (s.at l).name.isSome then s.at l else if (x.get l).getD false then .unknown else .empty)
        ∧ t.handling.table.carriers = s.handling.table.carriers ∧ t.mem = s.mem ∧ t.clock = s.clock ∧ t.cell = s.cell))
    ∧ ∃ t, exec (.inventoryDone o.tag x.ua x.la x.pa x.st) s = .next t ∧ t.handling.uncertain = none
      ∧ ((∀ u, s.handling.uncertain = some u → u.taken x = false) →
          (∀ l ∈ outsidePlaces, t.at l =
            if s.stateAt l = some .orphaned ∧ x.get l = some false then .empty
            else if (s.at l).name.isSome then s.at l else if (x.get l).getD false then .unknown else .empty)
          ∧ t.handling.table.carriers = s.handling.table.carriers)
      ∧ (∀ l w st, s.handling.uncertain = none → s.at l = .wafer w → x.get l = some true → s.waferState w = some st →
          s.isSuspect w = true → st.isFinal = false → (∀ m ∈ outsidePlaces, m ≠ l → s.at m ≠ .wafer w) →
          t.at l = .wafer w ∧ t.waferState w = some (st.found l))
      ∧ (∀ u w st, s.handling.uncertain = some u → s.at u.source = .wafer w → s.inAbsentCarrier u.source = false →
          s.inAbsentCarrier u.destination = false → u.source ≠ u.destination → s.hasPlace u.destination → s.waferState w = some st →
          (u.taken x = true → t.at u.destination = .wafer w
            ∧ t.at u.source = (if x.get u.source = some true then .unknown else .empty)
            ∧ (s.isSuspect w = false → st ≠ .onStage → ¬ (st = .ready ∧ u.destination = .st) →
                t.waferState w = some (st.moved u.destination (decide ((s.lot w.slot).state = .aborting))))
            ∧ (s.isSuspect w = true → st.isFinal = false → (∀ m ∈ outsidePlaces, m ≠ u.source → s.at m ≠ .wafer w) →
                t.waferState w = some (st.found u.destination)))
          ∧ ((u.taken x = true ∧ u.destination.isCarrier = true ∨ u.taken x = false ∧ u.source.isCarrier = true) →
              s.isSuspect w = true → st.isFinal = false →
              (∃ y, t.wafer w = some y ∧ y.state = .returned ∧ y.finalResult = .suspect)
              ∧ (s.anchor.attach = .attached → t.notice.pending.getLsbD 1 = true)))

/-- PREALIGN_DONE of the outstanding order: the PREALIGNING wafer on PA becomes READY; only consequences change anything else. That
the wafer on PA when the DONE is taken becomes READY though the order was sent for another, since removed, is the model's choice (log
entry 46). -/
def Obligations.PrealignDoneMakesTheWaferReady : Prop :=
  ∀ (s : State) (o : PrealignOrder) (w : WaferName), s.handling.prealigner = some o → s.at .pa = .wafer w →
    s.waferState w = some .prealigning →
    ∃ t, exec (.prealignDone o.tag) s = .next t
      ∧ t.waferState w = some .ready
      ∧ (∀ v, v ≠ w → s.waferState v ≠ some .onStage → t.waferState v = s.waferState v)
      ∧ t.content.kept = ({ s with out := [] } : State).content.kept

/-- MAP_DONE of the outstanding order: a cancelled MAP's results are discarded; otherwise they are the port's carrier map, and each wafer
of an active lot takes its map result. A WAITING wafer becomes ABSENT at EMPTY and MAP_FAULT at DOUBLE and CROSS, its final result then
NOT_PROCESSED and its carrier slot EMPTY (R11, R12, R22), and stays WAITING at PRESENT; a wafer in another state keeps it. Wafer records
of a lot not active keep their map results. -/
def Obligations.MapResultsAreApplied : Prop :=
  ∀ (s : State) (p : Slot) (o : MapOrder) (results : List MapAnswer), s.handling.mapper.get p = some o → results.length = 25 →
    (o.cancelled = true → ∃ t, exec (.mapDone p o.tag results) s = .next t
      ∧ t.content.kept = ({ s with out := [] } : State).content.kept)
    ∧ (o.cancelled = false → ∃ t, exec (.mapDone p o.tag results) s = .next t
      ∧ t.handling.carrierMap = s.handling.carrierMap.set p (some results)
      ∧ ((s.lot p).state.takesPosts = true → ∀ n, 1 ≤ n → n ≤ 25 → s.waferState ⟨p, n⟩ = some .waiting →
          t.waferState ⟨p, n⟩ = (getAt results n).map fun
            | .present => .waiting
            | .empty => .absent
            | .double | .cross => .mapFault)
      ∧ ((s.lot p).state.takesPosts = true → ∀ n a x, 1 ≤ n → n ≤ 25 → getAt results n = some a → s.wafer ⟨p, n⟩ = some x →
          ∃ y, t.wafer ⟨p, n⟩ = some y ∧ y.mapResult = .answered a
          ∧ (x.state = .waiting → a ≠ .present → y.finalResult = .notProcessed ∧ t.at (.carrier p n) = .empty)
          ∧ (x.state ≠ .waiting → x.state ≠ .onStage → y.state = x.state))
      ∧ ((s.lot p).state.takesPosts = false → ∀ n x, s.wafer ⟨p, n⟩ = some x →
          ∃ y, t.wafer ⟨p, n⟩ = some y ∧ y.mapResult = x.mapResult ∧ (x.state ≠ .onStage → y.state = x.state))
      ∧ ((s.lot p).state.takesPosts = false → t.content.kept = ({ s with
          out := [], handling := { s.handling with carrierMap := s.handling.carrierMap.set p (some results) } } : State).content.kept)
      ∧ t.mem = s.mem ∧ t.clock = s.clock ∧ t.cell = s.cell ∧ t.sensor = s.sensor)

/-- HANDLER_FAULT of an outstanding order in IDLE, BUSY or HOLD: the order ends and the unit is HALTED; VACUUM_LOST, STOPPED and
DRIVE_FAULT of a move record the uncertain move, and VACUUM_LOST makes the wafer's pending result SUSPECT; a MAP is asked for again,
but the fault of a cancelled one is discarded, uncounted, and only frees the mapper, which a MAP still asked for may take up at once
(R29). At an INVENTORY the unit is HALTED too. That no uncertain move is recorded for any order whose source is UNKNOWN (R34 says it
of a put-back; log entry 22), and that the wafer is the one named at the source when the fault is taken (log entry 46), are the model's
choices. -/
def Obligations.HandlerFaultsHaltHandling : Prop :=
  ∀ (s : State) (code : HandlerFaultCode),
    (∀ o src dst, s.handling.state ∈ [.idle, .busy, .hold] → s.handling.robot = some o → o.kind.source = some src →
      o.kind.destination = some dst → ∃ t, exec (.handlerFault .robot o.tag code) s = .next t
      ∧ t.handling = { s.handling with
          state := .halted, haltMark := false, robot := none
          uncertain := if code ∈ [.vacuumLost, .stopped, .driveFault] ∧ s.at src ≠ .unknown then some ⟨s.at src, src, dst⟩
            else s.handling.uncertain }
      ∧ (code = .vacuumLost → ∀ w x, s.at src = .wafer w → s.wafer w = some x →
          ∃ y, t.wafer w = some y ∧ y.pendingResult = some .suspect ∧ y.state = x.state)
      ∧ t.mem = s.mem ∧ t.clock = s.clock ∧ t.cell = s.cell)
    ∧ (∀ o, s.handling.state = .inventory → s.handling.robot = some o → o.kind = .inventory →
      ∃ t, exec (.handlerFault .robot o.tag code) s = .next t
      ∧ t.handling = { s.handling with state := .halted, haltMark := false, robot := none }
      ∧ t.mem = s.mem ∧ t.clock = s.clock ∧ t.cell = s.cell)
    ∧ (∀ o, s.handling.state ∈ [.idle, .busy, .hold] → s.handling.prealigner = some o →
      ∃ t, exec (.handlerFault .prealigner o.tag code) s = .next t
      ∧ t.handling = { s.handling with state := .halted, haltMark := false, prealigner := none }
      ∧ t.content.kept = ({ s with
          out := [], handling := { s.handling with haltMark := false } } : State).content.kept)
    ∧ (∀ p o, s.handling.state ∈ [.idle, .busy, .hold] → s.handling.mapper.get p = some o → o.cancelled = false →
      ∃ t, exec (.handlerFault (.mapper p) o.tag code) s = .next t
      ∧ t.handling = { s.handling with
          state := .halted, haltMark := false, mapper := s.handling.mapper.set p none
          mapRequest := s.handling.mapRequest.set p true }
      ∧ t.content.kept = ({ s with
          out := [], handling := { s.handling with haltMark := false } } : State).content.kept)
    ∧ (∀ p o, s.handling.mapper.get p = some o → o.cancelled = true →
      ∃ t, exec (.handlerFault (.mapper p) o.tag code) s = .next t ∧ s.FreesMapper t p)

/-- HANDLER_ORDER_TIMEOUT when the order's timer is due: the order ends, and the unit is HALTED from IDLE, BUSY or HOLD, and from
INVENTORY at an INVENTORY's; a move's order leaves its move uncertain, and a MAP is asked for again, but a cancelled MAP's timeout only
frees the mapper, which a MAP still asked for may take up at once (R27, R29). Before the timer is due nothing happens: that the command
then changes nothing (log entry 2), and that the uncertain move's wafer is the one named at the source when the timeout is taken (log
entry 46), are the model's choices. -/
def Obligations.HandlerTimeoutsHaltHandling : Prop :=
  ∀ s : State, (s.handling.state ∈ [.idle, .busy, .hold] →
    (∀ o src dst, s.handling.robot = some o → o.timer.due s.clock = true → o.kind.source = some src → o.kind.destination = some dst →
      s.at src ≠ .unknown → ∃ t, exec (.handlerOrderTimeout .robot) s = .next t
      ∧ t.handling = { s.handling with
          state := .halted, haltMark := false, robot := none, uncertain := some ⟨s.at src, src, dst⟩ }
      ∧ t.mem = s.mem ∧ t.clock = s.clock ∧ t.cell = s.cell)
    ∧ (∀ o, s.handling.prealigner = some o → o.timer.due s.clock = true → ∃ t, exec (.handlerOrderTimeout .prealigner) s = .next t
      ∧ t.handling = { s.handling with state := .halted, haltMark := false, prealigner := none }
      ∧ t.mem = s.mem ∧ t.clock = s.clock ∧ t.cell = s.cell)
    ∧ (∀ p o, s.handling.mapper.get p = some o → o.timer.due s.clock = true → o.cancelled = false →
      ∃ t, exec (.handlerOrderTimeout (.mapper p)) s = .next t
      ∧ t.handling = { s.handling with
          state := .halted, haltMark := false, mapper := s.handling.mapper.set p none
          mapRequest := s.handling.mapRequest.set p true }
      ∧ t.mem = s.mem ∧ t.clock = s.clock ∧ t.cell = s.cell))
    ∧ (∀ o, s.handling.state = .inventory → s.handling.robot = some o → o.kind = .inventory → o.timer.due s.clock = true →
      ∃ t, exec (.handlerOrderTimeout .robot) s = .next t
      ∧ t.handling = { s.handling with state := .halted, haltMark := false, robot := none }
      ∧ t.mem = s.mem ∧ t.clock = s.clock ∧ t.cell = s.cell)
    ∧ (∀ p o, s.handling.mapper.get p = some o → o.timer.due s.clock = true → o.cancelled = true →
      ∃ t, exec (.handlerOrderTimeout (.mapper p)) s = .next t ∧ s.FreesMapper t p)
    ∧ (∀ u, (u = .robot → ∀ o, s.handling.robot = some o → o.timer.due s.clock = false) →
      (u = .prealigner → ∀ o, s.handling.prealigner = some o → o.timer.due s.clock = false) →
      (∀ p o, u = .mapper p → s.handling.mapper.get p = some o → o.timer.due s.clock = false) →
      ∃ t, exec (.handlerOrderTimeout u) s = .next t ∧ t.content = ({ s with out := [] } : State).content)

/-- A reply on the handler, motion or grab link that answers no outstanding order is counted, and nothing else changes: its tag is no
outstanding order's, or the order's kind cannot receive it, ARRIVED at a HOME or HOMED at a MOVE among them, and the order stays
outstanding (R51). That a bare DONE with the tag of an outstanding INVENTORY is such a reply is the model's choice (log entry 19). -/
def Obligations.StaleRepliesAreCounted : Prop :=
  ∀ (s : State) (c : Instr), s.isStale c → ∃ t, exec c s = .next t
    ∧ t.content = ({ s with
        out := []
        anchor := { s.anchor with stale := if s.anchor.stale < 65535 then s.anchor.stale + 1 else s.anchor.stale } } : State).content

/-! ## Posting -/

/-- A POST taken, or taken when its held write's version word has been read: the entry joins the posting list with the words its
capture line held valid and the next sequence, its version 1 more than before, and its line is freed; missing words are asked for and
counted as a capture miss, and with none missing the checks are made. A store record of an earlier post is dropped and its counted bin
given back, and the entry's index leaves the class lock (R121, R170). That a POST whose version word has been read is judged though a
direct write waits (log entry 30), and that missing words are asked for lowest offset first (log entry 12), are the model's choices. -/
def Obligations.PostTakenListsTheEntry : Prop :=
  ∀ (s : State) (c : Instr) (k : Slot) (i : Nat) (v : Word) (rs : List PartRequest) (words : List (Option Word)) (n : Nat),
    (c = .post k i 15 ∧ s.ReadyFor (.defectEntry k i) ∧ s.oldVersion k i = some v ∧ rs = s.mport.requests)
      ∨ (c = .postVersionReadDone ∧ s.anchor.attach = .attached ∧ s.Watches (.defectEntry k i) ∧ s.path.offered = []
        ∧ s.path.slot = .held (s.recordWrite (.defectEntry k i) 6 codePost 15) .postVersion
        ∧ s.mport.serving = some .part ∧ s.mport.requests = .postVersion k i :: rs ∧ s.storeEntry k i = none
        ∧ v = s.mem.readWord (s.entryVersionAddress k i)) →
    s.path.closedLock.get k = false → s.entryLive k i = false → s.revisit.posting.length < 16 →
    words = (s.capture k i 6 codePost 15).handedWords k i → n = s.nextSequence k →
    ((missingFrom 0 words ≠ [] → s.storeEntry k i = none → ∃ t, exec c s = .next t
        ∧ t.version (.defectEntry k i) = v + 1 ∧ t.classLocked k i = none
        ∧ t.content.kept = ({ s with
            out := []
            revisit := { s.revisit with
              posting := s.revisit.posting ++ [Entry.fresh k i words n], postSequence := s.revisit.postSequence.set k n }
            anchor := { s.anchor with captureMiss := satInc 65535 s.anchor.captureMiss }
            mport := { s.mport with requests := rs ++ (missingFrom 0 words).map fun w => .fill k i w }
            path := { s.path with
              slot := .waiting (s.recordWrite (.defectEntry k i) 6 codePost 15)
              capture := dropLine (captureWrite s.path.capture k i 6 codePost 15) k i } } : State).content.kept)
      ∧ (missingFrom 0 words = [] → s.storeEntry k i = none → (∀ x ∈ s.revisit.posting, x.is k i = false) →
        ∃ u, exec c s = .next (s.finish (u.settle.pass (s.recordWrite (.defectEntry k i) 6 codePost 15)))
        ∧ s.Judged u (Entry.fresh k i words n) rs (v + 1) ∧ u.revisit.postSequence = s.revisit.postSequence.set k n
        ∧ captureLine u.path.capture k i = none ∧ u.classLocked k i = none ∧ u.mem = s.mem ∧ u.clock = s.clock)
      ∧ (missingFrom 0 words ≠ [] → ∀ e, s.storeEntry k i = some e → ∃ t, exec c s = .next t
        ∧ t.storeEntry k i = none ∧ t.classLocked k i = none
        ∧ ∃ x ∈ t.revisit.posting, x.is k i = true ∧ x.state = .posting ∧ x.host = words ∧ x.sequence = n)
      ∧ (missingFrom 0 words = [] → ∀ e, s.storeEntry k i = some e → (∀ x ∈ s.revisit.posting, x.is k i = false) →
        ∃ u, exec c s = .next (s.finish (u.settle.pass (s.recordWrite (.defectEntry k i) 6 codePost 15)))
        ∧ (s.dropEarlier k i).Judged u (Entry.fresh k i words n) rs (v + 1) ∧ u.classLocked k i = none
        ∧ (∀ x ∈ (s.dropEarlier k i).revisit.store, x.is k i = false)
        ∧ u.revisit.postSequence = s.revisit.postSequence.set k n ∧ captureLine u.path.capture k i = none
        ∧ u.mem = s.mem ∧ u.clock = s.clock)
      ∧ (missingFrom 0 words ≠ [] → ∀ e b r, s.storeEntry k i = some e → e.state = .reviewed → e.rowClosed = false →
        e.bin = some b → s.row e.wafer = some r → ∃ t r', exec c s = .next t ∧ t.version (.defectEntry k i) = v + 1
        ∧ t.row e.wafer = some r' ∧ r'.posts = r.posts ∧ r'.bins = r.bins.modify b (· - 1)))

/-- A POST of a live entry only counts in it and is captured; one that finds 16 records in the posting list is held; one whose version
word the part cannot answer is held while the word is read. -/
def Obligations.PostNotTakenIsCountedOrHeld : Prop :=
  ∀ (s : State) (k : Slot) (i : Nat), s.ReadyFor (.defectEntry k i) → s.path.closedLock.get k = false →
    (s.entryLive k i = true → ∃ t, exec (.post k i 15) s = .next t
      ∧ t.content = ({ s with
          out := []
          revisit := (s.modEntry k i fun e => { e with ignored := satInc 255 e.ignored }).revisit
          path := { s.path with
            slot := .waiting (s.recordWrite (.defectEntry k i) 6 codePost 15)
            capture := captureWrite s.path.capture k i 6 codePost 15 } } : State).content)
    ∧ (s.entryLive k i = false → 16 ≤ s.revisit.posting.length → ∃ t, exec (.post k i 15) s = .next t
      ∧ t.content = ({ s with
          out := [], path := { s.path with slot := .held (s.recordWrite (.defectEntry k i) 6 codePost 15) .postRoom } } : State).content)
    ∧ (s.entryLive k i = false → s.revisit.posting.length < 16 → s.oldVersion k i = none → ∃ t, exec (.post k i 15) s = .next t
      ∧ t.content = ({ s with
          out := []
          mport := { s.mport with requests := s.mport.requests ++ [.postVersion k i] }
          path := { s.path with
            slot := .held (s.recordWrite (.defectEntry k i) 6 codePost 15) .postVersion } } : State).content)

/-- FILL_READ_DONE: the word read joins the POSTING record; at the last one the checks are made and the record leaves the posting
list: refused, it is a direct write, queued at once when its eight words fit (R127, R184); admitted, it is QUEUED, or NOT_SAMPLED with
LIMIT, or QUEUED in the place of a displaced entry of lower priority, by the revisit limit (R131), and its OPEN row counts it. -/
def Obligations.FilledPostIsChecked : Prop :=
  ∀ (s : State) (ws : Windows) (k : Slot) (i w : Nat) (v : Word) (rest : List PartRequest) (e : Entry),
    s.path.windows = some ws → s.mport.serving = some .part → s.mport.requests = .fill k i w :: rest →
    v = s.mem.readWord (ws.recordBase (.defectEntry k i) + 4 * w) →
    (s.revisit.posting.find? fun x => x.is k i) = some e →
    (none ∈ e.host.set w (some v) → ∃ t, exec .fillReadDone s = .next t
      ∧ t.content.kept = ({ s with
          out := []
          mport := { s.mport with requests := rest }
          revisit := { s.revisit with
            posting := s.revisit.posting.map fun x => if x.is k i then { x with host := x.host.set w (some v) } else x } } : State).content.kept)
    ∧ (none ∉ e.host.set w (some v) → s.storeEntry k i = none → ∃ u, exec .fillReadDone s = .next (s.after u)
      ∧ s.Judged u { e with host := e.host.set w (some v) } rest (s.version (.defectEntry k i) + 1)
      ∧ u.path = s.path ∧ u.mem = s.mem ∧ u.clock = s.clock)

/-- WITHDRAW: a QUEUED entry becomes WITHDRAWN and its OPEN row counts it; a request on an entry the part holds in another state is
counted in it; every WITHDRAW passes and is captured. -/
def Obligations.WithdrawEndsAQueuedEntry : Prop :=
  ∀ (s : State) (k : Slot) (i : Nat), s.ReadyFor (.defectEntry k i) → s.path.closedLock.get k = false →
    (∀ e r, s.entry k i = some e → e.state = .queued → s.row e.wafer = some r → r.state = .opened →
      ∃ t, exec (.withdraw k i 15) s = .next t
      ∧ t.entry k i = some { e with state := .withdrawn, reason := .none }
      ∧ t.row e.wafer = some { r with outcomes := r.outcomes.inc .withdrawn }
      ∧ (∀ u, u ≠ e.wafer → t.row u = s.row u)
      ∧ t.content = ({ s with
          out := [], reports := t.reports
          revisit := (s.modEntry k i fun x => { x with state := .withdrawn, reason := .none }).revisit
          path := { s.path with
            slot := .waiting (s.recordWrite (.defectEntry k i) 6 codeWithdraw 15)
            capture := captureWrite s.path.capture k i 6 codeWithdraw 15 } } : State).content)
    ∧ (∀ e, s.entry k i = some e → e.state ≠ .queued → ∃ t, exec (.withdraw k i 15) s = .next t
      ∧ t.content = ({ s with
          out := []
          revisit := (s.modEntry k i fun x => { x with ignored := satInc 255 x.ignored }).revisit
          path := { s.path with
            slot := .waiting (s.recordWrite (.defectEntry k i) 6 codeWithdraw 15)
            capture := captureWrite s.path.capture k i 6 codeWithdraw 15 } } : State).content)
    ∧ (s.entry k i = none → ∃ t, exec (.withdraw k i 15) s = .next t
      ∧ t.content = ({ s with
          out := []
          path := { s.path with
            slot := .waiting (s.recordWrite (.defectEntry k i) 6 codeWithdraw 15)
            capture := captureWrite s.path.capture k i 6 codeWithdraw 15 } } : State).content)

/-- POSTING_CLOSE: in a QUEUED, RUNNING or FINISHING lot the wafer's posting-closed flag is set, and a revisit unit waiting for the
wafer ends its review normally, its timer stopped, the wafer's pending result REVIEWED and, ON_STAGE, the wafer REVIEW_ENDED at the
review clock (R11, R134, R150, R151); in an EMPTY, STARTING or ABORTING lot the write only passes; under the closed-report lock, which
stands in a DONE or ABORTED lot, it is masked. -/
def Obligations.PostingCloseEndsAWaitingReview : Prop :=
  ∀ (s : State) (k : Slot) (n : Nat), s.ReadyFor (.waferEntry k n) →
    (s.path.closedLock.get k = false → (s.lot k).state.takesPosts = true →
      (s.revisit.review ≠ .waiting ∨ s.revisit.wafer ≠ some ⟨k, n⟩ → ∃ t, exec (.postingClose k n 15) s = .next t
        ∧ (∀ x, s.wafer ⟨k, n⟩ = some x → t.wafer ⟨k, n⟩ = some { x with postingClosed := true })
        ∧ (∀ u, u ≠ ⟨k, n⟩ → t.wafer u = s.wafer u)
        ∧ t.content = ({ s with
            out := [], lots := t.lots
            path := { s.path with slot := .waiting (s.recordWrite (.waferEntry k n) 1 codeClose 15) } } : State).content)
      ∧ (s.revisit.review = .waiting → s.revisit.wafer = some ⟨k, n⟩ → ∃ t, exec (.postingClose k n 15) s = .next t
        ∧ t.revisit.review = .ended ∧ t.revisit.active = none ∧ t.revisit.timer = none
        ∧ (s.waferState ⟨k, n⟩ = some .onStage → t.waferState ⟨k, n⟩ = some .reviewEnded)
        ∧ (∀ x, s.wafer ⟨k, n⟩ = some x → ∃ y, t.wafer ⟨k, n⟩ = some y ∧ y.postingClosed = true ∧ y.pendingResult = some .reviewed
            ∧ (x.state = .onStage → y.endClock = s.clock))
        ∧ (∀ u, u ≠ ⟨k, n⟩ → t.wafer u = s.wafer u)
        ∧ t.content.kept = ({ s with
            out := []
            path := { s.path with slot := .waiting (s.recordWrite (.waferEntry k n) 1 codeClose 15) } } : State).content.kept))
    ∧ (s.path.closedLock.get k = false → (s.lot k).state ∈ [.empty, .starting, .aborting] → ∃ t, exec (.postingClose k n 15) s = .next t
      ∧ t.content = ({ s with
          out := []
          path := { s.path with slot := .waiting (s.recordWrite (.waferEntry k n) 1 codeClose 15) } } : State).content)
    ∧ (s.path.closedLock.get k = true → ∃ t, exec (.postingClose k n 15) s = .next t
      ∧ t.content = ({ s.countMasked with
          out := []
          path := { s.path with slot := .waiting (s.recordWrite (.waferEntry k n) 1 codeClose 15).withheld } } : State).content)

/-- ROW_CLOSE in an OPEN report: the OPEN row of a wafer in a final state is CLOSED, its entries' indices guard their class words, and
its records leave the index, those written back leaving the store too; for a wafer not in a final state the write is masked. A CLOSE
to a row already closed of an OPEN report, or with the report NONE or RELEASED (the lot EMPTY or STARTING), only passes. With the
report CLOSED the closed-report lock is set, and under it the write is masked (R168, R17). That a store record left by a released lot
does not belong to the new lot's row of its wafer slot is the model's choice (log entry 47). -/
def Obligations.RowCloseClosesAFinalWafersRow : Prop :=
  ∀ (s : State) (k : Slot) (n : Nat), s.ReadyFor (.waferEntry k n) →
    (∀ r st, s.path.closedLock.get k = false → (s.report k).state = .opened → s.row ⟨k, n⟩ = some r → r.state = .opened →
      s.waferState ⟨k, n⟩ = some st → st.isFinal = true → ∃ t, exec (.rowClose k n 15) s = .next t
      ∧ t.row ⟨k, n⟩ = some { r with state := .closed } ∧ (∀ u, u ≠ ⟨k, n⟩ → t.row u = s.row u)
      ∧ (∀ e ∈ s.revisit.store, e.wafer = ⟨k, n⟩ → e.rowClosed = false → (t.classLocked k e.index).isSome)
      ∧ (∀ j, (s.classLocked k j).isSome → t.classLocked k j = s.classLocked k j)
      ∧ t.revisit.store = ((s.revisit.store.filter fun e =>
          !(decide (e.wafer = ⟨k, n⟩) && !e.rowClosed && s.writtenBack e.id)).map fun e =>
            if e.wafer = ⟨k, n⟩ then { e with rowClosed := true } else e)
      ∧ t.content = ({ s with
          out := [], reports := t.reports, revisit := { s.revisit with store := t.revisit.store }
          path := { s.path with slot := .waiting (s.recordWrite (.waferEntry k n) 2 codeClose 15) } } : State).content)
    ∧ (s.path.closedLock.get k = false → (s.report k).state = .opened → s.rowClosed ⟨k, n⟩ = false →
      (∀ st, s.waferState ⟨k, n⟩ = some st → st.isFinal = false) → ∃ t, exec (.rowClose k n 15) s = .next t
      ∧ t.content = ({ s.countMasked with
          out := []
          path := { s.path with slot := .waiting (s.recordWrite (.waferEntry k n) 2 codeClose 15).withheld } } : State).content)
    ∧ (s.path.closedLock.get k = false → (s.report k).state = .none ∨ (s.report k).state = .released
        ∨ ((s.report k).state = .opened ∧ s.rowClosed ⟨k, n⟩ = true) → ∃ t, exec (.rowClose k n 15) s = .next t
      ∧ t.content = ({ s with
          out := []
          path := { s.path with slot := .waiting (s.recordWrite (.waferEntry k n) 2 codeClose 15) } } : State).content)
    ∧ (s.path.closedLock.get k = true → ∃ t, exec (.rowClose k n 15) s = .next t
      ∧ t.content = ({ s.countMasked with
          out := []
          path := { s.path with slot := .waiting (s.recordWrite (.waferEntry k n) 2 codeClose 15).withheld } } : State).content)
    ∧ (s.Sound → (s.report k).state = .closed → s.path.closedLock.get k = true)

/-! ## Class counting and the capture cache -/

/-- CLASS_WRITE: to a REVIEWED entry of an OPEN row it gives the old counted bin back and counts the new one; to a locked class word it
is masked, and late if lane 0 is enabled and the index is in the class lock; before the class table is valid a counted write is held;
any other is captured and passes. That a REVIEWED record left by a released lot, whose row was closed and whose index is in no class
lock now, has its class writes pass uncounted is the model's choice (log entry 47). -/
def Obligations.ClassWritesAreCountedOnce : Prop :=
  ∀ (s : State) (k : Slot) (i : Nat) (v : Word) (be : Enables) (a : PAccess), s.ReadyFor (.defectEntry k i) →
    a = s.recordWrite (.defectEntry k i) 5 v be →
    (∀ e r, s.path.closedLock.get k = false → s.classLocked k i = none → be.getLsbD 0 = true → s.storeEntry k i = some e →
      e.state = .reviewed → e.rowClosed = false → s.classTable.valid = true → s.row e.wafer = some r →
      ∃ t bins, exec (.classWrite k i v be) s = .next t
      ∧ bins = (match e.bin with | some b => r.bins.modify b (· - 1) | none => r.bins)
      ∧ t.row e.wafer = some { r with bins := if lane 0 v = 0 then bins else bins.modify (s.binOf (lane 0 v)) (· + 1) }
      ∧ (∀ u, u ≠ e.wafer → t.row u = s.row u)
      ∧ t.content = ({ s with
          out := [], reports := t.reports
          revisit := (s.modEntry k i fun x => { x with
            bin := if lane 0 v = 0 then none else some (s.binOf (lane 0 v)) }).revisit
          path := { s.path with slot := .waiting a, capture := captureWrite s.path.capture k i 5 v be } } : State).content)
    ∧ (s.path.closedLock.get k = true ∨ (s.classLocked k i).isSome → ∃ t, exec (.classWrite k i v be) s = .next t
      ∧ (∀ l r, s.classLocked k i = some l → s.row ⟨k, l.wafer⟩ = some r → be.getLsbD 0 = true →
          t.row ⟨k, l.wafer⟩ = some { r with late := satInc 65535 r.late })
      ∧ (∀ l u, s.classLocked k i = some l → u ≠ ⟨k, l.wafer⟩ → t.row u = s.row u)
      ∧ (s.classLocked k i = none ∨ be.getLsbD 0 = false → t.reports = s.reports)
      ∧ t.content = ({ s.countMasked with
          out := [], reports := t.reports, path := { s.path with slot := .waiting a.withheld } } : State).content)
    ∧ (∀ e, s.path.closedLock.get k = false → s.classLocked k i = none → be.getLsbD 0 = true → s.storeEntry k i = some e →
      e.state = .reviewed → s.classTable.valid = false → ∃ t, exec (.classWrite k i v be) s = .next t
      ∧ t.content = ({ s with out := [], path := { s.path with slot := .held a .classTable } } : State).content)
    ∧ (s.path.closedLock.get k = false → s.classLocked k i = none →
      (be.getLsbD 0 = false ∨ (∀ e, s.storeEntry k i = some e → e.state ≠ .reviewed
        ∨ (e.rowClosed = true ∧ s.classTable.valid = true))) → ∃ t, exec (.classWrite k i v be) s = .next t
      ∧ t.content = ({ s with
          out := []
          path := { s.path with slot := .waiting a, capture := captureWrite s.path.capture k i 5 v be } } : State).content)

/-- CLASS_TABLE_WRITE captures the enabled bytes and marks them filled; CLASS_TABLE_FETCH_READ_DONE gives the bytes not yet filled
their fetched values, and the table is valid at the last word. -/
def Obligations.ClassTableTakesWritesOverFetches : Prop :=
  ∀ (s : State) (w : Nat), w < 64 → s.classTable.bytes.length = 256 →
    (∀ v be, s.PathFree → s.anchor.attach = .attached → s.wordAt (s.classTableWrite w v be).addr = .classTable w →
      ∃ t, exec (.classTableWrite w v be) s = .next t
      ∧ (∀ c < 256, t.classTable.bytes[c]? =
          if c / 4 = w ∧ be.getLsbD (c % 4) = true then some ⟨lane (c % 4) v, true⟩ else s.classTable.bytes[c]?)
      ∧ t.classTable.valid = s.classTable.valid
      ∧ t.content = ({ s with
          out := [], classTable := t.classTable
          path := { s.path with slot := .waiting (s.classTableWrite w v be) } } : State).content)
    ∧ (∀ ws rest, s.path.windows = some ws → s.mport.serving = some .part → s.mport.requests = .classTable w :: rest →
      ∃ t, exec .classTableFetchReadDone s = .next t
      ∧ (∀ c < 256, ∀ b, s.classTable.bytes[c]? = some b → t.classTable.bytes[c]? =
          some (if c / 4 = w ∧ b.filled = false then ⟨lane (c % 4) (s.mem.readWord (ws.classBase + 4 * w)), false⟩ else b))
      ∧ t.classTable.valid = (s.classTable.valid || decide (w = 63))
      ∧ t.content = ({ s with
          out := [], classTable := t.classTable, mport := { s.mport with requests := rest } } : State).content)

/-- DEFECT_HOST_WRITE: the enabled lanes are captured in the entry's line, which is then the most recently written, a word being valid
once all its bytes were written; every other line stays, but that a new line in a full cache takes the place of the least recently
written one (R186); a write to a live entry counts as changed after post. -/
def Obligations.HostWritesAreCaptured : Prop :=
  ∀ (s : State) (k : Slot) (i w : Nat) (v : Word) (be : Enables) (others : List CaptureLine), s.ReadyFor (.defectEntry k i) →
    s.path.closedLock.get k = false → w ∈ [0, 1, 2, 3, 4, 7] →
    others = s.path.capture.filter (fun x => !(x.slot == k && x.index == i)) →
    ∃ t l, exec (.defectHostWrite k i w v be) s = .next t
      ∧ t.path.capture = (if others.length < 16 then others else others.drop 1) ++ [l] ∧ l.slot = k ∧ l.index = i
      ∧ (∀ old, old = ((captureLine s.path.capture k i).getD (CaptureLine.fresh k i)).words →
          (∀ j, j ≠ w → l.words[j]? = old[j]?)
          ∧ ∀ x, old[w]? = some x → ∃ y, l.words[w]? = some y ∧ y.valid = (x.valid || be == 15)
            ∧ ∀ j < 4, lane j y.value = if be.getLsbD j then lane j v else lane j x.value)
      ∧ (s.path.capture.length ≤ 16 → t.path.capture.length ≤ 16)
      ∧ t.content = ({ s with
          out := []
          lots := if s.entryLive k i then s.lots.set k { s.lot k with changed := satInc 65535 (s.lot k).changed } else s.lots
          path := { s.path with
            slot := .waiting (s.recordWrite (.defectEntry k i) w v be), capture := t.path.capture } } : State).content

/-! ## The motion link -/

/-- ARRIVED of an outstanding MOVE: the order ends, the axes stand at its target, SETTLING, with the settle timer started for its
requesters; with a settle time of 0 the axes are IDLE and the requesters answered in the same step, in which a waiting request is then
judged (R53, R54). That ARRIVED answers the order of X and Y where both groups' orders carry its tag is the model's choice (log
entry 41). -/
def Obligations.ArrivedMoveSettles : Prop :=
  ∀ (s : State) (o : MotionOrder),
    (∀ x y, s.Awaits .xy o → o.kind = .move (.xy x y) → s.settleTime ≠ 0 →
      exec (.arrived o.tag) s = .next (s.after { s.begin with
        motion := { s.motion with
          x := { s.motion.x with state := .settling, referenced := true, position := x }
          y := { s.motion.y with state := .settling, referenced := true, position := y }
          xyGroup := { s.motion.xyGroup with order := none, settling := some ⟨⟨s.clock, s.settleTime⟩, o.requesters⟩ } } }))
    ∧ (∀ h, s.Awaits .z o → o.kind = .move (.z h) → s.settleTime ≠ 0 →
      exec (.arrived o.tag) s = .next (s.after { s.begin with
        motion := { s.motion with
          z := { s.motion.z with state := .settling, referenced := true, position := h }
          zGroup := { s.motion.zGroup with order := none, settling := some ⟨⟨s.clock, s.settleTime⟩, o.requesters⟩ } } }))
    ∧ (∀ x y, s.Awaits .xy o → o.kind = .move (.xy x y) → s.settleTime = 0 → s.motion.xyGroup.waiting = none →
      exec (.arrived o.tag) s = .next (s.after { s.begin with
        motion := { s.motion with
          x := { s.motion.x with state := .idle, referenced := true, position := x }
          y := { s.motion.y with state := .idle, referenced := true, position := y }
          xyGroup := ⟨none, none, none⟩ }
        scratch := { Scratch.empty with msgs := o.requesters.map fun r => .settled r .xy } }))
    ∧ (∀ h, s.Awaits .z o → o.kind = .move (.z h) → s.settleTime = 0 → s.motion.zGroup.waiting = none →
      exec (.arrived o.tag) s = .next (s.after { s.begin with
        motion := { s.motion with
          z := { s.motion.z with state := .idle, referenced := true, position := h }
          zGroup := ⟨none, none, none⟩, epoch := s.motion.epoch + 1 }
        scratch := { Scratch.empty with msgs := o.requesters.map fun r => .settled r .z } }))
    ∧ (∀ x y w u, s.Awaits .xy o → o.kind = .move (.xy x y) → s.settleTime = 0 → s.motion.xyGroup.waiting = some w →
      u = { s.begin with
        motion := { s.motion with
          x := { s.motion.x with state := .idle, referenced := true, position := x }
          y := { s.motion.y with state := .idle, referenced := true, position := y }
          xyGroup := ⟨none, none, none⟩ }
        scratch := { Scratch.empty with msgs := o.requesters.map fun r => .settled r .xy } } →
      exec (.arrived o.tag) s = .next (s.after (match u.moveCheck w.target with
        | none => u.sendMove w.target w.requesters
        | some why => u.sayAll (w.requesters.map fun r => .refused r w.target.group why))))
    ∧ (∀ h w u, s.Awaits .z o → o.kind = .move (.z h) → s.settleTime = 0 → s.motion.zGroup.waiting = some w →
      u = { s.begin with
        motion := { s.motion with
          z := { s.motion.z with state := .idle, referenced := true, position := h }
          zGroup := ⟨none, none, none⟩, epoch := s.motion.epoch + 1 }
        scratch := { Scratch.empty with msgs := o.requesters.map fun r => .settled r .z } } →
      exec (.arrived o.tag) s = .next (s.after (match u.moveCheck w.target with
        | none => u.sendMove w.target w.requesters
        | some why => u.sayAll (w.requesters.map fun r => .refused r w.target.group why))))

/-- SETTLE_TIMER_EXPIRY when the timer is due: the axes are IDLE, each requester is answered, the Z epoch advances at a Z settle, and then
the group's waiting request is judged. Before the timer is due nothing happens: that the command then changes nothing is the model's
choice (log entry 2). -/
def Obligations.SettleExpiryAnswersTheRequesters : Prop :=
  ∀ (s u : State) (t : Settling) (g : MotionGroup), (s.motion.group g).settling = some t →
    u = { s.begin with
      motion := match g with
        | .xy => { s.motion with
            x := { s.motion.x with state := .idle, referenced := true }
            y := { s.motion.y with state := .idle, referenced := true }
            xyGroup := { s.motion.xyGroup with settling := none, waiting := none } }
        | .z => { s.motion with
            z := { s.motion.z with state := .idle, referenced := true }
            zGroup := { s.motion.zGroup with settling := none, waiting := none }
            epoch := s.motion.epoch + 1 }
      scratch := { Scratch.empty with msgs := t.requesters.map fun r => .settled r g } } →
    (t.timer.due s.clock = true → (s.motion.group g).waiting = none → exec (.settleTimerExpiry g) s = .next (s.after u))
    ∧ (∀ w, t.timer.due s.clock = true → (s.motion.group g).waiting = some w →
      exec (.settleTimerExpiry g) s = .next (s.after (match u.moveCheck w.target with
        | none => u.sendMove w.target w.requesters
        | some why => u.sayAll (w.requesters.map fun r => .refused r w.target.group why))))
    ∧ (t.timer.due s.clock = false → ∃ t', exec (.settleTimerExpiry g) s = .next t'
      ∧ t'.content = ({ s with out := [] } : State).content)

/-- HOMED of an outstanding HOME: the group's axes stand at home, referenced, IDLE or taken up at once by a waiting request, and HOMED of
Z advances the Z epoch. That HOMED answers the order of X and Y where both groups' orders carry its tag is the model's choice (log
entry 41). -/
def Obligations.HomedAxesAreReferenced : Prop :=
  ∀ (s : State) (o : MotionOrder), s.motion.Sound → o.kind = .home →
    (s.Awaits .xy o → ∃ t, exec (.homed o.tag) s = .next t
      ∧ (t.motion.x.state = .idle ∨ t.motion.x.state = .moving) ∧ (t.motion.y.state = .idle ∨ t.motion.y.state = .moving)
      ∧ t.motion.x.referenced = true ∧ t.motion.y.referenced = true
      ∧ t.content.kept = ({ s with
          out := []
          motion := { s.motion with x := { s.motion.x with position := 0 }, y := { s.motion.y with position := 0 } } } : State).content.kept)
    ∧ (s.Awaits .z o → ∃ t, exec (.homed o.tag) s = .next t
      ∧ (t.motion.z.state = .idle ∨ t.motion.z.state = .moving) ∧ t.motion.z.referenced = true
      ∧ t.content.kept = ({ s with
          out := []
          motion := { s.motion with z := { s.motion.z with position := 0 }, epoch := s.motion.epoch + 1 } } : State).content.kept)

/-- MOTION_LINK_FAULT of an outstanding order, and MOTION_ORDER_TIMEOUT when its timer is due: the group's axes are in FAULT where they
stood, MOTION_FAULT is raised, handling halts, and a timeout sends STOP. With a wafer ON_STAGE at ST and no request waiting, the
review in progress ends: that wafer is REVIEW_ENDED with its pending result ABORTED if none was set, its QUEUED entries and the ACTIVE
entry end ABORTED with MOTION_FAULT, and a MEASURING record FAILs with it (R81, R152, R154). Whether a waiting request's refusal or the
fault's report comes first stays open (log entry 10), and of the review's end with a request waiting nothing is said here. That
MOTION_LINK_FAULT answers the order of X and Y where both groups' orders carry its tag (log entry 41), and that before the timer is due
the timeout changes nothing (log entry 2), are the model's choices. -/
def Obligations.MotionFaultsStopTheGroup : Prop :=
  ∀ (s : State) (g : MotionGroup) (o : MotionOrder) (c : Instr),
    (((∃ code, c = .motionLinkFault o.tag code) ∧ s.Awaits g o)
      ∨ (c = .motionOrderTimeout g ∧ (s.motion.group g).order = some o ∧ o.timer.due s.clock = true) →
    ∃ t, exec c s = .next t
      ∧ t.motion.stateOf g = .fault
      ∧ (s.anchor.attach = .attached → t.notice.pending.getLsbD 5 = true)
      ∧ (s.handling.state ∈ [.idle, .busy, .hold] → t.handling.state = .halted)
      ∧ (s.handling.state ∈ [.idle, .busy, .hold] → s.anchor.attach = .attached → t.notice.pending.getLsbD 4 = true)
      ∧ ((s.motion.group g).waiting = none → s.stateAt .st = some .onStage → ∀ w, s.revisit.wafer = some w →
          s.revisit.review.inProgress = true → t.revisit.review = .ended ∧ t.revisit.active = none
          ∧ (s.waferState w = some .onStage → t.waferState w = some .reviewEnded)
          ∧ (∀ x, s.wafer w = some x → ∃ y, t.wafer w = some y ∧ y.pendingResult = some (x.pendingResult.getD .aborted))
          ∧ (s.align.state = .measuring → t.align.state = .failed ∧ t.align.reason = .motionFault)
          ∧ t.ended (s.queuedOf w) .motionFault
          ∧ ∀ a e, s.revisit.active = some a → s.storeEntry a.slot a.index = some e → e.state = .active → t.ended [e] .motionFault)
      ∧ (c = .motionOrderTimeout g → .stop s.motion.tag g ∈ t.out)
      ∧ t.content.kept = ({ s with
          out := [], free := s.free + (if (s.motion.group g).waiting.isSome then 1 else 0)
          handling := { s.handling with haltMark := t.handling.haltMark } } : State).content.kept)
    ∧ ((s.motion.group g).order = some o → o.timer.due s.clock = false → ∃ t, exec (.motionOrderTimeout g) s = .next t
      ∧ t.content = ({ s with out := [] } : State).content)

/-! ## The grab link -/

/-- MARK_RESULT of the outstanding mark grab: a mark found within 500,000 nm is measured at its target plus the offset (R74). After mark
1 the measurement of mark 2 begins, MEASURING; after mark 2 the row takes the scale and rotation figures, and coefficients within
tolerance become the record's and the wafer entry's, which is then ALIGNED, with mark count 3 MEASURING mark 3; after mark 3 a residual
within tolerance makes it ALIGNED (R77 to R79), and the review leaves ALIGNING. A next mark out of travel, a coefficient or a residual
beyond its tolerance FAILs the alignment with its reason and the pending result ALIGN_FAILED (R80). A mark not found counts an attempt
and is grabbed for again up to the retry limit, and then FAILs with MARK_NOT_FOUND. -/
def Obligations.MarkResultsAlignTheWafer : Prop :=
  ∀ (s : State) (o : Grab) (w : WaferName) (found : Bool) (ox oy : Int) (c : Recipe) (p : Point) (v : Solved),
    s.grab.outstanding = some o → o.discard = false → o.ask.kind = .mark → s.align.grabbing = true → s.align.wafer = some w →
    c = s.recipe w.slot → p = ⟨s.align.target.x + ox, s.align.target.y + oy⟩ →
    v = solve (c.turnedMark 1) (c.turnedMark 2) (s.align.m1.measured.getD ⟨0, 0⟩) p →
    ∃ u t, exec (.markResult o.tag found ox oy) s = .next t ∧ t = s.after u
      ∧ (∀ x, s.wafer w = some x → ∃ y, u.wafer w = some y ∧ y.alignState = u.align.state ∧ y.alignMark = u.align.mark
          ∧ y.alignAttempts = u.align.attempts ∧ y.alignReason = u.align.reason)
      ∧ (found = true → ox.natAbs ≤ 500000 → oy.natAbs ≤ 500000 →
        (∀ q, s.align.mark = 1 → q = s.align.convert c (c.markAt 2) →
          (q.inTravel = true → u.align = { s.align with
              state := .measuring, mark := 2, phase := .move, attempts := 0
              m1 := { s.align.m1 with measured := some p }, m2 := { s.align.m2 with target := some q }
              xyReq := some ⟨s.motion.nextReq, false⟩, zReq := some ⟨s.motion.nextReq + 1, false⟩ })
          ∧ (q.inTravel = false → s.AlignFails u w .markTravel)
          ∧ t.content.kept = ({ s with out := [], align := u.align } : State).content.kept)
        ∧ (s.align.mark = 2 →
          (∀ q, solveCheck c v = none → c.markCount = 3 → q = fineTransform v.a v.b v.tx v.ty (c.turnedMark 3) →
            (q.inTravel = true → u.align = { s.align with
                state := .measuring, mark := 3, phase := .move, attempts := 0, a := v.a, b := v.b, tx := v.tx, ty := v.ty
                m2 := { s.align.m2 with measured := some p }, m3 := { s.align.m3 with target := some q }
                xyReq := some ⟨s.motion.nextReq, false⟩, zReq := some ⟨s.motion.nextReq + 1, false⟩ })
            ∧ (q.inTravel = false → s.AlignFails u w .markTravel))
          ∧ (solveCheck c v = none → c.markCount ≠ 3 → u.align = { s.align with
                state := .aligned, a := v.a, b := v.b, tx := v.tx, ty := v.ty, m2 := { s.align.m2 with measured := some p } }
            ∧ (∀ y, s.revisit.wafer = some y → s.wafer y ≠ none → u.revisit.review ≠ .aligning))
          ∧ (solveCheck c v = none → ∀ x, s.wafer w = some x → ∃ y, u.wafer w = some y
              ∧ y.a = v.a ∧ y.b = v.b ∧ y.tx = v.tx ∧ y.ty = v.ty)
          ∧ (∀ why, solveCheck c v = some why → s.AlignFails u w why)
          ∧ t.content.kept = ({ s with
              out := [], align := u.align
              reports := (s.enter w fun r => { r with scale := v.scaleFigure, rotation := v.rotationFigure }).reports } : State).content.kept)
        ∧ (s.align.mark = 3 →
          ((residual p (s.align.convert c (c.markAt 3)) : Int) ≤ c.residualTolerance → u.align = { s.align with
                state := .aligned, m3 := { s.align.m3 with measured := some p } }
            ∧ (∀ y, s.revisit.wafer = some y → s.wafer y ≠ none → u.revisit.review ≠ .aligning))
          ∧ (c.residualTolerance < (residual p (s.align.convert c (c.markAt 3)) : Int) → s.AlignFails u w .residual)
          ∧ t.content.kept = ({ s with out := [], align := u.align } : State).content.kept))
      ∧ (found = false ∨ 500000 < ox.natAbs ∨ 500000 < oy.natAbs →
        ((s.align.attempts : Int) + 1 ≤ c.markRetryLimit → u.align = { s.align with attempts := s.align.attempts + 1 }
          ∧ (s.grab.waiting = none → .grab s.grab.tag ⟨.mark, 0, 1⟩ ∈ t.out))
        ∧ (c.markRetryLimit < (s.align.attempts : Int) + 1 → s.AlignFails u w .markNotFound
          ∧ u.align.attempts = s.align.attempts + 1)
        ∧ t.content.kept = ({ s with out := [], align := u.align } : State).content.kept)

/-- GRAB_DONE of the outstanding defect grab: the ACTIVE entry takes the first frame number and the frames, and ends REVIEWED; its OPEN row
counts it; the list is looked at next. -/
def Obligations.GrabDoneReviewsTheEntry : Prop :=
  ∀ (s : State) (o : Grab) (a : ActiveRevisit) (e : Entry) (first frames : Word),
    s.grab.outstanding = some o → o.discard = false → o.ask.kind = .defect → s.revisit.active = some a → a.phase = .grab →
    s.storeEntry a.slot a.index = some e → e.state = .active →
    ∃ u t, exec (.grabDone o.tag first frames) s = .next t ∧ t = s.after u
      ∧ u.storeEntry a.slot a.index = some { e with firstFrame := first, frames := frames, state := .reviewed, reason := .none }
      ∧ (∀ r, s.row e.wafer = some r → r.state = .opened → u.row e.wafer = some { r with outcomes := r.outcomes.inc .reviewed })
      ∧ u.revisit.active = none ∧ u.scratch.msgs = [.lookAtList]
      ∧ u.grab.outstanding = (s.grab.waiting.map fun k => ⟨s.grab.tag, k, ⟨s.clock, 3000⟩, false⟩) ∧ u.grab.waiting = none
      ∧ (∃ x ∈ t.revisit.store, x.id = e.id ∧ x.firstFrame = first ∧ x.frames = frames)
      ∧ t.content.kept = ({ s with out := [] } : State).content.kept

/-- GRAB_FAULT, and GRAB_TIMEOUT when its timer is due: a failed defect grab counts an attempt in the ACTIVE entry, which starts again
from phase MOVE at the nominal height or ends GRAB_FAIL; a failed mark grab counts as a mark not found; a discarded grab only ends.
Before the timer is due nothing happens: that the command then changes nothing is the model's choice (log entry 2). -/
def Obligations.GrabFailuresAreRetried : Prop :=
  ∀ (s : State) (c : Instr) (o : Grab) (why : LastFailure) (reason : EntryReason), s.grab.outstanding = some o →
    ((∃ code, c = .grabFault o.tag code) ∧ why = .grabFault ∧ reason = .grabFault)
      ∨ (c = .grabTimeout ∧ why = .grabTimeout ∧ reason = .grabTimeout ∧ o.timer.due s.clock = true) →
    (∀ a e, o.discard = false → o.ask.kind = .defect → s.revisit.active = some a → a.phase = .grab →
      s.storeEntry a.slot a.index = some e → e.state = .active →
      ((e.attempts : Int) + 1 ≤ (s.recipe e.slot).retryLimit → ∃ u, exec c s = .next (s.after u)
        ∧ u.storeEntry a.slot a.index = some { e with attempts := e.attempts + 1 }
        ∧ u.revisit.active = some { a with
            phase := .move, lastFailure := some why, startZ := (s.recipe e.slot).nominalZ
            xyReq := some ⟨s.motion.nextReq, false⟩, zReq := some ⟨s.motion.nextReq + 1, false⟩ })
      ∧ ((s.recipe e.slot).retryLimit < (e.attempts : Int) + 1 → ∃ u, exec c s = .next (s.after u)
        ∧ u.storeEntry a.slot a.index = some { e with attempts := e.attempts + 1, state := .grabFail, reason := reason }
        ∧ u.revisit.active = none ∧ u.scratch.msgs = [.lookAtList]))
    ∧ (∀ w, o.discard = false → o.ask.kind = .mark → s.align.grabbing = true → s.align.wafer = some w →
      ((s.align.attempts : Int) + 1 ≤ (s.recipe w.slot).markRetryLimit → s.grab.waiting = none → ∃ u t, exec c s = .next t ∧ t = s.after u
        ∧ u.align = { s.align with attempts := s.align.attempts + 1 }
        ∧ .grab s.grab.tag ⟨.mark, 0, 1⟩ ∈ t.out ∧ t.content.kept = ({ s with out := [] } : State).content.kept)
      ∧ ((s.recipe w.slot).markRetryLimit < (s.align.attempts : Int) + 1 → ∃ u t, exec c s = .next t ∧ t = s.after u
        ∧ s.AlignFails u w .markNotFound
        ∧ (s.anchor.attach = .attached → t.notice.pending.getLsbD 3 = true)
        ∧ (s.waferState w = some .onStage → t.waferState w = some .reviewEnded)
        ∧ t.content.kept = ({ s with out := [] } : State).content.kept))
    ∧ (o.discard = true → s.grab.waiting = none → ∃ t, exec c s = .next t
      ∧ t.content = ({ s with out := [], grab := { s.grab with outstanding := none } } : State).content)
    ∧ (o.timer.due s.clock = false → ∃ t, exec .grabTimeout s = .next t ∧ t.content = ({ s with out := [] } : State).content)

/-! ## The sensor link and the focus -/

/-- SENSOR_WORD: every word restarts the silence timer and takes DOWN to HUNT. A MARK begins a frame outside one; a word inside is
taken; at the sixteenth the frame is judged by parity and link: LOCKED accepts it, HUNT counts it and accepts at the second, and a bad
one counts and takes LOCKED to HUNT with LINK_LOST. The first stray word outside, and
a MARK inside, are misframes. -/
def Obligations.SensorWordsMakeFrames : Prop :=
  ∀ (s : State) (w : BitVec 16) (parity : Bool) (n : Sensor),
    n = { s.sensor with
      silence := some ⟨s.clock, 2⟩
      link := if s.sensor.link = .down then .hunt else s.sensor.link
      good := if s.sensor.link = .down then 0 else s.sensor.good } →
    (∀ j y, s.sensor.assembler = .outside j y → ∃ t, exec (.sensorWord w true parity) s = .next t
      ∧ t.sensor = { n with assembler := .inside [w] parity s.motion.epoch })
    ∧ (∀ j y, s.sensor.assembler = .outside j y → j = true ∨ y = true → ∃ t, exec (.sensorWord w false parity) s = .next t
      ∧ t.sensor = n)
    ∧ (s.sensor.assembler = .outside false false → ∃ t, exec (.sensorWord w false parity) s = .next t
      ∧ t.sensor = { n with
          assembler := .outside false true, misframes := satInc 65535 s.sensor.misframes, link := .hunt, good := 0 }
      ∧ (s.sensor.link = .locked → s.anchor.attach = .attached → t.notice.pending.getLsbD 6 = true))
    ∧ (∀ ws p e, s.sensor.assembler = .inside ws p e → ∃ t, exec (.sensorWord w true parity) s = .next t
      ∧ t.sensor = { n with
          assembler := .inside [w] parity s.motion.epoch, misframes := satInc 65535 s.sensor.misframes, link := .hunt, good := 0 }
      ∧ (s.sensor.link = .locked → s.anchor.attach = .attached → t.notice.pending.getLsbD 6 = true))
    ∧ (∀ ws p e, s.sensor.assembler = .inside ws p e → ws.length < 15 → ∃ t, exec (.sensorWord w false parity) s = .next t
      ∧ t.sensor = { n with assembler := .inside (ws ++ [w]) p e })
    ∧ (∀ ws p e, s.sensor.assembler = .inside ws p e → ws.length = 15 →
      (parityGood (ws ++ [w]) p = true → n.link = .locked ∨ (n.link = .hunt ∧ n.good = 1) →
        ∃ t f, exec (.sensorWord w false parity) s = .next t
        ∧ f = summarise (s.sensor.sequence + 1) (ws ++ [w]) e s.lightMinimum
        ∧ t.sensor = { n with
            link := .locked, assembler := .outside false false, sequence := s.sensor.sequence + 1
            good := if n.link = .hunt then 2 else n.good
            ring := (s.sensor.ring ++ [f]).drop (s.sensor.ring.length + 1 - 8) })
      ∧ (parityGood (ws ++ [w]) p = true → n.link = .hunt → n.good = 0 → ∃ t, exec (.sensorWord w false parity) s = .next t
        ∧ t.sensor = { n with assembler := .outside false false, good := 1 })
      ∧ (parityGood (ws ++ [w]) p = false → ∃ t, exec (.sensorWord w false parity) s = .next t
        ∧ t.sensor = { n with
            assembler := .outside false false, parityErrors := satInc 65535 s.sensor.parityErrors
            link := .hunt, good := 0 }
        ∧ (s.sensor.link = .locked → s.anchor.attach = .attached → t.notice.pending.getLsbD 6 = true)))

/-- The SENSOR_WORD whose frame the LOCKED receiver accepts, in a measurement (R101): a frame of another epoch than the measurement's is
disregarded unless it is the motion unit's, which begins the measurement again with it; a light frame joins the sum; the last one gives
the measured error. Outside the window the unit steps against it and asks for the height (R104), or FAILs with NO_CONVERGE past the
iteration limit (R103) or OUT_OF_RANGE; the first error in the window asks for a second measurement, and the second ends the request
FOCUSED at its Z target, the zone of its point learning the height (R112). A dark frame goes on to the next position of the search in the
focus range, or FAILs with NO_SIGNAL when the budget is used up (R106). That a measurement begun again in a new epoch has no error in the
window before it (read from R103, which wants both at one height), and that it still counts as one at a search position if it did, are
the model's choices (log entry 39); that a dark measurement after a lit one at one height begins a new search is read from R107 (log
entry 44). -/
def Obligations.FocusedHeightIsLearned : Prop :=
  ∀ (s : State) (w : BitVec 16) (parity : Bool) (f : Summary), s.Accepts w f →
    (s.af.state ≠ .measure ∨ (f.epoch ≠ s.af.epoch ∧ f.epoch ≠ s.motion.epoch) → ∃ u, exec (.sensorWord w false parity) s = .next (s.after u)
      ∧ u.af = s.af ∧ u.focusMap = s.focusMap ∧ u.scratch.msgs = [])
    ∧ ∀ (r : FocusRequest) (c : Recipe) (b : Autofocus), s.af.state = .measure → s.af.request = some r → c = s.recipe r.wafer.slot →
      (f.epoch = s.af.epoch ∧ b = s.af)
        ∨ (f.epoch ≠ s.af.epoch ∧ f.epoch = s.motion.epoch ∧ b = { s.af with epoch := f.epoch, taken := 0, sum := 0, inWindow := 0 }) →
      ∃ u t, exec (.sensorWord w false parity) s = .next t ∧ t = s.after u
      ∧ (f.dark = false → (b.taken : Int) + 1 < c.framesPerMeasurement →
          u.af = { b with taken := b.taken + 1, sum := b.sum + f.e } ∧ u.scratch.msgs = [])
      ∧ (∀ e, f.dark = false → c.framesPerMeasurement ≤ (b.taken : Int) + 1 → e = rnd (b.sum + f.e) (b.taken + 1) →
        (e.natAbs ≤ c.focusWindow → b.inWindow = 0 → u.af = { b with
            taken := 0, sum := 0, inWindow := 1, atSearch := false, startMark := some f.sequence, zReq := none }
          ∧ u.scratch.msgs = [])
        ∧ (e.natAbs ≤ c.focusWindow → 1 ≤ b.inWindow →
          u.af.state = .focused ∧ u.af.outcome = some (.focused b.zTarget) ∧ u.af.timer = none
          ∧ u.scratch.msgs = [.focusAnswer r.requester (.focused b.zTarget)]
          ∧ (∀ z, s.focusMap[zoneOf r.point]? = some z → t.focusMap[zoneOf r.point]? = some (
              if z.valid then ⟨true, rnd (3 * z.z + b.zTarget) 4, satInc 255 z.samples⟩ else ⟨true, b.zTarget, 1⟩))
          ∧ (∀ j, j ≠ zoneOf r.point → t.focusMap[j]? = s.focusMap[j]?))
        ∧ (c.focusWindow < e.natAbs → c.iterationLimit < (b.iterations : Int) + 1 → u.af.state = .failed
          ∧ u.af.outcome = some (.failed .noConverge) ∧ u.scratch.msgs = [.focusAnswer r.requester (.failed .noConverge)])
        ∧ (∀ z, c.focusWindow < e.natAbs → (b.iterations : Int) + 1 ≤ c.iterationLimit →
            z = b.zTarget - clamp (-c.stepMaximum) c.stepMaximum (rnd (e * c.focusGain) 32768) →
          (c.zLow ≤ z → z ≤ c.zHigh → u.af = { b with
              state := .step, zTarget := z, taken := b.taken + 1, sum := b.sum + f.e, inWindow := 0, iterations := b.iterations + 1
              atSearch := false, zReq := some s.motion.nextReq }
            ∧ (s.motion.z.state = .idle → 0 ≤ z → z ≤ 3000000 → u.motion.zGroup.order
                = some ⟨s.motion.tag, .move (.z z), ⟨s.clock, 2000⟩, [⟨.autofocus, s.motion.nextReq⟩]⟩))
          ∧ (z < c.zLow ∨ c.zHigh < z → u.af.state = .failed
            ∧ u.af.outcome = some (.failed .outOfRange) ∧ u.scratch.msgs = [.focusAnswer r.requester (.failed .outOfRange)])))
      ∧ (∀ (centre : Int) (i inW : Nat) (at_ : Nat → Int), f.dark = true →
          (b.atSearch = true ∧ centre = b.centre ∧ i = b.index ∧ inW = b.inWindow)
            ∨ (b.atSearch = false ∧ centre = b.zTarget ∧ i = 0 ∧ inW = 0) →
          (∀ n, at_ n = if n % 2 = 1 then centre + ((n + 1) / 2 : Nat) * c.searchStep else centre - (n / 2 : Nat) * c.searchStep) →
        (∀ m, i < m → m ≤ i + b.budget → c.zLow ≤ at_ m → at_ m ≤ c.zHigh →
            (∀ n, i < n → n < m → at_ n < c.zLow ∨ c.zHigh < at_ n) → u.af = { b with
            state := .search, zTarget := at_ m, taken := 0, sum := 0, inWindow := inW, centre := centre, index := m
            budget := i + b.budget - m, atSearch := true, zReq := some s.motion.nextReq })
        ∧ ((∀ n, i < n → n ≤ i + b.budget → at_ n < c.zLow ∨ c.zHigh < at_ n) → u.af.state = .failed
          ∧ u.af.outcome = some (.failed .noSignal) ∧ u.scratch.msgs = [.focusAnswer r.requester (.failed .noSignal)]))

/-- SILENCE_TIMER_EXPIRY when the timer is due: the link is DOWN, the ring and the partial frame are dropped uncounted, the timer is
stopped, and a LOCKED link raises LINK_LOST. Every SENSOR_WORD starts the 2 ms timer in place of the running one. Of a word and an expiry
that come together, the word taken first means that the expiry does not happen; the expiry taken first means that the word takes the
link to HUNT, and begins a frame if it is a MARK word and is discarded uncounted if not. -/
def Obligations.SilenceTakesTheLinkDown : Prop :=
  ∀ s : State,
    (∀ t0 : Timer, s.sensor.silence = some t0 → t0.due s.clock = true → ∃ t, exec .silenceTimerExpiry s = .next t
      ∧ t.content = ({ (if s.sensor.link = .locked then s.raise .linkLost else s) with
          out := []
          sensor := { s.sensor with
            link := .down, good := 0, assembler := .outside true false, ring := [], silence := none } } : State).content
      ∧ ∀ w mark parity, ∃ v, exec (.sensorWord w mark parity) t = .next v ∧ v.sensor = { t.sensor with
          link := .hunt, silence := some ⟨s.clock, 2⟩
          assembler := if mark then .inside [w] parity s.motion.epoch else .outside true false })
    ∧ (∀ w mark parity, ∃ t u, exec (.sensorWord w mark parity) s = .next t ∧ t.sensor.silence = some ⟨s.clock, 2⟩
      ∧ exec .silenceTimerExpiry t = .next u ∧ u.content = ({ t with out := [] } : State).content)

/-- AUTOFOCUS_TIMER_EXPIRY of an active request, when the timer is due: it ends FAILED, with TIMEOUT while the link is LOCKED and LINK
otherwise, and its requester is answered. And the answer that the revisit unit takes in phase FOCUS: FAILED counts an attempt, and the
entry starts again from phase MOVE at the nominal height, or past the retry limit ends FOCUS_FAIL with the autofocus reason (R147);
FOCUSED is the entry's focus Z, and its grab is asked for. Before the timer is due nothing happens: that the command then changes
nothing, and SILENCE_TIMER_EXPIRY before its own timer is due, is the model's choice (log entry 2). -/
def Obligations.AutofocusExpiryFailsTheRequest : Prop :=
  (∀ (s : State) (t : Timer) (r : FocusRequest) (why : FocusReason), s.af.timer = some t → s.af.request = some r →
    s.af.state ∈ [.prefocus, .measure, .step, .search] → why = (if s.sensor.link = .locked then .timeout else .link) →
    (t.due s.clock = true → exec .autofocusTimerExpiry s = .next (s.after { s.begin with
      af := { s.af with state := .failed, outcome := some (.failed why), timer := none, zReq := none }
      scratch := { Scratch.empty with msgs := [.focusAnswer r.requester (.failed why)] } }))
    ∧ (t.due s.clock = false → ∃ t', exec .autofocusTimerExpiry s = .next t' ∧ t'.content = ({ s with out := [] } : State).content))
  ∧ (∀ s : State, (∀ t, s.sensor.silence = some t → t.due s.clock = false) → ∃ t', exec .silenceTimerExpiry s = .next t'
      ∧ t'.content = ({ s with out := [] } : State).content)
  ∧ ∀ (s : State) (a : ActiveRevisit) (e : Entry) (c : Recipe), s.revisit.active = some a → a.phase = .focus →
    s.storeEntry a.slot a.index = some e → e.state = .active → c = s.recipe e.slot →
    (∀ (why : FocusReason) (u : State), u = s.deliver (.focusAnswer .revisit (.failed why)) →
      ((e.attempts : Int) + 1 ≤ c.retryLimit → u.storeEntry a.slot a.index = some { e with attempts := e.attempts + 1 }
        ∧ u.revisit.active = some { a with
            phase := .move, lastFailure := some (.focus why), startZ := c.nominalZ
            xyReq := some ⟨s.motion.nextReq, false⟩, zReq := some ⟨s.motion.nextReq + 1, false⟩ })
      ∧ (c.retryLimit < (e.attempts : Int) + 1 → u.storeEntry a.slot a.index
          = some { e with attempts := e.attempts + 1, state := .focusFail, reason := why.entry }
        ∧ u.revisit.active = none ∧ u.scratch.msgs = s.scratch.msgs ++ [.lookAtList]))
    ∧ (∀ (z : Int) (u : State), u = s.deliver (.focusAnswer .revisit (.focused z)) →
      u.storeEntry a.slot a.index = some { e with focusZ := z } ∧ u.revisit.active = some { a with phase := .grab }
      ∧ (s.grab.outstanding = none → u.grab.outstanding
          = some ⟨s.grab.tag, ⟨.defect, e.hostReference, c.framesPerGrab.toNat⟩, ⟨s.clock, 3000⟩, false⟩))

/-- POSTING_WAIT_EXPIRY when the timer is due: the review ends normally with the timeout flag set: the wafer's pending result is REVIEWED,
it leaves ON_STAGE for REVIEW_ENDED, and its OPEN row shows the timeout. Before the timer is due nothing happens: that the command then
changes nothing is the model's choice (log entry 2). -/
def Obligations.PostingWaitExpiryEndsTheReview : Prop :=
  ∀ (s : State) (t0 : Timer) (w : WaferName), s.revisit.timer = some t0 → s.revisit.wafer = some w →
    (t0.due s.clock = true → ∃ u t, exec .postingWaitExpiry s = .next t ∧ t = s.after u
      ∧ (∀ x, s.wafer w = some x → ∃ y, u.wafer w = some y ∧ y.pendingResult = some .reviewed)
      ∧ (∀ r, s.row w = some r → r.state = .opened → ∃ r', u.row w = some r' ∧ r'.postingTimeout = true)
      ∧ u.revisit.active = none ∧ u.revisit.timer = none
      ∧ t.revisit.review = .ended ∧ (s.waferState w = some .onStage → t.waferState w = some .reviewEnded)
      ∧ t.content.kept = ({ s with
          out := []
          revisit := { s.revisit with timeoutFlag := true } } : State).content.kept)
    ∧ (t0.due s.clock = false → ∃ t, exec .postingWaitExpiry s = .next t ∧ t.content = ({ s with out := [] } : State).content)

/-! ## Lists -/

/-- A wafer's list holds exactly the QUEUED records of its OPEN row, each once, and no record stands before one that list order puts
first. -/
def Obligations.RevisitListStandsInListOrder : Prop :=
  ∀ (s : State) (w : WaferName),
    (s.queuedOf w).Perm (s.revisit.store.filter fun e => decide (e.wafer = w ∧ e.state = .queued) && !e.rowClosed)
    ∧ (s.queuedOf w).Pairwise fun e f => f.before e = false
end

