-- ==== Sys2Proof/Laws/State.lean ====
section
/-! SUPPORT. For each update of State: each field after it, true by definition, so that no later proof unfolds a record update. -/

namespace Sys2Proof.Machine

variable (s : State)

@[simp] theorem State.setLot_pending (k : Slot) (l : Lot) : (s.setLot k l).pending = s.pending := rfl
@[simp] theorem State.setLot_clock (k : Slot) (l : Lot) : (s.setLot k l).clock = s.clock := rfl
@[simp] theorem State.setLot_cell (k : Slot) (l : Lot) : (s.setLot k l).cell = s.cell := rfl
@[simp] theorem State.setLot_lots (k : Slot) (l : Lot) : (s.setLot k l).lots = s.lots.set k l := rfl
@[simp] theorem State.setLot_reports (k : Slot) (l : Lot) : (s.setLot k l).reports = s.reports := rfl
@[simp] theorem State.setLot_classTable (k : Slot) (l : Lot) : (s.setLot k l).classTable = s.classTable := rfl
@[simp] theorem State.setLot_handling (k : Slot) (l : Lot) : (s.setLot k l).handling = s.handling := rfl
@[simp] theorem State.setLot_motion (k : Slot) (l : Lot) : (s.setLot k l).motion = s.motion := rfl
@[simp] theorem State.setLot_align (k : Slot) (l : Lot) : (s.setLot k l).align = s.align := rfl
@[simp] theorem State.setLot_sensor (k : Slot) (l : Lot) : (s.setLot k l).sensor = s.sensor := rfl
@[simp] theorem State.setLot_af (k : Slot) (l : Lot) : (s.setLot k l).af = s.af := rfl
@[simp] theorem State.setLot_focusMap (k : Slot) (l : Lot) : (s.setLot k l).focusMap = s.focusMap := rfl
@[simp] theorem State.setLot_revisit (k : Slot) (l : Lot) : (s.setLot k l).revisit = s.revisit := rfl
@[simp] theorem State.setLot_grab (k : Slot) (l : Lot) : (s.setLot k l).grab = s.grab := rfl
@[simp] theorem State.setLot_anchor (k : Slot) (l : Lot) : (s.setLot k l).anchor = s.anchor := rfl
@[simp] theorem State.setLot_notice (k : Slot) (l : Lot) : (s.setLot k l).notice = s.notice := rfl
@[simp] theorem State.setLot_path (k : Slot) (l : Lot) : (s.setLot k l).path = s.path := rfl
@[simp] theorem State.setLot_wb (k : Slot) (l : Lot) : (s.setLot k l).wb = s.wb := rfl
@[simp] theorem State.setLot_mport (k : Slot) (l : Lot) : (s.setLot k l).mport = s.mport := rfl
@[simp] theorem State.setLot_mem (k : Slot) (l : Lot) : (s.setLot k l).mem = s.mem := rfl
@[simp] theorem State.setLot_out (k : Slot) (l : Lot) : (s.setLot k l).out = s.out := rfl
@[simp] theorem State.setLot_free (k : Slot) (l : Lot) : (s.setLot k l).free = s.free := rfl
@[simp] theorem State.setLot_scratch (k : Slot) (l : Lot) : (s.setLot k l).scratch = s.scratch := rfl

@[simp] theorem State.modLot_pending (k : Slot) (f : Lot → Lot) : (s.modLot k f).pending = s.pending := rfl
@[simp] theorem State.modLot_clock (k : Slot) (f : Lot → Lot) : (s.modLot k f).clock = s.clock := rfl
@[simp] theorem State.modLot_cell (k : Slot) (f : Lot → Lot) : (s.modLot k f).cell = s.cell := rfl
@[simp] theorem State.modLot_lots (k : Slot) (f : Lot → Lot) : (s.modLot k f).lots = s.lots.set k (f (s.lots.get k)) := rfl
@[simp] theorem State.modLot_reports (k : Slot) (f : Lot → Lot) : (s.modLot k f).reports = s.reports := rfl
@[simp] theorem State.modLot_classTable (k : Slot) (f : Lot → Lot) : (s.modLot k f).classTable = s.classTable := rfl
@[simp] theorem State.modLot_handling (k : Slot) (f : Lot → Lot) : (s.modLot k f).handling = s.handling := rfl
@[simp] theorem State.modLot_motion (k : Slot) (f : Lot → Lot) : (s.modLot k f).motion = s.motion := rfl
@[simp] theorem State.modLot_align (k : Slot) (f : Lot → Lot) : (s.modLot k f).align = s.align := rfl
@[simp] theorem State.modLot_sensor (k : Slot) (f : Lot → Lot) : (s.modLot k f).sensor = s.sensor := rfl
@[simp] theorem State.modLot_af (k : Slot) (f : Lot → Lot) : (s.modLot k f).af = s.af := rfl
@[simp] theorem State.modLot_focusMap (k : Slot) (f : Lot → Lot) : (s.modLot k f).focusMap = s.focusMap := rfl
@[simp] theorem State.modLot_revisit (k : Slot) (f : Lot → Lot) : (s.modLot k f).revisit = s.revisit := rfl
@[simp] theorem State.modLot_grab (k : Slot) (f : Lot → Lot) : (s.modLot k f).grab = s.grab := rfl
@[simp] theorem State.modLot_anchor (k : Slot) (f : Lot → Lot) : (s.modLot k f).anchor = s.anchor := rfl
@[simp] theorem State.modLot_notice (k : Slot) (f : Lot → Lot) : (s.modLot k f).notice = s.notice := rfl
@[simp] theorem State.modLot_path (k : Slot) (f : Lot → Lot) : (s.modLot k f).path = s.path := rfl
@[simp] theorem State.modLot_wb (k : Slot) (f : Lot → Lot) : (s.modLot k f).wb = s.wb := rfl
@[simp] theorem State.modLot_mport (k : Slot) (f : Lot → Lot) : (s.modLot k f).mport = s.mport := rfl
@[simp] theorem State.modLot_mem (k : Slot) (f : Lot → Lot) : (s.modLot k f).mem = s.mem := rfl
@[simp] theorem State.modLot_out (k : Slot) (f : Lot → Lot) : (s.modLot k f).out = s.out := rfl
@[simp] theorem State.modLot_free (k : Slot) (f : Lot → Lot) : (s.modLot k f).free = s.free := rfl
@[simp] theorem State.modLot_scratch (k : Slot) (f : Lot → Lot) : (s.modLot k f).scratch = s.scratch := rfl

@[simp] theorem State.modWafer_pending (w : WaferName) (f : Wafer → Wafer) : (s.modWafer w f).pending = s.pending := rfl
@[simp] theorem State.modWafer_clock (w : WaferName) (f : Wafer → Wafer) : (s.modWafer w f).clock = s.clock := rfl
@[simp] theorem State.modWafer_cell (w : WaferName) (f : Wafer → Wafer) : (s.modWafer w f).cell = s.cell := rfl
@[simp] theorem State.modWafer_reports (w : WaferName) (f : Wafer → Wafer) : (s.modWafer w f).reports = s.reports := rfl
@[simp] theorem State.modWafer_classTable (w : WaferName) (f : Wafer → Wafer) : (s.modWafer w f).classTable = s.classTable := rfl
@[simp] theorem State.modWafer_handling (w : WaferName) (f : Wafer → Wafer) : (s.modWafer w f).handling = s.handling := rfl
@[simp] theorem State.modWafer_motion (w : WaferName) (f : Wafer → Wafer) : (s.modWafer w f).motion = s.motion := rfl
@[simp] theorem State.modWafer_align (w : WaferName) (f : Wafer → Wafer) : (s.modWafer w f).align = s.align := rfl
@[simp] theorem State.modWafer_sensor (w : WaferName) (f : Wafer → Wafer) : (s.modWafer w f).sensor = s.sensor := rfl
@[simp] theorem State.modWafer_af (w : WaferName) (f : Wafer → Wafer) : (s.modWafer w f).af = s.af := rfl
@[simp] theorem State.modWafer_focusMap (w : WaferName) (f : Wafer → Wafer) : (s.modWafer w f).focusMap = s.focusMap := rfl
@[simp] theorem State.modWafer_revisit (w : WaferName) (f : Wafer → Wafer) : (s.modWafer w f).revisit = s.revisit := rfl
@[simp] theorem State.modWafer_grab (w : WaferName) (f : Wafer → Wafer) : (s.modWafer w f).grab = s.grab := rfl
@[simp] theorem State.modWafer_anchor (w : WaferName) (f : Wafer → Wafer) : (s.modWafer w f).anchor = s.anchor := rfl
@[simp] theorem State.modWafer_notice (w : WaferName) (f : Wafer → Wafer) : (s.modWafer w f).notice = s.notice := rfl
@[simp] theorem State.modWafer_path (w : WaferName) (f : Wafer → Wafer) : (s.modWafer w f).path = s.path := rfl
@[simp] theorem State.modWafer_wb (w : WaferName) (f : Wafer → Wafer) : (s.modWafer w f).wb = s.wb := rfl
@[simp] theorem State.modWafer_mport (w : WaferName) (f : Wafer → Wafer) : (s.modWafer w f).mport = s.mport := rfl
@[simp] theorem State.modWafer_mem (w : WaferName) (f : Wafer → Wafer) : (s.modWafer w f).mem = s.mem := rfl
@[simp] theorem State.modWafer_out (w : WaferName) (f : Wafer → Wafer) : (s.modWafer w f).out = s.out := rfl
@[simp] theorem State.modWafer_free (w : WaferName) (f : Wafer → Wafer) : (s.modWafer w f).free = s.free := rfl
@[simp] theorem State.modWafer_scratch (w : WaferName) (f : Wafer → Wafer) : (s.modWafer w f).scratch = s.scratch := rfl

@[simp] theorem State.modReport_pending (k : Slot) (f : Report → Report) : (s.modReport k f).pending = s.pending := rfl
@[simp] theorem State.modReport_clock (k : Slot) (f : Report → Report) : (s.modReport k f).clock = s.clock := rfl
@[simp] theorem State.modReport_cell (k : Slot) (f : Report → Report) : (s.modReport k f).cell = s.cell := rfl
@[simp] theorem State.modReport_lots (k : Slot) (f : Report → Report) : (s.modReport k f).lots = s.lots := rfl
@[simp] theorem State.modReport_reports (k : Slot) (f : Report → Report) : (s.modReport k f).reports = s.reports.set k (f (s.reports.get k)) := rfl
@[simp] theorem State.modReport_classTable (k : Slot) (f : Report → Report) : (s.modReport k f).classTable = s.classTable := rfl
@[simp] theorem State.modReport_handling (k : Slot) (f : Report → Report) : (s.modReport k f).handling = s.handling := rfl
@[simp] theorem State.modReport_motion (k : Slot) (f : Report → Report) : (s.modReport k f).motion = s.motion := rfl
@[simp] theorem State.modReport_align (k : Slot) (f : Report → Report) : (s.modReport k f).align = s.align := rfl
@[simp] theorem State.modReport_sensor (k : Slot) (f : Report → Report) : (s.modReport k f).sensor = s.sensor := rfl
@[simp] theorem State.modReport_af (k : Slot) (f : Report → Report) : (s.modReport k f).af = s.af := rfl
@[simp] theorem State.modReport_focusMap (k : Slot) (f : Report → Report) : (s.modReport k f).focusMap = s.focusMap := rfl
@[simp] theorem State.modReport_revisit (k : Slot) (f : Report → Report) : (s.modReport k f).revisit = s.revisit := rfl
@[simp] theorem State.modReport_grab (k : Slot) (f : Report → Report) : (s.modReport k f).grab = s.grab := rfl
@[simp] theorem State.modReport_anchor (k : Slot) (f : Report → Report) : (s.modReport k f).anchor = s.anchor := rfl
@[simp] theorem State.modReport_notice (k : Slot) (f : Report → Report) : (s.modReport k f).notice = s.notice := rfl
@[simp] theorem State.modReport_path (k : Slot) (f : Report → Report) : (s.modReport k f).path = s.path := rfl
@[simp] theorem State.modReport_wb (k : Slot) (f : Report → Report) : (s.modReport k f).wb = s.wb := rfl
@[simp] theorem State.modReport_mport (k : Slot) (f : Report → Report) : (s.modReport k f).mport = s.mport := rfl
@[simp] theorem State.modReport_mem (k : Slot) (f : Report → Report) : (s.modReport k f).mem = s.mem := rfl
@[simp] theorem State.modReport_out (k : Slot) (f : Report → Report) : (s.modReport k f).out = s.out := rfl
@[simp] theorem State.modReport_free (k : Slot) (f : Report → Report) : (s.modReport k f).free = s.free := rfl
@[simp] theorem State.modReport_scratch (k : Slot) (f : Report → Report) : (s.modReport k f).scratch = s.scratch := rfl

@[simp] theorem State.modRow_pending (w : WaferName) (f : Row → Row) : (s.modRow w f).pending = s.pending := rfl
@[simp] theorem State.modRow_clock (w : WaferName) (f : Row → Row) : (s.modRow w f).clock = s.clock := rfl
@[simp] theorem State.modRow_cell (w : WaferName) (f : Row → Row) : (s.modRow w f).cell = s.cell := rfl
@[simp] theorem State.modRow_lots (w : WaferName) (f : Row → Row) : (s.modRow w f).lots = s.lots := rfl
@[simp] theorem State.modRow_classTable (w : WaferName) (f : Row → Row) : (s.modRow w f).classTable = s.classTable := rfl
@[simp] theorem State.modRow_handling (w : WaferName) (f : Row → Row) : (s.modRow w f).handling = s.handling := rfl
@[simp] theorem State.modRow_motion (w : WaferName) (f : Row → Row) : (s.modRow w f).motion = s.motion := rfl
@[simp] theorem State.modRow_align (w : WaferName) (f : Row → Row) : (s.modRow w f).align = s.align := rfl
@[simp] theorem State.modRow_sensor (w : WaferName) (f : Row → Row) : (s.modRow w f).sensor = s.sensor := rfl
@[simp] theorem State.modRow_af (w : WaferName) (f : Row → Row) : (s.modRow w f).af = s.af := rfl
@[simp] theorem State.modRow_focusMap (w : WaferName) (f : Row → Row) : (s.modRow w f).focusMap = s.focusMap := rfl
@[simp] theorem State.modRow_revisit (w : WaferName) (f : Row → Row) : (s.modRow w f).revisit = s.revisit := rfl
@[simp] theorem State.modRow_grab (w : WaferName) (f : Row → Row) : (s.modRow w f).grab = s.grab := rfl
@[simp] theorem State.modRow_anchor (w : WaferName) (f : Row → Row) : (s.modRow w f).anchor = s.anchor := rfl
@[simp] theorem State.modRow_notice (w : WaferName) (f : Row → Row) : (s.modRow w f).notice = s.notice := rfl
@[simp] theorem State.modRow_path (w : WaferName) (f : Row → Row) : (s.modRow w f).path = s.path := rfl
@[simp] theorem State.modRow_wb (w : WaferName) (f : Row → Row) : (s.modRow w f).wb = s.wb := rfl
@[simp] theorem State.modRow_mport (w : WaferName) (f : Row → Row) : (s.modRow w f).mport = s.mport := rfl
@[simp] theorem State.modRow_mem (w : WaferName) (f : Row → Row) : (s.modRow w f).mem = s.mem := rfl
@[simp] theorem State.modRow_out (w : WaferName) (f : Row → Row) : (s.modRow w f).out = s.out := rfl
@[simp] theorem State.modRow_free (w : WaferName) (f : Row → Row) : (s.modRow w f).free = s.free := rfl
@[simp] theorem State.modRow_scratch (w : WaferName) (f : Row → Row) : (s.modRow w f).scratch = s.scratch := rfl

@[simp] theorem State.enter_pending (w : WaferName) (f : Row → Row) : (s.enter w f).pending = s.pending := rfl
@[simp] theorem State.enter_clock (w : WaferName) (f : Row → Row) : (s.enter w f).clock = s.clock := rfl
@[simp] theorem State.enter_cell (w : WaferName) (f : Row → Row) : (s.enter w f).cell = s.cell := rfl
@[simp] theorem State.enter_lots (w : WaferName) (f : Row → Row) : (s.enter w f).lots = s.lots := rfl
@[simp] theorem State.enter_classTable (w : WaferName) (f : Row → Row) : (s.enter w f).classTable = s.classTable := rfl
@[simp] theorem State.enter_handling (w : WaferName) (f : Row → Row) : (s.enter w f).handling = s.handling := rfl
@[simp] theorem State.enter_motion (w : WaferName) (f : Row → Row) : (s.enter w f).motion = s.motion := rfl
@[simp] theorem State.enter_align (w : WaferName) (f : Row → Row) : (s.enter w f).align = s.align := rfl
@[simp] theorem State.enter_sensor (w : WaferName) (f : Row → Row) : (s.enter w f).sensor = s.sensor := rfl
@[simp] theorem State.enter_af (w : WaferName) (f : Row → Row) : (s.enter w f).af = s.af := rfl
@[simp] theorem State.enter_focusMap (w : WaferName) (f : Row → Row) : (s.enter w f).focusMap = s.focusMap := rfl
@[simp] theorem State.enter_revisit (w : WaferName) (f : Row → Row) : (s.enter w f).revisit = s.revisit := rfl
@[simp] theorem State.enter_grab (w : WaferName) (f : Row → Row) : (s.enter w f).grab = s.grab := rfl
@[simp] theorem State.enter_anchor (w : WaferName) (f : Row → Row) : (s.enter w f).anchor = s.anchor := rfl
@[simp] theorem State.enter_notice (w : WaferName) (f : Row → Row) : (s.enter w f).notice = s.notice := rfl
@[simp] theorem State.enter_path (w : WaferName) (f : Row → Row) : (s.enter w f).path = s.path := rfl
@[simp] theorem State.enter_wb (w : WaferName) (f : Row → Row) : (s.enter w f).wb = s.wb := rfl
@[simp] theorem State.enter_mport (w : WaferName) (f : Row → Row) : (s.enter w f).mport = s.mport := rfl
@[simp] theorem State.enter_mem (w : WaferName) (f : Row → Row) : (s.enter w f).mem = s.mem := rfl
@[simp] theorem State.enter_out (w : WaferName) (f : Row → Row) : (s.enter w f).out = s.out := rfl
@[simp] theorem State.enter_free (w : WaferName) (f : Row → Row) : (s.enter w f).free = s.free := rfl
@[simp] theorem State.enter_scratch (w : WaferName) (f : Row → Row) : (s.enter w f).scratch = s.scratch := rfl

@[simp] theorem State.setHandling_pending (h : Handling) : (s.setHandling h).pending = s.pending := rfl
@[simp] theorem State.setHandling_clock (h : Handling) : (s.setHandling h).clock = s.clock := rfl
@[simp] theorem State.setHandling_cell (h : Handling) : (s.setHandling h).cell = s.cell := rfl
@[simp] theorem State.setHandling_lots (h : Handling) : (s.setHandling h).lots = s.lots := rfl
@[simp] theorem State.setHandling_reports (h : Handling) : (s.setHandling h).reports = s.reports := rfl
@[simp] theorem State.setHandling_classTable (h : Handling) : (s.setHandling h).classTable = s.classTable := rfl
@[simp] theorem State.setHandling_handling (h : Handling) : (s.setHandling h).handling = h := rfl
@[simp] theorem State.setHandling_motion (h : Handling) : (s.setHandling h).motion = s.motion := rfl
@[simp] theorem State.setHandling_align (h : Handling) : (s.setHandling h).align = s.align := rfl
@[simp] theorem State.setHandling_sensor (h : Handling) : (s.setHandling h).sensor = s.sensor := rfl
@[simp] theorem State.setHandling_af (h : Handling) : (s.setHandling h).af = s.af := rfl
@[simp] theorem State.setHandling_focusMap (h : Handling) : (s.setHandling h).focusMap = s.focusMap := rfl
@[simp] theorem State.setHandling_revisit (h : Handling) : (s.setHandling h).revisit = s.revisit := rfl
@[simp] theorem State.setHandling_grab (h : Handling) : (s.setHandling h).grab = s.grab := rfl
@[simp] theorem State.setHandling_anchor (h : Handling) : (s.setHandling h).anchor = s.anchor := rfl
@[simp] theorem State.setHandling_notice (h : Handling) : (s.setHandling h).notice = s.notice := rfl
@[simp] theorem State.setHandling_path (h : Handling) : (s.setHandling h).path = s.path := rfl
@[simp] theorem State.setHandling_wb (h : Handling) : (s.setHandling h).wb = s.wb := rfl
@[simp] theorem State.setHandling_mport (h : Handling) : (s.setHandling h).mport = s.mport := rfl
@[simp] theorem State.setHandling_mem (h : Handling) : (s.setHandling h).mem = s.mem := rfl
@[simp] theorem State.setHandling_out (h : Handling) : (s.setHandling h).out = s.out := rfl
@[simp] theorem State.setHandling_free (h : Handling) : (s.setHandling h).free = s.free := rfl
@[simp] theorem State.setHandling_scratch (h : Handling) : (s.setHandling h).scratch = s.scratch := rfl

@[simp] theorem State.setAt_pending (l : Loc) (o : Occupant) : (s.setAt l o).pending = s.pending := rfl
@[simp] theorem State.setAt_clock (l : Loc) (o : Occupant) : (s.setAt l o).clock = s.clock := rfl
@[simp] theorem State.setAt_cell (l : Loc) (o : Occupant) : (s.setAt l o).cell = s.cell := rfl
@[simp] theorem State.setAt_lots (l : Loc) (o : Occupant) : (s.setAt l o).lots = s.lots := rfl
@[simp] theorem State.setAt_reports (l : Loc) (o : Occupant) : (s.setAt l o).reports = s.reports := rfl
@[simp] theorem State.setAt_classTable (l : Loc) (o : Occupant) : (s.setAt l o).classTable = s.classTable := rfl
@[simp] theorem State.setAt_handling (l : Loc) (o : Occupant) : (s.setAt l o).handling = { s.handling with table := s.handling.table.set l o } := rfl
@[simp] theorem State.setAt_motion (l : Loc) (o : Occupant) : (s.setAt l o).motion = s.motion := rfl
@[simp] theorem State.setAt_align (l : Loc) (o : Occupant) : (s.setAt l o).align = s.align := rfl
@[simp] theorem State.setAt_sensor (l : Loc) (o : Occupant) : (s.setAt l o).sensor = s.sensor := rfl
@[simp] theorem State.setAt_af (l : Loc) (o : Occupant) : (s.setAt l o).af = s.af := rfl
@[simp] theorem State.setAt_focusMap (l : Loc) (o : Occupant) : (s.setAt l o).focusMap = s.focusMap := rfl
@[simp] theorem State.setAt_revisit (l : Loc) (o : Occupant) : (s.setAt l o).revisit = s.revisit := rfl
@[simp] theorem State.setAt_grab (l : Loc) (o : Occupant) : (s.setAt l o).grab = s.grab := rfl
@[simp] theorem State.setAt_anchor (l : Loc) (o : Occupant) : (s.setAt l o).anchor = s.anchor := rfl
@[simp] theorem State.setAt_notice (l : Loc) (o : Occupant) : (s.setAt l o).notice = s.notice := rfl
@[simp] theorem State.setAt_path (l : Loc) (o : Occupant) : (s.setAt l o).path = s.path := rfl
@[simp] theorem State.setAt_wb (l : Loc) (o : Occupant) : (s.setAt l o).wb = s.wb := rfl
@[simp] theorem State.setAt_mport (l : Loc) (o : Occupant) : (s.setAt l o).mport = s.mport := rfl
@[simp] theorem State.setAt_mem (l : Loc) (o : Occupant) : (s.setAt l o).mem = s.mem := rfl
@[simp] theorem State.setAt_out (l : Loc) (o : Occupant) : (s.setAt l o).out = s.out := rfl
@[simp] theorem State.setAt_free (l : Loc) (o : Occupant) : (s.setAt l o).free = s.free := rfl
@[simp] theorem State.setAt_scratch (l : Loc) (o : Occupant) : (s.setAt l o).scratch = s.scratch := rfl

@[simp] theorem State.setMotion_pending (m : Motion) : (s.setMotion m).pending = s.pending := rfl
@[simp] theorem State.setMotion_clock (m : Motion) : (s.setMotion m).clock = s.clock := rfl
@[simp] theorem State.setMotion_cell (m : Motion) : (s.setMotion m).cell = s.cell := rfl
@[simp] theorem State.setMotion_lots (m : Motion) : (s.setMotion m).lots = s.lots := rfl
@[simp] theorem State.setMotion_reports (m : Motion) : (s.setMotion m).reports = s.reports := rfl
@[simp] theorem State.setMotion_classTable (m : Motion) : (s.setMotion m).classTable = s.classTable := rfl
@[simp] theorem State.setMotion_handling (m : Motion) : (s.setMotion m).handling = s.handling := rfl
@[simp] theorem State.setMotion_motion (m : Motion) : (s.setMotion m).motion = m := rfl
@[simp] theorem State.setMotion_align (m : Motion) : (s.setMotion m).align = s.align := rfl
@[simp] theorem State.setMotion_sensor (m : Motion) : (s.setMotion m).sensor = s.sensor := rfl
@[simp] theorem State.setMotion_af (m : Motion) : (s.setMotion m).af = s.af := rfl
@[simp] theorem State.setMotion_focusMap (m : Motion) : (s.setMotion m).focusMap = s.focusMap := rfl
@[simp] theorem State.setMotion_revisit (m : Motion) : (s.setMotion m).revisit = s.revisit := rfl
@[simp] theorem State.setMotion_grab (m : Motion) : (s.setMotion m).grab = s.grab := rfl
@[simp] theorem State.setMotion_anchor (m : Motion) : (s.setMotion m).anchor = s.anchor := rfl
@[simp] theorem State.setMotion_notice (m : Motion) : (s.setMotion m).notice = s.notice := rfl
@[simp] theorem State.setMotion_path (m : Motion) : (s.setMotion m).path = s.path := rfl
@[simp] theorem State.setMotion_wb (m : Motion) : (s.setMotion m).wb = s.wb := rfl
@[simp] theorem State.setMotion_mport (m : Motion) : (s.setMotion m).mport = s.mport := rfl
@[simp] theorem State.setMotion_mem (m : Motion) : (s.setMotion m).mem = s.mem := rfl
@[simp] theorem State.setMotion_out (m : Motion) : (s.setMotion m).out = s.out := rfl
@[simp] theorem State.setMotion_free (m : Motion) : (s.setMotion m).free = s.free := rfl
@[simp] theorem State.setMotion_scratch (m : Motion) : (s.setMotion m).scratch = s.scratch := rfl

@[simp] theorem State.setGroup_pending (g : MotionGroup) (r : GroupRecord) : (s.setGroup g r).pending = s.pending := rfl
@[simp] theorem State.setGroup_clock (g : MotionGroup) (r : GroupRecord) : (s.setGroup g r).clock = s.clock := rfl
@[simp] theorem State.setGroup_cell (g : MotionGroup) (r : GroupRecord) : (s.setGroup g r).cell = s.cell := rfl
@[simp] theorem State.setGroup_lots (g : MotionGroup) (r : GroupRecord) : (s.setGroup g r).lots = s.lots := rfl
@[simp] theorem State.setGroup_reports (g : MotionGroup) (r : GroupRecord) : (s.setGroup g r).reports = s.reports := rfl
@[simp] theorem State.setGroup_classTable (g : MotionGroup) (r : GroupRecord) : (s.setGroup g r).classTable = s.classTable := rfl
@[simp] theorem State.setGroup_handling (g : MotionGroup) (r : GroupRecord) : (s.setGroup g r).handling = s.handling := rfl
@[simp] theorem State.setGroup_motion (g : MotionGroup) (r : GroupRecord) : (s.setGroup g r).motion = s.motion.setGroup g r := rfl
@[simp] theorem State.setGroup_align (g : MotionGroup) (r : GroupRecord) : (s.setGroup g r).align = s.align := rfl
@[simp] theorem State.setGroup_sensor (g : MotionGroup) (r : GroupRecord) : (s.setGroup g r).sensor = s.sensor := rfl
@[simp] theorem State.setGroup_af (g : MotionGroup) (r : GroupRecord) : (s.setGroup g r).af = s.af := rfl
@[simp] theorem State.setGroup_focusMap (g : MotionGroup) (r : GroupRecord) : (s.setGroup g r).focusMap = s.focusMap := rfl
@[simp] theorem State.setGroup_revisit (g : MotionGroup) (r : GroupRecord) : (s.setGroup g r).revisit = s.revisit := rfl
@[simp] theorem State.setGroup_grab (g : MotionGroup) (r : GroupRecord) : (s.setGroup g r).grab = s.grab := rfl
@[simp] theorem State.setGroup_anchor (g : MotionGroup) (r : GroupRecord) : (s.setGroup g r).anchor = s.anchor := rfl
@[simp] theorem State.setGroup_notice (g : MotionGroup) (r : GroupRecord) : (s.setGroup g r).notice = s.notice := rfl
@[simp] theorem State.setGroup_path (g : MotionGroup) (r : GroupRecord) : (s.setGroup g r).path = s.path := rfl
@[simp] theorem State.setGroup_wb (g : MotionGroup) (r : GroupRecord) : (s.setGroup g r).wb = s.wb := rfl
@[simp] theorem State.setGroup_mport (g : MotionGroup) (r : GroupRecord) : (s.setGroup g r).mport = s.mport := rfl
@[simp] theorem State.setGroup_mem (g : MotionGroup) (r : GroupRecord) : (s.setGroup g r).mem = s.mem := rfl
@[simp] theorem State.setGroup_out (g : MotionGroup) (r : GroupRecord) : (s.setGroup g r).out = s.out := rfl
@[simp] theorem State.setGroup_free (g : MotionGroup) (r : GroupRecord) : (s.setGroup g r).free = s.free := rfl
@[simp] theorem State.setGroup_scratch (g : MotionGroup) (r : GroupRecord) : (s.setGroup g r).scratch = s.scratch := rfl

@[simp] theorem State.takeRequest_pending : (s.takeRequest).pending = s.pending := rfl
@[simp] theorem State.takeRequest_clock : (s.takeRequest).clock = s.clock := rfl
@[simp] theorem State.takeRequest_cell : (s.takeRequest).cell = s.cell := rfl
@[simp] theorem State.takeRequest_lots : (s.takeRequest).lots = s.lots := rfl
@[simp] theorem State.takeRequest_reports : (s.takeRequest).reports = s.reports := rfl
@[simp] theorem State.takeRequest_classTable : (s.takeRequest).classTable = s.classTable := rfl
@[simp] theorem State.takeRequest_handling : (s.takeRequest).handling = s.handling := rfl
@[simp] theorem State.takeRequest_motion : (s.takeRequest).motion = { s.motion with nextReq := s.motion.nextReq + 1 } := rfl
@[simp] theorem State.takeRequest_align : (s.takeRequest).align = s.align := rfl
@[simp] theorem State.takeRequest_sensor : (s.takeRequest).sensor = s.sensor := rfl
@[simp] theorem State.takeRequest_af : (s.takeRequest).af = s.af := rfl
@[simp] theorem State.takeRequest_focusMap : (s.takeRequest).focusMap = s.focusMap := rfl
@[simp] theorem State.takeRequest_revisit : (s.takeRequest).revisit = s.revisit := rfl
@[simp] theorem State.takeRequest_grab : (s.takeRequest).grab = s.grab := rfl
@[simp] theorem State.takeRequest_anchor : (s.takeRequest).anchor = s.anchor := rfl
@[simp] theorem State.takeRequest_notice : (s.takeRequest).notice = s.notice := rfl
@[simp] theorem State.takeRequest_path : (s.takeRequest).path = s.path := rfl
@[simp] theorem State.takeRequest_wb : (s.takeRequest).wb = s.wb := rfl
@[simp] theorem State.takeRequest_mport : (s.takeRequest).mport = s.mport := rfl
@[simp] theorem State.takeRequest_mem : (s.takeRequest).mem = s.mem := rfl
@[simp] theorem State.takeRequest_out : (s.takeRequest).out = s.out := rfl
@[simp] theorem State.takeRequest_free : (s.takeRequest).free = s.free := rfl
@[simp] theorem State.takeRequest_scratch : (s.takeRequest).scratch = s.scratch := rfl

@[simp] theorem State.advanceEpoch_pending : (s.advanceEpoch).pending = s.pending := rfl
@[simp] theorem State.advanceEpoch_clock : (s.advanceEpoch).clock = s.clock := rfl
@[simp] theorem State.advanceEpoch_cell : (s.advanceEpoch).cell = s.cell := rfl
@[simp] theorem State.advanceEpoch_lots : (s.advanceEpoch).lots = s.lots := rfl
@[simp] theorem State.advanceEpoch_reports : (s.advanceEpoch).reports = s.reports := rfl
@[simp] theorem State.advanceEpoch_classTable : (s.advanceEpoch).classTable = s.classTable := rfl
@[simp] theorem State.advanceEpoch_handling : (s.advanceEpoch).handling = s.handling := rfl
@[simp] theorem State.advanceEpoch_motion : (s.advanceEpoch).motion = { s.motion with epoch := s.motion.epoch + 1 } := rfl
@[simp] theorem State.advanceEpoch_align : (s.advanceEpoch).align = s.align := rfl
@[simp] theorem State.advanceEpoch_sensor : (s.advanceEpoch).sensor = s.sensor := rfl
@[simp] theorem State.advanceEpoch_af : (s.advanceEpoch).af = s.af := rfl
@[simp] theorem State.advanceEpoch_focusMap : (s.advanceEpoch).focusMap = s.focusMap := rfl
@[simp] theorem State.advanceEpoch_revisit : (s.advanceEpoch).revisit = s.revisit := rfl
@[simp] theorem State.advanceEpoch_grab : (s.advanceEpoch).grab = s.grab := rfl
@[simp] theorem State.advanceEpoch_anchor : (s.advanceEpoch).anchor = s.anchor := rfl
@[simp] theorem State.advanceEpoch_notice : (s.advanceEpoch).notice = s.notice := rfl
@[simp] theorem State.advanceEpoch_path : (s.advanceEpoch).path = s.path := rfl
@[simp] theorem State.advanceEpoch_wb : (s.advanceEpoch).wb = s.wb := rfl
@[simp] theorem State.advanceEpoch_mport : (s.advanceEpoch).mport = s.mport := rfl
@[simp] theorem State.advanceEpoch_mem : (s.advanceEpoch).mem = s.mem := rfl
@[simp] theorem State.advanceEpoch_out : (s.advanceEpoch).out = s.out := rfl
@[simp] theorem State.advanceEpoch_free : (s.advanceEpoch).free = s.free := rfl
@[simp] theorem State.advanceEpoch_scratch : (s.advanceEpoch).scratch = s.scratch := rfl

@[simp] theorem State.setSensor_pending (n : Sensor) : (s.setSensor n).pending = s.pending := rfl
@[simp] theorem State.setSensor_clock (n : Sensor) : (s.setSensor n).clock = s.clock := rfl
@[simp] theorem State.setSensor_cell (n : Sensor) : (s.setSensor n).cell = s.cell := rfl
@[simp] theorem State.setSensor_lots (n : Sensor) : (s.setSensor n).lots = s.lots := rfl
@[simp] theorem State.setSensor_reports (n : Sensor) : (s.setSensor n).reports = s.reports := rfl
@[simp] theorem State.setSensor_classTable (n : Sensor) : (s.setSensor n).classTable = s.classTable := rfl
@[simp] theorem State.setSensor_handling (n : Sensor) : (s.setSensor n).handling = s.handling := rfl
@[simp] theorem State.setSensor_motion (n : Sensor) : (s.setSensor n).motion = s.motion := rfl
@[simp] theorem State.setSensor_align (n : Sensor) : (s.setSensor n).align = s.align := rfl
@[simp] theorem State.setSensor_sensor (n : Sensor) : (s.setSensor n).sensor = n := rfl
@[simp] theorem State.setSensor_af (n : Sensor) : (s.setSensor n).af = s.af := rfl
@[simp] theorem State.setSensor_focusMap (n : Sensor) : (s.setSensor n).focusMap = s.focusMap := rfl
@[simp] theorem State.setSensor_revisit (n : Sensor) : (s.setSensor n).revisit = s.revisit := rfl
@[simp] theorem State.setSensor_grab (n : Sensor) : (s.setSensor n).grab = s.grab := rfl
@[simp] theorem State.setSensor_anchor (n : Sensor) : (s.setSensor n).anchor = s.anchor := rfl
@[simp] theorem State.setSensor_notice (n : Sensor) : (s.setSensor n).notice = s.notice := rfl
@[simp] theorem State.setSensor_path (n : Sensor) : (s.setSensor n).path = s.path := rfl
@[simp] theorem State.setSensor_wb (n : Sensor) : (s.setSensor n).wb = s.wb := rfl
@[simp] theorem State.setSensor_mport (n : Sensor) : (s.setSensor n).mport = s.mport := rfl
@[simp] theorem State.setSensor_mem (n : Sensor) : (s.setSensor n).mem = s.mem := rfl
@[simp] theorem State.setSensor_out (n : Sensor) : (s.setSensor n).out = s.out := rfl
@[simp] theorem State.setSensor_free (n : Sensor) : (s.setSensor n).free = s.free := rfl
@[simp] theorem State.setSensor_scratch (n : Sensor) : (s.setSensor n).scratch = s.scratch := rfl

@[simp] theorem State.setAf_pending (a : Autofocus) : (s.setAf a).pending = s.pending := rfl
@[simp] theorem State.setAf_clock (a : Autofocus) : (s.setAf a).clock = s.clock := rfl
@[simp] theorem State.setAf_cell (a : Autofocus) : (s.setAf a).cell = s.cell := rfl
@[simp] theorem State.setAf_lots (a : Autofocus) : (s.setAf a).lots = s.lots := rfl
@[simp] theorem State.setAf_reports (a : Autofocus) : (s.setAf a).reports = s.reports := rfl
@[simp] theorem State.setAf_classTable (a : Autofocus) : (s.setAf a).classTable = s.classTable := rfl
@[simp] theorem State.setAf_handling (a : Autofocus) : (s.setAf a).handling = s.handling := rfl
@[simp] theorem State.setAf_motion (a : Autofocus) : (s.setAf a).motion = s.motion := rfl
@[simp] theorem State.setAf_align (a : Autofocus) : (s.setAf a).align = s.align := rfl
@[simp] theorem State.setAf_sensor (a : Autofocus) : (s.setAf a).sensor = s.sensor := rfl
@[simp] theorem State.setAf_af (a : Autofocus) : (s.setAf a).af = a := rfl
@[simp] theorem State.setAf_focusMap (a : Autofocus) : (s.setAf a).focusMap = s.focusMap := rfl
@[simp] theorem State.setAf_revisit (a : Autofocus) : (s.setAf a).revisit = s.revisit := rfl
@[simp] theorem State.setAf_grab (a : Autofocus) : (s.setAf a).grab = s.grab := rfl
@[simp] theorem State.setAf_anchor (a : Autofocus) : (s.setAf a).anchor = s.anchor := rfl
@[simp] theorem State.setAf_notice (a : Autofocus) : (s.setAf a).notice = s.notice := rfl
@[simp] theorem State.setAf_path (a : Autofocus) : (s.setAf a).path = s.path := rfl
@[simp] theorem State.setAf_wb (a : Autofocus) : (s.setAf a).wb = s.wb := rfl
@[simp] theorem State.setAf_mport (a : Autofocus) : (s.setAf a).mport = s.mport := rfl
@[simp] theorem State.setAf_mem (a : Autofocus) : (s.setAf a).mem = s.mem := rfl
@[simp] theorem State.setAf_out (a : Autofocus) : (s.setAf a).out = s.out := rfl
@[simp] theorem State.setAf_free (a : Autofocus) : (s.setAf a).free = s.free := rfl
@[simp] theorem State.setAf_scratch (a : Autofocus) : (s.setAf a).scratch = s.scratch := rfl

@[simp] theorem State.setRevisit_pending (r : Revisit) : (s.setRevisit r).pending = s.pending := rfl
@[simp] theorem State.setRevisit_clock (r : Revisit) : (s.setRevisit r).clock = s.clock := rfl
@[simp] theorem State.setRevisit_cell (r : Revisit) : (s.setRevisit r).cell = s.cell := rfl
@[simp] theorem State.setRevisit_lots (r : Revisit) : (s.setRevisit r).lots = s.lots := rfl
@[simp] theorem State.setRevisit_reports (r : Revisit) : (s.setRevisit r).reports = s.reports := rfl
@[simp] theorem State.setRevisit_classTable (r : Revisit) : (s.setRevisit r).classTable = s.classTable := rfl
@[simp] theorem State.setRevisit_handling (r : Revisit) : (s.setRevisit r).handling = s.handling := rfl
@[simp] theorem State.setRevisit_motion (r : Revisit) : (s.setRevisit r).motion = s.motion := rfl
@[simp] theorem State.setRevisit_align (r : Revisit) : (s.setRevisit r).align = s.align := rfl
@[simp] theorem State.setRevisit_sensor (r : Revisit) : (s.setRevisit r).sensor = s.sensor := rfl
@[simp] theorem State.setRevisit_af (r : Revisit) : (s.setRevisit r).af = s.af := rfl
@[simp] theorem State.setRevisit_focusMap (r : Revisit) : (s.setRevisit r).focusMap = s.focusMap := rfl
@[simp] theorem State.setRevisit_revisit (r : Revisit) : (s.setRevisit r).revisit = r := rfl
@[simp] theorem State.setRevisit_grab (r : Revisit) : (s.setRevisit r).grab = s.grab := rfl
@[simp] theorem State.setRevisit_anchor (r : Revisit) : (s.setRevisit r).anchor = s.anchor := rfl
@[simp] theorem State.setRevisit_notice (r : Revisit) : (s.setRevisit r).notice = s.notice := rfl
@[simp] theorem State.setRevisit_path (r : Revisit) : (s.setRevisit r).path = s.path := rfl
@[simp] theorem State.setRevisit_wb (r : Revisit) : (s.setRevisit r).wb = s.wb := rfl
@[simp] theorem State.setRevisit_mport (r : Revisit) : (s.setRevisit r).mport = s.mport := rfl
@[simp] theorem State.setRevisit_mem (r : Revisit) : (s.setRevisit r).mem = s.mem := rfl
@[simp] theorem State.setRevisit_out (r : Revisit) : (s.setRevisit r).out = s.out := rfl
@[simp] theorem State.setRevisit_free (r : Revisit) : (s.setRevisit r).free = s.free := rfl
@[simp] theorem State.setRevisit_scratch (r : Revisit) : (s.setRevisit r).scratch = s.scratch := rfl

@[simp] theorem State.setActive_pending (a : Option ActiveRevisit) : (s.setActive a).pending = s.pending := rfl
@[simp] theorem State.setActive_clock (a : Option ActiveRevisit) : (s.setActive a).clock = s.clock := rfl
@[simp] theorem State.setActive_cell (a : Option ActiveRevisit) : (s.setActive a).cell = s.cell := rfl
@[simp] theorem State.setActive_lots (a : Option ActiveRevisit) : (s.setActive a).lots = s.lots := rfl
@[simp] theorem State.setActive_reports (a : Option ActiveRevisit) : (s.setActive a).reports = s.reports := rfl
@[simp] theorem State.setActive_classTable (a : Option ActiveRevisit) : (s.setActive a).classTable = s.classTable := rfl
@[simp] theorem State.setActive_handling (a : Option ActiveRevisit) : (s.setActive a).handling = s.handling := rfl
@[simp] theorem State.setActive_motion (a : Option ActiveRevisit) : (s.setActive a).motion = s.motion := rfl
@[simp] theorem State.setActive_align (a : Option ActiveRevisit) : (s.setActive a).align = s.align := rfl
@[simp] theorem State.setActive_sensor (a : Option ActiveRevisit) : (s.setActive a).sensor = s.sensor := rfl
@[simp] theorem State.setActive_af (a : Option ActiveRevisit) : (s.setActive a).af = s.af := rfl
@[simp] theorem State.setActive_focusMap (a : Option ActiveRevisit) : (s.setActive a).focusMap = s.focusMap := rfl
@[simp] theorem State.setActive_revisit (a : Option ActiveRevisit) : (s.setActive a).revisit = { s.revisit with active := a } := rfl
@[simp] theorem State.setActive_grab (a : Option ActiveRevisit) : (s.setActive a).grab = s.grab := rfl
@[simp] theorem State.setActive_anchor (a : Option ActiveRevisit) : (s.setActive a).anchor = s.anchor := rfl
@[simp] theorem State.setActive_notice (a : Option ActiveRevisit) : (s.setActive a).notice = s.notice := rfl
@[simp] theorem State.setActive_path (a : Option ActiveRevisit) : (s.setActive a).path = s.path := rfl
@[simp] theorem State.setActive_wb (a : Option ActiveRevisit) : (s.setActive a).wb = s.wb := rfl
@[simp] theorem State.setActive_mport (a : Option ActiveRevisit) : (s.setActive a).mport = s.mport := rfl
@[simp] theorem State.setActive_mem (a : Option ActiveRevisit) : (s.setActive a).mem = s.mem := rfl
@[simp] theorem State.setActive_out (a : Option ActiveRevisit) : (s.setActive a).out = s.out := rfl
@[simp] theorem State.setActive_free (a : Option ActiveRevisit) : (s.setActive a).free = s.free := rfl
@[simp] theorem State.setActive_scratch (a : Option ActiveRevisit) : (s.setActive a).scratch = s.scratch := rfl

@[simp] theorem State.leavePosting_pending (k : Slot) (i : Nat) : (s.leavePosting k i).pending = s.pending := rfl
@[simp] theorem State.leavePosting_clock (k : Slot) (i : Nat) : (s.leavePosting k i).clock = s.clock := rfl
@[simp] theorem State.leavePosting_cell (k : Slot) (i : Nat) : (s.leavePosting k i).cell = s.cell := rfl
@[simp] theorem State.leavePosting_lots (k : Slot) (i : Nat) : (s.leavePosting k i).lots = s.lots := rfl
@[simp] theorem State.leavePosting_reports (k : Slot) (i : Nat) : (s.leavePosting k i).reports = s.reports := rfl
@[simp] theorem State.leavePosting_classTable (k : Slot) (i : Nat) : (s.leavePosting k i).classTable = s.classTable := rfl
@[simp] theorem State.leavePosting_handling (k : Slot) (i : Nat) : (s.leavePosting k i).handling = s.handling := rfl
@[simp] theorem State.leavePosting_motion (k : Slot) (i : Nat) : (s.leavePosting k i).motion = s.motion := rfl
@[simp] theorem State.leavePosting_align (k : Slot) (i : Nat) : (s.leavePosting k i).align = s.align := rfl
@[simp] theorem State.leavePosting_sensor (k : Slot) (i : Nat) : (s.leavePosting k i).sensor = s.sensor := rfl
@[simp] theorem State.leavePosting_af (k : Slot) (i : Nat) : (s.leavePosting k i).af = s.af := rfl
@[simp] theorem State.leavePosting_focusMap (k : Slot) (i : Nat) : (s.leavePosting k i).focusMap = s.focusMap := rfl
@[simp] theorem State.leavePosting_grab (k : Slot) (i : Nat) : (s.leavePosting k i).grab = s.grab := rfl
@[simp] theorem State.leavePosting_anchor (k : Slot) (i : Nat) : (s.leavePosting k i).anchor = s.anchor := rfl
@[simp] theorem State.leavePosting_notice (k : Slot) (i : Nat) : (s.leavePosting k i).notice = s.notice := rfl
@[simp] theorem State.leavePosting_path (k : Slot) (i : Nat) : (s.leavePosting k i).path = s.path := rfl
@[simp] theorem State.leavePosting_wb (k : Slot) (i : Nat) : (s.leavePosting k i).wb = s.wb := rfl
@[simp] theorem State.leavePosting_mport (k : Slot) (i : Nat) : (s.leavePosting k i).mport = s.mport := rfl
@[simp] theorem State.leavePosting_mem (k : Slot) (i : Nat) : (s.leavePosting k i).mem = s.mem := rfl
@[simp] theorem State.leavePosting_out (k : Slot) (i : Nat) : (s.leavePosting k i).out = s.out := rfl
@[simp] theorem State.leavePosting_free (k : Slot) (i : Nat) : (s.leavePosting k i).free = s.free := rfl
@[simp] theorem State.leavePosting_scratch (k : Slot) (i : Nat) : (s.leavePosting k i).scratch = s.scratch := rfl

@[simp] theorem State.leaveStore_pending (k : Slot) (i : Nat) : (s.leaveStore k i).pending = s.pending := rfl
@[simp] theorem State.leaveStore_clock (k : Slot) (i : Nat) : (s.leaveStore k i).clock = s.clock := rfl
@[simp] theorem State.leaveStore_cell (k : Slot) (i : Nat) : (s.leaveStore k i).cell = s.cell := rfl
@[simp] theorem State.leaveStore_lots (k : Slot) (i : Nat) : (s.leaveStore k i).lots = s.lots := rfl
@[simp] theorem State.leaveStore_reports (k : Slot) (i : Nat) : (s.leaveStore k i).reports = s.reports := rfl
@[simp] theorem State.leaveStore_classTable (k : Slot) (i : Nat) : (s.leaveStore k i).classTable = s.classTable := rfl
@[simp] theorem State.leaveStore_handling (k : Slot) (i : Nat) : (s.leaveStore k i).handling = s.handling := rfl
@[simp] theorem State.leaveStore_motion (k : Slot) (i : Nat) : (s.leaveStore k i).motion = s.motion := rfl
@[simp] theorem State.leaveStore_align (k : Slot) (i : Nat) : (s.leaveStore k i).align = s.align := rfl
@[simp] theorem State.leaveStore_sensor (k : Slot) (i : Nat) : (s.leaveStore k i).sensor = s.sensor := rfl
@[simp] theorem State.leaveStore_af (k : Slot) (i : Nat) : (s.leaveStore k i).af = s.af := rfl
@[simp] theorem State.leaveStore_focusMap (k : Slot) (i : Nat) : (s.leaveStore k i).focusMap = s.focusMap := rfl
@[simp] theorem State.leaveStore_grab (k : Slot) (i : Nat) : (s.leaveStore k i).grab = s.grab := rfl
@[simp] theorem State.leaveStore_anchor (k : Slot) (i : Nat) : (s.leaveStore k i).anchor = s.anchor := rfl
@[simp] theorem State.leaveStore_notice (k : Slot) (i : Nat) : (s.leaveStore k i).notice = s.notice := rfl
@[simp] theorem State.leaveStore_path (k : Slot) (i : Nat) : (s.leaveStore k i).path = s.path := rfl
@[simp] theorem State.leaveStore_wb (k : Slot) (i : Nat) : (s.leaveStore k i).wb = s.wb := rfl
@[simp] theorem State.leaveStore_mport (k : Slot) (i : Nat) : (s.leaveStore k i).mport = s.mport := rfl
@[simp] theorem State.leaveStore_mem (k : Slot) (i : Nat) : (s.leaveStore k i).mem = s.mem := rfl
@[simp] theorem State.leaveStore_out (k : Slot) (i : Nat) : (s.leaveStore k i).out = s.out := rfl
@[simp] theorem State.leaveStore_free (k : Slot) (i : Nat) : (s.leaveStore k i).free = s.free := rfl
@[simp] theorem State.leaveStore_scratch (k : Slot) (i : Nat) : (s.leaveStore k i).scratch = s.scratch := rfl

@[simp] theorem State.modEntry_pending (k : Slot) (i : Nat) (f : Entry → Entry) : (s.modEntry k i f).pending = s.pending := rfl
@[simp] theorem State.modEntry_clock (k : Slot) (i : Nat) (f : Entry → Entry) : (s.modEntry k i f).clock = s.clock := rfl
@[simp] theorem State.modEntry_cell (k : Slot) (i : Nat) (f : Entry → Entry) : (s.modEntry k i f).cell = s.cell := rfl
@[simp] theorem State.modEntry_lots (k : Slot) (i : Nat) (f : Entry → Entry) : (s.modEntry k i f).lots = s.lots := rfl
@[simp] theorem State.modEntry_reports (k : Slot) (i : Nat) (f : Entry → Entry) : (s.modEntry k i f).reports = s.reports := rfl
@[simp] theorem State.modEntry_classTable (k : Slot) (i : Nat) (f : Entry → Entry) : (s.modEntry k i f).classTable = s.classTable := rfl
@[simp] theorem State.modEntry_handling (k : Slot) (i : Nat) (f : Entry → Entry) : (s.modEntry k i f).handling = s.handling := rfl
@[simp] theorem State.modEntry_motion (k : Slot) (i : Nat) (f : Entry → Entry) : (s.modEntry k i f).motion = s.motion := rfl
@[simp] theorem State.modEntry_align (k : Slot) (i : Nat) (f : Entry → Entry) : (s.modEntry k i f).align = s.align := rfl
@[simp] theorem State.modEntry_sensor (k : Slot) (i : Nat) (f : Entry → Entry) : (s.modEntry k i f).sensor = s.sensor := rfl
@[simp] theorem State.modEntry_af (k : Slot) (i : Nat) (f : Entry → Entry) : (s.modEntry k i f).af = s.af := rfl
@[simp] theorem State.modEntry_focusMap (k : Slot) (i : Nat) (f : Entry → Entry) : (s.modEntry k i f).focusMap = s.focusMap := rfl
@[simp] theorem State.modEntry_grab (k : Slot) (i : Nat) (f : Entry → Entry) : (s.modEntry k i f).grab = s.grab := rfl
@[simp] theorem State.modEntry_anchor (k : Slot) (i : Nat) (f : Entry → Entry) : (s.modEntry k i f).anchor = s.anchor := rfl
@[simp] theorem State.modEntry_notice (k : Slot) (i : Nat) (f : Entry → Entry) : (s.modEntry k i f).notice = s.notice := rfl
@[simp] theorem State.modEntry_path (k : Slot) (i : Nat) (f : Entry → Entry) : (s.modEntry k i f).path = s.path := rfl
@[simp] theorem State.modEntry_wb (k : Slot) (i : Nat) (f : Entry → Entry) : (s.modEntry k i f).wb = s.wb := rfl
@[simp] theorem State.modEntry_mport (k : Slot) (i : Nat) (f : Entry → Entry) : (s.modEntry k i f).mport = s.mport := rfl
@[simp] theorem State.modEntry_mem (k : Slot) (i : Nat) (f : Entry → Entry) : (s.modEntry k i f).mem = s.mem := rfl
@[simp] theorem State.modEntry_out (k : Slot) (i : Nat) (f : Entry → Entry) : (s.modEntry k i f).out = s.out := rfl
@[simp] theorem State.modEntry_free (k : Slot) (i : Nat) (f : Entry → Entry) : (s.modEntry k i f).free = s.free := rfl

@[simp] theorem State.setGrab_pending (g : GrabLink) : (s.setGrab g).pending = s.pending := rfl
@[simp] theorem State.setGrab_clock (g : GrabLink) : (s.setGrab g).clock = s.clock := rfl
@[simp] theorem State.setGrab_cell (g : GrabLink) : (s.setGrab g).cell = s.cell := rfl
@[simp] theorem State.setGrab_lots (g : GrabLink) : (s.setGrab g).lots = s.lots := rfl
@[simp] theorem State.setGrab_reports (g : GrabLink) : (s.setGrab g).reports = s.reports := rfl
@[simp] theorem State.setGrab_classTable (g : GrabLink) : (s.setGrab g).classTable = s.classTable := rfl
@[simp] theorem State.setGrab_handling (g : GrabLink) : (s.setGrab g).handling = s.handling := rfl
@[simp] theorem State.setGrab_motion (g : GrabLink) : (s.setGrab g).motion = s.motion := rfl
@[simp] theorem State.setGrab_align (g : GrabLink) : (s.setGrab g).align = s.align := rfl
@[simp] theorem State.setGrab_sensor (g : GrabLink) : (s.setGrab g).sensor = s.sensor := rfl
@[simp] theorem State.setGrab_af (g : GrabLink) : (s.setGrab g).af = s.af := rfl
@[simp] theorem State.setGrab_focusMap (g : GrabLink) : (s.setGrab g).focusMap = s.focusMap := rfl
@[simp] theorem State.setGrab_revisit (g : GrabLink) : (s.setGrab g).revisit = s.revisit := rfl
@[simp] theorem State.setGrab_grab (g : GrabLink) : (s.setGrab g).grab = g := rfl
@[simp] theorem State.setGrab_anchor (g : GrabLink) : (s.setGrab g).anchor = s.anchor := rfl
@[simp] theorem State.setGrab_notice (g : GrabLink) : (s.setGrab g).notice = s.notice := rfl
@[simp] theorem State.setGrab_path (g : GrabLink) : (s.setGrab g).path = s.path := rfl
@[simp] theorem State.setGrab_wb (g : GrabLink) : (s.setGrab g).wb = s.wb := rfl
@[simp] theorem State.setGrab_mport (g : GrabLink) : (s.setGrab g).mport = s.mport := rfl
@[simp] theorem State.setGrab_mem (g : GrabLink) : (s.setGrab g).mem = s.mem := rfl
@[simp] theorem State.setGrab_out (g : GrabLink) : (s.setGrab g).out = s.out := rfl
@[simp] theorem State.setGrab_free (g : GrabLink) : (s.setGrab g).free = s.free := rfl
@[simp] theorem State.setGrab_scratch (g : GrabLink) : (s.setGrab g).scratch = s.scratch := rfl

@[simp] theorem State.setAnchor_pending (a : Anchor) : (s.setAnchor a).pending = s.pending := rfl
@[simp] theorem State.setAnchor_clock (a : Anchor) : (s.setAnchor a).clock = s.clock := rfl
@[simp] theorem State.setAnchor_cell (a : Anchor) : (s.setAnchor a).cell = s.cell := rfl
@[simp] theorem State.setAnchor_lots (a : Anchor) : (s.setAnchor a).lots = s.lots := rfl
@[simp] theorem State.setAnchor_reports (a : Anchor) : (s.setAnchor a).reports = s.reports := rfl
@[simp] theorem State.setAnchor_classTable (a : Anchor) : (s.setAnchor a).classTable = s.classTable := rfl
@[simp] theorem State.setAnchor_handling (a : Anchor) : (s.setAnchor a).handling = s.handling := rfl
@[simp] theorem State.setAnchor_motion (a : Anchor) : (s.setAnchor a).motion = s.motion := rfl
@[simp] theorem State.setAnchor_align (a : Anchor) : (s.setAnchor a).align = s.align := rfl
@[simp] theorem State.setAnchor_sensor (a : Anchor) : (s.setAnchor a).sensor = s.sensor := rfl
@[simp] theorem State.setAnchor_af (a : Anchor) : (s.setAnchor a).af = s.af := rfl
@[simp] theorem State.setAnchor_focusMap (a : Anchor) : (s.setAnchor a).focusMap = s.focusMap := rfl
@[simp] theorem State.setAnchor_revisit (a : Anchor) : (s.setAnchor a).revisit = s.revisit := rfl
@[simp] theorem State.setAnchor_grab (a : Anchor) : (s.setAnchor a).grab = s.grab := rfl
@[simp] theorem State.setAnchor_anchor (a : Anchor) : (s.setAnchor a).anchor = a := rfl
@[simp] theorem State.setAnchor_notice (a : Anchor) : (s.setAnchor a).notice = s.notice := rfl
@[simp] theorem State.setAnchor_path (a : Anchor) : (s.setAnchor a).path = s.path := rfl
@[simp] theorem State.setAnchor_wb (a : Anchor) : (s.setAnchor a).wb = s.wb := rfl
@[simp] theorem State.setAnchor_mport (a : Anchor) : (s.setAnchor a).mport = s.mport := rfl
@[simp] theorem State.setAnchor_mem (a : Anchor) : (s.setAnchor a).mem = s.mem := rfl
@[simp] theorem State.setAnchor_out (a : Anchor) : (s.setAnchor a).out = s.out := rfl
@[simp] theorem State.setAnchor_free (a : Anchor) : (s.setAnchor a).free = s.free := rfl
@[simp] theorem State.setAnchor_scratch (a : Anchor) : (s.setAnchor a).scratch = s.scratch := rfl

@[simp] theorem State.setPath_pending (p : Path) : (s.setPath p).pending = s.pending := rfl
@[simp] theorem State.setPath_clock (p : Path) : (s.setPath p).clock = s.clock := rfl
@[simp] theorem State.setPath_cell (p : Path) : (s.setPath p).cell = s.cell := rfl
@[simp] theorem State.setPath_lots (p : Path) : (s.setPath p).lots = s.lots := rfl
@[simp] theorem State.setPath_reports (p : Path) : (s.setPath p).reports = s.reports := rfl
@[simp] theorem State.setPath_classTable (p : Path) : (s.setPath p).classTable = s.classTable := rfl
@[simp] theorem State.setPath_handling (p : Path) : (s.setPath p).handling = s.handling := rfl
@[simp] theorem State.setPath_motion (p : Path) : (s.setPath p).motion = s.motion := rfl
@[simp] theorem State.setPath_align (p : Path) : (s.setPath p).align = s.align := rfl
@[simp] theorem State.setPath_sensor (p : Path) : (s.setPath p).sensor = s.sensor := rfl
@[simp] theorem State.setPath_af (p : Path) : (s.setPath p).af = s.af := rfl
@[simp] theorem State.setPath_focusMap (p : Path) : (s.setPath p).focusMap = s.focusMap := rfl
@[simp] theorem State.setPath_revisit (p : Path) : (s.setPath p).revisit = s.revisit := rfl
@[simp] theorem State.setPath_grab (p : Path) : (s.setPath p).grab = s.grab := rfl
@[simp] theorem State.setPath_anchor (p : Path) : (s.setPath p).anchor = s.anchor := rfl
@[simp] theorem State.setPath_notice (p : Path) : (s.setPath p).notice = s.notice := rfl
@[simp] theorem State.setPath_path (p : Path) : (s.setPath p).path = p := rfl
@[simp] theorem State.setPath_wb (p : Path) : (s.setPath p).wb = s.wb := rfl
@[simp] theorem State.setPath_mport (p : Path) : (s.setPath p).mport = s.mport := rfl
@[simp] theorem State.setPath_mem (p : Path) : (s.setPath p).mem = s.mem := rfl
@[simp] theorem State.setPath_out (p : Path) : (s.setPath p).out = s.out := rfl
@[simp] theorem State.setPath_free (p : Path) : (s.setPath p).free = s.free := rfl
@[simp] theorem State.setPath_scratch (p : Path) : (s.setPath p).scratch = s.scratch := rfl

@[simp] theorem State.setSlot_pending (p : PathSlot) : (s.setSlot p).pending = s.pending := rfl
@[simp] theorem State.setSlot_clock (p : PathSlot) : (s.setSlot p).clock = s.clock := rfl
@[simp] theorem State.setSlot_cell (p : PathSlot) : (s.setSlot p).cell = s.cell := rfl
@[simp] theorem State.setSlot_lots (p : PathSlot) : (s.setSlot p).lots = s.lots := rfl
@[simp] theorem State.setSlot_reports (p : PathSlot) : (s.setSlot p).reports = s.reports := rfl
@[simp] theorem State.setSlot_classTable (p : PathSlot) : (s.setSlot p).classTable = s.classTable := rfl
@[simp] theorem State.setSlot_handling (p : PathSlot) : (s.setSlot p).handling = s.handling := rfl
@[simp] theorem State.setSlot_motion (p : PathSlot) : (s.setSlot p).motion = s.motion := rfl
@[simp] theorem State.setSlot_align (p : PathSlot) : (s.setSlot p).align = s.align := rfl
@[simp] theorem State.setSlot_sensor (p : PathSlot) : (s.setSlot p).sensor = s.sensor := rfl
@[simp] theorem State.setSlot_af (p : PathSlot) : (s.setSlot p).af = s.af := rfl
@[simp] theorem State.setSlot_focusMap (p : PathSlot) : (s.setSlot p).focusMap = s.focusMap := rfl
@[simp] theorem State.setSlot_revisit (p : PathSlot) : (s.setSlot p).revisit = s.revisit := rfl
@[simp] theorem State.setSlot_grab (p : PathSlot) : (s.setSlot p).grab = s.grab := rfl
@[simp] theorem State.setSlot_anchor (p : PathSlot) : (s.setSlot p).anchor = s.anchor := rfl
@[simp] theorem State.setSlot_notice (p : PathSlot) : (s.setSlot p).notice = s.notice := rfl
@[simp] theorem State.setSlot_path (p : PathSlot) : (s.setSlot p).path = { s.path with slot := p } := rfl
@[simp] theorem State.setSlot_wb (p : PathSlot) : (s.setSlot p).wb = s.wb := rfl
@[simp] theorem State.setSlot_mport (p : PathSlot) : (s.setSlot p).mport = s.mport := rfl
@[simp] theorem State.setSlot_mem (p : PathSlot) : (s.setSlot p).mem = s.mem := rfl
@[simp] theorem State.setSlot_out (p : PathSlot) : (s.setSlot p).out = s.out := rfl
@[simp] theorem State.setSlot_free (p : PathSlot) : (s.setSlot p).free = s.free := rfl
@[simp] theorem State.setSlot_scratch (p : PathSlot) : (s.setSlot p).scratch = s.scratch := rfl

@[simp] theorem State.pass_pending (a : PAccess) : (s.pass a).pending = s.pending := rfl
@[simp] theorem State.pass_clock (a : PAccess) : (s.pass a).clock = s.clock := rfl
@[simp] theorem State.pass_cell (a : PAccess) : (s.pass a).cell = s.cell := rfl
@[simp] theorem State.pass_lots (a : PAccess) : (s.pass a).lots = s.lots := rfl
@[simp] theorem State.pass_reports (a : PAccess) : (s.pass a).reports = s.reports := rfl
@[simp] theorem State.pass_classTable (a : PAccess) : (s.pass a).classTable = s.classTable := rfl
@[simp] theorem State.pass_handling (a : PAccess) : (s.pass a).handling = s.handling := rfl
@[simp] theorem State.pass_motion (a : PAccess) : (s.pass a).motion = s.motion := rfl
@[simp] theorem State.pass_align (a : PAccess) : (s.pass a).align = s.align := rfl
@[simp] theorem State.pass_sensor (a : PAccess) : (s.pass a).sensor = s.sensor := rfl
@[simp] theorem State.pass_af (a : PAccess) : (s.pass a).af = s.af := rfl
@[simp] theorem State.pass_focusMap (a : PAccess) : (s.pass a).focusMap = s.focusMap := rfl
@[simp] theorem State.pass_revisit (a : PAccess) : (s.pass a).revisit = s.revisit := rfl
@[simp] theorem State.pass_grab (a : PAccess) : (s.pass a).grab = s.grab := rfl
@[simp] theorem State.pass_anchor (a : PAccess) : (s.pass a).anchor = s.anchor := rfl
@[simp] theorem State.pass_notice (a : PAccess) : (s.pass a).notice = s.notice := rfl
@[simp] theorem State.pass_path (a : PAccess) : (s.pass a).path = { s.path with slot := .waiting a } := rfl
@[simp] theorem State.pass_wb (a : PAccess) : (s.pass a).wb = s.wb := rfl
@[simp] theorem State.pass_mport (a : PAccess) : (s.pass a).mport = s.mport := rfl
@[simp] theorem State.pass_mem (a : PAccess) : (s.pass a).mem = s.mem := rfl
@[simp] theorem State.pass_out (a : PAccess) : (s.pass a).out = s.out := rfl
@[simp] theorem State.pass_free (a : PAccess) : (s.pass a).free = s.free := rfl
@[simp] theorem State.pass_scratch (a : PAccess) : (s.pass a).scratch = s.scratch := rfl

@[simp] theorem State.hold_pending (a : PAccess) (why : HoldReason) : (s.hold a why).pending = s.pending := rfl
@[simp] theorem State.hold_clock (a : PAccess) (why : HoldReason) : (s.hold a why).clock = s.clock := rfl
@[simp] theorem State.hold_cell (a : PAccess) (why : HoldReason) : (s.hold a why).cell = s.cell := rfl
@[simp] theorem State.hold_lots (a : PAccess) (why : HoldReason) : (s.hold a why).lots = s.lots := rfl
@[simp] theorem State.hold_reports (a : PAccess) (why : HoldReason) : (s.hold a why).reports = s.reports := rfl
@[simp] theorem State.hold_classTable (a : PAccess) (why : HoldReason) : (s.hold a why).classTable = s.classTable := rfl
@[simp] theorem State.hold_handling (a : PAccess) (why : HoldReason) : (s.hold a why).handling = s.handling := rfl
@[simp] theorem State.hold_motion (a : PAccess) (why : HoldReason) : (s.hold a why).motion = s.motion := rfl
@[simp] theorem State.hold_align (a : PAccess) (why : HoldReason) : (s.hold a why).align = s.align := rfl
@[simp] theorem State.hold_sensor (a : PAccess) (why : HoldReason) : (s.hold a why).sensor = s.sensor := rfl
@[simp] theorem State.hold_af (a : PAccess) (why : HoldReason) : (s.hold a why).af = s.af := rfl
@[simp] theorem State.hold_focusMap (a : PAccess) (why : HoldReason) : (s.hold a why).focusMap = s.focusMap := rfl
@[simp] theorem State.hold_revisit (a : PAccess) (why : HoldReason) : (s.hold a why).revisit = s.revisit := rfl
@[simp] theorem State.hold_grab (a : PAccess) (why : HoldReason) : (s.hold a why).grab = s.grab := rfl
@[simp] theorem State.hold_anchor (a : PAccess) (why : HoldReason) : (s.hold a why).anchor = s.anchor := rfl
@[simp] theorem State.hold_notice (a : PAccess) (why : HoldReason) : (s.hold a why).notice = s.notice := rfl
@[simp] theorem State.hold_path (a : PAccess) (why : HoldReason) : (s.hold a why).path = { s.path with slot := .held a why } := rfl
@[simp] theorem State.hold_wb (a : PAccess) (why : HoldReason) : (s.hold a why).wb = s.wb := rfl
@[simp] theorem State.hold_mport (a : PAccess) (why : HoldReason) : (s.hold a why).mport = s.mport := rfl
@[simp] theorem State.hold_mem (a : PAccess) (why : HoldReason) : (s.hold a why).mem = s.mem := rfl
@[simp] theorem State.hold_out (a : PAccess) (why : HoldReason) : (s.hold a why).out = s.out := rfl
@[simp] theorem State.hold_free (a : PAccess) (why : HoldReason) : (s.hold a why).free = s.free := rfl
@[simp] theorem State.hold_scratch (a : PAccess) (why : HoldReason) : (s.hold a why).scratch = s.scratch := rfl

@[simp] theorem State.capture_pending (k : Slot) (i w : Nat) (v : Word) (be : Enables) : (s.capture k i w v be).pending = s.pending := rfl
@[simp] theorem State.capture_clock (k : Slot) (i w : Nat) (v : Word) (be : Enables) : (s.capture k i w v be).clock = s.clock := rfl
@[simp] theorem State.capture_cell (k : Slot) (i w : Nat) (v : Word) (be : Enables) : (s.capture k i w v be).cell = s.cell := rfl
@[simp] theorem State.capture_lots (k : Slot) (i w : Nat) (v : Word) (be : Enables) : (s.capture k i w v be).lots = s.lots := rfl
@[simp] theorem State.capture_reports (k : Slot) (i w : Nat) (v : Word) (be : Enables) : (s.capture k i w v be).reports = s.reports := rfl
@[simp] theorem State.capture_classTable (k : Slot) (i w : Nat) (v : Word) (be : Enables) : (s.capture k i w v be).classTable = s.classTable := rfl
@[simp] theorem State.capture_handling (k : Slot) (i w : Nat) (v : Word) (be : Enables) : (s.capture k i w v be).handling = s.handling := rfl
@[simp] theorem State.capture_motion (k : Slot) (i w : Nat) (v : Word) (be : Enables) : (s.capture k i w v be).motion = s.motion := rfl
@[simp] theorem State.capture_align (k : Slot) (i w : Nat) (v : Word) (be : Enables) : (s.capture k i w v be).align = s.align := rfl
@[simp] theorem State.capture_sensor (k : Slot) (i w : Nat) (v : Word) (be : Enables) : (s.capture k i w v be).sensor = s.sensor := rfl
@[simp] theorem State.capture_af (k : Slot) (i w : Nat) (v : Word) (be : Enables) : (s.capture k i w v be).af = s.af := rfl
@[simp] theorem State.capture_focusMap (k : Slot) (i w : Nat) (v : Word) (be : Enables) : (s.capture k i w v be).focusMap = s.focusMap := rfl
@[simp] theorem State.capture_revisit (k : Slot) (i w : Nat) (v : Word) (be : Enables) : (s.capture k i w v be).revisit = s.revisit := rfl
@[simp] theorem State.capture_grab (k : Slot) (i w : Nat) (v : Word) (be : Enables) : (s.capture k i w v be).grab = s.grab := rfl
@[simp] theorem State.capture_anchor (k : Slot) (i w : Nat) (v : Word) (be : Enables) : (s.capture k i w v be).anchor = s.anchor := rfl
@[simp] theorem State.capture_notice (k : Slot) (i w : Nat) (v : Word) (be : Enables) : (s.capture k i w v be).notice = s.notice := rfl
@[simp] theorem State.capture_path (k : Slot) (i w : Nat) (v : Word) (be : Enables) : (s.capture k i w v be).path = { s.path with capture := captureWrite s.path.capture k i w v be } := rfl
@[simp] theorem State.capture_wb (k : Slot) (i w : Nat) (v : Word) (be : Enables) : (s.capture k i w v be).wb = s.wb := rfl
@[simp] theorem State.capture_mport (k : Slot) (i w : Nat) (v : Word) (be : Enables) : (s.capture k i w v be).mport = s.mport := rfl
@[simp] theorem State.capture_mem (k : Slot) (i w : Nat) (v : Word) (be : Enables) : (s.capture k i w v be).mem = s.mem := rfl
@[simp] theorem State.capture_out (k : Slot) (i w : Nat) (v : Word) (be : Enables) : (s.capture k i w v be).out = s.out := rfl
@[simp] theorem State.capture_free (k : Slot) (i w : Nat) (v : Word) (be : Enables) : (s.capture k i w v be).free = s.free := rfl
@[simp] theorem State.capture_scratch (k : Slot) (i w : Nat) (v : Word) (be : Enables) : (s.capture k i w v be).scratch = s.scratch := rfl

@[simp] theorem State.setStartLock_pending (k : Slot) (b : Bool) : (s.setStartLock k b).pending = s.pending := rfl
@[simp] theorem State.setStartLock_clock (k : Slot) (b : Bool) : (s.setStartLock k b).clock = s.clock := rfl
@[simp] theorem State.setStartLock_cell (k : Slot) (b : Bool) : (s.setStartLock k b).cell = s.cell := rfl
@[simp] theorem State.setStartLock_lots (k : Slot) (b : Bool) : (s.setStartLock k b).lots = s.lots := rfl
@[simp] theorem State.setStartLock_reports (k : Slot) (b : Bool) : (s.setStartLock k b).reports = s.reports := rfl
@[simp] theorem State.setStartLock_classTable (k : Slot) (b : Bool) : (s.setStartLock k b).classTable = s.classTable := rfl
@[simp] theorem State.setStartLock_handling (k : Slot) (b : Bool) : (s.setStartLock k b).handling = s.handling := rfl
@[simp] theorem State.setStartLock_motion (k : Slot) (b : Bool) : (s.setStartLock k b).motion = s.motion := rfl
@[simp] theorem State.setStartLock_align (k : Slot) (b : Bool) : (s.setStartLock k b).align = s.align := rfl
@[simp] theorem State.setStartLock_sensor (k : Slot) (b : Bool) : (s.setStartLock k b).sensor = s.sensor := rfl
@[simp] theorem State.setStartLock_af (k : Slot) (b : Bool) : (s.setStartLock k b).af = s.af := rfl
@[simp] theorem State.setStartLock_focusMap (k : Slot) (b : Bool) : (s.setStartLock k b).focusMap = s.focusMap := rfl
@[simp] theorem State.setStartLock_revisit (k : Slot) (b : Bool) : (s.setStartLock k b).revisit = s.revisit := rfl
@[simp] theorem State.setStartLock_grab (k : Slot) (b : Bool) : (s.setStartLock k b).grab = s.grab := rfl
@[simp] theorem State.setStartLock_anchor (k : Slot) (b : Bool) : (s.setStartLock k b).anchor = s.anchor := rfl
@[simp] theorem State.setStartLock_notice (k : Slot) (b : Bool) : (s.setStartLock k b).notice = s.notice := rfl
@[simp] theorem State.setStartLock_path (k : Slot) (b : Bool) : (s.setStartLock k b).path = { s.path with startLock := s.path.startLock.set k b } := rfl
@[simp] theorem State.setStartLock_wb (k : Slot) (b : Bool) : (s.setStartLock k b).wb = s.wb := rfl
@[simp] theorem State.setStartLock_mport (k : Slot) (b : Bool) : (s.setStartLock k b).mport = s.mport := rfl
@[simp] theorem State.setStartLock_mem (k : Slot) (b : Bool) : (s.setStartLock k b).mem = s.mem := rfl
@[simp] theorem State.setStartLock_out (k : Slot) (b : Bool) : (s.setStartLock k b).out = s.out := rfl
@[simp] theorem State.setStartLock_free (k : Slot) (b : Bool) : (s.setStartLock k b).free = s.free := rfl
@[simp] theorem State.setStartLock_scratch (k : Slot) (b : Bool) : (s.setStartLock k b).scratch = s.scratch := rfl

@[simp] theorem State.setClosedLock_pending (k : Slot) (b : Bool) : (s.setClosedLock k b).pending = s.pending := rfl
@[simp] theorem State.setClosedLock_clock (k : Slot) (b : Bool) : (s.setClosedLock k b).clock = s.clock := rfl
@[simp] theorem State.setClosedLock_cell (k : Slot) (b : Bool) : (s.setClosedLock k b).cell = s.cell := rfl
@[simp] theorem State.setClosedLock_lots (k : Slot) (b : Bool) : (s.setClosedLock k b).lots = s.lots := rfl
@[simp] theorem State.setClosedLock_reports (k : Slot) (b : Bool) : (s.setClosedLock k b).reports = s.reports := rfl
@[simp] theorem State.setClosedLock_classTable (k : Slot) (b : Bool) : (s.setClosedLock k b).classTable = s.classTable := rfl
@[simp] theorem State.setClosedLock_handling (k : Slot) (b : Bool) : (s.setClosedLock k b).handling = s.handling := rfl
@[simp] theorem State.setClosedLock_motion (k : Slot) (b : Bool) : (s.setClosedLock k b).motion = s.motion := rfl
@[simp] theorem State.setClosedLock_align (k : Slot) (b : Bool) : (s.setClosedLock k b).align = s.align := rfl
@[simp] theorem State.setClosedLock_sensor (k : Slot) (b : Bool) : (s.setClosedLock k b).sensor = s.sensor := rfl
@[simp] theorem State.setClosedLock_af (k : Slot) (b : Bool) : (s.setClosedLock k b).af = s.af := rfl
@[simp] theorem State.setClosedLock_focusMap (k : Slot) (b : Bool) : (s.setClosedLock k b).focusMap = s.focusMap := rfl
@[simp] theorem State.setClosedLock_revisit (k : Slot) (b : Bool) : (s.setClosedLock k b).revisit = s.revisit := rfl
@[simp] theorem State.setClosedLock_grab (k : Slot) (b : Bool) : (s.setClosedLock k b).grab = s.grab := rfl
@[simp] theorem State.setClosedLock_anchor (k : Slot) (b : Bool) : (s.setClosedLock k b).anchor = s.anchor := rfl
@[simp] theorem State.setClosedLock_notice (k : Slot) (b : Bool) : (s.setClosedLock k b).notice = s.notice := rfl
@[simp] theorem State.setClosedLock_path (k : Slot) (b : Bool) : (s.setClosedLock k b).path = { s.path with closedLock := s.path.closedLock.set k b } := rfl
@[simp] theorem State.setClosedLock_wb (k : Slot) (b : Bool) : (s.setClosedLock k b).wb = s.wb := rfl
@[simp] theorem State.setClosedLock_mport (k : Slot) (b : Bool) : (s.setClosedLock k b).mport = s.mport := rfl
@[simp] theorem State.setClosedLock_mem (k : Slot) (b : Bool) : (s.setClosedLock k b).mem = s.mem := rfl
@[simp] theorem State.setClosedLock_out (k : Slot) (b : Bool) : (s.setClosedLock k b).out = s.out := rfl
@[simp] theorem State.setClosedLock_free (k : Slot) (b : Bool) : (s.setClosedLock k b).free = s.free := rfl
@[simp] theorem State.setClosedLock_scratch (k : Slot) (b : Bool) : (s.setClosedLock k b).scratch = s.scratch := rfl

@[simp] theorem State.emit_pending (o : LinkOrder) : (s.emit o).pending = s.pending := rfl
@[simp] theorem State.emit_clock (o : LinkOrder) : (s.emit o).clock = s.clock := rfl
@[simp] theorem State.emit_cell (o : LinkOrder) : (s.emit o).cell = s.cell := rfl
@[simp] theorem State.emit_lots (o : LinkOrder) : (s.emit o).lots = s.lots := rfl
@[simp] theorem State.emit_reports (o : LinkOrder) : (s.emit o).reports = s.reports := rfl
@[simp] theorem State.emit_classTable (o : LinkOrder) : (s.emit o).classTable = s.classTable := rfl
@[simp] theorem State.emit_handling (o : LinkOrder) : (s.emit o).handling = s.handling := rfl
@[simp] theorem State.emit_motion (o : LinkOrder) : (s.emit o).motion = s.motion := rfl
@[simp] theorem State.emit_align (o : LinkOrder) : (s.emit o).align = s.align := rfl
@[simp] theorem State.emit_sensor (o : LinkOrder) : (s.emit o).sensor = s.sensor := rfl
@[simp] theorem State.emit_af (o : LinkOrder) : (s.emit o).af = s.af := rfl
@[simp] theorem State.emit_focusMap (o : LinkOrder) : (s.emit o).focusMap = s.focusMap := rfl
@[simp] theorem State.emit_revisit (o : LinkOrder) : (s.emit o).revisit = s.revisit := rfl
@[simp] theorem State.emit_grab (o : LinkOrder) : (s.emit o).grab = s.grab := rfl
@[simp] theorem State.emit_anchor (o : LinkOrder) : (s.emit o).anchor = s.anchor := rfl
@[simp] theorem State.emit_notice (o : LinkOrder) : (s.emit o).notice = s.notice := rfl
@[simp] theorem State.emit_path (o : LinkOrder) : (s.emit o).path = s.path := rfl
@[simp] theorem State.emit_wb (o : LinkOrder) : (s.emit o).wb = s.wb := rfl
@[simp] theorem State.emit_mport (o : LinkOrder) : (s.emit o).mport = s.mport := rfl
@[simp] theorem State.emit_mem (o : LinkOrder) : (s.emit o).mem = s.mem := rfl
@[simp] theorem State.emit_out (o : LinkOrder) : (s.emit o).out = s.out ++ [o] := rfl
@[simp] theorem State.emit_free (o : LinkOrder) : (s.emit o).free = s.free := rfl
@[simp] theorem State.emit_scratch (o : LinkOrder) : (s.emit o).scratch = s.scratch := rfl

@[simp] theorem State.say_pending (m : Msg) : (s.say m).pending = s.pending := rfl
@[simp] theorem State.say_clock (m : Msg) : (s.say m).clock = s.clock := rfl
@[simp] theorem State.say_cell (m : Msg) : (s.say m).cell = s.cell := rfl
@[simp] theorem State.say_lots (m : Msg) : (s.say m).lots = s.lots := rfl
@[simp] theorem State.say_reports (m : Msg) : (s.say m).reports = s.reports := rfl
@[simp] theorem State.say_classTable (m : Msg) : (s.say m).classTable = s.classTable := rfl
@[simp] theorem State.say_handling (m : Msg) : (s.say m).handling = s.handling := rfl
@[simp] theorem State.say_motion (m : Msg) : (s.say m).motion = s.motion := rfl
@[simp] theorem State.say_align (m : Msg) : (s.say m).align = s.align := rfl
@[simp] theorem State.say_sensor (m : Msg) : (s.say m).sensor = s.sensor := rfl
@[simp] theorem State.say_af (m : Msg) : (s.say m).af = s.af := rfl
@[simp] theorem State.say_focusMap (m : Msg) : (s.say m).focusMap = s.focusMap := rfl
@[simp] theorem State.say_revisit (m : Msg) : (s.say m).revisit = s.revisit := rfl
@[simp] theorem State.say_grab (m : Msg) : (s.say m).grab = s.grab := rfl
@[simp] theorem State.say_anchor (m : Msg) : (s.say m).anchor = s.anchor := rfl
@[simp] theorem State.say_notice (m : Msg) : (s.say m).notice = s.notice := rfl
@[simp] theorem State.say_path (m : Msg) : (s.say m).path = s.path := rfl
@[simp] theorem State.say_wb (m : Msg) : (s.say m).wb = s.wb := rfl
@[simp] theorem State.say_mport (m : Msg) : (s.say m).mport = s.mport := rfl
@[simp] theorem State.say_mem (m : Msg) : (s.say m).mem = s.mem := rfl
@[simp] theorem State.say_out (m : Msg) : (s.say m).out = s.out := rfl
@[simp] theorem State.say_free (m : Msg) : (s.say m).free = s.free := rfl
@[simp] theorem State.say_scratch (m : Msg) : (s.say m).scratch = { s.scratch with msgs := s.scratch.msgs ++ [m] } := rfl

@[simp] theorem State.sayAll_pending (ms : List Msg) : (s.sayAll ms).pending = s.pending := rfl
@[simp] theorem State.sayAll_clock (ms : List Msg) : (s.sayAll ms).clock = s.clock := rfl
@[simp] theorem State.sayAll_cell (ms : List Msg) : (s.sayAll ms).cell = s.cell := rfl
@[simp] theorem State.sayAll_lots (ms : List Msg) : (s.sayAll ms).lots = s.lots := rfl
@[simp] theorem State.sayAll_reports (ms : List Msg) : (s.sayAll ms).reports = s.reports := rfl
@[simp] theorem State.sayAll_classTable (ms : List Msg) : (s.sayAll ms).classTable = s.classTable := rfl
@[simp] theorem State.sayAll_handling (ms : List Msg) : (s.sayAll ms).handling = s.handling := rfl
@[simp] theorem State.sayAll_motion (ms : List Msg) : (s.sayAll ms).motion = s.motion := rfl
@[simp] theorem State.sayAll_align (ms : List Msg) : (s.sayAll ms).align = s.align := rfl
@[simp] theorem State.sayAll_sensor (ms : List Msg) : (s.sayAll ms).sensor = s.sensor := rfl
@[simp] theorem State.sayAll_af (ms : List Msg) : (s.sayAll ms).af = s.af := rfl
@[simp] theorem State.sayAll_focusMap (ms : List Msg) : (s.sayAll ms).focusMap = s.focusMap := rfl
@[simp] theorem State.sayAll_revisit (ms : List Msg) : (s.sayAll ms).revisit = s.revisit := rfl
@[simp] theorem State.sayAll_grab (ms : List Msg) : (s.sayAll ms).grab = s.grab := rfl
@[simp] theorem State.sayAll_anchor (ms : List Msg) : (s.sayAll ms).anchor = s.anchor := rfl
@[simp] theorem State.sayAll_notice (ms : List Msg) : (s.sayAll ms).notice = s.notice := rfl
@[simp] theorem State.sayAll_path (ms : List Msg) : (s.sayAll ms).path = s.path := rfl
@[simp] theorem State.sayAll_wb (ms : List Msg) : (s.sayAll ms).wb = s.wb := rfl
@[simp] theorem State.sayAll_mport (ms : List Msg) : (s.sayAll ms).mport = s.mport := rfl
@[simp] theorem State.sayAll_mem (ms : List Msg) : (s.sayAll ms).mem = s.mem := rfl
@[simp] theorem State.sayAll_out (ms : List Msg) : (s.sayAll ms).out = s.out := rfl
@[simp] theorem State.sayAll_free (ms : List Msg) : (s.sayAll ms).free = s.free := rfl
@[simp] theorem State.sayAll_scratch (ms : List Msg) : (s.sayAll ms).scratch = { s.scratch with msgs := s.scratch.msgs ++ ms } := rfl

@[simp] theorem State.setMsgs_pending (ms : List Msg) : (s.setMsgs ms).pending = s.pending := rfl
@[simp] theorem State.setMsgs_clock (ms : List Msg) : (s.setMsgs ms).clock = s.clock := rfl
@[simp] theorem State.setMsgs_cell (ms : List Msg) : (s.setMsgs ms).cell = s.cell := rfl
@[simp] theorem State.setMsgs_lots (ms : List Msg) : (s.setMsgs ms).lots = s.lots := rfl
@[simp] theorem State.setMsgs_reports (ms : List Msg) : (s.setMsgs ms).reports = s.reports := rfl
@[simp] theorem State.setMsgs_classTable (ms : List Msg) : (s.setMsgs ms).classTable = s.classTable := rfl
@[simp] theorem State.setMsgs_handling (ms : List Msg) : (s.setMsgs ms).handling = s.handling := rfl
@[simp] theorem State.setMsgs_motion (ms : List Msg) : (s.setMsgs ms).motion = s.motion := rfl
@[simp] theorem State.setMsgs_align (ms : List Msg) : (s.setMsgs ms).align = s.align := rfl
@[simp] theorem State.setMsgs_sensor (ms : List Msg) : (s.setMsgs ms).sensor = s.sensor := rfl
@[simp] theorem State.setMsgs_af (ms : List Msg) : (s.setMsgs ms).af = s.af := rfl
@[simp] theorem State.setMsgs_focusMap (ms : List Msg) : (s.setMsgs ms).focusMap = s.focusMap := rfl
@[simp] theorem State.setMsgs_revisit (ms : List Msg) : (s.setMsgs ms).revisit = s.revisit := rfl
@[simp] theorem State.setMsgs_grab (ms : List Msg) : (s.setMsgs ms).grab = s.grab := rfl
@[simp] theorem State.setMsgs_anchor (ms : List Msg) : (s.setMsgs ms).anchor = s.anchor := rfl
@[simp] theorem State.setMsgs_notice (ms : List Msg) : (s.setMsgs ms).notice = s.notice := rfl
@[simp] theorem State.setMsgs_path (ms : List Msg) : (s.setMsgs ms).path = s.path := rfl
@[simp] theorem State.setMsgs_wb (ms : List Msg) : (s.setMsgs ms).wb = s.wb := rfl
@[simp] theorem State.setMsgs_mport (ms : List Msg) : (s.setMsgs ms).mport = s.mport := rfl
@[simp] theorem State.setMsgs_mem (ms : List Msg) : (s.setMsgs ms).mem = s.mem := rfl
@[simp] theorem State.setMsgs_out (ms : List Msg) : (s.setMsgs ms).out = s.out := rfl
@[simp] theorem State.setMsgs_free (ms : List Msg) : (s.setMsgs ms).free = s.free := rfl
@[simp] theorem State.setMsgs_scratch (ms : List Msg) : (s.setMsgs ms).scratch = { s.scratch with msgs := ms } := rfl

theorem State.whenDue_due {t : Timer} (h : t.due s.clock = true) (f : State → State) : s.whenDue t f = f s := if_pos h
theorem State.whenDue_not {t : Timer} (h : t.due s.clock = false) (f : State → State) : s.whenDue t f = s :=
  if_neg (by rw [h]; decide)

/-! Direct writes entering the queue: none waits, the oldest does not fit, the only one fits, or the oldest of several does (R184). -/

theorem State.enterDirect_nil (h : s.wb.direct = []) : s.enterDirect = s := by simp [State.enterDirect, h, State.enterDirectFor]
theorem State.enterDirect_full (h : queueSize < s.mport.queued + 8) : s.enterDirect = s := by
  unfold State.enterDirect
  cases s.wb.direct with
  | nil => rfl
  | cons d rest =>
    simp only [List.length_cons, State.enterDirectFor]
    split
    · exact if_neg (by omega)
    · rfl
theorem State.enterDirect_cons {ws : Windows} {d : HeldImage} {rest : List HeldImage} (hw : s.path.windows = some ws)
    (hd : s.wb.direct = d :: rest) (hq : s.mport.queued + 8 ≤ queueSize) : s.enterDirect = (s.moveDirect ws d rest).enterDirect := by
  simp [State.enterDirect, hd, hw, hq, State.enterDirectFor, State.moveDirect, State.askAll]

@[simp] theorem State.moveDirect_pending (ws : Windows) (h : HeldImage) (rest : List HeldImage) : (s.moveDirect ws h rest).pending = s.pending := rfl
@[simp] theorem State.moveDirect_clock (ws : Windows) (h : HeldImage) (rest : List HeldImage) : (s.moveDirect ws h rest).clock = s.clock := rfl
@[simp] theorem State.moveDirect_cell (ws : Windows) (h : HeldImage) (rest : List HeldImage) : (s.moveDirect ws h rest).cell = s.cell := rfl
@[simp] theorem State.moveDirect_lots (ws : Windows) (h : HeldImage) (rest : List HeldImage) : (s.moveDirect ws h rest).lots = s.lots := rfl
@[simp] theorem State.moveDirect_reports (ws : Windows) (h : HeldImage) (rest : List HeldImage) : (s.moveDirect ws h rest).reports = s.reports := rfl
@[simp] theorem State.moveDirect_classTable (ws : Windows) (h : HeldImage) (rest : List HeldImage) : (s.moveDirect ws h rest).classTable = s.classTable := rfl
@[simp] theorem State.moveDirect_handling (ws : Windows) (h : HeldImage) (rest : List HeldImage) : (s.moveDirect ws h rest).handling = s.handling := rfl
@[simp] theorem State.moveDirect_motion (ws : Windows) (h : HeldImage) (rest : List HeldImage) : (s.moveDirect ws h rest).motion = s.motion := rfl
@[simp] theorem State.moveDirect_align (ws : Windows) (h : HeldImage) (rest : List HeldImage) : (s.moveDirect ws h rest).align = s.align := rfl
@[simp] theorem State.moveDirect_sensor (ws : Windows) (h : HeldImage) (rest : List HeldImage) : (s.moveDirect ws h rest).sensor = s.sensor := rfl
@[simp] theorem State.moveDirect_af (ws : Windows) (h : HeldImage) (rest : List HeldImage) : (s.moveDirect ws h rest).af = s.af := rfl
@[simp] theorem State.moveDirect_focusMap (ws : Windows) (h : HeldImage) (rest : List HeldImage) : (s.moveDirect ws h rest).focusMap = s.focusMap := rfl
@[simp] theorem State.moveDirect_revisit (ws : Windows) (h : HeldImage) (rest : List HeldImage) : (s.moveDirect ws h rest).revisit = s.revisit := rfl
@[simp] theorem State.moveDirect_grab (ws : Windows) (h : HeldImage) (rest : List HeldImage) : (s.moveDirect ws h rest).grab = s.grab := rfl
@[simp] theorem State.moveDirect_anchor (ws : Windows) (h : HeldImage) (rest : List HeldImage) : (s.moveDirect ws h rest).anchor = s.anchor := rfl
@[simp] theorem State.moveDirect_notice (ws : Windows) (h : HeldImage) (rest : List HeldImage) : (s.moveDirect ws h rest).notice = s.notice := rfl
@[simp] theorem State.moveDirect_path (ws : Windows) (h : HeldImage) (rest : List HeldImage) : (s.moveDirect ws h rest).path = s.path := rfl
@[simp] theorem State.moveDirect_wb (ws : Windows) (h : HeldImage) (rest : List HeldImage) : (s.moveDirect ws h rest).wb = { s.wb with direct := rest } := rfl
@[simp] theorem State.moveDirect_mport (ws : Windows) (h : HeldImage) (rest : List HeldImage) :
    (s.moveDirect ws h rest).mport = { s.mport with
      requests := s.mport.requests ++ queueWords ws h.id (s.heldWord h.id) [8, 9, 10, 11, 12, 13, 14, 15] } := rfl
@[simp] theorem State.moveDirect_mem (ws : Windows) (h : HeldImage) (rest : List HeldImage) : (s.moveDirect ws h rest).mem = s.mem := rfl
@[simp] theorem State.moveDirect_out (ws : Windows) (h : HeldImage) (rest : List HeldImage) : (s.moveDirect ws h rest).out = s.out := rfl
@[simp] theorem State.moveDirect_free (ws : Windows) (h : HeldImage) (rest : List HeldImage) : (s.moveDirect ws h rest).free = s.free := rfl
@[simp] theorem State.moveDirect_scratch (ws : Windows) (h : HeldImage) (rest : List HeldImage) : (s.moveDirect ws h rest).scratch = s.scratch := rfl

@[simp] theorem State.countStale_pending : (s.countStale).pending = s.pending := rfl
@[simp] theorem State.countStale_clock : (s.countStale).clock = s.clock := rfl
@[simp] theorem State.countStale_cell : (s.countStale).cell = s.cell := rfl
@[simp] theorem State.countStale_lots : (s.countStale).lots = s.lots := rfl
@[simp] theorem State.countStale_reports : (s.countStale).reports = s.reports := rfl
@[simp] theorem State.countStale_classTable : (s.countStale).classTable = s.classTable := rfl
@[simp] theorem State.countStale_handling : (s.countStale).handling = s.handling := rfl
@[simp] theorem State.countStale_motion : (s.countStale).motion = s.motion := rfl
@[simp] theorem State.countStale_align : (s.countStale).align = s.align := rfl
@[simp] theorem State.countStale_sensor : (s.countStale).sensor = s.sensor := rfl
@[simp] theorem State.countStale_af : (s.countStale).af = s.af := rfl
@[simp] theorem State.countStale_focusMap : (s.countStale).focusMap = s.focusMap := rfl
@[simp] theorem State.countStale_revisit : (s.countStale).revisit = s.revisit := rfl
@[simp] theorem State.countStale_grab : (s.countStale).grab = s.grab := rfl
@[simp] theorem State.countStale_anchor : (s.countStale).anchor = { s.anchor with stale := satInc 65535 s.anchor.stale } := rfl
@[simp] theorem State.countStale_notice : (s.countStale).notice = s.notice := rfl
@[simp] theorem State.countStale_path : (s.countStale).path = s.path := rfl
@[simp] theorem State.countStale_wb : (s.countStale).wb = s.wb := rfl
@[simp] theorem State.countStale_mport : (s.countStale).mport = s.mport := rfl
@[simp] theorem State.countStale_mem : (s.countStale).mem = s.mem := rfl
@[simp] theorem State.countStale_out : (s.countStale).out = s.out := rfl
@[simp] theorem State.countStale_free : (s.countStale).free = s.free := rfl
@[simp] theorem State.countStale_scratch : (s.countStale).scratch = s.scratch := rfl

@[simp] theorem State.countCaptureMiss_pending : (s.countCaptureMiss).pending = s.pending := rfl
@[simp] theorem State.countCaptureMiss_clock : (s.countCaptureMiss).clock = s.clock := rfl
@[simp] theorem State.countCaptureMiss_cell : (s.countCaptureMiss).cell = s.cell := rfl
@[simp] theorem State.countCaptureMiss_lots : (s.countCaptureMiss).lots = s.lots := rfl
@[simp] theorem State.countCaptureMiss_reports : (s.countCaptureMiss).reports = s.reports := rfl
@[simp] theorem State.countCaptureMiss_classTable : (s.countCaptureMiss).classTable = s.classTable := rfl
@[simp] theorem State.countCaptureMiss_handling : (s.countCaptureMiss).handling = s.handling := rfl
@[simp] theorem State.countCaptureMiss_motion : (s.countCaptureMiss).motion = s.motion := rfl
@[simp] theorem State.countCaptureMiss_align : (s.countCaptureMiss).align = s.align := rfl
@[simp] theorem State.countCaptureMiss_sensor : (s.countCaptureMiss).sensor = s.sensor := rfl
@[simp] theorem State.countCaptureMiss_af : (s.countCaptureMiss).af = s.af := rfl
@[simp] theorem State.countCaptureMiss_focusMap : (s.countCaptureMiss).focusMap = s.focusMap := rfl
@[simp] theorem State.countCaptureMiss_revisit : (s.countCaptureMiss).revisit = s.revisit := rfl
@[simp] theorem State.countCaptureMiss_grab : (s.countCaptureMiss).grab = s.grab := rfl
@[simp] theorem State.countCaptureMiss_anchor : (s.countCaptureMiss).anchor = { s.anchor with captureMiss := satInc 65535 s.anchor.captureMiss } := rfl
@[simp] theorem State.countCaptureMiss_notice : (s.countCaptureMiss).notice = s.notice := rfl
@[simp] theorem State.countCaptureMiss_path : (s.countCaptureMiss).path = s.path := rfl
@[simp] theorem State.countCaptureMiss_wb : (s.countCaptureMiss).wb = s.wb := rfl
@[simp] theorem State.countCaptureMiss_mport : (s.countCaptureMiss).mport = s.mport := rfl
@[simp] theorem State.countCaptureMiss_mem : (s.countCaptureMiss).mem = s.mem := rfl
@[simp] theorem State.countCaptureMiss_out : (s.countCaptureMiss).out = s.out := rfl
@[simp] theorem State.countCaptureMiss_free : (s.countCaptureMiss).free = s.free := rfl
@[simp] theorem State.countCaptureMiss_scratch : (s.countCaptureMiss).scratch = s.scratch := rfl

@[simp] theorem State.setVersion_pending (id : RecId) (v : Word) : (s.setVersion id v).pending = s.pending := rfl
@[simp] theorem State.setVersion_clock (id : RecId) (v : Word) : (s.setVersion id v).clock = s.clock := rfl
@[simp] theorem State.setVersion_cell (id : RecId) (v : Word) : (s.setVersion id v).cell = s.cell := rfl
@[simp] theorem State.setVersion_lots (id : RecId) (v : Word) : (s.setVersion id v).lots = s.lots := rfl
@[simp] theorem State.setVersion_reports (id : RecId) (v : Word) : (s.setVersion id v).reports = s.reports := rfl
@[simp] theorem State.setVersion_classTable (id : RecId) (v : Word) : (s.setVersion id v).classTable = s.classTable := rfl
@[simp] theorem State.setVersion_handling (id : RecId) (v : Word) : (s.setVersion id v).handling = s.handling := rfl
@[simp] theorem State.setVersion_motion (id : RecId) (v : Word) : (s.setVersion id v).motion = s.motion := rfl
@[simp] theorem State.setVersion_align (id : RecId) (v : Word) : (s.setVersion id v).align = s.align := rfl
@[simp] theorem State.setVersion_sensor (id : RecId) (v : Word) : (s.setVersion id v).sensor = s.sensor := rfl
@[simp] theorem State.setVersion_af (id : RecId) (v : Word) : (s.setVersion id v).af = s.af := rfl
@[simp] theorem State.setVersion_focusMap (id : RecId) (v : Word) : (s.setVersion id v).focusMap = s.focusMap := rfl
@[simp] theorem State.setVersion_revisit (id : RecId) (v : Word) : (s.setVersion id v).revisit = s.revisit := rfl
@[simp] theorem State.setVersion_grab (id : RecId) (v : Word) : (s.setVersion id v).grab = s.grab := rfl
@[simp] theorem State.setVersion_anchor (id : RecId) (v : Word) : (s.setVersion id v).anchor = s.anchor := rfl
@[simp] theorem State.setVersion_notice (id : RecId) (v : Word) : (s.setVersion id v).notice = s.notice := rfl
@[simp] theorem State.setVersion_path (id : RecId) (v : Word) : (s.setVersion id v).path = s.path := rfl
@[simp] theorem State.setVersion_wb (id : RecId) (v : Word) : (s.setVersion id v).wb = { s.wb with versions := putVersion s.wb.versions id v } := rfl
@[simp] theorem State.setVersion_mport (id : RecId) (v : Word) : (s.setVersion id v).mport = s.mport := rfl
@[simp] theorem State.setVersion_mem (id : RecId) (v : Word) : (s.setVersion id v).mem = s.mem := rfl
@[simp] theorem State.setVersion_out (id : RecId) (v : Word) : (s.setVersion id v).out = s.out := rfl
@[simp] theorem State.setVersion_free (id : RecId) (v : Word) : (s.setVersion id v).free = s.free := rfl

@[simp] theorem State.writeWhole_pending (id : RecId) : (s.writeWhole id).pending = s.pending := rfl
@[simp] theorem State.writeWhole_clock (id : RecId) : (s.writeWhole id).clock = s.clock := rfl
@[simp] theorem State.writeWhole_cell (id : RecId) : (s.writeWhole id).cell = s.cell := rfl
@[simp] theorem State.writeWhole_lots (id : RecId) : (s.writeWhole id).lots = s.lots := rfl
@[simp] theorem State.writeWhole_reports (id : RecId) : (s.writeWhole id).reports = s.reports := rfl
@[simp] theorem State.writeWhole_classTable (id : RecId) : (s.writeWhole id).classTable = s.classTable := rfl
@[simp] theorem State.writeWhole_handling (id : RecId) : (s.writeWhole id).handling = s.handling := rfl
@[simp] theorem State.writeWhole_motion (id : RecId) : (s.writeWhole id).motion = s.motion := rfl
@[simp] theorem State.writeWhole_align (id : RecId) : (s.writeWhole id).align = s.align := rfl
@[simp] theorem State.writeWhole_sensor (id : RecId) : (s.writeWhole id).sensor = s.sensor := rfl
@[simp] theorem State.writeWhole_af (id : RecId) : (s.writeWhole id).af = s.af := rfl
@[simp] theorem State.writeWhole_focusMap (id : RecId) : (s.writeWhole id).focusMap = s.focusMap := rfl
@[simp] theorem State.writeWhole_revisit (id : RecId) : (s.writeWhole id).revisit = s.revisit := rfl
@[simp] theorem State.writeWhole_grab (id : RecId) : (s.writeWhole id).grab = s.grab := rfl
@[simp] theorem State.writeWhole_anchor (id : RecId) : (s.writeWhole id).anchor = s.anchor := rfl
@[simp] theorem State.writeWhole_notice (id : RecId) : (s.writeWhole id).notice = s.notice := rfl
@[simp] theorem State.writeWhole_path (id : RecId) : (s.writeWhole id).path = s.path := rfl
@[simp] theorem State.writeWhole_wb (id : RecId) : (s.writeWhole id).wb = s.wb := rfl
@[simp] theorem State.writeWhole_mport (id : RecId) : (s.writeWhole id).mport = s.mport := rfl
@[simp] theorem State.writeWhole_mem (id : RecId) : (s.writeWhole id).mem = s.mem := rfl
@[simp] theorem State.writeWhole_out (id : RecId) : (s.writeWhole id).out = s.out := rfl
@[simp] theorem State.writeWhole_free (id : RecId) : (s.writeWhole id).free = s.free := rfl

@[simp] theorem State.ask_pending (q : PartRequest) : (s.ask q).pending = s.pending := rfl
@[simp] theorem State.ask_clock (q : PartRequest) : (s.ask q).clock = s.clock := rfl
@[simp] theorem State.ask_cell (q : PartRequest) : (s.ask q).cell = s.cell := rfl
@[simp] theorem State.ask_lots (q : PartRequest) : (s.ask q).lots = s.lots := rfl
@[simp] theorem State.ask_reports (q : PartRequest) : (s.ask q).reports = s.reports := rfl
@[simp] theorem State.ask_classTable (q : PartRequest) : (s.ask q).classTable = s.classTable := rfl
@[simp] theorem State.ask_handling (q : PartRequest) : (s.ask q).handling = s.handling := rfl
@[simp] theorem State.ask_motion (q : PartRequest) : (s.ask q).motion = s.motion := rfl
@[simp] theorem State.ask_align (q : PartRequest) : (s.ask q).align = s.align := rfl
@[simp] theorem State.ask_sensor (q : PartRequest) : (s.ask q).sensor = s.sensor := rfl
@[simp] theorem State.ask_af (q : PartRequest) : (s.ask q).af = s.af := rfl
@[simp] theorem State.ask_focusMap (q : PartRequest) : (s.ask q).focusMap = s.focusMap := rfl
@[simp] theorem State.ask_revisit (q : PartRequest) : (s.ask q).revisit = s.revisit := rfl
@[simp] theorem State.ask_grab (q : PartRequest) : (s.ask q).grab = s.grab := rfl
@[simp] theorem State.ask_anchor (q : PartRequest) : (s.ask q).anchor = s.anchor := rfl
@[simp] theorem State.ask_notice (q : PartRequest) : (s.ask q).notice = s.notice := rfl
@[simp] theorem State.ask_path (q : PartRequest) : (s.ask q).path = s.path := rfl
@[simp] theorem State.ask_wb (q : PartRequest) : (s.ask q).wb = s.wb := rfl
@[simp] theorem State.ask_mport (q : PartRequest) : (s.ask q).mport = { s.mport with requests := s.mport.requests ++ [q] } := rfl
@[simp] theorem State.ask_mem (q : PartRequest) : (s.ask q).mem = s.mem := rfl
@[simp] theorem State.ask_out (q : PartRequest) : (s.ask q).out = s.out := rfl
@[simp] theorem State.ask_free (q : PartRequest) : (s.ask q).free = s.free := rfl
@[simp] theorem State.ask_scratch (q : PartRequest) : (s.ask q).scratch = s.scratch := rfl

@[simp] theorem State.askAll_pending (qs : List PartRequest) : (s.askAll qs).pending = s.pending := rfl
@[simp] theorem State.askAll_clock (qs : List PartRequest) : (s.askAll qs).clock = s.clock := rfl
@[simp] theorem State.askAll_cell (qs : List PartRequest) : (s.askAll qs).cell = s.cell := rfl
@[simp] theorem State.askAll_lots (qs : List PartRequest) : (s.askAll qs).lots = s.lots := rfl
@[simp] theorem State.askAll_reports (qs : List PartRequest) : (s.askAll qs).reports = s.reports := rfl
@[simp] theorem State.askAll_classTable (qs : List PartRequest) : (s.askAll qs).classTable = s.classTable := rfl
@[simp] theorem State.askAll_handling (qs : List PartRequest) : (s.askAll qs).handling = s.handling := rfl
@[simp] theorem State.askAll_motion (qs : List PartRequest) : (s.askAll qs).motion = s.motion := rfl
@[simp] theorem State.askAll_align (qs : List PartRequest) : (s.askAll qs).align = s.align := rfl
@[simp] theorem State.askAll_sensor (qs : List PartRequest) : (s.askAll qs).sensor = s.sensor := rfl
@[simp] theorem State.askAll_af (qs : List PartRequest) : (s.askAll qs).af = s.af := rfl
@[simp] theorem State.askAll_focusMap (qs : List PartRequest) : (s.askAll qs).focusMap = s.focusMap := rfl
@[simp] theorem State.askAll_revisit (qs : List PartRequest) : (s.askAll qs).revisit = s.revisit := rfl
@[simp] theorem State.askAll_grab (qs : List PartRequest) : (s.askAll qs).grab = s.grab := rfl
@[simp] theorem State.askAll_anchor (qs : List PartRequest) : (s.askAll qs).anchor = s.anchor := rfl
@[simp] theorem State.askAll_notice (qs : List PartRequest) : (s.askAll qs).notice = s.notice := rfl
@[simp] theorem State.askAll_path (qs : List PartRequest) : (s.askAll qs).path = s.path := rfl
@[simp] theorem State.askAll_wb (qs : List PartRequest) : (s.askAll qs).wb = s.wb := rfl
@[simp] theorem State.askAll_mport (qs : List PartRequest) : (s.askAll qs).mport = { s.mport with requests := s.mport.requests ++ qs } := rfl
@[simp] theorem State.askAll_mem (qs : List PartRequest) : (s.askAll qs).mem = s.mem := rfl
@[simp] theorem State.askAll_out (qs : List PartRequest) : (s.askAll qs).out = s.out := rfl
@[simp] theorem State.askAll_free (qs : List PartRequest) : (s.askAll qs).free = s.free := rfl
@[simp] theorem State.askAll_scratch (qs : List PartRequest) : (s.askAll qs).scratch = s.scratch := rfl

@[simp] theorem State.endService_pending : (s.endService).pending = s.pending := rfl
@[simp] theorem State.endService_clock : (s.endService).clock = s.clock := rfl
@[simp] theorem State.endService_cell : (s.endService).cell = s.cell := rfl
@[simp] theorem State.endService_lots : (s.endService).lots = s.lots := rfl
@[simp] theorem State.endService_reports : (s.endService).reports = s.reports := rfl
@[simp] theorem State.endService_classTable : (s.endService).classTable = s.classTable := rfl
@[simp] theorem State.endService_handling : (s.endService).handling = s.handling := rfl
@[simp] theorem State.endService_motion : (s.endService).motion = s.motion := rfl
@[simp] theorem State.endService_align : (s.endService).align = s.align := rfl
@[simp] theorem State.endService_sensor : (s.endService).sensor = s.sensor := rfl
@[simp] theorem State.endService_af : (s.endService).af = s.af := rfl
@[simp] theorem State.endService_focusMap : (s.endService).focusMap = s.focusMap := rfl
@[simp] theorem State.endService_revisit : (s.endService).revisit = s.revisit := rfl
@[simp] theorem State.endService_grab : (s.endService).grab = s.grab := rfl
@[simp] theorem State.endService_anchor : (s.endService).anchor = s.anchor := rfl
@[simp] theorem State.endService_notice : (s.endService).notice = s.notice := rfl
@[simp] theorem State.endService_path : (s.endService).path = s.path := rfl
@[simp] theorem State.endService_wb : (s.endService).wb = s.wb := rfl
@[simp] theorem State.endService_mport : (s.endService).mport = { s.mport with requests := s.mport.requests.tail, serving := none } := rfl
@[simp] theorem State.endService_mem : (s.endService).mem = s.mem := rfl
@[simp] theorem State.endService_out : (s.endService).out = s.out := rfl
@[simp] theorem State.endService_free : (s.endService).free = s.free := rfl
@[simp] theorem State.endService_scratch : (s.endService).scratch = s.scratch := rfl

@[simp] theorem State.begin_pending : (s.begin).pending = s.pending := rfl
@[simp] theorem State.begin_clock : (s.begin).clock = s.clock := rfl
@[simp] theorem State.begin_cell : (s.begin).cell = s.cell := rfl
@[simp] theorem State.begin_lots : (s.begin).lots = s.lots := rfl
@[simp] theorem State.begin_reports : (s.begin).reports = s.reports := rfl
@[simp] theorem State.begin_classTable : (s.begin).classTable = s.classTable := rfl
@[simp] theorem State.begin_handling : (s.begin).handling = s.handling := rfl
@[simp] theorem State.begin_motion : (s.begin).motion = s.motion := rfl
@[simp] theorem State.begin_align : (s.begin).align = s.align := rfl
@[simp] theorem State.begin_sensor : (s.begin).sensor = s.sensor := rfl
@[simp] theorem State.begin_af : (s.begin).af = s.af := rfl
@[simp] theorem State.begin_focusMap : (s.begin).focusMap = s.focusMap := rfl
@[simp] theorem State.begin_revisit : (s.begin).revisit = s.revisit := rfl
@[simp] theorem State.begin_grab : (s.begin).grab = s.grab := rfl
@[simp] theorem State.begin_anchor : (s.begin).anchor = s.anchor := rfl
@[simp] theorem State.begin_notice : (s.begin).notice = s.notice := rfl
@[simp] theorem State.begin_path : (s.begin).path = s.path := rfl
@[simp] theorem State.begin_wb : (s.begin).wb = s.wb := rfl
@[simp] theorem State.begin_mport : (s.begin).mport = s.mport := rfl
@[simp] theorem State.begin_mem : (s.begin).mem = s.mem := rfl
@[simp] theorem State.begin_out : (s.begin).out = [] := rfl
@[simp] theorem State.begin_free : (s.begin).free = s.free := rfl
@[simp] theorem State.begin_scratch : (s.begin).scratch = Scratch.empty := rfl

@[simp] theorem State.tick_pending : (s.tick).pending = s.pending := rfl
@[simp] theorem State.tick_clock : (s.tick).clock = s.clock + 1 := rfl
@[simp] theorem State.tick_cell : (s.tick).cell = s.cell := rfl
@[simp] theorem State.tick_lots : (s.tick).lots = s.lots := rfl
@[simp] theorem State.tick_reports : (s.tick).reports = s.reports := rfl
@[simp] theorem State.tick_classTable : (s.tick).classTable = s.classTable := rfl
@[simp] theorem State.tick_handling : (s.tick).handling = s.handling := rfl
@[simp] theorem State.tick_motion : (s.tick).motion = s.motion := rfl
@[simp] theorem State.tick_align : (s.tick).align = s.align := rfl
@[simp] theorem State.tick_sensor : (s.tick).sensor = s.sensor := rfl
@[simp] theorem State.tick_af : (s.tick).af = s.af := rfl
@[simp] theorem State.tick_focusMap : (s.tick).focusMap = s.focusMap := rfl
@[simp] theorem State.tick_revisit : (s.tick).revisit = s.revisit := rfl
@[simp] theorem State.tick_grab : (s.tick).grab = s.grab := rfl
@[simp] theorem State.tick_anchor : (s.tick).anchor = s.anchor := rfl
@[simp] theorem State.tick_notice : (s.tick).notice = s.notice := rfl
@[simp] theorem State.tick_path : (s.tick).path = s.path := rfl
@[simp] theorem State.tick_wb : (s.tick).wb = s.wb := rfl
@[simp] theorem State.tick_mport : (s.tick).mport = s.mport := rfl
@[simp] theorem State.tick_mem : (s.tick).mem = s.mem := rfl
@[simp] theorem State.tick_out : (s.tick).out = [] := rfl
@[simp] theorem State.tick_free : (s.tick).free = s.free := rfl
@[simp] theorem State.tick_scratch : (s.tick).scratch = s.scratch := rfl

@[simp] theorem State.raise_pending (k : NoticeKind) : (s.raise k).pending = s.pending := by unfold State.raise; split <;> rfl
@[simp] theorem State.raise_clock (k : NoticeKind) : (s.raise k).clock = s.clock := by unfold State.raise; split <;> rfl
@[simp] theorem State.raise_cell (k : NoticeKind) : (s.raise k).cell = s.cell := by unfold State.raise; split <;> rfl
@[simp] theorem State.raise_lots (k : NoticeKind) : (s.raise k).lots = s.lots := by unfold State.raise; split <;> rfl
@[simp] theorem State.raise_reports (k : NoticeKind) : (s.raise k).reports = s.reports := by unfold State.raise; split <;> rfl
@[simp] theorem State.raise_classTable (k : NoticeKind) : (s.raise k).classTable = s.classTable := by unfold State.raise; split <;> rfl
@[simp] theorem State.raise_handling (k : NoticeKind) : (s.raise k).handling = s.handling := by unfold State.raise; split <;> rfl
@[simp] theorem State.raise_motion (k : NoticeKind) : (s.raise k).motion = s.motion := by unfold State.raise; split <;> rfl
@[simp] theorem State.raise_align (k : NoticeKind) : (s.raise k).align = s.align := by unfold State.raise; split <;> rfl
@[simp] theorem State.raise_sensor (k : NoticeKind) : (s.raise k).sensor = s.sensor := by unfold State.raise; split <;> rfl
@[simp] theorem State.raise_af (k : NoticeKind) : (s.raise k).af = s.af := by unfold State.raise; split <;> rfl
@[simp] theorem State.raise_focusMap (k : NoticeKind) : (s.raise k).focusMap = s.focusMap := by unfold State.raise; split <;> rfl
@[simp] theorem State.raise_revisit (k : NoticeKind) : (s.raise k).revisit = s.revisit := by unfold State.raise; split <;> rfl
@[simp] theorem State.raise_grab (k : NoticeKind) : (s.raise k).grab = s.grab := by unfold State.raise; split <;> rfl
@[simp] theorem State.raise_anchor (k : NoticeKind) : (s.raise k).anchor = s.anchor := by unfold State.raise; split <;> rfl
@[simp] theorem State.raise_path (k : NoticeKind) : (s.raise k).path = s.path := by unfold State.raise; split <;> rfl
@[simp] theorem State.raise_wb (k : NoticeKind) : (s.raise k).wb = s.wb := by unfold State.raise; split <;> rfl
@[simp] theorem State.raise_mport (k : NoticeKind) : (s.raise k).mport = s.mport := by unfold State.raise; split <;> rfl
@[simp] theorem State.raise_mem (k : NoticeKind) : (s.raise k).mem = s.mem := by unfold State.raise; split <;> rfl
@[simp] theorem State.raise_out (k : NoticeKind) : (s.raise k).out = s.out := by unfold State.raise; split <;> rfl
@[simp] theorem State.raise_free (k : NoticeKind) : (s.raise k).free = s.free := by unfold State.raise; split <;> rfl
@[simp] theorem State.raise_scratch (k : NoticeKind) : (s.raise k).scratch = s.scratch := by unfold State.raise; split <;> rfl

@[simp] theorem State.countMasked_pending : s.countMasked.pending = s.pending := by simp [State.countMasked]
@[simp] theorem State.countMasked_clock : s.countMasked.clock = s.clock := by simp [State.countMasked]
@[simp] theorem State.countMasked_cell : s.countMasked.cell = s.cell := by simp [State.countMasked]
@[simp] theorem State.countMasked_lots : s.countMasked.lots = s.lots := by simp [State.countMasked]
@[simp] theorem State.countMasked_reports : s.countMasked.reports = s.reports := by simp [State.countMasked]
@[simp] theorem State.countMasked_classTable : s.countMasked.classTable = s.classTable := by simp [State.countMasked]
@[simp] theorem State.countMasked_handling : s.countMasked.handling = s.handling := by simp [State.countMasked]
@[simp] theorem State.countMasked_motion : s.countMasked.motion = s.motion := by simp [State.countMasked]
@[simp] theorem State.countMasked_align : s.countMasked.align = s.align := by simp [State.countMasked]
@[simp] theorem State.countMasked_sensor : s.countMasked.sensor = s.sensor := by simp [State.countMasked]
@[simp] theorem State.countMasked_af : s.countMasked.af = s.af := by simp [State.countMasked]
@[simp] theorem State.countMasked_focusMap : s.countMasked.focusMap = s.focusMap := by simp [State.countMasked]
@[simp] theorem State.countMasked_revisit : s.countMasked.revisit = s.revisit := by simp [State.countMasked]
@[simp] theorem State.countMasked_grab : s.countMasked.grab = s.grab := by simp [State.countMasked]
@[simp] theorem State.countMasked_path : s.countMasked.path = s.path := by simp [State.countMasked]
@[simp] theorem State.countMasked_wb : s.countMasked.wb = s.wb := by simp [State.countMasked]
@[simp] theorem State.countMasked_mport : s.countMasked.mport = s.mport := by simp [State.countMasked]
@[simp] theorem State.countMasked_mem : s.countMasked.mem = s.mem := by simp [State.countMasked]
@[simp] theorem State.countMasked_out : s.countMasked.out = s.out := by simp [State.countMasked]
@[simp] theorem State.countMasked_free : s.countMasked.free = s.free := by simp [State.countMasked]
@[simp] theorem State.countMasked_scratch : s.countMasked.scratch = s.scratch := by simp [State.countMasked]
@[simp] theorem State.countMasked_anchor :
    s.countMasked.anchor = { s.anchor with masked := satInc 65535 s.anchor.masked } := by simp [State.countMasked]

@[simp] theorem State.mask_pending (a : PAccess) : (s.mask a).pending = s.pending := by simp [State.mask]
@[simp] theorem State.mask_clock (a : PAccess) : (s.mask a).clock = s.clock := by simp [State.mask]
@[simp] theorem State.mask_cell (a : PAccess) : (s.mask a).cell = s.cell := by simp [State.mask]
@[simp] theorem State.mask_lots (a : PAccess) : (s.mask a).lots = s.lots := by simp [State.mask]
@[simp] theorem State.mask_reports (a : PAccess) : (s.mask a).reports = s.reports := by simp [State.mask]
@[simp] theorem State.mask_classTable (a : PAccess) : (s.mask a).classTable = s.classTable := by simp [State.mask]
@[simp] theorem State.mask_handling (a : PAccess) : (s.mask a).handling = s.handling := by simp [State.mask]
@[simp] theorem State.mask_motion (a : PAccess) : (s.mask a).motion = s.motion := by simp [State.mask]
@[simp] theorem State.mask_align (a : PAccess) : (s.mask a).align = s.align := by simp [State.mask]
@[simp] theorem State.mask_sensor (a : PAccess) : (s.mask a).sensor = s.sensor := by simp [State.mask]
@[simp] theorem State.mask_af (a : PAccess) : (s.mask a).af = s.af := by simp [State.mask]
@[simp] theorem State.mask_focusMap (a : PAccess) : (s.mask a).focusMap = s.focusMap := by simp [State.mask]
@[simp] theorem State.mask_revisit (a : PAccess) : (s.mask a).revisit = s.revisit := by simp [State.mask]
@[simp] theorem State.mask_grab (a : PAccess) : (s.mask a).grab = s.grab := by simp [State.mask]
@[simp] theorem State.mask_wb (a : PAccess) : (s.mask a).wb = s.wb := by simp [State.mask]
@[simp] theorem State.mask_mport (a : PAccess) : (s.mask a).mport = s.mport := by simp [State.mask]
@[simp] theorem State.mask_mem (a : PAccess) : (s.mask a).mem = s.mem := by simp [State.mask]
@[simp] theorem State.mask_out (a : PAccess) : (s.mask a).out = s.out := by simp [State.mask]
@[simp] theorem State.mask_free (a : PAccess) : (s.mask a).free = s.free := by simp [State.mask]
@[simp] theorem State.mask_scratch (a : PAccess) : (s.mask a).scratch = s.scratch := by simp [State.mask]
@[simp] theorem State.mask_anchor (a : PAccess) :
    (s.mask a).anchor = { s.anchor with masked := satInc 65535 s.anchor.masked } := by simp [State.mask]
@[simp] theorem State.mask_path (a : PAccess) :
    (s.mask a).path = { s.path with slot := .waiting { a with be := 0 } } := by simp [State.mask]

end Sys2Proof.Machine
end

