-- ==== Sys2Proof/Laws/Finish.lean ====
section
/-! SUPPORT. What the end of a step changes: the write-back record and the M-port's choice, and nothing else of State. -/

namespace Sys2Proof.Machine

/-- Everything of a state but its write-back record. -/
def State.withoutWb (s : State) : State := { s with wb := WriteBack.reset }

theorem State.commitRecord_withoutWb (s0 s : State) (id : RecId) : (State.commitRecord s0 s id).withoutWb = s.withoutWb := by
  unfold State.commitRecord
  split
  · rfl
  · dsimp only
    split <;> rfl

theorem State.foldl_commitRecord_withoutWb (s0 : State) (ids : List RecId) :
    ∀ s : State, (ids.foldl (State.commitRecord s0) s).withoutWb = s.withoutWb := by
  induction ids with
  | nil => intro s; rfl
  | cons id ids ih => intro s; rw [List.foldl_cons, ih, State.commitRecord_withoutWb]

theorem State.commit_withoutWb (s0 s : State) : (State.commit s0 s).withoutWb = s.withoutWb := by
  have h := State.foldl_commitRecord_withoutWb s0 s.candidates s
  unfold State.commit State.commitAnchor
  generalize s.candidates.foldl (State.commitRecord s0) s = r at h ⊢
  split
  · exact h
  · exact h

theorem State.prune_withoutWb (s : State) : s.prune.withoutWb = s.withoutWb := rfl

/-- The commit and the prune change the write-back record alone. -/
theorem State.commit_prune_withoutWb (s0 s : State) : (State.commit s0 s).prune.withoutWb = s.withoutWb := by
  rw [State.prune_withoutWb, State.commit_withoutWb]

@[simp] theorem State.finish_pending (s0 s : State) : (State.finish s0 s).pending = s.pending :=
  (congrArg State.pending (State.commit_prune_withoutWb s0 s) :)
@[simp] theorem State.finish_clock (s0 s : State) : (State.finish s0 s).clock = s.clock :=
  (congrArg State.clock (State.commit_prune_withoutWb s0 s) :)
@[simp] theorem State.finish_cell (s0 s : State) : (State.finish s0 s).cell = s.cell :=
  (congrArg State.cell (State.commit_prune_withoutWb s0 s) :)
@[simp] theorem State.finish_lots (s0 s : State) : (State.finish s0 s).lots = s.lots :=
  (congrArg State.lots (State.commit_prune_withoutWb s0 s) :)
@[simp] theorem State.finish_reports (s0 s : State) : (State.finish s0 s).reports = s.reports :=
  (congrArg State.reports (State.commit_prune_withoutWb s0 s) :)
@[simp] theorem State.finish_classTable (s0 s : State) : (State.finish s0 s).classTable = s.classTable :=
  (congrArg State.classTable (State.commit_prune_withoutWb s0 s) :)
@[simp] theorem State.finish_handling (s0 s : State) : (State.finish s0 s).handling = s.handling :=
  (congrArg State.handling (State.commit_prune_withoutWb s0 s) :)
@[simp] theorem State.finish_motion (s0 s : State) : (State.finish s0 s).motion = s.motion :=
  (congrArg State.motion (State.commit_prune_withoutWb s0 s) :)
@[simp] theorem State.finish_align (s0 s : State) : (State.finish s0 s).align = s.align :=
  (congrArg State.align (State.commit_prune_withoutWb s0 s) :)
@[simp] theorem State.finish_sensor (s0 s : State) : (State.finish s0 s).sensor = s.sensor :=
  (congrArg State.sensor (State.commit_prune_withoutWb s0 s) :)
@[simp] theorem State.finish_af (s0 s : State) : (State.finish s0 s).af = s.af :=
  (congrArg State.af (State.commit_prune_withoutWb s0 s) :)
@[simp] theorem State.finish_focusMap (s0 s : State) : (State.finish s0 s).focusMap = s.focusMap :=
  (congrArg State.focusMap (State.commit_prune_withoutWb s0 s) :)
@[simp] theorem State.finish_revisit (s0 s : State) : (State.finish s0 s).revisit = s.revisit :=
  (congrArg State.revisit (State.commit_prune_withoutWb s0 s) :)
@[simp] theorem State.finish_grab (s0 s : State) : (State.finish s0 s).grab = s.grab :=
  (congrArg State.grab (State.commit_prune_withoutWb s0 s) :)
@[simp] theorem State.finish_anchor (s0 s : State) : (State.finish s0 s).anchor = s.anchor :=
  (congrArg State.anchor (State.commit_prune_withoutWb s0 s) :)
@[simp] theorem State.finish_notice (s0 s : State) : (State.finish s0 s).notice = s.notice :=
  (congrArg State.notice (State.commit_prune_withoutWb s0 s) :)
@[simp] theorem State.finish_path (s0 s : State) : (State.finish s0 s).path = s.path :=
  (congrArg State.path (State.commit_prune_withoutWb s0 s) :)
@[simp] theorem State.finish_mem (s0 s : State) : (State.finish s0 s).mem = s.mem :=
  (congrArg State.mem (State.commit_prune_withoutWb s0 s) :)
@[simp] theorem State.finish_out (s0 s : State) : (State.finish s0 s).out = s.out :=
  (congrArg State.out (State.commit_prune_withoutWb s0 s) :)
@[simp] theorem State.finish_free (s0 s : State) : (State.finish s0 s).free = s.free :=
  (congrArg State.free (State.commit_prune_withoutWb s0 s) :)

@[simp] theorem State.finish_scratch (s0 s : State) : (State.finish s0 s).scratch = Scratch.empty := rfl

/-- The arbiter's choice at the end of a step, by the requests and the P-port access the step has left (R185). -/
@[simp] theorem State.finish_mport (s0 s : State) : (State.finish s0 s).mport = s.arbitrate.mport := by
  have h := State.commit_prune_withoutWb s0 s
  have hm : (State.commit s0 s).prune.mport = s.mport := (congrArg State.mport h :)
  have hp : (State.commit s0 s).prune.path = s.path := (congrArg State.path h :)
  simp [State.finish, State.arbitrate, hm, hp]

@[simp] theorem State.finish_wb (s0 s : State) : (State.finish s0 s).wb = (State.commit s0 s).prune.wb := rfl

@[simp] theorem State.finish_lot (s0 s : State) (k : Slot) : (State.finish s0 s).lot k = s.lot k := by simp [State.lot]
@[simp] theorem State.finish_report (s0 s : State) (k : Slot) : (State.finish s0 s).report k = s.report k := by simp [State.report]
@[simp] theorem State.finish_at (s0 s : State) (l : Loc) : (State.finish s0 s).at l = s.at l := by simp [State.at]
@[simp] theorem State.finish_wafer (s0 s : State) (w : WaferName) : (State.finish s0 s).wafer w = s.wafer w := by simp [State.wafer]
@[simp] theorem State.finish_waferState (s0 s : State) (w : WaferName) : (State.finish s0 s).waferState w = s.waferState w := by
  simp [State.waferState]
@[simp] theorem State.finish_row (s0 s : State) (w : WaferName) : (State.finish s0 s).row w = s.row w := by simp [State.row]
@[simp] theorem State.finish_entry (s0 s : State) (k : Slot) (i : Nat) : (State.finish s0 s).entry k i = s.entry k i := by
  simp [State.entry]
@[simp] theorem State.finish_storeEntry (s0 s : State) (k : Slot) (i : Nat) : (State.finish s0 s).storeEntry k i = s.storeEntry k i := by
  simp [State.storeEntry]
@[simp] theorem State.finish_requests (s0 s : State) : (State.finish s0 s).mport.requests = s.mport.requests := by
  rw [State.finish_mport]; rfl

/-! ## Steps -/

theorem State.answerStep_eq (s : State) (f : State → State) : s.answerStep f = .next (State.finish s (f s.begin)) := rfl

/-- Every command answers a next state. -/
theorem exec_answers (c : Instr) (s : State) : ∃ t, exec c s = .next t := by
  cases c <;> exact ⟨_, rfl⟩

/-- A step with a command in front is exec of it on the state with the queue's rest. -/
theorem step_cons (s : State) (c : Instr) (rest : List Instr) (h : s.pending = c :: rest) :
    step s = exec c { s with pending := rest } := by
  simp [step, h]

theorem step_nil (s : State) (h : s.pending = []) : step s = .next s.tick := by
  simp [step, h]

end Sys2Proof.Machine
end

