-- ==== Sys2Proof/Laws/Frames.lean ====
section
/-! SUPPORT. What every operation of the part keeps, said once for each: `Tame` for all of them, `Quiet` for those that only carry
out consequences. -/

set_option linter.unusedTactic false
set_option linter.unreachableTactic false

namespace Sys2Proof.Machine

/-- What every operation inside a step keeps. -/
structure Tame (s t : State) : Prop where
  pending : t.pending = s.pending
  mem : t.mem = s.mem
  base : t.anchor.base = s.anchor.base
  motion : s.motion.Sound → t.motion.Sound
  posting : s.revisit.posting.length ≤ 16 → t.revisit.posting.length ≤ 16
  ring : s.sensor.ring.length ≤ 8 → t.sensor.ring.length ≤ 8
  capture : s.path.capture.length ≤ 16 → t.path.capture.length ≤ 16
  queue : s.mport.queued ≤ 32 → t.mport.queued ≤ 32

/-- A lot slot by consequences: its state passes along R14's way, its wafer records stay, and a wafer's state changes from ON_STAGE to
REVIEW_ENDED only. -/
structure LotQuiet (l m : Lot) : Prop where
  state : l.state.mayBecome m.state = true
  wafers : m.wafers.length = l.wafers.length
  stage : ∀ n, (getAt m.wafers n).map (·.state) = (getAt l.wafers n).map (·.state)
    ∨ ((getAt l.wafers n).map (·.state) = some .onStage ∧ (getAt m.wafers n).map (·.state) = some .reviewEnded)

/-- The handling unit by consequences: stopped, it stays as it is; ordering, it goes on ordering; and no MAP is newly asked for. -/
structure HandlingQuiet (h g : Handling) : Prop where
  stopped : h.state.mayOrder = false → g = h
  ordering : h.state.mayOrder = true → g.state.mayOrder = true
  mapRequest : ∀ p, h.mapRequest.get p = false → g.mapRequest.get p = false
  mapAsked : ∀ p, (h.mapRequest.get p = true ∨ (h.mapper.get p).isSome) → (g.mapRequest.get p = true ∨ (g.mapper.get p).isSome)

/-- An axis by consequences: it stays in its state, or an IDLE axis starts moving. -/
def AxisStep (a b : AxisState) : Prop := b = a ∨ (a = .idle ∧ b = .moving)

structure MotionQuiet (m n : Motion) : Prop where
  x : AxisStep m.x.state n.x.state
  y : AxisStep m.y.state n.y.state
  z : AxisStep m.z.state n.z.state

/-- The words of a stored entry that no consequence changes. -/
structure EntryWords where
  host : List (Option Word)
  wx : Int
  wy : Int
  sequence : Nat
  firstFrame : Word
  frames : Word

def Entry.words (e : Entry) : EntryWords := ⟨e.host, e.wx, e.wy, e.sequence, e.firstFrame, e.frames⟩

/-- A record the step has touched stays in the store. -/
def Stays (s t : State) : Prop :=
  ∀ id ∈ s.scratch.touched, id ∈ t.scratch.touched ∧
    ∀ e ∈ s.revisit.store, e.id = id → ∃ e' ∈ t.revisit.store, e'.id = id ∧ e'.words = e.words

/-- What is sent and noticed stays so: orders are added to those sent, and no notice is cleared. -/
structure News (s t : State) : Prop where
  sent : s.out <+: t.out
  noticed : ∀ j : Nat, s.notice.pending.getLsbD j = true → t.notice.pending.getLsbD j = true

/-- What the operations that carry out consequences keep beside. -/
structure Quiet (s t : State) : Prop where
  tame : Tame s t
  kept : t.kept = s.kept
  lots : ∀ k, LotQuiet (s.lots.get k) (t.lots.get k)
  closing : ∀ k, (t.lots.get k).state = (s.lots.get k).state → (t.reports.get k).state = (s.reports.get k).state
    ∧ t.path.startLock.get k = s.path.startLock.get k ∧ t.path.closedLock.get k = s.path.closedLock.get k
  handling : HandlingQuiet s.handling t.handling
  motion : MotionQuiet s.motion t.motion
  ended : s.revisit.review = .ended → t.revisit.review = .ended
  stays : Stays s t
  news : News s t

/-- A slot that passes on does not come back. -/
theorem LotState.mayBecome_antisymm {a b : LotState} (h : a.mayBecome b = true) (g : b.mayBecome a = true) : a = b := by
  revert h g
  cases a <;> cases b <;> simp [LotState.mayBecome]

theorem LotQuiet.refl (l : Lot) : LotQuiet l l := ⟨by cases l.state <;> rfl, rfl, fun _ => .inl rfl⟩

theorem LotQuiet.trans {l m n : Lot} (h : LotQuiet l m) (g : LotQuiet m n) : LotQuiet l n where
  state := by
    have a := h.state
    have b := g.state
    revert a b
    cases l.state <;> cases m.state <;> cases n.state <;> simp [LotState.mayBecome]
  wafers := g.wafers.trans h.wafers
  stage k := by
    obtain a | ⟨a, b⟩ := h.stage k
    · obtain c | ⟨c, d⟩ := g.stage k
      · exact .inl (c.trans a)
      · exact .inr ⟨a.symm.trans c, d⟩
    · obtain c | ⟨c, d⟩ := g.stage k
      · exact .inr ⟨a, c.trans b⟩
      · rw [b] at c
        cases c

theorem LotQuiet.waferState {l m : Lot} (h : LotQuiet l m) (n : Nat) (hn : (getAt l.wafers n).map (·.state) ≠ some .onStage) :
    (getAt m.wafers n).map (·.state) = (getAt l.wafers n).map (·.state) := by
  obtain a | ⟨a, _⟩ := h.stage n
  · exact a
  · exact absurd a hn

theorem HandlingQuiet.refl (h : Handling) : HandlingQuiet h h := ⟨fun _ => rfl, id, fun _ => id, fun _ => id⟩

theorem HandlingQuiet.trans {a b c : Handling} (h : HandlingQuiet a b) (g : HandlingQuiet b c) : HandlingQuiet a c where
  stopped p := by rw [g.stopped (by rw [h.stopped p]; exact p), h.stopped p]
  ordering := g.ordering ∘ h.ordering
  mapRequest p := g.mapRequest p ∘ h.mapRequest p
  mapAsked p := g.mapAsked p ∘ h.mapAsked p

theorem AxisStep.trans {a b c : AxisState} (h : AxisStep a b) (g : AxisStep b c) : AxisStep a c := by
  obtain rfl | ⟨rfl, rfl⟩ := h
  · exact g
  · obtain rfl | ⟨h, _⟩ := g
    · exact .inr ⟨rfl, rfl⟩
    · cases h

theorem MotionQuiet.refl (m : Motion) : MotionQuiet m m := ⟨.inl rfl, .inl rfl, .inl rfl⟩

theorem MotionQuiet.trans {a b c : Motion} (h : MotionQuiet a b) (g : MotionQuiet b c) : MotionQuiet a c :=
  ⟨h.x.trans g.x, h.y.trans g.y, h.z.trans g.z⟩

theorem Stays.refl (s : State) : Stays s s := fun _ h => ⟨h, fun e he hi => ⟨e, he, hi, rfl⟩⟩

theorem Stays.trans {s t u : State} (h : Stays s t) (g : Stays t u) : Stays s u := fun id hid => by
  obtain ⟨ht, hs⟩ := h id hid
  obtain ⟨hu, hv⟩ := g id ht
  refine ⟨hu, fun e he hi => ?_⟩
  obtain ⟨e', he', hi', hm⟩ := hs e he hi
  obtain ⟨e'', he'', hi'', hm'⟩ := hv e' he' hi'
  exact ⟨e'', he'', hi'', hm'.trans hm⟩

/-- The store and what is touched are the same. -/
theorem Stays.same {s t : State} (a : t.revisit.store = s.revisit.store) (b : t.scratch.touched = s.scratch.touched) : Stays s t := by
  intro id h
  rw [b, a]
  exact ⟨h, fun e he hi => ⟨e, he, hi, rfl⟩⟩

theorem News.refl (s : State) : News s s := ⟨List.prefix_rfl, fun _ => id⟩

theorem News.trans {s t u : State} (h : News s t) (g : News t u) : News s u := ⟨h.sent.trans g.sent, fun j => g.noticed j ∘ h.noticed j⟩

theorem News.same {s t : State} (a : t.out = s.out) (b : t.notice.pending = s.notice.pending) : News s t :=
  ⟨by rw [a], fun j h => by rw [b]; exact h⟩

theorem Tame.refl (s : State) : Tame s s := ⟨rfl, rfl, rfl, id, id, id, id, id⟩

theorem Tame.trans {s t u : State} (h : Tame s t) (g : Tame t u) : Tame s u where
  pending := g.pending.trans h.pending
  mem := g.mem.trans h.mem
  base := g.base.trans h.base
  motion := g.motion ∘ h.motion
  posting := g.posting ∘ h.posting
  ring := g.ring ∘ h.ring
  capture := g.capture ∘ h.capture
  queue := g.queue ∘ h.queue

theorem Quiet.refl (s : State) : Quiet s s :=
  ⟨.refl s, rfl, fun _ => .refl _, fun _ _ => ⟨rfl, rfl, rfl⟩, .refl _, .refl _, id, .refl s, .refl s⟩

theorem Quiet.trans {s t u : State} (h : Quiet s t) (g : Quiet t u) : Quiet s u :=
  ⟨h.tame.trans g.tame, g.kept.trans h.kept, fun k => (h.lots k).trans (g.lots k), fun k e => by
      have hs := LotState.mayBecome_antisymm (h.lots k).state (by rw [← e]; exact (g.lots k).state)
      have a := h.closing k hs.symm
      have b := g.closing k (e.trans hs)
      exact ⟨b.1.trans a.1, b.2.1.trans a.2.1, b.2.2.trans a.2.2⟩,
    h.handling.trans g.handling, h.motion.trans g.motion, g.ended ∘ h.ended, h.stays.trans g.stays,
    h.news.trans g.news⟩

/-- An update of other fields. -/
theorem Tame.same {s0 s t : State} (h : Tame s0 s) (pending : t.pending = s.pending) (mem : t.mem = s.mem)
    (base : t.anchor.base = s.anchor.base) (motion : t.motion = s.motion) (posting : t.revisit.posting = s.revisit.posting)
    (ring : t.sensor.ring = s.sensor.ring) (capture : t.path.capture = s.path.capture)
    (queue : t.mport.requests = s.mport.requests) : Tame s0 t := by
  obtain ⟨a, b, c, d, e, f, g, i⟩ := h
  refine ⟨pending.trans a, mem.trans b, base.trans c, ?_, ?_, ?_, ?_, ?_⟩
  · rw [motion]; exact d
  · rw [posting]; exact e
  · rw [ring]; exact f
  · rw [capture]; exact g
  · simp only [MPort.queued, queue]; exact i

/-- A change of the motion unit that keeps it sound. -/
theorem Tame.moved {s0 s : State} (h : Tame s0 s) {m : Motion} (hm : s.motion.Sound → m.Sound) : Tame s0 (s.setMotion m) :=
  h.trans ⟨rfl, rfl, rfl, hm, id, id, id, id⟩

/-- A change of the posting list that makes it no longer. -/
theorem Tame.revised {s0 s : State} (h : Tame s0 s) {r : Revisit} (hr : r.posting.length ≤ s.revisit.posting.length) :
    Tame s0 (s.setRevisit r) :=
  h.trans ⟨rfl, rfl, rfl, id, fun p => hr.trans p, id, id, id⟩

theorem Quiet.same {s0 s t : State} (h : Quiet s0 s) (kept : t.kept = s.kept) (base : t.anchor.base = s.anchor.base)
    (pending : t.pending = s.pending) (mem : t.mem = s.mem) (motion : t.motion = s.motion)
    (revisit : t.revisit = s.revisit) (ring : t.sensor.ring = s.sensor.ring)
    (capture : t.path.capture = s.path.capture) (queue : t.mport.requests = s.mport.requests) (lots : t.lots = s.lots)
    (closing : ∀ k, (t.reports.get k).state = (s.reports.get k).state)
    (locks : ∀ k, t.path.startLock.get k = s.path.startLock.get k ∧ t.path.closedLock.get k = s.path.closedLock.get k)
    (handling : t.handling = s.handling)
    (touched : t.scratch.touched = s.scratch.touched) (news : News s t) : Quiet s0 t :=
  h.trans ⟨(Tame.refl s).same pending mem base motion (by rw [revisit]) ring capture queue, kept,
    fun k => by rw [lots]; exact .refl _, fun k _ => ⟨closing k, locks k⟩, by rw [handling]; exact .refl _, by rw [motion]; exact .refl _,
    by rw [revisit]; exact id, .same (by rw [revisit]) touched, news⟩

theorem foldl_tame {α : Type} {f : State → α → State} (hf : ∀ s0 s a, Tame s0 s → Tame s0 (f s a)) (l : List α) :
    ∀ {s0 s : State}, Tame s0 s → Tame s0 (l.foldl f s) := by
  induction l with
  | nil => intro s0 s h; exact h
  | cons a l ih => intro s0 s h; exact ih (hf _ _ _ h)

theorem foldl_quiet {α : Type} {f : State → α → State} (hf : ∀ s0 s a, Quiet s0 s → Quiet s0 (f s a)) (l : List α) :
    ∀ {s0 s : State}, Quiet s0 s → Quiet s0 (l.foldl f s) := by
  induction l with
  | nil => intro s0 s h; exact h
  | cons a l ih => intro s0 s h; exact ih (hf _ _ _ h)

/-! ## The motion unit's changes keep it sound -/

theorem Axis.enter_flagSound (a : Axis) (st : AxisState) : (a.enter st).flagSound := rfl

theorem Motion.Sound.enter {m : Motion} (h : m.Sound) (g : MotionGroup) (st : AxisState) : (m.enter g st).Sound := by
  cases g
  · exact ⟨rfl, rfl, h.z, rfl⟩
  · exact ⟨h.x, h.y, rfl, h.paired⟩

theorem Motion.Sound.setGroup {m : Motion} (h : m.Sound) (g : MotionGroup) (r : GroupRecord) : (m.setGroup g r).Sound := by
  cases g <;> exact ⟨h.x, h.y, h.z, h.paired⟩

theorem Motion.Sound.setTarget {m : Motion} (h : m.Sound) (t : MoveTarget) : (m.setTarget t).Sound := by
  cases t <;> exact ⟨h.x, h.y, h.z, h.paired⟩

theorem Motion.Sound.setPosition {m : Motion} (h : m.Sound) (t : MoveTarget) : (m.setPosition t).Sound := by
  cases t <;> exact ⟨h.x, h.y, h.z, h.paired⟩

theorem Motion.Sound.counts {m : Motion} (h : m.Sound) (tag : Tag) (epoch : Word) (next : Nat) :
    ({ m with tag := tag, epoch := epoch, nextReq := next } : Motion).Sound := ⟨h.x, h.y, h.z, h.paired⟩

/-- A change of the motion unit alone. -/
theorem Quiet.moved {s0 s : State} (h : Quiet s0 s) {m : Motion} (hm : s.motion.Sound → m.Sound)
    (x : m.x.position = s.motion.x.position) (y : m.y.position = s.motion.y.position)
    (z : m.z.position = s.motion.z.position) (e : m.epoch = s.motion.epoch) (axes : MotionQuiet s.motion m) :
    Quiet s0 (s.setMotion m) := by
  refine h.trans ⟨(Tame.refl s).moved hm, ?_, fun _ => .refl _, fun _ _ => ⟨rfl, rfl, rfl⟩, .refl _, axes, id, .same rfl rfl,
    .same rfl rfl⟩
  simp [State.kept, x, y, z, e]

/-- A change of one lot slot. -/
theorem quiet_modLot {s0 s : State} (h : Quiet s0 s) (k : Slot) {f : Lot → Lot} (hf : ∀ l, (f l).kept = l.kept)
    (hq : LotQuiet (s.lots.get k) (f (s.lots.get k))) : Quiet s0 (s.modLot k f) := by
  refine h.trans ⟨(Tame.refl s).same rfl rfl rfl rfl rfl rfl rfl rfl, ?_, fun j => ?_, fun _ _ => ⟨rfl, rfl, rfl⟩, .refl _, .refl _, id,
    .same rfl rfl, .same rfl rfl⟩
  · cases k <;> simp [State.kept, Two.set, Two.get, hf]
  · cases k <;> cases j <;> first | exact .refl _ | exact hq

theorem getAt_modAt {α : Type} (l : List α) (n m : Nat) (f : α → α) :
    getAt (modAt l n f) m = if m = n then (getAt l m).map f else getAt l m := by
  cases n with
  | zero => cases m <;> simp [getAt, modAt]
  | succ n =>
    cases m with
    | zero => simp [getAt]
    | succ m =>
      simp only [getAt, modAt, List.getElem?_modify, Nat.add_right_cancel_iff]
      by_cases h : n = m
      · simp [h]
      · simp [h, Ne.symm h]

theorem length_modAt {α : Type} (l : List α) (n : Nat) (f : α → α) : (modAt l n f).length = l.length := by
  cases n <;> simp [modAt]

/-- A change of one wafer record that leaves its state, or changes it from ON_STAGE to REVIEW_ENDED. -/
theorem quiet_modWafer {s0 s : State} (h : Quiet s0 s) (w : WaferName) {f : Wafer → Wafer}
    (hf : ∀ x, s.wafer w = some x → (f x).state = x.state ∨ (x.state = .onStage ∧ (f x).state = .reviewEnded)) :
    Quiet s0 (s.modWafer w f) := by
  refine quiet_modLot h _ (fun _ => rfl) ⟨by cases h : (s.lots.get w.slot).state <;> rfl, length_modAt _ _ _, fun n => ?_⟩
  rw [getAt_modAt]
  split
  · rename_i hnw
    subst hnw
    cases hx : getAt (s.lots.get w.slot).wafers w.n with
    | none => exact .inl rfl
    | some x =>
      simp only [Option.map_some, Option.some.injEq]
      exact hf x hx
  · exact .inl rfl

theorem quiet_modEntry {s0 s : State} (h : Quiet s0 s) (k : Slot) (i : Nat) {f : Entry → Entry}
    (hp : ∀ e, (f e).postKept = e.postKept) (hw : ∀ e, (f e).words = e.words) : Quiet s0 (s.modEntry k i f) := by
  have hid : ∀ e : Entry, (if e.is k i then f e else e).id = e.id := fun e => by
    split
    · exact congrArg (fun p : PostKept => RecId.defectEntry p.slot p.index) (hp e)
    · rfl
  refine h.trans ⟨⟨rfl, rfl, rfl, id, ?_, id, id, id⟩, ?_, fun _ => .refl _, fun _ _ => ⟨rfl, rfl, rfl⟩, .refl _, .refl _, id, ?_,
    .same rfl rfl⟩
  · intro p; simpa [State.modEntry] using p
  · have : (s.modEntry k i f).revisit.posting.map (·.postKept) = s.revisit.posting.map (·.postKept) := by
      simp only [State.modEntry, List.map_map]
      refine List.map_congr_left fun e _ => ?_
      simp only [Function.comp_apply]
      split
      · exact hp e
      · rfl
    show ({ s.kept with posts := (s.modEntry k i f).revisit.posting.map (·.postKept) } : Kept) = s.kept
    rw [this]; rfl
  · intro id hi
    refine ⟨List.mem_cons_of_mem _ hi, fun e he hei => ⟨_, List.mem_map_of_mem he, (hid e).trans hei, ?_⟩⟩
    split
    · exact hw e
    · rfl

/-- A change of the revisit unit's own records, not its lists. -/
theorem quiet_setRevisit {s0 s : State} (h : Quiet s0 s) {r : Revisit} (p : r.posting = s.revisit.posting)
    (q : r.postSequence = s.revisit.postSequence) (w : r.wafer = s.revisit.wafer) (f : r.timeoutFlag = s.revisit.timeoutFlag)
    (st : r.store = s.revisit.store) (e : s.revisit.review = .ended → r.review = .ended) : Quiet s0 (s.setRevisit r) := by
  refine h.trans ⟨(Tame.refl s).revised (by rw [p]), ?_, fun _ => .refl _, fun _ _ => ⟨rfl, rfl, rfl⟩, .refl _, .refl _, e, .same st rfl,
    .same rfl rfl⟩
  simp [State.kept, p, q, w, f]

/-- A change of the orders and flags of a handling unit that is ordering. -/
theorem quiet_setHandling {s0 s : State} (h : Quiet s0 s) {g : Handling} (a : g.table = s.handling.table)
    (b : g.carrierMap = s.handling.carrierMap) (c : g.uncertain = s.handling.uncertain) (d : g.haltMark = s.handling.haltMark)
    (e : g.homingDue = s.handling.homingDue) (q : HandlingQuiet s.handling g) : Quiet s0 (s.setHandling g) := by
  refine h.trans ⟨(Tame.refl s).same rfl rfl rfl rfl rfl rfl rfl rfl, ?_, fun _ => .refl _, fun _ _ => ⟨rfl, rfl, rfl⟩, q, .refl _, id,
    .same rfl rfl, .same rfl rfl⟩
  simp [State.kept, a, b, c, d, e]

theorem quiet_setAf {s0 s : State} (h : Quiet s0 s) (a : Autofocus) : Quiet s0 (s.setAf a) :=
  h.same rfl rfl rfl rfl rfl rfl rfl rfl rfl rfl (fun _ => rfl) (fun _ => ⟨rfl, rfl⟩) rfl rfl (.same rfl rfl)

theorem quiet_setGrab {s0 s : State} (h : Quiet s0 s) (g : GrabLink) : Quiet s0 (s.setGrab g) :=
  h.same rfl rfl rfl rfl rfl rfl rfl rfl rfl rfl (fun _ => rfl) (fun _ => ⟨rfl, rfl⟩) rfl rfl (.same rfl rfl)

theorem quiet_emit {s0 s : State} (h : Quiet s0 s) (o : LinkOrder) : Quiet s0 (s.emit o) :=
  h.same rfl rfl rfl rfl rfl rfl rfl rfl rfl rfl (fun _ => rfl) (fun _ => ⟨rfl, rfl⟩) rfl rfl ⟨List.prefix_append _ _, fun _ => id⟩

theorem quiet_say {s0 s : State} (h : Quiet s0 s) (m : Msg) : Quiet s0 (s.say m) :=
  h.same rfl rfl rfl rfl rfl rfl rfl rfl rfl rfl (fun _ => rfl) (fun _ => ⟨rfl, rfl⟩) rfl rfl (.same rfl rfl)

theorem quiet_sayAll {s0 s : State} (h : Quiet s0 s) (ms : List Msg) : Quiet s0 (s.sayAll ms) :=
  h.same rfl rfl rfl rfl rfl rfl rfl rfl rfl rfl (fun _ => rfl) (fun _ => ⟨rfl, rfl⟩) rfl rfl (.same rfl rfl)

theorem quiet_setMsgs {s0 s : State} (h : Quiet s0 s) (ms : List Msg) : Quiet s0 (s.setMsgs ms) :=
  h.same rfl rfl rfl rfl rfl rfl rfl rfl rfl rfl (fun _ => rfl) (fun _ => ⟨rfl, rfl⟩) rfl rfl (.same rfl rfl)

theorem quiet_modReport {s0 s : State} (h : Quiet s0 s) (k : Slot) {f : Report → Report}
    (hf : ∀ r, (f r).kept = r.kept) (hs : ∀ r, (f r).state = r.state) : Quiet s0 (s.modReport k f) := by
  refine h.same ?_ rfl rfl rfl rfl rfl rfl rfl rfl rfl (fun j => ?_) (fun _ => ⟨rfl, rfl⟩) rfl rfl (.same rfl rfl)
  · cases k <;> simp [State.kept, State.modReport, State.report, Two.set, Two.get, hf]
  · cases k <;> cases j <;> first | rfl | exact hs _

theorem quiet_raise {s0 s : State} (h : Quiet s0 s) (k : NoticeKind) : Quiet s0 (s.raise k) := by
  unfold State.raise
  split
  · exact h.same rfl rfl rfl rfl rfl rfl rfl rfl rfl rfl (fun _ => rfl) (fun _ => ⟨rfl, rfl⟩) rfl rfl ⟨List.prefix_rfl, fun j hj => by rw [BitVec.getLsbD_or, hj, Bool.true_or]⟩
  · exact h


/-! ## Consequences -/

theorem map_modAt {α β : Type} (l : List α) (n : Nat) {f : α → α} {g : α → β} (h : ∀ a, g (f a) = g a) :
    (modAt l n f).map g = l.map g := by
  cases n with
  | zero => rfl
  | succ n =>
    refine List.ext_getElem? fun i => ?_
    simp only [modAt, List.getElem?_map, List.getElem?_modify]
    split
    · cases l[i]? <;> simp [h]
    · cases l[i]? <;> simp

theorem quiet_modRow {s0 s : State} (h : Quiet s0 s) (w : WaferName) {f : Row → Row} (hf : ∀ r, (f r).kept = r.kept) :
    Quiet s0 (s.modRow w f) :=
  quiet_modReport h _ (fun r => by simp [Report.kept, map_modAt r.rows w.n hf]) fun _ => rfl

theorem quiet_enter {s0 s : State} (h : Quiet s0 s) (w : WaferName) {f : Row → Row} (hf : ∀ r, (f r).kept = r.kept) :
    Quiet s0 (s.enter w f) :=
  quiet_modRow h w fun r => by split <;> first | exact hf r | rfl

theorem quiet_countOutcome {s0 s : State} (h : Quiet s0 s) (w : WaferName) (o : Outcome) : Quiet s0 (s.countOutcome w o) :=
  quiet_enter h w fun _ => rfl

theorem quiet_setGroup {s0 s : State} (h : Quiet s0 s) (g : MotionGroup) (r : GroupRecord) : Quiet s0 (s.setGroup g r) := by
  refine h.moved (fun m => m.setGroup g r) ?_ ?_ ?_ ?_ ?_ <;> cases g <;> first | rfl | exact ⟨.inl rfl, .inl rfl, .inl rfl⟩

/-- A request whose group is IDLE, sent. -/
theorem quiet_sendMove {s0 s : State} (h : Quiet s0 s) (t : MoveTarget) (rs : List Requester)
    (idle : s.motion.groupIdle t.group = true) : Quiet s0 (s.sendMove t rs) := by
  refine quiet_emit (h.moved (fun m => ?_) ?_ ?_ ?_ ?_ ?_) _
  · exact (((m.setGroup _ _).enter _ _).setTarget t).counts _ _ _
  · cases t <;> rfl
  · cases t <;> rfl
  · cases t <;> rfl
  · cases t <;> rfl
  · cases t with
    | xy x y =>
      simp only [Motion.groupIdle, MoveTarget.group, decide_eq_true_eq] at idle
      exact ⟨.inr ⟨idle.1, rfl⟩, .inr ⟨idle.2, rfl⟩, .inl rfl⟩
    | z z =>
      simp only [Motion.groupIdle, MoveTarget.group, decide_eq_true_eq] at idle
      exact ⟨.inl rfl, .inl rfl, .inr ⟨idle, rfl⟩⟩

theorem quiet_judgeMove {s0 s : State} (h : Quiet s0 s) (t : MoveTarget) (rs : List Requester) : Quiet s0 (s.judgeMove t rs) := by
  unfold State.judgeMove
  split
  · exact quiet_sayAll h _
  · rename_i hc
    refine quiet_sendMove h t rs ?_
    by_contra hi
    simp [State.moveCheck, hi] at hc

theorem quiet_waitMove {s0 s : State} (h : Quiet s0 s) (w : WaitingMove) : Quiet s0 (s.waitMove w) := by
  unfold State.waitMove
  repeat' first | with_reducible assumption | with_reducible apply quiet_sayAll | with_reducible apply quiet_setGroup | split | dsimp only

theorem quiet_requestMove {s0 s : State} (h : Quiet s0 s) (t : MoveTarget) (r : Requester) : Quiet s0 (s.requestMove t r) := by
  unfold State.requestMove
  repeat' first | with_reducible assumption | with_reducible apply quiet_sayAll | with_reducible apply quiet_judgeMove | with_reducible apply quiet_waitMove | split | dsimp only

theorem quiet_takeRequest {s0 s : State} (h : Quiet s0 s) : Quiet s0 s.takeRequest :=
  h.moved (fun m => m.counts _ _ _) rfl rfl rfl rfl ⟨.inl rfl, .inl rfl, .inl rfl⟩

theorem quiet_waitLoad {s0 s : State} (h : Quiet s0 s) (r : Requester) : Quiet s0 (s.waitLoad r) := by
  unfold State.waitLoad
  repeat' first | with_reducible assumption | with_reducible apply quiet_setGroup | with_reducible apply quiet_waitMove | split | dsimp only

theorem quiet_requestLoad {s0 s : State} (h : Quiet s0 s) (u : MoveUnit) : Quiet s0 (s.requestLoad u) := by
  unfold State.requestLoad
  repeat' first | with_reducible assumption | with_reducible apply quiet_say | with_reducible apply quiet_setGroup | with_reducible apply quiet_waitLoad | with_reducible apply quiet_judgeMove | with_reducible apply quiet_sayAll | split | dsimp only

theorem quiet_judgeWaiting {s0 s : State} (h : Quiet s0 s) (g : MotionGroup) : Quiet s0 (s.judgeWaiting g) := by
  unfold State.judgeWaiting
  repeat' first | with_reducible assumption | with_reducible apply quiet_setGroup | with_reducible apply quiet_judgeMove | split | dsimp only

theorem quiet_answerFocus {s0 s : State} (h : Quiet s0 s) (o : FocusOutcome) : Quiet s0 (s.answerFocus o) := by
  unfold State.answerFocus
  repeat' first | with_reducible assumption | with_reducible apply quiet_say | split | dsimp only

theorem quiet_failFocus {s0 s : State} (h : Quiet s0 s) (why : FocusReason) : Quiet s0 (s.failFocus why) := by
  unfold State.failFocus
  repeat' first | with_reducible assumption | with_reducible apply quiet_setAf | with_reducible apply quiet_answerFocus | split | dsimp only

theorem quiet_beginMeasureAt {s0 s : State} (h : Quiet s0 s) (epoch : Word) : Quiet s0 (s.beginMeasureAt epoch) := by
  unfold State.beginMeasureAt
  repeat' first | with_reducible assumption | with_reducible apply quiet_setAf | split | dsimp only

theorem quiet_beginMeasure {s0 s : State} (h : Quiet s0 s) : Quiet s0 (s.beginMeasure) := by
  unfold State.beginMeasure
  repeat' first | with_reducible assumption | with_reducible apply quiet_beginMeasureAt | split | dsimp only

theorem quiet_focusMove {s0 s : State} (h : Quiet s0 s) (st : FocusState) (z : Int) : Quiet s0 (s.focusMove st z) := by
  unfold State.focusMove
  repeat' first | with_reducible assumption | with_reducible apply quiet_setAf | with_reducible apply quiet_takeRequest | with_reducible apply quiet_requestMove | split | dsimp only

theorem quiet_requestFocus {s0 s : State} (h : Quiet s0 s) (r : FocusRequest) : Quiet s0 (s.requestFocus r) := by
  unfold State.requestFocus
  repeat' first | with_reducible assumption | with_reducible apply quiet_say | with_reducible apply quiet_setAf | with_reducible apply quiet_failFocus | with_reducible apply quiet_beginMeasure | with_reducible apply quiet_focusMove | split | dsimp only

theorem quiet_focusSettled {s0 s : State} (h : Quiet s0 s) (n : Nat) : Quiet s0 (s.focusSettled n) := by
  unfold State.focusSettled
  repeat' first | with_reducible assumption | with_reducible apply quiet_beginMeasure | split | dsimp only

theorem quiet_focusRefused {s0 s : State} (h : Quiet s0 s) (n : Nat) : Quiet s0 (s.focusRefused n) := by
  unfold State.focusRefused
  repeat' first | with_reducible assumption | with_reducible apply quiet_failFocus | split | dsimp only

theorem quiet_withdrawFocus {s0 s : State} (h : Quiet s0 s) : Quiet s0 (s.withdrawFocus) := by
  unfold State.withdrawFocus
  repeat' first | with_reducible assumption | with_reducible apply quiet_setAf | split | dsimp only

theorem quiet_sendGrab {s0 s : State} (h : Quiet s0 s) (a : GrabAsk) : Quiet s0 (s.sendGrab a) := by
  unfold State.sendGrab
  repeat' first | with_reducible assumption | with_reducible apply quiet_setGrab | with_reducible apply quiet_emit | split | dsimp only

theorem quiet_askGrab {s0 s : State} (h : Quiet s0 s) (a : GrabAsk) : Quiet s0 (s.askGrab a) := by
  unfold State.askGrab
  repeat' first | with_reducible assumption | with_reducible apply quiet_setGrab | with_reducible apply quiet_sendGrab | split | dsimp only

theorem quiet_dropGrab {s0 s : State} (h : Quiet s0 s) (k : GrabKind) : Quiet s0 (s.dropGrab k) := quiet_setGrab h _

theorem quiet_finishEntry {s0 s : State} (h : Quiet s0 s) (e : Entry) (st : EntryState) (why : EntryReason) : Quiet s0 (s.finishEntry e st why) := by
  unfold State.finishEntry
  repeat' first | with_reducible assumption | with_reducible apply quiet_modEntry | with_reducible apply quiet_countOutcome | exact rfl | exact id | exact fun _ => rfl | exact fun _ _ _ => rfl | exact fun _ _ => .inl rfl | split | dsimp only

theorem quiet_endQueued {s0 s : State} (h : Quiet s0 s) (w : WaferName) (why : EntryReason) : Quiet s0 (s.endQueued w why) := by
  unfold State.endQueued
  repeat' first | with_reducible assumption | with_reducible apply quiet_finishEntry | (with_reducible refine foldl_quiet (fun _ _ _ _ => ?_) _ ?_) | split | dsimp only

theorem quiet_endQueuedOfLot {s0 s : State} (h : Quiet s0 s) (k : Slot) (why : EntryReason) : Quiet s0 (s.endQueuedOfLot k why) := by
  unfold State.endQueuedOfLot
  repeat' first | with_reducible assumption | with_reducible apply quiet_endQueued | (with_reducible refine foldl_quiet (fun _ _ _ _ => ?_) _ ?_) | split | dsimp only

theorem quiet_setActive {s0 s : State} (h : Quiet s0 s) (a : Option ActiveRevisit) : Quiet s0 (s.setActive a) := by
  unfold State.setActive
  repeat' first | with_reducible assumption | with_reducible apply quiet_setRevisit | exact rfl | exact id | exact fun _ => rfl | exact fun _ _ _ => rfl | exact fun _ _ => .inl rfl | split | dsimp only

theorem quiet_handMapFigures {s0 s : State} (h : Quiet s0 s) (w : WaferName) : Quiet s0 (s.handMapFigures w) := by
  unfold State.handMapFigures
  repeat' first | with_reducible assumption | with_reducible apply quiet_enter | exact rfl | exact id | exact fun _ => rfl | exact fun _ _ _ => rfl | exact fun _ _ => .inl rfl | split | dsimp only

theorem quiet_handDuration {s0 s : State} (h : Quiet s0 s) (w : WaferName) (d : Word) : Quiet s0 (s.handDuration w d) := by
  unfold State.handDuration
  repeat' first | with_reducible assumption | with_reducible apply quiet_enter | exact rfl | exact id | exact fun _ => rfl | exact fun _ _ _ => rfl | exact fun _ _ => .inl rfl | split | dsimp only

theorem quiet_toReviewEnded {s0 s : State} (h : Quiet s0 s) (w : WaferName) : Quiet s0 (s.toReviewEnded w) := by
  unfold State.toReviewEnded
  split
  · rename_i x hx
    split
    · rename_i hs
      refine quiet_endQueued (quiet_handMapFigures (quiet_handDuration (quiet_modWafer h _ fun y hy => ?_) _ _) _) _ _
      rw [hx] at hy
      cases hy
      exact .inr ⟨hs, rfl⟩
    · exact h
  · exact h

theorem quiet_pendAborted {s0 s : State} (h : Quiet s0 s) (w : WaferName) : Quiet s0 (s.pendAborted w) := by
  unfold State.pendAborted
  repeat' first | with_reducible assumption | with_reducible apply quiet_modWafer | exact rfl | exact id | exact fun _ => rfl | exact fun _ _ _ => rfl | exact fun _ _ => .inl rfl | split | dsimp only

theorem quiet_endReview {s0 s : State} (h : Quiet s0 s) : Quiet s0 (s.endReview) := by
  unfold State.endReview
  repeat' first | with_reducible assumption | with_reducible apply quiet_setRevisit | exact rfl | exact id | exact fun _ => rfl | exact fun _ _ _ => rfl | exact fun _ _ => .inl rfl | split | dsimp only

theorem quiet_normalEnd {s0 s : State} (h : Quiet s0 s) (w : WaferName) : Quiet s0 (s.normalEnd w) := by
  unfold State.normalEnd
  repeat' first | with_reducible assumption | with_reducible apply quiet_endReview | with_reducible apply quiet_modWafer | with_reducible apply quiet_toReviewEnded | with_reducible apply quiet_enter | with_reducible apply quiet_requestLoad | exact rfl | exact id | exact fun _ => rfl | exact fun _ _ _ => rfl | exact fun _ _ => .inl rfl | split | dsimp only

theorem quiet_waitForPosts {s0 s : State} (h : Quiet s0 s) (w : WaferName) (he : s.revisit.review ≠ .ended) :
    Quiet s0 (s.waitForPosts w) := by
  unfold State.waitForPosts
  dsimp only
  refine quiet_raise (quiet_setRevisit h ?_ ?_ ?_ ?_ ?_ ?_) _
  all_goals first | rfl | exact fun hr => absurd hr he

theorem quiet_endActive {s0 s : State} (h : Quiet s0 s) (e : Entry) (st : EntryState) (why : EntryReason) : Quiet s0 (s.endActive e st why) := by
  unfold State.endActive
  repeat' first | with_reducible assumption | with_reducible apply quiet_finishEntry | with_reducible apply quiet_setActive | with_reducible apply quiet_say | exact rfl | exact id | exact fun _ => rfl | exact fun _ _ _ => rfl | exact fun _ _ => .inl rfl | split | dsimp only

theorem quiet_beginMove {s0 s : State} (h : Quiet s0 s) (a : ActiveRevisit) (z : Int) : Quiet s0 (s.beginMove a z) := by
  unfold State.beginMove
  repeat' first | with_reducible assumption | with_reducible apply quiet_setActive | with_reducible apply quiet_takeRequest | with_reducible apply quiet_requestMove | exact rfl | exact id | exact fun _ => rfl | exact fun _ _ _ => rfl | exact fun _ _ => .inl rfl | split | dsimp only

theorem quiet_beginTarget {s0 s : State} (h : Quiet s0 s) (e : Entry) : Quiet s0 (s.beginTarget e) := by
  unfold State.beginTarget
  repeat' first | with_reducible assumption | with_reducible apply quiet_modEntry | with_reducible apply quiet_beginMove | with_reducible apply quiet_endActive | exact rfl | exact id | exact fun _ => rfl | exact fun _ _ _ => rfl | exact fun _ _ => .inl rfl | split | dsimp only

theorem quiet_takeEntry {s0 s : State} (h : Quiet s0 s) (e : Entry) (he : s.revisit.review ≠ .ended) : Quiet s0 (s.takeEntry e) := by
  unfold State.takeEntry
  dsimp only
  refine quiet_beginTarget (quiet_setRevisit (quiet_modEntry h _ _ ?_ ?_) ?_ ?_ ?_ ?_ ?_ ?_) _
  all_goals first | rfl | exact fun _ => rfl | exact fun hr => absurd hr he

theorem quiet_look {s0 s : State} (h : Quiet s0 s) (w : WaferName) (he : s.revisit.review ≠ .ended) : Quiet s0 (s.look w) := by
  unfold State.look
  repeat' split
  · exact quiet_takeEntry h _ he
  · exact quiet_normalEnd h _
  · exact quiet_waitForPosts h _ he
  · exact h

theorem quiet_lookAfterEnd {s0 s : State} (h : Quiet s0 s) : Quiet s0 s.lookAfterEnd := by
  unfold State.lookAfterEnd
  split
  · split
    · rename_i hr
      exact quiet_look h _ (by rw [hr.1]; decide)
    · exact h
  · exact h

theorem quiet_beginFocus {s0 s : State} (h : Quiet s0 s) (a : ActiveRevisit) (e : Entry) : Quiet s0 (s.beginFocus a e) := by
  unfold State.beginFocus
  repeat' first | with_reducible assumption | with_reducible apply quiet_setActive | with_reducible apply quiet_requestFocus | exact rfl | exact id | exact fun _ => rfl | exact fun _ _ _ => rfl | exact fun _ _ => .inl rfl | split | dsimp only

theorem quiet_revisitSettled {s0 s : State} (h : Quiet s0 s) (n : Nat) : Quiet s0 (s.revisitSettled n) := by
  unfold State.revisitSettled
  repeat' first | with_reducible assumption | with_reducible apply quiet_beginFocus | with_reducible apply quiet_setActive | exact rfl | exact id | exact fun _ => rfl | exact fun _ _ _ => rfl | exact fun _ _ => .inl rfl | split | dsimp only

theorem quiet_revisitRefused {s0 s : State} (h : Quiet s0 s) (n : Nat) (why : MoveRefusal) : Quiet s0 (s.revisitRefused n why) := by
  unfold State.revisitRefused
  repeat' first | with_reducible assumption | with_reducible apply quiet_endActive | split | dsimp only

theorem quiet_failedAttempt {s0 s : State} (h : Quiet s0 s) (a : ActiveRevisit) (e : Entry) (why : LastFailure) : Quiet s0 (s.failedAttempt a e why) := by
  unfold State.failedAttempt
  repeat' first | with_reducible assumption | with_reducible apply quiet_modEntry | with_reducible apply quiet_beginMove | with_reducible apply quiet_endActive | exact rfl | exact id | exact fun _ => rfl | exact fun _ _ _ => rfl | exact fun _ _ => .inl rfl | split | dsimp only

theorem quiet_revisitFocus {s0 s : State} (h : Quiet s0 s) (o : FocusOutcome) : Quiet s0 (s.revisitFocus o) := by
  unfold State.revisitFocus
  repeat' first | with_reducible assumption | with_reducible apply quiet_modEntry | with_reducible apply quiet_setActive | with_reducible apply quiet_askGrab | with_reducible apply quiet_failedAttempt | exact rfl | exact id | exact fun _ => rfl | exact fun _ _ _ => rfl | exact fun _ _ => .inl rfl | split | dsimp only

theorem quiet_endActiveEntry {s0 s : State} (h : Quiet s0 s) (why : EntryReason) : Quiet s0 (s.endActiveEntry why) := by
  unfold State.endActiveEntry
  repeat' first | with_reducible assumption | with_reducible apply quiet_finishEntry | split | dsimp only

theorem quiet_cutActive {s0 s : State} (h : Quiet s0 s) (why : EntryReason) : Quiet s0 (s.cutActive why) := by
  unfold State.cutActive
  repeat' first | with_reducible assumption | with_reducible apply quiet_endActiveEntry | with_reducible apply quiet_dropGrab | split | dsimp only

/-- A change of the transform record that keeps its wafer, its coefficients and its marks. -/
theorem quiet_setAlign {s0 s : State} (h : Quiet s0 s) {a : Align} (ha : a.kept = s.align.kept) : Quiet s0 (s.setAlign a) := by
  have hq : Quiet s0 { s with align := a } := by
    refine h.trans ⟨(Tame.refl s).same rfl rfl rfl rfl rfl rfl rfl rfl, ?_, fun _ => .refl _, fun _ _ => ⟨rfl, rfl, rfl⟩, .refl _, .refl _, id,
      .same rfl rfl, .same rfl rfl⟩
    simp [State.kept, ha]
  unfold State.setAlign
  dsimp only
  split
  · exact quiet_modWafer hq _ fun _ _ => .inl rfl
  · exact hq

theorem quiet_alignFail {s0 s : State} (h : Quiet s0 s) (why : AlignReason) : Quiet s0 (s.alignFail why) := by
  unfold State.alignFail
  repeat' first | with_reducible assumption | with_reducible apply quiet_setAlign | with_reducible apply quiet_modWafer | with_reducible apply quiet_endQueued | with_reducible apply quiet_endReview | with_reducible apply quiet_toReviewEnded | with_reducible apply quiet_raise | with_reducible apply quiet_requestLoad | exact rfl | exact id | exact fun _ => rfl | exact fun _ _ _ => rfl | exact fun _ _ => .inl rfl | split | dsimp only

theorem quiet_alignStop {s0 s : State} (h : Quiet s0 s) (why : AlignReason) : Quiet s0 (s.alignStop why) := by
  unfold State.alignStop
  repeat' first | with_reducible assumption | with_reducible apply quiet_setAlign | with_reducible apply quiet_dropGrab | exact rfl | exact id | exact fun _ => rfl | exact fun _ _ _ => rfl | exact fun _ _ => .inl rfl | split | dsimp only

theorem quiet_alignSettled {s0 s : State} (h : Quiet s0 s) (n : Nat) : Quiet s0 (s.alignSettled n) := by
  unfold State.alignSettled
  repeat' first | with_reducible assumption | with_reducible apply quiet_setAlign | with_reducible apply quiet_requestFocus | exact rfl | exact id | exact fun _ => rfl | exact fun _ _ _ => rfl | exact fun _ _ => .inl rfl | split | dsimp only

theorem quiet_alignRefused {s0 s : State} (h : Quiet s0 s) (n : Nat) : Quiet s0 (s.alignRefused n) := by
  unfold State.alignRefused
  repeat' first | with_reducible assumption | with_reducible apply quiet_alignFail | split | dsimp only

theorem quiet_alignFocus {s0 s : State} (h : Quiet s0 s) (o : FocusOutcome) : Quiet s0 (s.alignFocus o) := by
  unfold State.alignFocus
  repeat' first | with_reducible assumption | with_reducible apply quiet_setAlign | with_reducible apply quiet_askGrab | with_reducible apply quiet_alignFail | exact rfl | exact id | exact fun _ => rfl | exact fun _ _ _ => rfl | exact fun _ _ => .inl rfl | split | dsimp only

theorem quiet_cutReview {s0 s : State} (h : Quiet s0 s) (why : EntryReason) (al : AlignReason) : Quiet s0 (s.cutReview why al) := by
  unfold State.cutReview
  repeat' first | with_reducible assumption | with_reducible apply quiet_cutActive | with_reducible apply quiet_endQueued | with_reducible apply quiet_alignStop | with_reducible apply quiet_withdrawFocus | with_reducible apply quiet_endReview | with_reducible apply quiet_pendAborted | with_reducible apply quiet_toReviewEnded | with_reducible apply quiet_requestLoad | split | dsimp only

theorem quiet_closeRow {s0 s : State} (h : Quiet s0 s) (w : WaferName) : Quiet s0 (s.closeRow w) := by
  unfold State.closeRow
  split
  · dsimp only
    have hq := quiet_modReport (quiet_modRow h w (f := fun r => { r with state := .closed }) fun _ => rfl) w.slot
      (f := fun r => { r with
        classLock := r.classLock ++ (((s.revisit.store.filter fun e => e.inOpenRowOf w).filter fun e =>
          !(r.classLock.any fun c => c.index == e.index)).map fun e => ⟨e.index, w.n⟩) }) (fun _ => rfl) fun _ => rfl
    generalize hu : State.modReport _ _ _ = u at hq ⊢
    have hs : u.revisit = s.revisit := by subst hu; rfl
    refine hq.trans ⟨(Tame.refl u).revised le_rfl, rfl, fun _ => .refl _, fun _ _ => ⟨rfl, rfl, rfl⟩, .refl _, .refl _, id, ?_,
      .same rfl rfl⟩
    intro id hid
    refine ⟨hid, fun e he hi => ?_⟩
    have hc : u.clean e = false := by
      subst hi
      simp [State.clean, hid]
    refine ⟨_, List.mem_map_of_mem (List.mem_filter.mpr ⟨he, by simp [hc]⟩), ?_, ?_⟩
    · split <;> exact hi
    · split <;> rfl
  · exact h

/-- A lot that passes on to its end, with its report closed. -/
theorem quiet_closeReport {s0 s : State} (h : Quiet s0 s) (k : Slot) (st : LotState)
    (hb : (s.lots.get k).state.mayBecome st = true) (hn : (s.lots.get k).state ≠ st) :
    Quiet s0 ((s.setLotState k st).closeReport k) := by
  have hset : Quiet s (s.setLotState k st) := quiet_modLot (.refl s) k (fun _ => rfl) ⟨hb, rfl, fun _ => .inl rfl⟩
  have hst : ((s.setLotState k st).lots.get k).state = st := by cases k <;> rfl
  generalize s.setLotState k st = u at hset hst ⊢
  unfold State.closeReport
  dsimp only
  have hr : Quiet u (slots25.foldl (fun s n => s.closeRow ⟨k, n⟩) u) := foldl_quiet (fun _ _ _ g => quiet_closeRow g _) _ (.refl u)
  generalize slots25.foldl (fun s n => s.closeRow ⟨k, n⟩) u = r at hr ⊢
  have hsr := hset.trans hr
  refine h.trans (quiet_raise (quiet_raise ?_ _) _)
  refine ⟨hsr.tame.same rfl rfl rfl rfl rfl rfl rfl rfl, ?_, hsr.lots, fun j e => ?_, hsr.handling, hsr.motion, hsr.ended,
    hsr.stays.trans (.same rfl rfl), hsr.news.trans (.same rfl rfl)⟩
  · rw [← hsr.kept]
    cases k <;> rfl
  · by_cases hj : j = k
    · subst hj
      have e1 : (r.lots.get j).state = (s.lots.get j).state := e
      have := LotState.mayBecome_antisymm (hr.lots j).state (by rw [e1, hst]; exact hb)
      exact absurd (by rw [← e1, ← this, hst]) hn
    · obtain ⟨a, b, c⟩ := hsr.closing j e
      rw [← a, ← b, ← c]
      cases j <;> cases k <;> first | exact ⟨rfl, rfl, rfl⟩ | exact absurd rfl hj

theorem quiet_lotChange {s0 s : State} (h : Quiet s0 s) (k : Slot) : Quiet s0 (s.lotChange k) := by
  have hset : ∀ st, (s.lots.get k).state.mayBecome st = true → Quiet s0 (s.setLotState k st) := fun st hst =>
    quiet_modLot h k (fun _ => rfl) ⟨hst, rfl, fun _ => .inl rfl⟩
  unfold State.lotChange State.lot
  dsimp only
  repeat' split
  all_goals first
    | exact h
    | (rename_i hs _; refine hset _ ?_; rw [hs]; rfl)
    | (rename_i hs _; refine quiet_closeReport h _ _ ?_ ?_ <;> rw [hs] <;> first | rfl | decide)

theorem quiet_lotPass {s0 s : State} (h : Quiet s0 s) : Quiet s0 (s.lotPass) := by
  unfold State.lotPass
  repeat' first | with_reducible assumption | with_reducible apply quiet_lotChange | (with_reducible refine foldl_quiet (fun _ _ _ _ => ?_) _ ?_) | split | dsimp only

/-- An ordering unit goes on ordering whatever its orders and requests become, but that no MAP is newly asked for. -/
theorem HandlingQuiet.orders {h g : Handling} (o : h.state.mayOrder = true) (s : g.state.mayOrder = true)
    (m : ∀ p, h.mapRequest.get p = false → g.mapRequest.get p = false)
    (a : ∀ p, (h.mapRequest.get p = true ∨ (h.mapper.get p).isSome) → (g.mapRequest.get p = true ∨ (g.mapper.get p).isSome)) :
    HandlingQuiet h g :=
  ⟨fun n => absurd (o.symm.trans n) (by decide), fun _ => s, m, a⟩

theorem quiet_takeHandlerTag {s0 s : State} (h : Quiet s0 s) (o : s.handling.state.mayOrder = true) : Quiet s0 s.takeHandlerTag :=
  quiet_setHandling h rfl rfl rfl rfl rfl (.orders o o (fun _ => id) fun _ => id)

theorem quiet_sendRobot {s0 s : State} (h : Quiet s0 s) (k : RobotKind) (o : s.handling.state.mayOrder = true) :
    Quiet s0 (s.sendRobot k) := by
  refine quiet_emit (quiet_takeHandlerTag (quiet_setHandling h ?_ ?_ ?_ ?_ ?_ ?_) ?_) _
  all_goals first | rfl | exact o | exact (.orders o o (fun _ => id) fun _ => id)

theorem quiet_sendPrealign {s0 s : State} (h : Quiet s0 s) (notch : Int) (o : s.handling.state.mayOrder = true) :
    Quiet s0 (s.sendPrealign notch) := by
  refine quiet_emit (quiet_takeHandlerTag (quiet_setHandling h ?_ ?_ ?_ ?_ ?_ ?_) ?_) _
  all_goals first | rfl | exact o | exact (.orders o o (fun _ => id) fun _ => id)

theorem quiet_sendMap {s0 s : State} (h : Quiet s0 s) (p : Slot) (o : s.handling.state.mayOrder = true) : Quiet s0 (s.sendMap p) := by
  refine quiet_emit (quiet_takeHandlerTag (quiet_setHandling h ?_ ?_ ?_ ?_ ?_ ?_) ?_) _
  all_goals first | rfl | exact o | refine .orders o o (fun q hq => ?_) fun q hq => ?_
  · cases p <;> cases q <;> first | rfl | exact hq
  · cases p <;> cases q <;> first | exact .inr rfl | exact hq

theorem quiet_restHandling {s0 s : State} (h : Quiet s0 s) : Quiet s0 s.restHandling := by
  unfold State.restHandling
  split
  · rename_i o
    refine quiet_setHandling h ?_ ?_ ?_ ?_ ?_ (.orders o ?_ (fun _ => id) fun _ => id)
    all_goals first | rfl | (simp only [Handling.rest]; split <;> rfl)
  · exact h

theorem quiet_askLoad {s0 s : State} (h : Quiet s0 s) : Quiet s0 (s.askLoad) := by
  unfold State.askLoad
  repeat' first | with_reducible assumption | with_reducible apply quiet_requestLoad | split | dsimp only

theorem quiet_chooseRobot {s0 s : State} (h : Quiet s0 s) (o : s.handling.state.mayOrder = true) : Quiet s0 s.chooseRobot := by
  unfold State.chooseRobot
  repeat' split
  · exact h
  · exact quiet_sendRobot h _ o
  · exact h

theorem quiet_choosePrealign {s0 s : State} (h : Quiet s0 s) (o : s.handling.state.mayOrder = true) : Quiet s0 s.choosePrealign := by
  unfold State.choosePrealign
  repeat' split
  · exact quiet_sendPrealign h _ o
  · exact h
  · exact h

theorem quiet_chooseMap {s0 s : State} (h : Quiet s0 s) (p : Slot) (o : s.handling.state.mayOrder = true) : Quiet s0 (s.chooseMap p) := by
  unfold State.chooseMap
  split
  · exact quiet_sendMap h _ o
  · exact h

theorem quiet_sends {s0 s : State} (h : Quiet s0 s) : Quiet s0 s.sends := by
  unfold State.sends
  split
  · rename_i o
    have a := quiet_askLoad (.refl s)
    have oa := a.handling.ordering o
    have b := quiet_chooseRobot a oa
    have ob := b.handling.ordering o
    have c := quiet_choosePrealign b ob
    have oc := c.handling.ordering o
    have d := quiet_chooseMap c .zero oc
    exact h.trans (quiet_restHandling (quiet_chooseMap d .one (d.handling.ordering o)))
  · exact h

theorem quiet_deliver {s0 s : State} (h : Quiet s0 s) (m : Msg) : Quiet s0 (s.deliver m) := by
  unfold State.deliver
  repeat' first | with_reducible assumption | with_reducible apply quiet_alignSettled | with_reducible apply quiet_revisitSettled | with_reducible apply quiet_focusSettled | with_reducible apply quiet_alignRefused | with_reducible apply quiet_revisitRefused | with_reducible apply quiet_focusRefused | with_reducible apply quiet_alignFocus | with_reducible apply quiet_revisitFocus | with_reducible apply quiet_lookAfterEnd | split | dsimp only

theorem quiet_drainFor {s0 : State} : ∀ (n : Nat) {s : State}, Quiet s0 s → Quiet s0 (State.drainFor n s)
  | 0, _, h => h
  | n + 1, s, h => by
    unfold State.drainFor
    split
    · exact h
    · exact quiet_drainFor n (quiet_deliver (quiet_setMsgs h _) _)

theorem quiet_drain {s0 s : State} (h : Quiet s0 s) : Quiet s0 s.drain := quiet_drainFor _ h

/-- Carrying out the consequences of a step's own effect keeps all of `Kept`. -/
theorem quiet_settle {s0 s : State} (h : Quiet s0 s) : Quiet s0 s.settle := quiet_drain (quiet_sends (quiet_lotPass (quiet_drain h)))

theorem tame_settle {s0 s : State} (h : Tame s0 s) : Tame s0 s.settle := h.trans (quiet_settle (.refl s)).tame

theorem State.settle_kept (s : State) : s.settle.kept = s.kept := (quiet_settle (.refl s)).kept

theorem tame_setMotion {s0 s : State} (h : Tame s0 s) {m : Motion} (hm : s.motion.Sound → m.Sound) : Tame s0 (s.setMotion m) :=
  h.moved hm

theorem tame_setRevisit {s0 s : State} (h : Tame s0 s) {r : Revisit} (hr : r.posting.length ≤ s.revisit.posting.length) :
    Tame s0 (s.setRevisit r) := h.revised hr

theorem tame_setSensor {s0 s : State} (h : Tame s0 s) {n : Sensor} (hn : s.sensor.ring.length ≤ 8 → n.ring.length ≤ 8) :
    Tame s0 (s.setSensor n) := h.trans ⟨rfl, rfl, rfl, id, id, hn, id, id⟩

theorem tame_setPath {s0 s : State} (h : Tame s0 s) {p : Path} (hp : p.capture = s.path.capture) : Tame s0 (s.setPath p) :=
  h.same rfl rfl rfl rfl rfl rfl hp rfl

theorem tame_setAnchor {s0 s : State} (h : Tame s0 s) {a : Anchor} (ha : a.base = s.anchor.base) : Tame s0 (s.setAnchor a) :=
  h.same rfl rfl ha rfl rfl rfl rfl rfl

theorem tame_modEntry {s0 s : State} (h : Tame s0 s) (k : Slot) (i : Nat) (f : Entry → Entry) : Tame s0 (s.modEntry k i f) :=
  h.trans ⟨rfl, rfl, rfl, id, fun p => by simpa [State.modEntry] using p, id, id, id⟩

theorem MPort.queued_askAll (m : MPort) {qs : List PartRequest} (hq : ∀ q ∈ qs, q.isWrite = false) :
    ({ m with requests := m.requests ++ qs } : MPort).queued = m.queued := by
  have : qs.filter PartRequest.isWrite = [] := List.filter_eq_nil_iff.mpr fun q hm => by simp [hq q hm]
  simp [MPort.queued, this]

theorem tame_askAll {s0 s : State} (h : Tame s0 s) {qs : List PartRequest} (hq : ∀ q ∈ qs, q.isWrite = false) :
    Tame s0 (s.askAll qs) :=
  h.trans ⟨rfl, rfl, rfl, id, id, id, id, fun p => (s.mport.queued_askAll hq).trans_le p⟩

theorem tame_ask {s0 s : State} (h : Tame s0 s) {q : PartRequest} (hq : q.isWrite = false) : Tame s0 (s.ask q) :=
  tame_askAll h (qs := [q]) (by simpa using hq)

theorem tame_endService {s0 s : State} (h : Tame s0 s) : Tame s0 s.endService :=
  h.trans ⟨rfl, rfl, rfl, id, id, id, id, fun p => le_trans (List.Sublist.length_le (List.tail_sublist _ |>.filter _)) p⟩

theorem tame_setHandling {s0 s : State} (h : Tame s0 s) (x : Handling) : Tame s0 (s.setHandling x) :=
  h.same rfl rfl rfl rfl rfl rfl rfl rfl

theorem tame_setAf {s0 s : State} (h : Tame s0 s) (a : Autofocus) : Tame s0 (s.setAf a) :=
  h.same rfl rfl rfl rfl rfl rfl rfl rfl

theorem tame_setGrab {s0 s : State} (h : Tame s0 s) (g : GrabLink) : Tame s0 (s.setGrab g) :=
  h.same rfl rfl rfl rfl rfl rfl rfl rfl

theorem tame_emit {s0 s : State} (h : Tame s0 s) (o : LinkOrder) : Tame s0 (s.emit o) :=
  h.same rfl rfl rfl rfl rfl rfl rfl rfl

theorem tame_say {s0 s : State} (h : Tame s0 s) (m : Msg) : Tame s0 (s.say m) :=
  h.same rfl rfl rfl rfl rfl rfl rfl rfl

theorem tame_sayAll {s0 s : State} (h : Tame s0 s) (ms : List Msg) : Tame s0 (s.sayAll ms) :=
  h.same rfl rfl rfl rfl rfl rfl rfl rfl

theorem tame_setMsgs {s0 s : State} (h : Tame s0 s) (ms : List Msg) : Tame s0 (s.setMsgs ms) :=
  h.same rfl rfl rfl rfl rfl rfl rfl rfl

theorem tame_modReport {s0 s : State} (h : Tame s0 s) (k : Slot) (f : Report → Report) : Tame s0 (s.modReport k f) :=
  h.same rfl rfl rfl rfl rfl rfl rfl rfl

theorem tame_setLot {s0 s : State} (h : Tame s0 s) (k : Slot) (l : Lot) : Tame s0 (s.setLot k l) :=
  h.same rfl rfl rfl rfl rfl rfl rfl rfl

theorem tame_modLot {s0 s : State} (h : Tame s0 s) (k : Slot) (f : Lot → Lot) : Tame s0 (s.modLot k f) :=
  h.same rfl rfl rfl rfl rfl rfl rfl rfl

theorem tame_setInterlock {s0 s : State} (h : Tame s0 s) (b : Bool) : Tame s0 (s.setInterlock b) :=
  h.same rfl rfl rfl rfl rfl rfl rfl rfl

theorem tame_carrierArrives {s0 s : State} (h : Tame s0 s) (p : Slot) : Tame s0 (s.carrierArrives p) :=
  h.same rfl rfl rfl rfl rfl rfl rfl rfl

theorem tame_setAt {s0 s : State} (h : Tame s0 s) (l : Loc) (o : Occupant) : Tame s0 (s.setAt l o) :=
  h.same rfl rfl rfl rfl rfl rfl rfl rfl

theorem tame_setVersion {s0 s : State} (h : Tame s0 s) (id : RecId) (v : Word) : Tame s0 (s.setVersion id v) :=
  h.same rfl rfl rfl rfl rfl rfl rfl rfl

theorem tame_writeWhole {s0 s : State} (h : Tame s0 s) (id : RecId) : Tame s0 (s.writeWhole id) :=
  h.same rfl rfl rfl rfl rfl rfl rfl rfl

theorem tame_countStale {s0 s : State} (h : Tame s0 s)  : Tame s0 (s.countStale ) :=
  h.same rfl rfl rfl rfl rfl rfl rfl rfl

theorem tame_align {s0 s : State} (h : Tame s0 s) (x : Align) : Tame s0 { s with align := x } :=
  h.same rfl rfl rfl rfl rfl rfl rfl rfl

theorem tame_focusMap {s0 s : State} (h : Tame s0 s) (x : List Zone) : Tame s0 { s with focusMap := x } :=
  h.same rfl rfl rfl rfl rfl rfl rfl rfl

theorem tame_lots {s0 s : State} (h : Tame s0 s) (x : Two Lot) : Tame s0 { s with lots := x } :=
  h.same rfl rfl rfl rfl rfl rfl rfl rfl

theorem tame_free {s0 s : State} (h : Tame s0 s) (x : Nat) : Tame s0 { s with free := x } :=
  h.same rfl rfl rfl rfl rfl rfl rfl rfl

theorem tame_classTable {s0 s : State} (h : Tame s0 s) (x : ClassTable) : Tame s0 { s with classTable := x } :=
  h.same rfl rfl rfl rfl rfl rfl rfl rfl

theorem tame_notice {s0 s : State} (h : Tame s0 s) (x : Notice) : Tame s0 { s with notice := x } :=
  h.same rfl rfl rfl rfl rfl rfl rfl rfl

theorem tame_wb {s0 s : State} (h : Tame s0 s) (x : WriteBack) : Tame s0 { s with wb := x } :=
  h.same rfl rfl rfl rfl rfl rfl rfl rfl

theorem tame_cell {s0 s : State} (h : Tame s0 s) (x : CellLines) : Tame s0 { s with cell := x } :=
  h.same rfl rfl rfl rfl rfl rfl rfl rfl

/-! ## Every operation -/

theorem tame_modWafer {s0 s : State} (h : Tame s0 s) (w : WaferName) (f : Wafer → Wafer) : Tame s0 (s.modWafer w f) :=
  h.same rfl rfl rfl rfl rfl rfl rfl rfl

theorem tame_raise {s0 s : State} (h : Tame s0 s) (k : NoticeKind) : Tame s0 (s.raise k) :=
  h.trans (quiet_raise (.refl s) k).tame

theorem tame_countMasked {s0 s : State} (h : Tame s0 s) : Tame s0 s.countMasked :=
  tame_raise (tame_setAnchor h (a := { s.anchor with masked := satInc 65535 s.anchor.masked }) rfl) _

theorem tame_whenDue {s0 s : State} (h : Tame s0 s) (t : Timer) {f : State → State} (hf : Tame s0 (f s)) :
    Tame s0 (s.whenDue t f) := by
  unfold State.whenDue
  split
  · exact hf
  · exact h

theorem tame_modRow {s0 s : State} (h : Tame s0 s) (w : WaferName) (f : Row → Row) : Tame s0 (s.modRow w f) := by
  unfold State.modRow
  repeat' first | with_reducible assumption | with_reducible apply tame_modReport | exact rfl | split | dsimp only

theorem tame_enter {s0 s : State} (h : Tame s0 s) (w : WaferName) (f : Row → Row) : Tame s0 (s.enter w f) := by
  unfold State.enter
  repeat' first | with_reducible assumption | with_reducible apply tame_modRow | exact rfl | split | dsimp only

theorem tame_countUnattributed {s0 s : State} (h : Tame s0 s) (k : Slot) : Tame s0 (s.countUnattributed k) := by
  unfold State.countUnattributed
  repeat' first | with_reducible assumption | with_reducible apply tame_modReport | exact rfl | split | dsimp only

theorem tame_countPost {s0 s : State} (h : Tame s0 s) (w : WaferName) (fate : Option Outcome) : Tame s0 (s.countPost w fate) := by
  unfold State.countPost
  repeat' first | with_reducible assumption | with_reducible apply tame_modRow | with_reducible apply tame_countUnattributed | exact rfl | split | dsimp only

theorem tame_countOutcome {s0 s : State} (h : Tame s0 s) (w : WaferName) (o : Outcome) : Tame s0 (s.countOutcome w o) :=
  h.trans (quiet_countOutcome (.refl s) w o).tame

theorem tame_writeFinal {s0 s : State} (h : Tame s0 s) (w : WaferName) (r : FinalResult) : Tame s0 (s.writeFinal w r) := by
  unfold State.writeFinal
  repeat' first | with_reducible assumption | with_reducible apply tame_modWafer | with_reducible apply tame_enter | exact rfl | split | dsimp only

theorem tame_unlockClass {s0 s : State} (h : Tame s0 s) (k : Slot) (i : Nat) : Tame s0 (s.unlockClass k i) := by
  unfold State.unlockClass
  repeat' first | with_reducible assumption | with_reducible apply tame_modReport | exact rfl | split | dsimp only

theorem tame_countLate {s0 s : State} (h : Tame s0 s) (k : Slot) (i : Nat) : Tame s0 (s.countLate k i) := by
  unfold State.countLate
  repeat' first | with_reducible assumption | with_reducible apply tame_modRow | exact rfl | split | dsimp only

theorem tame_setGroup {s0 s : State} (h : Tame s0 s) (g : MotionGroup) (r : GroupRecord) : Tame s0 (s.setGroup g r) :=
  h.trans (quiet_setGroup (.refl s) g r).tame

theorem tame_sendMove {s0 s : State} (h : Tame s0 s) (t : MoveTarget) (rs : List Requester) : Tame s0 (s.sendMove t rs) := by
  unfold State.sendMove
  repeat' first | with_reducible assumption | with_reducible apply tame_setGroup | with_reducible apply tame_enter | with_reducible apply tame_setMotion | with_reducible apply tame_emit | exact rfl | with_reducible apply Motion.Sound.enter | with_reducible apply Motion.Sound.setGroup | with_reducible apply Motion.Sound.setTarget | with_reducible apply Motion.Sound.setPosition | with_reducible apply Motion.Sound.counts | split | dsimp only | intro _

theorem tame_judgeMove {s0 s : State} (h : Tame s0 s) (t : MoveTarget) (rs : List Requester) : Tame s0 (s.judgeMove t rs) :=
  h.trans (quiet_judgeMove (.refl s) t rs).tame

theorem tame_waitMove {s0 s : State} (h : Tame s0 s) (w : WaitingMove) : Tame s0 (s.waitMove w) :=
  h.trans (quiet_waitMove (.refl s) w).tame

theorem tame_requestMove {s0 s : State} (h : Tame s0 s) (t : MoveTarget) (r : Requester) : Tame s0 (s.requestMove t r) :=
  h.trans (quiet_requestMove (.refl s) t r).tame

theorem tame_takeRequest {s0 s : State} (h : Tame s0 s) : Tame s0 (s.takeRequest) :=
  h.trans (quiet_takeRequest (.refl s)).tame

theorem tame_waitLoad {s0 s : State} (h : Tame s0 s) (r : Requester) : Tame s0 (s.waitLoad r) :=
  h.trans (quiet_waitLoad (.refl s) r).tame

theorem tame_requestLoad {s0 s : State} (h : Tame s0 s) (u : MoveUnit) : Tame s0 (s.requestLoad u) :=
  h.trans (quiet_requestLoad (.refl s) u).tame

theorem tame_advanceEpoch {s0 s : State} (h : Tame s0 s) : Tame s0 (s.advanceEpoch) := by
  unfold State.advanceEpoch
  repeat' first | with_reducible assumption | with_reducible apply tame_setMotion | with_reducible apply Motion.Sound.enter | with_reducible apply Motion.Sound.setGroup | with_reducible apply Motion.Sound.setTarget | with_reducible apply Motion.Sound.setPosition | with_reducible apply Motion.Sound.counts | split | dsimp only | intro _

theorem tame_judgeWaiting {s0 s : State} (h : Tame s0 s) (g : MotionGroup) : Tame s0 (s.judgeWaiting g) :=
  h.trans (quiet_judgeWaiting (.refl s) g).tame

theorem tame_settleExpires {s0 s : State} (h : Tame s0 s) (g : MotionGroup) (rs : List Requester) : Tame s0 (s.settleExpires g rs) := by
  unfold State.settleExpires
  repeat' first | with_reducible assumption | with_reducible apply tame_setMotion | with_reducible apply tame_setGroup | with_reducible apply tame_enter | with_reducible apply tame_sayAll | with_reducible apply tame_advanceEpoch | with_reducible apply tame_judgeWaiting | exact rfl | with_reducible apply Motion.Sound.enter | with_reducible apply Motion.Sound.setGroup | with_reducible apply Motion.Sound.setTarget | with_reducible apply Motion.Sound.setPosition | with_reducible apply Motion.Sound.counts | split | dsimp only | intro _

theorem tame_arrive {s0 s : State} (h : Tame s0 s) (g : MotionGroup) (o : MotionOrder) (t : MoveTarget) : Tame s0 (s.arrive g o t) := by
  unfold State.arrive
  repeat' first | with_reducible assumption | with_reducible apply tame_setGroup | with_reducible apply tame_enter | with_reducible apply tame_setMotion | with_reducible apply tame_settleExpires | exact rfl | with_reducible apply Motion.Sound.enter | with_reducible apply Motion.Sound.setGroup | with_reducible apply Motion.Sound.setTarget | with_reducible apply Motion.Sound.setPosition | with_reducible apply Motion.Sound.counts | split | dsimp only | intro _

theorem tame_homedGroup {s0 s : State} (h : Tame s0 s) (g : MotionGroup) : Tame s0 (s.homedGroup g) := by
  unfold State.homedGroup
  repeat' first | with_reducible assumption | with_reducible apply tame_setGroup | with_reducible apply tame_enter | with_reducible apply tame_setMotion | with_reducible apply tame_advanceEpoch | with_reducible apply tame_judgeWaiting | exact rfl | with_reducible apply Motion.Sound.enter | with_reducible apply Motion.Sound.setGroup | with_reducible apply Motion.Sound.setTarget | with_reducible apply Motion.Sound.setPosition | with_reducible apply Motion.Sound.counts | split | dsimp only | intro _

theorem tame_sendHome {s0 s : State} (h : Tame s0 s) (g : MotionGroup) : Tame s0 (s.sendHome g) := by
  unfold State.sendHome
  repeat' first | with_reducible assumption | with_reducible apply tame_setGroup | with_reducible apply tame_enter | with_reducible apply tame_setMotion | with_reducible apply tame_emit | exact rfl | with_reducible apply Motion.Sound.enter | with_reducible apply Motion.Sound.setGroup | with_reducible apply Motion.Sound.setTarget | with_reducible apply Motion.Sound.setPosition | with_reducible apply Motion.Sound.counts | split | dsimp only | intro _

theorem tame_requestHome {s0 s : State} (h : Tame s0 s) : Tame s0 (s.requestHome) := by
  unfold State.requestHome
  repeat' first | with_reducible assumption | with_reducible apply tame_sendHome | split | dsimp only

theorem tame_sendStop {s0 s : State} (h : Tame s0 s) (g : MotionGroup) : Tame s0 (s.sendStop g) := by
  unfold State.sendStop
  repeat' first | with_reducible assumption | with_reducible apply tame_setMotion | with_reducible apply tame_emit | with_reducible apply Motion.Sound.enter | with_reducible apply Motion.Sound.setGroup | with_reducible apply Motion.Sound.setTarget | with_reducible apply Motion.Sound.setPosition | with_reducible apply Motion.Sound.counts | split | dsimp only | intro _

theorem tame_faultGroup {s0 s : State} (h : Tame s0 s) (g : MotionGroup) : Tame s0 (s.faultGroup g) := by
  unfold State.faultGroup
  repeat' first | with_reducible assumption | with_reducible apply tame_setMotion | with_reducible apply tame_setGroup | with_reducible apply tame_enter | exact rfl | with_reducible apply Motion.Sound.enter | with_reducible apply Motion.Sound.setGroup | with_reducible apply Motion.Sound.setTarget | with_reducible apply Motion.Sound.setPosition | with_reducible apply Motion.Sound.counts | split | dsimp only | intro _

theorem tame_detachGroup {s0 s : State} (h : Tame s0 s) (g : MotionGroup) : Tame s0 (s.detachGroup g) := by
  unfold State.detachGroup
  repeat' first | with_reducible assumption | with_reducible apply tame_sendStop | with_reducible apply tame_setMotion | with_reducible apply tame_setGroup | with_reducible apply tame_enter | exact rfl | with_reducible apply Motion.Sound.enter | with_reducible apply Motion.Sound.setGroup | with_reducible apply Motion.Sound.setTarget | with_reducible apply Motion.Sound.setPosition | with_reducible apply Motion.Sound.counts | split | dsimp only | intro _

theorem tame_detachMotion {s0 s : State} (h : Tame s0 s) : Tame s0 (s.detachMotion) := by
  unfold State.detachMotion
  repeat' first | with_reducible assumption | with_reducible apply tame_detachGroup | with_reducible apply tame_setMotion | with_reducible apply Motion.Sound.enter | with_reducible apply Motion.Sound.setGroup | with_reducible apply Motion.Sound.setTarget | with_reducible apply Motion.Sound.setPosition | with_reducible apply Motion.Sound.counts | split | dsimp only | intro _

theorem tame_answerFocus {s0 s : State} (h : Tame s0 s) (o : FocusOutcome) : Tame s0 (s.answerFocus o) :=
  h.trans (quiet_answerFocus (.refl s) o).tame

theorem tame_failFocus {s0 s : State} (h : Tame s0 s) (why : FocusReason) : Tame s0 (s.failFocus why) :=
  h.trans (quiet_failFocus (.refl s) why).tame

theorem tame_endFocused {s0 s : State} (h : Tame s0 s) : Tame s0 (s.endFocused) := by
  unfold State.endFocused
  repeat' first | with_reducible assumption | with_reducible apply tame_setAf | with_reducible apply tame_answerFocus | split | dsimp only | with_reducible apply tame_focusMap

theorem tame_beginMeasureAt {s0 s : State} (h : Tame s0 s) (epoch : Word) : Tame s0 (s.beginMeasureAt epoch) :=
  h.trans (quiet_beginMeasureAt (.refl s) epoch).tame

theorem tame_beginMeasure {s0 s : State} (h : Tame s0 s) : Tame s0 (s.beginMeasure) :=
  h.trans (quiet_beginMeasure (.refl s)).tame

theorem tame_focusMove {s0 s : State} (h : Tame s0 s) (st : FocusState) (z : Int) : Tame s0 (s.focusMove st z) :=
  h.trans (quiet_focusMove (.refl s) st z).tame

theorem tame_requestFocus {s0 s : State} (h : Tame s0 s) (r : FocusRequest) : Tame s0 (s.requestFocus r) :=
  h.trans (quiet_requestFocus (.refl s) r).tame

theorem tame_stepFocus {s0 s : State} (h : Tame s0 s) (e : Int) : Tame s0 (s.stepFocus e) := by
  unfold State.stepFocus
  repeat' first | with_reducible assumption | with_reducible apply tame_setAf | with_reducible apply tame_focusMove | with_reducible apply tame_failFocus | split | dsimp only

theorem tame_evaluateLit {s0 s : State} (h : Tame s0 s) (e : Int) : Tame s0 (s.evaluateLit e) := by
  unfold State.evaluateLit
  repeat' first | with_reducible assumption | with_reducible apply tame_setAf | with_reducible apply tame_endFocused | with_reducible apply tame_beginMeasureAt | with_reducible apply tame_failFocus | with_reducible apply tame_stepFocus | split | dsimp only

theorem tame_evaluateDark {s0 s : State} (h : Tame s0 s) : Tame s0 (s.evaluateDark) := by
  unfold State.evaluateDark
  repeat' first | with_reducible assumption | with_reducible apply tame_setAf | with_reducible apply tame_focusMove | with_reducible apply tame_failFocus | split | dsimp only

theorem tame_takeFrame {s0 s : State} (h : Tame s0 s) (f : Summary) : Tame s0 (s.takeFrame f) := by
  unfold State.takeFrame
  repeat' first | with_reducible assumption | with_reducible apply tame_setAf | with_reducible apply tame_evaluateDark | with_reducible apply tame_evaluateLit | split | dsimp only

theorem tame_frameArrival {s0 s : State} (h : Tame s0 s) (f : Summary) : Tame s0 (s.frameArrival f) := by
  unfold State.frameArrival
  repeat' first | with_reducible assumption | with_reducible apply tame_takeFrame | with_reducible apply tame_setAf | split | dsimp only

theorem tame_focusSettled {s0 s : State} (h : Tame s0 s) (n : Nat) : Tame s0 (s.focusSettled n) :=
  h.trans (quiet_focusSettled (.refl s) n).tame

theorem tame_focusRefused {s0 s : State} (h : Tame s0 s) (n : Nat) : Tame s0 (s.focusRefused n) :=
  h.trans (quiet_focusRefused (.refl s) n).tame

theorem tame_withdrawFocus {s0 s : State} (h : Tame s0 s) : Tame s0 (s.withdrawFocus) :=
  h.trans (quiet_withdrawFocus (.refl s)).tame

theorem tame_focusLeaves {s0 s : State} (h : Tame s0 s) : Tame s0 (s.focusLeaves) := by
  unfold State.focusLeaves
  repeat' first | with_reducible assumption | with_reducible apply tame_withdrawFocus | split | dsimp only | with_reducible apply tame_focusMap

theorem tame_focusExpires {s0 s : State} (h : Tame s0 s) : Tame s0 (s.focusExpires) := by
  unfold State.focusExpires
  repeat' first | with_reducible assumption | with_reducible apply tame_failFocus | split | dsimp only

theorem ringAdd_length (r : List Summary) (f : Summary) : (ringAdd r f).length ≤ 8 := by
  simp only [ringAdd, List.length_drop, List.length_append, List.length_singleton, ringSize]; omega

theorem tame_acceptFrame {s0 s : State} (h : Tame s0 s) (words : List (BitVec 16)) (epoch : Word) :
    Tame s0 (s.acceptFrame words epoch) :=
  tame_frameArrival (tame_setSensor h fun _ => ringAdd_length _ _) _

theorem tame_goodFrame {s0 s : State} (h : Tame s0 s) (words : List (BitVec 16)) (epoch : Word) : Tame s0 (s.goodFrame words epoch) := by
  unfold State.goodFrame
  repeat' first | with_reducible assumption | with_reducible apply tame_acceptFrame | with_reducible apply tame_setSensor | exact id | exact fun _ => Nat.zero_le _ | split | dsimp only

theorem tame_badFrame {s0 s : State} (h : Tame s0 s) : Tame s0 (s.badFrame) := by
  unfold State.badFrame
  repeat' first | with_reducible assumption | with_reducible apply tame_setSensor | with_reducible apply tame_raise | exact id | exact fun _ => Nat.zero_le _ | split | dsimp only

theorem tame_misframe {s0 s : State} (h : Tame s0 s) (next : Assembler) : Tame s0 (s.misframe next) := by
  unfold State.misframe
  repeat' first | with_reducible assumption | with_reducible apply tame_setSensor | with_reducible apply tame_badFrame | exact id | exact fun _ => Nat.zero_le _ | split | dsimp only

theorem tame_beginFrame {s0 s : State} (h : Tame s0 s) (w : BitVec 16) (parity : Bool) : Tame s0 (s.beginFrame w parity) := by
  unfold State.beginFrame
  repeat' first | with_reducible assumption | with_reducible apply tame_setSensor | exact id | exact fun _ => Nat.zero_le _ | split | dsimp only

theorem tame_judgeFrame {s0 s : State} (h : Tame s0 s) (words : List (BitVec 16)) (parity : Bool) (epoch : Word) : Tame s0 (s.judgeFrame words parity epoch) := by
  unfold State.judgeFrame
  repeat' first | with_reducible assumption | with_reducible apply tame_setSensor | with_reducible apply tame_goodFrame | with_reducible apply tame_badFrame | exact id | exact fun _ => Nat.zero_le _ | split | dsimp only

theorem tame_assemble {s0 s : State} (h : Tame s0 s) (w : BitVec 16) (mark parity : Bool) : Tame s0 (s.assemble w mark parity) := by
  unfold State.assemble
  repeat' first | with_reducible assumption | with_reducible apply tame_beginFrame | with_reducible apply tame_misframe | with_reducible apply tame_setSensor | with_reducible apply tame_judgeFrame | exact id | exact fun _ => Nat.zero_le _ | split | dsimp only

theorem tame_takeWord {s0 s : State} (h : Tame s0 s) (w : BitVec 16) (mark parity : Bool) : Tame s0 (s.takeWord w mark parity) := by
  unfold State.takeWord
  repeat' first | with_reducible assumption | with_reducible apply tame_setSensor | with_reducible apply tame_assemble | exact id | exact fun _ => Nat.zero_le _ | split | dsimp only

theorem tame_fallSilent {s0 s : State} (h : Tame s0 s) : Tame s0 (s.fallSilent) := by
  unfold State.fallSilent
  repeat' first | with_reducible assumption | with_reducible apply tame_setSensor | with_reducible apply tame_raise | exact id | exact fun _ => Nat.zero_le _ | split | dsimp only

theorem tame_sendGrab {s0 s : State} (h : Tame s0 s) (a : GrabAsk) : Tame s0 (s.sendGrab a) :=
  h.trans (quiet_sendGrab (.refl s) a).tame

theorem tame_askGrab {s0 s : State} (h : Tame s0 s) (a : GrabAsk) : Tame s0 (s.askGrab a) :=
  h.trans (quiet_askGrab (.refl s) a).tame

theorem tame_endGrab {s0 s : State} (h : Tame s0 s) : Tame s0 (s.endGrab) := by
  unfold State.endGrab
  repeat' first | with_reducible assumption | with_reducible apply tame_setGrab | with_reducible apply tame_sendGrab | split | dsimp only

theorem tame_dropGrab {s0 s : State} (h : Tame s0 s) (k : GrabKind) : Tame s0 (s.dropGrab k) :=
  h.trans (quiet_dropGrab (.refl s) k).tame

theorem tame_leavePosting {s0 s : State} (h : Tame s0 s) (k : Slot) (i : Nat) : Tame s0 (s.leavePosting k i) :=
  tame_setRevisit h (List.length_filter_le _ _)

theorem tame_leaveStore {s0 s : State} (h : Tame s0 s) (k : Slot) (i : Nat) : Tame s0 (s.leaveStore k i) := by
  unfold State.leaveStore
  repeat' first | with_reducible assumption | with_reducible apply tame_setRevisit | exact rfl | exact le_rfl | split | dsimp only

theorem tame_finishEntry {s0 s : State} (h : Tame s0 s) (e : Entry) (st : EntryState) (why : EntryReason) : Tame s0 (s.finishEntry e st why) :=
  h.trans (quiet_finishEntry (.refl s) e st why).tame

theorem tame_endQueued {s0 s : State} (h : Tame s0 s) (w : WaferName) (why : EntryReason) : Tame s0 (s.endQueued w why) :=
  h.trans (quiet_endQueued (.refl s) w why).tame

theorem tame_endQueuedOfLot {s0 s : State} (h : Tame s0 s) (k : Slot) (why : EntryReason) : Tame s0 (s.endQueuedOfLot k why) :=
  h.trans (quiet_endQueuedOfLot (.refl s) k why).tame

theorem tame_setActive {s0 s : State} (h : Tame s0 s) (a : Option ActiveRevisit) : Tame s0 (s.setActive a) :=
  h.trans (quiet_setActive (.refl s) a).tame

theorem tame_handMapFigures {s0 s : State} (h : Tame s0 s) (w : WaferName) : Tame s0 (s.handMapFigures w) :=
  h.trans (quiet_handMapFigures (.refl s) w).tame

theorem tame_handDuration {s0 s : State} (h : Tame s0 s) (w : WaferName) (d : Word) : Tame s0 (s.handDuration w d) :=
  h.trans (quiet_handDuration (.refl s) w d).tame

theorem tame_toReviewEnded {s0 s : State} (h : Tame s0 s) (w : WaferName) : Tame s0 (s.toReviewEnded w) :=
  h.trans (quiet_toReviewEnded (.refl s) w).tame

theorem tame_pendAborted {s0 s : State} (h : Tame s0 s) (w : WaferName) : Tame s0 (s.pendAborted w) :=
  h.trans (quiet_pendAborted (.refl s) w).tame

theorem tame_endReview {s0 s : State} (h : Tame s0 s) : Tame s0 (s.endReview) :=
  h.trans (quiet_endReview (.refl s)).tame

theorem tame_normalEnd {s0 s : State} (h : Tame s0 s) (w : WaferName) : Tame s0 (s.normalEnd w) :=
  h.trans (quiet_normalEnd (.refl s) w).tame

theorem tame_waitForPosts {s0 s : State} (h : Tame s0 s) (w : WaferName) : Tame s0 (s.waitForPosts w) := by
  unfold State.waitForPosts
  repeat' first | with_reducible assumption | with_reducible apply tame_setRevisit | with_reducible apply tame_raise | exact rfl | exact le_rfl | split | dsimp only

theorem tame_endActive {s0 s : State} (h : Tame s0 s) (e : Entry) (st : EntryState) (why : EntryReason) : Tame s0 (s.endActive e st why) :=
  h.trans (quiet_endActive (.refl s) e st why).tame

theorem tame_beginMove {s0 s : State} (h : Tame s0 s) (a : ActiveRevisit) (z : Int) : Tame s0 (s.beginMove a z) :=
  h.trans (quiet_beginMove (.refl s) a z).tame

theorem tame_beginTarget {s0 s : State} (h : Tame s0 s) (e : Entry) : Tame s0 (s.beginTarget e) :=
  h.trans (quiet_beginTarget (.refl s) e).tame

theorem tame_takeEntry {s0 s : State} (h : Tame s0 s) (e : Entry) : Tame s0 (s.takeEntry e) := by
  unfold State.takeEntry
  repeat' first | with_reducible assumption | with_reducible apply tame_modEntry | with_reducible apply tame_setRevisit | with_reducible apply tame_beginTarget | exact rfl | exact le_rfl | split | dsimp only

theorem tame_look {s0 s : State} (h : Tame s0 s) (w : WaferName) : Tame s0 (s.look w) := by
  unfold State.look
  repeat' first | with_reducible assumption | with_reducible apply tame_takeEntry | with_reducible apply tame_normalEnd | with_reducible apply tame_waitForPosts | split | dsimp only

theorem tame_lookAfterEnd {s0 s : State} (h : Tame s0 s) : Tame s0 (s.lookAfterEnd) :=
  h.trans (quiet_lookAfterEnd (.refl s)).tame

theorem tame_alignedReport {s0 s : State} (h : Tame s0 s) : Tame s0 (s.alignedReport) := by
  unfold State.alignedReport
  repeat' first | with_reducible assumption | with_reducible apply tame_look | split | dsimp only

theorem tame_inserted {s0 s : State} (h : Tame s0 s) (w : WaferName) : Tame s0 (s.inserted w) := by
  unfold State.inserted
  repeat' first | with_reducible assumption | with_reducible apply tame_takeEntry | split | dsimp only

theorem tame_beginFocus {s0 s : State} (h : Tame s0 s) (a : ActiveRevisit) (e : Entry) : Tame s0 (s.beginFocus a e) :=
  h.trans (quiet_beginFocus (.refl s) a e).tame

theorem tame_revisitSettled {s0 s : State} (h : Tame s0 s) (n : Nat) : Tame s0 (s.revisitSettled n) :=
  h.trans (quiet_revisitSettled (.refl s) n).tame

theorem tame_revisitRefused {s0 s : State} (h : Tame s0 s) (n : Nat) (why : MoveRefusal) : Tame s0 (s.revisitRefused n why) :=
  h.trans (quiet_revisitRefused (.refl s) n why).tame

theorem tame_failedAttempt {s0 s : State} (h : Tame s0 s) (a : ActiveRevisit) (e : Entry) (why : LastFailure) : Tame s0 (s.failedAttempt a e why) :=
  h.trans (quiet_failedAttempt (.refl s) a e why).tame

theorem tame_revisitFocus {s0 s : State} (h : Tame s0 s) (o : FocusOutcome) : Tame s0 (s.revisitFocus o) :=
  h.trans (quiet_revisitFocus (.refl s) o).tame

theorem tame_revisitGrabbed {s0 s : State} (h : Tame s0 s) (first frames : Word) : Tame s0 (s.revisitGrabbed first frames) := by
  unfold State.revisitGrabbed
  repeat' first | with_reducible assumption | with_reducible apply tame_modEntry | with_reducible apply tame_endActive | exact rfl | split | dsimp only

theorem tame_revisitGrabFailed {s0 s : State} (h : Tame s0 s) (why : LastFailure) : Tame s0 (s.revisitGrabFailed why) := by
  unfold State.revisitGrabFailed
  repeat' first | with_reducible assumption | with_reducible apply tame_failedAttempt | split | dsimp only

theorem tame_endActiveEntry {s0 s : State} (h : Tame s0 s) (why : EntryReason) : Tame s0 (s.endActiveEntry why) :=
  h.trans (quiet_endActiveEntry (.refl s) why).tame

theorem tame_cutActive {s0 s : State} (h : Tame s0 s) (why : EntryReason) : Tame s0 (s.cutActive why) :=
  h.trans (quiet_cutActive (.refl s) why).tame

theorem tame_reviewLeaves {s0 s : State} (h : Tame s0 s) (w : WaferName) : Tame s0 (s.reviewLeaves w) := by
  unfold State.reviewLeaves
  repeat' first | with_reducible assumption | with_reducible apply tame_endActiveEntry | with_reducible apply tame_setRevisit | exact rfl | exact le_rfl | split | dsimp only

theorem tame_reviewArrives {s0 s : State} (h : Tame s0 s) (w : WaferName) : Tame s0 (s.reviewArrives w) := by
  unfold State.reviewArrives
  repeat' first | with_reducible assumption | with_reducible apply tame_endActiveEntry | with_reducible apply tame_setRevisit | exact rfl | exact le_rfl | split | dsimp only

theorem tame_setAlign {s0 s : State} (h : Tame s0 s) (a : Align) : Tame s0 (s.setAlign a) := by
  unfold State.setAlign
  dsimp only
  split <;> exact h.same rfl rfl rfl rfl rfl rfl rfl rfl

theorem tame_showTransform {s0 s : State} (h : Tame s0 s) : Tame s0 (s.showTransform) := by
  unfold State.showTransform
  repeat' first | with_reducible assumption | with_reducible apply tame_modWafer | exact rfl | split | dsimp only

theorem tame_alignFail {s0 s : State} (h : Tame s0 s) (why : AlignReason) : Tame s0 (s.alignFail why) :=
  h.trans (quiet_alignFail (.refl s) why).tame

theorem tame_alignStop {s0 s : State} (h : Tame s0 s) (why : AlignReason) : Tame s0 (s.alignStop why) :=
  h.trans (quiet_alignStop (.refl s) why).tame

theorem tame_beginMark {s0 s : State} (h : Tame s0 s) (n : Nat) : Tame s0 (s.beginMark n) := by
  unfold State.beginMark
  repeat' first | with_reducible assumption | with_reducible apply tame_setAlign | with_reducible apply tame_takeRequest | with_reducible apply tame_requestMove | with_reducible apply tame_alignFail | exact rfl | split | dsimp only

theorem tame_alignArrives {s0 s : State} (h : Tame s0 s) (w : WaferName) : Tame s0 (s.alignArrives w) := by
  unfold State.alignArrives
  repeat' first | with_reducible assumption | with_reducible apply tame_setAlign | with_reducible apply tame_showTransform | with_reducible apply tame_beginMark | exact rfl | split | dsimp only

theorem tame_alignSettled {s0 s : State} (h : Tame s0 s) (n : Nat) : Tame s0 (s.alignSettled n) :=
  h.trans (quiet_alignSettled (.refl s) n).tame

theorem tame_alignRefused {s0 s : State} (h : Tame s0 s) (n : Nat) : Tame s0 (s.alignRefused n) :=
  h.trans (quiet_alignRefused (.refl s) n).tame

theorem tame_alignFocus {s0 s : State} (h : Tame s0 s) (o : FocusOutcome) : Tame s0 (s.alignFocus o) :=
  h.trans (quiet_alignFocus (.refl s) o).tame

theorem tame_toAligned {s0 s : State} (h : Tame s0 s) : Tame s0 (s.toAligned) := by
  unfold State.toAligned
  repeat' first | with_reducible assumption | with_reducible apply tame_setAlign | with_reducible apply tame_alignedReport | exact rfl | split | dsimp only

theorem tame_handSolve {s0 s : State} (h : Tame s0 s) (c : Solved) : Tame s0 (s.handSolve c) := by
  unfold State.handSolve
  repeat' first | with_reducible assumption | with_reducible apply tame_enter | exact rfl | split | dsimp only

theorem tame_solveMarks {s0 s : State} (h : Tame s0 s) : Tame s0 (s.solveMarks) := by
  unfold State.solveMarks
  repeat' first | with_reducible assumption | with_reducible apply tame_handSolve | with_reducible apply tame_alignFail | with_reducible apply tame_setAlign | with_reducible apply tame_showTransform | with_reducible apply tame_beginMark | with_reducible apply tame_toAligned | exact rfl | split | dsimp only

theorem tame_checkResidual {s0 s : State} (h : Tame s0 s) : Tame s0 (s.checkResidual) := by
  unfold State.checkResidual
  repeat' first | with_reducible assumption | with_reducible apply tame_toAligned | with_reducible apply tame_alignFail | split | dsimp only

theorem tame_markMeasured {s0 s : State} (h : Tame s0 s) (ox oy : Int) : Tame s0 (s.markMeasured ox oy) := by
  unfold State.markMeasured
  repeat' first | with_reducible assumption | with_reducible apply tame_setAlign | with_reducible apply tame_beginMark | with_reducible apply tame_solveMarks | with_reducible apply tame_checkResidual | exact rfl | split | dsimp only

theorem tame_markMissed {s0 s : State} (h : Tame s0 s) : Tame s0 (s.markMissed) := by
  unfold State.markMissed
  repeat' first | with_reducible assumption | with_reducible apply tame_setAlign | with_reducible apply tame_askGrab | with_reducible apply tame_alignFail | exact rfl | split | dsimp only

theorem tame_alignResult {s0 s : State} (h : Tame s0 s) (found : Bool) (ox oy : Int) : Tame s0 (s.alignResult found ox oy) := by
  unfold State.alignResult
  repeat' first | with_reducible assumption | with_reducible apply tame_markMeasured | with_reducible apply tame_markMissed | split | dsimp only

theorem tame_alignGrabFailed {s0 s : State} (h : Tame s0 s) : Tame s0 (s.alignGrabFailed) := by
  unfold State.alignGrabFailed
  repeat' first | with_reducible assumption | with_reducible apply tame_markMissed | split | dsimp only

theorem tame_alignLeaves {s0 s : State} (h : Tame s0 s) (w : WaferName) : Tame s0 (s.alignLeaves w) := by
  unfold State.alignLeaves
  repeat' first | with_reducible assumption | split | dsimp only | with_reducible apply tame_align

theorem queueWords_length (ws : Windows) (id : RecId) (value : Nat → Option Word) (offsets : List Nat) :
    (queueWords ws id value offsets).length ≤ offsets.length := List.length_filterMap_le _ _

/-- Words moved into the write queue, when they fit. -/
theorem tame_enqueue {s0 s t : State} (h : Tame s0 s) (qs : List PartRequest) (fits : s.mport.queued ≤ 32 → s.mport.queued + qs.length ≤ 32)
    (ht : Tame s t) (hm : t.mport = s.mport) : Tame s0 (t.askAll qs) := by
  refine h.trans ⟨ht.pending, ht.mem, ht.base, ht.motion, ht.posting, ht.ring, ht.capture, fun p => ?_⟩
  have := fits p
  have : (t.askAll qs).mport.queued ≤ s.mport.queued + qs.length := by
    simp only [State.askAll, hm, MPort.queued, List.filter_append, List.length_append]
    have := List.length_filter_le PartRequest.isWrite qs
    omega
  omega

/-- A direct write enters the queue when it fits. -/
theorem tame_moveDirect {s0 s : State} (h : Tame s0 s) (ws : Windows) (d : HeldImage) (rest : List HeldImage)
    (hq : s.mport.queued + 8 ≤ queueSize) : Tame s0 (s.moveDirect ws d rest) := by
  refine tame_enqueue h _ (fun p => ?_) (tame_wb (.refl s) _) rfl
  have := queueWords_length ws d.id (s.heldWord d.id) [8, 9, 10, 11, 12, 13, 14, 15]
  simp only [queueSize, List.length_cons, List.length_nil] at *
  omega

theorem tame_enterDirectFor {s0 : State} : ∀ (n : Nat) {s : State}, Tame s0 s → Tame s0 (State.enterDirectFor n s)
  | 0, _, h => h
  | n + 1, s, h => by
    unfold State.enterDirectFor
    repeat' split
    · exact tame_enterDirectFor n (tame_moveDirect h _ _ _ ‹_›)
    · exact h
    · exact h

theorem tame_enterDirect {s0 s : State} (h : Tame s0 s) : Tame s0 s.enterDirect := tame_enterDirectFor _ h

theorem tame_moveDirty {s0 s : State} (h : Tame s0 s) (ws : Windows) : Tame s0 (s.moveDirty ws) := by
  unfold State.moveDirty
  split
  · exact h
  · rename_i d rest _
    dsimp only
    split
    · split
      · rename_i hr
        refine tame_enqueue h _ (fun p => ?_) (tame_wb (.refl s) _) rfl
        have := queueWords_length ws d.id (s.heldWord d.id) d.words
        simp only [queueSize] at *
        omega
      · exact h
    · split
      · refine tame_enqueue h _ (fun p => ?_) (tame_wb (.refl s) _) rfl
        have := queueWords_length ws d.id (s.heldWord d.id) (d.words.take queueSize)
        have := List.length_take_le queueSize d.words
        simp only [queueSize] at *
        omega
      · exact h

theorem tame_moveRecord {s0 s : State} (h : Tame s0 s) : Tame s0 s.moveRecord := by
  unfold State.moveRecord
  split
  · exact h
  · rename_i ws _
    split
    · exact tame_moveDirty h _
    · rename_i d rest _
      split
      · rename_i hq
        exact tame_moveDirect h _ _ _ hq
      · exact h

theorem tame_enterHalted {s0 s : State} (h : Tame s0 s) : Tame s0 (s.enterHalted) := by
  unfold State.enterHalted
  repeat' first | with_reducible assumption | with_reducible apply tame_setHandling | with_reducible apply tame_raise | exact rfl | split | dsimp only

theorem tame_halt {s0 s : State} (h : Tame s0 s) : Tame s0 (s.halt) := by
  unfold State.halt
  repeat' first | with_reducible assumption | with_reducible apply tame_hold | with_reducible apply tame_enterHalted | with_reducible apply tame_setHandling | exact rfl | split | dsimp only

theorem tame_cutReview {s0 s : State} (h : Tame s0 s) (why : EntryReason) (al : AlignReason) : Tame s0 (s.cutReview why al) :=
  h.trans (quiet_cutReview (.refl s) why al).tame

theorem tame_stageLeft {s0 s : State} (h : Tame s0 s) (w : WaferName) : Tame s0 (s.stageLeft w) := by
  unfold State.stageLeft
  repeat' first | with_reducible assumption | with_reducible apply tame_alignLeaves | with_reducible apply tame_focusLeaves | with_reducible apply tame_reviewLeaves | split | dsimp only

theorem tame_stageArrived {s0 s : State} (h : Tame s0 s) (w : WaferName) : Tame s0 (s.stageArrived w) := by
  unfold State.stageArrived
  repeat' first | with_reducible assumption | with_reducible apply tame_reviewArrives | with_reducible apply tame_alignArrives | split | dsimp only

theorem tame_beginFetch {s0 s : State} (h : Tame s0 s) (k : Slot) : Tame s0 (s.beginFetch k) := by
  unfold State.beginFetch
  split
  · exact tame_modLot h _ _
  · refine tame_askAll (tame_modLot h _ _) fun q hq => ?_
    obtain ⟨_, _, rfl⟩ := List.mem_map.mp hq
    rfl

theorem tame_buildWafers {s0 s : State} (h : Tame s0 s) (k : Slot) (got : List (FetchItem × Word)) (aborted : Bool) : Tame s0 (s.buildWafers k got aborted) := by
  unfold State.buildWafers
  repeat' first | with_reducible assumption | with_reducible apply tame_modLot | with_reducible apply tame_setAt | with_reducible apply tame_setVersion | with_reducible apply tame_writeWhole | (with_reducible refine foldl_tame (fun _ _ _ _ => ?_) _ ?_) | exact rfl | split | dsimp only

theorem tame_openReport {s0 s : State} (h : Tame s0 s) (k : Slot) (got : List (FetchItem × Word)) (aborted : Bool) : Tame s0 (s.openReport k got aborted) := by
  unfold State.openReport
  repeat' first | with_reducible assumption | with_reducible apply tame_modReport | with_reducible apply tame_setVersion | with_reducible apply tame_writeWhole | (with_reducible refine foldl_tame (fun _ _ _ _ => ?_) _ ?_) | exact rfl | split | dsimp only

theorem tame_setStartLock {s0 s : State} (h : Tame s0 s) (k : Slot) (b : Bool) : Tame s0 (s.setStartLock k b) :=
  h.same rfl rfl rfl rfl rfl rfl rfl rfl

theorem tame_setClosedLock {s0 s : State} (h : Tame s0 s) (k : Slot) (b : Bool) : Tame s0 (s.setClosedLock k b) :=
  h.same rfl rfl rfl rfl rfl rfl rfl rfl

theorem tame_setMapRequest {s0 s : State} (h : Tame s0 s) (k : Slot) (b : Bool) : Tame s0 (s.setMapRequest k b) := by
  unfold State.setMapRequest
  repeat' first | with_reducible assumption | with_reducible apply tame_setHandling | exact rfl | split | dsimp only

theorem tame_refuseStart {s0 s : State} (h : Tame s0 s) (k : Slot) (code : RefusalCode) (field : Nat) : Tame s0 (s.refuseStart k code field) := by
  unfold State.refuseStart
  repeat' first | with_reducible assumption | with_reducible apply tame_modLot | with_reducible apply tame_setStartLock | exact rfl | split | dsimp only

theorem tame_startLot {s0 s : State} (h : Tame s0 s) (k : Slot) (got : List (FetchItem × Word)) : Tame s0 (s.startLot k got) := by
  unfold State.startLot
  repeat' first | with_reducible assumption | with_reducible apply tame_modLot | with_reducible apply tame_buildWafers | with_reducible apply tame_openReport | with_reducible apply tame_setMapRequest | exact rfl | split | dsimp only

theorem tame_buildAborted {s0 s : State} (h : Tame s0 s) (k : Slot) (got : List (FetchItem × Word)) : Tame s0 (s.buildAborted k got) := by
  unfold State.buildAborted
  repeat' first | with_reducible assumption | with_reducible apply tame_modLot | with_reducible apply tame_buildWafers | with_reducible apply tame_openReport | exact rfl | split | dsimp only

theorem tame_fetchDone {s0 s : State} (h : Tame s0 s) (k : Slot) (got : List (FetchItem × Word)) : Tame s0 (s.fetchDone k got) := by
  unfold State.fetchDone
  repeat' first | with_reducible assumption | with_reducible apply tame_refuseStart | with_reducible apply tame_startLot | with_reducible apply tame_buildAborted | split | dsimp only

theorem tame_closeRow {s0 s : State} (h : Tame s0 s) (w : WaferName) : Tame s0 (s.closeRow w) :=
  h.trans (quiet_closeRow (.refl s) w).tame

theorem tame_closeReport {s0 s : State} (h : Tame s0 s) (k : Slot) : Tame s0 (s.closeReport k) := by
  unfold State.closeReport
  repeat' first | with_reducible assumption | with_reducible apply tame_closeRow | with_reducible apply tame_modReport | with_reducible apply tame_setStartLock | with_reducible apply tame_setClosedLock | with_reducible apply tame_raise | (with_reducible refine foldl_tame (fun _ _ _ _ => ?_) _ ?_) | exact rfl | split | dsimp only

theorem tame_setLotState {s0 s : State} (h : Tame s0 s) (k : Slot) (st : LotState) : Tame s0 (s.setLotState k st) :=
  h.same rfl rfl rfl rfl rfl rfl rfl rfl

theorem tame_lotChange {s0 s : State} (h : Tame s0 s) (k : Slot) : Tame s0 (s.lotChange k) :=
  h.trans (quiet_lotChange (.refl s) k).tame

theorem tame_lotPass {s0 s : State} (h : Tame s0 s) : Tame s0 (s.lotPass) :=
  h.trans (quiet_lotPass (.refl s)).tame

theorem tame_abortWafer {s0 s : State} (h : Tame s0 s) (w : WaferName) : Tame s0 (s.abortWafer w) := by
  unfold State.abortWafer
  repeat' first | with_reducible assumption | with_reducible apply tame_modWafer | with_reducible apply tame_writeFinal | with_reducible apply tame_pendAborted | exact rfl | split | dsimp only

theorem tame_abortLot {s0 s : State} (h : Tame s0 s) (k : Slot) : Tame s0 (s.abortLot k) := by
  unfold State.abortLot
  repeat' first | with_reducible assumption | with_reducible apply tame_setLotState | with_reducible apply tame_setMapRequest | with_reducible apply tame_endQueuedOfLot | with_reducible apply tame_cutReview | with_reducible apply tame_abortWafer | (with_reducible refine foldl_tame (fun _ _ _ _ => ?_) _ ?_) | split | dsimp only

theorem tame_keep {s0 s : State} (h : Tame s0 s) (id : RecId) : Tame s0 (s.keep id) := by
  unfold State.keep
  repeat' first | with_reducible assumption | split | dsimp only | with_reducible apply tame_wb

theorem tame_forgetAt {s0 s : State} (h : Tame s0 s) (k : Slot) (l : Loc) : Tame s0 (s.forgetAt k l) := by
  unfold State.forgetAt
  repeat' first | with_reducible assumption | with_reducible apply tame_setAt | split | dsimp only

theorem tame_releasePlaces {s0 s : State} (h : Tame s0 s) (k : Slot) : Tame s0 (s.releasePlaces k) := by
  unfold State.releasePlaces
  repeat' first | with_reducible assumption | with_reducible apply tame_setAt | with_reducible apply tame_forgetAt | with_reducible apply tame_halt | with_reducible apply tame_stageLeft | (with_reducible refine foldl_tame (fun _ _ _ _ => ?_) _ ?_) | split | dsimp only

theorem tame_releaseLot {s0 s : State} (h : Tame s0 s) (k : Slot) : Tame s0 (s.releaseLot k) := by
  have hk := tame_releasePlaces (foldl_tame (fun _ _ id g => tame_keep g id) (releasedIds k)
    (tame_modReport h k fun r => { r with state := .released })) k
  unfold State.releaseLot
  dsimp only
  generalize State.releasePlaces _ k = u at hk ⊢
  refine tame_setClosedLock (tame_setStartLock (tame_modLot (tame_setRevisit (tame_modReport hk _ _) ?_) _ _) _ _) _ _
  exact le_rfl

theorem tame_takeHandlerTag {s0 s : State} (h : Tame s0 s) : Tame s0 (s.takeHandlerTag) := by
  unfold State.takeHandlerTag
  repeat' first | with_reducible assumption | with_reducible apply tame_setHandling | exact rfl | split | dsimp only

theorem tame_sendRobot {s0 s : State} (h : Tame s0 s) (k : RobotKind) : Tame s0 (s.sendRobot k) := by
  unfold State.sendRobot
  repeat' first | with_reducible assumption | with_reducible apply tame_setHandling | with_reducible apply tame_takeHandlerTag | with_reducible apply tame_emit | exact rfl | split | dsimp only

theorem tame_sendPrealign {s0 s : State} (h : Tame s0 s) (notch : Int) : Tame s0 (s.sendPrealign notch) := by
  unfold State.sendPrealign
  repeat' first | with_reducible assumption | with_reducible apply tame_setHandling | with_reducible apply tame_takeHandlerTag | with_reducible apply tame_emit | exact rfl | split | dsimp only

theorem tame_sendMap {s0 s : State} (h : Tame s0 s) (p : Slot) : Tame s0 (s.sendMap p) := by
  unfold State.sendMap
  repeat' first | with_reducible assumption | with_reducible apply tame_setHandling | with_reducible apply tame_takeHandlerTag | with_reducible apply tame_emit | exact rfl | split | dsimp only

theorem tame_sendInventory {s0 s : State} (h : Tame s0 s) : Tame s0 (s.sendInventory) := by
  unfold State.sendInventory
  repeat' first | with_reducible assumption | with_reducible apply tame_sendRobot | with_reducible apply tame_setHandling | exact rfl | split | dsimp only

theorem tame_restHandling {s0 s : State} (h : Tame s0 s) : Tame s0 (s.restHandling) :=
  h.trans (quiet_restHandling (.refl s)).tame

theorem tame_askLoad {s0 s : State} (h : Tame s0 s) : Tame s0 (s.askLoad) :=
  h.trans (quiet_askLoad (.refl s)).tame

theorem tame_chooseRobot {s0 s : State} (h : Tame s0 s) : Tame s0 (s.chooseRobot) := by
  unfold State.chooseRobot
  repeat' first | with_reducible assumption | with_reducible apply tame_sendRobot | split | dsimp only

theorem tame_choosePrealign {s0 s : State} (h : Tame s0 s) : Tame s0 (s.choosePrealign) := by
  unfold State.choosePrealign
  repeat' first | with_reducible assumption | with_reducible apply tame_sendPrealign | split | dsimp only

theorem tame_chooseMap {s0 s : State} (h : Tame s0 s) (p : Slot) : Tame s0 (s.chooseMap p) := by
  unfold State.chooseMap
  repeat' first | with_reducible assumption | with_reducible apply tame_sendMap | split | dsimp only

theorem tame_sends {s0 s : State} (h : Tame s0 s) : Tame s0 (s.sends) :=
  h.trans (quiet_sends (.refl s)).tame

theorem tame_toReturned {s0 s : State} (h : Tame s0 s) (w : WaferName) : Tame s0 (s.toReturned w) := by
  unfold State.toReturned
  repeat' first | with_reducible assumption | with_reducible apply tame_modWafer | with_reducible apply tame_writeFinal | with_reducible apply tame_raise | with_reducible apply tame_endQueued | exact rfl | split | dsimp only

theorem tame_toReviewEndedAtOnce {s0 s : State} (h : Tame s0 s) (w : WaferName) : Tame s0 (s.toReviewEndedAtOnce w) := by
  unfold State.toReviewEndedAtOnce
  repeat' first | with_reducible assumption | with_reducible apply tame_modWafer | with_reducible apply tame_handDuration | with_reducible apply tame_handMapFigures | with_reducible apply tame_endQueued | exact rfl | split | dsimp only

theorem tame_setWaferState {s0 s : State} (h : Tame s0 s) (w : WaferName) (st : WaferState) : Tame s0 (s.setWaferState w st) := by
  unfold State.setWaferState
  repeat' first | with_reducible assumption | with_reducible apply tame_modWafer | exact rfl | split | dsimp only

theorem tame_readyOnUA {s0 s : State} (h : Tame s0 s) (w : WaferName) : Tame s0 (s.readyOnUA w) := by
  unfold State.readyOnUA
  repeat' first | with_reducible assumption | with_reducible apply tame_setWaferState | split | dsimp only

theorem tame_waferMoved {s0 s : State} (h : Tame s0 s) (w : WaferName) (dst : Loc) : Tame s0 (s.waferMoved w dst) := by
  unfold State.waferMoved
  repeat' first | with_reducible assumption | with_reducible apply tame_setWaferState | with_reducible apply tame_readyOnUA | with_reducible apply tame_modWafer | with_reducible apply tame_stageArrived | with_reducible apply tame_toReturned | with_reducible apply tame_toReviewEndedAtOnce | with_reducible apply tame_setHandling | exact rfl | split | dsimp only

theorem tame_moveTable {s0 s : State} (h : Tame s0 s) (src dst : Loc) : Tame s0 (s.moveTable src dst) := by
  unfold State.moveTable
  repeat' first | with_reducible assumption | with_reducible apply tame_setAt | split | dsimp only

theorem tame_leaveFrom {s0 s : State} (h : Tame s0 s) (src : Loc) (o : Occupant) : Tame s0 (s.leaveFrom src o) := by
  unfold State.leaveFrom
  repeat' first | with_reducible assumption | with_reducible apply tame_stageLeft | split | dsimp only

theorem tame_moveDone {s0 s : State} (h : Tame s0 s) (src dst : Loc) : Tame s0 (s.moveDone src dst) := by
  unfold State.moveDone
  repeat' first | with_reducible assumption | with_reducible apply tame_moveTable | with_reducible apply tame_leaveFrom | with_reducible apply tame_waferMoved | split | dsimp only

theorem tame_suspectFound {s0 s : State} (h : Tame s0 s) (w : WaferName) (l : Loc) : Tame s0 (s.suspectFound w l) := by
  unfold State.suspectFound
  repeat' first | with_reducible assumption | with_reducible apply tame_toReturned | with_reducible apply tame_setWaferState | with_reducible apply tame_toReviewEndedAtOnce | split | dsimp only

theorem tame_endRobot {s0 s : State} (h : Tame s0 s) : Tame s0 (s.endRobot) := by
  unfold State.endRobot
  repeat' first | with_reducible assumption | with_reducible apply tame_setHandling | exact rfl | split | dsimp only

theorem tame_robotDone {s0 s : State} (h : Tame s0 s) (k : RobotKind) : Tame s0 (s.robotDone k) := by
  unfold State.robotDone
  repeat' first | with_reducible assumption | with_reducible apply tame_moveDone | split | dsimp only

theorem tame_recordUncertain {s0 s : State} (h : Tame s0 s) (k : RobotKind) : Tame s0 (s.recordUncertain k) := by
  unfold State.recordUncertain
  repeat' first | with_reducible assumption | with_reducible apply tame_setHandling | exact rfl | split | dsimp only

theorem tame_markSuspect {s0 s : State} (h : Tame s0 s) (k : RobotKind) : Tame s0 (s.markSuspect k) := by
  unfold State.markSuspect
  repeat' first | with_reducible assumption | with_reducible apply tame_modWafer | with_reducible apply tame_endQueued | exact rfl | split | dsimp only

theorem tame_inventoryFails {s0 s : State} (h : Tame s0 s) : Tame s0 (s.inventoryFails) := by
  unfold State.inventoryFails
  repeat' first | with_reducible assumption | with_reducible apply tame_enterHalted | with_reducible apply tame_halt | split | dsimp only

theorem tame_robotFault {s0 s : State} (h : Tame s0 s) (k : RobotKind) (code : HandlerFaultCode) : Tame s0 (s.robotFault k code) := by
  unfold State.robotFault
  repeat' first | with_reducible assumption | with_reducible apply tame_inventoryFails | with_reducible apply tame_markSuspect | with_reducible apply tame_recordUncertain | with_reducible apply tame_halt | split | dsimp only

theorem tame_robotTimesOut {s0 s : State} (h : Tame s0 s) (k : RobotKind) : Tame s0 (s.robotTimesOut k) := by
  unfold State.robotTimesOut
  repeat' first | with_reducible assumption | with_reducible apply tame_inventoryFails | with_reducible apply tame_recordUncertain | with_reducible apply tame_halt | split | dsimp only

theorem tame_settleUncertain {s0 s : State} (h : Tame s0 s) (x : Sensed) : Tame s0 (s.settleUncertain x) := by
  unfold State.settleUncertain
  repeat' first | with_reducible assumption | with_reducible apply tame_setHandling | with_reducible apply tame_moveDone | with_reducible apply tame_moveTable | with_reducible apply tame_leaveFrom | with_reducible apply tame_suspectFound | exact rfl | split | dsimp only

theorem tame_clearOrphan {s0 s : State} (h : Tame s0 s) (x : Sensed) (l : Loc) : Tame s0 (s.clearOrphan x l) := by
  unfold State.clearOrphan
  repeat' first | with_reducible assumption | with_reducible apply tame_setAt | with_reducible apply tame_leaveFrom | split | dsimp only

theorem tame_compareAt {s0 s : State} (h : Tame s0 s) (x : Sensed) (l : Loc) : Tame s0 (s.compareAt x l) := by
  unfold State.compareAt
  repeat' first | with_reducible assumption | with_reducible apply tame_setAt | split | dsimp only

theorem tame_findSuspect {s0 s : State} (h : Tame s0 s) (x : Sensed) (l : Loc) : Tame s0 (s.findSuspect x l) := by
  unfold State.findSuspect
  repeat' first | with_reducible assumption | with_reducible apply tame_suspectFound | split | dsimp only

theorem tame_inventoryAgrees {s0 s : State} (h : Tame s0 s) : Tame s0 (s.inventoryAgrees) := by
  unfold State.inventoryAgrees
  repeat' first | with_reducible assumption | with_reducible apply tame_hold | with_reducible apply tame_setHandling | with_reducible apply tame_requestHome | exact rfl | split | dsimp only

theorem tame_inventoryDone {s0 s : State} (h : Tame s0 s) (x : Sensed) : Tame s0 (s.inventoryDone x) := by
  unfold State.inventoryDone
  repeat' first | with_reducible assumption | with_reducible apply tame_settleUncertain | with_reducible apply tame_clearOrphan | with_reducible apply tame_compareAt | with_reducible apply tame_findSuspect | with_reducible apply tame_inventoryAgrees | with_reducible apply tame_enterHalted | (with_reducible refine foldl_tame (fun _ _ _ _ => ?_) _ ?_) | split | dsimp only

theorem tame_endPrealign {s0 s : State} (h : Tame s0 s) : Tame s0 (s.endPrealign) := by
  unfold State.endPrealign
  repeat' first | with_reducible assumption | with_reducible apply tame_setHandling | exact rfl | split | dsimp only

theorem tame_setMapper {s0 s : State} (h : Tame s0 s) (p : Slot) (o : Option MapOrder) : Tame s0 (s.setMapper p o) := by
  unfold State.setMapper
  repeat' first | with_reducible assumption | with_reducible apply tame_setHandling | exact rfl | split | dsimp only

theorem tame_prealignDone {s0 s : State} (h : Tame s0 s) : Tame s0 (s.prealignDone) := by
  unfold State.prealignDone
  repeat' first | with_reducible assumption | with_reducible apply tame_setWaferState | split | dsimp only

theorem tame_mappedAway {s0 s : State} (h : Tame s0 s) (w : WaferName) (st : WaferState) : Tame s0 (s.mappedAway w st) := by
  unfold State.mappedAway
  repeat' first | with_reducible assumption | with_reducible apply tame_setWaferState | with_reducible apply tame_writeFinal | with_reducible apply tame_setAt | with_reducible apply tame_endQueued | split | dsimp only

theorem tame_applyMap {s0 s : State} (h : Tame s0 s) (w : WaferName) (a : MapAnswer) : Tame s0 (s.applyMap w a) := by
  unfold State.applyMap
  repeat' first | with_reducible assumption | with_reducible apply tame_modWafer | with_reducible apply tame_present | with_reducible apply tame_mappedAway | exact rfl | split | dsimp only

theorem tame_mapAnswered {s0 s : State} (h : Tame s0 s) (p : Slot) (results : List MapAnswer) : Tame s0 (s.mapAnswered p results) := by
  unfold State.mapAnswered
  repeat' first | with_reducible assumption | with_reducible apply tame_setHandling | with_reducible apply tame_applyMap | (with_reducible refine foldl_tame (fun _ _ _ _ => ?_) _ ?_) | exact rfl | split | dsimp only

theorem tame_mapFails {s0 s : State} (h : Tame s0 s) (p : Slot) : Tame s0 (s.mapFails p) := by
  unfold State.mapFails
  repeat' first | with_reducible assumption | with_reducible apply tame_setMapRequest | with_reducible apply tame_halt | split | dsimp only

theorem tame_orphan {s0 s : State} (h : Tame s0 s) (w : WaferName) : Tame s0 (s.orphan w) := by
  unfold State.orphan
  repeat' first | with_reducible assumption | with_reducible apply tame_handDuration | with_reducible apply tame_handMapFigures | with_reducible apply tame_setWaferState | with_reducible apply tame_writeFinal | split | dsimp only

theorem tame_dropMap {s0 s : State} (h : Tame s0 s) (p : Slot) : Tame s0 (s.dropMap p) := by
  unfold State.dropMap
  repeat' first | with_reducible assumption | with_reducible apply tame_setHandling | exact rfl | split | dsimp only

theorem tame_unmap {s0 s : State} (h : Tame s0 s) (p : Slot) : Tame s0 (s.unmap p) := by
  unfold State.unmap
  repeat' first | with_reducible assumption | with_reducible apply tame_modLot | exact rfl | split | dsimp only

theorem tame_carrierLost {s0 s : State} (h : Tame s0 s) (p : Slot) : Tame s0 (s.carrierLost p) := by
  unfold State.carrierLost
  repeat' first | with_reducible assumption | with_reducible apply tame_orphan | with_reducible apply tame_dropMap | with_reducible apply tame_unmap | with_reducible apply tame_abortLot | with_reducible apply tame_setAt | with_reducible apply tame_halt | (with_reducible refine foldl_tame (fun _ _ _ _ => ?_) _ ?_) | split | dsimp only | with_reducible apply tame_cell

theorem tame_deliver {s0 s : State} (h : Tame s0 s) (m : Msg) : Tame s0 (s.deliver m) :=
  h.trans (quiet_deliver (.refl s) m).tame

theorem tame_drain {s0 s : State} (h : Tame s0 s) : Tame s0 s.drain := h.trans (quiet_drain (.refl s)).tame

theorem tame_reportFault {s0 s : State} (h : Tame s0 s) : Tame s0 (s.reportFault) := by
  unfold State.reportFault
  repeat' first | with_reducible assumption | with_reducible apply tame_raise | with_reducible apply tame_motionFault | with_reducible apply tame_halt | with_reducible apply tame_withdrawFocus | with_reducible apply tame_cutReview | split | dsimp only

theorem tame_drainOthers {s0 : State} : ∀ (n : Nat) {s : State}, Tame s0 s → Tame s0 (State.drainOthers n s)
  | 0, _, h => h
  | n + 1, s, h => by
    unfold State.drainOthers
    split
    · exact h
    · exact tame_drainOthers n (tame_deliver (tame_setMsgs h _) _)

theorem tame_refuseFirst {s0 s : State} (h : Tame s0 s) (ms : List Msg) : Tame s0 (s.refuseFirst ms) :=
  tame_drainOthers _ (foldl_tame (fun _ _ m g => tame_deliver g m) ms h)

theorem tame_reportAfterRefusal {s0 s : State} (h : Tame s0 s) (focus : Bool) : Tame s0 (s.reportAfterRefusal focus) := by
  unfold State.reportAfterRefusal
  repeat' first | with_reducible assumption | with_reducible apply tame_reportFault | with_reducible apply tame_withdrawFocus | split | dsimp only

theorem tame_motionFault {s0 s : State} (h : Tame s0 s) (g : MotionGroup) : Tame s0 (s.motionFault g) := by
  unfold State.motionFault
  repeat' first | with_reducible assumption | with_reducible apply tame_faultGroup | with_reducible apply tame_reportFault | with_reducible apply tame_setGroup | with_reducible apply tame_refuseFirst | with_reducible apply tame_reportAfterRefusal | with_reducible apply tame_sayAll | split | dsimp only | with_reducible apply tame_free

theorem captureWrite_length (c : List CaptureLine) (k : Slot) (i w : Nat) (data : Word) (be : Enables) (hc : c.length ≤ 16) :
    (captureWrite c k i w data be).length ≤ 16 := by
  have hd : (dropLine c k i).length ≤ 16 := (List.length_filter_le _ _).trans hc
  simp only [captureWrite, List.length_append, List.length_singleton, captureLines]
  by_cases hl : (dropLine c k i).length < 16
  · simp only [hl, if_true]; omega
  · simp only [hl, if_false, List.length_drop]; omega

theorem tame_capture {s0 s : State} (h : Tame s0 s) (k : Slot) (i w : Nat) (data : Word) (be : Enables) :
    Tame s0 (s.capture k i w data be) :=
  h.trans ⟨rfl, rfl, rfl, id, id, id, captureWrite_length _ _ _ _ _ _, id⟩

theorem tame_addDirect {s0 s : State} (h : Tame s0 s) (e : Entry) : Tame s0 (s.addDirect e) := by
  unfold State.addDirect
  repeat' first | with_reducible assumption | with_reducible apply tame_setVersion | split | dsimp only | with_reducible apply tame_wb

theorem tame_refusePost {s0 s : State} (h : Tame s0 s) (e : Entry) (why : EntryReason) : Tame s0 (s.refusePost e why) := by
  unfold State.refusePost
  repeat' first | with_reducible assumption | with_reducible apply tame_leavePosting | with_reducible apply tame_addDirect | with_reducible apply tame_enterDirect | with_reducible apply tame_countUnattributed | with_reducible apply tame_countPost | split | dsimp only

theorem tame_storeRecord {s0 s : State} (h : Tame s0 s) (e : Entry) : Tame s0 (s.storeRecord e) :=
  h.trans ⟨rfl, rfl, rfl, id, fun p => (List.length_filter_le _ _).trans p, id, id, id⟩

theorem tame_takeIn {s0 s : State} (h : Tame s0 s) (e : Entry) : Tame s0 (s.takeIn e) := by
  unfold State.takeIn
  repeat' first | with_reducible assumption | with_reducible apply tame_countPost | with_reducible apply tame_storeRecord | with_reducible apply tame_inserted | with_reducible apply tame_finishEntry | split | dsimp only

theorem tame_checkPost {s0 s : State} (h : Tame s0 s) (e : Entry) : Tame s0 (s.checkPost e) := by
  unfold State.checkPost
  repeat' first | with_reducible assumption | with_reducible apply tame_refusePost | with_reducible apply tame_takeIn | split | dsimp only

theorem tame_checkIfFilled {s0 s : State} (h : Tame s0 s) (k : Slot) (i : Nat) : Tame s0 (s.checkIfFilled k i) := by
  unfold State.checkIfFilled
  repeat' first | with_reducible assumption | with_reducible apply tame_checkPost | split | dsimp only

theorem tame_dropRecord {s0 s : State} (h : Tame s0 s) (e : Entry) : Tame s0 (s.dropRecord e) := by
  unfold State.dropRecord
  repeat' first | with_reducible assumption | with_reducible apply tame_modRow | with_reducible apply tame_leaveStore | exact rfl | split | dsimp only

theorem tame_countCaptureMiss {s0 s : State} (h : Tame s0 s) : Tame s0 s.countCaptureMiss := h.same rfl rfl rfl rfl rfl rfl rfl rfl

theorem tame_dropEarlier {s0 s : State} (h : Tame s0 s) (k : Slot) (i : Nat) : Tame s0 (s.dropEarlier k i) := by
  unfold State.dropEarlier
  repeat' first | with_reducible assumption | with_reducible apply tame_dropRecord | with_reducible apply tame_unlockClass | split | dsimp only

theorem tame_listPost {s0 s : State} (h : Tame s0 s) (hp : s.revisit.posting.length < 16) (k : Slot) (i : Nat) (version : Word) :
    Tame s0 (s.listPost k i version) := by
  refine h.trans ⟨rfl, rfl, rfl, id, fun _ => ?_, id, fun p => (List.length_filter_le _ _).trans p, id⟩
  simp only [State.listPost, State.setVersion, State.setRevisit, List.length_append, List.length_singleton]
  omega

theorem State.dropEarlier_posting (s : State) (k : Slot) (i : Nat) : (s.dropEarlier k i).revisit.posting = s.revisit.posting := by
  unfold State.dropEarlier State.dropRecord State.unlockClass
  dsimp only
  repeat' split
  all_goals rfl

theorem tame_takePost {s0 s : State} (h : Tame s0 s) (hp : s.revisit.posting.length < 16) (k : Slot) (i : Nat) (version : Word) :
    Tame s0 (s.takePost k i version) := by
  have hl := tame_listPost (tame_dropEarlier h k i) (by rw [State.dropEarlier_posting]; exact hp) k i version
  unfold State.takePost
  dsimp only
  split
  · exact tame_checkIfFilled hl _ _
  · refine tame_askAll (tame_countCaptureMiss hl) fun q hq => ?_
    obtain ⟨_, _, rfl⟩ := List.mem_map.mp hq
    rfl

theorem tame_fillWord {s0 s : State} (h : Tame s0 s) (k : Slot) (i w : Nat) (v : Word) : Tame s0 (s.fillWord k i w v) :=
  tame_checkIfFilled (tame_setRevisit h (by simp)) _ _

theorem tame_countIgnored {s0 s : State} (h : Tame s0 s) (k : Slot) (i : Nat) : Tame s0 (s.countIgnored k i) := by
  unfold State.countIgnored
  repeat' first | with_reducible assumption | with_reducible apply tame_modEntry | exact rfl | split | dsimp only

theorem tame_withdraw {s0 s : State} (h : Tame s0 s) (k : Slot) (i : Nat) : Tame s0 (s.withdraw k i) := by
  unfold State.withdraw
  repeat' first | with_reducible assumption | with_reducible apply tame_finishEntry | with_reducible apply tame_countIgnored | split | dsimp only

theorem tame_countChanged {s0 s : State} (h : Tame s0 s) (k : Slot) (i : Nat) : Tame s0 (s.countChanged k i) := by
  unfold State.countChanged
  repeat' first | with_reducible assumption | with_reducible apply tame_modLot | exact rfl | split | dsimp only

theorem tame_countClass {s0 s : State} (h : Tame s0 s) (e : Entry) (c : Byte) : Tame s0 (s.countClass e c) := by
  unfold State.countClass
  repeat' first | with_reducible assumption | with_reducible apply tame_modRow | with_reducible apply tame_modEntry | exact rfl | split | dsimp only

theorem tame_beginAttach {s0 s : State} (h : Tame s0 s) : Tame s0 s.beginAttach := by
  unfold State.beginAttach
  refine tame_askAll (tame_setPath (tame_setAnchor h ?_) ?_) fun q hq => ?_
  · rfl
  · rfl
  · obtain ⟨_, _, rfl⟩ := List.mem_map.mp hq
    rfl

theorem tame_attachFails {s0 s : State} (h : Tame s0 s) (why : AttachReason) : Tame s0 (s.attachFails why) := by
  unfold State.attachFails
  repeat' first | with_reducible assumption | with_reducible apply tame_setAnchor | with_reducible apply tame_detached | with_reducible apply tame_setPath | with_reducible apply tame_raise | exact rfl | split | dsimp only

theorem tame_holdHeader {s0 s : State} (h : Tame s0 s) (k : Slot) : Tame s0 (s.holdHeader k) := by
  unfold State.holdHeader
  repeat' first | with_reducible assumption | with_reducible apply tame_setVersion | with_reducible apply tame_writeWhole | split | dsimp only

theorem tame_attachSucceeds {s0 s : State} (h : Tame s0 s) (ws : Windows) : Tame s0 (s.attachSucceeds ws) := by
  unfold State.attachSucceeds
  dsimp only
  refine tame_raise (tame_setHandling (tame_sendInventory (tame_askAll (tame_holdHeader (tame_holdHeader ?_ _) _) ?_)) _) _
  · refine tame_lots (tame_setPath (tame_setAnchor h ?_) ?_) _ <;> rfl
  · intro q hq; obtain ⟨_, _, rfl⟩ := List.mem_map.mp hq; rfl

theorem tame_checkLayout {s0 s : State} (h : Tame s0 s) : Tame s0 (s.checkLayout) := by
  unfold State.checkLayout
  repeat' first | with_reducible assumption | with_reducible apply tame_attachFails | with_reducible apply tame_attachSucceeds | split | dsimp only

theorem tame_layoutWord {s0 s : State} (h : Tame s0 s) (v : Word) : Tame s0 (s.layoutWord v) := by
  unfold State.layoutWord
  repeat' first | with_reducible assumption | with_reducible apply tame_setPath | with_reducible apply tame_checkLayout | exact rfl | split | dsimp only

theorem tame_refuseDetach {s0 s : State} (h : Tame s0 s) : Tame s0 (s.refuseDetach) := by
  unfold State.refuseDetach
  repeat' first | with_reducible assumption | with_reducible apply tame_setAnchor | with_reducible apply tame_raise | exact rfl | split | dsimp only

theorem tame_keepForDetach {s0 s : State} (h : Tame s0 s) : Tame s0 (s.keepForDetach) := by
  unfold State.keepForDetach
  repeat' first | with_reducible assumption | with_reducible apply tame_refusePost | with_reducible apply tame_keep | (with_reducible refine foldl_tame (fun _ _ _ _ => ?_) _ ?_) | split | dsimp only

theorem MPort.queued_dropReads (m : MPort) : m.dropReads.queued = m.queued := by
  simp [MPort.queued, MPort.dropReads, List.filter_filter]

theorem tame_beginDetach {s0 s : State} (h : Tame s0 s) : Tame s0 s.beginDetach := by
  have hd : Tame s0 s.keepForDetach.detachMotion := tame_detachMotion (tame_keepForDetach h)
  unfold State.beginDetach
  dsimp only
  generalize s.keepForDetach.detachMotion = u at hd ⊢
  exact hd.trans ⟨rfl, rfl, rfl, id, fun _ => Nat.zero_le _, fun _ => Nat.zero_le _, fun _ => Nat.zero_le _,
    fun p => (MPort.queued_dropReads _).trans_le p⟩

theorem tame_detached {s0 s : State} (h : Tame s0 s) : Tame s0 (s.detached) := by
  unfold State.detached
  repeat' first | with_reducible assumption | with_reducible apply tame_setAnchor | with_reducible apply tame_setPath | exact rfl | split | dsimp only | with_reducible apply tame_wb

theorem tame_setSlot {s0 s : State} (h : Tame s0 s) (p : PathSlot) : Tame s0 (s.setSlot p) := by
  unfold State.setSlot
  repeat' first | with_reducible assumption | with_reducible apply tame_setPath | exact rfl | split | dsimp only

theorem tame_pass {s0 s : State} (h : Tame s0 s) (a : PAccess) : Tame s0 (s.pass a) := by
  unfold State.pass
  repeat' first | with_reducible assumption | with_reducible apply tame_setSlot | split | dsimp only

theorem tame_mask {s0 s : State} (h : Tame s0 s) (a : PAccess) : Tame s0 (s.mask a) := by
  unfold State.mask
  repeat' first | with_reducible assumption | with_reducible apply tame_countMasked | with_reducible apply tame_setSlot | split | dsimp only

theorem tame_hold {s0 s : State} (h : Tame s0 s) (a : PAccess) (why : HoldReason) : Tame s0 (s.hold a why) := by
  unfold State.hold
  repeat' first | with_reducible assumption | with_reducible apply tame_setSlot | split | dsimp only

theorem tame_takeStart {s0 s : State} (h : Tame s0 s) (k : Slot) : Tame s0 (s.takeStart k) := by
  unfold State.takeStart
  repeat' first | with_reducible assumption | with_reducible apply tame_modLot | with_reducible apply tame_setRevisit | with_reducible apply tame_setStartLock | with_reducible apply tame_beginFetch | exact rfl | exact le_rfl | split | dsimp only

theorem tame_startBusy {s0 s : State} (h : Tame s0 s) (k : Slot) : Tame s0 (s.startBusy k) := by
  unfold State.startBusy
  repeat' first | with_reducible assumption | with_reducible apply tame_modLot | exact rfl | split | dsimp only

theorem tame_ignoreLotRequest {s0 s : State} (h : Tame s0 s) (k : Slot) : Tame s0 (s.ignoreLotRequest k) := by
  unfold State.ignoreLotRequest
  repeat' first | with_reducible assumption | with_reducible apply tame_modLot | exact rfl | split | dsimp only

theorem tame_startRequest {s0 s : State} (h : Tame s0 s) (k : Slot) : Tame s0 (s.startRequest k) := by
  unfold State.startRequest
  repeat' first | with_reducible assumption | with_reducible apply tame_takeStart | with_reducible apply tame_startBusy | split | dsimp only

theorem tame_abortRequest {s0 s : State} (h : Tame s0 s) (k : Slot) : Tame s0 (s.abortRequest k) := by
  unfold State.abortRequest
  repeat' first | with_reducible assumption | with_reducible apply tame_setLotState | with_reducible apply tame_setMapRequest | with_reducible apply tame_abortLot | with_reducible apply tame_settle | with_reducible apply tame_ignoreLotRequest | split | dsimp only

theorem tame_releaseRequest {s0 s : State} (h : Tame s0 s) (k : Slot) : Tame s0 (s.releaseRequest k) := by
  unfold State.releaseRequest
  repeat' first | with_reducible assumption | with_reducible apply tame_releaseLot | with_reducible apply tame_settle | with_reducible apply tame_ignoreLotRequest | split | dsimp only

theorem tame_lotRequest {s0 s : State} (h : Tame s0 s) (k : Slot) (v : Word) : Tame s0 (s.lotRequest k v) := by
  unfold State.lotRequest
  repeat' first | with_reducible assumption | with_reducible apply tame_startRequest | with_reducible apply tame_abortRequest | with_reducible apply tame_releaseRequest | with_reducible apply tame_ignoreLotRequest | split | dsimp only

theorem tame_resumeRequest {s0 s : State} (h : Tame s0 s) : Tame s0 (s.resumeRequest) := by
  unfold State.resumeRequest
  repeat' first | with_reducible assumption | with_reducible apply tame_sendInventory | split | dsimp only

theorem tame_inventoryRequest {s0 s : State} (h : Tame s0 s) : Tame s0 (s.inventoryRequest) := by
  unfold State.inventoryRequest
  repeat' first | with_reducible assumption | with_reducible apply tame_sendInventory | split | dsimp only

theorem tame_handlingRequest {s0 s : State} (h : Tame s0 s) (v : Word) : Tame s0 (s.handlingRequest v) := by
  unfold State.handlingRequest
  repeat' first | with_reducible assumption | with_reducible apply tame_resumeRequest | with_reducible apply tame_inventoryRequest | split | dsimp only

theorem tame_motionRequest {s0 s : State} (h : Tame s0 s) (v : Word) : Tame s0 (s.motionRequest v) := by
  unfold State.motionRequest
  repeat' first | with_reducible assumption | with_reducible apply tame_requestHome | split | dsimp only

theorem tame_postingClose {s0 s : State} (h : Tame s0 s) (w : WaferName) : Tame s0 (s.postingClose w) := by
  unfold State.postingClose
  repeat' first | with_reducible assumption | with_reducible apply tame_modWafer | with_reducible apply tame_normalEnd | with_reducible apply tame_settle | exact rfl | split | dsimp only

theorem tame_rowCloseRequest {s0 s : State} (h : Tame s0 s) (a : PAccess) (w : WaferName) : Tame s0 (s.rowCloseRequest a w) := by
  unfold State.rowCloseRequest
  repeat' first | with_reducible assumption | with_reducible apply tame_pass | with_reducible apply tame_closeRow | with_reducible apply tame_mask | split | dsimp only

theorem tame_judgeAnchor {s0 s : State} (h : Tame s0 s) (a : PAccess) (w : Nat) : Tame s0 (s.judgeAnchor a w) := by
  unfold State.judgeAnchor
  repeat' first | with_reducible assumption | with_reducible apply tame_mask | with_reducible apply tame_detached | with_reducible apply tame_beginAttach | with_reducible apply tame_pass | with_reducible apply tame_refuseDetach | with_reducible apply tame_beginDetach | with_reducible apply tame_handlingRequest | with_reducible apply tame_motionRequest | split | dsimp only | with_reducible apply tame_notice

theorem tame_judgeHeader {s0 s : State} (h : Tame s0 s) (a : PAccess) (k : Slot) (w : Nat) : Tame s0 (s.judgeHeader a k w) := by
  unfold State.judgeHeader
  repeat' first | with_reducible assumption | with_reducible apply tame_mask | with_reducible apply tame_lotRequest | with_reducible apply tame_pass | split | dsimp only

theorem tame_judgeWaferEntry {s0 s : State} (h : Tame s0 s) (a : PAccess) (k : Slot) (n w : Nat) : Tame s0 (s.judgeWaferEntry a k n w) := by
  unfold State.judgeWaferEntry
  repeat' first | with_reducible assumption | with_reducible apply tame_mask | with_reducible apply tame_pass | with_reducible apply tame_postingClose | with_reducible apply tame_rowCloseRequest | split | dsimp only

theorem tame_passCaptured {s0 s : State} (h : Tame s0 s) (a : PAccess) (k : Slot) (i w : Nat) : Tame s0 (s.passCaptured a k i w) := by
  unfold State.passCaptured
  repeat' first | with_reducible assumption | with_reducible apply tame_capture | with_reducible apply tame_pass | split | dsimp only

theorem tame_passPost {s0 s : State} (h : Tame s0 s) (hp : s.revisit.posting.length < 16) (a : PAccess) (k : Slot) (i : Nat)
    (version : Word) : Tame s0 (s.passPost a k i version) :=
  tame_pass (tame_settle (tame_takePost (tame_capture h _ _ _ _ _) hp _ _ _)) _

theorem tame_judgePost {s0 s : State} (h : Tame s0 s) (a : PAccess) (k : Slot) (i : Nat) (known : Option Word) :
    Tame s0 (s.judgePost a k i known) := by
  have hl : Tame s0 ((s.countIgnored k i).passCaptured a k i 6) := tame_passCaptured (tame_countIgnored h _ _) _ _ _ _
  have hr : Tame s0 (if postingSize ≤ s.revisit.posting.length then s.hold a .postRoom
      else match (known.filter fun _ => (s.storeEntry k i).isNone).or (s.oldVersion k i) with
        | some v => s.passPost a k i (v + 1)
        | none => (s.ask (.postVersion k i)).hold a .postVersion) := by
    split
    · exact tame_hold h _ _
    · rename_i hp
      split
      · exact tame_passPost h (by simpa [postingSize] using hp) _ _ _ _
      · exact tame_hold (tame_ask h rfl) _ _
  unfold State.judgePost
  split
  · exact hl
  · exact hr

theorem tame_judgeControl {s0 s : State} (h : Tame s0 s) (a : PAccess) (k : Slot) (i : Nat) (known : Option Word) : Tame s0 (s.judgeControl a k i known) := by
  unfold State.judgeControl
  repeat' first | with_reducible assumption | with_reducible apply tame_mask | with_reducible apply tame_judgePost | with_reducible apply tame_withdraw | with_reducible apply tame_passCaptured | with_reducible apply tame_pass | split | dsimp only

theorem tame_lateClass {s0 s : State} (h : Tame s0 s) (a : PAccess) (k : Slot) (i : Nat) : Tame s0 (s.lateClass a k i) := by
  unfold State.lateClass
  repeat' first | with_reducible assumption | with_reducible apply tame_countLate | split | dsimp only

theorem tame_judgeClass {s0 s : State} (h : Tame s0 s) (a : PAccess) (k : Slot) (i : Nat) : Tame s0 (s.judgeClass a k i) := by
  unfold State.judgeClass
  repeat' first | with_reducible assumption | with_reducible apply tame_lateClass | with_reducible apply tame_mask | with_reducible apply tame_pass | with_reducible apply tame_passCaptured | with_reducible apply tame_hold | with_reducible apply tame_countClass | split | dsimp only

theorem tame_judgeDefect {s0 s : State} (h : Tame s0 s) (a : PAccess) (k : Slot) (i w : Nat) (known : Option Word) : Tame s0 (s.judgeDefect a k i w known) := by
  unfold State.judgeDefect
  repeat' first | with_reducible assumption | with_reducible apply tame_judgeClass | with_reducible apply tame_mask | with_reducible apply tame_judgeControl | with_reducible apply tame_countChanged | with_reducible apply tame_passCaptured | with_reducible apply tame_pass | split | dsimp only

theorem tame_judgeClassTable {s0 s : State} (h : Tame s0 s) (a : PAccess) (w : Nat) : Tame s0 (s.judgeClassTable a w) := by
  unfold State.judgeClassTable
  repeat' first | with_reducible assumption | with_reducible apply tame_capture | with_reducible apply tame_pass | split | dsimp only | with_reducible apply tame_classTable

theorem tame_judgeWrite {s0 s : State} (h : Tame s0 s) (a : PAccess) (known : Option Word) : Tame s0 (s.judgeWrite a known) := by
  unfold State.judgeWrite
  repeat' first | with_reducible assumption | with_reducible apply tame_pass | with_reducible apply tame_judgeAnchor | with_reducible apply tame_judgeHeader | with_reducible apply tame_judgeWaferEntry | with_reducible apply tame_judgeDefect | with_reducible apply tame_mask | with_reducible apply tame_judgeClassTable | split | dsimp only

theorem tame_judgeRead {s0 s : State} (h : Tame s0 s) (a : PAccess) : Tame s0 (s.judgeRead a) := by
  unfold State.judgeRead
  repeat' first | with_reducible assumption | with_reducible apply tame_setPath | with_reducible apply tame_pass | exact rfl | split | dsimp only

theorem tame_judge {s0 s : State} (h : Tame s0 s) (a : PAccess) (known : Option Word) : Tame s0 (s.judge a known) := by
  unfold State.judge
  repeat' first | with_reducible assumption | with_reducible apply tame_judgeWrite | with_reducible apply tame_judgeRead | split | dsimp only

theorem tame_take {s0 s : State} (h : Tame s0 s) (a : PAccess) : Tame s0 (s.take a) := by
  unfold State.take
  repeat' first | with_reducible assumption | with_reducible apply tame_judge | with_reducible apply tame_hold | split | dsimp only

theorem tame_takeOfferedFor {s0 : State} : ∀ (n : Nat) {s : State}, Tame s0 s → Tame s0 (State.takeOfferedFor n s)
  | 0, _, h => h
  | n + 1, s, h => by
    unfold State.takeOfferedFor
    split
    · refine tame_takeOfferedFor n (tame_take (tame_setPath h ?_) _)
      rfl
    · exact h

theorem tame_takeOffered {s0 s : State} (h : Tame s0 s) : Tame s0 s.takeOffered := tame_takeOfferedFor _ h

theorem tame_present {s0 s : State} (h : Tame s0 s) (a : PAccess) : Tame s0 (s.present a) := by
  unfold State.present
  repeat' first | with_reducible assumption | with_reducible apply tame_take | with_reducible apply tame_setPath | exact rfl | split | dsimp only

theorem tame_releaseHeld {s0 s : State} (h : Tame s0 s) : Tame s0 (s.releaseHeld) := by
  unfold State.releaseHeld
  repeat' first | with_reducible assumption | with_reducible apply tame_setSlot | with_reducible apply tame_take | with_reducible apply tame_takeOffered | split | dsimp only

theorem tame_serveLayout {s0 s : State} (h : Tame s0 s) : Tame s0 (s.serveLayout) := by
  unfold State.serveLayout
  repeat' first | with_reducible assumption | with_reducible apply tame_endService | with_reducible apply tame_layoutWord | split | dsimp only

theorem tame_serveStartFetch {s0 s : State} (h : Tame s0 s) : Tame s0 (s.serveStartFetch) := by
  unfold State.serveStartFetch
  repeat' first | with_reducible assumption | with_reducible apply tame_endService | with_reducible apply tame_modLot | with_reducible apply tame_fetchDone | with_reducible apply tame_settle | exact rfl | split | dsimp only

theorem tame_servePostVersion {s0 s : State} (h : Tame s0 s) : Tame s0 (s.servePostVersion) := by
  unfold State.servePostVersion
  repeat' first | with_reducible assumption | with_reducible apply tame_endService | with_reducible apply tame_setSlot | with_reducible apply tame_judge | with_reducible apply tame_takeOffered | split | dsimp only

theorem tame_serveFill {s0 s : State} (h : Tame s0 s) : Tame s0 (s.serveFill) := by
  unfold State.serveFill
  repeat' first | with_reducible assumption | with_reducible apply tame_endService | with_reducible apply tame_fillWord | with_reducible apply tame_settle | split | dsimp only

theorem tame_serveClassTable {s0 s : State} (h : Tame s0 s) : Tame s0 (s.serveClassTable) := by
  unfold State.serveClassTable
  repeat' first | with_reducible assumption | with_reducible apply tame_endService | split | dsimp only | with_reducible apply tame_classTable

theorem tame_recordWrittenBack {s0 s : State} (h : Tame s0 s) (id : RecId) : Tame s0 (s.recordWrittenBack id) := by
  unfold State.recordWrittenBack
  repeat' first | with_reducible assumption | with_reducible apply tame_leaveStore | split | dsimp only

theorem tame_opensInterlock {s0 s : State} (h : Tame s0 s) : Tame s0 (s.opensInterlock) := by
  unfold State.opensInterlock
  repeat' first | with_reducible assumption | with_reducible apply tame_setInterlock | with_reducible apply tame_setHandling | with_reducible apply tame_hold | exact rfl | split | dsimp only

theorem tame_closesInterlock {s0 s : State} (h : Tame s0 s) : Tame s0 (s.closesInterlock) := by
  unfold State.closesInterlock
  repeat' first | with_reducible assumption | with_reducible apply tame_setInterlock | with_reducible apply tame_hold | with_reducible apply tame_setHandling | with_reducible apply tame_settle | exact rfl | split | dsimp only

theorem tame_robotReply {s0 s : State} (h : Tame s0 s) (tag : Tag) : Tame s0 (s.robotReply tag) := by
  unfold State.robotReply
  repeat' first | with_reducible assumption | with_reducible apply tame_countStale | with_reducible apply tame_endRobot | with_reducible apply tame_robotDone | with_reducible apply tame_settle | split | dsimp only

theorem tame_inventoryReply {s0 s : State} (h : Tame s0 s) (tag : Tag) (x : Sensed) : Tame s0 (s.inventoryReply tag x) := by
  unfold State.inventoryReply
  repeat' first | with_reducible assumption | with_reducible apply tame_endRobot | with_reducible apply tame_inventoryDone | with_reducible apply tame_settle | with_reducible apply tame_countStale | split | dsimp only

theorem tame_prealignReply {s0 s : State} (h : Tame s0 s) (tag : Tag) : Tame s0 (s.prealignReply tag) := by
  unfold State.prealignReply
  repeat' first | with_reducible assumption | with_reducible apply tame_endPrealign | with_reducible apply tame_prealignDone | with_reducible apply tame_settle | with_reducible apply tame_countStale | split | dsimp only

theorem tame_mapReply {s0 s : State} (h : Tame s0 s) (p : Slot) (tag : Tag) (results : List MapAnswer) : Tame s0 (s.mapReply p tag results) := by
  unfold State.mapReply
  repeat' first | with_reducible assumption | with_reducible apply tame_setMapper | with_reducible apply tame_mapAnswered | with_reducible apply tame_settle | with_reducible apply tame_countStale | split | dsimp only

theorem tame_faultReply {s0 s : State} (h : Tame s0 s) (u : HandlerUnit) (tag : Tag) (code : HandlerFaultCode) : Tame s0 (s.faultReply u tag code) := by
  unfold State.faultReply
  repeat' first | with_reducible assumption | with_reducible apply tame_endRobot | with_reducible apply tame_robotFault | with_reducible apply tame_settle | with_reducible apply tame_countStale | with_reducible apply tame_endPrealign | with_reducible apply tame_halt | with_reducible apply tame_setMapper | with_reducible apply tame_mapFails | split | dsimp only

theorem tame_handlerTimesOut {s0 s : State} (h : Tame s0 s) (u : HandlerUnit) : Tame s0 (s.handlerTimesOut u) := by
  unfold State.handlerTimesOut
  repeat' first | with_reducible assumption | with_reducible apply tame_whenDue | with_reducible apply tame_endRobot | with_reducible apply tame_robotTimesOut | with_reducible apply tame_settle | with_reducible apply tame_endPrealign | with_reducible apply tame_halt | with_reducible apply tame_setMapper | with_reducible apply tame_mapFails | split | dsimp only

theorem tame_arrivedReply {s0 s : State} (h : Tame s0 s) (tag : Tag) : Tame s0 (s.arrivedReply tag) := by
  unfold State.arrivedReply
  repeat' first | with_reducible assumption | with_reducible apply tame_arrive | with_reducible apply tame_settle | with_reducible apply tame_countStale | split | dsimp only

theorem tame_homedReply {s0 s : State} (h : Tame s0 s) (tag : Tag) : Tame s0 (s.homedReply tag) := by
  unfold State.homedReply
  repeat' first | with_reducible assumption | with_reducible apply tame_homedGroup | with_reducible apply tame_settle | with_reducible apply tame_countStale | split | dsimp only

theorem tame_motionFaultReply {s0 s : State} (h : Tame s0 s) (tag : Tag) : Tame s0 (s.motionFaultReply tag) := by
  unfold State.motionFaultReply
  repeat' first | with_reducible assumption | with_reducible apply tame_motionFault | with_reducible apply tame_settle | with_reducible apply tame_countStale | split | dsimp only

theorem tame_motionTimesOut {s0 s : State} (h : Tame s0 s) (g : MotionGroup) : Tame s0 (s.motionTimesOut g) := by
  unfold State.motionTimesOut
  repeat' first | with_reducible assumption | with_reducible apply tame_whenDue | with_reducible apply tame_sendStop | with_reducible apply tame_motionFault | with_reducible apply tame_settle | split | dsimp only

theorem tame_settleTimesOut {s0 s : State} (h : Tame s0 s) (g : MotionGroup) : Tame s0 (s.settleTimesOut g) := by
  unfold State.settleTimesOut
  repeat' first | with_reducible assumption | with_reducible apply tame_whenDue | with_reducible apply tame_settleExpires | with_reducible apply tame_settle | split | dsimp only

theorem tame_grabFails {s0 s : State} (h : Tame s0 s) (k : GrabKind) (why : LastFailure) : Tame s0 (s.grabFails k why) := by
  unfold State.grabFails
  repeat' first | with_reducible assumption | with_reducible apply tame_alignGrabFailed | with_reducible apply tame_revisitGrabFailed | split | dsimp only

theorem tame_markReply {s0 s : State} (h : Tame s0 s) (tag : Tag) (found : Bool) (ox oy : Int) : Tame s0 (s.markReply tag found ox oy) := by
  unfold State.markReply
  repeat' first | with_reducible assumption | with_reducible apply tame_countStale | with_reducible apply tame_endGrab | with_reducible apply tame_alignResult | with_reducible apply tame_settle | split | dsimp only

theorem tame_grabDoneReply {s0 s : State} (h : Tame s0 s) (tag : Tag) (first frames : Word) : Tame s0 (s.grabDoneReply tag first frames) := by
  unfold State.grabDoneReply
  repeat' first | with_reducible assumption | with_reducible apply tame_countStale | with_reducible apply tame_endGrab | with_reducible apply tame_revisitGrabbed | with_reducible apply tame_settle | split | dsimp only

theorem tame_grabFaultReply {s0 s : State} (h : Tame s0 s) (tag : Tag) : Tame s0 (s.grabFaultReply tag) := by
  unfold State.grabFaultReply
  repeat' first | with_reducible assumption | with_reducible apply tame_endGrab | with_reducible apply tame_grabFails | with_reducible apply tame_ask | with_reducible apply tame_settle | with_reducible apply tame_countStale | exact rfl | split | dsimp only

theorem tame_grabTimesOut {s0 s : State} (h : Tame s0 s) : Tame s0 (s.grabTimesOut) := by
  unfold State.grabTimesOut
  repeat' first | with_reducible assumption | with_reducible apply tame_whenDue | with_reducible apply tame_endGrab | with_reducible apply tame_grabFails | with_reducible apply tame_ask | with_reducible apply tame_settle | exact rfl | split | dsimp only

theorem tame_silenceTimesOut {s0 s : State} (h : Tame s0 s) : Tame s0 (s.silenceTimesOut) := by
  unfold State.silenceTimesOut
  repeat' first | with_reducible assumption | with_reducible apply tame_whenDue | with_reducible apply tame_fallSilent | split | dsimp only

theorem tame_focusTimesOut {s0 s : State} (h : Tame s0 s) : Tame s0 (s.focusTimesOut) := by
  unfold State.focusTimesOut
  repeat' first | with_reducible assumption | with_reducible apply tame_whenDue | with_reducible apply tame_focusExpires | with_reducible apply tame_settle | split | dsimp only

theorem tame_postingWaitEnds {s0 s : State} (h : Tame s0 s) : Tame s0 (s.postingWaitEnds) := by
  unfold State.postingWaitEnds
  repeat' first | with_reducible assumption | with_reducible apply tame_whenDue | with_reducible apply tame_setRevisit | with_reducible apply tame_normalEnd | with_reducible apply tame_settle | exact rfl | exact le_rfl | split | dsimp only

end Sys2Proof.Machine
end

