-- ==== Sys2Proof/Laws/Memory.lean ====
section
/-! SUPPORT. Reads after writes in the memory behind the M-port, and its canonical form kept by every write. -/

namespace Sys2Proof.Machine

theorem Memory.readByte_of_above {m : Memory} {a b : Nat} (h : m.above a = true) (hb : b ≤ a) : m.readByte b = unlistedByte := by
  induction m with
  | nil => rfl
  | cons p rest ih =>
    obtain ⟨k, v⟩ := p
    simp only [Memory.above, Bool.and_eq_true, decide_eq_true_eq] at h
    simp only [Memory.readByte]
    rw [if_neg (by omega)]
    exact ih h.2

theorem Memory.above_writeByte {m : Memory} {k a : Nat} {b : Byte} (h : m.above k = true) (hk : k < a) :
    (m.writeByte a b).above k = true := by
  induction m with
  | nil => unfold Memory.writeByte; split <;> simp [Memory.above, hk]
  | cons p rest ih =>
    obtain ⟨j, v⟩ := p
    simp only [Memory.above, Bool.and_eq_true, decide_eq_true_eq] at h
    unfold Memory.writeByte
    split_ifs <;> simp [Memory.above, h.1, h.2, hk, ih h.2]

theorem Memory.above_trans {m : Memory} {k a : Nat} (h : m.above a = true) (hk : k ≤ a) : m.above k = true := by
  induction m with
  | nil => rfl
  | cons p rest ih =>
    obtain ⟨j, v⟩ := p
    simp only [Memory.above, Bool.and_eq_true, decide_eq_true_eq] at h ⊢
    exact ⟨by omega, ih h.2⟩

theorem Memory.wf_cons {k : Nat} {v : Byte} {rest : Memory} :
    Memory.wf ((k, v) :: rest) = true ↔ v ≠ unlistedByte ∧ rest.above k = true ∧ rest.wf = true := by
  simp [Memory.wf, and_assoc]

/-- A write of one byte keeps the canonical form. -/
theorem Memory.wf_writeByte {m : Memory} (h : m.wf = true) (a : Nat) (b : Byte) : (m.writeByte a b).wf = true := by
  induction m with
  | nil =>
    unfold Memory.writeByte
    split
    · rfl
    · rename_i hb; exact Memory.wf_cons.mpr ⟨hb, rfl, rfl⟩
  | cons p rest ih =>
    obtain ⟨k, v⟩ := p
    have hc := Memory.wf_cons.mp h
    unfold Memory.writeByte
    split_ifs with h1 h2 h3 h4
    · exact h
    · exact Memory.wf_cons.mpr ⟨h2, by simp [Memory.above, h1, Memory.above_trans hc.2.1 (Nat.le_of_lt h1)], h⟩
    · exact hc.2.2
    · exact Memory.wf_cons.mpr ⟨h4, h3 ▸ hc.2.1, hc.2.2⟩
    · exact Memory.wf_cons.mpr ⟨hc.1, Memory.above_writeByte hc.2.1 (by omega), ih hc.2.2⟩

/-- What a byte reads as after a write of one byte. -/
theorem Memory.readByte_writeByte {m : Memory} (h : m.wf = true) (a : Nat) (b : Byte) (c : Nat) :
    (m.writeByte a b).readByte c = if c = a then b else m.readByte c := by
  induction m with
  | nil =>
    unfold Memory.writeByte
    split_ifs with hb hc hc <;> simp_all [Memory.readByte]
    intro he; exact absurd he.symm hc
  | cons p rest ih =>
    obtain ⟨k, v⟩ := p
    have hc := Memory.wf_cons.mp h
    have ih := ih hc.2.2
    unfold Memory.writeByte
    rcases Nat.lt_trichotomy a k with h1 | h1 | h1
    · rw [if_pos h1]
      by_cases hb : b = unlistedByte
      · rw [if_pos hb]
        by_cases hca : c = a
        · subst hca
          rw [if_pos rfl, Memory.readByte, if_neg (by omega), Memory.readByte_of_above hc.2.1 (Nat.le_of_lt h1), hb]
        · rw [if_neg hca]
      · rw [if_neg hb]
        by_cases hca : c = a
        · simp [Memory.readByte, hca]
        · rw [if_neg hca, Memory.readByte, if_neg (Ne.symm hca)]
    · rw [if_neg (by omega), if_pos h1]
      subst h1
      by_cases hb : b = unlistedByte
      · rw [if_pos hb]
        by_cases hca : c = a
        · subst hca
          rw [if_pos rfl, Memory.readByte_of_above hc.2.1 le_rfl, hb]
        · rw [if_neg hca, Memory.readByte, if_neg (Ne.symm hca)]
      · rw [if_neg hb]
        by_cases hca : c = a
        · simp [Memory.readByte, hca]
        · rw [if_neg hca, Memory.readByte, if_neg (Ne.symm hca), Memory.readByte, if_neg (Ne.symm hca)]
    · rw [if_neg (by omega), if_neg (by omega)]
      simp only [Memory.readByte, ih]
      by_cases hca : c = a
      · subst hca
        rw [if_neg (by omega), if_pos rfl]
        rw [if_pos rfl]
      · simp only [if_neg hca]

theorem Memory.wf_writeLane {m : Memory} (h : m.wf = true) (w : Nat) (data : Word) (be : Enables) (k : Nat) :
    (m.writeLane w data be k).wf = true := by
  unfold Memory.writeLane
  split
  · exact Memory.wf_writeByte h _ _
  · exact h

/-- A word write keeps the canonical form, whatever its enables. -/
theorem Memory.wf_writeWord {m : Memory} (h : m.wf = true) (a : Nat) (data : Word) (be : Enables) :
    (m.writeWord a data be).wf = true :=
  Memory.wf_writeLane (Memory.wf_writeLane (Memory.wf_writeLane (Memory.wf_writeLane h _ _ _ _) _ _ _ _) _ _ _ _) _ _ _ _

theorem Memory.readByte_writeLane {m : Memory} (h : m.wf = true) (w : Nat) (data : Word) (be : Enables) (k c : Nat) :
    (m.writeLane w data be k).readByte c = if c = w + k ∧ be.getLsbD k = true then lane k data else m.readByte c := by
  unfold Memory.writeLane
  by_cases hk : be.getLsbD k = true
  · rw [if_pos hk, Memory.readByte_writeByte h]; simp [hk]
  · rw [if_neg hk]; simp [hk]

/-- A byte outside the word of a word write reads as before. -/
theorem Memory.readByte_writeWord_other {m : Memory} (h : m.wf = true) (a : Nat) (data : Word) (be : Enables) (c : Nat)
    (hc : ∀ k < 4, c ≠ wordAddress a + k) : (m.writeWord a data be).readByte c = m.readByte c := by
  have h0 := Memory.wf_writeLane h (wordAddress a) data be 0
  have h1 := Memory.wf_writeLane h0 (wordAddress a) data be 1
  have h2 := Memory.wf_writeLane h1 (wordAddress a) data be 2
  simp only [Memory.writeWord]
  rw [Memory.readByte_writeLane h2, Memory.readByte_writeLane h1, Memory.readByte_writeLane h0, Memory.readByte_writeLane h]
  have e0 := hc 0 (by omega)
  have e1 := hc 1 (by omega)
  have e2 := hc 2 (by omega)
  have e3 := hc 3 (by omega)
  simp [e1, e2, e3]
  intro he; exact absurd he e0

/-- A lane of a word write reads as the data's lane where its byte enable is set, as before where it is not. -/
theorem Memory.readByte_writeWord_lane {m : Memory} (h : m.wf = true) (a : Nat) (data : Word) (be : Enables) (k : Nat) (hk : k < 4) :
    (m.writeWord a data be).readByte (wordAddress a + k) =
      if be.getLsbD k = true then lane k data else m.readByte (wordAddress a + k) := by
  have h0 := Memory.wf_writeLane h (wordAddress a) data be 0
  have h1 := Memory.wf_writeLane h0 (wordAddress a) data be 1
  have h2 := Memory.wf_writeLane h1 (wordAddress a) data be 2
  simp only [Memory.writeWord]
  rw [Memory.readByte_writeLane h2, Memory.readByte_writeLane h1, Memory.readByte_writeLane h0, Memory.readByte_writeLane h]
  have : k = 0 ∨ k = 1 ∨ k = 2 ∨ k = 3 := by omega
  obtain rfl | rfl | rfl | rfl := this <;> simp

end Sys2Proof.Machine
end

