-- ==== Sys2Proof/Laws/Steps.lean ====
section
/-! SUPPORT. A whole step by its parts: what its end leaves of the command's effect, when an access is taken, and where the anchor's
words lie. -/

namespace Sys2Proof.Machine

/-! ## The end of a step -/

/-- The end of a step leaves the content the command's effect has made. -/
@[simp] theorem State.finish_content (s0 s : State) : (State.finish s0 s).content = s.content := by
  simp [State.content, State.arbitrate]

theorem State.content_kept (s : State) : s.content.kept = { s.kept with
    wb := WriteBack.reset, mport := { s.mport with serving := none, drain := false } } := rfl

@[simp] theorem State.finish_queued (s0 s : State) : (State.finish s0 s).mport.queued = s.mport.queued := by
  rw [State.finish_mport]; rfl

theorem tame_finish {s0 s : State} (h : Tame s0 s) (s' : State) : Tame s0 (State.finish s' s) :=
  h.same (by simp) (by simp) (by simp) (by simp) (by simp) (by simp) (by simp) (by rw [State.finish_mport]; rfl)

theorem tame_begin {s0 s : State} (h : Tame s0 s) : Tame s0 s.begin := h.same rfl rfl rfl rfl rfl rfl rfl rfl

/-- A step whose own effect is tame is tame. -/
theorem Tame.step {s : State} {f : State → State} (h : Tame s.begin (f s.begin)) : Tame s (s.run f) :=
  tame_finish ((tame_begin (.refl s)).trans h) s

/-! ## Taking an access (R173) -/

/-- An access presented to a free path is judged. -/
theorem State.present_of_free {s : State} (h : s.PathFree) (a : PAccess) : s.present a = s.judge a none := by
  simp [State.present, State.take, h.idle, h.direct]

/-- An access presented behind another waits its turn. -/
theorem State.present_of_busy {s : State} (h : s.path.slot ≠ .idle) (a : PAccess) :
    s.present a = s.setPath { s.path with offered := s.path.offered ++ [a] } := by
  unfold State.present
  split
  · rename_i hi; exact absurd hi h
  all_goals rfl

@[simp] theorem State.begin_pathFree (s : State) : s.begin.PathFree ↔ s.PathFree := ⟨fun h => ⟨h.idle, h.direct⟩, fun h => ⟨h.idle, h.direct⟩⟩

/-! ## Where the anchor's words lie (R174) -/

theorem anchorBase_cases (sel : BitVec 2) :
    anchorBase sel = 0x0000000 ∨ anchorBase sel = 0x0400000 ∨ anchorBase sel = 0x8000000 ∨ anchorBase sel = 0xFFFF000 := by
  revert sel; decide

/-- A word of the anchor is found at its place, whatever the windows. -/
theorem State.wordAt_anchorWord {s : State} (h : s.AnchorPlaced) {w : Nat} (hw : w < 64) :
    s.wordAt ((s.anchor.base + 4 * w) % 2 ^ 28) = .anchor w := by
  obtain ⟨sel, hs⟩ := h
  have hb : s.anchor.base % 256 = 0 ∧ s.anchor.base + 256 ≤ 2 ^ 28 := by
    rw [hs]
    obtain h | h | h | h := anchorBase_cases sel <;> rw [h] <;> decide
  have ha : wordAddress ((s.anchor.base + 4 * w) % 2 ^ 28) = s.anchor.base + 4 * w := by
    simp only [wordAddress]; omega
  have hi : wordIn (s.anchor.base + 4 * w) s.anchor.base anchorWords = some w := by
    have hc : s.anchor.base ≤ s.anchor.base + 4 * w ∧ s.anchor.base + 4 * w < s.anchor.base + 4 * anchorWords := by
      unfold anchorWords; omega
    rw [wordIn, if_pos hc]
    congr 1; omega
  simp only [State.wordAt, ha, hi]

/-- A write to an anchor word, presented to a free path, is judged by the anchor's rules. -/
theorem State.present_anchorWrite {s : State} (hf : s.PathFree) (ha : s.AnchorPlaced) {w : Nat} (hw : w < 64) (v : Word)
    (be : Enables) : s.present (s.anchorWrite w v be) = s.judgeAnchor (s.anchorWrite w v be) w := by
  rw [State.present_of_free hf]
  have : s.wordAt (s.anchorWrite w v be).addr = .anchor w := State.wordAt_anchorWord ha hw
  show s.judgeWrite (s.anchorWrite w v be) none = _
  rw [State.judgeWrite, this]

/-- A write, presented to a free path, judged by where it lands. -/
theorem State.present_write {s : State} (hf : s.PathFree) (addr : Nat) (v : Word) (be : Enables) :
    s.present (writeAccess addr v be) = s.judgeWrite (writeAccess addr v be) none := by
  rw [State.present_of_free hf]; rfl

end Sys2Proof.Machine
end

