-- ==== Sys2Proof/Laws/Commands.lean ====
section
/-! SUPPORT. A P-port write command by its access, how each trigger word is judged, notices raised, and the commit of a record that
has not changed. -/

namespace Sys2Proof.Machine

/-! ## The write a command is -/

theorem State.accessOf_write {s : State} {c : Instr} {a : PAccess} (h : s.accessOf c = some a) : a.write = true := by
  cases c <;> simp only [State.accessOf, Option.some.injEq, reduceCtorEq] at h <;> subst h <;> rfl

/-- A P-port write command presents its access. -/
theorem exec_access {s : State} {c : Instr} {a : PAccess} (h : s.accessOf c = some a) :
    exec c s = .next (State.finish s (s.begin.present a)) := by
  cases c <;> simp only [State.accessOf, Option.some.injEq, reduceCtorEq] at h <;> subst h <;> rfl

/-- A P-port write command on a free path is judged at once. -/
theorem exec_access_free {s : State} {c : Instr} {a : PAccess} (h : s.accessOf c = some a) (hf : s.PathFree) :
    exec c s = .next (State.finish s (s.begin.judgeWrite a none)) := by
  rw [exec_access h, State.present_of_free (by simpa using hf)]
  simp [State.judge, State.accessOf_write h]

@[simp] theorem State.begin_wordAt (s : State) (a : Nat) : s.begin.wordAt a = s.wordAt a := rfl

/-- A word of the anchor keeps its address in the address space. -/
theorem State.anchorWrite_addr {s : State} (h : s.AnchorPlaced) {w : Nat} (hw : w < 64) (v : Word) (be : Enables) :
    s.anchorWrite w v be = ⟨true, s.anchor.base + 4 * w, v, be⟩ := by
  obtain ⟨sel, hs⟩ := h
  simp only [State.anchorWrite, writeAccess, hs, PAccess.mk.injEq, true_and, and_true]
  obtain h | h | h | h := anchorBase_cases sel <;> rw [h] <;> omega

theorem State.wordAt_anchorWrite {s : State} (h : s.AnchorPlaced) {w : Nat} (hw : w < 64) (v : Word) (be : Enables) :
    s.wordAt (s.anchorWrite w v be).addr = .anchor w := State.wordAt_anchorWord h hw

/-- A write to an anchor word on a free path is judged by the anchor's rules. -/
theorem exec_anchor {s : State} {c : Instr} {w : Nat} {v : Word} {be : Enables} (hf : s.PathFree) (ha : s.AnchorPlaced) (hw : w < 64)
    (hc : s.accessOf c = some (s.anchorWrite w v be)) :
    exec c s = .next (State.finish s (s.begin.judgeAnchor ⟨true, s.anchor.base + 4 * w, v, be⟩ w)) := by
  rw [exec_access_free hc hf]
  unfold State.judgeWrite
  rw [State.begin_wordAt, State.wordAt_anchorWrite ha hw, ← State.anchorWrite_addr ha hw v be]

theorem State.run_eq (s : State) (f : State → State) : s.run f = State.finish s (f s.begin) := rfl

/-! ## Judging trigger words with all byte enables set -/

theorem State.judgeAnchor_attach (s : State) (addr : Nat) (v : Word) : s.judgeAnchor ⟨true, addr, v, 15⟩ 0 =
    if v = codeAttach ∧ s.anchor.attach = .detached then s.beginAttach.pass ⟨true, addr, v, 15⟩
    else if v = codeDetach ∧ s.anchor.attach = .attached then
      if s.lotActive then s.refuseDetach.mask ⟨true, addr, v, 15⟩ else s.beginDetach.pass ⟨true, addr, v, 15⟩
    else s.pass ⟨true, addr, v, 15⟩ := rfl

theorem State.judgeAnchor_handling (s : State) (addr : Nat) (v : Word) : s.judgeAnchor ⟨true, addr, v, 15⟩ 13 =
    if s.isAttached then (s.handlingRequest v).pass ⟨true, addr, v, 15⟩ else s.pass ⟨true, addr, v, 15⟩ := rfl

theorem State.judgeAnchor_motion (s : State) (addr : Nat) (v : Word) : s.judgeAnchor ⟨true, addr, v, 15⟩ 14 =
    if s.isAttached then (s.motionRequest v).pass ⟨true, addr, v, 15⟩ else s.pass ⟨true, addr, v, 15⟩ := rfl

theorem State.judgeHeader_request (s : State) (addr : Nat) (v : Word) (k : Slot) (h : s.anchor.attach = .attached) :
    s.judgeHeader ⟨true, addr, v, 15⟩ k 35 = (s.lotRequest k v).pass ⟨true, addr, v, 15⟩ := by
  simp [State.judgeHeader, isFull, State.isAttached, h]

theorem State.judgeControl_full (s : State) (addr : Nat) (v : Word) (k : Slot) (i : Nat) (known : Option Word)
    (h : s.anchor.attach = .attached) : s.judgeControl ⟨true, addr, v, 15⟩ k i known =
      if v = codePost then s.judgePost ⟨true, addr, v, 15⟩ k i known
      else if v = codeWithdraw then (s.withdraw k i).passCaptured ⟨true, addr, v, 15⟩ k i 6
      else s.passCaptured ⟨true, addr, v, 15⟩ k i 6 := by
  simp [State.judgeControl, isFull, State.isAttached, h]

/-! ## Requests to watched records -/

/-- A lot request, taken by an ATTACHED part. -/
theorem exec_lotRequest {s : State} {k : Slot} (h : s.ReadyFor (.lotHeader k)) {c : Instr} {v : Word}
    (hc : s.accessOf c = some (s.recordWrite (.lotHeader k) 35 v 15)) :
    exec c s = .next (State.finish s ((s.begin.lotRequest k v).pass (s.recordWrite (.lotHeader k) 35 v 15))) := by
  rw [exec_access_free hc h.free]
  have hj : s.begin.judgeWrite (s.recordWrite (.lotHeader k) 35 v 15) none
      = s.begin.judgeHeader (s.recordWrite (.lotHeader k) 35 v 15) k 35 := by
    unfold State.judgeWrite
    rw [State.begin_wordAt, h.watches 35 v 15 (by show 35 < 64; decide)]; rfl
  rw [hj]
  exact congrArg (fun u => Host.Outcome.next (State.finish s u)) (State.judgeHeader_request s.begin _ v k h.attached)

/-- A write to a wafer entry's word, taken by an ATTACHED part. -/
theorem exec_waferEntry {s : State} {k : Slot} {n : Nat} (h : s.ReadyFor (.waferEntry k n)) {c : Instr} {v : Word} {w : Nat}
    {be : Enables} (hw : w < 32) (hc : s.accessOf c = some (s.recordWrite (.waferEntry k n) w v be)) :
    exec c s = .next (State.finish s (s.begin.judgeWaferEntry (s.recordWrite (.waferEntry k n) w v be) k n w)) := by
  rw [exec_access_free hc h.free]
  unfold State.judgeWrite
  rw [State.begin_wordAt, h.watches w v be hw]; rfl

/-- A write to a defect entry's word, taken by an ATTACHED part. -/
theorem exec_defectEntry {s : State} {k : Slot} {i : Nat} (h : s.ReadyFor (.defectEntry k i)) {c : Instr} {v : Word} {w : Nat}
    {be : Enables} (hw : w < 16) (hc : s.accessOf c = some (s.recordWrite (.defectEntry k i) w v be)) :
    exec c s = .next (State.finish s (s.begin.judgeDefect (s.recordWrite (.defectEntry k i) w v be) k i w none)) := by
  rw [exec_access_free hc h.free]
  unfold State.judgeWrite
  rw [State.begin_wordAt, h.watches w v be hw]; rfl

/-- Where a lot header is watched, the windows are in place. -/
theorem State.windows_of_watches {s : State} {k : Slot} (h : s.Watches (.lotHeader k)) : ∃ ws, s.path.windows = some ws := by
  have h0 := h 0 0 0 (by show 0 < 64; decide)
  cases hw : s.path.windows with
  | some ws => exact ⟨ws, rfl⟩
  | none =>
    simp only [State.wordAt, hw, RecId.word] at h0
    split at h0 <;> cases h0

/-- A list parted into the elements a function answers, with its answers, and the others. -/
theorem partition_perm {α β : Type} (l : List α) (f : α → Option β) :
    ((l.filterMap fun a => (f a).map fun v => (a, v)).map Prod.fst ++ l.filter fun a => (f a).isNone).Perm l := by
  induction l with
  | nil => simp
  | cons a l ih =>
    cases hf : f a with
    | none =>
      simp only [List.filterMap_cons, hf, Option.map_none, List.filter_cons, Option.isNone_none, if_true]
      exact List.perm_middle.trans (ih.cons a)
    | some v =>
      simp only [List.filterMap_cons, hf, Option.map_some, List.map_cons, List.filter_cons, Option.isNone_some, List.cons_append,
        Bool.false_eq_true, if_false]
      exact ih.cons a

/-! ## Notices (R188) -/

theorem State.raise_of {s : State} {k : NoticeKind} (h : s.anchor.attach = .attached ∨ k = .attachResult) :
    s.raise k = { s with notice := { s.notice with
      pending := s.notice.pending ||| (1#32 <<< k.number), counts := s.notice.counts.modify k.number (satInc 65535) } } := if_pos h

theorem State.raise_not {s : State} {k : NoticeKind} (h : s.anchor.attach ≠ .attached) (hk : k ≠ .attachResult) :
    s.raise k = s := if_neg (by simp [h, hk])

theorem State.begin_raise (s : State) (k : NoticeKind) : s.begin.raise k = (s.raise k).begin := by
  unfold State.raise
  by_cases h : s.anchor.attach = .attached ∨ k = .attachResult
  · rw [if_pos h, if_pos (show s.begin.anchor.attach = .attached ∨ k = .attachResult from h)]; rfl
  · rw [if_neg h, if_neg (show ¬ (s.begin.anchor.attach = .attached ∨ k = .attachResult) from h)]

theorem State.begin_countMasked (s : State) : s.begin.countMasked = s.countMasked.begin :=
  State.begin_raise ({ s with anchor := { s.anchor with masked := satInc 65535 s.anchor.masked } } : State) _

/-- A masked write, as a whole step leaves it. -/
theorem State.finish_mask (s0 s : State) (a : PAccess) : (State.finish s0 (s.begin.mask a)).content = ({ s.countMasked with
    out := [], path := { s.path with slot := .waiting { a with be := 0 } } } : State).content := by
  rw [State.finish_content]
  unfold State.mask
  rw [State.begin_countMasked]
  simp [State.setSlot, State.setPath, State.begin, State.content]

end Sys2Proof.Machine
end

