-- ==== Sys2Proof/Laws/Wafers.lean ====
section
/-! SUPPORT. Wafer records and locations after the operations that change them: changed wafers, rows and places, aborted wafers. -/

namespace Sys2Proof.Machine

/-! ## Records read after a change -/

theorem State.lot_modLot (s : State) (k j : Slot) (f : Lot → Lot) : (s.modLot k f).lot j = if j = k then f (s.lot k) else s.lot j := by
  cases k <;> cases j <;> rfl

theorem State.wafer_modWafer (s : State) (w v : WaferName) (f : Wafer → Wafer) :
    (s.modWafer w f).wafer v = if v = w then (s.wafer v).map f else s.wafer v := by
  obtain ⟨k, n⟩ := w
  obtain ⟨j, m⟩ := v
  simp only [State.wafer, State.modWafer, State.lot_modLot, WaferName.mk.injEq]
  by_cases hj : j = k
  · subst hj
    simp only [if_true, true_and, getAt_modAt]
  · simp [hj]

theorem State.waferState_modWafer (s : State) (w v : WaferName) (f : Wafer → Wafer) :
    (s.modWafer w f).waferState v = if v = w then (s.wafer v).map (fun x => (f x).state) else s.waferState v := by
  simp only [State.waferState, State.wafer_modWafer]
  split
  · cases s.wafer v <;> rfl
  · rfl

/-- A change of a wafer record that keeps its state. -/
theorem State.waferState_modWafer_of {f : Wafer → Wafer} (hf : ∀ x, (f x).state = x.state) (s : State) (w v : WaferName) :
    (s.modWafer w f).waferState v = s.waferState v := by
  rw [State.waferState_modWafer]
  split
  · simp only [State.waferState, hf]
  · rfl

theorem State.waferState_congr {s t : State} (h : t.lots = s.lots) (w : WaferName) : t.waferState w = s.waferState w := by
  simp only [State.waferState, State.wafer, State.lot, h]

theorem State.locationOf_congr {s t : State} (h : t.handling.table = s.handling.table) (w : WaferName) :
    t.locationOf w = s.locationOf w := by
  simp only [State.locationOf, h]

theorem State.at_congr {s t : State} (h : t.handling.table = s.handling.table) (l : Loc) : t.at l = s.at l := by
  simp only [State.at, h]

/-! ## What is kept -/

theorem State.kept_modWafer (s : State) (w : WaferName) (f : Wafer → Wafer) : (s.modWafer w f).kept = s.kept := by
  obtain ⟨k, n⟩ := w
  cases k <;> rfl

theorem State.kept_modReport (s : State) (k : Slot) {f : Report → Report} (hf : ∀ r, (f r).kept = r.kept) :
    (s.modReport k f).kept = s.kept := by
  cases k <;> simp [State.kept, State.modReport, State.report, Two.set, Two.get, hf]

theorem State.kept_modRow (s : State) (w : WaferName) {f : Row → Row} (hf : ∀ r, (f r).kept = r.kept) :
    (s.modRow w f).kept = s.kept :=
  s.kept_modReport _ fun r => by simp [Report.kept, map_modAt r.rows w.n hf]

theorem State.kept_enter (s : State) (w : WaferName) {f : Row → Row} (hf : ∀ r, (f r).kept = r.kept) : (s.enter w f).kept = s.kept :=
  s.kept_modRow w fun r => by split <;> first | exact hf r | rfl

theorem State.kept_writeFinal (s : State) (w : WaferName) (r : FinalResult) : (s.writeFinal w r).kept = s.kept := by
  unfold State.writeFinal
  rw [State.kept_enter, State.kept_modWafer]
  exact fun _ => rfl

/-- What is kept of a lot slot and of a report. -/
theorem State.lot_kept {s t : State} (h : t.kept = s.kept) (k : Slot) : (t.lot k).kept = (s.lot k).kept := by
  cases k
  · exact congrArg (fun x : Kept => x.lots.zero) h
  · exact congrArg (fun x : Kept => x.lots.one) h

theorem State.report_kept {s t : State} (h : t.kept = s.kept) (k : Slot) : (t.report k).kept = (s.report k).kept := by
  cases k
  · exact congrArg (fun x : Kept => x.reports.zero) h
  · exact congrArg (fun x : Kept => x.reports.one) h

/-! ## Aborted wafers (R15) -/

theorem State.abortWafer_same (s : State) (w : WaferName) : (s.abortWafer w).handling = s.handling
    ∧ (s.abortWafer w).kept = s.kept ∧ (s.abortWafer w).scratch = s.scratch ∧ ∀ k, ((s.abortWafer w).lot k).state = (s.lot k).state := by
  have hl : ∀ (s : State) (f : Wafer → Wafer) (k : Slot), ((s.modWafer w f).lot k).state = (s.lot k).state := by
    intro s f k
    obtain ⟨j, n⟩ := w
    cases j <;> cases k <;> rfl
  unfold State.abortWafer State.pendAborted
  dsimp only
  repeat' split
  all_goals refine ⟨rfl, ?_, rfl, fun k => ?_⟩
  all_goals first
    | exact rfl
    | rw [State.kept_writeFinal, State.kept_modWafer]
    | rw [State.kept_modWafer, State.kept_modWafer]
    | rw [State.kept_modWafer]
    | exact (hl _ _ k).trans (hl _ _ k)
    | exact hl _ _ k

theorem State.waferState_abortWafer (s : State) (w v : WaferName) :
    (s.abortWafer w).waferState v = if v = w then (s.waferState v).map (fun st => st.aborted (s.locationOf w)) else s.waferState v := by
  have hp : ∀ s : State, (s.pendAborted w).waferState v = s.waferState v := fun s =>
    State.waferState_modWafer_of (f := fun x => { x with pendingResult := some (x.pendingResult.getD .aborted) }) (fun _ => rfl) s w v
  have hloc : (s.pendAborted w).locationOf w = s.locationOf w := State.locationOf_congr rfl w
  have hset : ∀ (s : State) (st : WaferState), (s.modWafer w fun x => { x with state := st }).waferState v
      = if v = w then (s.waferState v).map (fun _ => st) else s.waferState v := by
    intro s st
    rw [State.waferState_modWafer]
    split
    · simp only [State.waferState, Option.map_map]; rfl
    · rfl
  have hw : ∀ (s : State) (r : FinalResult), (s.writeFinal w r).waferState v = s.waferState v := fun s r => by
    refine (State.waferState_congr (s := s.modWafer w fun x => { x with finalResult := r }) rfl v).trans ?_
    rw [State.waferState_modWafer_of]
    exact fun _ => rfl
  unfold State.abortWafer
  cases hs : s.waferState w with
  | none =>
    by_cases hv : v = w
    · subst hv; simp [hs]
    · simp [hv]
  | some st =>
    have key : ∀ u : State, (u.waferState v = if v = w then some (st.aborted (s.locationOf w)) else s.waferState v) →
        u.waferState v = if v = w then (s.waferState v).map (fun st => st.aborted (s.locationOf w)) else s.waferState v := by
      intro u hu
      rw [hu]
      by_cases hv : v = w
      · subst hv; simp [hs]
      · simp [hv]
    have same : ∀ u : State, u.waferState v = s.waferState v → st.aborted (s.locationOf w) = st →
        u.waferState v = if v = w then some (st.aborted (s.locationOf w)) else s.waferState v := by
      intro u hu ha
      rw [hu, ha]
      split
      · rename_i hv; rw [hv, hs]
      · rfl
    have moved : ∀ (u : State) (b : WaferState), u.waferState v = s.waferState v → st.aborted (s.locationOf w) = b →
        (u.modWafer w fun x => { x with state := b }).waferState v
          = if v = w then some (st.aborted (s.locationOf w)) else s.waferState v := by
      intro u b hu ha
      rw [hset, hu, ha]
      split
      · rename_i hv; subst hv; simp [hs]
      · rfl
    apply key
    cases st <;> dsimp only
    case waiting => rw [hw]; exact moved s _ rfl rfl
    case unaligned => rw [hp]; exact moved s _ rfl rfl
    case ready =>
      rw [hloc]
      split
      · rename_i hu
        exact moved _ _ (hp s) (by simp [WaferState.aborted, hu])
      · rename_i hu
        exact same _ (hp s) (by simp [WaferState.aborted, hu])
    case prealigning => exact same _ (hp s) rfl
    case onStage => exact same _ (hp s) rfl
    all_goals exact same _ rfl rfl

theorem WaferState.aborted_aborted (st : WaferState) (loc : Option Loc) : (st.aborted loc).aborted loc = st.aborted loc := by
  cases st <;> try rfl
  by_cases h : loc = some .ua <;> simp [WaferState.aborted, h]

/-- The wafers of a slot aborted one after another. -/
theorem State.abortWafers (k : Slot) (l : List Nat) : ∀ s : State,
    (∀ n ∈ l, (l.foldl (fun s n => s.abortWafer ⟨k, n⟩) s).waferState ⟨k, n⟩
      = (s.waferState ⟨k, n⟩).map (fun st => st.aborted (s.locationOf ⟨k, n⟩)))
    ∧ (∀ v : WaferName, (v.slot = k → v.n ∉ l) → (l.foldl (fun s n => s.abortWafer ⟨k, n⟩) s).waferState v = s.waferState v)
    ∧ (l.foldl (fun s n => s.abortWafer ⟨k, n⟩) s).handling = s.handling
    ∧ (l.foldl (fun s n => s.abortWafer ⟨k, n⟩) s).kept = s.kept
    ∧ (l.foldl (fun s n => s.abortWafer ⟨k, n⟩) s).scratch = s.scratch
    ∧ ∀ j, ((l.foldl (fun s n => s.abortWafer ⟨k, n⟩) s).lot j).state = (s.lot j).state := by
  induction l with
  | nil => intro s; exact ⟨fun n hn => by simp at hn, fun _ _ => rfl, rfl, rfl, rfl, fun _ => rfl⟩
  | cons m l ih =>
    intro s
    obtain ⟨a, b, c, d, e, f⟩ := ih (s.abortWafer ⟨k, m⟩)
    obtain ⟨c', d', e', f'⟩ := s.abortWafer_same ⟨k, m⟩
    have hloc : ∀ w, (s.abortWafer ⟨k, m⟩).locationOf w = s.locationOf w := fun w => State.locationOf_congr (by rw [c']) w
    rw [List.foldl_cons]
    refine ⟨fun n hn => ?_, fun v hv => ?_, c.trans c', d.trans d', e.trans e', fun j => (f j).trans (f' j)⟩
    · by_cases hm : n ∈ l
      · rw [a n hm, State.waferState_abortWafer, hloc]
        by_cases h : n = m
        · subst h
          rw [if_pos rfl]
          cases s.waferState ⟨k, n⟩ with
          | none => rfl
          | some st => simp [WaferState.aborted_aborted]
        · rw [if_neg (by simpa using h)]
      · have h : n = m := by simpa [hm] using hn
        subst h
        rw [b ⟨k, n⟩ (fun _ => hm), State.waferState_abortWafer, if_pos rfl]
    · rw [b v (fun h hm => hv h (List.mem_cons_of_mem _ hm)), State.waferState_abortWafer, if_neg]
      intro h
      subst h
      exact hv rfl List.mem_cons_self

theorem mem_slots25 {n : Nat} : n ∈ slots25 ↔ 1 ≤ n ∧ n ≤ 25 := by
  simp only [slots25, List.mem_map, List.mem_range]
  constructor
  · rintro ⟨m, hm, rfl⟩; omega
  · intro h; exact ⟨n - 1, by omega, by omega⟩

/-- What is kept of a state is kept of its content. -/
theorem State.content_kept_of {s t : State} (h : s.kept = t.kept) : s.content.kept = t.content.kept :=
  congrArg (fun k : Kept => ({ k with wb := WriteBack.reset, mport := { k.mport with serving := none, drain := false } } : Kept)) h

/-- An abort is the lot's own change, consequences of it, and then the wafers' changes one after another. -/
theorem State.abortLot_eq (s : State) (k : Slot) : ∃ b, Quiet ((s.setLotState k .aborting).setMapRequest k false) b
    ∧ s.abortLot k = slots25.foldl (fun s n => s.abortWafer ⟨k, n⟩) b := by
  obtain ⟨a, ha⟩ : ∃ a, a = (s.setLotState k .aborting).setMapRequest k false := ⟨_, rfl⟩
  rw [← ha]
  refine ⟨if ((a.endQueuedOfLot k .lotAbort).revisit.wafer.map (·.slot)) = some k
    then (a.endQueuedOfLot k .lotAbort).cutReview .lotAbort .lotAbort else a.endQueuedOfLot k .lotAbort, ?_, ?_⟩
  · have h1 := quiet_endQueuedOfLot (.refl a) k .lotAbort
    split
    · exact quiet_cutReview h1 _ _
    · exact h1
  · unfold State.abortLot; rw [ha]

/-- An abort of an active lot: the lot ABORTING or past it, no MAP asked for, the wafers as R15 makes them, all else kept. -/
theorem State.abortLot_facts (s : State) (k : Slot) :
    LotState.aborting.mayBecome ((s.abortLot k).lot k).state = true
    ∧ (s.abortLot k).handling.mapRequest.get k = false
    ∧ (∀ n, 1 ≤ n → n ≤ 25 → ∀ st, s.waferState ⟨k, n⟩ = some st → st ≠ .onStage →
          (s.abortLot k).waferState ⟨k, n⟩ = some (st.aborted (s.locationOf ⟨k, n⟩)))
    ∧ (s.abortLot k).kept = s.kept := by
  obtain ⟨a, ha⟩ : ∃ a, a = (s.setLotState k .aborting).setMapRequest k false := ⟨_, rfl⟩
  obtain ⟨b, hb, hc⟩ := s.abortLot_eq k
  rw [← ha] at hb
  rw [hc]
  obtain ⟨w1, w2, w3, w4, w5, w6⟩ := State.abortWafers k slots25 b
  have ast : (a.lots.get k).state = .aborting := by rw [ha]; cases k <;> rfl
  have bst := (hb.lots k).state
  rw [ast] at bst
  have akept : a.kept = s.kept := by rw [ha]; cases k <;> rfl
  have am : a.handling.mapRequest.get k = false := by rw [ha]; cases k <;> rfl
  have aw : ∀ w, a.waferState w = s.waferState w := by
    intro ⟨j, n⟩
    rw [ha]; cases k <;> cases j <;> rfl
  have al : ∀ w, b.locationOf w = s.locationOf w := fun w => State.locationOf_congr ((congrArg Kept.table (hb.kept.trans akept) :)) w
  refine ⟨?_, ?_, ?_, ?_⟩
  · rw [w6]; exact bst
  · rw [w3]; exact hb.handling.mapRequest k am
  · intro n h1 h2 st hst hno
    rw [w1 n (mem_slots25.mpr ⟨h1, h2⟩), al]
    have hab : b.waferState ⟨k, n⟩ = a.waferState ⟨k, n⟩ := by
      have := (hb.lots k).waferState n
      refine this ?_
      show a.waferState ⟨k, n⟩ ≠ _
      rw [aw, hst]; simpa using hno
    rw [hab, aw, hst]; rfl
  · exact w4.trans (hb.kept.trans akept)

end Sys2Proof.Machine
end

