-- ==== Sys2Proof/Laws/Places.lean ====
section
/-! SUPPORT. The location table after its changes: places set, a released slot's places, and moves. -/

namespace Sys2Proof.Machine

/-! ## One place set -/

theorem State.at_setAt_ne {s : State} {l l' : Loc} (h : l' ≠ l) (o : Occupant) : (s.setAt l o).at l' = s.at l' := by
  cases l with
  | carrier p n =>
    cases l' with
    | carrier q m =>
      simp only [State.at, State.setAt, LocationTable.get, LocationTable.set]
      by_cases hq : q = p
      · subst hq
        have hm : m ≠ n := fun e => h (by rw [e])
        cases q <;> simp only [Two.set, Two.get, getAt_modAt, if_neg hm]
      · cases p <;> cases q <;> first | rfl | exact absurd rfl hq
    | _ => rfl
  | _ => cases l' <;> first | rfl | exact absurd rfl h

theorem State.at_setAt_outside {s : State} {l : Loc} (h : l ∈ outsidePlaces) (o : Occupant) : (s.setAt l o).at l = o := by
  simp only [outsidePlaces, List.mem_cons, List.mem_nil_iff, or_false] at h
  rcases h with rfl | rfl | rfl | rfl <;> rfl

theorem State.at_setAt_carrier (s : State) (p : Slot) (n : Nat) (o : Occupant) :
    (s.setAt (.carrier p n) o).at (.carrier p n) = ((getAt (s.handling.table.carriers.get p) n).map fun _ => o).getD .empty := by
  simp only [State.at, State.setAt, LocationTable.get, LocationTable.set]
  cases p <;> simp only [Two.set, Two.get, getAt_modAt, if_true]

/-- A place emptied is empty. -/
theorem State.at_setAt_empty (s : State) (l : Loc) : (s.setAt l .empty).at l = .empty := by
  cases l with
  | carrier p n =>
    rw [State.at_setAt_carrier]
    cases getAt (s.handling.table.carriers.get p) n <;> rfl
  | _ => rfl

theorem State.at_setAt {s : State} {l : Loc} (h : s.hasPlace l) (o : Occupant) : (s.setAt l o).at l = o := by
  cases l with
  | carrier p n =>
    obtain ⟨h1, h2⟩ := h
    rw [State.at_setAt_carrier]
    obtain ⟨m, rfl⟩ := Nat.exists_eq_add_of_le' h1
    rw [show getAt (s.handling.table.carriers.get p) (m + 1) = (s.handling.table.carriers.get p)[m]? from rfl,
      List.getElem?_eq_getElem (by omega)]
    rfl
  | _ => rfl

theorem State.hasPlace_setAt (s : State) (l l' : Loc) (o : Occupant) : (s.setAt l o).hasPlace l' ↔ s.hasPlace l' := by
  cases l' with
  | carrier q m =>
    have : ((s.setAt l o).handling.table.carriers.get q).length = (s.handling.table.carriers.get q).length := by
      cases l with
      | carrier p n => cases p <;> cases q <;> simp [State.setAt, LocationTable.set, Two.set, Two.get, length_modAt]
      | _ => rfl
    simp only [State.hasPlace, this]
  | _ => exact Iff.rfl

/-! ## What changes of places and of the stage leave alone -/

/-- Everything but the handling unit, the notices, and what follows the stage wafer: an entry still ACTIVE ends, and its row counts it. -/
structure SamePart (s t : State) : Prop where
  pending : t.pending = s.pending
  clock : t.clock = s.clock
  cell : t.cell = s.cell
  lots : t.lots = s.lots
  reports : ∀ k, (t.report k).kept = (s.report k).kept ∧ (t.report k).state = (s.report k).state
  classTable : t.classTable = s.classTable
  motion : t.motion = s.motion
  sensor : t.sensor = s.sensor
  anchor : t.anchor = s.anchor
  mask : t.notice.mask = s.notice.mask
  path : t.path = s.path
  wb : t.wb = s.wb
  mport : t.mport = s.mport
  mem : t.mem = s.mem
  free : t.free = s.free
  posts : t.revisit.posting.map (·.postKept) = s.revisit.posting.map (·.postKept)
  stays : Stays s t
  msgs : t.scratch.msgs = s.scratch.msgs

theorem SamePart.refl (s : State) : SamePart s s :=
  ⟨rfl, rfl, rfl, rfl, fun _ => ⟨rfl, rfl⟩, rfl, rfl, rfl, rfl, rfl, rfl, rfl, rfl, rfl, rfl, rfl, .refl s, rfl⟩

theorem SamePart.trans {s t u : State} (h : SamePart s t) (g : SamePart t u) : SamePart s u :=
  ⟨g.1.trans h.1, g.2.trans h.2, g.3.trans h.3, g.4.trans h.4,
    fun k => ⟨(g.5 k).1.trans (h.5 k).1, (g.5 k).2.trans (h.5 k).2⟩, g.6.trans h.6, g.7.trans h.7, g.8.trans h.8,
    g.9.trans h.9, g.10.trans h.10, g.11.trans h.11, g.12.trans h.12, g.13.trans h.13, g.14.trans h.14, g.15.trans h.15,
    g.16.trans h.16, h.17.trans g.17, g.18.trans h.18⟩

theorem same_setHandling (s : State) (h : Handling) : SamePart s (s.setHandling h) := by
  constructor <;> first | rfl | exact fun _ => ⟨rfl, rfl⟩ | exact .same rfl rfl
theorem same_setAt (s : State) (l : Loc) (o : Occupant) : SamePart s (s.setAt l o) := by
  constructor <;> first | rfl | exact fun _ => ⟨rfl, rfl⟩ | exact .same rfl rfl

theorem same_raise (s : State) (k : NoticeKind) : SamePart s (s.raise k) := by
  unfold State.raise
  split <;> constructor <;> first | rfl | exact fun _ => ⟨rfl, rfl⟩ | exact .same rfl rfl

theorem same_halt (s : State) : SamePart s s.halt := by
  unfold State.halt State.enterHalted
  split
  all_goals first
    | exact (same_setHandling s { s.handling with state := .halted, haltMark := false }).trans (same_raise _ _)
    | exact same_setHandling s _

/-- The end of an ACTIVE entry changes its record, its row's outcomes, and what is touched. -/
theorem State.endActiveEntry_eq (s : State) (why : EntryReason) : s.endActiveEntry why = { s with
    revisit := { s.revisit with
      posting := (s.endActiveEntry why).revisit.posting, store := (s.endActiveEntry why).revisit.store }
    reports := (s.endActiveEntry why).reports
    scratch := { s.scratch with touched := (s.endActiveEntry why).scratch.touched } } := by
  unfold State.endActiveEntry
  split
  · rfl
  · rfl

theorem same_endActiveEntry (s : State) (why : EntryReason) : SamePart s (s.endActiveEntry why) := by
  have q := quiet_endActiveEntry (.refl s) why
  rw [s.endActiveEntry_eq why] at q ⊢
  refine ⟨rfl, rfl, rfl, rfl, fun k => ⟨?_, (q.closing k rfl).1⟩, rfl, rfl, rfl, rfl, rfl, rfl, rfl, rfl, rfl, rfl, congrArg Kept.posts q.kept,
    q.stays, rfl⟩
  have h := congrArg Kept.reports q.kept
  cases k
  · exact congrArg Two.zero h
  · exact congrArg Two.one h

theorem same_reviewLeaves (s : State) (w : WaferName) : SamePart s (s.reviewLeaves w) := by
  unfold State.reviewLeaves
  split
  · refine (same_endActiveEntry s .waferUnavailable).trans ?_
    constructor <;> first | rfl | exact fun _ => ⟨rfl, rfl⟩ | exact .same rfl rfl
  · exact .refl s

theorem same_stageLeft (s : State) (w : WaferName) : SamePart s (s.stageLeft w) := by
  refine SamePart.trans ?_ (same_reviewLeaves _ w)
  unfold State.alignLeaves State.focusLeaves State.withdrawFocus
  split_ifs <;> constructor <;> first | rfl | exact fun _ => ⟨rfl, rfl⟩ | exact .same rfl rfl

theorem State.stageLeft_handling (s : State) (w : WaferName) : (s.stageLeft w).handling = s.handling := by
  unfold State.stageLeft State.alignLeaves State.focusLeaves State.withdrawFocus State.reviewLeaves
  split_ifs <;> first | rfl | (dsimp only; rw [State.endActiveEntry_eq]; rfl)

theorem State.halt_table (s : State) : s.halt.handling.table = s.handling.table := by
  unfold State.halt State.enterHalted State.raise
  split
  all_goals first | rfl | (split <;> rfl)

/-! ## Release (R18) -/

theorem same_forgetAt (s : State) (k : Slot) (l : Loc) : SamePart s (s.forgetAt k l) := by
  unfold State.forgetAt
  split
  · exact same_setAt _ _ _
  · exact .refl s

theorem State.at_forgetAt (s : State) (k : Slot) {l : Loc} (hl : l ∈ outsidePlaces) (l' : Loc) :
    (s.forgetAt k l).at l' = if l' = l ∧ (s.at l).ofSlot k = true then .unknown else s.at l' := by
  unfold State.forgetAt
  by_cases h : (s.at l).ofSlot k = true
  · rw [if_pos h]
    by_cases e : l' = l
    · subst e; rw [State.at_setAt_outside hl, if_pos ⟨rfl, h⟩]
    · rw [State.at_setAt_ne e, if_neg (fun c => e c.1)]
  · rw [if_neg h, if_neg (fun c => h c.2)]

/-- Emptying the carrier slots that name a wafer of the slot, one after another. -/
theorem State.emptySlots (k : Slot) (l : List Nat) : ∀ s : State,
    let t := l.foldl (fun s n => if (s.at (.carrier k n)).ofSlot k then s.setAt (.carrier k n) .empty else s) s
    SamePart s t ∧ (∀ n ∈ l, t.at (.carrier k n) = if (s.at (.carrier k n)).ofSlot k then .empty else s.at (.carrier k n))
    ∧ ∀ l', (∀ n ∈ l, l' ≠ .carrier k n) → t.at l' = s.at l' := by
  induction l with
  | nil => intro s; exact ⟨.refl s, fun n hn => by simp at hn, fun _ _ => rfl⟩
  | cons m l ih =>
    intro s
    obtain ⟨u, hu⟩ : ∃ u, u = (if (s.at (.carrier k m)).ofSlot k then s.setAt (.carrier k m) .empty else s) := ⟨_, rfl⟩
    have hs : SamePart s u := by rw [hu]; split <;> first | exact .refl s | exact same_setAt _ _ _
    have hm : u.at (.carrier k m) = if (s.at (.carrier k m)).ofSlot k then .empty else s.at (.carrier k m) := by
      rw [hu]
      split
      · exact s.at_setAt_empty _
      · rfl
    have ho : ∀ l', l' ≠ .carrier k m → u.at l' = s.at l' := by
      intro l' hl
      rw [hu]
      split
      · exact State.at_setAt_ne hl _
      · rfl
    have hi := ih u
    dsimp only at hi ⊢
    rw [List.foldl_cons, ← hu]
    obtain ⟨a, b, c⟩ := hi
    refine ⟨hs.trans a, fun n hn => ?_, fun l' hl => ?_⟩
    · by_cases hnm : n = m
      · subst hnm
        by_cases hl : n ∈ l
        · rw [b n hl, hm]
          by_cases h : (s.at (.carrier k n)).ofSlot k = true
          · simp [h]
          · simp [h]
        · rw [c _ (fun q hq e => hl (by injection e with _ e; rw [e]; exact hq)), hm]
      · have hl : n ∈ l := by simpa [hnm] using hn
        have hne : Loc.carrier k n ≠ .carrier k m := fun e => hnm (by injection e)
        rw [b n hl, ho _ hne]
    · rw [c l' (fun n hn => hl n (List.mem_cons_of_mem _ hn)), ho l' (hl m List.mem_cons_self)]

theorem State.releasePlaces_facts (s : State) (k : Slot) :
    SamePart s (s.releasePlaces k)
    ∧ (∀ n, 1 ≤ n → n ≤ 25 → (s.releasePlaces k).at (.carrier k n)
        = if (s.at (.carrier k n)).ofSlot k then .empty else s.at (.carrier k n))
    ∧ ∀ l ∈ outsidePlaces, (s.releasePlaces k).at l = if (s.at l).ofSlot k then .unknown else s.at l := by
  obtain ⟨a, ha⟩ : ∃ a, a = slots25.foldl (fun s n =>
    if (s.at (.carrier k n)).ofSlot k then s.setAt (.carrier k n) .empty else s) s := ⟨_, rfl⟩
  have hfa := State.emptySlots k slots25 s
  dsimp only at hfa
  rw [← ha] at hfa
  obtain ⟨a1, a2, a3⟩ := hfa
  obtain ⟨b, hb⟩ : ∃ b, b = (((a.forgetAt k .ua).forgetAt k .la).forgetAt k .pa).forgetAt k .st := ⟨_, rfl⟩
  have b1 : SamePart s b := by
    rw [hb]
    exact (((a1.trans (same_forgetAt _ _ _)).trans (same_forgetAt _ _ _)).trans (same_forgetAt _ _ _)).trans (same_forgetAt _ _ _)
  have b2 : ∀ l, b.at l = if l ∈ outsidePlaces ∧ (a.at l).ofSlot k = true then .unknown else a.at l := by
    intro l
    rw [hb]
    simp only [State.at_forgetAt _ k (show Loc.ua ∈ outsidePlaces by decide), State.at_forgetAt _ k (show Loc.la ∈ outsidePlaces by decide),
      State.at_forgetAt _ k (show Loc.pa ∈ outsidePlaces by decide), State.at_forgetAt _ k (show Loc.st ∈ outsidePlaces by decide)]
    cases l <;> simp [outsidePlaces]
  obtain ⟨c, hc⟩ : ∃ c, c = (if s.handling.table.putBack && (s.at .ua).ofSlot k then b.halt else b) := ⟨_, rfl⟩
  have c1 : SamePart s c := by
    rw [hc]
    split
    · exact b1.trans (same_halt b)
    · exact b1
  have c2 : c.handling.table = b.handling.table := by
    rw [hc]
    split
    · exact b.halt_table
    · rfl
  have hd : s.releasePlaces k = (match s.at .st with
      | .wafer w => if w.slot = k then c.stageLeft w else c
      | _ => c) := by
    unfold State.releasePlaces
    subst hc hb ha
    rfl
  have d1 : SamePart s (s.releasePlaces k) ∧ (s.releasePlaces k).handling.table = b.handling.table := by
    rw [hd]
    split
    · split
      · exact ⟨c1.trans (same_stageLeft _ _), by rw [State.stageLeft_handling, c2]⟩
      · exact ⟨c1, c2⟩
    · exact ⟨c1, c2⟩
  have d2 : ∀ l, (s.releasePlaces k).at l = b.at l := fun l => State.at_congr d1.2 l
  refine ⟨d1.1, fun n h1 h2 => ?_, fun l hl => ?_⟩
  · rw [d2, b2, if_neg (by simp [outsidePlaces]), a2 n (mem_slots25.mpr ⟨h1, h2⟩)]
  · have hna : a.at l = s.at l := a3 l fun n _ e => by subst e; simp [outsidePlaces] at hl
    rw [d2, b2, hna]
    simp [hl]

end Sys2Proof.Machine
end

