-- ==== Sys2Proof/Laws/Moves.lean ====
section
/-! SUPPORT. What consequences leave of wafers, places and lots; wafers moved by the robot, orphaned, and brought to the stage; what a
halt changes. -/

namespace Sys2Proof.Machine

/-! ## What consequences leave -/

theorem Quiet.at_eq {s t : State} (h : Quiet s t) (l : Loc) : t.at l = s.at l := State.at_congr (congrArg Kept.table h.kept) l

theorem Quiet.waferState_eq {s t : State} (h : Quiet s t) (w : WaferName) (hn : s.waferState w ≠ some .onStage) :
    t.waferState w = s.waferState w :=
  (h.lots w.slot).waferState w.n hn

/-- A wafer ON_STAGE stays so or is REVIEW_ENDED. -/
theorem Quiet.onStage {s t : State} (h : Quiet s t) {w : WaferName} (hw : s.waferState w = some .onStage) :
    t.waferState w = some .onStage ∨ t.waferState w = some .reviewEnded := by
  rcases (h.lots w.slot).stage w.n with e | e
  · exact .inl (e.trans hw)
  · exact .inr e.2

/-! ## Wafer states set -/

theorem State.waferState_setWaferState (s : State) (w v : WaferName) (st : WaferState) :
    (s.setWaferState w st).waferState v = if v = w then (s.waferState v).map (fun _ => st) else s.waferState v := by
  unfold State.setWaferState
  rw [State.waferState_modWafer]
  split
  · simp only [State.waferState, Option.map_map]; rfl
  · rfl

theorem State.waferState_writeFinal (s : State) (w v : WaferName) (r : FinalResult) :
    (s.writeFinal w r).waferState v = s.waferState v := by
  refine (State.waferState_congr (s := s.modWafer w fun x => { x with finalResult := r }) rfl v).trans ?_
  rw [State.waferState_modWafer_of]
  exact fun _ => rfl

/-! ## Moves that keep everything but the wafer's record (R11) -/

/-- Every place and everything kept but UA's put-back mark stay. -/
structure Moves (s t : State) : Prop where
  places : ∀ l, t.at l = s.at l
  kept : ({ t.kept with table := s.handling.table } : Kept) = s.kept

theorem Moves.refl (s : State) : Moves s s := ⟨fun _ => rfl, rfl⟩

theorem Moves.of {s t : State} (h : t.kept = s.kept) : Moves s t :=
  ⟨State.at_congr (congrArg Kept.table h), by
    have : t.handling.table = s.handling.table := congrArg Kept.table h
    rw [← this]; exact h⟩

theorem moves_setWaferState (s : State) (w : WaferName) (st : WaferState) : Moves s (s.setWaferState w st) :=
  .of (by unfold State.setWaferState; exact s.kept_modWafer w _)

theorem State.toReturned_facts {s : State} {w : WaferName} {st : WaferState} (hw : s.waferState w = some st) :
    (s.toReturned w).waferState w = some .returned ∧ (s.toReturned w).kept = s.kept := by
  have main : ∀ r, ((((s.modWafer w fun x => { x with state := .returned }).writeFinal w r).raise .waferReturned).endQueued w
      .waferUnavailable).waferState w = some .returned
      ∧ ((((s.modWafer w fun x => { x with state := .returned }).writeFinal w r).raise .waferReturned).endQueued w
      .waferUnavailable).kept = s.kept := by
    intro r
    generalize hu : (s.modWafer w fun x => { x with state := .returned }).writeFinal w r = u
    have e : u.waferState w = some .returned := by
      rw [← hu, State.waferState_writeFinal]
      exact (s.waferState_setWaferState w w .returned).trans (by rw [if_pos rfl, hw]; rfl)
    have k : u.kept = s.kept := by rw [← hu, State.kept_writeFinal, State.kept_modWafer]
    have q := quiet_endQueued (quiet_raise (.refl u) .waferReturned) w .waferUnavailable
    exact ⟨by rw [q.waferState_eq w (by rw [e]; decide), e], q.kept.trans k⟩
  exact main _

theorem State.toReviewEndedAtOnce_facts {s : State} {w : WaferName} {st : WaferState} (hw : s.waferState w = some st) :
    (s.toReviewEndedAtOnce w).waferState w = some .reviewEnded ∧ (s.toReviewEndedAtOnce w).kept = s.kept := by
  unfold State.toReviewEndedAtOnce
  dsimp only
  generalize hu : (s.modWafer w fun x => { x with state := .reviewEnded, startClock := s.clock, endClock := s.clock }) = u
  have e : u.waferState w = some .reviewEnded := by
    rw [← hu, State.waferState_modWafer, if_pos rfl]
    unfold State.waferState at hw
    cases hx : s.wafer w with
    | none => rw [hx] at hw; cases hw
    | some x => rfl
  have k : u.kept = s.kept := by rw [← hu, State.kept_modWafer]
  have q := quiet_endQueued (quiet_handMapFigures (quiet_handDuration (.refl u) w 0) w) w .waferUnavailable
  exact ⟨by rw [q.waferState_eq w (by rw [e]; decide), e], q.kept.trans k⟩

theorem moves_putBack (s : State) : Moves s (s.setHandling { s.handling with table := { s.handling.table with putBack := true } }) :=
  ⟨fun l => by cases l <;> rfl, rfl⟩

/-- A reported move of a wafer not on the stage, but for a READY wafer's arrival there: its state as R11 and R34 give. -/
theorem State.waferMoved_facts {s : State} {w : WaferName} {st : WaferState} (dst : Loc) (hw : s.waferState w = some st)
    (h1 : st ≠ .onStage) (h2 : ¬ (st = .ready ∧ dst = .st)) :
    (s.waferMoved w dst).waferState w = some (st.moved dst (decide ((s.lot w.slot).state = .aborting) || s.isSuspect w))
    ∧ Moves s (s.waferMoved w dst) := by
  have plain : ∀ st', (s.setWaferState w st').waferState w = some st' ∧ Moves s (s.setWaferState w st') := fun st' =>
    ⟨by rw [s.waferState_setWaferState, if_pos rfl, hw]; rfl, moves_setWaferState _ _ _⟩
  have keep : s.waferState w = some st ∧ Moves s s := ⟨hw, .refl s⟩
  have ret := And.imp_right Moves.of (State.toReturned_facts hw)
  have once := And.imp_right Moves.of (State.toReviewEndedAtOnce_facts hw)
  have back : ∀ u : State, u = s.setHandling { s.handling with table := { s.handling.table with putBack := true } } →
      u.waferState w = some st ∧ Moves s u := by
    rintro u rfl; exact ⟨hw, moves_putBack s⟩
  unfold State.waferMoved
  rw [hw]
  cases st <;> first | exact absurd rfl h1 | skip
  all_goals cases dst <;> dsimp only [WaferState.moved] <;> first
    | with_reducible exact keep
    | with_reducible exact plain _
    | with_reducible exact ret
    | with_reducible exact once
    | with_reducible exact back _ rfl
    | skip
  · unfold State.readyOnUA
    split
    · rename_i h
      have : (decide ((s.lot w.slot).state = .aborting) || s.isSuspect w) = true := by rcases h with h | h <;> simp [h]
      rw [if_pos this]; exact plain _
    · rename_i h
      have : ¬ (decide ((s.lot w.slot).state = .aborting) || s.isSuspect w) = true := by simpa using h
      rw [if_neg this]; exact keep
  · exact absurd ⟨rfl, rfl⟩ h2

/-! ## A wafer's arrival on the stage (R69, R139) -/

/-- The first mark's measurement begins: a change of the transform record that keeps its wafer and coefficients, and consequences. -/
theorem State.beginMark_eq (s : State) (n : Nat) : ∃ a : Align, a.wafer = s.align.wafer ∧ a.a = s.align.a ∧ a.b = s.align.b
    ∧ a.tx = s.align.tx ∧ a.ty = s.align.ty
    ∧ a.kept = ({ s.align with mark := n }.setTarget (s.align.convert s.alignRecipe (s.alignRecipe.markAt n))).kept
    ∧ Quiet (s.setAlign a) (s.beginMark n) := by
  have h : ∀ (a : Align) (p : Point), (a.setTarget p).wafer = a.wafer ∧ (a.setTarget p).a = a.a ∧ (a.setTarget p).b = a.b
      ∧ (a.setTarget p).tx = a.tx ∧ (a.setTarget p).ty = a.ty := by
    intro a p; unfold Align.setTarget; split <;> exact ⟨rfl, rfl, rfl, rfl, rfl⟩
  have hk : ∀ (a b : Align) (p : Point), a.kept = b.kept → a.mark = b.mark → (a.setTarget p).kept = (b.setTarget p).kept := by
    intro a b p h1 h2
    simp only [Align.kept, TransformKept.mk.injEq] at h1
    unfold Align.setTarget
    rw [h2]
    split <;> simp [Align.kept, h1]
  unfold State.beginMark
  dsimp only
  split
  · refine ⟨_, ?_, ?_, ?_, ?_, ?_, ?_, quiet_requestMove (quiet_takeRequest (quiet_requestMove (quiet_takeRequest (.refl _)) _ _)) _ _⟩
    · exact (h _ _).1
    · exact (h _ _).2.1
    · exact (h _ _).2.2.1
    · exact (h _ _).2.2.2.1
    · exact (h _ _).2.2.2.2
    · exact hk _ { s.align with mark := n } _ rfl rfl
  · refine ⟨_, ?_, ?_, ?_, ?_, ?_, ?_, quiet_alignFail (.refl _) _⟩
    · exact (h _ _).1
    · exact (h _ _).2.1
    · exact (h _ _).2.2.1
    · exact (h _ _).2.2.2.1
    · exact (h _ _).2.2.2.2
    · exact hk _ { s.align with mark := n } _ rfl rfl

theorem State.kept_setAlign (s : State) (a : Align) : (s.setAlign a).kept = { s.kept with transform := a.kept } := by
  unfold State.setAlign
  dsimp only
  split
  · rw [State.kept_modWafer]; rfl
  · rfl

theorem State.waferState_setAlign (s : State) (a : Align) (w : WaferName) : (s.setAlign a).waferState w = s.waferState w := by
  unfold State.setAlign
  dsimp only
  split
  · rw [State.waferState_modWafer_of]
    · rfl
    · exact fun _ => rfl
  · rfl

theorem State.kept_showTransform (s : State) : s.showTransform.kept = s.kept := by
  unfold State.showTransform
  split
  · rw [State.kept_modWafer]
  · rfl

theorem State.waferState_showTransform (s : State) (w : WaferName) : s.showTransform.waferState w = s.waferState w := by
  unfold State.showTransform
  split
  · rw [State.waferState_modWafer_of]; exact fun _ => rfl
  · rfl

theorem State.showTransform_align (s : State) : s.showTransform.align = s.align := by
  unfold State.showTransform
  split <;> rfl

theorem State.setAlign_align (s : State) (a : Align) : (s.setAlign a).align = a := by
  unfold State.setAlign
  dsimp only
  split <;> rfl

theorem State.kept_reviewArrives (s : State) (w : WaferName) :
    (s.reviewArrives w).kept = { s.kept with reviewed := some w, timeoutFlag := false } := by
  rw [← (quiet_endActiveEntry (.refl s) .waferUnavailable).kept]
  rfl

theorem State.waferState_reviewArrives (s : State) (w v : WaferName) : (s.reviewArrives w).waferState v = s.waferState v :=
  State.waferState_congr (by
    unfold State.reviewArrives State.endActiveEntry
    dsimp only
    split <;> rfl) v

/-- A wafer ON_STAGE reported as arriving: the review record and the transform record name it, with the identity coefficients. -/
theorem State.stageArrived_facts {s : State} {w : WaferName} (hw : s.waferState w = some .onStage) :
    ((s.stageArrived w).waferState w = some .onStage ∨ (s.stageArrived w).waferState w = some .reviewEnded)
    ∧ ∃ k : TransformKept, k.wafer = some w ∧ k.a = 2 ^ 30 ∧ k.b = 0 ∧ k.tx = 0 ∧ k.ty = 0
      ∧ (s.stageArrived w).kept = { s.kept with reviewed := some w, timeoutFlag := false, transform := k } := by
  unfold State.stageArrived State.alignArrives
  generalize hp : ((s.reviewArrives w).setAlign { Align.reset with wafer := some w, state := .provisional }).showTransform = p
  have pw : p.waferState w = some .onStage := by
    rw [← hp, State.waferState_showTransform, State.waferState_setAlign, State.waferState_reviewArrives]; exact hw
  have pk : p.kept = { s.kept with
      reviewed := some w, timeoutFlag := false, transform := ({ Align.reset with wafer := some w } : Align).kept } := by
    rw [← hp, State.kept_showTransform, State.kept_setAlign, State.kept_reviewArrives]; rfl
  have pa : p.align = { Align.reset with wafer := some w, state := .provisional } := by
    rw [← hp, State.showTransform_align, State.setAlign_align]
  obtain ⟨a, a1, a2, a3, a4, a5, _, q⟩ := p.beginMark_eq 1
  rw [pa] at a1 a2 a3 a4 a5
  refine ⟨q.onStage (by rw [State.waferState_setAlign]; exact pw), a.kept, a1, a2, a3, a4, a5, ?_⟩
  rw [q.kept, State.kept_setAlign, pk]

/-! ## Orphaned wafers (R38) -/

theorem State.orphan_figures (s : State) (w : WaferName) (x : Wafer) :
    ∃ u : State, u = (if x.state = .onStage then (s.handDuration w (s.clock - x.startClock)).handMapFigures w else s)
      ∧ u.handling = s.handling ∧ u.kept = s.kept ∧ u.scratch = s.scratch ∧ u.anchor = s.anchor ∧ u.lots = s.lots := by
  refine ⟨_, rfl, ?_⟩
  split
  · refine ⟨rfl, ?_, rfl, rfl, rfl⟩
    unfold State.handMapFigures State.handDuration
    dsimp only
    rw [State.kept_enter, State.kept_enter]
    · exact fun _ => rfl
    · exact fun _ => rfl
  · exact ⟨rfl, rfl, rfl, rfl, rfl⟩

theorem State.orphan_same (s : State) (w : WaferName) : (s.orphan w).handling = s.handling ∧ (s.orphan w).kept = s.kept
    ∧ (s.orphan w).scratch = s.scratch ∧ (s.orphan w).anchor = s.anchor ∧ ∀ k, ((s.orphan w).lot k).state = (s.lot k).state := by
  have hl : ∀ (s : State) (f : Wafer → Wafer) (k : Slot), ((s.modWafer w f).lot k).state = (s.lot k).state := by
    intro s f k
    obtain ⟨j, n⟩ := w
    cases j <;> cases k <;> rfl
  unfold State.orphan State.setWaferState
  cases hx : s.wafer w with
  | none => exact ⟨rfl, rfl, rfl, rfl, fun _ => rfl⟩
  | some x =>
    dsimp only
    split
    · obtain ⟨u, hu, h1, h2, h3, h4, h5⟩ := s.orphan_figures w x
      rw [← hu]
      refine ⟨h1, ?_, h3, h4, fun k => ?_⟩
      · rw [State.kept_writeFinal, State.kept_modWafer, h2]
      · refine ((hl _ _ k).trans (hl u _ k)).trans ?_
        simp only [State.lot, h5]
    · exact ⟨rfl, rfl, rfl, rfl, fun _ => rfl⟩

theorem State.waferState_orphan (s : State) (w v : WaferName) :
    (s.orphan w).waferState v = if v = w then (s.waferState v).map (fun st => if st.isOutside then .orphaned else st) else s.waferState v := by
  have hset : ∀ (s : State) (st : WaferState), (s.modWafer w fun x => { x with state := st }).waferState v
      = if v = w then (s.waferState v).map (fun _ => st) else s.waferState v := by
    intro s st
    rw [State.waferState_modWafer]
    split
    · simp only [State.waferState, Option.map_map]; rfl
    · rfl
  have hw : ∀ (s : State) (r : FinalResult), (s.writeFinal w r).waferState v = s.waferState v := fun s r => by
    refine (State.waferState_congr (s := s.modWafer w fun x => { x with finalResult := r }) rfl v).trans ?_
    rw [State.waferState_modWafer_of]
    exact fun _ => rfl
  unfold State.orphan State.setWaferState
  cases hx : s.wafer w with
  | none =>
    dsimp only
    split
    · rename_i h; subst h; simp [State.waferState, hx]
    · rfl
  | some x =>
    dsimp only
    split
    · rename_i ho
      obtain ⟨u, hu, h1, h2, h3, h4, h5⟩ := s.orphan_figures w x
      rw [← hu, hw, hset, State.waferState_congr h5]
      split
      · rename_i h; subst h; simp [State.waferState, hx, ho]
      · rfl
    · rename_i ho
      split
      · rename_i h; subst h; simp [State.waferState, hx, ho]
      · rfl

theorem State.orphans (k : Slot) (l : List Nat) : ∀ s : State,
    (∀ n ∈ l, (l.foldl (fun s n => s.orphan ⟨k, n⟩) s).waferState ⟨k, n⟩
      = (s.waferState ⟨k, n⟩).map (fun st => if st.isOutside then .orphaned else st))
    ∧ (∀ v : WaferName, (v.slot = k → v.n ∉ l) → (l.foldl (fun s n => s.orphan ⟨k, n⟩) s).waferState v = s.waferState v)
    ∧ (l.foldl (fun s n => s.orphan ⟨k, n⟩) s).handling = s.handling
    ∧ (l.foldl (fun s n => s.orphan ⟨k, n⟩) s).kept = s.kept
    ∧ (l.foldl (fun s n => s.orphan ⟨k, n⟩) s).scratch = s.scratch
    ∧ (l.foldl (fun s n => s.orphan ⟨k, n⟩) s).anchor = s.anchor
    ∧ ∀ j, ((l.foldl (fun s n => s.orphan ⟨k, n⟩) s).lot j).state = (s.lot j).state := by
  induction l with
  | nil => intro s; exact ⟨fun n hn => by simp at hn, fun _ _ => rfl, rfl, rfl, rfl, rfl, fun _ => rfl⟩
  | cons m l ih =>
    intro s
    obtain ⟨a, b, c, d, e, f, g⟩ := ih (s.orphan ⟨k, m⟩)
    obtain ⟨c', d', e', f', g'⟩ := s.orphan_same ⟨k, m⟩
    rw [List.foldl_cons]
    refine ⟨fun n hn => ?_, fun v hv => ?_, c.trans c', d.trans d', e.trans e', f.trans f', fun j => (g j).trans (g' j)⟩
    · by_cases hm : n ∈ l
      · rw [a n hm, State.waferState_orphan]
        by_cases h : n = m
        · subst h
          rw [if_pos rfl]
          cases s.waferState ⟨k, n⟩ with
          | none => rfl
          | some st => cases st <;> rfl
        · rw [if_neg (by simpa using h)]
      · have h : n = m := by simpa [hm] using hn
        subst h
        rw [b ⟨k, n⟩ (fun _ => hm), State.waferState_orphan, if_pos rfl]
    · rw [b v (fun h hm => hv h (List.mem_cons_of_mem _ hm)), State.waferState_orphan, if_neg]
      intro h
      subst h
      exact hv rfl List.mem_cons_self

/-! ## A halt (R28) -/

theorem State.halt_facts (s : State) : s.halt.handling.carrierMap = s.handling.carrierMap
    ∧ s.halt.handling.mapRequest = s.handling.mapRequest
    ∧ (s.handling.state ∈ [.idle, .busy, .hold] → s.halt.handling = { s.handling with state := .halted, haltMark := false })
    ∧ (s.handling.state ∈ [.idle, .busy, .hold] → s.anchor.attach = .attached → s.halt.notice.pending.getLsbD 4 = true)
    ∧ News s s.halt := by
  have hn : ∀ (s : State) (h : Handling), News s ((s.setHandling h).raise .handlingHalt) := fun s h =>
    News.trans (t := s.setHandling h) (.same rfl rfl) (quiet_raise (.refl _) _).news
  have hr : ∀ (s : State) (h : Handling), ((s.setHandling h).raise .handlingHalt).handling = h := by
    intro s h; unfold State.raise; split <;> rfl
  have hp : ∀ (s : State) (h : Handling), s.anchor.attach = .attached →
      ((s.setHandling h).raise .handlingHalt).notice.pending.getLsbD 4 = true := by
    intro s h ha
    rw [State.raise_of (s := s.setHandling h) (.inl ha)]
    show (s.notice.pending ||| 1#32 <<< 4).getLsbD 4 = true
    simp
  unfold State.halt State.enterHalted
  split
  case h_1 h | h_2 h | h_3 h =>
    rw [hr]
    exact ⟨rfl, rfl, fun _ => rfl, fun _ ha => hp _ _ ha, hn _ _⟩
  case h_4 h => rw [h]; exact ⟨rfl, rfl, fun hm => by simp at hm, fun hm => by simp at hm, .same rfl rfl⟩
  case h_5 h | h_6 h => rw [h]; exact ⟨rfl, rfl, fun hm => by simp at hm, fun hm => by simp at hm, .refl s⟩

end Sys2Proof.Machine
end

