-- ==== Sys2Proof/Laws/Entries.lean ====
section
/-! SUPPORT. Defect entries and report rows read after the operations that change them, and how a wafer's review ends. -/

namespace Sys2Proof.Machine

/-! ## Records found after a change -/

/-- A change of entries that leaves their names. -/
def KeepsName (f : Entry → Entry) : Prop := ∀ e, (f e).slot = e.slot ∧ (f e).index = e.index

theorem find_modified {l : List Entry} {k : Slot} {i : Nat} {f : Entry → Entry} (hf : KeepsName f) :
    ((l.map fun e => if e.is k i then f e else e).find? fun e => e.is k i) = (l.find? fun e => e.is k i).map f := by
  induction l with
  | nil => rfl
  | cons a l ih =>
    rw [List.map_cons, List.find?_cons, List.find?_cons]
    cases ha : a.is k i with
    | true =>
      have : (f a).is k i = true := by unfold Entry.is at ha ⊢; rw [(hf a).1, (hf a).2]; exact ha
      simp [this]
    | false => simpa [ha] using ih

theorem State.entry_modEntry (s : State) (k : Slot) (i : Nat) {f : Entry → Entry} (hf : KeepsName f) :
    (s.modEntry k i f).entry k i = (s.entry k i).map f := by
  show ((s.revisit.posting.map _).find? _).or ((s.revisit.store.map _).find? _) = _
  rw [find_modified hf, find_modified hf]
  unfold State.entry
  cases s.revisit.posting.find? fun e => e.is k i <;> rfl

theorem State.storeEntry_modEntry (s : State) (k : Slot) (i : Nat) {f : Entry → Entry} (hf : KeepsName f) :
    (s.modEntry k i f).storeEntry k i = (s.storeEntry k i).map f := find_modified hf

theorem State.entry_is {s : State} {k : Slot} {i : Nat} {e : Entry} (he : s.entry k i = some e) : e.slot = k ∧ e.index = i := by
  unfold State.entry at he
  rw [Option.or_eq_some_iff] at he
  have : e.is k i = true := by
    rcases he with h | ⟨_, h⟩
    · exact List.find?_some (p := fun e : Entry => e.is k i) h
    · exact List.find?_some (p := fun e : Entry => e.is k i) h
  simpa [Entry.is] using this

theorem State.storeEntry_is {s : State} {k : Slot} {i : Nat} {e : Entry} (he : s.storeEntry k i = some e) : e.slot = k ∧ e.index = i := by
  have : e.is k i = true := List.find?_some (p := fun e : Entry => e.is k i) he
  simpa [Entry.is] using this

theorem State.storeEntry_mem {s : State} {k : Slot} {i : Nat} {e : Entry} (he : s.storeEntry k i = some e) : e ∈ s.revisit.store :=
  List.mem_of_find?_eq_some he

/-! ## Rows read after a change (R160, R163) -/

theorem State.row_modRow (s : State) (w v : WaferName) (f : Row → Row) :
    (s.modRow w f).row v = if v = w then (s.row v).map f else s.row v := by
  obtain ⟨k, n⟩ := w
  obtain ⟨j, m⟩ := v
  have : (s.modRow ⟨k, n⟩ f).report j = if j = k then { s.report k with rows := modAt (s.report k).rows n f } else s.report j := by
    cases k <;> cases j <;> rfl
  unfold State.row
  rw [this]
  simp only [WaferName.mk.injEq]
  by_cases hj : j = k
  · subst hj
    simp only [if_true, true_and, getAt_modAt]
  · simp [hj]

theorem State.row_enter (s : State) (w v : WaferName) (f : Row → Row) :
    (s.enter w f).row v = if v = w then (s.row v).map (fun r => if r.state = .opened then f r else r) else s.row v :=
  s.row_modRow w v _

/-- What is kept of a row is kept of it by position. -/
theorem State.row_kept {s t : State} (h : t.kept = s.kept) (w : WaferName) : (t.row w).map (·.kept) = (s.row w).map (·.kept) := by
  have e := congrArg ReportKept.rows (State.report_kept h w.slot)
  have g : ∀ (l : List Row) (n : Nat), (getAt l n).map (·.kept) = getAt (l.map (·.kept)) n := by
    intro l n; cases n <;> simp [getAt]
  unfold State.row
  rw [g, g]
  exact congrArg (fun l => getAt l w.n) e

/-! ## The end of a wafer's review (R11, R80, R151) -/

theorem State.toReviewEnded_onStage {s : State} {w : WaferName} (hw : s.waferState w = some .onStage) :
    (s.toReviewEnded w).waferState w = some .reviewEnded := by
  unfold State.toReviewEnded
  cases hx : s.wafer w with
  | none => unfold State.waferState at hw; rw [hx] at hw; cases hw
  | some x =>
    have hxs : x.state = .onStage := by unfold State.waferState at hw; rw [hx] at hw; simpa using hw
    dsimp only
    rw [if_pos hxs]
    generalize hg : (s.modWafer w fun x => { x with state := .reviewEnded, endClock := s.clock }) = g
    have gw : g.waferState w = some .reviewEnded := by
      rw [← hg, State.waferState_modWafer, if_pos rfl, hx]; rfl
    have q := quiet_endQueued (quiet_handMapFigures (quiet_handDuration (.refl g) w (g.clock - x.startClock)) w) w .waferUnavailable
    rw [q.waferState_eq _ (by rw [gw]; decide), gw]

/-- A normal end: the review is ENDED, and a wafer ON_STAGE is REVIEW_ENDED. -/
theorem State.normalEnd_facts (s : State) (w : WaferName) : (s.normalEnd w).revisit.review = .ended
    ∧ (s.waferState w = some .onStage → (s.normalEnd w).waferState w = some .reviewEnded) := by
  generalize hc : (s.endReview.modWafer w fun x => { x with pendingResult := some .reviewed }) = c
  have e : ∀ late, Quiet (c.toReviewEnded w) (((c.toReviewEnded w).enter w fun r => { r with postingTimeout := late }).requestLoad
      .loadForReview) := fun late =>
    quiet_requestLoad (quiet_enter (.refl (c.toReviewEnded w)) w (f := fun r => { r with postingTimeout := late }) fun _ => rfl) _
  have cr : c.revisit.review = .ended := by
    rw [← hc]; show s.endReview.revisit.review = _; rfl
  have q : Quiet (c.toReviewEnded w) (s.normalEnd w) := by unfold State.normalEnd; dsimp only; rw [hc]; exact e _
  refine ⟨((quiet_toReviewEnded (.refl c) w).trans q).ended cr, fun hw => ?_⟩
  have cw : c.waferState w = some .onStage := by
    rw [← hc, State.waferState_modWafer_of]
    · exact hw
    · exact fun _ => rfl
  have := State.toReviewEnded_onStage cw
  rw [q.waferState_eq _ (by rw [this]; decide), this]

/-- An alignment failure of the record's wafer: its notice, and a wafer ON_STAGE is REVIEW_ENDED. -/
theorem State.alignFail_facts {s : State} {w : WaferName} (hw : s.align.wafer = some w) (why : AlignReason) :
    (s.anchor.attach = .attached → (s.alignFail why).notice.pending.getLsbD 3 = true)
    ∧ (s.waferState w = some .onStage → (s.alignFail why).waferState w = some .reviewEnded) := by
  unfold State.alignFail
  rw [hw]
  dsimp only
  generalize ha : (s.setAlign { s.align with state := .failed, reason := why, xyReq := none, zReq := none }) = a
  generalize hb : (a.modWafer w fun x => { x with pendingResult := some .alignFailed }) = b
  generalize hd : b.endQueued w .alignFail = d
  generalize hg : (if d.revisit.wafer = some w ∧ d.revisit.review.inProgress = true then d.endReview else d) = g
  have hq : Quiet a g := by
    rw [← hg, ← hd, ← hb]
    have h := quiet_endQueued (quiet_modWafer (.refl a) w (f := fun x => { x with pendingResult := some .alignFailed })
      fun _ _ => .inl rfl) w .alignFail
    split
    · exact quiet_endReview h
    · exact h
  have attach : g.anchor.attach = s.anchor.attach := by
    have : g.anchor = a.anchor := congrArg Kept.anchor hq.kept
    rw [this, ← ha]; unfold State.setAlign; dsimp only; split <;> rfl
  constructor
  · intro hat
    have n := (quiet_requestLoad (.refl ((g.toReviewEnded w).raise .alignFail)) .loadForReview).news
    refine n.noticed 3 ?_
    have : (g.toReviewEnded w).anchor.attach = .attached := by
      have : (g.toReviewEnded w).anchor = g.anchor := congrArg Kept.anchor (quiet_toReviewEnded (.refl g) w).kept
      rw [this, attach]; exact hat
    rw [State.raise_of (.inl this)]
    show (_ ||| 1#32 <<< 3).getLsbD 3 = true
    simp
  · intro hs
    have aw : a.waferState w = some .onStage := by rw [← ha, State.waferState_setAlign]; exact hs
    have bw : b.waferState w = some .onStage := by
      rw [← hb, State.waferState_modWafer_of]
      · exact aw
      · exact fun _ => rfl
    have fin : ∀ u : State, u.waferState w = some .reviewEnded →
        ((u.raise .alignFail).requestLoad .loadForReview).waferState w = some .reviewEnded := fun u hu => by
      have q := quiet_requestLoad (quiet_raise (.refl u) .alignFail) .loadForReview
      rw [q.waferState_eq _ (by rw [hu]; decide), hu]
    rcases hq.onStage aw with h | h
    · exact fin _ (State.toReviewEnded_onStage h)
    · refine fin _ ?_
      have q := quiet_toReviewEnded (.refl g) w
      rw [q.waferState_eq _ (by rw [h]; decide), h]

end Sys2Proof.Machine
end

