-- ==== Sys2Proof/Laws/Lots.lean ====
section
/-! SUPPORT. Lots built, released and ended: the wafer table and report of a start fetch, the records kept at a release, and an
ABORTING lot's end. -/

namespace Sys2Proof.Machine

/-- Records kept change the write-back record alone. -/
theorem keep_fold (l : List RecId) : ∀ s : State, l.foldl State.keep s = { s with wb := (l.foldl State.keep s).wb } := by
  induction l with
  | nil => intro s; rfl
  | cons a l ih =>
    intro s
    have h : s.keep a = { s with wb := (s.keep a).wb } := by unfold State.keep; split <;> rfl
    rw [List.foldl_cons, ih (s.keep a), h]

/-- The version marks of records change the write-back record and the scratch alone. -/
structure SameRec (s t : State) : Prop where
  lots : t.lots = s.lots
  reports : t.reports = s.reports
  clock : t.clock = s.clock
  mport : t.mport = s.mport
  mapRequest : t.handling.mapRequest = s.handling.mapRequest
  mapper : t.handling.mapper = s.handling.mapper

theorem SameRec.trans {s t u} (h : SameRec s t) (g : SameRec t u) : SameRec s u := ⟨g.1.trans h.1, g.2.trans h.2, g.3.trans h.3, g.4.trans h.4, g.5.trans h.5, g.6.trans h.6⟩

/-- The carrier slots named and the versions set, one wafer after another (R7, R10). -/
theorem buildFold (k : Slot) (got : List (FetchItem × Word)) (l : List Nat) : ∀ s : State,
    let t := l.foldl (fun s n =>
      let s := if selectedOf got n then s.setAt (.carrier k n) (.wafer ⟨k, n⟩) else s
      (s.setVersion (.waferEntry k n) (fetchedWord got (.entryVersion n) + 1)).writeWhole (.waferEntry k n)) s
    SameRec s t ∧ (∀ n ∈ l, selectedOf got n = true → s.hasPlace (.carrier k n) → t.at (.carrier k n) = .wafer ⟨k, n⟩)
    ∧ ∀ l', (∀ n ∈ l, l' ≠ .carrier k n) → t.at l' = s.at l' := by
  induction l with
  | nil => intro s; exact ⟨⟨rfl, rfl, rfl, rfl, rfl, rfl⟩, fun n hn => by simp at hn, fun _ _ => rfl⟩
  | cons m l ih =>
    intro s
    obtain ⟨u, hu⟩ : ∃ u, u = (((if selectedOf got m then s.setAt (.carrier k m) (.wafer ⟨k, m⟩) else s).setVersion (.waferEntry k m) (fetchedWord got (.entryVersion m) + 1)).writeWhole (.waferEntry k m)) := ⟨_, rfl⟩
    have hs : SameRec s u := by rw [hu]; split <;> exact ⟨rfl, rfl, rfl, rfl, rfl, rfl⟩
    have hat : ∀ l', u.at l' = (if selectedOf got m then s.setAt (.carrier k m) (.wafer ⟨k, m⟩) else s).at l' := by
      intro l'; rw [hu]; rfl
    have hpl : ∀ l', u.hasPlace l' ↔ s.hasPlace l' := by
      intro l'
      have : u.hasPlace l' ↔ (if selectedOf got m then s.setAt (.carrier k m) (.wafer ⟨k, m⟩) else s).hasPlace l' := by
        rw [hu]; cases l' <;> exact Iff.rfl
      rw [this]
      split
      · exact s.hasPlace_setAt _ _ _
      · exact Iff.rfl
    obtain ⟨a, b, c⟩ := ih u
    dsimp only at a b c ⊢
    rw [List.foldl_cons, ← hu]
    refine ⟨hs.trans a, fun n hn hsel hp => ?_, fun l' hl => ?_⟩
    · by_cases hl : n ∈ l
      · exact b n hl hsel ((hpl _).mpr hp)
      · have hnm : n = m := by simpa [hl] using hn
        subst hnm
        rw [c _ (fun q hq e => hl (by injection e with _ e; rw [e]; exact hq)), hat, if_pos hsel, State.at_setAt hp]
    · rw [c l' (fun n hn => hl n (List.mem_cons_of_mem _ hn)), hat]
      split
      · exact State.at_setAt_ne (hl m List.mem_cons_self) _
      · rfl

theorem rowFold (k : Slot) (got : List (FetchItem × Word)) (l : List Nat) : ∀ s : State,
    l.foldl (fun s n => (s.setVersion (.reportRow k n) (fetchedWord got (.rowVersion n) + 1)).writeWhole (.reportRow k n)) s
      = { s with
          wb := (l.foldl (fun s n => (s.setVersion (.reportRow k n) (fetchedWord got (.rowVersion n) + 1)).writeWhole (.reportRow k n)) s).wb
          scratch := (l.foldl (fun s n => (s.setVersion (.reportRow k n) (fetchedWord got (.rowVersion n) + 1)).writeWhole (.reportRow k n)) s).scratch } := by
  induction l with
  | nil => intro s; rfl
  | cons a l ih => intro s; rw [List.foldl_cons, ih]; rfl

/-- The table and the report built for a slot. -/
theorem build_facts (s : State) (k : Slot) (got : List (FetchItem × Word)) (ab : Bool) :
    let t := (s.buildWafers k got ab).openReport k got ab
    t.lots = s.lots.set k { s.lot k with wafers := slots25.map fun n => Wafer.fresh (selectedOf got n) ab }
    ∧ (t.report k).rows = slots25.map (fun n => Row.fresh (Wafer.fresh (selectedOf got n) ab).finalResult) ∧ (t.report k).startClock = s.clock
    ∧ t.handling.mapRequest = s.handling.mapRequest ∧ t.mport = s.mport
    ∧ (∀ n, 1 ≤ n → n ≤ 25 → selectedOf got n = true → s.hasPlace (.carrier k n) → t.at (.carrier k n) = .wafer ⟨k, n⟩) := by
  dsimp only
  have hb := buildFold k got slots25 (s.modLot k fun l => { l with wafers := slots25.map fun n => Wafer.fresh (selectedOf got n) ab })
  dsimp only at hb
  obtain ⟨b, hbd⟩ : ∃ b, b = s.buildWafers k got ab := ⟨_, rfl⟩
  unfold State.buildWafers at hbd
  dsimp only at hbd
  rw [← hbd] at hb
  have hb' : b = s.buildWafers k got ab := hbd
  rw [← hb']
  obtain ⟨h1, h2, h3⟩ := hb
  unfold State.openReport
  dsimp only
  rw [rowFold]
  refine ⟨?_, ?_, ?_, ?_, ?_, ?_⟩
  · exact h1.lots
  · cases k <;> rfl
  · cases k <;> exact h1.clock
  · exact h1.mapRequest
  · exact h1.mport
  · intro n g1 g2 hsel hp
    refine Eq.trans ?_ (h2 n (mem_slots25.mpr ⟨g1, g2⟩) hsel hp)
    rfl

theorem getAt_slots25 {β : Type} (f : Nat → β) {n : Nat} (h1 : 1 ≤ n) (h2 : n ≤ 25) : getAt (slots25.map f) n = some (f n) := by
  obtain ⟨m, rfl⟩ := Nat.exists_eq_add_of_le' h1
  have : slots25[m]? = some (m + 1) := by
    simp only [slots25, List.getElem?_map, List.getElem?_range (show m < 25 by omega)]; rfl
  simp [getAt, this]

/-- A lot that ends ABORTED at the next look at the lot states (R16). -/
def Ending (k : Slot) (d : State) : Prop :=
  (d.lot k).state = .aborted ∨ ((d.lot k).state = .aborting ∧ (d.lot k).fetch = none ∧ (d.lot k).anyOutside = false)

theorem Ending.quiet {k : Slot} {d t : State} (h : Ending k d) (q : Quiet d t) : Ending k t := by
  have hst : (d.lot k).state.mayBecome (t.lot k).state = true := (q.lots k).state
  rcases h with h | ⟨h1, h2, h3⟩
  · left; rw [h] at hst; revert hst; cases (t.lot k).state <;> simp [LotState.mayBecome]
  · rw [h1] at hst
    have h2' : (t.lot k).fetch = none := by
      have := congrArg LotKept.fetch (State.lot_kept q.kept k)
      exact this.trans h2
    have hw : (t.lot k).wafers.map (·.state) = (d.lot k).wafers.map (·.state) := by
      apply List.ext_getElem?
      intro i
      have hn : ((d.lot k).wafers[i]?).map (·.state) ≠ some .onStage := by
        intro hc
        rw [Option.map_eq_some_iff] at hc
        obtain ⟨x, hx, hs⟩ := hc
        have := List.any_eq_false.mp h3 x (List.mem_of_getElem? hx)
        rw [hs] at this; exact this rfl
      have := (q.lots k).waferState (i + 1) hn
      simpa [getAt, State.lot] using this
    have h3' : (t.lot k).anyOutside = false := by
      have e : ∀ l : List Wafer, (l.any fun x => x.state.isOutside) = (l.map (·.state)).any WaferState.isOutside := by intro l; simp [List.any_map]; rfl
      have h3'' : ((d.lot k).wafers.any fun x => x.state.isOutside) = false := h3
      show ((t.lot k).wafers.any fun x => x.state.isOutside) = false
      rw [e, hw, ← e]; exact h3''
    revert hst
    cases hs : (t.lot k).state <;> simp [LotState.mayBecome]
    · exact .inr ⟨hs, h2', h3'⟩
    · exact .inl hs

theorem closeReport_lots (s : State) (k : Slot) : (s.closeReport k).lots = s.lots := by
  have hr : ∀ (l : List Nat) (s : State), (l.foldl (fun s n => s.closeRow ⟨k, n⟩) s).lots = s.lots := by
    intro l
    induction l with
    | nil => intro s; rfl
    | cons a l ih =>
      intro s
      rw [List.foldl_cons, ih]
      unfold State.closeRow
      split <;> rfl
  unfold State.closeReport
  dsimp only
  have : ∀ (s : State) (n : NoticeKind), (s.raise n).lots = s.lots := by intro s n; unfold State.raise; split <;> rfl
  rw [this, this]
  exact hr slots25 s

theorem Ending.change {k : Slot} {d : State} (h : Ending k d) : ((d.lotChange k).lot k).state = .aborted := by
  unfold State.lotChange
  dsimp only
  rcases h with h | ⟨h1, h2, h3⟩
  · rw [h]; exact h
  · rw [h1]
    dsimp only
    rw [if_pos ⟨h2, h3⟩, State.lot, closeReport_lots]
    cases k <;> rfl

theorem ended_settle {k : Slot} {d : State} (h : Ending k d) : (d.settle.lot k).state = .aborted := by
  have keep : ∀ {s t : State}, (s.lot k).state = .aborted → Quiet s t → (t.lot k).state = .aborted := by
    intro s t hs q
    have := (q.lots k).state
    rw [show (s.lots.get k).state = .aborted from hs] at this
    show (t.lots.get k).state = .aborted
    revert this; cases (t.lots.get k).state <;> simp [LotState.mayBecome]
  have h1 : Ending k d.drain := h.quiet (quiet_drain (.refl d))
  have h2 : ((d.drain.lotPass).lot k).state = .aborted := by
    unfold State.lotPass
    rw [show List.range 4 = 0 :: [1, 2, 3] from rfl, List.foldl_cons]
    have h3 : ((((d.drain).lotChange .zero).lotChange .one).lot k).state = .aborted := by
      cases k
      · exact keep h1.change (quiet_lotChange (.refl _) _)
      · exact (h1.quiet (quiet_lotChange (.refl _) .zero)).change
    exact keep h3 (foldl_quiet (fun _ _ _ q => quiet_lotChange (quiet_lotChange q _) _) _ (.refl _))
  exact keep h2 (quiet_drain (quiet_sends (.refl _)))

end Sys2Proof.Machine
end

