-- ==== Sys2Proof/WellFormed.lean ====
section
/-! DEFINITION. Which operands a command can carry: the ranges the spec gives wafer slots, entry indices, words and MAP results. -/

namespace Sys2Proof

/-- A wafer slot is 1..25 (R1, R10). -/
def waferInRange (n : Nat) : Bool := decide (1 ≤ n ∧ n ≤ 25)

/-- A defect array holds at most 4096 entries (R175). -/
def entryInRange (i : Nat) : Bool := decide (i < 4096)

/-- The HOST words of a defect entry that DEFECT_HOST_WRITE names: all but the class code (5) and the control word (6), which
have rows of their own (R116, 11_memory_formats.md). -/
def defectHostWord (w : Nat) : Bool := decide (w < 5 ∨ w = 7)

/-- A record of R178's table, with its number in range. -/
def RecId.wellFormed : RecId → Bool
  | .lotHeader _ | .reportHeader _ => true
  | .waferEntry _ n | .reportRow _ n => waferInRange n
  | .defectEntry _ i => entryInRange i

def Instr.wellFormed : Instr → Bool
  | .post _ i _ | .withdraw _ i _ | .classWrite _ i _ _ => entryInRange i
  | .postingClose _ n _ | .rowClose _ n _ => waferInRange n
  | .classTableWrite w _ _ => decide (w < 64)
  | .defectHostWrite _ i w _ _ => entryInRange i && defectHostWord w
  | .recordWrittenBack id => id.wellFormed
  | .mapDone _ _ results => decide (results.length = 25)
  | .hardwareReset .. | .attach _ | .detach _ | .attachLayoutReadDone | .detachComplete | .start .. | .abort .. | .release ..
  | .startFetchReadDone | .resume _ | .inventory _ | .home _ | .noticeClear .. | .noticeMaskWrite .. | .pPortWrite ..
  | .heldAccessRelease | .postVersionReadDone | .fillReadDone | .classTableFetchReadDone | .pPortAccessServed
  | .writeQueueWordWritten | .writerMove | .interlockOpen | .interlockClose | .carrierLoss _ | .carrierPresent _ | .pickDone _
  | .placeDone _ | .inventoryDone .. | .prealignDone _ | .handlerFault .. | .handlerOrderTimeout _ | .arrived _ | .homed _
  | .motionLinkFault .. | .markResult .. | .motionOrderTimeout _ | .settleTimerExpiry _ | .grabDone .. | .grabFault .. | .grabTimeout
  | .sensorWord .. | .silenceTimerExpiry | .autofocusTimerExpiry | .postingWaitExpiry => true

end Sys2Proof
end

