-- ==== Sys2Proof/Laws/PerInstr.lean ====
section
/-! SUPPORT. Of every command: it is well formed exactly when each wafer slot, entry index and word number it carries is in the range
the spec gives that operand, and a MAP reply has its 25 results. -/

namespace Sys2Proof

/-- The wafer slot a command names. -/
def Instr.waferNumber : Instr → Option Nat
  | .postingClose _ n _ | .rowClose _ n _ => some n
  | .recordWrittenBack (.waferEntry _ n) | .recordWrittenBack (.reportRow _ n) => some n
  | _ => none

/-- The index of the defect entry a command names. -/
def Instr.entryIndex : Instr → Option Nat
  | .post _ i _ | .withdraw _ i _ | .classWrite _ i _ _ | .defectHostWrite _ i _ _ _ => some i
  | .recordWrittenBack (.defectEntry _ i) => some i
  | _ => none

/-- The word of a defect entry that a command writes by number. -/
def Instr.entryWord : Instr → Option Nat
  | .defectHostWrite _ _ w _ _ => some w
  | _ => none

/-- The class-table word a command names. -/
def Instr.tableWord : Instr → Option Nat
  | .classTableWrite w _ _ => some w
  | _ => none

/-- The results a MAP reply carries. -/
def Instr.results : Instr → Option (List MapAnswer)
  | .mapDone _ _ r => some r
  | _ => none

end Sys2Proof

namespace Sys2Proof.Laws.Operands

-- One lemma after another: as many at once as there are commands are more threads than check.sh has stacks for.
set_option Elab.async false

/-- Well formed exactly when every operand is in range: wafer slots 1 to 25 (R1, R10), entries below 4096 (R175), the HOST words 0 to 4
and 7 of a defect entry (R116), table words below 64 (R164), 25 results (R24). -/
def Statement (i : Instr) : Prop :=
  i.wellFormed = true ↔
    (∀ n, i.waferNumber = some n → 1 ≤ n ∧ n ≤ 25) ∧ (∀ e, i.entryIndex = some e → e < 4096)
    ∧ (∀ w, i.entryWord = some w → w < 5 ∨ w = 7) ∧ (∀ w, i.tableWord = some w → w < 64)
    ∧ ∀ r, i.results = some r → r.length = 25

theorem hardwareReset (sel : BitVec 2) (lines : CellLines) : Statement (.hardwareReset sel lines) := by
  simp [Statement, Instr.wellFormed, Instr.waferNumber, Instr.entryIndex, Instr.entryWord, Instr.tableWord, Instr.results]

theorem attach (be : Enables) : Statement (.attach be) := by
  simp [Statement, Instr.wellFormed, Instr.waferNumber, Instr.entryIndex, Instr.entryWord, Instr.tableWord, Instr.results]

theorem detach (be : Enables) : Statement (.detach be) := by
  simp [Statement, Instr.wellFormed, Instr.waferNumber, Instr.entryIndex, Instr.entryWord, Instr.tableWord, Instr.results]

theorem attachLayoutReadDone : Statement .attachLayoutReadDone := by
  simp [Statement, Instr.wellFormed, Instr.waferNumber, Instr.entryIndex, Instr.entryWord, Instr.tableWord, Instr.results]

theorem detachComplete : Statement .detachComplete := by
  simp [Statement, Instr.wellFormed, Instr.waferNumber, Instr.entryIndex, Instr.entryWord, Instr.tableWord, Instr.results]

theorem start (slot : Slot) (be : Enables) : Statement (.start slot be) := by
  simp [Statement, Instr.wellFormed, Instr.waferNumber, Instr.entryIndex, Instr.entryWord, Instr.tableWord, Instr.results]

theorem abort (slot : Slot) (be : Enables) : Statement (.abort slot be) := by
  simp [Statement, Instr.wellFormed, Instr.waferNumber, Instr.entryIndex, Instr.entryWord, Instr.tableWord, Instr.results]

theorem release (slot : Slot) (be : Enables) : Statement (.release slot be) := by
  simp [Statement, Instr.wellFormed, Instr.waferNumber, Instr.entryIndex, Instr.entryWord, Instr.tableWord, Instr.results]

theorem startFetchReadDone : Statement .startFetchReadDone := by
  simp [Statement, Instr.wellFormed, Instr.waferNumber, Instr.entryIndex, Instr.entryWord, Instr.tableWord, Instr.results]

theorem resume (be : Enables) : Statement (.resume be) := by
  simp [Statement, Instr.wellFormed, Instr.waferNumber, Instr.entryIndex, Instr.entryWord, Instr.tableWord, Instr.results]

theorem inventory (be : Enables) : Statement (.inventory be) := by
  simp [Statement, Instr.wellFormed, Instr.waferNumber, Instr.entryIndex, Instr.entryWord, Instr.tableWord, Instr.results]

theorem home (be : Enables) : Statement (.home be) := by
  simp [Statement, Instr.wellFormed, Instr.waferNumber, Instr.entryIndex, Instr.entryWord, Instr.tableWord, Instr.results]

theorem noticeClear (value : Word) (be : Enables) : Statement (.noticeClear value be) := by
  simp [Statement, Instr.wellFormed, Instr.waferNumber, Instr.entryIndex, Instr.entryWord, Instr.tableWord, Instr.results]

theorem noticeMaskWrite (value : Word) (be : Enables) : Statement (.noticeMaskWrite value be) := by
  simp [Statement, Instr.wellFormed, Instr.waferNumber, Instr.entryIndex, Instr.entryWord, Instr.tableWord, Instr.results]

theorem post (slot : Slot) (entry : Nat) (be : Enables) : Statement (.post slot entry be) := by
  simp [Statement, Instr.wellFormed, Instr.waferNumber, Instr.entryIndex, Instr.entryWord, Instr.tableWord, Instr.results, entryInRange]

theorem withdraw (slot : Slot) (entry : Nat) (be : Enables) : Statement (.withdraw slot entry be) := by
  simp [Statement, Instr.wellFormed, Instr.waferNumber, Instr.entryIndex, Instr.entryWord, Instr.tableWord, Instr.results, entryInRange]

theorem postingClose (slot : Slot) (wafer : Nat) (be : Enables) : Statement (.postingClose slot wafer be) := by
  simp [Statement, Instr.wellFormed, Instr.waferNumber, Instr.entryIndex, Instr.entryWord, Instr.tableWord, Instr.results, waferInRange]

theorem rowClose (slot : Slot) (wafer : Nat) (be : Enables) : Statement (.rowClose slot wafer be) := by
  simp [Statement, Instr.wellFormed, Instr.waferNumber, Instr.entryIndex, Instr.entryWord, Instr.tableWord, Instr.results, waferInRange]

theorem classWrite (slot : Slot) (entry : Nat) (value : Word) (be : Enables) : Statement (.classWrite slot entry value be) := by
  simp [Statement, Instr.wellFormed, Instr.waferNumber, Instr.entryIndex, Instr.entryWord, Instr.tableWord, Instr.results, entryInRange]

theorem classTableWrite (word : Nat) (value : Word) (be : Enables) : Statement (.classTableWrite word value be) := by
  simp [Statement, Instr.wellFormed, Instr.waferNumber, Instr.entryIndex, Instr.entryWord, Instr.tableWord, Instr.results]

theorem defectHostWrite (slot : Slot) (entry : Nat) (word : Nat) (value : Word) (be : Enables) : Statement (.defectHostWrite slot entry word value be) := by
  simp [Statement, Instr.wellFormed, Instr.waferNumber, Instr.entryIndex, Instr.entryWord, Instr.tableWord, Instr.results, entryInRange, defectHostWord]

theorem pPortWrite (addr : BitVec 28) (value : Word) (be : Enables) : Statement (.pPortWrite addr value be) := by
  simp [Statement, Instr.wellFormed, Instr.waferNumber, Instr.entryIndex, Instr.entryWord, Instr.tableWord, Instr.results]

theorem heldAccessRelease : Statement .heldAccessRelease := by
  simp [Statement, Instr.wellFormed, Instr.waferNumber, Instr.entryIndex, Instr.entryWord, Instr.tableWord, Instr.results]

theorem postVersionReadDone : Statement .postVersionReadDone := by
  simp [Statement, Instr.wellFormed, Instr.waferNumber, Instr.entryIndex, Instr.entryWord, Instr.tableWord, Instr.results]

theorem fillReadDone : Statement .fillReadDone := by
  simp [Statement, Instr.wellFormed, Instr.waferNumber, Instr.entryIndex, Instr.entryWord, Instr.tableWord, Instr.results]

theorem classTableFetchReadDone : Statement .classTableFetchReadDone := by
  simp [Statement, Instr.wellFormed, Instr.waferNumber, Instr.entryIndex, Instr.entryWord, Instr.tableWord, Instr.results]

theorem pPortAccessServed : Statement .pPortAccessServed := by
  simp [Statement, Instr.wellFormed, Instr.waferNumber, Instr.entryIndex, Instr.entryWord, Instr.tableWord, Instr.results]

theorem writeQueueWordWritten : Statement .writeQueueWordWritten := by
  simp [Statement, Instr.wellFormed, Instr.waferNumber, Instr.entryIndex, Instr.entryWord, Instr.tableWord, Instr.results]

theorem writerMove : Statement .writerMove := by
  simp [Statement, Instr.wellFormed, Instr.waferNumber, Instr.entryIndex, Instr.entryWord, Instr.tableWord, Instr.results]

theorem recordWrittenBack (id : RecId) : Statement (.recordWrittenBack id) := by
  cases id <;> simp [Statement, Instr.wellFormed, Instr.waferNumber, Instr.entryIndex, Instr.entryWord, Instr.tableWord, Instr.results, RecId.wellFormed, entryInRange, waferInRange]

theorem interlockOpen : Statement .interlockOpen := by
  simp [Statement, Instr.wellFormed, Instr.waferNumber, Instr.entryIndex, Instr.entryWord, Instr.tableWord, Instr.results]

theorem interlockClose : Statement .interlockClose := by
  simp [Statement, Instr.wellFormed, Instr.waferNumber, Instr.entryIndex, Instr.entryWord, Instr.tableWord, Instr.results]

theorem carrierLoss (port : Slot) : Statement (.carrierLoss port) := by
  simp [Statement, Instr.wellFormed, Instr.waferNumber, Instr.entryIndex, Instr.entryWord, Instr.tableWord, Instr.results]

theorem carrierPresent (port : Slot) : Statement (.carrierPresent port) := by
  simp [Statement, Instr.wellFormed, Instr.waferNumber, Instr.entryIndex, Instr.entryWord, Instr.tableWord, Instr.results]

theorem pickDone (tag : Tag) : Statement (.pickDone tag) := by
  simp [Statement, Instr.wellFormed, Instr.waferNumber, Instr.entryIndex, Instr.entryWord, Instr.tableWord, Instr.results]

theorem placeDone (tag : Tag) : Statement (.placeDone tag) := by
  simp [Statement, Instr.wellFormed, Instr.waferNumber, Instr.entryIndex, Instr.entryWord, Instr.tableWord, Instr.results]

theorem inventoryDone (tag : Tag) (ua la pa st : Bool) : Statement (.inventoryDone tag ua la pa st) := by
  simp [Statement, Instr.wellFormed, Instr.waferNumber, Instr.entryIndex, Instr.entryWord, Instr.tableWord, Instr.results]

theorem prealignDone (tag : Tag) : Statement (.prealignDone tag) := by
  simp [Statement, Instr.wellFormed, Instr.waferNumber, Instr.entryIndex, Instr.entryWord, Instr.tableWord, Instr.results]

theorem mapDone (port : Slot) (tag : Tag) (results : List MapAnswer) : Statement (.mapDone port tag results) := by
  simp [Statement, Instr.wellFormed, Instr.waferNumber, Instr.entryIndex, Instr.entryWord, Instr.tableWord, Instr.results]

theorem handlerFault (unit : HandlerUnit) (tag : Tag) (code : HandlerFaultCode) : Statement (.handlerFault unit tag code) := by
  simp [Statement, Instr.wellFormed, Instr.waferNumber, Instr.entryIndex, Instr.entryWord, Instr.tableWord, Instr.results]

theorem handlerOrderTimeout (unit : HandlerUnit) : Statement (.handlerOrderTimeout unit) := by
  simp [Statement, Instr.wellFormed, Instr.waferNumber, Instr.entryIndex, Instr.entryWord, Instr.tableWord, Instr.results]

theorem arrived (tag : Tag) : Statement (.arrived tag) := by
  simp [Statement, Instr.wellFormed, Instr.waferNumber, Instr.entryIndex, Instr.entryWord, Instr.tableWord, Instr.results]

theorem homed (tag : Tag) : Statement (.homed tag) := by
  simp [Statement, Instr.wellFormed, Instr.waferNumber, Instr.entryIndex, Instr.entryWord, Instr.tableWord, Instr.results]

theorem motionLinkFault (tag : Tag) (code : MotionFaultCode) : Statement (.motionLinkFault tag code) := by
  simp [Statement, Instr.wellFormed, Instr.waferNumber, Instr.entryIndex, Instr.entryWord, Instr.tableWord, Instr.results]

theorem motionOrderTimeout (group : MotionGroup) : Statement (.motionOrderTimeout group) := by
  simp [Statement, Instr.wellFormed, Instr.waferNumber, Instr.entryIndex, Instr.entryWord, Instr.tableWord, Instr.results]

theorem settleTimerExpiry (group : MotionGroup) : Statement (.settleTimerExpiry group) := by
  simp [Statement, Instr.wellFormed, Instr.waferNumber, Instr.entryIndex, Instr.entryWord, Instr.tableWord, Instr.results]

theorem markResult (tag : Tag) (found : Bool) (ox oy : Int) : Statement (.markResult tag found ox oy) := by
  simp [Statement, Instr.wellFormed, Instr.waferNumber, Instr.entryIndex, Instr.entryWord, Instr.tableWord, Instr.results]

theorem grabDone (tag : Tag) (first : Word) (frames : Word) : Statement (.grabDone tag first frames) := by
  simp [Statement, Instr.wellFormed, Instr.waferNumber, Instr.entryIndex, Instr.entryWord, Instr.tableWord, Instr.results]

theorem grabFault (tag : Tag) (code : Word) : Statement (.grabFault tag code) := by
  simp [Statement, Instr.wellFormed, Instr.waferNumber, Instr.entryIndex, Instr.entryWord, Instr.tableWord, Instr.results]

theorem grabTimeout : Statement .grabTimeout := by
  simp [Statement, Instr.wellFormed, Instr.waferNumber, Instr.entryIndex, Instr.entryWord, Instr.tableWord, Instr.results]

theorem sensorWord (sample : BitVec 16) (mark : Bool) (parity : Bool) : Statement (.sensorWord sample mark parity) := by
  simp [Statement, Instr.wellFormed, Instr.waferNumber, Instr.entryIndex, Instr.entryWord, Instr.tableWord, Instr.results]

theorem silenceTimerExpiry : Statement .silenceTimerExpiry := by
  simp [Statement, Instr.wellFormed, Instr.waferNumber, Instr.entryIndex, Instr.entryWord, Instr.tableWord, Instr.results]

theorem autofocusTimerExpiry : Statement .autofocusTimerExpiry := by
  simp [Statement, Instr.wellFormed, Instr.waferNumber, Instr.entryIndex, Instr.entryWord, Instr.tableWord, Instr.results]

theorem postingWaitExpiry : Statement .postingWaitExpiry := by
  simp [Statement, Instr.wellFormed, Instr.waferNumber, Instr.entryIndex, Instr.entryWord, Instr.tableWord, Instr.results]

end Sys2Proof.Laws.Operands
end

