-- ==== Sys2Proof/Tests/Slice0.lean ====
section
/-! SUPPORT. Tests: ill-formed commands refused, worked figures of the spec, single steps on small states, and for each statement of
Obligations.lean a state and operands that meet its hypotheses. -/

namespace Sys2Proof.Tests

open Sys2Proof Sys2Proof.Machine

-- One theorem after another: a hundred and fifty at once are more threads than check.sh's limit has stacks for.
set_option Elab.async false

/-! ## Ill-formed commands, one for each check -/

theorem test_post_entry_over : (Instr.post .zero 4096 15).wellFormed = false := by decide
theorem test_withdraw_entry_over : (Instr.withdraw .one 4096 15).wellFormed = false := by decide
theorem test_classWrite_entry_over : (Instr.classWrite .zero 4096 1 15).wellFormed = false := by decide
theorem test_postingClose_wafer_zero : (Instr.postingClose .zero 0 15).wellFormed = false := by decide
theorem test_rowClose_wafer_over : (Instr.rowClose .zero 26 15).wellFormed = false := by decide
theorem test_classTable_word_over : (Instr.classTableWrite 64 0 15).wellFormed = false := by decide
theorem test_hostWrite_part_word : (Instr.defectHostWrite .zero 0 8 0 15).wellFormed = false := by decide
theorem test_hostWrite_class_word : (Instr.defectHostWrite .zero 0 5 0 15).wellFormed = false := by decide
theorem test_hostWrite_entry_over : (Instr.defectHostWrite .zero 4096 0 0 15).wellFormed = false := by decide
theorem test_written_back_wafer_zero : (Instr.recordWrittenBack (.waferEntry .zero 0)).wellFormed = false := by decide
theorem test_written_back_row_over : (Instr.recordWrittenBack (.reportRow .one 26)).wellFormed = false := by decide
theorem test_map_results_short : (Instr.mapDone .zero 0 (List.replicate 24 .present)).wellFormed = false := by decide
theorem test_wellFormed_bounds : (Instr.post .zero 4095 15).wellFormed = true ∧ (Instr.rowClose .zero 25 15).wellFormed = true
    ∧ (Instr.postingClose .zero 1 15).wellFormed = true ∧ (Instr.classTableWrite 63 0 15).wellFormed = true
    ∧ (Instr.mapDone .zero 0 (List.replicate 25 .present)).wellFormed = true := by decide

/-- No row of the table has bits (log entry 20). -/
theorem test_no_word_decodes : decodeTableWord 8 0 = none ∧ decodeTableWord 32 1 = none := by decide

/-! ## Worked figures of the spec -/

/-- 04, Worked case: the marks P1 and P2 of wafer 5 and where they were measured. -/
def workedSolve : Solved := solve ⟨-100000000, 0⟩ ⟨100000000, 0⟩ ⟨-100012000, 35000⟩ ⟨99996000, 55000⟩

theorem test_solve : workedSolve = ⟨1073784774, 107374, -8000, 45000⟩ := by decide
theorem test_solve_figures : workedSolve.scaleFigure = 40 ∧ workedSolve.rotationFigure = 100 := by decide
theorem test_solve_checks : solveCheck { Recipe.blank with scaleTolerance := 50, rotationTolerance := 200 } workedSolve = none
    ∧ solveCheck { Recipe.blank with scaleTolerance := 30, rotationTolerance := 200 } workedSolve = some .scale := by decide
theorem test_mark3_target : fineTransform 1073784774 107374 (-8000) 45000 ⟨0, 100000000⟩ = ⟨-18000, 100049000⟩ := by decide

/-- 04, Worked case: converting defect sites. -/
def workedDies : Recipe :=
  { Recipe.blank with pitchX := 12000000, pitchY := 12000000, originX := -150000000, originY := -151000000 }

theorem test_site_a : dieToWafer workedDies 16 10 8000000 1000000 = ⟨50000000, -30000000⟩
    ∧ fineTransform 1073784774 107374 (-8000) 45000 ⟨50000000, -30000000⟩ = ⟨49997000, -29951200⟩ := by decide
theorem test_site_b : coordinateCheck workedDies 26 10 0 1000000 = some .offWafer := by decide
theorem test_site_c : coordinateCheck workedDies 3 4 12000000 0 = some .badCoord := by decide
theorem test_quarter_turn : Recipe.quarter { Recipe.blank with inspectionNotch := 0, loadNotch := 3 } = 1
    ∧ quarterTurn 1 ⟨50000000, -30000000⟩ = ⟨30000000, 50000000⟩ := by decide

/-- 05, Worked examples: focus error. -/
theorem test_focus_errors : focusError 321000 288000 = 1776 ∧ focusError 250000 251000 = -65 ∧ focusError 262144 262144 = 0
    ∧ focusError 5000 0 = 32767 ∧ focusError 0 0 = 0 := by decide
theorem test_frame_sums : halfSums [40000, 36000, 41000, 35500, 39500, 36500, 40500, 36000, 40000, 35800, 40200, 36200, 39800, 36000,
    40000, 36000] = (321000, 288000) := by decide

/-- 06, Worked sequences: the steps of a site brought into focus, and the positions of a search. -/
theorem test_focus_step : focusStep { Recipe.blank with focusGain := 20000, stepMaximum := 50000 } 2341 = 1429
    ∧ focusStep { Recipe.blank with focusGain := 20000, stepMaximum := 50000 } (-3000) = -1831 := by decide
def workedSearch : Recipe := { Recipe.blank with zLow := 1000000, zHigh := 1300000, searchStep := 20000 }
theorem test_search : pickSearch workedSearch 1250000 6 0 = some (1270000, 1, 5)
    ∧ pickSearch workedSearch 1250000 5 1 = some (1230000, 2, 4) ∧ pickSearch workedSearch 1250000 4 2 = some (1290000, 3, 3)
    ∧ pickSearch workedSearch 1290000 6 0 = some (1270000, 2, 4) := by decide

/-- 06, Worked example: learning and using the map. -/
def workedMap : List Zone :=
  learnFocus (learnFocus (learnFocus clearedMap ⟨-100000000, 0⟩ 1203400) ⟨100000000, 0⟩ 1198900) ⟨-18000, 100049000⟩ 1201000

theorem test_zones : zoneOf ⟨-100000000, 0⟩ = 8 * 4 + 1 ∧ zoneOf ⟨100000000, 0⟩ = 8 * 4 + 6 ∧ zoneOf ⟨-18000, 100049000⟩ = 8 * 6 + 3
    ∧ zoneOf ⟨0, -165000000⟩ = 4 ∧ zoneOf ⟨160000000, 160000000⟩ = 63 := by decide
theorem test_predictions : predictZ workedMap 1200000 ⟨49997000, -29951200⟩ = 1198900
    ∧ predictZ workedMap 1200000 ⟨-55000000, 50000000⟩ = 1202200
    ∧ predictZ workedMap 1200000 ⟨-150000000, -150000000⟩ = 1200000 := by decide
theorem test_zone_learns : (Zone.learn ⟨true, 1198900, 1⟩ 1200100) = ⟨true, 1199200, 2⟩
    ∧ (Zone.learn ⟨true, 1199200, 2⟩ 1200003) = ⟨true, 1199401, 3⟩ := by decide

/-- The value of HOST words 1 and 2: wafer slot and priority, die column and row (R192). -/
def hostWords (id : Word) (wafer priority col row : Nat) : List (Option Word) :=
  [some id, some (ofLanes wafer priority 0 0), some (ofHalves col row), some 0, some 0, some 0, some 1, some 0]

/-- 07, Worked example: list order within a priority. -/
def site (i row col sequence : Nat) : Entry :=
  { Entry.fresh .zero i (hostWords 1 4 2 col row) sequence with state := .queued }

theorem test_list_order : (State.queuedOf { State.reset with revisit := { Revisit.reset with
      store := [site 0 3 2 21, site 1 2 5 22, site 2 3 7 23, site 3 2 3 24, site 4 3 2 25] } } ⟨.zero, 4⟩).map (·.index)
    = [3, 1, 2, 0, 4] := by decide

/-- 10, R174: a masked write counts, and a frame at the parity R88 asks for is good. -/
theorem test_saturation : satInc 65535 65535 = 65535 ∧ satInc 65535 65534 = 65535 ∧ satInc 255 255 = 255 := by decide
theorem test_parity : parityGood [1, 2] false = true ∧ parityGood [1, 2] true = false ∧ parityGood [7, 0] true = true := by decide
theorem test_rounding : rnd 5 2 = 3 ∧ rnd (-5) 2 = -3 ∧ rnd 4797603 4 = 1199401 ∧ rnd (-1) 3 = 0 := by decide
theorem test_timer_wraps : Timer.due ⟨0xFFFFFFFF, 2⟩ 1 = true ∧ Timer.due ⟨0xFFFFFFFF, 2⟩ 0 = false := by decide

/-! ## Small states -/

/-- A layout that R175 accepts, with the largest and the least capacity and the memory ending where slot 1's array does. -/
def demo : Windows := ⟨⟨0x1000, 0x2000⟩, ⟨0x10000, 0x50000⟩, ⟨0x4000, 0x6000⟩, 0x8000, ⟨4096, 1⟩⟩

/-- An ATTACHED part with that layout, and nothing else done. -/
def ready : State := { State.reset with
  anchor := { Anchor.reset 0 with attach := .attached }, path := { Path.reset with windows := some demo } }

theorem readyFor_of {s : State} {id : RecId} (ha : s.anchor.attach = .attached) (hf : s.path.slot = .idle) (hd : s.wb.direct = [])
    (h : ∀ w < id.size, s.wordAt ((s.regions.recordBase id + 4 * w) % 2 ^ 28) = id.word w) : s.ReadyFor id :=
  ⟨ha, ⟨hf, hd⟩, fun w _ _ hw => h w hw⟩

theorem free_of {s : State} (hf : s.path.slot = .idle) (hd : s.wb.direct = []) : s.PathFree := ⟨hf, hd⟩

theorem placed_reset : State.reset.AnchorPlaced := ⟨0, rfl⟩
theorem placed_ready : ready.AnchorPlaced := ⟨0, rfl⟩

/-- A lot slot in state `st` with wafers. -/
def lotIn (st : LotState) (wafers : List Wafer) : Lot := { Lot.reset with state := st, recipe := some Recipe.blank, wafers := wafers }
def withLot (l : Lot) : State := { ready with lots := ⟨l, Lot.reset⟩ }

/-- Wafers 1 to 25, all alike. -/
def wafersIn (st : WaferState) : List Wafer := List.replicate 25 { Wafer.fresh true false with state := st }

def w1 : WaferName := ⟨.zero, 1⟩

/-- Slot 0 RUNNING, its wafers in state `st`, wafer 1 on the stage under review. -/
def reviewing (st : WaferState) (review : ReviewState) : State := { withLot (lotIn .running (wafersIn st)) with
  handling := { Handling.reset with state := .idle, table := { LocationTable.reset with st := .wafer w1 } }
  revisit := { Revisit.reset with wafer := some w1, review := review } }

/-- A store record of wafer 1. -/
def entryIn (i : Nat) (st : EntryState) : Entry := { Entry.fresh .zero i (hostWords 101 1 1 2 5) 1 with state := st }

def openReport : Report := { Report.reset with state := .opened, rows := List.replicate 25 (Row.fresh .none) }

/-- `s` with one store record, and slot 0's report OPEN. -/
def storing (s : State) (e : Entry) : State := { s with
  revisit := { s.revisit with store := [e] }, reports := ⟨openReport, Report.reset⟩ }

/-- `s` with the M-port serving the part's request `q`. -/
def serving (s : State) (q : PartRequest) : State := { s with mport := ⟨[q], some .part, false⟩ }

def robotOut (k : RobotKind) : RobotOrder := ⟨7, k, ⟨0, 30000⟩⟩
def moveOut (t : MoveTarget) : MotionOrder := ⟨9, .move t, ⟨0, 5000⟩, [⟨.revisit, 1⟩]⟩
def grabOut (k : GrabKind) : Grab := ⟨4, ⟨k, 0, 1⟩, ⟨0, 3000⟩, false⟩

/-- The state a command leaves. -/
def after (c : Instr) (s : State) : State :=
  match exec c s with
  | .next t => t
  | .fault _ | .refused _ => s

/-! ## What meets the hypotheses of the statements -/

theorem witness_StepRunsFrontCommand : ({ State.reset with pending := [.home 15] } : State).pending = [.home 15] := rfl
theorem witness_EmptyQueueCountsAMillisecond : ({ ready with clock := 0xFFFFFFFF } : State).pending = [] := rfl
/-- The revisit limit holds where the store has no more records than it allows each of their slots. -/
theorem limit_of {s : State} (h : ∀ e ∈ s.revisit.store, (s.revisit.store.length : Int) ≤ (s.recipe e.slot).revisitLimit) :
    ∀ w, 0 < s.admittedOf w → (s.admittedOf w : Int) ≤ (s.recipe w.slot).revisitLimit := by
  intro w hw
  obtain ⟨e, he⟩ := List.exists_mem_of_length_pos hw
  simp only [List.mem_filter, Bool.and_eq_true, decide_eq_true_eq] at he
  obtain ⟨hm, ⟨rfl, -⟩, -⟩ := he
  have := List.length_filter_le (fun f : Entry => decide (f.wafer = e.wafer) && f.state.isAdmitted && !f.rowClosed) s.revisit.store
  have h2 := h e hm
  simp only [State.admittedOf, Entry.wafer] at *
  omega

/-- Wafer 1 of slot 0 under review with one ACTIVE and one QUEUED entry, at the revisit limit. -/
def revisitingTwo : State := { withLot { lotIn .running (wafersIn .waiting |>.set 0 { Wafer.fresh true false with state := .onStage }) with
    recipe := some { Recipe.blank with revisitLimit := 2 } } with
  handling := { Handling.reset with state := .idle, table := { LocationTable.reset with st := .wafer w1 } }
  reports := ⟨openReport, Report.reset⟩
  align := { Align.reset with wafer := some w1, state := .aligned }
  revisit := { Revisit.reset with
    store := [entryIn 0 .active, { entryIn 1 .queued with host := hostWords 102 1 1 2 5 }], wafer := some w1, review := .revisiting
    active := some ⟨.zero, 0, .grab, ⟨0, 0⟩, 0, none, none, none⟩ } }
theorem sound_revisitingTwo : revisitingTwo.Sound where
  motion := ⟨rfl, rfl, rfl, rfl⟩
  bounded := ⟨by decide, by decide, by decide, by decide, by decide⟩
  anchor := placed_ready
  memory := rfl
  entries := ⟨by decide, by decide, fun e he h => ⟨_, rfl, by revert e; decide⟩, limit_of (by decide), by decide, by decide, by decide, by decide⟩
  lots k := by
    cases k
    · exact ⟨by decide, by decide, by decide, by decide, by decide, fun h => absurd h (by decide), by decide⟩
    · exact ⟨by decide, by decide, by decide, by decide, by decide, fun h => absurd h (by decide), by decide⟩
  path := ⟨fun _ k => by cases k <;> rfl, fun h => absurd rfl h, fun h => by revert h; decide, by decide, by decide, by decide⟩
theorem witness_EveryStepKeepsSound : revisitingTwo.Sound ∧ ∃ t, step { revisitingTwo with pending := [.abort .zero 15] } = .next t :=
  ⟨sound_revisitingTwo, _, rfl⟩
theorem witness_MemoryChangesOnlyWhenServed : (Instr.interlockOpen ≠ .pPortAccessServed ∧ Instr.interlockOpen ≠ .writeQueueWordWritten)
    ∧ ∃ t, exec .interlockOpen ready = .next t := ⟨by decide, _, rfl⟩

theorem witness_ServedAccessReadsOrStoresItsWord : ∀ write : Bool,
    let a : PAccess := ⟨write, 0xFFFFFFC, 5, 9⟩;
    let s : State := { ready with path := { ready.path with slot := .waiting a }, mport := ⟨[], some .pPort, false⟩ };
    s.mem.wf = true ∧ s.mport.serving = some .pPort ∧ s.path.slot = .waiting a ∧ s.path.offered = [] := by
  intro write; exact ⟨rfl, rfl, rfl, rfl⟩

/-- n queued words, and the M-port free. -/
def queueOf (n : Nat) : MPort := ⟨List.replicate n (.write 0 0 (.lotHeader .zero)), none, false⟩
/-- A P-port read waiting with n words queued and the drain flag as given. -/
def contending (n : Nat) (drain : Bool) : State := { ready with
  path := { ready.path with slot := .waiting ⟨false, 0x100, 0, 15⟩ }, mport := { queueOf n with drain := drain } }
theorem witness_ServedAccessReadsOrStoresItsWord_arbiter : (∀ n d, (contending n d).mport.serving = none)
    ∧ (∀ sel lines, Instr.interlockOpen ≠ .hardwareReset sel lines)
    ∧ ({ ready with path := { ready.path with slot := .waiting ⟨false, 0x100, 0, 15⟩ }, mport := ⟨[], some .pPort, false⟩ } : State).frees
        .pPortAccessServed := ⟨fun _ _ => rfl, by simp, rfl, rfl⟩

theorem witness_QueuedWordIsStoredAndLeaves :
    (let s := serving ready (.write 0xFFFFFFC 5 (.lotHeader .zero));
      s.mem.wf = true ∧ s.mport.serving = some .part ∧ s.mport.requests = .write 0xFFFFFFC 5 (.lotHeader .zero) :: [] ∧ s.wb.direct = [])
    ∧ ∀ n, (n = 24 ∨ n = 25) → let rest := List.replicate n (PartRequest.write 0 0 (.lotHeader .zero));
      let s : State := { ready with
        mport := ⟨.write 0xFFFFFFC 5 (.lotHeader .zero) :: rest, some .part, true⟩
        wb := { WriteBack.reset with direct := [⟨.defectEntry .zero 0, []⟩] } };
      s.path.windows = some demo ∧ s.wb.direct = [⟨.defectEntry .zero 0, []⟩]
      ∧ (rest.filter PartRequest.isWrite).length = n := by
  refine ⟨⟨rfl, rfl, rfl, rfl⟩, ?_⟩
  rintro n (rfl | rfl) <;> exact ⟨rfl, rfl, rfl⟩

/-! Each clause of the writer at the least room it needs: 24 words queued, 8 free; and one word less. -/

theorem witness_WriterMovesTheOldestRecord :
    (∃ s : State, s.path.windows = some demo ∧ s.wb.direct = [⟨.defectEntry .zero 0, []⟩] ∧ s.mport.queued + 8 ≤ 32
      ∧ s.mport.queued = 24)
    ∧ (∃ s : State, s.path.windows = some demo ∧ s.wb.direct = [] ∧ s.wb.dirty = [⟨.lotHeader .zero, [36, 39]⟩]
      ∧ [36, 39].length + s.mport.queued ≤ 32 ∧ s.mport.queued = 30)
    ∧ ∃ s : State, s.path.windows = some demo ∧ s.wb.direct = [⟨.defectEntry .zero 0, []⟩] ∧ 32 < s.mport.queued + 8
      ∧ s.mport.queued = 25 :=
  ⟨⟨{ ready with mport := queueOf 24, wb := { WriteBack.reset with direct := [⟨.defectEntry .zero 0, []⟩] } },
      rfl, rfl, by decide, by decide⟩,
    ⟨{ ready with mport := queueOf 30, wb := { WriteBack.reset with dirty := [⟨.lotHeader .zero, [36, 39]⟩] } },
      rfl, rfl, rfl, by decide, by decide⟩,
    ⟨{ ready with mport := queueOf 25, wb := { WriteBack.reset with direct := [⟨.defectEntry .zero 0, []⟩] } },
      rfl, rfl, by decide, by decide⟩⟩

/-- The write of an ABORT that a lot does not take is counted in word 38 of its header. -/
theorem witness_WriterMovesTheOldestRecord_dirty : ∃ t old new, exec (.abort .one 15) revisitingTwo = .next t ∧ revisitingTwo.Sound
    ∧ revisitingTwo.ownerImage (.lotHeader .one) = some old ∧ t.ownerImage (.lotHeader .one) = some new
    ∧ (∀ h ∈ t.wb.direct, h.id ≠ .lotHeader .one) ∧ 38 ∈ new.map Prod.fst ∧ old.get 38 ≠ new.get 38 :=
  ⟨after (.abort .one 15) revisitingTwo, (revisitingTwo.lot .one).image, ((after (.abort .one 15) revisitingTwo).lot .one).image,
    rfl, sound_revisitingTwo, rfl, by decide +kernel, by decide +kernel, by decide +kernel, by decide +kernel⟩
/-- A row's 37 words go in two parts, the first into an empty queue; a record of two words waits behind 31. -/
theorem witness_WriterMovesTheOldestRecord_parts :
    (∃ s : State, s.path.windows = some demo ∧ s.wb.direct = [] ∧ s.wb.dirty = [⟨.reportRow .zero 25, List.range 37⟩]
      ∧ 32 < (List.range 37).length ∧ s.mport.queued = 0)
    ∧ ∃ s : State, s.path.windows = some demo ∧ s.wb.direct = [] ∧ s.wb.dirty = [⟨.lotHeader .zero, [36, 39]⟩]
      ∧ [36, 39] ≠ ([] : List Nat) ∧ 32 < min 32 [36, 39].length + s.mport.queued ∧ s.mport.queued = 31 :=
  ⟨⟨{ ready with mport := queueOf 0, wb := { WriteBack.reset with dirty := [⟨.reportRow .zero 25, List.range 37⟩] } },
      rfl, rfl, rfl, by decide, by decide⟩,
    ⟨{ ready with mport := queueOf 31, wb := { WriteBack.reset with dirty := [⟨.lotHeader .zero, [36, 39]⟩] } },
      rfl, rfl, rfl, by decide, by decide, by decide⟩⟩

theorem witness_WrittenBackRecordOfAClosedRowIsFreed :
    (storing ready (entryIn 0 .reviewed)).storeEntry .zero 0 = some (entryIn 0 .reviewed)
    ∧ (storing ready { entryIn 0 .reviewed with rowClosed := true }).writtenBack (.defectEntry .zero 0) = true := by decide

theorem witness_HeldAccessIsJudgedWhenItsHoldEnds : let a : PAccess := ⟨true, 0x100, 5, 15⟩;
    ∀ d : List HeldImage, let s : State := { ready with
      path := { ready.path with slot := .held a .directWrites }, wb := { WriteBack.reset with direct := d } };
    s.path.slot = .held a .directWrites ∧ a.write = true ∧ s.wordAt a.addr = .plain ∧ s.path.offered = [] :=
  fun _ => ⟨rfl, rfl, rfl, rfl⟩
/-- A POST held for room with n records in the posting list, and a class write held for the class table. -/
def heldPost (n : Nat) : State := { ready with
  path := { ready.path with slot := .held (ready.recordWrite (.defectEntry .zero 0) 6 codePost 15) .postRoom }
  revisit := { Revisit.reset with posting := List.replicate n (Entry.fresh .zero 1 [] 1) } }
def heldClass (valid : Bool) (d : List HeldImage) : State := { ready with
  path := { ready.path with slot := .held (ready.recordWrite (.defectEntry .zero 0) 5 1 15) .classTable }
  classTable := { ClassTable.reset with valid := valid }, wb := { WriteBack.reset with direct := d } }
theorem witness_HeldAccessIsJudgedWhenItsHoldEnds_reasons :
    ((heldPost 15).accessOf (.post .zero 0 15) = some (ready.recordWrite (.defectEntry .zero 0) 6 codePost 15)
      ∧ (heldPost 15).path.slot = .held (ready.recordWrite (.defectEntry .zero 0) 6 codePost 15) .postRoom
      ∧ (heldPost 15).revisit.posting.length < 16 ∧ ¬ (heldPost 16).revisit.posting.length < 16)
    ∧ ((heldClass true []).accessOf (.classWrite .zero 0 1 15) = some (ready.recordWrite (.defectEntry .zero 0) 5 1 15)
      ∧ (heldClass true []).classTable.valid = true ∧ (heldClass false []).classTable.valid = false
      ∧ (heldClass true [⟨.defectEntry .zero 0, []⟩]).wb.direct ≠ [])
    ∧ ({ ready with path := { ready.path with slot := .held ⟨false, 4, 0, 15⟩ .directWrites } } : State).wb.direct = [] := by
  decide

theorem laid_ready : ready.Laid demo := ⟨placed_ready, rfl, 0x50040, by decide⟩
theorem witness_EveryWordLiesWhereTheLayoutPutsIt : ready.Laid demo ∧ (RecId.defectEntry .zero 4095).inLayout demo
    ∧ (RecId.defectEntry .one 0).inLayout demo ∧ (RecId.reportRow .one 25).inLayout demo ∧ (RecId.waferEntry .zero 1).inLayout demo :=
  ⟨laid_ready, by show 4095 < 4096; decide, by show 0 < 1; decide, by show 1 ≤ 25 ∧ 25 ≤ 25; decide, by show 1 ≤ 1 ∧ 1 ≤ 25; decide⟩

/-- Words held by lot control and by the store, a PART word not held with and without a queued write, and the empty and filled ring. -/
theorem witness_EveryWordLiesWhereTheLayoutPutsIt_reads :
    ready.heldWord (.lotHeader .one) 36 = some 0 ∧ ((RecId.lotHeader .one).word 36).part ≠ none
    ∧ ready.heldWord (.defectEntry .zero 4095) 15 = none ∧ ((RecId.defectEntry .zero 4095).word 15).part ≠ none
    ∧ ((RecId.defectEntry .zero 4095).word 0).part = none
    ∧ revisitingTwo.entry .zero 1 = some { entryIn 1 .queued with host := hostWords 102 1 1 2 5 } ∧ 1 < demo.capacity.get .zero
    ∧ ready.mport.requests = [] ∧ ready.sensor.ring = [] := by decide

theorem witness_WriteToAPartWordIsMasked : ready.PathFree ∧ (ready.wordAt (0x1000#28 + 4 * 36 : BitVec 28).toNat).part.isSome :=
  ⟨free_of rfl rfl, by decide⟩

/-- PART and LIVE words of the anchor, and words under each of the three locks. -/
theorem witness_WriteToAPartWordIsMasked_locks :
    (ready.masks (ready.wordAt 8) = true ∧ ready.masks (ready.wordAt (4 * 33)) = true ∧ ready.masks (ready.wordAt 12) = false)
    ∧ (let s : State := { ready with path := { ready.path with layoutLock := true } };
      s.masks (s.wordAt 12) = true ∧ s.masks (s.wordAt (4 * 12)) = true ∧ s.PathFree)
    ∧ (let s : State := { ready with path := { ready.path with startLock := ⟨true, false⟩ } };
      s.masks (s.wordAt 0x1000) = true ∧ s.masks (s.wordAt 0x2000) = false ∧ s.PathFree)
    ∧ (let s : State := { ready with path := { ready.path with closedLock := ⟨false, true⟩ } };
      s.accessOf (.defectHostWrite .one 0 0 7 0) = some (s.recordWrite (.defectEntry .one 0) 0 7 0)
      ∧ s.masks (s.wordAt (s.recordWrite (.defectEntry .one 0) 0 7 0).addr) = true
      ∧ s.masks (s.wordAt (s.recordWrite (.defectEntry .one 0) 6 codePost 15).addr) = true ∧ s.PathFree) :=
  ⟨by decide, ⟨by decide, by decide, rfl, rfl⟩, ⟨by decide, by decide, rfl, rfl⟩, rfl, by decide, by decide, rfl, rfl⟩

theorem witness_UnwatchedWritePassesOrWaitsItsTurn :
    let a : PAccess := ⟨true, 0x100, 5, 15⟩;
    (State.reset.accessOf (.pPortWrite 0x100 5 15) = some a ∧ State.reset.wordAt a.addr = .plain ∧ State.reset.PathFree)
    ∧ (∃ s : State, s.accessOf (.pPortWrite 0x100 5 15) = some a ∧ s.wordAt a.addr = .plain ∧ s.path.slot ≠ .idle)
    ∧ ∃ s : State, s.accessOf (.pPortWrite 0x100 5 15) = some a ∧ s.wordAt a.addr = .plain ∧ s.path.slot = .idle ∧ s.wb.direct ≠ [] :=
  ⟨⟨rfl, rfl, free_of rfl rfl⟩,
    ⟨{ ready with path := { ready.path with slot := .waiting ⟨false, 0, 0, 15⟩ } }, rfl, rfl, by decide⟩,
    ⟨{ ready with wb := { WriteBack.reset with direct := [⟨.defectEntry .zero 0, []⟩] } }, rfl, rfl, rfl, by decide⟩⟩

theorem witness_PartialTriggerWritesAreMasked : let a := ready.recordWrite (.defectEntry .zero 4095) 6 codePost 14;
    ready.accessOf (.post .zero 4095 14) = some a ∧ ready.PathFree ∧ (ready.wordAt a.addr).isTrigger = true ∧ a.be ≠ 15 :=
  ⟨rfl, free_of rfl rfl, by decide, by decide⟩
theorem witness_PartialTriggerWritesAreMasked_detaching :
    let s : State := { ready with anchor := { ready.anchor with attach := .detaching } };
    let a := s.recordWrite (.defectEntry .zero 4095) 6 codePost 14;
    s.accessOf (.post .zero 4095 14) = some a ∧ s.PathFree ∧ (s.wordAt a.addr).isTrigger = true ∧ a.be ≠ 15 :=
  ⟨rfl, free_of rfl rfl, by decide, by decide⟩

theorem witness_AttachBeginsTheLayoutCheck : State.reset.PathFree ∧ State.reset.AnchorPlaced ∧ State.reset.anchor.attach = .detached :=
  ⟨free_of rfl rfl, placed_reset, rfl⟩

/-- The layout words of `demo`, and the memory top at word 12 of the anchor. -/
def demoWords : List Word := [0x1000, 0x2000, 0x10000, 0x50000, 0x4000, 0x6000, 0x8000, 4096, 1]
def checking (got : List Word) (top : Memory) : State := { serving State.reset (.layout got.length) with
  anchor := { Anchor.reset 0 with attach := .checking }, path := { Path.reset with layoutLock := true, layoutGot := got }, mem := top }
theorem witness_LayoutReadsEndInAttachOrItsReason :
    ((checking (demoWords.take 8) []).mport.requests = [.layout 8]
      ∧ ((checking (demoWords.take 8) []).path.layoutGot ++ [(1 : Word)]).length < 10)
    ∧ (let got := demoWords ++ [(checking demoWords []).mem.readWord (0 + 4 * (3 + 9))];
      got.length = 10 ∧ layoutCheck 0 (windowsOf got) (memoryTopOf got) = some .outOfMemory)
    ∧ (let got := demoWords ++ [(checking demoWords [(48, 0x40), (50, 5)]).mem.readWord (0 + 4 * (3 + 9))];
      got.length = 10 ∧ layoutCheck 0 (windowsOf got) (memoryTopOf got) = none) := by decide

theorem witness_DetachGivesEveryBlockItsDetachValues :
    ready.PathFree ∧ ready.AnchorPlaced ∧ ready.anchor.attach = .attached ∧ ready.lotActive = false :=
  ⟨free_of rfl rfl, placed_ready, rfl, rfl⟩

/-- Orders of both groups out, a wafer on ST, one POSTING record, and 24 words queued. -/
def leaving : State := { ready with
  motion := { (Motion.reset.setGroup .xy ⟨some ⟨9, .home, ⟨0, 60000⟩, []⟩, none, none⟩).setGroup .z
    ⟨some ⟨10, .home, ⟨0, 60000⟩, []⟩, none, none⟩ with tag := 11 }
  handling := { Handling.reset with table := { LocationTable.reset with st := .wafer w1 } }
  revisit := { Revisit.reset with posting := [Entry.fresh .zero 0 (hostWords 1 1 1 1 1) 1] }, mport := queueOf 24 }
theorem witness_DetachGivesEveryBlockItsDetachValues_all :
    (leaving.PathFree ∧ leaving.AnchorPlaced ∧ leaving.anchor.attach = .attached ∧ leaving.lotActive = false)
    ∧ leaving.motion.xyGroup.order.isSome = true ∧ leaving.motion.zGroup.order.isSome = true ∧ (leaving.at .st).name.isSome = true
    ∧ leaving.revisit.posting = [Entry.fresh .zero 0 (hostWords 1 1 1 1 1) 1] ∧ leaving.storeEntry .zero 0 = none
    ∧ leaving.path.windows = some demo ∧ leaving.mport.queued + 8 ≤ 32 :=
  ⟨⟨free_of rfl rfl, placed_ready, rfl, by decide⟩, rfl, rfl, rfl, rfl, rfl, rfl, by decide⟩

theorem witness_DetachIsRefusedWhileALotIsActive : let s := withLot (lotIn .aborting []);
    s.PathFree ∧ s.AnchorPlaced ∧ s.anchor.attach = .attached ∧ s.lotActive = true := ⟨free_of rfl rfl, placed_ready, rfl, rfl⟩

theorem witness_DetachCompletesWhenNothingIsLeftToWrite :
    (let s : State := { ready with anchor := { ready.anchor with attach := .detaching } };
      s.anchor.attach = .detaching ∧ s.wb.direct = [] ∧ s.wb.dirty = [] ∧ s.mport.queued = 0)
    ∧ ({ ready with mport := queueOf 1 } : State).mport.queued ≠ 0 := by decide

/-! ### Lots -/

theorem ready_header (l : Lot) : (withLot l).ReadyFor (.lotHeader .zero) :=
  readyFor_of rfl rfl rfl (show ∀ w < 64, ready.wordAt ((ready.regions.recordBase (.lotHeader .zero) + 4 * w) % 2 ^ 28) = .lotHeader .zero w by
    decide)

theorem witness_StartTakenBeginsTheFetch : (withLot Lot.reset).ReadyFor (.lotHeader .zero) ∧ ((withLot Lot.reset).lot .zero).state = .empty :=
  ⟨ready_header _, rfl⟩
theorem witness_StartTakenBeginsTheFetch_laid : (withLot Lot.reset).Laid demo := ⟨placed_ready, rfl, 0x50040, by decide⟩
theorem witness_LotRequestsNotTakenAreRefusedOrCounted : (withLot (lotIn .done [])).ReadyFor (.lotHeader .zero)
    ∧ LotState.done ≠ .empty
    ∧ (.done : LotState) ∈ [LotState.empty, .aborting, .done, .aborted] ∧ (.empty : LotState) ∉ [.done, .aborted] :=
  ⟨ready_header _, by decide, by decide, by decide⟩
theorem witness_AbortTakenStopsTheLot : (withLot (lotIn .starting [])).ReadyFor (.lotHeader .zero)
    ∧ (let s := withLot (lotIn .running (wafersIn .waiting));
      s.ReadyFor (.lotHeader .zero) ∧ (s.lot .zero).state.takesPosts = true ∧ s.waferState ⟨.zero, 25⟩ = some .waiting) :=
  ⟨ready_header _, ready_header _, rfl, rfl⟩
theorem witness_AbortTakenStopsTheLot_waiting : let s := withLot (lotIn .running (wafersIn .waiting));
    (s.wafer ⟨.zero, 25⟩).map (·.state) = some .waiting ∧ revisitingTwo.wafer w1 = some { Wafer.fresh true false with state := .onStage } := by
  decide
theorem ready_header' {s : State} (ha : s.anchor = ready.anchor) (hp : s.path = ready.path) (hd : s.wb.direct = []) :
    s.ReadyFor (.lotHeader .zero) := by
  refine readyFor_of (by rw [ha]; rfl) (by rw [hp]; rfl) hd ?_
  unfold State.wordAt State.regions
  rw [ha, hp]
  exact show ∀ w < 64, ready.wordAt ((ready.regions.recordBase (.lotHeader .zero) + 4 * w) % 2 ^ 28) = .lotHeader .zero w by decide
theorem witness_AbortTakenStopsTheLot_review : let s := revisitingTwo;
    s.ReadyFor (.lotHeader .zero) ∧ s.Sound ∧ (s.lot .zero).state.takesPosts = true ∧ (s.lot .zero).fetch = none
    ∧ (s.lot .zero).anyOutside = true ∧ s.revisit.wafer = some w1 ∧ s.revisit.review.inProgress = true ∧ s.waferState w1 = some .onStage
    ∧ s.revisit.active = some ⟨.zero, 0, .grab, ⟨0, 0⟩, 0, none, none, none⟩ ∧ s.storeEntry .zero 0 = some (entryIn 0 .active)
    ∧ (s.queuedOf w1).map (·.index) = [1] ∧ (withLot (lotIn .running (wafersIn .waiting))).lotActive = true
    ∧ ((withLot (lotIn .running (wafersIn .waiting))).lot .zero).anyOutside = false :=
  ⟨ready_header' rfl rfl rfl, sound_revisitingTwo, by decide⟩
theorem witness_ReleaseEmptiesTheSlot : let s := withLot (lotIn .aborted (wafersIn .returned));
    s.ReadyFor (.lotHeader .zero) ∧ (s.lot .zero).state = .aborted := ⟨ready_header _, rfl⟩

/-- Values of a start fetch: the worked recipe of 04, slots 1 and 25 selected. -/
def fieldValue (i : Nat) : Int :=
  match i with
  | 1 | 2 => 0
  | 3 | 4 => 12000000
  | 5 => -150000000
  | 6 => -151000000
  | 7 => 3
  | 8 => -100000000
  | 10 => 100000000
  | 13 => 100000000
  | 14 => 50
  | 15 => 200
  | 16 => 2000
  | 17 | 18 | 19 | 20 => 1
  | 22 => 1000000
  | 23 => 1300000
  | 24 => 1200000
  | 25 | 26 | 27 | 28 => 1
  | 29 | 31 => 20000
  | 30 => 4
  | _ => 0

def fetchValue : FetchItem → Word
  | .header (w + 2) => wordOfInt (fieldValue (w + 1))
  | .entry 1 0 => 1
  | .entry 25 0 => 0x80000000
  | _ => 0

/-- All fetched but the last version word. -/
def fetched : List (FetchItem × Word) := (fetchItems.take 610).map fun it => (it, fetchValue it)
def fetching (st : LotState) (got : List (FetchItem × Word)) (motion : Motion) : State :=
  { serving ready (.startFetch .zero (.rowVersion 25)) with
    lots := ⟨{ Lot.reset with state := st, fetch := some got }, Lot.reset⟩, motion := motion
    cell := ⟨false, ⟨true, false⟩⟩ }

/-- Every axis referenced and IDLE. -/
def homed : Motion := { Motion.reset with x := ⟨.idle, true, 0, 0⟩, y := ⟨.idle, true, 0, 0⟩, z := ⟨.idle, true, 0, 0⟩ }

theorem witness_StartFetchEndsInTheLotOrItsRefusal :
    let got := fetched ++ [(.rowVersion 25, 0)];
    ready.mem.readWord (demo.itemAddress .zero (.rowVersion 25)) = 0
    ∧ fetchComplete ((fetched.drop 1) ++ [(.rowVersion 25, 0)]) = false ∧ fetchComplete got = true
    ∧ (fetching .starting fetched Motion.reset).startCheck .zero got = some (.notReferenced, 0)
    ∧ (fetching .starting fetched homed).startCheck .zero got = none := by decide +kernel

/-! ### Requests and notices -/

/-- Handling HALTED or IDLE, the robot free. -/
def handlingIn (st : HandlingState) : State := { ready with handling := { Handling.reset with state := st } }

theorem witness_RecoveryRequestsSendInventory :
    ((handlingIn .halted).PathFree ∧ (handlingIn .halted).AnchorPlaced ∧ (handlingIn .halted).handling.state = .halted
      ∧ (handlingIn .halted).handling.robot = none)
    ∧ (Instr.resume 15, (1 : Word)) ∈ [(Instr.resume 15, (1 : Word)), (.inventory 15, 2)]
    ∧ (Instr.inventory 15, (2 : Word)) ∈ [(Instr.resume 15, (1 : Word)), (.inventory 15, 2)]
    ∧ (handlingIn .idle).handling.state ≠ .halted ∧ (Instr.resume 15 = .inventory 15 → (handlingIn .idle).handling.state ≠ .idle) :=
  ⟨⟨free_of rfl rfl, placed_ready, rfl, rfl⟩, by decide, by decide, by decide, by decide⟩

theorem witness_HomeRequestHomesEveryAxis :
    (ready.PathFree ∧ ready.AnchorPlaced ∧ ready.anchor.attach = .attached ∧ ready.motion.xyGroup.order = none
      ∧ ready.motion.zGroup.order = none ∧ ready.motion.x.state ≠ .settling ∧ ready.robotAtStage = false)
    ∧ ({ ready with handling := { Handling.reset with robot := some (robotOut (.place .st .upper)) } } : State).robotAtStage = true :=
  ⟨⟨free_of rfl rfl, placed_ready, rfl, rfl, rfl, by decide, rfl⟩, rfl⟩

theorem witness_NoticeWritesTakeTheirLanesAndBits : State.reset.PathFree ∧ State.reset.AnchorPlaced := ⟨free_of rfl rfl, placed_reset⟩

/-! ### The cell and the handler link -/

theorem witness_InterlockHoldsHandling : (handlingIn .busy).cell.interlockOpen = false
    ∧ ({ handlingIn .hold with cell := ⟨true, .both false⟩ } : State).cell.interlockOpen = true := by decide

theorem witness_CarrierLinesAreFollowed :
    (let s : State := { withLot (lotIn .running (wafersIn .ready)) with
        cell := ⟨false, ⟨true, false⟩⟩, handling := { Handling.reset with state := .idle } };
      s.cell.carrier.get .zero = true ∧ (s.lot .zero).state.takesPosts = true ∧ s.waferState ⟨.zero, 25⟩ = some .ready
      ∧ WaferState.ready.isOutside = true ∧ (s.lot .zero).anyOutside = true ∧ s.handling.state ∈ [.idle, .busy, .hold])
    ∧ ready.cell.carrier.get .one = false := by decide

/-- Wafer 1 under review, MEASURING, when its carrier is lost. -/
def alignedAway : State := { reviewing .onStage .aligning with
  cell := ⟨false, .both true⟩, align := { Align.reset with wafer := some w1, state := .measuring, mark := 1 } }
theorem witness_CarrierLinesAreFollowed_review : alignedAway.cell.carrier.get .zero = true
    ∧ (alignedAway.lot .zero).state.takesPosts = true ∧ (alignedAway.lot .zero).fetch = none ∧ (alignedAway.lot .zero).wafers.length ≤ 25
    ∧ alignedAway.revisit.wafer = some w1 ∧ alignedAway.revisit.review.inProgress = true ∧ alignedAway.align.state = .measuring
    ∧ (alignedAway.wafer w1).isSome = true
    ∧ (let s : State := { revisitingTwo with cell := ⟨false, .both true⟩ };
      s.revisit.active = some ⟨.zero, 0, .grab, ⟨0, 0⟩, 0, none, none, none⟩ ∧ s.storeEntry .zero 0 = some (entryIn 0 .active)) := by
  decide

/-- Slot 0's wafers in state `st`, the robot's order out, the source holding wafer 1. -/
def moving (st : WaferState) (k : RobotKind) (t : LocationTable) : State := { withLot (lotIn .running (wafersIn st)) with
  cell := ⟨false, ⟨true, false⟩⟩, handling := { Handling.reset with state := .busy, robot := some (robotOut k), table := t } }

theorem witness_PickAndPlaceMoveTheWafer :
    (let s := moving .ready (.place .st .upper) { LocationTable.reset with ua := .wafer w1 };
      s.handling.robot = some (robotOut (.place .st .upper)) ∧ (robotOut (.place .st .upper)).kind.source = some .ua
      ∧ (robotOut (.place .st .upper)).kind.destination = some .st ∧ Loc.ua ≠ .st ∧ s.inAbsentCarrier .ua = false
      ∧ s.inAbsentCarrier .st = false ∧ s.at .ua = .wafer w1 ∧ s.waferState w1 = some .ready)
    ∧ (let s := moving .waiting (.pick (.carrier .zero 25) .upper)
          { LocationTable.reset with carriers := ⟨List.replicate 25 (.wafer w1), []⟩ };
      (robotOut (.pick (.carrier .zero 25) .upper)).kind.source = some (.carrier .zero 25)
      ∧ s.inAbsentCarrier (.carrier .zero 25) = false ∧ s.at (.carrier .zero 25) = .wafer w1 ∧ s.waferState w1 = some .waiting)
    ∧ (let s := moving .reviewEnded (.pick .st .lower) { LocationTable.reset with st := .wafer w1 };
      (robotOut (.pick .st .lower)).kind.source = some .st ∧ s.at .st = .wafer w1) := by decide
theorem witness_PickAndPlaceMoveTheWafer_place :
    (moving .returning (.place (.carrier .zero 25) .lower) LocationTable.reset).hasPlace (.carrier .zero 25) := by
  show 1 ≤ 25 ∧ 25 ≤ (List.replicate 25 (Occupant.empty)).length; decide
/-- A RETURNING wafer placed home, and a READY and a RETURNING one placed on ST. -/
theorem witness_PickAndPlaceMoveTheWafer_ends :
    (let s := moving .returning (.place (.carrier .zero 25) .lower) { LocationTable.reset with la := .wafer w1 };
      (robotOut (.place (.carrier .zero 25) .lower)).kind.source = some .la
      ∧ (robotOut (.place (.carrier .zero 25) .lower)).kind.destination = some (.carrier .zero 25) ∧ Loc.la ≠ .carrier .zero 25
      ∧ s.inAbsentCarrier .la = false ∧ s.inAbsentCarrier (.carrier .zero 25) = false ∧ s.at .la = .wafer w1
      ∧ s.wafer w1 = some { Wafer.fresh true false with state := .returning } ∧ s.anchor.attach = .attached)
    ∧ ∀ st ∈ [WaferState.ready, .returning], let s := moving st (.place .st .upper) { LocationTable.reset with ua := .wafer w1 };
      s.inAbsentCarrier .ua = false ∧ s.at .ua = .wafer w1 ∧ s.wafer w1 = some { Wafer.fresh true false with state := st } := by decide

theorem witness_PickAndPlaceMoveTheWafer_away :
    (moving .waiting (.pick (.carrier .one 1) .upper) LocationTable.reset).inAbsentCarrier (.carrier .one 1) = true
    ∧ (moving .returning (.place (.carrier .one 1) .lower) LocationTable.reset).inAbsentCarrier (.carrier .one 1) = true
    ∧ (moving .waiting (.place .st .lower) LocationTable.reset).at .la = .unknown
    ∧ (moving .waiting (.place .st .lower) LocationTable.reset).waferState w1 ≠ some .onStage := by decide

/-- An INVENTORY out, wafer 1 on UA. -/
def counting (mark : Bool) : State := { withLot (lotIn .running (wafersIn .ready)) with
  handling := { Handling.reset with
    state := .inventory, robot := some (robotOut .inventory), table := { LocationTable.reset with ua := .wafer w1 }, haltMark := mark
    homingDue := true } }
theorem witness_InventoryAgreesOrHalts : let s := counting false;
    (s.handling.robot = some (robotOut .inventory) ∧ s.handling.state = .inventory ∧ s.handling.uncertain = none
      ∧ (∀ l ∈ outsidePlaces, s.stateAt l ≠ some .orphaned) ∧ s.isSuspect w1 = false)
    ∧ ((∀ l ∈ outsidePlaces, (s.at l).name.isSome = (Sensed.get ⟨true, false, false, false⟩ l).getD false) ∧ s.handling.haltMark = false
      ∧ s.handling.homingDue = true ∧ s.homeAllowed = true)
    ∧ (s.at .st).name.isSome ≠ (Sensed.get ⟨true, false, false, true⟩ .st).getD false ∧ (counting true).handling.haltMark = true := by decide
theorem witness_InventoryAgreesOrHalts_suspects : let s := counting false;
    ∀ l ∈ outsidePlaces, ∀ w, s.at l = .wafer w → s.isSuspect w = false := by
  intro s l hl w hw
  have h : ∀ l ∈ outsidePlaces, (s.at l).name.elim true (fun w => !s.isSuspect w) = true := by decide
  have := h l hl
  rw [hw] at this
  simpa [Occupant.name] using this

/-- Wafer 1 suspect or not in state st, an INVENTORY out after an uncertain move of it. -/
def unsure (suspect : Bool) (st : WaferState) (source destination : Loc) (t : LocationTable) : State := { withLot (lotIn .running
    (wafersIn .waiting |>.set 0 { Wafer.fresh true false with state := st, pendingResult := if suspect then some .suspect else none })) with
  cell := ⟨false, .both true⟩
  handling := { Handling.reset with
    state := .inventory, robot := some (robotOut .inventory), table := t, uncertain := some ⟨.wafer w1, source, destination⟩ } }
def onlyAt (l : Loc) (carriers : Nat) : LocationTable :=
  { ua := if l = .ua then .wafer w1 else .empty, la := .empty, pa := .empty, st := .empty
    carriers := ⟨if l = .ua then List.replicate carriers .empty else .wafer w1 :: List.replicate (carriers - 1) .empty, []⟩
    putBack := false }
theorem witness_InventoryAgreesOrHalts_uncertain :
    (let s := unsure false .ready .ua .pa (onlyAt .ua 25);
      s.handling.robot = some (robotOut .inventory) ∧ s.handling.state = .inventory ∧ s.at .ua = .wafer w1
      ∧ s.handling.uncertain = some ⟨.wafer w1, .ua, .pa⟩ ∧ s.inAbsentCarrier .ua = false ∧ s.inAbsentCarrier .pa = false
      ∧ s.waferState w1 = some .ready ∧ s.isSuspect w1 = false
      ∧ UncertainMove.taken ⟨.wafer w1, .ua, .pa⟩ ⟨false, false, true, false⟩ = true
      ∧ UncertainMove.taken ⟨.wafer w1, .ua, .pa⟩ ⟨true, false, false, false⟩ = false)
    ∧ (let s := unsure true .unaligned .ua (.carrier .zero 1) (onlyAt .ua 25);
      s.at .ua = .wafer w1 ∧ s.isSuspect w1 = true ∧ WaferState.unaligned.isFinal = false ∧ s.inAbsentCarrier (.carrier .zero 1) = false
      ∧ UncertainMove.taken ⟨.wafer w1, .ua, .carrier .zero 1⟩ ⟨false, false, false, false⟩ = true)
    ∧ (let s := unsure true .waiting (.carrier .zero 1) .ua (onlyAt .st 25);
      s.at (.carrier .zero 1) = .wafer w1 ∧ s.isSuspect w1 = true
      ∧ UncertainMove.taken ⟨.wafer w1, .carrier .zero 1, .ua⟩ ⟨false, false, false, false⟩ = false)
    ∧ (∀ m ∈ outsidePlaces, m ≠ .ua → (unsure true .unaligned .ua (.carrier .zero 1) (onlyAt .ua 25)).at m ≠ .wafer w1) := by decide
theorem witness_InventoryAgreesOrHalts_place : (unsure true .unaligned .ua (.carrier .zero 1) (onlyAt .ua 25)).hasPlace (.carrier .zero 1) := by
  show 1 ≤ 1 ∧ 1 ≤ (List.replicate 25 (Occupant.empty)).length; decide
/-- An orphan on UA, and a suspect wafer on UA with no uncertain move. -/
theorem witness_InventoryAgreesOrHalts_orphan : (let s : State := { counting false with
        lots := ⟨lotIn .aborted (wafersIn .orphaned), Lot.reset⟩ };
      s.stateAt .ua = some .orphaned ∧ (Sensed.get ⟨false, false, false, false⟩ .ua) = some false ∧ s.handling.uncertain = none)
    ∧ (let s : State := { unsure true .ready .ua .pa (onlyAt .ua 25) with
          handling := { (unsure true .ready .ua .pa (onlyAt .ua 25)).handling with uncertain := none } };
      s.at .ua = .wafer w1 ∧ s.isSuspect w1 = true ∧ s.handling.uncertain = none
      ∧ (∀ m ∈ outsidePlaces, m ≠ .ua → s.at m ≠ .wafer w1)) := by decide

theorem witness_PrealignDoneMakesTheWaferReady :
    let s : State := { withLot (lotIn .running (wafersIn .prealigning)) with
      handling := { Handling.reset with prealigner := some ⟨3, 1, ⟨0, 15000⟩⟩, table := { LocationTable.reset with pa := .wafer w1 } } };
    s.handling.prealigner = some ⟨3, 1, ⟨0, 15000⟩⟩ ∧ s.at .pa = .wafer w1 ∧ s.waferState w1 = some .prealigning := by decide

def mapping (l : Lot) (cancelled : Bool) : State := { withLot l with
  handling := { Handling.reset with state := .idle, mapper := ⟨some ⟨3, cancelled, ⟨0, 15000⟩⟩, none⟩ } }
theorem witness_MapResultsAreApplied : (mapping Lot.reset true).handling.mapper.get .zero = some ⟨3, true, ⟨0, 15000⟩⟩
    ∧ (List.replicate 25 MapAnswer.cross).length = 25
    ∧ (let s := mapping (lotIn .running (wafersIn .waiting)) false;
      s.handling.mapper.get .zero = some ⟨3, false, ⟨0, 15000⟩⟩ ∧ (s.lot .zero).state.takesPosts = true
      ∧ s.waferState ⟨.zero, 25⟩ = some .waiting)
    ∧ ((mapping Lot.reset false).lot .zero).state.takesPosts = false := by decide
/-- A WAITING and a SKIPPED wafer of an active lot, and a wafer of an ABORTING one. -/
theorem witness_MapResultsAreApplied_wafers :
    (let s := mapping (lotIn .running ({ Wafer.fresh true false with state := .waiting } :: List.replicate 24 (Wafer.fresh false false))) false;
      s.wafer ⟨.zero, 1⟩ = some { Wafer.fresh true false with state := .waiting } ∧ s.wafer ⟨.zero, 25⟩ = some (Wafer.fresh false false)
      ∧ getAt (List.replicate 25 MapAnswer.cross) 1 = some .cross ∧ MapAnswer.cross ≠ .present
      ∧ (Wafer.fresh false false).state ≠ .waiting ∧ (Wafer.fresh false false).state ≠ .onStage)
    ∧ (let s := mapping (lotIn .aborting (wafersIn .unaligned)) false;
      (s.lot .zero).state.takesPosts = false ∧ (s.wafer ⟨.zero, 25⟩).isSome = true) := by decide

theorem witness_HandlerFaultsHaltHandling :
    (let s := moving .ready (.place .st .upper) { LocationTable.reset with ua := .wafer w1 };
      s.handling.state ∈ [.idle, .busy, .hold] ∧ s.handling.robot = some (robotOut (.place .st .upper))
      ∧ (robotOut (.place .st .upper)).kind.source = some .ua ∧ (robotOut (.place .st .upper)).kind.destination = some .st
      ∧ HandlerFaultCode.stopped ∈ [HandlerFaultCode.vacuumLost, .stopped, .driveFault] ∧ s.at .ua ≠ .unknown)
    ∧ ((counting false).handling.state = .inventory ∧ (robotOut .inventory).kind = .inventory)
    ∧ (let s : State := { handlingIn .hold with handling := { Handling.reset with state := .hold, prealigner := some ⟨3, 1, ⟨0, 15000⟩⟩ } };
      s.handling.state ∈ [.idle, .busy, .hold] ∧ s.handling.prealigner = some ⟨3, 1, ⟨0, 15000⟩⟩)
    ∧ (let s := mapping Lot.reset false;
      s.handling.state ∈ [.idle, .busy, .hold] ∧ s.handling.mapper.get .zero = some ⟨3, false, ⟨0, 15000⟩⟩) := by decide
/-- A cancelled MAP's order where an order may be sent, and where none may. -/
theorem witness_HandlerFaultsHaltHandling_cancelled : ∀ st ∈ [HandlingState.idle, .halted],
    let s : State := { mapping Lot.reset true with handling := { (mapping Lot.reset true).handling with state := st } };
    s.handling.mapper.get .zero = some ⟨3, true, ⟨0, 15000⟩⟩ ∧ s.handling.mapRequest.get .zero = false
    ∧ s.handling.state.mayOrder = decide (st = .idle) ∧ (⟨0, 15000⟩ : Timer).due 15000 = true := by decide
theorem witness_HandlerTimeoutsHaltHandling :
    (let s := moving .ready (.place .st .upper) { LocationTable.reset with ua := .wafer w1 };
      s.handling.state ∈ [.idle, .busy, .hold] ∧ s.handling.robot = some (robotOut (.place .st .upper)) ∧ s.at .ua ≠ .unknown)
    ∧ (let s : State := { handlingIn .hold with handling := { Handling.reset with state := .hold, prealigner := some ⟨3, 1, ⟨0, 15000⟩⟩ } };
      s.handling.state ∈ [.idle, .busy, .hold] ∧ s.handling.prealigner.isSome)
    ∧ (mapping Lot.reset false).handling.mapper.get .zero = some ⟨3, false, ⟨0, 15000⟩⟩
    ∧ ((robotOut .inventory).timer.due 30000 = true ∧ (robotOut .inventory).timer.due 29999 = false) := by decide
theorem witness_HandlerTimeoutsHaltHandling_inventory : let s : State := { counting false with clock := 30000 };
    s.handling.state = .inventory ∧ s.handling.robot = some (robotOut .inventory) ∧ (robotOut .inventory).kind = .inventory
    ∧ (robotOut .inventory).timer.due s.clock = true := by decide
theorem witness_StaleRepliesAreCounted : (counting false).isStale (.pickDone 7) ∧ ready.isStale (.homed 0)
    ∧ ready.isStale (.grabFault 0 1) ∧ ready.isStale (.mapDone .one 0 []) := by
  refine ⟨?_, ?_, ?_, ?_⟩
  · intro o h; cases h; exact .inr rfl
  · intro g o h; cases g <;> cases h
  · intro o h; cases h
  · intro o h; cases h
/-- R51's third form: ARRIVED with an outstanding HOME's tag, HOMED with an outstanding MOVE's. -/
theorem witness_StaleRepliesAreCounted_kind :
    ({ ready with motion := Motion.reset.setGroup .z ⟨some ⟨9, .home, ⟨0, 60000⟩, []⟩, none, none⟩ } : State).isStale (.arrived 9)
    ∧ ({ ready with motion := Motion.reset.setGroup .xy ⟨some (moveOut (.xy 0 0)), none, none⟩ } : State).isStale (.homed 9) := by
  constructor <;> intro g o h <;> cases g <;> cases h <;> simp [moveOut]

/-! ### Posting -/

theorem ready_entry (s : State) (ha : s.anchor = ready.anchor) (hp : s.path.windows = some demo) (hf : s.path.slot = .idle)
    (hd : s.wb.direct = []) : s.ReadyFor (.defectEntry .zero 4095) := by
  refine readyFor_of (by rw [ha]; rfl) hf hd ?_
  unfold State.wordAt State.regions
  rw [ha, hp]
  exact show ∀ w < 16, ready.wordAt ((ready.regions.recordBase (.defectEntry .zero 4095) + 4 * w) % 2 ^ 28)
    = .defect .zero 4095 w by decide

theorem ready_wafer (s : State) (ha : s.anchor = ready.anchor) (hp : s.path.windows = some demo) (hf : s.path.slot = .idle)
    (hd : s.wb.direct = []) : s.ReadyFor (.waferEntry .zero 25) := by
  refine readyFor_of (by rw [ha]; rfl) hf hd ?_
  unfold State.wordAt State.regions
  rw [ha, hp]
  exact show ∀ w < 32, ready.wordAt ((ready.regions.recordBase (.waferEntry .zero 25) + 4 * w) % 2 ^ 28)
    = .waferEntry .zero 25 w by decide

/-- A capture line with every word valid. -/
def fullLine : CaptureLine := ⟨.zero, 4095, List.replicate 8 ⟨1, true⟩⟩
/-- The version word of entry 4095 waits in the write queue, so the part answers it. -/
def knowing (lines : List CaptureLine) (n : Nat) : State := { ready with
  path := { ready.path with capture := lines }
  mport := ⟨[.write (0x10000 + 64 * 4095 + 60) 8 (.defectEntry .zero 4095)], none, false⟩
  revisit := { Revisit.reset with posting := List.replicate n (Entry.fresh .zero 0 [] 1) } }

theorem witness_PostTakenListsTheEntry_missing : let s := knowing [] 15;
    s.ReadyFor (.defectEntry .zero 4095) ∧ s.oldVersion .zero 4095 = some 8 ∧ s.path.closedLock.get .zero = false
    ∧ s.entryLive .zero 4095 = false ∧ s.revisit.posting.length < 16
    ∧ missingFrom 0 ((s.capture .zero 4095 6 codePost 15).handedWords .zero 4095) ≠ [] ∧ s.storeEntry .zero 4095 = none :=
  ⟨ready_entry _ rfl rfl rfl rfl, by decide, rfl, by decide, by decide, by decide, by decide⟩
theorem witness_PostTakenListsTheEntry_filled : let s := knowing [fullLine] 15;
    s.oldVersion .zero 4095 = some 8 ∧ s.entryLive .zero 4095 = false
    ∧ missingFrom 0 ((s.capture .zero 4095 6 codePost 15).handedWords .zero 4095) = [] ∧ s.storeEntry .zero 4095 = none
    ∧ ∀ x ∈ s.revisit.posting, x.is .zero 4095 = false := by decide
theorem witness_PostTakenListsTheEntry_again :
    let e : Entry := { entryIn 4095 .reviewed with bin := some 3 };
    let s := storing ready e;
    s.ReadyFor (.defectEntry .zero 4095) ∧ s.oldVersion .zero 4095 = some 0 ∧ s.entryLive .zero 4095 = false
    ∧ missingFrom 0 ((s.capture .zero 4095 6 codePost 15).handedWords .zero 4095) ≠ [] ∧ s.storeEntry .zero 4095 = some e
    ∧ e.state = .reviewed ∧ e.rowClosed = false ∧ e.bin = some 3 ∧ s.row e.wafer = some (Row.fresh .none) :=
  ⟨ready_entry _ rfl rfl rfl rfl, by decide, by decide, by decide, by decide, rfl, rfl, rfl, by decide⟩
theorem witness_PostTakenListsTheEntry_again_filled :
    let s : State := { storing ready (entryIn 4095 .reviewed) with path := { ready.path with capture := [fullLine] } };
    s.ReadyFor (.defectEntry .zero 4095) ∧ s.oldVersion .zero 4095 = some 0 ∧ s.entryLive .zero 4095 = false
    ∧ missingFrom 0 ((s.capture .zero 4095 6 codePost 15).handedWords .zero 4095) = []
    ∧ s.storeEntry .zero 4095 = some (entryIn 4095 .reviewed) ∧ ∀ x ∈ s.revisit.posting, x.is .zero 4095 = false :=
  ⟨ready_entry _ rfl rfl rfl rfl, by decide, by decide, by decide, by decide, by decide⟩
/-- The POST held for its version word, which is being read. -/
def awaitingVersion : State := { serving ready (.postVersion .zero 4095) with
  path := { ready.path with slot := .held (ready.recordWrite (.defectEntry .zero 4095) 6 codePost 15) .postVersion } }
theorem witness_PostTakenListsTheEntry_read : let s := awaitingVersion;
    s.anchor.attach = .attached ∧ s.Watches (.defectEntry .zero 4095) ∧ s.path.offered = []
    ∧ s.path.slot = .held (s.recordWrite (.defectEntry .zero 4095) 6 codePost 15) .postVersion
    ∧ s.mport.serving = some .part ∧ s.mport.requests = [.postVersion .zero 4095] ∧ s.storeEntry .zero 4095 = none :=
  ⟨rfl, (ready_entry ready rfl rfl rfl rfl).watches, rfl, rfl, rfl, rfl, rfl⟩

theorem witness_PostNotTakenIsCountedOrHeld :
    ((storing ready (entryIn 4095 .queued)).ReadyFor (.defectEntry .zero 4095)
      ∧ (storing ready (entryIn 4095 .queued)).entryLive .zero 4095 = true)
    ∧ ((knowing [] 16).ReadyFor (.defectEntry .zero 4095) ∧ (knowing [] 16).entryLive .zero 4095 = false
      ∧ 16 ≤ (knowing [] 16).revisit.posting.length)
    ∧ ready.ReadyFor (.defectEntry .zero 4095) ∧ ready.entryLive .zero 4095 = false ∧ ready.oldVersion .zero 4095 = none :=
  ⟨⟨ready_entry _ rfl rfl rfl rfl, by decide⟩, ⟨ready_entry _ rfl rfl rfl rfl, by decide, by decide⟩,
    ready_entry _ rfl rfl rfl rfl, by decide, by decide⟩

/-- A POSTING record waiting for words 3 and, with `more`, 5. -/
def halfPosted (more : Bool) : Entry :=
  { Entry.fresh .zero 7 ((hostWords 101 1 1 2 5).set 3 none) 1 with
    host := if more then ((hostWords 101 1 1 2 5).set 3 none).set 5 none else (hostWords 101 1 1 2 5).set 3 none }
theorem witness_FilledPostIsChecked : ∀ more : Bool,
    let s : State := { serving ready (.fill .zero 7 3) with revisit := { Revisit.reset with posting := [halfPosted more] } };
    s.path.windows = some demo ∧ s.mport.serving = some .part ∧ s.mport.requests = [.fill .zero 7 3]
    ∧ (s.revisit.posting.find? fun x => x.is .zero 7) = some (halfPosted more)
    ∧ (more = true → none ∈ (halfPosted more).host.set 3 (some 9)) ∧ (more = false → none ∉ (halfPosted more).host.set 3 (some 9)) := by
  decide

/-- The post of wafer 4's entry 3 with its last word asked for, at a revisit limit of 3 or 4, and its checks passed or failed. -/
def checked (limit : Int) (e : Entry) : State := { withLot { lotIn .running (wafersIn .waiting) with
    recipe := some { workedDies with revisitLimit := limit, pitchX := 12000000, pitchY := 12000000 } } with
  reports := ⟨openReport, Report.reset⟩
  revisit := { Revisit.reset with
    posting := [e], store := [{ site 0 2 5 1 with host := hostWords 101 4 1 5 2 }, { site 1 3 7 2 with host := hostWords 102 4 1 7 3 },
      { site 2 5 1 3 with host := hostWords 103 4 2 1 5 }] } }
def lastWord : Entry := { site 3 1 0 4 with state := .posting, host := hostWords 104 4 3 0 1 }
theorem witness_FilledPostIsChecked_checks :
    (checked 4 lastWord).postCheck lastWord = none ∧ (checked 4 lastWord).admittedOf ⟨.zero, 4⟩ = 3
    ∧ ((checked 3 lastWord).queuedOf ⟨.zero, 4⟩).getLast?.map (fun d => (d.index, d.priority, lastWord.priority)) = some (1, 1, 3)
    ∧ (checked 3 lastWord).recipe .zero = { workedDies with revisitLimit := 3, pitchX := 12000000, pitchY := 12000000 }
    ∧ ((checked 3 lastWord).queuedOf ⟨.zero, 4⟩).all (fun d => decide ({ lastWord with host := hostWords 104 4 1 0 1 }.priority ≤ d.priority)) = true
    ∧ (checked 3 lastWord).postCheck { lastWord with host := hostWords 0 4 3 0 1 } = some .zeroId
    ∧ (checked 3 lastWord).wb.direct = [] := by decide

theorem witness_WithdrawEndsAQueuedEntry : let s := storing ready (entryIn 4095 .queued);
    (s.ReadyFor (.defectEntry .zero 4095) ∧ s.entry .zero 4095 = some (entryIn 4095 .queued)
      ∧ s.row (entryIn 4095 .queued).wafer = some (Row.fresh .none) ∧ (Row.fresh .none).state = .opened)
    ∧ ((storing ready (entryIn 4095 .active)).entry .zero 4095 = some (entryIn 4095 .active)) ∧ ready.entry .zero 4095 = none :=
  ⟨⟨ready_entry _ rfl rfl rfl rfl, by decide, by decide, rfl⟩, by decide, by decide⟩

/-- Slot 0 RUNNING with wafer 25 on the stage and the unit waiting for posts to it. -/
def waiting : State := { reviewing .onStage .waiting with revisit := { Revisit.reset with wafer := some ⟨.zero, 25⟩, review := .waiting } }
theorem witness_PostingCloseEndsAWaitingReview :
    (waiting.ReadyFor (.waferEntry .zero 25) ∧ (waiting.lot .zero).state.takesPosts = true ∧ waiting.revisit.review = .waiting
      ∧ waiting.revisit.wafer = some ⟨.zero, 25⟩ ∧ waiting.waferState ⟨.zero, 25⟩ = some .onStage)
    ∧ (reviewing .onStage .revisiting).revisit.review ≠ .waiting ∧ (ready.lot .zero).state ∈ [.empty, .starting, .aborting]
    ∧ waiting.path.closedLock.get .zero = false
    ∧ (let s : State := { ready with path := { ready.path with closedLock := ⟨true, false⟩ } };
      s.ReadyFor (.waferEntry .zero 25) ∧ s.path.closedLock.get .zero = true) :=
  ⟨⟨ready_wafer _ rfl rfl rfl rfl, rfl, rfl, rfl, by decide⟩, by decide, by decide, rfl, ready_wafer _ rfl rfl rfl rfl, rfl⟩
theorem witness_PostingCloseEndsAWaitingReview_wafer :
    waiting.wafer ⟨.zero, 25⟩ = some { Wafer.fresh true false with state := .onStage } := by decide

theorem witness_RowCloseClosesAFinalWafersRow :
    (let s := storing (withLot (lotIn .running (wafersIn .returned))) (entryIn 0 .reviewed);
      s.ReadyFor (.waferEntry .zero 25) ∧ s.path.closedLock.get .zero = false ∧ (s.report .zero).state = .opened
      ∧ s.row ⟨.zero, 25⟩ = some (Row.fresh .none) ∧ s.waferState ⟨.zero, 25⟩ = some .returned ∧ WaferState.returned.isFinal = true)
    ∧ (let s := storing (withLot (lotIn .running (wafersIn .returning))) (entryIn 0 .reviewed);
      s.rowClosed ⟨.zero, 25⟩ = false ∧ s.waferState ⟨.zero, 25⟩ = some .returning ∧ WaferState.returning.isFinal = false)
    ∧ ((ready.report .zero).state = .none ∧ ready.path.closedLock.get .zero = false)
    ∧ (let s : State := { ready with
          path := { ready.path with closedLock := ⟨true, false⟩ }, reports := ⟨{ openReport with state := .closed }, Report.reset⟩ };
      s.ReadyFor (.waferEntry .zero 25) ∧ s.path.closedLock.get .zero = true ∧ (s.report .zero).state = .closed) :=
  ⟨⟨ready_wafer _ rfl rfl rfl rfl, rfl, rfl, by decide, by decide, rfl⟩, by decide, ⟨rfl, rfl⟩, ready_wafer _ rfl rfl rfl rfl, rfl, rfl⟩

/-- A REVIEWED record with class table and class lock as given. -/
def classing (valid : Bool) (locked : List ClassLocked) : State := { storing ready (entryIn 4095 .reviewed) with
  classTable := { ClassTable.reset with valid := valid }
  reports := ⟨{ openReport with classLock := locked }, Report.reset⟩ }
theorem witness_ClassWritesAreCountedOnce :
    (let s := classing true [];
      s.ReadyFor (.defectEntry .zero 4095) ∧ s.classLocked .zero 4095 = none ∧ (1 : Enables).getLsbD 0 = true
      ∧ s.storeEntry .zero 4095 = some (entryIn 4095 .reviewed) ∧ s.row (entryIn 4095 .reviewed).wafer = some (Row.fresh .none))
    ∧ ((classing true [⟨4095, 1⟩]).classLocked .zero 4095 = some ⟨4095, 1⟩ ∧ (classing true [⟨4095, 1⟩]).row w1 = some (Row.fresh .none))
    ∧ (classing false []).classTable.valid = false ∧ ready.storeEntry .zero 4095 = none :=
  ⟨⟨ready_entry _ rfl rfl rfl rfl, by decide, by decide, by decide, by decide⟩, by decide, by decide, by decide⟩

theorem witness_ClassTableTakesWritesOverFetches : ready.classTable.bytes.length = 256
    ∧ (ready.PathFree ∧ ready.anchor.attach = .attached ∧ ready.wordAt (ready.classTableWrite 63 5 9).addr = .classTable 63)
    ∧ (serving ready (.classTable 63)).mport.requests = [.classTable 63] :=
  ⟨List.length_replicate, ⟨free_of rfl rfl, rfl, by decide⟩, rfl⟩

theorem witness_HostWritesAreCaptured : (knowing [fullLine] 0).ReadyFor (.defectEntry .zero 4095)
    ∧ (knowing [fullLine] 0).path.closedLock.get .zero = false ∧ 7 ∈ [0, 1, 2, 3, 4, 7] :=
  ⟨ready_entry _ rfl rfl rfl rfl, rfl, by decide⟩
/-- Sixteen lines, none of them the entry's. -/
def fullCache : List CaptureLine := (List.range 16).map fun i => { fullLine with index := i }
theorem witness_HostWritesAreCaptured_seventeenth :
    ((knowing fullCache 0).path.capture.filter (fun x => !(x.slot == .zero && x.index == 4095))).length = 16
    ∧ ((knowing (fullLine :: fullCache.drop 1) 0).path.capture.filter (fun x => !(x.slot == .zero && x.index == 4095))).length = 15 := by
  decide

/-! ### The motion, grab and sensor links -/

/-- Wafer 1 of slot 0 on the stage with the given settle time, an order of group g out, and a waiting request or none. -/
def moved (g : MotionGroup) (o : MotionOrder) (w : Option WaitingMove) (settle : Int) : State := { reviewing .onStage .revisiting with
  lots := ⟨{ lotIn .running (wafersIn .onStage) with recipe := some { Recipe.blank with settleTime := settle } }, Lot.reset⟩
  motion := Motion.reset.setGroup g ⟨some o, none, w⟩ }
def toSite : MotionOrder := moveOut (.xy 170000000 (-170000000))
def toFocus : MotionOrder := moveOut (.z 3000000)

theorem witness_ArrivedMoveSettles :
    ((moved .xy toSite none 20).Awaits .xy toSite ∧ (moved .xy toSite none 20).settleTime ≠ 0)
    ∧ ((moved .z toFocus none 20).Awaits .z toFocus ∧ (moved .z toFocus none 20).settleTime ≠ 0)
    ∧ ((moved .xy toSite none 0).Awaits .xy toSite ∧ (moved .xy toSite none 0).settleTime = 0
      ∧ (moved .xy toSite none 0).motion.xyGroup.waiting = none)
    ∧ (moved .z toFocus none 0).Awaits .z toFocus ∧ (moved .z toFocus none 0).settleTime = 0
      ∧ (moved .z toFocus none 0).motion.zGroup.waiting = none :=
  ⟨⟨⟨rfl, fun h => by cases h⟩, by decide⟩, ⟨⟨rfl, fun _ p h => by cases h⟩, by decide⟩, ⟨⟨rfl, fun h => by cases h⟩, by decide, rfl⟩,
    ⟨rfl, fun _ p h => by cases h⟩, by decide, rfl⟩
/-- With settle time 0 and a request waiting: one that is sent, and one that is refused. -/
theorem witness_ArrivedMoveSettles_waiting :
    (let s := moved .xy toSite (some ⟨.xy 5 5, false, [⟨.revisit, 2⟩]⟩) 0;
      s.Awaits .xy toSite ∧ s.settleTime = 0 ∧ s.motion.xyGroup.waiting = some ⟨.xy 5 5, false, [⟨.revisit, 2⟩]⟩)
    ∧ ∀ z ∈ [(3000000 : Int), 3000001], let s := moved .z toFocus (some ⟨.z z, false, [⟨.autofocus, 2⟩]⟩) 0;
      s.Awaits .z toFocus ∧ s.settleTime = 0 ∧ s.motion.zGroup.waiting = some ⟨.z z, false, [⟨.autofocus, 2⟩]⟩ :=
  ⟨⟨⟨rfl, fun h => by cases h⟩, by decide, rfl⟩, fun _ _ => ⟨⟨rfl, fun _ p h => by cases h⟩, rfl, rfl⟩⟩

def settlingIn (w : Option WaitingMove) : State := { ready with
  motion := Motion.reset.setGroup .z ⟨none, some ⟨⟨0xFFFFFFFF, 20⟩, [⟨.autofocus, 1⟩]⟩, w⟩ }
theorem witness_SettleExpiryAnswersTheRequesters :
    (settlingIn none).motion.zGroup.settling = some ⟨⟨0xFFFFFFFF, 20⟩, [⟨.autofocus, 1⟩]⟩ ∧ (settlingIn none).motion.zGroup.waiting = none
    ∧ (settlingIn (some ⟨.z 5, false, []⟩)).motion.zGroup.waiting = some ⟨.z 5, false, []⟩
    ∧ (⟨0xFFFFFFFF, 20⟩ : Timer).due 19 = true ∧ (⟨0xFFFFFFFF, 20⟩ : Timer).due (settlingIn none).clock = false
    ∧ (⟨0xFFFFFFFF, 20⟩ : Timer).due 18 = false := by decide

def homing (g : MotionGroup) : State := { ready with motion := Motion.reset.setGroup g ⟨some ⟨9, .home, ⟨0, 60000⟩, []⟩, none, none⟩ }
theorem witness_HomedAxesAreReferenced : (homing .xy).motion.Sound ∧ (homing .xy).Awaits .xy ⟨9, .home, ⟨0, 60000⟩, []⟩
    ∧ (homing .z).motion.Sound ∧ (homing .z).Awaits .z ⟨9, .home, ⟨0, 60000⟩, []⟩ :=
  ⟨⟨rfl, rfl, rfl, rfl⟩, ⟨rfl, fun h => by cases h⟩, ⟨rfl, rfl, rfl, rfl⟩, ⟨rfl, fun _ p h => by cases h⟩⟩

theorem witness_MotionFaultsStopTheGroup : let s := moved .xy toSite none 20;
    s.Awaits .xy toSite ∧ (s.motion.group .xy).order = some toSite ∧ s.anchor.attach = .attached
    ∧ s.handling.state ∈ [.idle, .busy, .hold] ∧ (s.motion.group .xy).waiting = none ∧ s.stateAt .st = some .onStage
    ∧ s.revisit.wafer.isSome = true ∧ s.revisit.review.inProgress = true
    ∧ toSite.timer.due 5000 = true ∧ toSite.timer.due 4999 = false :=
  ⟨⟨rfl, fun h => by cases h⟩, by decide, rfl, by decide, by decide, by decide, by decide, by decide, by decide, by decide⟩
theorem witness_MotionFaultsStopTheGroup_entries :
    let s : State := { revisitingTwo with motion := Motion.reset.setGroup .z ⟨some toFocus, none, none⟩ };
    (s.motion.group .z).order = some toFocus ∧ (s.motion.group .z).waiting = none ∧ s.stateAt .st = some .onStage
    ∧ s.revisit.wafer = some w1 ∧ (s.queuedOf w1).map (·.index) = [1]
    ∧ s.revisit.active = some ⟨.zero, 0, .grab, ⟨0, 0⟩, 0, none, none, none⟩ ∧ s.storeEntry .zero 0 = some (entryIn 0 .active)
    ∧ (entryIn 0 .active).state = .active := by decide

/-- The recipe of 04's worked case, with the tolerances, mark count and residual tolerance given. -/
def marks (scale residual count : Int) : Recipe := { Recipe.blank with
  p1x := -100000000, p2x := 100000000, p3y := 100000000, markCount := count, markRetryLimit := 1
  scaleTolerance := scale, rotationTolerance := 200, residualTolerance := residual }
/-- A mark grab out at mark n, after the given attempts: 04's marks found so far and the targets they were looked for at. -/
def measuring (n attempts : Nat) (c : Recipe) : State := { reviewing .onStage .aligning with
  lots := ⟨{ lotIn .running (wafersIn .onStage) with recipe := some c }, Lot.reset⟩
  align := { Align.reset with
    wafer := some w1, state := .measuring, mark := n, phase := .grab, attempts := attempts
    a := if n = 3 then 1073784774 else Align.reset.a, b := if n = 3 then 107374 else 0
    tx := if n = 3 then -8000 else 0, ty := if n = 3 then 45000 else 0
    m1 := ⟨some ⟨-100000000, 0⟩, if n = 1 then none else some ⟨-100012000, 35000⟩⟩
    m2 := ⟨if n = 1 then none else some ⟨100000000, 0⟩, none⟩, m3 := ⟨if n = 3 then some ⟨-18000, 100049000⟩ else none, none⟩ }
  grab := ⟨5, some (grabOut .mark), none⟩, motion := homed }
theorem witness_MarkResultsAlignTheWafer : ∀ n ∈ [1, 2, 3], let s := measuring n 0 (marks 50 2000 3);
    s.grab.outstanding = some (grabOut .mark) ∧ (grabOut .mark).discard = false ∧ (grabOut .mark).ask.kind = .mark
    ∧ s.align.grabbing = true ∧ s.align.wafer = some w1 ∧ s.align.mark = n ∧ (s.wafer w1).isSome = true
    ∧ s.revisit.wafer = some w1 ∧ s.grab.waiting = none ∧ s.waferState w1 = some .onStage := by decide +kernel
/-- Mark 1's next target in and out of travel. -/
theorem witness_MarkResultsAlignTheWafer_one : let s := measuring 1 0 (marks 50 2000 3);
    (s.align.convert (marks 50 2000 3) ((marks 50 2000 3).markAt 2)).inTravel = true
    ∧ (let c := { marks 50 2000 3 with p2x := 200000000 }; ((measuring 1 0 c).align.convert c (c.markAt 2)).inTravel = false)
    ∧ (500000 : Int).natAbs ≤ 500000 ∧ 500000 < (-500001 : Int).natAbs := by decide +kernel
/-- At mark 2 the offset (-4,000, 55,000) nm gives 04's solve: it passes at 50 ppm with a third mark and without, and fails at 30. -/
theorem witness_MarkResultsAlignTheWafer_two : let s := measuring 2 0 (marks 50 2000 3);
    let v := solve ((marks 50 2000 3).turnedMark 1) ((marks 50 2000 3).turnedMark 2) (s.align.m1.measured.getD ⟨0, 0⟩)
      ⟨s.align.target.x + -4000, s.align.target.y + 55000⟩;
    v = workedSolve ∧ solveCheck (marks 50 2000 3) v = none ∧ (marks 50 2000 3).markCount = 3 ∧ solveCheck (marks 50 2000 2) v = none
    ∧ (marks 50 2000 2).markCount ≠ 3 ∧ solveCheck (marks 30 2000 3) v = some .scale
    ∧ (fineTransform v.a v.b v.tx v.ty ((marks 50 2000 3).turnedMark 3)).inTravel = true
    ∧ (fineTransform v.a v.b v.tx v.ty ({ marks 50 2000 3 with p3y := 170000000 }.turnedMark 3)).inTravel = false := by
  decide +kernel
/-- At mark 3 an offset of 1,500 and 900 nm leaves a residual of 1,500: within a tolerance of 1,500, beyond one of 1,499. -/
theorem witness_MarkResultsAlignTheWafer_three : let s := measuring 3 0 (marks 50 1500 3);
    let d := residual ⟨s.align.target.x + 1500, s.align.target.y + 900⟩ (s.align.convert (marks 50 1500 3) ((marks 50 1500 3).markAt 3));
    (d : Int) ≤ (marks 50 1500 3).residualTolerance ∧ (marks 50 1499 3).residualTolerance < (d : Int)
    ∧ ((measuring 3 0 (marks 50 1500 3)).align.attempts : Int) + 1 ≤ (marks 50 1500 3).markRetryLimit
    ∧ (marks 50 1500 3).markRetryLimit < ((measuring 3 1 (marks 50 1500 3)).align.attempts : Int) + 1 := by decide +kernel

/-- An entry ACTIVE in phase GRAB, its grab out. -/
def grabbing (limit : Int) : State := { storing (reviewing .onStage .revisiting) (entryIn 0 .active) with
  lots := ⟨{ lotIn .running (wafersIn .onStage) with recipe := some { Recipe.blank with retryLimit := limit, markRetryLimit := limit } }, Lot.reset⟩
  revisit := { Revisit.reset with
    store := [entryIn 0 .active], wafer := some w1, review := .revisiting
    active := some ⟨.zero, 0, .grab, ⟨0, 0⟩, 0, none, none, none⟩ }
  grab := ⟨5, some (grabOut .defect), none⟩, motion := homed }
theorem witness_GrabDoneReviewsTheEntry : let s := grabbing 1;
    s.grab.outstanding = some (grabOut .defect) ∧ (grabOut .defect).ask.kind = .defect
    ∧ s.revisit.active = some ⟨.zero, 0, .grab, ⟨0, 0⟩, 0, none, none, none⟩ ∧ s.storeEntry .zero 0 = some (entryIn 0 .active)
    ∧ s.row (entryIn 0 .active).wafer = some (Row.fresh .none) ∧ (entryIn 0 .active).state = .active ∧ (Row.fresh .none).state = .opened := by
  decide
theorem witness_GrabFailuresAreRetried : (grabbing 0).grab.outstanding = some (grabOut .defect)
    ∧ ((entryIn 0 .active).attempts : Int) + 1 ≤ ((grabbing 1).recipe .zero).retryLimit
    ∧ ((grabbing 0).recipe .zero).retryLimit < ((entryIn 0 .active).attempts : Int) + 1
    ∧ (let s := measuring 2 0 (marks 50 2000 3);
      s.grab.outstanding = some (grabOut .mark) ∧ s.align.grabbing = true ∧ s.align.wafer = some w1
      ∧ (s.align.attempts : Int) + 1 ≤ (s.recipe .zero).markRetryLimit ∧ s.grab.waiting = none)
    ∧ (let s := measuring 2 1 (marks 50 2000 3); (s.recipe .zero).markRetryLimit < (s.align.attempts : Int) + 1)
    ∧ ((grabOut .mark).timer.due 3000 = true ∧ (grabOut .mark).timer.due 2999 = false)
    ∧ (let s : State := { ready with grab := ⟨5, some { grabOut .mark with discard := true }, none⟩ };
      s.grab.outstanding = some { grabOut .mark with discard := true } ∧ s.grab.waiting = none) := by decide

def receiving (link : LinkState) (good : Nat) (a : Assembler) : State :=
  { ready with sensor := { Sensor.reset with link := link, good := good, assembler := a } }
/-- Fifteen words of a frame, their ones even in number. -/
def fifteen : List (BitVec 16) := List.replicate 15 3
theorem witness_SensorWordsMakeFrames : (receiving .down 0 (.outside true false)).sensor.assembler = .outside true false
    ∧ (receiving .locked 2 (.outside false false)).sensor.link = .locked
    ∧ (receiving .hunt 0 (.inside (fifteen.take 14) false 0)).sensor.assembler = .inside (fifteen.take 14) false 0
    ∧ (fifteen.take 14).length < 15 ∧ fifteen.length = 15
    ∧ parityGood (fifteen ++ [3]) false = true ∧ parityGood (fifteen ++ [3]) true = false
    ∧ (receiving .hunt 1 (.inside fifteen false 0)).sensor.good = 1 ∧ (receiving .hunt 0 (.inside fifteen false 0)).sensor.good = 0 := by
  decide

/-- A measurement in the window once, its last frame one word short, at point (0, 0). -/
def focusing : State := { receiving .locked 2 (.inside fifteen false 8) with
  lots := ⟨{ lotIn .running (wafersIn .onStage) with recipe := some { Recipe.blank with framesPerMeasurement := 2, focusWindow := 500 } }, Lot.reset⟩
  af := { Autofocus.reset with
    state := .measure, request := some ⟨.revisit, w1, ⟨0, 0⟩, 1250000⟩, zTarget := 1248571, epoch := 8, taken := 1, sum := 1000
    inWindow := 1 } }
theorem witness_FocusedHeightIsLearned : let s := focusing;
    let f := summarise (s.sensor.sequence + 1) (fifteen ++ [3]) s.af.epoch s.lightMinimum;
    s.sensor.link = .locked ∧ s.sensor.assembler = .inside fifteen false s.af.epoch ∧ parityGood (fifteen ++ [3]) false = true
    ∧ f.dark = false ∧ s.af.state = .measure ∧ s.af.request = some ⟨.revisit, w1, ⟨0, 0⟩, 1250000⟩ ∧ s.af.inWindow = 1
    ∧ (s.recipe .zero).framesPerMeasurement = (s.af.taken : Int) + 1
    ∧ ((rnd (s.af.sum + f.e) (s.af.taken + 1)).natAbs : Int) ≤ (s.recipe .zero).focusWindow
    ∧ rnd (s.af.sum + f.e) (s.af.taken + 1) = 500 := by decide
/-- The clauses at their bounds: each word pattern with its focus error, at the state given. -/
def focusingWith (c : Recipe) (a : Autofocus) (e : Word) : State := { receiving .locked 2 (.inside fifteen false e) with
  lots := ⟨{ lotIn .running (wafersIn .onStage) with recipe := some c }, Lot.reset⟩, af := a }
def measurement : Autofocus := { Autofocus.reset with
  state := .measure, request := some ⟨.revisit, w1, ⟨0, 0⟩, 1250000⟩, zTarget := 1250000, epoch := 8, budget := 2 }
theorem witness_FocusedHeightIsLearned_accepts : ∃ f, focusing.Accepts 3 f ∧ f.epoch = focusing.af.epoch ∧ f.dark = false :=
  ⟨summarise (focusing.sensor.sequence + 1) (fifteen ++ [3]) 8 focusing.lightMinimum,
    ⟨rfl, fifteen, false, 8, rfl, rfl, by decide, rfl⟩, by decide, by decide⟩
/-- Another epoch than the measurement's, the motion unit's and not; a frame not the last; one outside the window with iterations left,
with none left, and stepping out of the focus range. -/
theorem witness_FocusedHeightIsLearned_rows :
    let c : Recipe := { Recipe.blank with
      framesPerMeasurement := 2, focusWindow := 499, iterationLimit := 1, focusGain := 32767, stepMaximum := 1000
      zLow := 1249500, zHigh := 1300000 };
    let f := summarise 1 (fifteen ++ [3]) 8 0;
    (f.epoch ≠ 9 ∧ (focusingWith c { measurement with epoch := 9 } 8).motion.epoch ≠ f.epoch)
    ∧ (summarise 1 (fifteen ++ [3]) 0 0).epoch = (focusingWith c measurement 0).motion.epoch
    ∧ ((measurement.taken : Int) + 1 < c.framesPerMeasurement)
    ∧ (let b := { measurement with taken := 1, sum := 1000 };
      let e := rnd (b.sum + f.e) (b.taken + 1);
      c.framesPerMeasurement ≤ (b.taken : Int) + 1 ∧ e = 500 ∧ c.focusWindow < (e.natAbs : Int) ∧ (b.iterations : Int) + 1 ≤ c.iterationLimit
      ∧ c.iterationLimit < (({ b with iterations := 1 }).iterations : Int) + 1
      ∧ b.zTarget - clamp (-c.stepMaximum) c.stepMaximum (rnd (e * c.focusGain) 32768) = 1249500
      ∧ 1249500 < ({ c with zLow := 1249501 }).zLow) := by decide +kernel
/-- A dark frame (16 zero words): the next position of the search lies in the range, or none of the budget's does. -/
theorem witness_FocusedHeightIsLearned_dark :
    let f := summarise 1 (List.replicate 16 0) 8 0;
    let at_ (n : Nat) : Int := if n % 2 = 1 then 1250000 + ((n + 1) / 2 : Nat) * workedSearch.searchStep
      else 1250000 - (n / 2 : Nat) * workedSearch.searchStep;
    (summarise 1 (List.replicate 16 0) 8 1).dark = true ∧ f.epoch = measurement.epoch
    ∧ (workedSearch.zLow ≤ at_ 1 ∧ at_ 1 ≤ workedSearch.zHigh) ∧ measurement.atSearch = false
    ∧ (let c := { workedSearch with zLow := 1250000, zHigh := 1250000 }; ∀ n ∈ [1, 2], at_ n < c.zLow ∨ c.zHigh < at_ n) := by
  decide +kernel
theorem witness_SilenceTakesTheLinkDown :
    let s : State := { ready with clock := 2, sensor := { Sensor.reset with silence := some ⟨0, 2⟩ } };
    s.sensor.silence = some ⟨0, 2⟩ ∧ (⟨0, 2⟩ : Timer).due s.clock = true ∧ (⟨0, 2⟩ : Timer).due 1 = false := by decide
theorem witness_AutofocusExpiryFailsTheRequest : let s : State := { focusing with af := { focusing.af with timer := some ⟨0, 10000⟩ } };
    s.af.timer = some ⟨0, 10000⟩ ∧ s.af.request.isSome = true ∧ s.af.state ∈ [.prefocus, .measure, .step, .search]
    ∧ (⟨0, 10000⟩ : Timer).due 10000 = true ∧ (⟨0, 10000⟩ : Timer).due 9999 = false := by decide
/-- The revisit unit in phase FOCUS, with an attempt left and with none. -/
theorem witness_AutofocusExpiryFailsTheRequest_answer : ∀ limit : Bool,
    let s : State := { grabbing (if limit then 1 else 0) with
      grab := ⟨5, none, none⟩, revisit := { (grabbing 0).revisit with active := some ⟨.zero, 0, .focus, ⟨0, 0⟩, 0, none, none, none⟩ } };
    s.revisit.active = some ⟨.zero, 0, .focus, ⟨0, 0⟩, 0, none, none, none⟩ ∧ s.storeEntry .zero 0 = some (entryIn 0 .active)
    ∧ (entryIn 0 .active).state = .active ∧ s.grab.outstanding = none
    ∧ (limit = true → ((entryIn 0 .active).attempts : Int) + 1 ≤ (s.recipe .zero).retryLimit)
    ∧ (limit = false → (s.recipe .zero).retryLimit < ((entryIn 0 .active).attempts : Int) + 1) := by decide
theorem witness_PostingWaitExpiryEndsTheReview : let s : State := { waiting with revisit := { waiting.revisit with timer := some ⟨0, 30000⟩ } };
    s.revisit.timer = some ⟨0, 30000⟩ ∧ s.revisit.wafer = some ⟨.zero, 25⟩ ∧ s.waferState ⟨.zero, 25⟩ = some .onStage
    ∧ (⟨0, 30000⟩ : Timer).due 30000 = true ∧ (⟨0, 30000⟩ : Timer).due 29999 = false := by decide

/-! ## Single steps -/

/-- 10, R174: the anchor's place by ANCHOR_SEL; 02, R45: the lines read afresh. -/
theorem test_reset_samples_lines : (after (.hardwareReset 3 ⟨true, .both true⟩) ready).anchor.base = 0xFFFF000
    ∧ (after (.hardwareReset 3 ⟨true, .both true⟩) ready).cell.interlockOpen = true
    ∧ (after (.hardwareReset 1 ⟨false, .both false⟩) ready).anchor.base = 0x0400000 := by decide +kernel

/-- 05, Worked sequence, steps 1, 5, 7 and 11. -/
theorem test_word_wakes_the_link : (after (.sensorWord 3 false false) (receiving .down 0 (.outside true false))).sensor.link = .hunt := by
  decide +kernel
theorem test_frame_locks : let s := after (.sensorWord 3 false false) (receiving .hunt 1 (.inside fifteen false 0));
    s.sensor.link = .locked ∧ s.sensor.good = 2 ∧ s.sensor.sequence = 1 ∧ s.sensor.ring.length = 1 := by decide +kernel
theorem test_parity_unlocks : let s := after (.sensorWord 3 false false) (receiving .locked 2 (.inside fifteen true 0));
    s.sensor.link = .hunt ∧ s.sensor.good = 0 ∧ s.sensor.parityErrors = 1 ∧ s.notice.pending = 0x40 := by decide +kernel
theorem test_stray_is_a_misframe : let s := after (.sensorWord 3 false false) (receiving .locked 2 (.outside false false));
    s.sensor.link = .hunt ∧ s.sensor.misframes = 1 ∧ s.sensor.assembler = .outside false true := by decide +kernel

/-- 03, Worked sequence: 1,180, 3,420 (MOVE_Z tag 42 times out: STOP with the next tag, then the way to the load position). -/
def siteMove (g : MotionGroup) (o : MotionOrder) (tag : Tag) : State := { moved g o none 20 with
  clock := 1180, motion := { homed.setGroup g ⟨some o, none, none⟩ with tag := tag, epoch := 57 } }
theorem test_arrived_settles : let s := after (.arrived 9) (siteMove .z (moveOut (.z 1300000)) 42);
    s.motion.z.state = .settling ∧ s.motion.z.position = 1300000 ∧ s.motion.epoch = 57
    ∧ s.motion.zGroup.settling = some ⟨⟨1180, 20⟩, [⟨.revisit, 1⟩]⟩ := by decide +kernel
theorem test_settle_advances_epoch :
    let s := after (.settleTimerExpiry .z) { after (.arrived 9) (siteMove .z (moveOut (.z 1300000)) 42) with clock := 1200 };
    s.motion.z.state = .idle ∧ s.motion.epoch = 58 := by decide +kernel
def lateMove : State := { siteMove .z ⟨42, .move (.z 1298571), ⟨1420, 2000⟩, []⟩ 43 with clock := 3420 }
theorem test_motion_timeout : let s := after (.motionOrderTimeout .z) lateMove;
    s.motion.z.state = .fault ∧ s.out = [.stop 43 .z, .move 44 (.xy 0 (-165000000))] ∧ s.revisit.review = .ended
    ∧ s.waferState w1 = some .reviewEnded ∧ s.handling.state = .halted ∧ s.notice.pending = 0x30 := by decide +kernel
theorem test_late_answer_is_stale : (after (.arrived 42) ready).anchor.stale = 1 := by decide +kernel

/-- 02, Worked sequence: the swap, steps 4 to 5: W2 placed on ST, and W1 goes home from LA. -/
def swapping : State := { withLot (lotIn .running ((wafersIn .waiting).set 0 { Wafer.fresh true false with state := .returning }
    |>.set 1 { Wafer.fresh true false with state := .ready })) with
  cell := ⟨false, ⟨true, false⟩⟩, motion := { homed with x := ⟨.idle, true, 0, 0⟩, y := ⟨.idle, true, -165000000, 0⟩ }
  handling := { Handling.reset with
    state := .busy, robot := some ⟨18, .place .st .upper, ⟨0, 30000⟩⟩, tag := 19, carrierMap := ⟨some (List.replicate 25 .present), none⟩
    table := { LocationTable.reset with ua := .wafer ⟨.zero, 2⟩, la := .wafer w1, pa := .empty, st := .empty } } }
theorem test_swap_step : let s := after (.placeDone 18) swapping;
    s.at .st = .wafer ⟨.zero, 2⟩ ∧ s.at .ua = .empty ∧ s.waferState ⟨.zero, 2⟩ = some .onStage
    ∧ s.handling.robot = some ⟨19, .place (.carrier .zero 1) .lower, ⟨0, 30000⟩⟩ ∧ s.handling.tag = 20 ∧ s.handling.state = .busy := by
  decide +kernel

/-- 08, Worked sequence, 13,760: a grab times out, and the entry is moved again at the nominal height. -/
theorem test_grab_timeout_retries : let s := after .grabTimeout { grabbing 1 with clock := 3000 };
    (s.storeEntry .zero 0).map (·.attempts) = some 1 ∧ s.revisit.active.map (·.phase) = some .move ∧ s.grab.outstanding = none := by
  decide +kernel
/-- 05, R90: an expiry that stands behind the word of its millisecond does not happen. -/
theorem test_word_before_silence : let s : State := { receiving .locked 2 (.outside false false) with
      clock := 2, sensor := { (receiving .locked 2 (.outside false false)).sensor with silence := some ⟨0, 2⟩ } };
    (after .silenceTimerExpiry s).sensor.link = .down
    ∧ (after .silenceTimerExpiry (after (.sensorWord 3 true false) s)).sensor.link = .locked := by decide +kernel
theorem test_grab_done_reviews : let s := after (.grabDone 4 5010 2) (grabbing 1);
    (s.storeEntry .zero 0).map (fun e => (e.state, e.firstFrame, e.frames)) = some (.reviewed, 5010, 2)
    ∧ s.revisit.review = .waiting ∧ s.notice.pending = 4 := by decide +kernel

/-- 09, Worked sequence, steps 7 and 11: a counted bin moves; a locked class write is masked and late. -/
def classified : State := { storing ready { entryIn 0 .reviewed with bin := some 3 } with
  classTable := { ClassTable.reset with bytes := ClassTable.reset.bytes.set 40 ⟨7, false⟩, valid := true }
  reports := ⟨{ openReport with rows := List.replicate 25 { Row.fresh .none with bins := (List.replicate 16 0).set 3 1 } }, Report.reset⟩ }
theorem test_class_moves_bin : let s := after (.classWrite .zero 0 40 15) classified;
    (s.row w1).map (·.bins) = some ((List.replicate 16 0).set 7 1) ∧ (s.storeEntry .zero 0).map (·.bin) = some (some 7) := by decide +kernel
theorem test_locked_class_is_late : let s := after (.classWrite .zero 4095 41 15) (classing true [⟨4095, 1⟩]);
    (s.row w1).map (·.late) = some 1 ∧ s.anchor.masked = 1 ∧ s.notice.pending = 0x80 := by decide +kernel

/-- 10, Worked sequence: a refusal under queue pressure: a direct write enters only when its 8 words fit. -/
def pressed (n : Nat) : State := { ready with
  mport := { queueOf n with drain := true }
  wb := { WriteBack.reset with direct := [⟨.defectEntry .zero 0, Entry.image { entryIn 0 .refused with reason := .zeroId }⟩]
                               versions := [(.defectEntry .zero 0, 1)] } }
theorem test_direct_write_waits : (after .writerMove (pressed 28)).mport.queued = 28
    ∧ (after .writerMove (pressed 28)).wb.direct.length = 1 := by decide +kernel
theorem test_direct_write_enters : (after .writerMove (pressed 24)).mport.queued = 32 ∧ (after .writerMove (pressed 24)).wb.direct = []
    ∧ (after .writerMove (pressed 24)).readWord (0x10000 + 32) = ofLanes EntryState.refused.code EntryReason.zeroId.code 0 0 := by
  decide +kernel

/-- The same, step for step: the word that makes the eighth place is served, and the direct write enters in that step. -/
theorem test_direct_write_enters_served : let s : State := { pressed 25 with mport := { (pressed 25).mport with serving := some .part } };
    (after .writeQueueWordWritten s).mport.queued = 32 ∧ (after .writeQueueWordWritten s).wb.direct = [] := by decide +kernel
/-- 10, R185: a waiting P-port access is served at 23 queued words, waits at 24, waits on at 17 and is served at 16. -/
theorem test_arbiter : ([(23, false), (24, false), (17, true), (16, true)].map fun (x : Nat × Bool) =>
    (after .interlockOpen (contending x.1 x.2)).mport.serving) = [some .pPort, some .part, some .part, some .pPort] := by decide +kernel
/-- 04, Worked case: mark 2's measurement gives the coefficients; with a third mark it is looked for at (-18,000, 100,049,000). -/
theorem test_solve_step : let t := after (.markResult 4 true (-4000) 55000) (measuring 2 0 (marks 50 2000 3));
    t.align.state = .measuring ∧ t.align.mark = 3 ∧ t.align.m3.target = some ⟨-18000, 100049000⟩ ∧ t.align.a = 1073784774 := by
  decide +kernel
theorem test_solve_fails : let t := after (.markResult 4 true (-4000) 55000) (measuring 2 0 (marks 30 2000 3));
    t.align.state = .failed ∧ t.align.reason = .scale ∧ (t.wafer w1).map (·.pendingResult) = some (some .alignFailed) := by decide +kernel
/-- 04, R81 and 07, R152: a carrier loss cuts the alignment off, and the orphan's pending result is ABORTED. -/
theorem test_loss_cuts_alignment : let t := after (.carrierLoss .zero) alignedAway;
    t.align.state = .failed ∧ t.align.reason = .lotAbort
    ∧ (t.wafer w1).map (fun x => (x.state, x.pendingResult)) = some (.orphaned, some .aborted) := by decide +kernel

/-- 10, Worked sequence: filling a posted entry, step 7: two words missing, the capture-miss count becomes 4, the line is freed. -/
def captured : State := { ready with
  anchor := { ready.anchor with captureMiss := 3 }
  path := { ready.path with
    capture := [⟨.zero, 40, [⟨1, true⟩, ⟨1, true⟩, ⟨1, true⟩, ⟨1, false⟩, ⟨1, true⟩, ⟨0, false⟩, ⟨0, false⟩, ⟨1, true⟩]⟩] }
  mport := ⟨[.write (0x10000 + 64 * 40 + 60) 8 (.defectEntry .zero 40)], none, false⟩ }
theorem test_post_asks_missing_words : let s := after (.post .zero 40 15) captured;
    s.mport.requests.drop 1 = [.fill .zero 40 3, .fill .zero 40 5] ∧ s.anchor.captureMiss = 4 ∧ s.path.capture = []
    ∧ s.version (.defectEntry .zero 40) = 9 := by decide +kernel

/-- 07, Worked sequence, step 4: the revisit limit is reached, and a higher priority displaces the last of the lowest. -/
def sampled (i priority row col : Nat) : Entry :=
  { Entry.fresh .zero i (hostWords (101 + BitVec.ofNat 32 i) 4 priority col row) (i + 1) with state := .queued }
def limited : State := { withLot { lotIn .running (wafersIn .waiting) with
    recipe := some { workedDies with revisitLimit := 3, pitchX := 12000000, pitchY := 12000000 } } with
  reports := ⟨openReport, Report.reset⟩
  revisit := { Revisit.reset with
    posting := [{ sampled 3 3 1 0 with state := .posting, host := (sampled 3 3 1 0).host.set 7 none }]
    store := [sampled 0 1 2 5, sampled 1 1 3 7, sampled 2 2 5 1] }
  mport := ⟨[.fill .zero 3 7], some .part, false⟩ }
theorem test_displacement : let s := after .fillReadDone limited;
    (s.queuedOf ⟨.zero, 4⟩).map (·.index) = [3, 2, 0] ∧ (s.storeEntry .zero 1).map (fun e => (e.state, e.reason)) = some (.notSampled, .displaced)
    ∧ (s.row ⟨.zero, 4⟩).map (fun r => (r.posts, r.outcomes.notSampled)) = some (1, 1) := by decide +kernel

/-- 01, R2 and 10, R179: a partial START is masked and asks for nothing; 10, R189: a partial mask write takes its lanes. -/
theorem test_partial_start_is_masked : let s := after (.start .zero 7) (withLot Lot.reset);
    (s.lot .zero).state = .empty ∧ s.anchor.masked = 1 := by decide +kernel
theorem test_mask_lanes : (after (.noticeMaskWrite 0xFFFFFFFF 1) State.reset).notice.mask = 0xFF := by decide +kernel
theorem test_notice_clear : (after (.noticeClear 5 15) { ready with notice := { Notice.reset with pending := 7 } }).notice.pending = 2 := by
  decide +kernel

/-- 02, R29: an ABORT of a STARTING lot clears its port's MAP request flag. -/
theorem test_abort_starting_clears_map : let s := after (.abort .zero 15) { withLot (lotIn .starting []) with
      handling := { Handling.reset with mapRequest := ⟨true, true⟩ } };
    (s.lot .zero).state = .aborting ∧ s.handling.mapRequest = ⟨false, true⟩ := by decide +kernel
/-- 06, R101 and R103: a frame of the motion unit's newer epoch begins the measurement again, with no measurement in the window yet. -/
theorem test_new_epoch_restarts : let s := after (.sensorWord 3 false false) { focusing with
      motion := { Motion.reset with epoch := 8 }, af := { focusing.af with epoch := 7 } };
    s.af.state = .measure ∧ s.af.epoch = 8 ∧ s.af.taken = 1 ∧ s.af.inWindow = 0 := by decide +kernel

/-- 10, R175: ATTACH asks for the ten layout words, and an accepted layout sends INVENTORY. -/
theorem test_attach_asks_layout : (after (.attach 15) State.reset).mport.requests.length = 10
    ∧ (after (.attach 15) State.reset).anchor.attach = .checking := by decide +kernel
theorem test_attached_sends_inventory : let s := after .attachLayoutReadDone (checking demoWords [(48, 0x40), (50, 5)]);
    s.anchor.attach = .attached ∧ s.out = [.robot 0 .inventory] ∧ s.notice.pending = 0x200 ∧ s.version (.lotHeader .one) = 1 := by
  decide +kernel

/-- 02, R36 and R38: a VACUUM_LOST leaves the move uncertain; a carrier loss orphans a wafer outside. -/
theorem test_vacuum_lost : let s := after (.handlerFault .robot 7 .vacuumLost) (moving .ready (.place .st .upper) { LocationTable.reset with ua := .wafer w1 });
    s.handling.state = .halted ∧ s.handling.uncertain = some ⟨.wafer w1, .ua, .st⟩ ∧ s.notice.pending = 0x10 := by decide +kernel
theorem test_carrier_loss : let s := after (.carrierLoss .zero) { withLot (lotIn .running (wafersIn .ready)) with cell := ⟨false, .both true⟩ };
    s.waferState ⟨.zero, 25⟩ = some .orphaned ∧ (s.lot .zero).state = .aborted := by decide +kernel

/-- 06, R110: an ABORT while the mark is grabbed, with the answer taken, makes autofocus IDLE. -/
theorem test_abort_idles_autofocus : let s := after (.abort .zero 15) { measuring 1 0 (marks 50 2000 3) with
      af := { Autofocus.reset with state := .focused, request := some ⟨.alignment, w1, ⟨0, 0⟩, 1250000⟩, outcome := some (.focused 1248571) } };
    s.af.state = .idle ∧ s.af.outcome = none ∧ s.align.reason = .lotAbort := by decide +kernel
/-- 06, R105: the refusal of autofocus's own request is answered Z_REFUSED, which ends a review at its last mark attempt, and the fault
reported after it makes the unit IDLE; after another unit's request the fault leaves it FAILED, ST's wafer being under no review. -/
theorem test_refusal_then_fault : ∀ own : Bool,
    let s := measuring 1 1 (marks 50 2000 3);
    let s : State := { s with
      align := { s.align with phase := .focus }
      af := { Autofocus.reset with state := .prefocus, request := some ⟨.alignment, w1, ⟨0, 0⟩, 1250000⟩, zReq := some 7 } };
    let u := (s.refuseFirst [.refused ⟨.autofocus, 7⟩ .z .notReady]).reportAfterRefusal own;
    u.align.state = .failed ∧ u.af.state = if own then .idle else .failed := by decide +kernel

/-- A tick of an idle block (log entry 1), and the queue taken first in, first out. -/
theorem test_idle_step_counts : (match step { ready with clock := 0xFFFFFFFF } with | .next t => t.clock | _ => 1) = 0 := by decide +kernel
theorem test_queue_order : (match step { ready with pending := [.interlockOpen, .interlockClose] } with
    | .next t => (t.pending, t.cell.interlockOpen)
    | _ => ([], false)) = ([.interlockClose], true) := by decide +kernel

end Sys2Proof.Tests
end

section
/-! SUPPORT. The sensor link's words and its silence: what a word makes of the receiver's record, what a frame's arrival and the
consequences leave of it, and the two statements O55 and O57. -/

namespace Sys2Proof.Machine

/-! ## A frame's arrival at the autofocus unit leaves the receiver as it is (R101 to R107, R112) -/

/-- What consequences leave alone, the focus map aside, which a frame's arrival may teach a height (R112). -/
def State.keptBesideMap (s : State) : Kept := { s.kept with focusMap := [] }

theorem Quiet.keptBesideMap {s t : State} (h : Quiet s t) : t.keptBesideMap = s.keptBesideMap := by
  simp only [State.keptBesideMap, h.kept]

@[simp] theorem State.setAf_keptBesideMap (s : State) (a : Autofocus) : (s.setAf a).keptBesideMap = s.keptBesideMap := rfl

@[simp] theorem State.answerFocus_keptBesideMap (s : State) (o : FocusOutcome) :
    (s.answerFocus o).keptBesideMap = s.keptBesideMap := (quiet_answerFocus (.refl s) o).keptBesideMap

@[simp] theorem State.failFocus_keptBesideMap (s : State) (why : FocusReason) :
    (s.failFocus why).keptBesideMap = s.keptBesideMap := (quiet_failFocus (.refl s) why).keptBesideMap

@[simp] theorem State.beginMeasureAt_keptBesideMap (s : State) (epoch : Word) :
    (s.beginMeasureAt epoch).keptBesideMap = s.keptBesideMap := (quiet_beginMeasureAt (.refl s) epoch).keptBesideMap

@[simp] theorem State.focusMove_keptBesideMap (s : State) (st : FocusState) (z : Int) :
    (s.focusMove st z).keptBesideMap = s.keptBesideMap := (quiet_focusMove (.refl s) st z).keptBesideMap

@[simp] theorem State.endFocused_keptBesideMap (s : State) : s.endFocused.keptBesideMap = s.keptBesideMap := by
  simp only [State.endFocused, State.answerFocus_keptBesideMap, State.setAf_keptBesideMap]
  cases s.af.request <;> rfl

@[simp] theorem State.stepFocus_keptBesideMap (s : State) (e : Int) : (s.stepFocus e).keptBesideMap = s.keptBesideMap := by
  unfold State.stepFocus
  dsimp only
  split <;> simp

/-- A lit measurement ends the request, begins another measurement, or steps. -/
@[simp] theorem State.evaluateLit_keptBesideMap (s : State) (e : Int) : (s.evaluateLit e).keptBesideMap = s.keptBesideMap := by
  unfold State.evaluateLit
  dsimp only
  split
  · split <;> simp
  · split <;> simp

/-- A dark measurement moves to a search position, or ends the request. -/
@[simp] theorem State.evaluateDark_keptBesideMap (s : State) : s.evaluateDark.keptBesideMap = s.keptBesideMap := by
  have begun : ∀ (p : Prop) [Decidable p] (a : Autofocus), (if p then s else s.setAf a).keptBesideMap = s.keptBesideMap := by
    intro p _ a
    split <;> rfl
  unfold State.evaluateDark
  dsimp only
  split <;> simp [begun]

@[simp] theorem State.takeFrame_keptBesideMap (s : State) (f : Summary) : (s.takeFrame f).keptBesideMap = s.keptBesideMap := by
  unfold State.takeFrame
  dsimp only
  split
  · simp
  · split <;> simp

/-- A frame's arrival changes nothing of what consequences leave alone but the focus map. -/
@[simp] theorem State.frameArrival_keptBesideMap (s : State) (f : Summary) :
    (s.frameArrival f).keptBesideMap = s.keptBesideMap := by
  unfold State.frameArrival
  split
  · rfl
  · split
    · simp
    · split <;> simp

@[simp] theorem State.frameArrival_sensor (s : State) (f : Summary) : (s.frameArrival f).sensor = s.sensor :=
  (congrArg Kept.sensor (s.frameArrival_keptBesideMap f) :)

@[simp] theorem State.frameArrival_clock (s : State) (f : Summary) : (s.frameArrival f).clock = s.clock :=
  (congrArg Kept.clock (s.frameArrival_keptBesideMap f) :)

/-! ## What a step's consequences and its end leave of the receiver -/

@[simp] theorem State.after_sensor (s u : State) : (s.after u).sensor = u.sensor :=
  (State.finish_sensor s u.settle).trans (congrArg Kept.sensor u.settle_kept :)

@[simp] theorem State.after_clock (s u : State) : (s.after u).clock = u.clock :=
  (State.finish_clock s u.settle).trans (congrArg Kept.clock u.settle_kept :)

/-- A notice that a command's own effect has raised is pending at the step's end. -/
theorem State.after_noticed (s : State) {u : State} {j : Nat} (h : u.notice.pending.getLsbD j = true) :
    (s.after u).notice.pending.getLsbD j = true := by
  rw [State.after, State.finish_notice]
  exact (quiet_settle (.refl u)).news.noticed j h

/-! ## The silence timer and the link at a word's arrival (R89, R90) -/

/-- The receiver's record at a word's arrival at clock value `now`, before the assembler takes the word. -/
def Sensor.woken (n : Sensor) (now : Word) : Sensor :=
  { n with
    silence := some ⟨now, 2⟩
    link := if n.link = .down then .hunt else n.link
    good := if n.link = .down then 0 else n.good }

theorem Sensor.woken_link_ne_down (n : Sensor) (now : Word) : (n.woken now).link ≠ .down := by
  unfold Sensor.woken
  dsimp only
  split
  · simp
  · assumption

theorem Sensor.woken_of_locked {n : Sensor} (h : n.link = .locked) (now : Word) : (n.woken now).link = .locked := by
  simp [Sensor.woken, h]

theorem State.takeWord_eq (s : State) (w : BitVec 16) (mark parity : Bool) :
    s.takeWord w mark parity = (s.setSensor (s.sensor.woken s.clock)).assemble w mark parity := by
  unfold State.takeWord
  by_cases h : s.sensor.link = .down
  · simp [h, Sensor.woken, Timer.at, silenceTimeout]
  · simp [h, Sensor.woken, Timer.at, silenceTimeout]

/-- A state as a SENSOR_WORD's assembler finds it. -/
def State.woken (s : State) : State := s.begin.setSensor (s.sensor.woken s.clock)

@[simp] theorem State.woken_sensor (s : State) : s.woken.sensor = s.sensor.woken s.clock := rfl
@[simp] theorem State.woken_clock (s : State) : s.woken.clock = s.clock := rfl
@[simp] theorem State.woken_motion (s : State) : s.woken.motion = s.motion := rfl

/-- SENSOR_WORD is the assembler's work on the woken state, with its consequences. -/
theorem exec_sensorWord_eq (s : State) (w : BitVec 16) (mark parity : Bool) :
    exec (.sensorWord w mark parity) s = .next (s.after (s.woken.assemble w mark parity)) :=
  congrArg (fun u => Host.Outcome.next (s.after u)) (s.begin.takeWord_eq w mark parity)

/-- What a SENSOR_WORD makes of the receiver's record is what the assembler makes of the woken one. -/
theorem exec_sensorWord_sensor {s : State} {w : BitVec 16} {mark parity : Bool} {n : Sensor}
    (h : (s.woken.assemble w mark parity).sensor = n) : ∃ t, exec (.sensorWord w mark parity) s = .next t ∧ t.sensor = n :=
  ⟨_, exec_sensorWord_eq s w mark parity, by rw [State.after_sensor, h]⟩

/-- A word that is a bad frame or a misframe: its record, and LINK_LOST where the link was LOCKED. -/
theorem exec_sensorWord_bad {s : State} {w : BitVec 16} {mark parity : Bool} {n : Sensor}
    (h : (s.woken.assemble w mark parity).sensor = n)
    (lost : s.woken.sensor.link = .locked → s.woken.anchor.attach = .attached →
      (s.woken.assemble w mark parity).notice.pending.getLsbD 6 = true) :
    ∃ t, exec (.sensorWord w mark parity) s = .next t ∧ t.sensor = n
      ∧ (s.sensor.link = .locked → s.anchor.attach = .attached → t.notice.pending.getLsbD 6 = true) :=
  ⟨_, exec_sensorWord_eq s w mark parity, by rw [State.after_sensor, h],
    fun hl ha => State.after_noticed s (lost (Sensor.woken_of_locked hl s.clock) ha)⟩

/-! ## Bad frames, misframes and good frames (R87, R88, R89) -/

theorem State.badFrame_sensor {s : State} (h : s.sensor.link ≠ .down) :
    s.badFrame.sensor = { s.sensor with link := .hunt, good := 0 } := by
  unfold State.badFrame
  split
  next => simp
  next hl => simp [← hl]
  next hl => exact absurd hl h

/-- A notice raised while ATTACHED is pending (R188). -/
theorem State.raise_noticed {s : State} (h : s.anchor.attach = .attached) (k : NoticeKind) :
    (s.raise k).notice.pending.getLsbD k.number = true := by
  rw [State.raise_of (.inl h)]
  cases k <;> simp [NoticeKind.number]

/-- A bad frame on a LOCKED link raises LINK_LOST while ATTACHED. -/
theorem State.badFrame_linkLost {s : State} (hl : s.sensor.link = .locked) (ha : s.anchor.attach = .attached) :
    s.badFrame.notice.pending.getLsbD 6 = true := by
  unfold State.badFrame
  rw [hl]
  refine State.raise_noticed ?_ .linkLost
  exact ha

theorem State.misframe_sensor {s : State} (h : s.sensor.link ≠ .down) (next : Assembler) :
    (s.misframe next).sensor = { s.sensor with
      assembler := next, misframes := satInc 65535 s.sensor.misframes, link := .hunt, good := 0 } :=
  State.badFrame_sensor h

@[simp] theorem State.misframe_motion (s : State) (next : Assembler) : (s.misframe next).motion = s.motion := by
  unfold State.misframe State.badFrame
  split <;> simp

/-- A MARK that cuts a frame off is a misframe, and begins the next frame. -/
theorem State.misframe_beginFrame_sensor {s : State} (h : s.sensor.link ≠ .down) (next : Assembler) (w : BitVec 16)
    (parity : Bool) : ((s.misframe next).beginFrame w parity).sensor = { s.sensor with
      assembler := .inside [w] parity s.motion.epoch, misframes := satInc 65535 s.sensor.misframes, link := .hunt, good := 0 } := by
  simp [State.beginFrame, State.misframe_sensor h]

theorem State.acceptFrame_sensor (s : State) (words : List (BitVec 16)) (epoch : Word) :
    (s.acceptFrame words epoch).sensor = { s.sensor with
      sequence := s.sensor.sequence + 1
      ring := (s.sensor.ring ++ [summarise (s.sensor.sequence + 1) words epoch s.lightMinimum]).drop
        (s.sensor.ring.length + 1 - 8) } := by
  simp [State.acceptFrame, ringAdd, ringSize]

/-- A good frame is accepted on a LOCKED link, and in HUNT when it is the second in a row, which makes the link LOCKED. -/
theorem State.goodFrame_accepted {s : State} (h : s.sensor.link = .locked ∨ (s.sensor.link = .hunt ∧ s.sensor.good = 1))
    (words : List (BitVec 16)) (epoch : Word) : (s.goodFrame words epoch).sensor = { s.sensor with
      link := .locked
      good := if s.sensor.link = .hunt then 2 else s.sensor.good
      sequence := s.sensor.sequence + 1
      ring := (s.sensor.ring ++ [summarise (s.sensor.sequence + 1) words epoch s.lightMinimum]).drop
        (s.sensor.ring.length + 1 - 8) } := by
  obtain hl | ⟨hl, hg⟩ := h
  · simp [State.goodFrame, hl, State.acceptFrame_sensor]
  · simp [State.goodFrame, hl, hg, State.acceptFrame_sensor]
    rfl

/-- The first good frame in HUNT is counted. -/
theorem State.goodFrame_counted {s : State} (hl : s.sensor.link = .hunt) (hg : s.sensor.good = 0) (words : List (BitVec 16))
    (epoch : Word) : (s.goodFrame words epoch).sensor = { s.sensor with good := 1 } := by
  simp [State.goodFrame, hl, hg]

theorem State.judgeFrame_good {s : State} {words : List (BitVec 16)} {p : Bool} (h : parityGood words p = true) (epoch : Word) :
    s.judgeFrame words p epoch = (s.setSensor { s.sensor with assembler := .outside false false }).goodFrame words epoch :=
  if_pos h

theorem State.judgeFrame_eq_badFrame {s : State} {words : List (BitVec 16)} {p : Bool} (h : parityGood words p = false) (epoch : Word) :
    s.judgeFrame words p epoch = (s.setSensor { s.sensor with
      assembler := .outside false false, parityErrors := satInc 65535 s.sensor.parityErrors }).badFrame :=
  if_neg (by simp [h])

theorem State.judgeFrame_bad_sensor {s : State} (hl : s.sensor.link ≠ .down) {words : List (BitVec 16)} {p : Bool}
    (h : parityGood words p = false) (epoch : Word) : (s.judgeFrame words p epoch).sensor = { s.sensor with
      assembler := .outside false false, parityErrors := satInc 65535 s.sensor.parityErrors, link := .hunt, good := 0 } := by
  rw [State.judgeFrame_eq_badFrame h]
  exact State.badFrame_sensor (s := s.setSensor _) hl

/-! ## The assembler by its state and the word (R86, R87) -/

theorem State.assemble_begin {s : State} {j y : Bool} (h : s.sensor.assembler = .outside j y) (w : BitVec 16) (parity : Bool) :
    s.assemble w true parity = s.beginFrame w parity := by
  simp [State.assemble, h]

/-- A word without a MARK is discarded uncounted while joining, and after the first stray one. -/
theorem State.assemble_discard {s : State} {j y : Bool} (h : s.sensor.assembler = .outside j y) (hj : j = true ∨ y = true)
    (w : BitVec 16) (parity : Bool) : s.assemble w false parity = s := by
  obtain rfl | rfl := hj
  · simp [State.assemble, h]
  · simp [State.assemble, h]

theorem State.assemble_stray {s : State} (h : s.sensor.assembler = .outside false false) (w : BitVec 16) (parity : Bool) :
    s.assemble w false parity = s.misframe (.outside false true) := by
  simp [State.assemble, h]

theorem State.assemble_cut {s : State} {ws : List (BitVec 16)} {p : Bool} {e : Word} (h : s.sensor.assembler = .inside ws p e)
    (w : BitVec 16) (parity : Bool) : s.assemble w true parity = (s.misframe (.outside false false)).beginFrame w parity := by
  simp [State.assemble, h]

theorem State.assemble_take {s : State} {ws : List (BitVec 16)} {p : Bool} {e : Word} (h : s.sensor.assembler = .inside ws p e)
    (hw : ws.length < 15) (w : BitVec 16) (parity : Bool) :
    s.assemble w false parity = s.setSensor { s.sensor with assembler := .inside (ws ++ [w]) p e } := by
  simp [State.assemble, h, show ws.length + 1 < frameWords by unfold frameWords; omega]

theorem State.assemble_judge {s : State} {ws : List (BitVec 16)} {p : Bool} {e : Word} (h : s.sensor.assembler = .inside ws p e)
    (hw : ws.length = 15) (w : BitVec 16) (parity : Bool) : s.assemble w false parity = s.judgeFrame (ws ++ [w]) p e := by
  simp [State.assemble, h, hw, frameWords]

/-! ## The assembler leaves the silence timer and the clock -/

theorem State.badFrame_silence_clock (s : State) : s.badFrame.sensor.silence = s.sensor.silence ∧ s.badFrame.clock = s.clock := by
  unfold State.badFrame
  split <;> simp

theorem State.acceptFrame_silence_clock (s : State) (words : List (BitVec 16)) (epoch : Word) :
    (s.acceptFrame words epoch).sensor.silence = s.sensor.silence ∧ (s.acceptFrame words epoch).clock = s.clock := by
  simp [State.acceptFrame]

theorem State.goodFrame_silence_clock (s : State) (words : List (BitVec 16)) (epoch : Word) :
    (s.goodFrame words epoch).sensor.silence = s.sensor.silence ∧ (s.goodFrame words epoch).clock = s.clock := by
  unfold State.goodFrame
  split
  · exact s.acceptFrame_silence_clock words epoch
  · split
    · exact ⟨rfl, rfl⟩
    · exact State.acceptFrame_silence_clock _ words epoch
  · exact ⟨rfl, rfl⟩

theorem State.judgeFrame_silence_clock (s : State) (words : List (BitVec 16)) (parity : Bool) (epoch : Word) :
    (s.judgeFrame words parity epoch).sensor.silence = s.sensor.silence ∧ (s.judgeFrame words parity epoch).clock = s.clock := by
  unfold State.judgeFrame
  dsimp only
  split
  · exact State.goodFrame_silence_clock _ words epoch
  · exact State.badFrame_silence_clock _

/-- Whatever the assembler makes of a word, the silence timer and the clock stay. -/
theorem State.assemble_silence_clock (s : State) (w : BitVec 16) (mark parity : Bool) :
    (s.assemble w mark parity).sensor.silence = s.sensor.silence ∧ (s.assemble w mark parity).clock = s.clock := by
  unfold State.assemble
  split
  · split_ifs
    · exact ⟨rfl, rfl⟩
    · exact ⟨rfl, rfl⟩
    · exact ⟨rfl, rfl⟩
    · exact State.badFrame_silence_clock _
  · split_ifs
    · exact State.badFrame_silence_clock (s.setSensor _)
    · exact ⟨rfl, rfl⟩
    · exact s.judgeFrame_silence_clock _ _ _

/-! ## The silence timer's expiry (R90, R91) -/

/-- The receiver's record once the link is DOWN. -/
def Sensor.fallen (n : Sensor) : Sensor :=
  { n with link := .down, good := 0, assembler := .outside true false, ring := [], silence := none }

theorem State.raise_setSensor (s : State) (n : Sensor) (k : NoticeKind) :
    (s.setSensor n).raise k = (s.raise k).setSensor n := by
  by_cases h : s.anchor.attach = .attached ∨ k = .attachResult
  · rw [State.raise_of h, State.raise_of (s := s.setSensor n) h]
    rfl
  · obtain ⟨ha, hk⟩ := not_or.mp h
    rw [State.raise_not ha hk, State.raise_not (s := s.setSensor n) ha hk]

theorem State.fallSilent_eq (s : State) :
    s.fallSilent = (if s.sensor.link = .locked then s.raise .linkLost else s).setSensor s.sensor.fallen := by
  unfold State.fallSilent
  dsimp only
  split
  · exact State.raise_setSensor s _ _
  · rfl

theorem exec_silenceTimerExpiry_due {s : State} {t : Timer} (h : s.sensor.silence = some t) (hd : t.due s.clock = true) :
    exec .silenceTimerExpiry s = .next (State.finish s s.begin.fallSilent) := by
  show Host.Outcome.next (State.finish s s.begin.silenceTimesOut) = _
  simp only [State.silenceTimesOut, State.begin_sensor, h, State.whenDue_due s.begin hd]

/-- An expiry of a timer that is not due changes nothing. -/
theorem exec_silenceTimerExpiry_not {s : State} {t : Timer} (h : s.sensor.silence = some t) (hd : t.due s.clock = false) :
    exec .silenceTimerExpiry s = .next (State.finish s s.begin) := by
  show Host.Outcome.next (State.finish s s.begin.silenceTimesOut) = _
  simp only [State.silenceTimesOut, State.begin_sensor, h, State.whenDue_not s.begin hd]

/-- The silence timer started now is not due now. -/
theorem not_due_at_start (now : Word) : (⟨now, 2⟩ : Timer).due now = false := by
  simp [Timer.due]

theorem State.begin_fallSilent_content (s : State) : s.begin.fallSilent.content
    = ({ (if s.sensor.link = .locked then s.raise .linkLost else s) with out := [], sensor := s.sensor.fallen } : State).content := by
  rw [State.fallSilent_eq, State.begin_sensor]
  split
  · rw [State.begin_raise]
    rfl
  · rfl

theorem State.begin_fallSilent_sensor (s : State) : s.begin.fallSilent.sensor = s.sensor.fallen := by
  rw [State.fallSilent_eq]
  rfl

theorem State.begin_fallSilent_clock (s : State) : s.begin.fallSilent.clock = s.clock := by
  rw [State.fallSilent_eq]
  split <;> simp

theorem State.begin_fallSilent_motion (s : State) : s.begin.fallSilent.motion = s.motion := by
  rw [State.fallSilent_eq]
  split <;> simp

/-- A word taken by a fallen receiver takes the link to HUNT, begins a frame with a MARK and is discarded without one. -/
theorem State.assemble_fallen {s : State} {n : Sensor} (h : s.sensor = n.fallen) (w : BitVec 16) (mark parity : Bool) :
    (s.woken.assemble w mark parity).sensor = { s.sensor with
      link := .hunt, silence := some ⟨s.clock, 2⟩
      assembler := if mark then .inside [w] parity s.motion.epoch else .outside true false } := by
  have joining : s.woken.sensor.assembler = .outside true false := by rw [State.woken_sensor, h]; rfl
  cases mark with
  | true =>
    rw [State.assemble_begin joining]
    simp [State.beginFrame, Sensor.woken, Sensor.fallen, h]
  | false =>
    rw [State.assemble_discard joining (.inl rfl)]
    simp [Sensor.woken, Sensor.fallen, h]

/-! ## The statements -/

/-- Settles O55: each clause is the assembler's case on the woken state, carried through the consequences. -/
theorem sensorWordsMakeFrames : Obligations.SensorWordsMakeFrames := by
  unfold Obligations.SensorWordsMakeFrames
  intro s w parity n hn
  obtain rfl : n = s.sensor.woken s.clock := hn
  have awake : s.woken.sensor.link ≠ .down := Sensor.woken_link_ne_down _ _
  refine ⟨fun j y h => ?mark, fun j y h hj => ?discarded, fun h => ?stray, fun ws p e h => ?cut, fun ws p e h hw => ?taken,
    fun ws p e h hw => ⟨fun hp hl => ?accepted, fun hp hl hg => ?counted, fun hp => ?bad⟩⟩
  case mark => exact exec_sensorWord_sensor (by rw [State.assemble_begin (s := s.woken) h]; rfl)
  case discarded => exact exec_sensorWord_sensor (by rw [State.assemble_discard (s := s.woken) h hj]; rfl)
  case stray =>
    have hs := State.assemble_stray (s := s.woken) h w parity
    exact exec_sensorWord_bad (by rw [hs, State.misframe_sensor awake]; rfl)
      fun hl ha => by rw [hs]; exact State.badFrame_linkLost hl ha
  case cut =>
    have hs := State.assemble_cut (s := s.woken) h w parity
    exact exec_sensorWord_bad (by rw [hs, State.misframe_beginFrame_sensor awake]; rfl)
      fun hl ha => by rw [hs]; exact State.badFrame_linkLost (s := s.woken.setSensor _) hl ha
  case taken => exact exec_sensorWord_sensor (by rw [State.assemble_take (s := s.woken) h hw]; rfl)
  case accepted =>
    obtain ⟨t, ht, hs⟩ := exec_sensorWord_sensor (s := s) (w := w) (mark := false) (parity := parity) rfl
    refine ⟨t, _, ht, rfl, hs.trans ?_⟩
    rw [State.assemble_judge (s := s.woken) h hw, State.judgeFrame_good hp, State.goodFrame_accepted hl]
    rfl
  case counted =>
    exact exec_sensorWord_sensor (by
      rw [State.assemble_judge (s := s.woken) h hw, State.judgeFrame_good hp, State.goodFrame_counted hl hg]; rfl)
  case bad =>
    have hs := State.assemble_judge (s := s.woken) h hw w parity
    exact exec_sensorWord_bad (by rw [hs, State.judgeFrame_bad_sensor awake hp]; rfl)
      fun hl ha => by rw [hs, State.judgeFrame_eq_badFrame hp]; exact State.badFrame_linkLost hl ha

/-- Settles O57: the expiry makes the receiver a fallen one, from which the next word joins; a word's own timer is not due in its
own millisecond. -/
theorem silenceTakesTheLinkDown : Obligations.SilenceTakesTheLinkDown := by
  unfold Obligations.SilenceTakesTheLinkDown
  refine fun s => ⟨fun t0 h0 hd => ?expires, fun w mark parity => ?restarts⟩
  case expires =>
    refine ⟨_, exec_silenceTimerExpiry_due h0 hd, ?_, fun w mark parity => ?_⟩
    · rw [State.finish_content, State.begin_fallSilent_content]
      rfl
    · have hn := (State.finish_sensor s s.begin.fallSilent).trans s.begin_fallSilent_sensor
      refine exec_sensorWord_sensor ((State.assemble_fallen hn w mark parity).trans ?_)
      simp only [State.finish_clock, State.begin_fallSilent_clock, State.finish_motion, State.begin_fallSilent_motion]
  case restarts =>
    obtain ⟨silence, clock⟩ := s.woken.assemble_silence_clock w mark parity
    have hs : (s.after (s.woken.assemble w mark parity)).sensor.silence = some ⟨s.clock, 2⟩ := by
      rw [State.after_sensor, silence]
      rfl
    have hc : (s.after (s.woken.assemble w mark parity)).clock = s.clock := by rw [State.after_clock, clock, State.woken_clock]
    refine ⟨_, _, exec_sensorWord_eq s w mark parity, hs, exec_silenceTimerExpiry_not hs ?_, ?_⟩
    · rw [hc]
      exact not_due_at_start s.clock
    · rw [State.finish_content]
      rfl

end Sys2Proof.Machine
end

section
/-! SUPPORT. Steps and runs, the state after reset, what no command changes, and a wafer's list. Settles O1, O2, O3, O5, O6, O7 and O60. -/

namespace Sys2Proof.Machine

/-! ## Steps and runs -/

/-- Settles O1. -/
theorem stepRunsFrontCommand : Obligations.StepRunsFrontCommand :=
  fun c rest s h => step_cons s c rest h

/-- Settles O2: a step on an empty queue is the tick. -/
theorem emptyQueueCountsAMillisecond : Obligations.EmptyQueueCountsAMillisecond := by
  intro s h
  refine ⟨s.tick, step_nil s h, rfl, ?_⟩
  simp [State.tick, BitVec.toNat_add]

/-- Every state has a next state. -/
theorem step_answers (s : State) : ∃ t, step s = .next t := by
  cases h : s.pending with
  | nil => exact ⟨_, step_nil s h⟩
  | cons c rest => rw [step_cons s c rest h]; exact exec_answers c _

/-- Settles O3, by induction on the length of the run. -/
theorem noRunStops : Obligations.NoRunStops := by
  intro n
  induction n with
  | zero => exact fun s => trivial
  | succ n ih =>
    intro s
    obtain ⟨t, ht⟩ := step_answers s
    exact ⟨t, ht, ih t⟩

/-! ## Reset -/

/-- A slot of the machine right after reset is sound. -/
theorem State.reset_lotSound (k : Slot) : State.reset.LotSound k := by
  cases k <;> constructor <;> simp [State.reset, State.resetWith, State.lot, State.report, Two.get, Two.both, Lot.reset, Report.reset,
    LotState.reportFits, LotState.takesPosts, Revisit.reset]

/-- Settles O5. -/
theorem resetIsSound : Obligations.ResetIsSound where
  motion := ⟨rfl, rfl, rfl, rfl⟩
  bounded := by constructor <;> decide
  anchor := ⟨0, rfl⟩
  memory := rfl
  entries := by
    constructor <;> simp [State.reset, State.resetWith, Revisit.reset, Align.reset, State.admittedOf]
  lots := State.reset_lotSound
  path := by
    constructor <;> simp [State.reset, State.resetWith, Anchor.reset, Path.reset, MPort.reset, WriteBack.reset, Revisit.reset]
    rintro (_ | _) <;> exact ⟨rfl, rfl⟩

/-- What holds of both slots holds of every slot. -/
theorem Slot.both {P : Slot → Prop} (zero : P .zero) (one : P .one) : ∀ k, P k
  | .zero => zero
  | .one => one

/-- Right after reset every carrier slot is empty (R21). -/
theorem State.at_carrier_resetWith (sel : BitVec 2) (lines : CellLines) (mem : Memory) (pending : List Instr) (free : Nat) (p : Slot)
    (n : Nat) : (State.resetWith sel lines mem pending free).at (.carrier p n) = .empty := by
  have listed (m : Nat) : ((List.replicate 25 Occupant.empty)[m]?).getD .empty = .empty := by
    rw [List.getElem?_replicate]
    split <;> rfl
  cases p <;> cases n <;> first | rfl | exact listed _

/-- Settles O7: each field of the state after reset by its definition. -/
theorem hardwareResetGivesEveryBlockItsValues : Obligations.HardwareResetGivesEveryBlockItsValues := by
  intro sel lines s
  have lots (k : Slot) : (State.resetWith sel lines s.mem s.pending s.free).lot k = .reset := by cases k <;> rfl
  have reports (k : Slot) : (State.resetWith sel lines s.mem s.pending s.free).report k = .reset := by cases k <;> rfl
  refine ⟨_, rfl, rfl, rfl, rfl, rfl, ?line, rfl, fun k => ?lot, fun k => ?report, rfl,
    fun p n => State.at_carrier_resetWith sel lines _ _ _ p n, ?places, rfl, rfl, rfl, Slot.both ⟨rfl, rfl, rfl⟩ ⟨rfl, rfl, rfl⟩,
    rfl, rfl, rfl, ?axes, rfl, rfl, rfl, rfl, rfl, rfl, rfl, rfl, rfl, rfl, rfl, ?marks, rfl, rfl, rfl, rfl, rfl,
    fun zone hz => List.eq_of_mem_replicate hz, rfl, rfl, rfl, Slot.both rfl rfl, rfl, rfl, rfl, rfl, rfl, rfl, rfl,
    fun b hb => List.eq_of_mem_replicate hb, ?base, rfl, rfl, rfl, rfl, rfl, rfl, rfl, rfl, rfl, rfl, rfl, rfl, rfl, rfl, rfl, rfl,
    rfl, rfl, rfl⟩
  case line => simp [State.noticeLine, State.resetWith, Notice.reset]
  case lot => rw [lots]; exact ⟨rfl, rfl, rfl, rfl, rfl, rfl, rfl, rfl, rfl⟩
  case report => rw [reports]; exact ⟨rfl, rfl, rfl⟩
  case places => simp [State.at, LocationTable.get, State.resetWith, Handling.reset, LocationTable.reset]
  case axes => simp [State.resetWith, Motion.reset, Axis.reset]
  case marks => simp [State.resetWith, Align.reset]
  case base =>
    show anchorBase sel = _
    clear lots reports
    revert sel
    decide

/-! ## What a step begins with is read as before -/

@[simp] theorem State.begin_lot (s : State) (k : Slot) : s.begin.lot k = s.lot k := rfl
@[simp] theorem State.begin_report (s : State) (k : Slot) : s.begin.report k = s.report k := rfl
@[simp] theorem State.begin_recipe (s : State) (k : Slot) : s.begin.recipe k = s.recipe k := rfl
@[simp] theorem State.begin_at (s : State) (l : Loc) : s.begin.at l = s.at l := rfl
@[simp] theorem State.begin_wafer (s : State) (w : WaferName) : s.begin.wafer w = s.wafer w := rfl
@[simp] theorem State.begin_waferState (s : State) (w : WaferName) : s.begin.waferState w = s.waferState w := rfl
@[simp] theorem State.begin_row (s : State) (w : WaferName) : s.begin.row w = s.row w := rfl
@[simp] theorem State.begin_entry (s : State) (k : Slot) (i : Nat) : s.begin.entry k i = s.entry k i := rfl
@[simp] theorem State.begin_storeEntry (s : State) (k : Slot) (i : Nat) : s.begin.storeEntry k i = s.storeEntry k i := rfl
@[simp] theorem State.begin_queuedOf (s : State) (w : WaferName) : s.begin.queuedOf w = s.queuedOf w := rfl
@[simp] theorem State.begin_activeEntry (s : State) : s.begin.activeEntry = s.activeEntry := rfl
@[simp] theorem State.begin_content (s : State) : s.begin.content = ({ s with out := [] } : State).content := rfl

/-! ## A command's own effect -/

/-- What a command that presents no write does inside its step. -/
def State.event (s : State) : Instr → State
  | .attachLayoutReadDone => s.serveLayout
  | .detachComplete => if s.anchor.attach = .detaching ∧ s.nothingToWrite then s.detached else s
  | .startFetchReadDone => s.serveStartFetch
  | .heldAccessRelease => s.releaseHeld
  | .postVersionReadDone => s.servePostVersion
  | .fillReadDone => s.serveFill
  | .classTableFetchReadDone => s.serveClassTable
  | .pPortAccessServed => s.servePPort
  | .writeQueueWordWritten => s.serveWrite
  | .writerMove => s.moveRecord
  | .recordWrittenBack id => s.recordWrittenBack id
  | .interlockOpen => if s.cell.interlockOpen then s else s.opensInterlock
  | .interlockClose => if s.cell.interlockOpen then s.closesInterlock else s
  | .carrierLoss p => if s.carrierHere p then (s.carrierLost p).settle else s
  | .carrierPresent p => if s.carrierHere p then s else (s.carrierArrives p).settle
  | .pickDone tag | .placeDone tag => s.robotReply tag
  | .inventoryDone tag ua la pa st => s.inventoryReply tag ⟨ua, la, pa, st⟩
  | .prealignDone tag => s.prealignReply tag
  | .mapDone p tag results => s.mapReply p tag results
  | .handlerFault u tag code => s.faultReply u tag code
  | .handlerOrderTimeout u => s.handlerTimesOut u
  | .arrived tag => s.arrivedReply tag
  | .homed tag => s.homedReply tag
  | .motionLinkFault tag _ => s.motionFaultReply tag
  | .motionOrderTimeout g => s.motionTimesOut g
  | .settleTimerExpiry g => s.settleTimesOut g
  | .markResult tag found ox oy => s.markReply tag found ox oy
  | .grabDone tag first frames => s.grabDoneReply tag first frames
  | .grabFault tag _ => s.grabFaultReply tag
  | .grabTimeout => s.grabTimesOut
  | .sensorWord w mark parity => (s.takeWord w mark parity).settle
  | .silenceTimerExpiry => s.silenceTimesOut
  | .autofocusTimerExpiry => s.focusTimesOut
  | .postingWaitExpiry => s.postingWaitEnds
  | _ => s

/-- The own effect of a command inside its step: its write presented, or its event. -/
def State.effect (s : State) (c : Instr) : State :=
  match s.accessOf c with
  | some a => s.present a
  | none => s.event c

/-- Every command but the reset is a step with its own effect. -/
theorem exec_effect {c : Instr} (hr : ∀ sel lines, c ≠ .hardwareReset sel lines) (s : State) :
    exec c s = .next (State.finish s (s.begin.effect c)) := by
  cases c
  case hardwareReset sel lines => exact absurd rfl (hr sel lines)
  all_goals rfl

theorem Tame.ite {p : Prop} [Decidable p] {s t u : State} (ht : Tame s t) (hu : Tame s u) : Tame s (if p then t else u) := by
  split <;> assumption

/-- Every command but those that serve a write keeps in its own effect what every operation keeps. -/
theorem tame_event {s0 s : State} (h : Tame s0 s) {c : Instr} (hp : c ≠ .pPortAccessServed) (hw : c ≠ .writeQueueWordWritten) :
    Tame s0 (s.event c) := by
  cases c
  case pPortAccessServed => exact absurd rfl hp
  case writeQueueWordWritten => exact absurd rfl hw
  case attachLayoutReadDone => exact tame_serveLayout h
  case detachComplete => exact .ite (tame_detached h) h
  case startFetchReadDone => exact tame_serveStartFetch h
  case heldAccessRelease => exact tame_releaseHeld h
  case postVersionReadDone => exact tame_servePostVersion h
  case fillReadDone => exact tame_serveFill h
  case classTableFetchReadDone => exact tame_serveClassTable h
  case writerMove => exact tame_moveRecord h
  case recordWrittenBack => exact tame_recordWrittenBack h _
  case interlockOpen => exact .ite h (tame_opensInterlock h)
  case interlockClose => exact .ite (tame_closesInterlock h) h
  case carrierLoss => exact .ite (tame_settle (tame_carrierLost h _)) h
  case carrierPresent => exact .ite h (tame_settle (tame_carrierArrives h _))
  case pickDone => exact tame_robotReply h _
  case placeDone => exact tame_robotReply h _
  case inventoryDone => exact tame_inventoryReply h _ _
  case prealignDone => exact tame_prealignReply (s0 := s0) (s := s) h _
  case mapDone => exact tame_mapReply h _ _ _
  case handlerFault => exact tame_faultReply h _ _ _
  case handlerOrderTimeout => exact tame_handlerTimesOut h _
  case arrived => exact tame_arrivedReply h _
  case homed => exact tame_homedReply h _
  case motionLinkFault => exact tame_motionFaultReply h _
  case motionOrderTimeout => exact tame_motionTimesOut h _
  case settleTimerExpiry => exact tame_settleTimesOut h _
  case markResult => exact tame_markReply h _ _ _ _
  case grabDone => exact tame_grabDoneReply h _ _ _
  case grabFault => exact tame_grabFaultReply h _
  case grabTimeout => exact tame_grabTimesOut h
  case sensorWord => exact tame_settle (tame_takeWord h _ _ _)
  case silenceTimerExpiry => exact tame_silenceTimesOut h
  case autofocusTimerExpiry => exact tame_focusTimesOut h
  case postingWaitExpiry => exact tame_postingWaitEnds h
  all_goals exact h

theorem tame_effect {s0 s : State} (h : Tame s0 s) {c : Instr} (hp : c ≠ .pPortAccessServed) (hw : c ≠ .writeQueueWordWritten) :
    Tame s0 (s.effect c) := by
  unfold State.effect
  split
  · exact tame_present h _
  · exact tame_event h hp hw

/-! ## The two commands that serve a write -/

/-- The P-port access served, as every operation keeps it but for memory. -/
theorem servePPort_tame (s : State) : Tame { s with mem := s.servePPort.mem } s.servePPort ∧ s.servePPort.pending = s.pending := by
  unfold State.servePPort
  split
  · rename_i a _ _
    dsimp only
    generalize hu : (if a.write = true then _ else _ : State) = u
    have hm : Tame { s with mem := u.mem } u := by
      subst hu
      split <;> exact (Tame.refl _).same rfl rfl rfl rfl rfl rfl rfl rfl
    have ht := tame_takeOffered (tame_setSlot hm .idle)
    exact ⟨ht.mem ▸ ht, ht.pending⟩
  · exact ⟨.refl s, rfl⟩

/-- A queued word served, as every operation keeps it but for memory. -/
theorem serveWrite_tame (s : State) : Tame { s with mem := s.serveWrite.mem } s.serveWrite ∧ s.serveWrite.pending = s.pending := by
  unfold State.serveWrite
  split
  · rename_i addr v _ _
    have hm : Tame { s with mem := s.mem.writeWord addr v 15 } { s.endService with mem := s.mem.writeWord addr v 15 } :=
      tame_endService (.refl _)
    have ht := tame_enterDirect hm
    exact ⟨ht.mem ▸ ht, ht.pending⟩
  · exact ⟨.refl s, rfl⟩

/-- Settles O6: only the two commands that serve a write change memory, and none the queue. -/
theorem memoryChangesOnlyWhenServed : Obligations.MemoryChangesOnlyWhenServed := by
  intro c s t h
  by_cases hr : ∃ sel lines, c = .hardwareReset sel lines
  · obtain ⟨sel, lines, rfl⟩ := hr
    cases h
    exact ⟨rfl, fun _ _ _ => rfl⟩
  rw [exec_effect (fun sel lines e => hr ⟨sel, lines, e⟩)] at h
  cases h
  by_cases hp : c = .pPortAccessServed
  · subst hp
    exact ⟨(State.finish_pending _ _).trans (servePPort_tame s.begin).2, fun h => absurd rfl h⟩
  by_cases hw : c = .writeQueueWordWritten
  · subst hw
    exact ⟨(State.finish_pending _ _).trans (serveWrite_tame s.begin).2, fun _ h => absurd rfl h⟩
  have ht := tame_effect (.refl s.begin) hp hw
  refine ⟨(State.finish_pending _ _).trans ht.pending, fun _ _ a => ?_⟩
  rw [State.byteAt, State.finish_mem, ht.mem]
  rfl

/-! ## A wafer's list (R130) -/

/-- The keys of list order in their order: the priority falling, the row, the column as its row is run through, the sequence and the
index rising. -/
def Entry.key (e : Entry) : ℤ ×ₗ ℤ ×ₗ ℤ ×ₗ ℕ ×ₗ ℕ :=
  toLex (-(e.priority : ℤ), toLex (e.row, toLex (if e.row % 2 = 0 then e.col else -e.col, toLex (e.sequence, e.index))))

/-- List order is the order of the keys. -/
theorem Entry.before_iff (e f : Entry) : e.before f = true ↔ e.key < f.key := by
  simp only [Entry.key, Prod.Lex.toLex_lt_toLex, Entry.before, columnBefore]
  by_cases hp : e.priority = f.priority
  · by_cases hr : e.row = f.row
    · by_cases hc : e.col = f.col
      · by_cases hs : e.sequence = f.sequence <;> simp [hp, hr, hc, hs]
      · by_cases he : f.row % 2 = 0 <;> simp [hp, hr, hc, he]
    · simp [hp, hr]
  · simp [hp]

theorem Entry.not_before_iff (e f : Entry) : e.before f = false ↔ f.key ≤ e.key := by
  rw [← not_lt, ← Entry.before_iff, Bool.not_eq_true]

theorem insertEntry_perm (e : Entry) (l : List Entry) : (insertEntry e l).Perm (e :: l) := by
  induction l with
  | nil => exact .refl _
  | cons f l ih =>
    unfold insertEntry
    split
    · exact .refl _
    · exact (ih.cons f).trans (.swap e f l)

theorem insertEntry_pairwise (e : Entry) {l : List Entry} (h : l.Pairwise fun e f => f.before e = false) :
    (insertEntry e l).Pairwise fun e f => f.before e = false := by
  induction l with
  | nil => exact List.pairwise_singleton _ _
  | cons f l ih =>
    obtain ⟨first, rest⟩ := List.pairwise_cons.mp h
    unfold insertEntry
    split
    · rename_i hb
      have lt := (Entry.before_iff e f).mp hb
      refine List.pairwise_cons.mpr ⟨fun g hg => (Entry.not_before_iff g e).mpr ?_, h⟩
      rcases List.mem_cons.mp hg with rfl | hg
      · exact lt.le
      · exact lt.le.trans ((Entry.not_before_iff g f).mp (first g hg))
    · rename_i hb
      refine List.pairwise_cons.mpr ⟨fun g hg => ?_, ih rest⟩
      rcases List.mem_cons.mp ((insertEntry_perm e l).mem_iff.mp hg) with rfl | hg
      · exact Bool.eq_false_iff.mpr hb
      · exact first g hg

/-- A wafer's list is made of the QUEUED records of its OPEN row. -/
theorem State.queuedOf_perm (s : State) (w : WaferName) :
    (s.queuedOf w).Perm (s.revisit.store.filter fun e => decide (e.wafer = w ∧ e.state = .queued) && !e.rowClosed) := by
  unfold State.queuedOf
  generalize s.revisit.store.filter _ = l
  induction l with
  | nil => exact .refl _
  | cons e l ih => exact (insertEntry_perm e _).trans (ih.cons e)

theorem State.mem_queuedOf {s : State} {w : WaferName} {e : Entry} :
    e ∈ s.queuedOf w ↔ e ∈ s.revisit.store ∧ e.wafer = w ∧ e.state = .queued ∧ e.rowClosed = false := by
  rw [(s.queuedOf_perm w).mem_iff]
  simp [and_assoc]

/-- Settles O60: insertion keeps the records, and the order of their keys. -/
theorem revisitListStandsInListOrder : Obligations.RevisitListStandsInListOrder := by
  refine fun s w => ⟨s.queuedOf_perm w, ?_⟩
  unfold State.queuedOf
  generalize s.revisit.store.filter _ = l
  induction l with
  | nil => exact List.Pairwise.nil
  | cons e l ih => exact insertEntry_pairwise e ih

end Sys2Proof.Machine
end

section
/-! SUPPORT. Writes judged by the word they land on, and the commands whose effect is a single change: O11, O14 to O17, O20, O21. -/

namespace Sys2Proof.Machine

/-! ## Masked writes (R179, R180) -/

/-- An access presented to a free path is held while a direct write waits (R184). -/
theorem State.present_of_direct {s : State} (hi : s.path.slot = .idle) (hd : s.wb.direct ≠ []) (a : PAccess) :
    s.present a = s.hold a .directWrites := by
  simp [State.present, State.take, hi, hd]

/-- A PART word is one of the words to which every write is masked. -/
theorem State.masks_of_part {s : State} {x : WordAt} (h : x.part.isSome) : s.masks x = true := by
  cases x with
  | lotHeader k w =>
    have hw : 36 ≤ w ∧ w ≤ 39 := by
      by_contra hn
      simp [WordAt.part, hn] at h
    simp [State.masks, hw]
  | waferEntry k n w =>
    have hw : 3 ≤ w ∧ w ≤ 13 := by
      by_contra hn
      simp [WordAt.part, hn] at h
    simp [State.masks, hw]
  | defect k i w =>
    have hw : 8 ≤ w := by
      by_contra hn
      simp [WordAt.part, hn] at h
    simp [State.masks, hw]
  | report k w => rfl
  | plain => simp [WordAt.part] at h
  | anchor w => simp [WordAt.part] at h
  | classTable w => simp [WordAt.part] at h

theorem State.judgeAnchor_masked {s : State} {w : Nat} (h : s.masks (.anchor w) = true) (a : PAccess) : s.judgeAnchor a w = s.mask a := by
  simp only [State.masks, Bool.or_eq_true, Bool.and_eq_true, decide_eq_true_eq] at h
  unfold State.judgeAnchor
  rcases h with (h | ⟨h, lock⟩) | h
  · rw [if_neg (by omega), if_pos (by omega)]
  · rw [if_neg (by omega), if_neg (by omega), if_pos (by omega), if_pos lock]
  · rw [if_neg (by omega), if_neg (by omega), if_neg (by omega), if_neg (by omega), if_neg (by omega), if_neg (by omega),
      if_neg (by omega), if_pos (by omega)]

theorem State.judgeHeader_masked {s : State} {k : Slot} {w : Nat} (h : s.masks (.lotHeader k w) = true) (a : PAccess) :
    s.judgeHeader a k w = s.mask a := by
  simp only [State.masks, Bool.or_eq_true, Bool.and_eq_true, decide_eq_true_eq] at h
  unfold State.judgeHeader
  rcases h with (⟨h, lock⟩ | h) | ⟨h, lock⟩
  · rw [if_neg (by omega), if_pos h, if_pos (by simpa using lock)]
  · rw [if_neg (by omega), if_neg (by omega), if_pos (by omega)]
  · rw [if_neg (by omega), if_neg (by omega), if_neg (by omega), if_pos lock]

theorem State.judgeWaferEntry_masked {s : State} {k : Slot} {n w : Nat} (h : s.masks (.waferEntry k n w) = true) (a : PAccess) :
    s.judgeWaferEntry a k n w = s.mask a := by
  simp only [State.masks, Bool.or_eq_true, Bool.and_eq_true, decide_eq_true_eq, beq_iff_eq] at h
  unfold State.judgeWaferEntry
  by_cases closed : s.path.closedLock.get k = true
  · rw [if_pos closed]
  rw [if_neg closed]
  rcases h with (h | ⟨h, lock⟩) | h
  · exact absurd h closed
  · rw [if_pos h, if_pos lock]
  · rw [if_neg (by omega), if_neg (by omega), if_neg (by omega), if_pos (by omega)]

theorem State.judgeDefect_masked {s : State} {k : Slot} {i w : Nat} (h : s.masks (.defect k i w) = true) (a : PAccess)
    (known : Option Word) : s.judgeDefect a k i w known = s.mask a := by
  simp only [State.masks, Bool.or_eq_true, Bool.and_eq_true, decide_eq_true_eq, bne_iff_ne] at h
  unfold State.judgeDefect
  rcases h with h | ⟨h, lock⟩
  · rw [if_neg (by omega), if_neg (by omega : ¬ w = 6), if_neg (by omega : ¬ w ≤ 7), ite_self]
  · rw [if_neg h, if_pos lock]

/-- A write to a word that masks every write is masked. -/
theorem State.judgeWrite_masked {s : State} {a : PAccess} (h : s.masks (s.wordAt a.addr) = true) (known : Option Word) :
    s.judgeWrite a known = s.mask a := by
  unfold State.judgeWrite
  cases hx : s.wordAt a.addr with
  | plain => simp [hx, State.masks] at h
  | anchor w => exact State.judgeAnchor_masked (hx ▸ h) a
  | lotHeader k w => exact State.judgeHeader_masked (hx ▸ h) a
  | waferEntry k n w => exact State.judgeWaferEntry_masked (hx ▸ h) a
  | defect k i w => exact State.judgeDefect_masked (hx ▸ h) a known
  | report k w => rfl
  | classTable w => simp [hx, State.masks] at h

/-- A partial write to a trigger word is masked. -/
theorem State.judgeWrite_partial {s : State} {a : PAccess} (h : (s.wordAt a.addr).isTrigger = true) (hb : a.be ≠ 15)
    (known : Option Word) : s.judgeWrite a known = s.mask a := by
  have full : isFull a.be = false := by simpa [isFull] using hb
  unfold State.judgeWrite
  cases hx : s.wordAt a.addr with
  | plain => simp [hx, WordAt.isTrigger] at h
  | anchor w =>
    simp only [hx, WordAt.isTrigger, Bool.or_eq_true, beq_iff_eq] at h
    rcases h with ((rfl | rfl) | rfl) | rfl <;> simp [State.judgeAnchor, full]
  | lotHeader k w =>
    simp only [hx, WordAt.isTrigger, beq_iff_eq] at h
    simp [State.judgeHeader, full, h]
  | waferEntry k n w =>
    simp only [hx, WordAt.isTrigger, Bool.or_eq_true, beq_iff_eq] at h
    rcases h with rfl | rfl <;> simp [State.judgeWaferEntry, full]
  | defect k i w =>
    simp only [hx, WordAt.isTrigger, beq_iff_eq] at h
    simp [State.judgeDefect, State.judgeControl, full, h]
  | report k w => rfl
  | classTable w => simp [hx, WordAt.isTrigger] at h

/-- A masked write counts and raises MASKED_WRITE while attached (R179, R188). -/
theorem State.countMasked_facts (s : State) :
    s.countMasked.anchor.masked = (if s.anchor.masked < 65535 then s.anchor.masked + 1 else s.anchor.masked)
    ∧ (s.anchor.attach = .attached → s.countMasked.notice.pending = s.notice.pending ||| 0x80#32) := by
  refine ⟨by simp [State.countMasked, satInc], fun h => ?_⟩
  exact congrArg (fun u : State => u.notice.pending)
    (State.raise_of (s := { s with anchor := { s.anchor with masked := satInc 65535 s.anchor.masked } }) (k := .maskedWrite) (.inl h))

/-- A write command that is masked, as its whole step leaves it. -/
theorem exec_masked {s : State} {c : Instr} {a : PAccess} (h : s.accessOf c = some a) (hf : s.PathFree)
    (hj : ∀ u : State, u.wordAt a.addr = s.wordAt a.addr → u.path = s.path → u.judgeWrite a none = u.mask a) :
    ∃ t, exec c s = .next t
      ∧ t.content = ({ s.countMasked with out := [], path := { s.path with slot := .waiting a.withheld } } : State).content := by
  refine ⟨_, exec_access_free h hf, ?_⟩
  rw [hj s.begin rfl rfl]
  exact State.finish_mask s s a

/-- Settles O14: a PART word of a region masks every write, as the words that State.masks names do. -/
theorem writeToAPartWordIsMasked : Obligations.WriteToAPartWordIsMasked := by
  have masked (s : State) (c : Instr) (a : PAccess) (h : s.accessOf c = some a) (hf : s.PathFree)
      (hm : s.masks (s.wordAt a.addr) = true) : ∃ t, exec c s = .next t
        ∧ t.anchor.masked = (if s.anchor.masked < 65535 then s.anchor.masked + 1 else s.anchor.masked)
        ∧ (s.anchor.attach = .attached → t.notice.pending = s.notice.pending ||| 0x80#32)
        ∧ t.content = ({ s.countMasked with out := [], path := { s.path with slot := .waiting a.withheld } } : State).content := by
    obtain ⟨t, ht, hc⟩ := exec_masked h hf fun u hu hp =>
      State.judgeWrite_masked (by rw [hu]; unfold State.masks at hm ⊢; rw [hp]; exact hm) none
    obtain ⟨count, notice⟩ := s.countMasked_facts
    exact ⟨t, ht, (congrArg (fun u : State => u.anchor.masked) hc).trans count,
      fun ha => (congrArg (fun u : State => u.notice.pending) hc).trans (notice ha), hc⟩
  refine ⟨fun s addr v be hf hp => ?_, fun s c a h hf hm => masked s c a h hf hm⟩
  have ha : addr.toNat % 2 ^ 28 = addr.toNat := Nat.mod_eq_of_lt addr.isLt
  have hw : writeAccess addr.toNat v be = ⟨true, addr.toNat, v, be⟩ := by rw [writeAccess, ha]
  exact masked s _ ⟨true, addr.toNat, v, be⟩ (congrArg some hw) hf (State.masks_of_part hp)

/-- Settles O16. -/
theorem partialTriggerWritesAreMasked : Obligations.PartialTriggerWritesAreMasked :=
  fun _ _ _ h hf ht hb => exec_masked h hf fun _ hu _ => State.judgeWrite_partial (by rw [hu]; exact ht) hb none

/-- Settles O15: the write passes, waits behind the access in the path, or is held. -/
theorem unwatchedWritePassesOrWaitsItsTurn : Obligations.UnwatchedWritePassesOrWaitsItsTurn := by
  intro s c a h hx
  refine ⟨fun hf => ⟨_, exec_access_free h hf, ?_⟩, fun hb => ⟨_, exec_access h, ?_⟩, fun hi hd => ⟨_, exec_access h, ?_⟩⟩
  · rw [State.judgeWrite, State.begin_wordAt, hx, State.finish_content]
    rfl
  · rw [State.present_of_busy (s := s.begin) hb, State.finish_content]
    rfl
  · rw [State.present_of_direct (s := s.begin) hi hd, State.finish_content]
    rfl

/-! ## Attach and detach, written back -/

/-- Settles O17. -/
theorem attachBeginsTheLayoutCheck : Obligations.AttachBeginsTheLayoutCheck := by
  intro s hf ha hd
  refine ⟨_, exec_anchor hf ha (by decide) rfl, ?_⟩
  rw [State.judgeAnchor_attach, if_pos ⟨rfl, hd⟩, State.finish_content]
  rfl

/-- Settles O20: DETACH_REFUSED raises ATTACH_RESULT, the masked write MASKED_WRITE. -/
theorem detachIsRefusedWhileALotIsActive : Obligations.DetachIsRefusedWhileALotIsActive := by
  intro s hf ha hd hl
  refine ⟨_, exec_anchor hf ha (by decide) rfl, ?_⟩
  have hj : s.begin.judgeAnchor ⟨true, s.anchor.base + 4 * 0, codeDetach, 15⟩ 0
      = s.begin.refuseDetach.mask ⟨true, s.anchor.base, codeDetach, 15⟩ := by
    rw [State.judgeAnchor_attach, if_neg (by rintro ⟨h, -⟩; exact absurd h (by decide)), if_pos ⟨rfl, hd⟩]
    exact if_pos hl
  have refused : s.begin.refuseDetach.notice.pending = s.notice.pending ||| 0x200#32 :=
    congrArg (fun u : State => u.notice.pending) (State.raise_of (s := s.begin.setAnchor _) (k := .attachResult) (.inr rfl))
  obtain ⟨count, notice⟩ := s.begin.refuseDetach.countMasked_facts
  have notice := notice (by simpa [State.refuseDetach, State.setAnchor] using hd)
  rw [refused] at notice
  have pending : (s.begin.refuseDetach.mask ⟨true, s.anchor.base, codeDetach, 15⟩).notice.pending = s.notice.pending ||| 0x280#32 := by
    rw [show (0x280#32 : Word) = 0x200#32 ||| 0x80#32 from rfl, ← BitVec.or_assoc]
    exact notice
  rw [hj, State.finish_notice, State.finish_requests, pending]
  simp [State.refuseDetach, State.setAnchor, hd, satInc, codeDetach]

/-- Settles O21. -/
theorem detachCompletesWhenNothingIsLeftToWrite : Obligations.DetachCompletesWhenNothingIsLeftToWrite := by
  intro s
  have ran : exec .detachComplete s = .next (State.finish s (s.begin.effect .detachComplete)) := exec_effect (by simp) s
  refine ⟨fun ha hd hq hn => ⟨_, ran, ?_⟩, fun h => ⟨_, ran, ?_⟩⟩
  · have : s.begin.effect .detachComplete = s.begin.detached := if_pos ⟨ha, by
      show (s.wb.direct.isEmpty && s.wb.dirty.isEmpty && s.mport.queued == 0) = true
      simp [hd, hq, hn]⟩
    rw [this, State.finish_content]
    rfl
  · have : s.begin.effect .detachComplete = s.begin := if_neg (by
      rintro ⟨ha, hn⟩
      have hn : (s.wb.direct.isEmpty && s.wb.dirty.isEmpty && s.mport.queued == 0) = true := hn
      simp only [Bool.and_eq_true, List.isEmpty_iff, beq_iff_eq] at hn
      obtain ⟨⟨hd, hq⟩, hn⟩ := hn
      rcases h with h | h | h | h <;> contradiction)
    rw [this, State.finish_content]
    rfl

/-- Settles O11. -/
theorem writtenBackRecordOfAClosedRowIsFreed : Obligations.WrittenBackRecordOfAClosedRowIsFreed := by
  intro s k i e he
  refine ⟨_, exec_effect (by simp) s, ?_⟩
  have hr : s.begin.effect (.recordWrittenBack (.defectEntry k i))
      = if s.writtenBack (.defectEntry k i) && e.rowClosed then s.begin.leaveStore k i else s.begin := by
    have he : s.begin.storeEntry k i = some e := he
    show s.begin.recordWrittenBack (.defectEntry k i) = _
    simp only [State.recordWrittenBack, he]
    rfl
  rw [hr, State.finish_content]
  by_cases hc : e.rowClosed = true ∧ s.writtenBack (.defectEntry k i) = true
  · rw [if_pos hc, if_pos (by simp [hc])]
    rfl
  · rw [if_neg hc, if_neg (by simpa [and_comm] using hc)]
    rfl

end Sys2Proof.Machine
end

section
/-! SUPPORT. Requests in the anchor and in lot headers that change one thing, and stale replies: O22, O23, O27, O28, O29, O38. -/

namespace Sys2Proof.Machine

/-! ## Requests in the anchor (R40, R58, R189) -/

theorem State.mayRecover_iff {s : State} : s.mayRecover = true ↔ s.handling.state = .halted ∧ s.handling.robot = none := decide_eq_true_iff

theorem State.handlingRequest_resume (s : State) : s.handlingRequest codeResume =
    if s.handling.state = .halted ∧ s.handling.robot = none then s.sendInventory else s := by
  rw [State.handlingRequest, if_pos rfl, State.resumeRequest, if_congr State.mayRecover_iff rfl rfl]

theorem State.handlingRequest_inventory (s : State) : s.handlingRequest codeInventory =
    if (s.handling.state = .halted ∧ s.handling.robot = none) ∨ s.handling.state = .idle then s.sendInventory else s := by
  have taken : (s.mayRecover || decide (s.handling.state = .idle)) = true
      ↔ (s.handling.state = .halted ∧ s.handling.robot = none) ∨ s.handling.state = .idle := by
    rw [Bool.or_eq_true, State.mayRecover_iff, decide_eq_true_iff]
  rw [State.handlingRequest, if_neg (by decide), if_pos rfl, State.inventoryRequest, if_congr taken rfl rfl]

/-- An INVENTORY order sent as a write passes. -/
theorem State.begin_sendInventory_pass_content (s : State) (a : PAccess) : (s.begin.sendInventory.pass a).content = ({ s with
    out := [.robot s.handling.tag .inventory]
    handling := { s.handling with
      state := .inventory, tag := s.handling.tag + 1, robot := some ⟨s.handling.tag, .inventory, ⟨s.clock, 30000⟩⟩ }
    path := { s.path with slot := .waiting a } } : State).content := by
  simp [State.content, State.sendInventory, State.sendRobot, State.takeHandlerTag, State.emit, State.setHandling, State.pass, State.setSlot,
    State.setPath, Timer.at, robotTimeout]

/-- A write that passes and changes nothing else. -/
theorem State.begin_pass_content (s : State) (a : PAccess) : (s.begin.pass a).content
    = ({ s with out := [], path := { s.path with slot := .waiting a } } : State).content := rfl

/-- Settles O27: RESUME and INVENTORY by the cases of their requests. -/
theorem recoveryRequestsSendInventory : Obligations.RecoveryRequestsSendInventory := by
  intro s c v hf ha hd hc
  have attached (t u : State) : (if s.begin.isAttached then t else u) = t := if_pos (decide_eq_true hd)
  have place : s.anchor.base + 4 * 13 = s.anchor.base + 52 := rfl
  have resumed := exec_anchor hf ha (by decide) (rfl : s.accessOf (.resume 15) = some (s.anchorWrite 13 codeResume 15))
  have asked := exec_anchor hf ha (by decide) (rfl : s.accessOf (.inventory 15) = some (s.anchorWrite 13 codeInventory 15))
  rw [State.judgeAnchor_handling, attached, State.handlingRequest_resume, State.begin_handling, place] at resumed
  rw [State.judgeAnchor_handling, attached, State.handlingRequest_inventory, State.begin_handling, place] at asked
  simp only [List.mem_cons, Prod.mk.injEq, List.not_mem_nil, or_false] at hc
  rcases hc with ⟨rfl, rfl⟩ | ⟨rfl, rfl⟩
  · refine ⟨fun h => ⟨_, resumed, ?_⟩, fun h _ => ⟨_, resumed, ?_⟩⟩
    · rw [if_pos (h.resolve_right (by simp)), State.finish_content, State.begin_sendInventory_pass_content, codeResume]
    · rw [if_neg h, State.finish_content, State.begin_pass_content, codeResume]
  · refine ⟨fun h => ⟨_, asked, ?_⟩, fun h hi => ⟨_, asked, ?_⟩⟩
    · rw [if_pos (h.imp_right fun h => h.2), State.finish_content, State.begin_sendInventory_pass_content, codeInventory]
    · rw [if_neg (not_or.mpr ⟨h, hi rfl⟩), State.finish_content, State.begin_pass_content, codeInventory]

/-- Settles O28. -/
theorem homeRequestHomesEveryAxis : Obligations.HomeRequestHomesEveryAxis := by
  intro s hf ha hd
  have ran : exec (.home 15) s = .next (State.finish s (s.begin.requestHome.pass ⟨true, s.anchor.base + 56, 1, 15⟩)) := by
    rw [exec_anchor hf ha (by decide) rfl, State.judgeAnchor_motion]
    exact congrArg (fun u => Host.Outcome.next (State.finish s u)) (if_pos (decide_eq_true hd))
  refine ⟨fun hxy hz hx hy hzs hr => ⟨_, ran, ?_⟩, fun h => ⟨_, ran, ?_⟩⟩
  · have allowed : s.begin.homeAllowed = true := by
      have hr : s.begin.robotAtStage = false := hr
      simp [State.homeAllowed, hxy, hz, hx, hy, hzs, hr]
    rw [State.requestHome, if_pos allowed, State.finish_content]
    simp [State.sendHome, State.pass, State.setSlot, State.setPath, State.setMotion, State.emit, Motion.setGroup, Motion.group,
      Motion.enter, Axis.enter, AxisState.isReferenced, State.content, Timer.at, homeTimeout, BitVec.add_assoc]
  · have refused : ¬ s.begin.homeAllowed = true := by
      have hr : s.begin.robotAtStage = s.robotAtStage := rfl
      rw [← Option.not_isNone, ← Option.not_isNone] at h
      simp only [State.homeAllowed, hr, Bool.and_eq_true, decide_eq_true_eq, Bool.not_eq_true']
      rintro ⟨⟨⟨hxy, hz⟩, hx, hy, hzs⟩, hr⟩
      rcases h with h | h | h | h | h | h
      all_goals simp_all
    rw [State.requestHome, if_neg refused, State.finish_content]
    rfl

theorem lane_eq_iff {a b : Byte} : a = b ↔ ∀ j < 8, a.getLsbD j = b.getLsbD j :=
  ⟨fun h _ _ => h ▸ rfl, BitVec.eq_of_getLsbD_eq⟩

/-- A bit of the lane mask is its lane's byte enable. -/
theorem laneMask_getLsbD (be : Enables) {j i : Nat} (hj : j < 4) (hi : i < 8) : (laneMask be).getLsbD (8 * j + i) = be.getLsbD j := by
  revert be
  interval_cases j <;> interval_cases i <;> decide

/-- A lane after a merge is the new one where its byte enable is set (R186, R189). -/
theorem lane_mergeLanes (be : Enables) (old new : Word) {j : Nat} (hj : j < 4) :
    lane j (mergeLanes be old new) = if be.getLsbD j then lane j new else lane j old := by
  refine lane_eq_iff.mpr fun i hi => ?_
  have hm := laneMask_getLsbD be hj hi
  have hb : 8 * j + i < 32 := by omega
  rw [BitVec.getLsbD_eq_getElem hb] at hm
  cases hbe : be.getLsbD j <;> simp [lane, mergeLanes, hi, hm, hbe, hb]

/-- Settles O29: lane by lane and bit by bit. -/
theorem noticeWritesTakeTheirLanesAndBits : Obligations.NoticeWritesTakeTheirLanesAndBits := by
  intro s v be hf ha
  refine ⟨⟨_, exec_anchor hf ha (by decide) rfl, ?_⟩, ⟨_, exec_anchor hf ha (by decide) rfl, ?_⟩⟩
  · have hj : s.begin.judgeAnchor ⟨true, s.anchor.base + 4 * 15, v, be⟩ 15 =
        State.pass { s.begin with notice := { s.notice with mask := mergeLanes be s.notice.mask v } }
          ⟨true, s.anchor.base + 60, v, be⟩ := rfl
    rw [hj, State.finish_notice, State.finish_content]
    exact ⟨fun j h => lane_mergeLanes be s.notice.mask v h, rfl⟩
  · have hj : s.begin.judgeAnchor ⟨true, s.anchor.base + 4 * 16, v, 15⟩ 16 =
        State.pass { s.begin with notice := { s.notice with pending := clearBits s.notice.pending v } }
          ⟨true, s.anchor.base + 64, v, 15⟩ := rfl
    rw [hj, State.finish_notice, State.finish_content]
    refine ⟨fun j h => ?_, rfl⟩
    simp [clearBits, h]

/-! ## Lot requests (R2, R3) -/

theorem State.lotRequest_start (s : State) (k : Slot) : s.lotRequest k codeStart = s.startRequest k := if_pos rfl
theorem State.lotRequest_abort (s : State) (k : Slot) : s.lotRequest k codeAbort = s.abortRequest k := by
  rw [State.lotRequest, if_neg (by decide), if_pos rfl]
theorem State.lotRequest_release (s : State) (k : Slot) : s.lotRequest k codeRelease = s.releaseRequest k := by
  rw [State.lotRequest, if_neg (by decide), if_neg (by decide), if_pos rfl]

/-- Settles O23. -/
theorem lotRequestsNotTakenAreRefusedOrCounted : Obligations.LotRequestsNotTakenAreRefusedOrCounted := by
  refine fun s k h => ⟨fun hs => ⟨_, exec_lotRequest h rfl, ?_⟩, fun hs => ⟨_, exec_lotRequest h rfl, ?_⟩,
    fun hs => ⟨_, exec_lotRequest h rfl, ?_⟩⟩
  · have busy : s.begin.startRequest k = s.begin.startBusy k := by
      unfold State.startRequest
      split
      · rename_i he
        exact absurd he hs
      all_goals rfl
    rw [State.lotRequest_start, busy, State.finish_content]
    rfl
  · have ignored : s.begin.abortRequest k = s.begin.ignoreLotRequest k := by
      simp only [List.mem_cons, List.not_mem_nil, or_false] at hs
      unfold State.abortRequest
      rw [State.begin_lot]
      rcases hs with hs | hs | hs | hs <;> rw [hs]
    rw [State.lotRequest_abort, ignored, State.finish_content]
    rfl
  · have ignored : s.begin.releaseRequest k = s.begin.ignoreLotRequest k := by
      simp only [List.mem_cons, List.not_mem_nil, or_false, not_or] at hs
      unfold State.releaseRequest
      rw [State.begin_lot]
      split
      · exact absurd ‹_› hs.1
      · exact absurd ‹_› hs.2
      all_goals rfl
    rw [State.lotRequest_release, ignored, State.finish_content]
    rfl

/-! ## Stale replies (R26, R51, R145) -/

theorem State.countStale_content (s0 s : State) : (State.finish s0 s.begin.countStale).content = ({ s with
    out := [], anchor := { s.anchor with
      stale := if s.anchor.stale < 65535 then s.anchor.stale + 1 else s.anchor.stale } } : State).content := by
  rw [State.finish_content]
  rfl

/-- The order a motion reply answers is outstanding and has its tag. -/
theorem Motion.orderWith_some {m : Motion} {tag : Tag} {g : MotionGroup} {o : MotionOrder} (h : m.orderWith tag = some (g, o)) :
    (m.group g).order = some o ∧ o.tag = tag := by
  unfold Motion.orderWith at h
  split at h
  · split at h
    · cases h; exact ⟨‹_›, ‹_›⟩
    · split at h
      · cases h; exact ⟨‹_›, ‹_›⟩
      · cases h
  · split at h
    · cases h; exact ⟨‹_›, ‹_›⟩
    · cases h
  · split at h
    · cases h; exact ⟨‹_›, ‹_›⟩
    · cases h
  · cases h

theorem State.robotWith_some {s : State} {tag : Tag} {k : RobotKind} (h : s.robotWith tag = some k) :
    ∃ o, s.handling.robot = some o ∧ o.tag = tag ∧ o.kind = k := by
  unfold State.robotWith at h
  split at h
  · split at h
    · cases h; exact ⟨_, ‹_›, ‹_›, rfl⟩
    · cases h
  · cases h

theorem State.robotReply_stale {s : State} {tag : Tag} (h : ∀ o, s.handling.robot = some o → o.tag ≠ tag ∨ o.kind = .inventory) :
    s.robotReply tag = s.countStale := by
  unfold State.robotReply
  split
  · rfl
  · rename_i k hk hw
    obtain ⟨o, ho, ht, rfl⟩ := State.robotWith_some hw
    exact absurd ((h o ho).resolve_left (not_not.mpr ht)) hk
  · rfl

theorem State.inventoryReply_stale {s : State} {tag : Tag} (x : Sensed)
    (h : ∀ o, s.handling.robot = some o → o.tag ≠ tag ∨ o.kind ≠ .inventory) : s.inventoryReply tag x = s.countStale := by
  unfold State.inventoryReply
  split
  · rename_i hw
    obtain ⟨o, ho, ht, hk⟩ := State.robotWith_some hw
    exact absurd hk ((h o ho).resolve_left (not_not.mpr ht))
  · rfl

theorem State.prealignReply_stale {s : State} {tag : Tag} (h : ∀ o, s.handling.prealigner = some o → o.tag ≠ tag) :
    s.prealignReply tag = s.countStale := by
  unfold State.prealignReply
  split
  · exact if_neg (h _ ‹_›)
  · rfl

theorem State.mapReply_stale {s : State} {p : Slot} {tag : Tag} (results : List MapAnswer)
    (h : ∀ o, s.handling.mapper.get p = some o → o.tag ≠ tag) : s.mapReply p tag results = s.countStale := by
  unfold State.mapReply
  split
  · exact if_neg (h _ ‹_›)
  · rfl

theorem State.faultReply_stale {s : State} {u : HandlerUnit} {tag : Tag} {code : HandlerFaultCode}
    (h : s.isStale (.handlerFault u tag code)) : s.faultReply u tag code = s.countStale := by
  cases u with
  | robot =>
    unfold State.faultReply
    dsimp only
    split
    · rename_i hw
      obtain ⟨o, ho, ht, -⟩ := State.robotWith_some hw
      exact absurd ht (h o ho)
    · rfl
  | prealigner =>
    unfold State.faultReply
    dsimp only
    split
    · exact if_neg (h _ ‹_›)
    · rfl
  | mapper p =>
    unfold State.faultReply
    dsimp only
    split
    · exact if_neg (h _ ‹_›)
    · rfl

theorem State.arrivedReply_stale {s : State} {tag : Tag} (h : ∀ g o, (s.motion.group g).order = some o → o.tag ≠ tag ∨ o.kind = .home) :
    s.arrivedReply tag = s.countStale := by
  unfold State.arrivedReply
  split
  · rename_i g o ho
    obtain ⟨ho, ht⟩ := Motion.orderWith_some ho
    rw [(h g o ho).resolve_left (not_not.mpr ht)]
  · rfl

theorem State.homedReply_stale {s : State} {tag : Tag} (h : ∀ g o, (s.motion.group g).order = some o → o.tag ≠ tag ∨ o.kind ≠ .home) :
    s.homedReply tag = s.countStale := by
  unfold State.homedReply
  split
  · rename_i g o ho
    obtain ⟨ho, ht⟩ := Motion.orderWith_some ho
    have hk := (h g o ho).resolve_left (not_not.mpr ht)
    split
    · exact absurd ‹_› hk
    · rfl
  · rfl

theorem State.motionFaultReply_stale {s : State} {tag : Tag} (h : ∀ g o, (s.motion.group g).order = some o → o.tag ≠ tag) :
    s.motionFaultReply tag = s.countStale := by
  unfold State.motionFaultReply
  split
  · rename_i g o ho
    obtain ⟨ho, ht⟩ := Motion.orderWith_some ho
    exact absurd ht (h g o ho)
  · rfl

/-- A grab reply is stale when the outstanding grab has another tag, or is one that the reply does not fit and is not discarded. -/
theorem State.judgeGrab_stale {s : State} {tag : Tag} {fits : GrabKind → Bool}
    (h : ∀ o, s.grab.outstanding = some o → o.tag ≠ tag ∨ (o.discard = false ∧ fits o.ask.kind = false)) :
    s.judgeGrab tag fits = .stale := by
  unfold State.judgeGrab
  cases ho : s.grab.outstanding with
  | none => rfl
  | some o =>
    rcases h o ho with ht | ⟨hd, hf⟩
    · exact if_pos ht
    · simp [hd, hf]

/-- Settles O38: each reply finds no order that takes it. -/
theorem staleRepliesAreCounted : Obligations.StaleRepliesAreCounted := by
  intro s c h
  have counted (he : s.begin.effect c = s.begin.countStale) (hr : ∀ sel lines, c ≠ .hardwareReset sel lines) : ∃ t, exec c s = .next t
      ∧ t.content = ({ s with out := [], anchor := { s.anchor with
          stale := if s.anchor.stale < 65535 then s.anchor.stale + 1 else s.anchor.stale } } : State).content :=
    ⟨_, exec_effect hr s, by rw [he]; exact s.countStale_content s⟩
  cases c
  case pickDone tag => exact counted (State.robotReply_stale (s := s.begin) h) (by simp)
  case placeDone tag => exact counted (State.robotReply_stale (s := s.begin) h) (by simp)
  case inventoryDone => exact counted (State.inventoryReply_stale (s := s.begin) _ h) (by simp)
  case prealignDone => exact counted (State.prealignReply_stale (s := s.begin) h) (by simp)
  case mapDone => exact counted (State.mapReply_stale (s := s.begin) _ h) (by simp)
  case handlerFault u tag code =>
    exact counted (State.faultReply_stale (s := s.begin) (by cases u <;> exact h)) (by simp)
  case arrived => exact counted (State.arrivedReply_stale (s := s.begin) h) (by simp)
  case homed => exact counted (State.homedReply_stale (s := s.begin) h) (by simp)
  case motionLinkFault => exact counted (State.motionFaultReply_stale (s := s.begin) h) (by simp)
  case markResult tag found ox oy =>
    have stale : s.begin.judgeGrab tag (fun k => k == .mark) = .stale :=
      State.judgeGrab_stale fun o ho => (h o ho).imp_right fun ⟨hd, hk⟩ => ⟨hd, by rw [hk]; rfl⟩
    exact counted (by show s.begin.markReply tag found ox oy = _; rw [State.markReply, stale]) (by simp)
  case grabDone tag first frames =>
    have stale : s.begin.judgeGrab tag (fun k => k == .defect) = .stale :=
      State.judgeGrab_stale fun o ho => (h o ho).imp_right fun ⟨hd, hk⟩ => ⟨hd, by rw [hk]; rfl⟩
    exact counted (by show s.begin.grabDoneReply tag first frames = _; rw [State.grabDoneReply, stale]) (by simp)
  case grabFault tag code =>
    have stale : s.begin.judgeGrab tag (fun _ => true) = .stale := State.judgeGrab_stale fun o ho => .inl (h o ho)
    exact counted (by show s.begin.grabFaultReply tag = _; rw [State.grabFaultReply, stale]) (by simp)
  all_goals exact absurd h (by simp [State.isStale])

end Sys2Proof.Machine
end

section
/-! SUPPORT. Where the words of the regions lie in an accepted layout, and what a read of them returns: O13, O22. -/

namespace Sys2Proof.Machine

/-! ## The regions of an accepted layout lie apart (R175) -/

/-- The byte address lies in the span. -/
def Span.holds (x : Span) (a : Nat) : Bool := decide (x.base ≤ a ∧ a < x.base + x.size)

theorem Span.holds_iff {x : Span} {a : Nat} : x.holds a = true ↔ x.base ≤ a ∧ a < x.base + x.size := decide_eq_true_iff

theorem Span.not_holds_of_apart {x y : Span} (h : x.apart y = true) {a : Nat} (ha : y.holds a = true) : x.holds a = false := by
  have h := of_decide_eq_true h
  have ha := Span.holds_iff.mp ha
  refine decide_eq_false fun hx => ?_
  omega

theorem pairwise_of_allApart : ∀ {l : List Span}, allApart l = true → l.Pairwise fun x y => x.apart y = true
  | [], _ => .nil
  | x :: rest, h => by
    rw [allApart, Bool.and_eq_true, List.all_eq_true] at h
    exact .cons h.1 (pairwise_of_allApart h.2)

/-- A watched region: its span, and how the path unit names its words. -/
structure Region where
  span : Span
  named : Nat → WordAt

def Windows.lotRegion (ws : Windows) (k : Slot) : Region :=
  ⟨⟨ws.lotBase.get k, 3456⟩, fun w => if w < 64 then .lotHeader k w else .waferEntry k ((w - 64) / 32 + 1) ((w - 64) % 32)⟩

def Windows.defectRegion (ws : Windows) (k : Slot) : Region :=
  ⟨⟨ws.defectBase.get k, 64 * ws.capacity.get k⟩, fun w => .defect k (w / 16) (w % 16)⟩

def Windows.reportRegion (ws : Windows) (k : Slot) : Region := ⟨⟨ws.reportBase.get k, 4928⟩, .report k⟩

def Windows.classRegion (ws : Windows) : Region := ⟨⟨ws.classBase, 256⟩, .classTable⟩

/-- The regions in the order in which the path unit looks for a word (R173). -/
def State.watched (s : State) (ws : Windows) : List Region :=
  [⟨⟨s.anchor.base, 256⟩, .anchor⟩, ws.lotRegion .zero, ws.defectRegion .zero, ws.reportRegion .zero,
    ws.lotRegion .one, ws.defectRegion .one, ws.reportRegion .one, ws.classRegion]

theorem wordIn_eq (a base n : Nat) : wordIn a base n = if (⟨base, 4 * n⟩ : Span).holds a then some ((a - base) / 4) else none := by
  simp [wordIn, Span.holds]

/-- The path unit's word is the one its first region that holds the address names. -/
theorem State.wordAt_eq_find {s : State} {ws : Windows} (h : s.path.windows = some ws) (addr : Nat) :
    s.wordAt addr = match (s.watched ws).find? fun r => r.span.holds (wordAddress addr) with
      | some r => r.named ((wordAddress addr - r.span.base) / 4)
      | none => .plain := by
  have cap (k : Slot) : 4 * (16 * ws.capacity.get k) = 64 * ws.capacity.get k := by omega
  simp only [State.wordAt, h, Windows.slotWord, wordIn_eq, cap, anchorWords, lotRecordWords, reportWords, classTableWords, State.watched,
    Windows.lotRegion, Windows.defectRegion, Windows.reportRegion, Windows.classRegion, List.find?_cons, List.find?_nil, Nat.reduceMul]
  by_cases h0 : (⟨s.anchor.base, 256⟩ : Span).holds (wordAddress addr) = true
  · simp [h0]
  by_cases h1 : (⟨ws.lotBase.get .zero, 3456⟩ : Span).holds (wordAddress addr) = true
  · simp [h0, h1]
  by_cases h2 : (⟨ws.defectBase.get .zero, 64 * ws.capacity.get .zero⟩ : Span).holds (wordAddress addr) = true
  · simp [h0, h1, h2]
  by_cases h3 : (⟨ws.reportBase.get .zero, 4928⟩ : Span).holds (wordAddress addr) = true
  · simp [h0, h1, h2, h3]
  by_cases h4 : (⟨ws.lotBase.get .one, 3456⟩ : Span).holds (wordAddress addr) = true
  · simp [h0, h1, h2, h3, h4]
  by_cases h5 : (⟨ws.defectBase.get .one, 64 * ws.capacity.get .one⟩ : Span).holds (wordAddress addr) = true
  · simp [h0, h1, h2, h3, h4, h5]
  by_cases h6 : (⟨ws.reportBase.get .one, 4928⟩ : Span).holds (wordAddress addr) = true
  · simp [h0, h1, h2, h3, h4, h5, h6]
  by_cases h7 : (⟨ws.classBase, 256⟩ : Span).holds (wordAddress addr) = true <;> simp [h0, h1, h2, h3, h4, h5, h6, h7]

/-- What the layout checks give of a watched region (R175). -/
theorem layoutCheck_none {anchor : Nat} {ws : Windows} {top : Nat} (h : layoutCheck anchor ws top = none) :
    (∀ x ∈ ws.spans, x.base % 256 = 0 ∧ x.base + x.size ≤ 2 ^ 28)
      ∧ ((⟨anchor, 256⟩ : Span) :: ws.spans).Pairwise fun x y => x.apart y = true := by
  unfold layoutCheck at h
  split at h
  · cases h
  split at h
  · cases h
  next align =>
  split at h
  · cases h
  next room =>
  split at h
  · cases h
  next apart =>
  have align := of_not_not align
  have apart := of_not_not apart
  obtain ⟨limit, room⟩ := of_not_not room
  simp only [List.all_eq_true, decide_eq_true_eq, beq_iff_eq] at align room
  exact ⟨fun x hx => ⟨align x hx, (room x hx).trans limit⟩, pairwise_of_allApart apart⟩

theorem Span.apart_comm (x y : Span) : x.apart y = y.apart x := by
  simp only [Span.apart, Or.comm]

theorem State.Laid.watched_spans {s : State} {ws : Windows} (h : s.Laid ws) :
    (∀ r ∈ s.watched ws, r.span.base % 4 = 0 ∧ r.span.base + r.span.size ≤ 2 ^ 28)
      ∧ (s.watched ws).Pairwise fun x y => x.span.apart y.span = true := by
  obtain ⟨⟨sel, hsel⟩, -, top, hc⟩ := h
  obtain ⟨inside, apart⟩ := layoutCheck_none hc
  have perm : ((s.watched ws).map (·.span)).Perm (⟨s.anchor.base, 256⟩ :: ws.spans) := by
    refine .cons _ (.cons _ ?_)
    exact .trans (List.perm_middle (l₁ := [_, _])) (.cons _ (.cons _ (.swap _ _ _)))
  constructor
  · intro r hr
    have hm : r.span ∈ (⟨s.anchor.base, 256⟩ :: ws.spans) := perm.subset (List.mem_map_of_mem hr)
    rcases List.mem_cons.mp hm with h | h
    · rw [h]
      rcases anchorBase_cases sel with e | e | e | e <;> simp [hsel, e]
    · have := inside _ h
      omega
  · refine List.pairwise_map.mp ((perm.symm.pairwise_iff fun h => ?_).mp apart)
    rwa [Span.apart_comm]

theorem wordAddress_of_aligned {a : Nat} (h : a % 4 = 0) (ha : a < 2 ^ 28) : wordAddress a = a := by
  unfold wordAddress
  omega

theorem find_of_apart {l : List Region} (h : l.Pairwise fun x y => x.span.apart y.span = true) {r : Region} (hr : r ∈ l) {a : Nat}
    (ha : r.span.holds a = true) : l.find? (fun r => r.span.holds a) = some r := by
  induction h with
  | nil => cases hr
  | @cons x rest hx _ ih =>
    rcases List.mem_cons.mp hr with rfl | hm
    · simp [ha]
    · rw [List.find?_cons_of_neg (by simp [Span.not_holds_of_apart (hx r hm) ha])]
      exact ih hm

/-- A word of a watched region is named by it: no other region holds its address. -/
theorem State.Laid.wordAt_of_watched {s : State} {ws : Windows} (h : s.Laid ws) {r : Region} (hr : r ∈ s.watched ws) {w : Nat}
    (hw : 4 * w < r.span.size) : s.wordAt (r.span.base + 4 * w) = r.named w := by
  obtain ⟨inside, apart⟩ := h.watched_spans
  obtain ⟨aligned, room⟩ := inside r hr
  rw [State.wordAt_eq_find h.windows, wordAddress_of_aligned (by omega) (by omega),
    find_of_apart apart hr (Span.holds_iff.mpr ⟨by omega, by omega⟩)]
  exact congrArg r.named (by omega)

/-! ## Where a record's words lie -/

theorem State.lotRegion_watched (s : State) (ws : Windows) (k : Slot) : ws.lotRegion k ∈ s.watched ws := by
  cases k <;> simp [State.watched]

theorem State.defectRegion_watched (s : State) (ws : Windows) (k : Slot) : ws.defectRegion k ∈ s.watched ws := by
  cases k <;> simp [State.watched]

theorem State.reportRegion_watched (s : State) (ws : Windows) (k : Slot) : ws.reportRegion k ∈ s.watched ws := by
  cases k <;> simp [State.watched]

theorem State.classRegion_watched (s : State) (ws : Windows) : ws.classRegion ∈ s.watched ws := by simp [State.watched]

theorem State.Laid.wordAt_lot {s : State} {ws : Windows} (h : s.Laid ws) (k : Slot) {j : Nat} (hj : j < 864) :
    s.wordAt (ws.lotBase.get k + 4 * j) = if j < 64 then .lotHeader k j else .waferEntry k ((j - 64) / 32 + 1) ((j - 64) % 32) :=
  h.wordAt_of_watched (s.lotRegion_watched ws k) (show 4 * j < 3456 by omega)

theorem State.Laid.wordAt_defect {s : State} {ws : Windows} (h : s.Laid ws) (k : Slot) {j : Nat} (hj : j < 16 * ws.capacity.get k) :
    s.wordAt (ws.defectBase.get k + 4 * j) = .defect k (j / 16) (j % 16) :=
  h.wordAt_of_watched (s.defectRegion_watched ws k) (show 4 * j < 64 * ws.capacity.get k by omega)

theorem State.Laid.wordAt_report {s : State} {ws : Windows} (h : s.Laid ws) (k : Slot) {j : Nat} (hj : j < 1232) :
    s.wordAt (ws.reportBase.get k + 4 * j) = .report k j :=
  h.wordAt_of_watched (s.reportRegion_watched ws k) (show 4 * j < 4928 by omega)

theorem State.Laid.wordAt_class {s : State} {ws : Windows} (h : s.Laid ws) {j : Nat} (hj : j < 64) :
    s.wordAt (ws.classBase + 4 * j) = .classTable j :=
  h.wordAt_of_watched (s.classRegion_watched ws) (show 4 * j < 256 by omega)

/-- Every word of a record in the layout is found where the formats put it (R173, R175). -/
theorem State.Laid.wordAt_record {s : State} {ws : Windows} (h : s.Laid ws) {id : RecId} (hid : id.inLayout ws) {w : Nat}
    (hw : w < id.size) : s.wordAt (ws.recordBase id + 4 * w) = id.word w := by
  cases id with
  | lotHeader k =>
    have hw : w < 64 := hw
    rw [Windows.recordBase, h.wordAt_lot k (by omega), if_pos hw]
    rfl
  | waferEntry k n =>
    have hw : w < 32 := hw
    obtain ⟨h1, h25⟩ : 1 ≤ n ∧ n ≤ 25 := hid
    have place : ws.recordBase (.waferEntry k n) + 4 * w = ws.lotBase.get k + 4 * (64 + 32 * (n - 1) + w) := by
      rw [Windows.recordBase]
      omega
    rw [place, h.wordAt_lot k (by omega), if_neg (by omega), RecId.word]
    congr 1 <;> omega
  | defectEntry k i =>
    have hw : w < 16 := hw
    have hi : i < ws.capacity.get k := hid
    have place : ws.recordBase (.defectEntry k i) + 4 * w = ws.defectBase.get k + 4 * (16 * i + w) := by
      rw [Windows.recordBase]
      omega
    rw [place, h.wordAt_defect k (by omega), RecId.word]
    congr 1 <;> omega
  | reportHeader k =>
    have hw : w < 32 := hw
    rw [Windows.recordBase, h.wordAt_report k (by omega)]
    rfl
  | reportRow k n =>
    have hw : w < 48 := hw
    obtain ⟨h1, h25⟩ : 1 ≤ n ∧ n ≤ 25 := hid
    have place : ws.recordBase (.reportRow k n) + 4 * w = ws.reportBase.get k + 4 * (32 + 48 * (n - 1) + w) := by
      rw [Windows.recordBase]
      omega
    rw [place, h.wordAt_report k (by omega)]
    rfl

/-- A record's word lies below the top of memory, at a word address. -/
theorem State.Laid.record_address {s : State} {ws : Windows} (h : s.Laid ws) {id : RecId} (hid : id.inLayout ws) {w : Nat}
    (hw : w < id.size) : (ws.recordBase id + 4 * w) % 4 = 0 ∧ ws.recordBase id + 4 * w < 2 ^ 28 := by
  have inside (r : Region) (hr : r ∈ s.watched ws) := h.watched_spans.1 r hr
  have lot (k : Slot) := inside _ (s.lotRegion_watched ws k)
  have defect (k : Slot) := inside _ (s.defectRegion_watched ws k)
  have report (k : Slot) := inside _ (s.reportRegion_watched ws k)
  clear inside
  simp only [Windows.lotRegion, Windows.defectRegion, Windows.reportRegion] at lot defect report
  cases id with
  | lotHeader k =>
    have := lot k
    simp only [RecId.size, Windows.recordBase] at *
    omega
  | waferEntry k n =>
    have := lot k
    simp only [RecId.size, Windows.recordBase, RecId.inLayout] at *
    omega
  | defectEntry k i =>
    have := defect k
    simp only [RecId.size, Windows.recordBase, RecId.inLayout] at *
    omega
  | reportHeader k =>
    have := report k
    simp only [RecId.size, Windows.recordBase] at *
    omega
  | reportRow k n =>
    have := report k
    simp only [RecId.size, Windows.recordBase, RecId.inLayout] at *
    omega

theorem State.Laid.regions {s : State} {ws : Windows} (h : s.Laid ws) : s.regions = ws := by
  rw [State.regions, h.windows, Option.getD_some]

/-- The records in the layout are watched (R173, R175). -/
theorem State.Laid.watches {s : State} {ws : Windows} (h : s.Laid ws) {id : RecId} (hid : id.inLayout ws) : s.Watches id := by
  intro w v be hw
  have place : (s.recordWrite id w v be).addr = ws.recordBase id + 4 * w := by
    rw [State.recordWrite, h.regions]
    exact Nat.mod_eq_of_lt (h.record_address hid hw).2
  rw [place, h.wordAt_record hid hw]

theorem State.Laid.wordAt_classTableWrite {s : State} {ws : Windows} (h : s.Laid ws) {w : Nat} (hw : w < 64) (v : Word) (be : Enables) :
    s.wordAt (s.classTableWrite w v be).addr = .classTable w := by
  obtain ⟨-, room⟩ := h.watched_spans.1 _ (s.classRegion_watched ws)
  simp only [Windows.classRegion] at room
  have place : (s.classTableWrite w v be).addr = ws.classBase + 4 * w := by
    rw [State.classTableWrite, h.regions]
    exact Nat.mod_eq_of_lt (by omega)
  rw [place, h.wordAt_class hw]

/-! ## What a read returns (R181) -/

/-- The PART words of a region's record are named with it and their offset (R178). -/
theorem RecId.word_part {id : RecId} {ws : Windows} (hid : id.inLayout ws) {w : Nat} (hw : w < id.size) :
    (id.word w).part = none ∨ (id.word w).part = some (id, w) := by
  cases id with
  | lotHeader k =>
    by_cases h : 36 ≤ w ∧ w ≤ 39 <;> simp [RecId.word, WordAt.part, h]
  | waferEntry k n =>
    by_cases h : 3 ≤ w ∧ w ≤ 13 <;> simp [RecId.word, WordAt.part, h]
  | defectEntry k i =>
    by_cases h : 8 ≤ w <;> simp [RecId.word, WordAt.part, h]
  | reportHeader k =>
    have hw : w < 32 := hw
    simp [RecId.word, WordAt.part, hw]
  | reportRow k n =>
    obtain ⟨h1, h25⟩ : 1 ≤ n ∧ n ≤ 25 := hid
    have hw : w < 48 := hw
    refine .inr ?_
    have row : (32 + 48 * (n - 1) + w - 32) / 48 + 1 = n := by omega
    have offset : (32 + 48 * (n - 1) + w - 32) % 48 = w := by omega
    simp only [RecId.word, WordAt.part]
    rw [if_neg (by omega), row, offset]

theorem State.Laid.answer_record {s : State} {ws : Windows} (h : s.Laid ws) {id : RecId} (hid : id.inLayout ws) {w : Nat}
    (hw : w < id.size) : s.answer (ws.recordBase id + 4 * w)
      = if (id.word w).part = none then none else (s.heldWord id w).or (s.mport.forward (ws.recordBase id + 4 * w)) := by
  have at_word := h.wordAt_record hid hw
  have place := wordAddress_of_aligned (h.record_address hid hw).1 (h.record_address hid hw).2
  unfold State.answer
  rw [at_word, place]
  cases id <;> rcases RecId.word_part hid hw with hp | hp <;> simp only [RecId.word] at hp ⊢ <;> simp [hp]

/-- What one request of the queue makes of the value forwarded for a word. -/
def PartRequest.forwarded (a : Nat) (r : Option Word) : PartRequest → Option Word
  | .write addr v _ => if addr = a then some v else r
  | _ => r

theorem MPort.forward_eq (m : MPort) (a : Nat) : m.forward a = m.requests.foldl (PartRequest.forwarded a) none := rfl

theorem foldl_forwarded_of_no_write {a : Nat} {l : List PartRequest} (h : ∀ x y, PartRequest.write a x y ∉ l) (r : Option Word) :
    l.foldl (PartRequest.forwarded a) r = r := by
  induction l generalizing r with
  | nil => rfl
  | cons q rest ih =>
    rw [List.foldl_cons, ih fun x y hm => h x y (List.mem_cons_of_mem _ hm)]
    cases q with
    | write addr x y => exact if_neg fun e => h x y (by rw [← e]; exact List.mem_cons_self)
    | layout _ | startFetch _ _ | postVersion _ _ | fill _ _ _ | classTable _ => rfl

/-- The newest queued write of a word (R181). -/
theorem MPort.forward_newest {m : MPort} {before later : List PartRequest} {a : Nat} {v : Word} {o : RecId}
    (h : m.requests = before ++ .write a v o :: later) (hl : ∀ x y, PartRequest.write a x y ∉ later) : m.forward a = some v := by
  rw [m.forward_eq, h, List.foldl_append, List.foldl_cons, foldl_forwarded_of_no_write hl]
  exact if_pos rfl

theorem MPort.forward_none {m : MPort} {a : Nat} (h : ∀ x y, PartRequest.write a x y ∉ m.requests) : m.forward a = none := by
  rw [m.forward_eq, foldl_forwarded_of_no_write h]

/-- A held PART word is read as it is held. -/
theorem State.Laid.readWord_held {s : State} {ws : Windows} (h : s.Laid ws) {id : RecId} (hid : id.inLayout ws) {w : Nat}
    (hw : w < id.size) (hp : (id.word w).part ≠ none) {v : Word} (hv : s.heldWord id w = some v) :
    s.readWord (ws.recordBase id + 4 * w) = v := by
  rw [State.readWord, h.answer_record hid hw, if_neg hp, hv]
  rfl

/-! ## The words of an image -/

theorem Image.get_append (a b : Image) (w : Nat) : Image.get (a ++ b) w = (Image.get a w).or (Image.get b w) := by
  unfold Image.get
  rw [List.find?_append]
  cases List.find? (fun p => p.1 == w) a <;> rfl

theorem Image.get_numbered (l : List Word) : ∀ k w, Image.get (numbered k l) w = if k ≤ w then l[w - k]? else none := by
  induction l with
  | nil => simp [numbered, Image.get]
  | cons x rest ih =>
    intro k w
    have hd : Image.get (numbered k (x :: rest)) w = if k = w then some x else Image.get (numbered (k + 1) rest) w := by
      by_cases e : k = w <;> simp [numbered, Image.get, e]
    rw [hd, ih]
    by_cases e : k = w
    · simp [e]
    · by_cases l : k ≤ w
      · obtain ⟨d, rfl⟩ : ∃ d, w = k + 1 + d := ⟨w - (k + 1), by omega⟩
        have : k + 1 + d - k = d + 1 := by omega
        simp [e, l, this]
      · rw [if_neg e, if_neg (by omega), if_neg l]

/-- A word of the record its owner holds (R178). -/
theorem State.heldWord_owner {s : State} {id : RecId} {im : Image} (h : s.ownerImage id = some im) (w : Nat) :
    s.heldWord id w = if w = versionOffset id then some (s.version id) else im.get w := by
  simp [State.heldWord, State.heldImage, h]

/-! ## Lanes and halves (R191) -/

theorem lane_ofLanes (a b c d : Nat) : lane 0 (ofLanes a b c d) = BitVec.ofNat 8 a ∧ lane 1 (ofLanes a b c d) = BitVec.ofNat 8 b
    ∧ lane 2 (ofLanes a b c d) = BitVec.ofNat 8 c ∧ lane 3 (ofLanes a b c d) = BitVec.ofNat 8 d := by
  refine ⟨?_, ?_, ?_, ?_⟩ <;> apply BitVec.eq_of_toNat_eq <;>
    simp only [lane, ofLanes, BitVec.extractLsb'_toNat, BitVec.toNat_ofNat, Nat.shiftRight_eq_div_pow] <;> omega

theorem halves_ofHalves (a b : Nat) : lowHalf (ofHalves a b) = BitVec.ofNat 16 a ∧ highHalf (ofHalves a b) = BitVec.ofNat 16 b := by
  refine ⟨?_, ?_⟩ <;> apply BitVec.eq_of_toNat_eq <;>
    simp only [lowHalf, highHalf, ofHalves, BitVec.extractLsb'_toNat, BitVec.toNat_ofNat, Nat.shiftRight_eq_div_pow] <;> omega

/-- A word of the record its owner holds, read in an accepted layout. -/
theorem State.Laid.readWord_owner {s : State} {ws : Windows} (h : s.Laid ws) {id : RecId} (hid : id.inLayout ws) {im : Image}
    (ho : s.ownerImage id = some im) {w : Nat} (hw : w < id.size) (hp : (id.word w).part ≠ none) {v : Word}
    (hv : (if w = versionOffset id then some (s.version id) else im.get w) = some v) :
    s.readWord (ws.recordBase id + 4 * w) = v :=
  h.readWord_held hid hw hp ((State.heldWord_owner ho w).trans hv)

/-- The fields of a lot header (11_memory_formats.md, The lot record). -/
theorem State.Laid.lotHeader_words {s : State} {ws : Windows} (h : s.Laid ws) (ha : s.anchor.attach = .attached) (k : Slot) (w : Nat)
    (hw : 36 ≤ w ∧ w ≤ 39) {v : Word} (hv : (if w = 39 then some (s.version (.lotHeader k)) else (s.lot k).image.get w) = some v) :
    s.readWord (ws.lotBase.get k + 4 * w) = v :=
  h.readWord_owner (id := .lotHeader k) trivial (if_pos ha) (show w < 64 by omega) (by simp [RecId.word, WordAt.part, hw]) hv

theorem State.Laid.defect_words {s : State} {ws : Windows} (h : s.Laid ws) (ha : s.anchor.attach = .attached) {k : Slot} {i : Nat} {e : Entry}
    (hi : i < ws.capacity.get k) (he : s.entry k i = some e) (w : Nat) (hw : 8 ≤ w ∧ w < 16) {v : Word}
    (hv : (if w = 15 then some (s.version (.defectEntry k i)) else e.image.get w) = some v) :
    s.readWord (ws.defectBase.get k + 64 * i + 4 * w) = v := by
  have ho : s.ownerImage (.defectEntry k i) = some e.image := by simp [State.ownerImage, ha, he]
  exact h.readWord_owner (id := .defectEntry k i) hi ho hw.2 (by simp [RecId.word, WordAt.part, hw.1]) hv

theorem State.Laid.wafer_words {s : State} {ws : Windows} (h : s.Laid ws) (ha : s.anchor.attach = .attached) {k : Slot} {n : Nat} {x : Wafer}
    (h1 : 1 ≤ n) (hn : n ≤ 25) (hx : s.wafer ⟨k, n⟩ = some x) (w : Nat) (hw : 3 ≤ w ∧ w ≤ 13) {v : Word}
    (hv : (if w = 13 then some (s.version (.waferEntry k n)) else (x.image (s.locationOf ⟨k, n⟩)).get w) = some v) :
    s.readWord (ws.lotBase.get k + 256 + 128 * (n - 1) + 4 * w) = v := by
  have ho : s.ownerImage (.waferEntry k n) = some (x.image (s.locationOf ⟨k, n⟩)) := by simp [State.ownerImage, ha, hx]
  have place : ws.lotBase.get k + 256 + 128 * (n - 1) + 4 * w = ws.recordBase (.waferEntry k n) + 4 * w := by
    rw [Windows.recordBase]
    omega
  rw [place]
  exact h.readWord_owner (id := .waferEntry k n) ⟨h1, hn⟩ ho (show w < 32 by omega) (by simp [RecId.word, WordAt.part, hw]) hv

theorem State.Laid.report_words {s : State} {ws : Windows} (h : s.Laid ws) (ha : s.anchor.attach = .attached) {k : Slot}
    (hr : (s.report k).rows ≠ []) (w : Nat) (hw : w < 32) {v : Word}
    (hv : (if w = 16 then some (s.version (.reportHeader k)) else (s.report k).image.get w) = some v) :
    s.readWord (ws.reportBase.get k + 4 * w) = v := by
  have ho : s.ownerImage (.reportHeader k) = some (s.report k).image := by simp [State.ownerImage, ha, hr]
  exact h.readWord_owner (id := .reportHeader k) trivial ho hw (by simp [RecId.word, WordAt.part, hw]) hv

theorem State.Laid.row_words {s : State} {ws : Windows} (h : s.Laid ws) (ha : s.anchor.attach = .attached) {k : Slot} {n : Nat} {x : Row}
    (h1 : 1 ≤ n) (hn : n ≤ 25) (hx : s.row ⟨k, n⟩ = some x) (w : Nat) (hw : w < 48) {v : Word}
    (hv : (if w = 36 then some (s.version (.reportRow k n)) else (x.image n).get w) = some v) :
    s.readWord (ws.reportBase.get k + 128 + 192 * (n - 1) + 4 * w) = v := by
  have ho : s.ownerImage (.reportRow k n) = some (x.image n) := by simp [State.ownerImage, ha, hx]
  have place : ws.reportBase.get k + 128 + 192 * (n - 1) + 4 * w = ws.recordBase (.reportRow k n) + 4 * w := by
    rw [Windows.recordBase]
    omega
  have outside : ¬ 32 + 48 * (n - 1) + w < 32 := by omega
  rw [place]
  exact h.readWord_owner (id := .reportRow k n) ⟨h1, hn⟩ ho hw (by simp [RecId.word, WordAt.part, outside]) hv

theorem getAt_zero {α : Type} (l : List α) : getAt l 0 = none := rfl

/-- A wafer or row that is held has a number from 1. -/
theorem one_le_of_getAt {α : Type} {l : List α} {n : Nat} {a : α} (h : getAt l n = some a) : 1 ≤ n := by
  rcases Nat.eq_zero_or_pos n with rfl | hn
  · exact nomatch (getAt_zero l).symm.trans h
  · exact hn

theorem State.anchor_words {s : State} (h : s.AnchorPlaced) {w : Nat} (hw : w < 64) {v : Word} (hv : s.anchorWord w = some v) :
    s.readWord (s.anchor.base + 4 * w) = v := by
  obtain ⟨sel, hs⟩ := h
  have place : (s.anchor.base + 4 * w) % 2 ^ 28 = s.anchor.base + 4 * w := by
    rcases anchorBase_cases sel with e | e | e | e <;> rw [hs, e] <;> omega
  have found := State.wordAt_anchorWord ⟨sel, hs⟩ hw
  rw [place] at found
  rw [State.readWord, State.answer, found]
  simp [hv]

theorem Report.image_rest (r : Report) {w : Nat} (h17 : 17 ≤ w) (h32 : w < 32) : r.image.get w = some 0 := by
  have h : ∀ j < 15, (List.replicate 15 (0 : Word))[j]? = some 0 := by decide
  rw [Report.image, Image.get_append, Image.get_numbered, Image.get_numbered, if_pos h17, h (w - 17) (by omega)]
  rw [List.getElem?_eq_none (by simp; omega)]
  rfl

/-- The words of a row before its bins, its bins, and the words after them (11_memory_formats.md, The report). -/
theorem Row.image_get (r : Row) (n : Nat) (hb : r.bins.length = 16) :
    (∀ w < 12, (r.image n).get w = ([wordOfNat n, wordOfNat r.state.code, wordOfNat r.finalResult.code, wordOfNat r.posts]
      ++ r.outcomes.list.map wordOfNat)[w]?)
    ∧ (∀ j < 16, (r.image n).get (12 + j) = some (wordOfNat (r.bins.getD j 0)))
    ∧ (∀ j < 8, (r.image n).get (28 + j) = [wordOfInt r.scale, wordOfInt r.rotation, wordOfNat r.mapZones, wordOfInt r.mapLeast,
      wordOfInt r.mapGreatest, r.duration, (if r.postingTimeout then 1 else 0), wordOfNat r.late][j]?)
    ∧ ∀ w, 37 ≤ w → w < 48 → (r.image n).get w = some 0 := by
  have outcomes : r.outcomes.list.length = 8 := rfl
  have zeros : ∀ j < 11, (List.replicate 11 (0 : Word))[j]? = some 0 := by decide
  refine ⟨fun w hw => ?_, fun j hj => ?_, fun j hj => ?_, fun w h37 h48 => ?_⟩
  all_goals rw [Row.image, Image.get_append, Image.get_numbered, Image.get_numbered]
  · rw [if_pos (Nat.zero_le w), if_neg (show ¬ 37 ≤ w by omega), Option.or_none, Nat.sub_zero,
      List.getElem?_append_left (by simp [outcomes, hb]; omega), List.getElem?_append_left (by simp [outcomes]; omega)]
  · rw [if_pos (Nat.zero_le (12 + j)), if_neg (show ¬ 37 ≤ 12 + j by omega), Option.or_none, Nat.sub_zero,
      List.getElem?_append_left (by simp [outcomes, hb]; omega), List.getElem?_append_right (by simp [outcomes])]
    simp [outcomes, hb, hj]
  · rw [if_pos (Nat.zero_le (28 + j)), if_neg (show ¬ 37 ≤ 28 + j by omega), Option.or_none, Nat.sub_zero,
      List.getElem?_append_right (by simp [outcomes, hb])]
    congr 1
    simp [outcomes, hb]
  · rw [if_pos (Nat.zero_le w), if_pos h37, List.getElem?_eq_none (by simp [outcomes, hb]; omega), zeros (w - 37) (by omega)]
    rfl

/-- Settles O13: the regions of an accepted layout lie apart, and each read returns what the record's image shows. -/
theorem everyWordLiesWhereTheLayoutPutsIt : Obligations.EveryWordLiesWhereTheLayoutPutsIt := by
  refine ⟨fun s ws h => ⟨fun id => h.watches, fun w v be hw => h.wordAt_classTableWrite hw v be, fun w v be hw =>
    State.wordAt_anchorWrite h.anchor hw v be, ?_, ?_, ?_, ?_, ?_, ?_⟩, ?_, ?_⟩
  · rintro id w a hid hw rfl
    rw [State.readWord, h.answer_record hid hw]
    refine ⟨fun hp => by rw [if_pos hp]; rfl, fun hp => ?_⟩
    rw [if_neg hp]
    refine ⟨fun v hv => by rw [hv]; rfl, fun hn before v o later hq hl => ?_, fun hn hq => ?_⟩
    · rw [hn, MPort.forward_newest hq hl]
      rfl
    · rw [hn, MPort.forward_none hq]
      rfl
  · intro ha k r hr
    simp only [hr]
    have word := h.lotHeader_words ha k
    rw [word 36 (by decide) rfl, word 37 (by decide) rfl, word 38 (by decide) rfl, word 39 (by decide) rfl]
    exact ⟨rfl, (lane_ofLanes ..).1, (lane_ofLanes ..).2.1, (halves_ofHalves ..).1, (halves_ofHalves ..).2, rfl⟩
  · intro ha k i e hi he r hr
    simp only [hr]
    have word := h.defect_words ha hi he
    rw [word 8 (by decide) rfl, word 9 (by decide) rfl, word 10 (by decide) rfl, word 11 (by decide) rfl, word 12 (by decide) rfl,
      word 13 (by decide) rfl, word 14 (by decide) rfl, word 15 (by decide) rfl]
    obtain ⟨l0, l1, l2, -⟩ := lane_ofLanes e.state.code e.reason.code e.ignored 0
    exact ⟨l0, l1, l2, rfl, rfl, rfl, rfl, rfl, rfl, rfl⟩
  · intro ha k n x hn hx r hr
    simp only [hr]
    have word := h.wafer_words ha (one_le_of_getAt hx) hn hx
    rw [word 3 (by decide) rfl, word 4 (by decide) rfl, word 5 (by decide) rfl, word 6 (by decide) rfl, word 7 (by decide) rfl,
      word 8 (by decide) rfl, word 9 (by decide) rfl, word 10 (by decide) rfl, word 11 (by decide) rfl, word 12 (by decide) rfl,
      word 13 (by decide) rfl]
    obtain ⟨l0, l1, l2, l3⟩ := lane_ofLanes x.alignState.code x.alignMark x.alignAttempts x.alignReason.code
    refine ⟨rfl, rfl, ?_, l0, l1, l2, l3, rfl, rfl, rfl, rfl⟩
    cases s.locationOf ⟨k, n⟩ with
    | none => rfl
    | some l =>
      cases l with
      | carrier p m => cases p <;> rfl
      | ua | la | pa | st => rfl
  · intro ha k hrows r hr
    simp only [hr]
    have word := h.report_words ha hrows
    rw [word 0 (by decide) rfl, word 1 (by decide) rfl, word 2 (by decide) rfl, word 3 (by decide) rfl, word 4 (by decide) rfl,
      word 5 (by decide) rfl, word 14 (by decide) rfl, word 15 (by decide) rfl, word 16 (by decide) rfl]
    refine ⟨rfl, rfl, rfl, rfl, rfl, rfl, fun j hj => ?_, rfl, rfl, rfl, fun w h17 h32 => ?_⟩
    · have outcome : (s.report k).image.get (6 + j) = some (BitVec.ofNat 32 ((s.report k).rows.map fun x => x.outcomes.list.getD j 0).sum) := by
        interval_cases j <;> rfl
      exact word (6 + j) (by omega) (by rw [if_neg (by omega), outcome])
    · exact word w h32 (by rw [if_neg (by omega), Report.image_rest _ h17 h32])
  · intro ha k n x hn hx hb r hr
    simp only [hr]
    obtain ⟨head, bins, tail, rest⟩ := Row.image_get x n hb
    have word := h.row_words ha (one_le_of_getAt hx) hn hx
    have first (j : Nat) (hj : j < 12) (v : Word) := fun hv => word j (by omega) (v := v) ((if_neg (by omega)).trans ((head j hj).trans hv))
    have last (j : Nat) (hj : j < 8) (v : Word) := fun hv => word (28 + j) (by omega) (v := v) ((if_neg (by omega)).trans ((tail j hj).trans hv))
    rw [first 0 (by decide) _ rfl, first 1 (by decide) _ rfl, first 2 (by decide) _ rfl, first 3 (by decide) _ rfl,
      last 0 (by decide) _ rfl, last 1 (by decide) _ rfl, last 2 (by decide) _ rfl, last 3 (by decide) _ rfl,
      last 4 (by decide) _ rfl, last 5 (by decide) _ rfl, last 6 (by decide) _ rfl, last 7 (by decide) _ rfl,
      word 36 (by decide) rfl]
    refine ⟨rfl, rfl, rfl, rfl, fun j hj => ?_, fun j hj => ?_, rfl, rfl, rfl, rfl, rfl, rfl, rfl, rfl, rfl, fun w h37 h48 => ?_⟩
    · refine first (4 + j) (by omega) _ ?_
      interval_cases j <;> rfl
    · exact word (12 + j) (by omega) (by rw [if_neg (by omega), bins j hj]; rfl)
    · exact word w h48 (by rw [if_neg (by omega), rest w h37 h48])
  · intro s h r hr
    simp only [hr]
    have word (w : Nat) (hw : w < 64) := fun v hv => State.anchor_words (v := v) h hw hv
    rw [word 1 (by decide) _ rfl, word 2 (by decide) _ rfl, word 17 (by decide) _ rfl, word 23 (by decide) _ rfl, word 24 (by decide) _ rfl,
      word 25 (by decide) _ rfl, word 26 (by decide) _ rfl, word 27 (by decide) _ rfl, word 28 (by decide) _ rfl,
      word 29 (by decide) _ rfl, word 30 (by decide) _ rfl, word 31 (by decide) _ rfl, word 32 (by decide) _ rfl, word 33 (by decide) _ rfl]
    obtain ⟨a0, a1, -⟩ := lane_ofLanes s.anchor.attach.code s.anchor.reason.code 0 0
    obtain ⟨m0, m1, m2, -⟩ := lane_ofLanes s.motion.x.state.code s.motion.y.state.code s.motion.z.state.code 0
    refine ⟨a0, a1, rfl, rfl, fun j n hj => ?_, (halves_ofHalves ..).1, (halves_ofHalves ..).2, (halves_ofHalves ..).1, rfl, rfl, rfl, rfl,
      m0, m1, m2, fun hring => ?_, fun older f hring => ?_, rfl, (halves_ofHalves ..).1, (halves_ofHalves ..).2, rfl⟩
    · have counts : s.readWord (s.anchor.base + 4 * (18 + j))
          = ofHalves ((s.notice.counts[2 * j]?).getD 0) ((s.notice.counts[2 * j + 1]?).getD 0) := by
        refine word (18 + j) (by omega) _ ?_
        interval_cases j <;> rfl
      rw [counts]
      exact ⟨fun hc => by rw [(halves_ofHalves ..).1, hc]; rfl, fun hc => by rw [(halves_ofHalves ..).2, hc]; rfl⟩
    · rw [(halves_ofHalves ..).1, State.liveFocusError, hring]
      rfl
    · rw [(halves_ofHalves ..).1, State.liveFocusError, hring, List.getLast?_append]
      exact BitVec.eq_of_toNat_eq (by simp; omega)
  · decide

/-! ## The start fetch (R3) -/

theorem versionOffset_lt_size (id : RecId) : versionOffset id < id.size := by
  cases id <;> exact of_decide_eq_true rfl

/-- A version word of the start fetch is the version word of a wafer entry, of the report header or of a row. -/
theorem FetchItem.versionWord {it : FetchItem} (h : it ∈ fetchItems) (hv : it.isVersion = true) (k : Slot) (ws : Windows) :
    ∃ id : RecId, id.inLayout ws ∧ (∀ j, id ≠ .lotHeader j) ∧ ws.itemAddress k it = ws.recordBase id + 4 * versionOffset id := by
  simp only [fetchItems, headerItems, entryItems, versionItems, List.mem_append, List.mem_map, List.mem_flatMap, List.mem_singleton] at h
  rcases h with (⟨w, _, rfl⟩ | ⟨n, _, w, _, rfl⟩) | (⟨n, hn, rfl⟩ | rfl) | ⟨n, hn, rfl⟩
  · cases hv
  · cases hv
  · exact ⟨.waferEntry k n, mem_slots25.mp hn, fun _ => nofun, rfl⟩
  · exact ⟨.reportHeader k, trivial, fun _ => nofun, rfl⟩
  · exact ⟨.reportRow k n, mem_slots25.mp hn, fun _ => nofun, rfl⟩

/-- The state in which a START taken asks for its fetch: the lot STARTING and the recipe locked (R3). -/
def State.starting (s : State) (k : Slot) : State :=
  ((s.modLot k fun l => { l with state := .starting, refusal := .none, badField := 0, ignored := 0, changed := 0 }).setRevisit
    { s.revisit with postSequence := s.revisit.postSequence.set k 0 }).setStartLock k true

theorem State.startRequest_empty {s : State} {k : Slot} (h : (s.lot k).state = .empty) : s.startRequest k = (s.starting k).beginFetch k := by
  unfold State.startRequest
  rw [h]
  rfl

theorem State.beginFetch_some {s : State} {ws : Windows} (h : s.path.windows = some ws) (k : Slot) : s.beginFetch k =
    (s.modLot k fun l => { l with fetch := some (fetchItems.filterMap fun it => (s.fetchAnswer ws k it).map fun v => (it, v)) }).askAll
      ((fetchItems.filter fun it => (s.fetchAnswer ws k it).isNone).map (.startFetch k)) := by
  rw [State.beginFetch, h]

theorem State.starting_ownerImage (s : State) (k : Slot) {id : RecId} (h : ∀ j, id ≠ .lotHeader j) :
    (s.starting k).ownerImage id = s.ownerImage id := by
  have wafers (j : Slot) : ((s.starting k).lot j).wafers = (s.lot j).wafers := by
    cases k <;> cases j <;> rfl
  cases id with
  | lotHeader j => exact absurd rfl (h j)
  | waferEntry j n =>
    show (if _ then (getAt ((s.starting k).lot j).wafers n).map _ else none) = _
    rw [wafers]
    rfl
  | defectEntry _ _ | reportHeader _ | reportRow _ _ => rfl

/-- A START changes no answer to a read of a version word that it fetches (R181). -/
theorem State.Laid.starting_answer {s : State} {ws : Windows} (h : s.Laid ws) (k : Slot) {it : FetchItem} (hi : it ∈ fetchItems)
    (hv : it.isVersion = true) : (s.begin.starting k).answer (ws.itemAddress k it) = s.answer (ws.itemAddress k it) := by
  obtain ⟨id, hid, hl, place⟩ := FetchItem.versionWord hi hv k ws
  have h' : (s.begin.starting k).Laid ws := ⟨h.anchor, h.windows, h.checked⟩
  have held : (s.begin.starting k).heldWord id (versionOffset id) = s.heldWord id (versionOffset id) := by
    simp only [State.heldWord, State.heldImage, State.starting_ownerImage _ k hl]
    rfl
  rw [place, h.answer_record hid (versionOffset_lt_size id), h'.answer_record hid (versionOffset_lt_size id), held]
  rfl

/-- Settles O22: every fetched word is known or asked for, by whether the part answers it. -/
theorem startTakenBeginsTheFetch : Obligations.StartTakenBeginsTheFetch := by
  intro s k h he
  obtain ⟨ws, hw⟩ := State.windows_of_watches h.watches
  have windows : (s.begin.starting k).path.windows = some ws := hw
  let got := fun it => (s.begin.starting k).fetchAnswer ws k it
  refine ⟨_, fetchItems.filterMap fun it => (got it).map fun v => (it, v), fetchItems.filter fun it => (got it).isNone,
    exec_lotRequest h rfl, partition_perm _ _, fun p hp => ?_, fun ws' laid => ?_, ?_⟩
  · obtain ⟨it, -, hit⟩ := List.mem_filterMap.mp hp
    obtain ⟨v, hv, rfl⟩ := Option.map_eq_some_iff.mp hit
    by_contra hn
    cases (if_neg hn).symm.trans hv
  · obtain rfl : ws' = ws := Option.some.inj (laid.windows.symm.trans hw)
    have answered (it : FetchItem) (hi : it ∈ fetchItems) (hv : it.isVersion = true) : got it = s.answer (ws'.itemAddress k it) :=
      (if_pos hv).trans (laid.starting_answer k hi hv)
    refine ⟨fun p hp => ?_, fun it hit hv => ?_⟩
    · obtain ⟨it, hi, hit⟩ := List.mem_filterMap.mp hp
      obtain ⟨v, hv, rfl⟩ := Option.map_eq_some_iff.mp hit
      have version : it.isVersion = true := by
        by_contra hn
        cases (if_neg hn).symm.trans hv
      exact (answered it hi version).symm.trans hv
    · obtain ⟨hi, none⟩ := List.mem_filter.mp hit
      rw [← answered it hi hv]
      exact Option.isNone_iff_eq_none.mp none
  · rw [State.lotRequest_start, State.startRequest_empty (s := s.begin) he, State.beginFetch_some windows, State.finish_content]
    cases k <;> rfl

end Sys2Proof.Machine
end

section
/-! SUPPORT. The words served at the M-port and the writer's queue: O9, O18. -/

namespace Sys2Proof.Machine

/-! ## The end of a step leaves the direct-write list -/

theorem State.commitRecord_direct (s0 s : State) (id : RecId) : (State.commitRecord s0 s id).wb.direct = s.wb.direct := by
  unfold State.commitRecord
  split
  · rfl
  · dsimp only
    split <;> rfl

theorem State.foldl_commitRecord_direct (s0 : State) (ids : List RecId) :
    ∀ s : State, (ids.foldl (State.commitRecord s0) s).wb.direct = s.wb.direct := by
  induction ids with
  | nil => exact fun _ => rfl
  | cons id rest ih => exact fun s => (ih _).trans (State.commitRecord_direct s0 s id)

theorem State.commitAnchor_direct (s0 s : State) : (State.commitAnchor s0 s).wb.direct = s.wb.direct := by
  unfold State.commitAnchor
  split <;> rfl

theorem State.prune_direct (s : State) : s.prune.wb.direct = s.wb.direct := rfl

@[simp] theorem State.finish_direct (s0 s : State) : (State.finish s0 s).wb.direct = s.wb.direct := by
  rw [State.finish_wb, State.prune_direct, State.commit, State.commitAnchor_direct, State.foldl_commitRecord_direct]

/-! ## A queued word written (R184) -/

theorem State.served_part {s : State} {q : PartRequest} {rest : List PartRequest} (hs : s.mport.serving = some .part)
    (hq : s.mport.requests = q :: rest) : s.served = some q := by
  rw [State.served, hs, hq]
  rfl

/-- The oldest queued word stored: it has left the queue, and the M-port is free. -/
def State.wordStored (s : State) (addr : Nat) (v : Word) : State := { s.endService with mem := s.mem.writeWord addr v 15 }

theorem exec_writeQueueWordWritten {s : State} {addr : Nat} {v : Word} {id : RecId} {rest : List PartRequest}
    (hs : s.mport.serving = some .part) (hq : s.mport.requests = .write addr v id :: rest) :
    exec .writeQueueWordWritten s = .next (State.finish s (s.begin.wordStored addr v).enterDirect) := by
  have served : s.begin.served = some (.write addr v id) := State.served_part (s := s.begin) hs hq
  show Host.Outcome.next (State.finish s s.begin.serveWrite) = _
  rw [State.serveWrite, served]
  rfl

theorem State.enterDirect_mem (s : State) : s.enterDirect.mem = s.mem := by
  suffices h : ∀ n (s : State), (State.enterDirectFor n s).mem = s.mem from h _ s
  intro n
  induction n with
  | zero => exact fun _ => rfl
  | succ n ih =>
    intro s
    unfold State.enterDirectFor
    split
    · split
      · rw [ih]
        rfl
      · rfl
    · rfl

/-- With no direct write, or no room for the oldest, none enters the queue. -/
theorem State.enterDirect_waits {s : State} (h : s.wb.direct = [] ∨ 32 < s.mport.queued + 8) : s.enterDirect = s := by
  rw [State.enterDirect]
  cases hd : s.wb.direct with
  | nil => rfl
  | cons h1 rest =>
    have full : ¬ s.mport.queued + 8 ≤ queueSize := not_le.mpr (h.resolve_left (by simp [hd]))
    rw [List.length_cons, State.enterDirectFor, hd]
    split
    · exact if_neg full
    · rfl

/-- The only direct write enters the queue when its eight words fit. -/
theorem State.enterDirect_one {s : State} {ws : Windows} {h : HeldImage} (hw : s.path.windows = some ws) (hd : s.wb.direct = [h])
    (hq : s.mport.queued + 8 ≤ 32) : s.enterDirect = s.moveDirect ws h [] := by
  rw [State.enterDirect, hd, List.length_singleton, State.enterDirectFor, hw, hd]
  exact if_pos hq

/-- Settles O9. -/
theorem queuedWordIsStoredAndLeaves : Obligations.QueuedWordIsStoredAndLeaves := by
  intro s addr v id rest wf hs hq
  have rest_of : (s.begin.wordStored addr v).mport.requests = rest := congrArg List.tail hq
  have queued : (s.begin.wordStored addr v).mport.queued = (rest.filter PartRequest.isWrite).length := by rw [MPort.queued, rest_of]
  have stored : (s.begin.wordStored addr v).enterDirect.mem = s.mem.writeWord addr v 15 := State.enterDirect_mem _
  refine ⟨_, exec_writeQueueWordWritten hs hq, fun k hk => ?_, fun b hb => ?_, fun waits => ?_, fun ws h hw hd fits => ?_⟩
  · rw [State.byteAt, State.finish_mem, stored, Memory.readByte_writeWord_lane wf addr v 15 k hk]
    exact if_pos (by interval_cases k <;> rfl)
  · rw [State.byteAt, State.finish_mem, stored, Memory.readByte_writeWord_other wf addr v 15 b hb]
    rfl
  · have stays : (s.begin.wordStored addr v).enterDirect = s.begin.wordStored addr v :=
      State.enterDirect_waits (by rw [queued]; exact waits)
    rw [stays, State.finish_direct, State.finish_content, State.finish_mem, ← rest_of]
    exact ⟨rfl, rfl⟩
  · have moved := State.enterDirect_one (s := s.begin.wordStored addr v) hw hd (by rw [queued]; exact fits)
    rw [moved, State.finish_direct, State.finish_content, State.finish_mem, ← rest_of]
    exact ⟨rfl, rfl⟩

/-! ## Layout reads (R175, R176) -/

/-- The layout words gathered after the read in service. -/
def State.layoutRead (s : State) (got : List Word) : State :=
  s.endService.setPath { s.path with layoutGot := got }

theorem exec_attachLayoutReadDone {s : State} {k : Nat} {rest : List PartRequest} (hs : s.mport.serving = some .part)
    (hq : s.mport.requests = .layout k :: rest) {got : List Word}
    (hg : got = s.path.layoutGot ++ [s.mem.readWord (s.anchor.base + 4 * (3 + k))]) :
    exec .attachLayoutReadDone s = .next (State.finish s
      (if got.length = layoutWords then (s.begin.layoutRead got).checkLayout else s.begin.layoutRead got)) := by
  have served : s.begin.served = some (.layout k) := State.served_part (s := s.begin) hs hq
  subst hg
  show Host.Outcome.next (State.finish s s.begin.serveLayout) = _
  rw [State.serveLayout, served]
  rfl

theorem State.raise_attachResult (s : State) :
    (s.raise .attachResult).notice.pending = s.notice.pending ||| 0x200#32 := by
  rw [State.raise_of (.inr rfl)]
  rfl

theorem State.attachFails_facts (s : State) (why : AttachReason) :
    (s.attachFails why).anchor = { s.anchor with attach := .detached, reason := why }
    ∧ (s.attachFails why).path = { s.path with layoutLock := false, layoutGot := [] }
    ∧ (s.attachFails why).mport = s.mport ∧ (s.attachFails why).notice.pending = s.notice.pending ||| 0x200#32
    ∧ (s.attachFails why).handling = s.handling ∧ (s.attachFails why).motion = s.motion := by
  simp [State.attachFails, State.raise_attachResult, State.setPath, State.setAnchor]

theorem State.attachSucceeds_facts (s : State) (ws : Windows) :
    (s.attachSucceeds ws).anchor = { s.anchor with attach := .attached, reason := .none }
    ∧ (s.attachSucceeds ws).path = { s.path with windows := some ws, layoutGot := [] }
    ∧ (s.attachSucceeds ws).mport.requests = s.mport.requests ++ (List.range 64).map .classTable
    ∧ (s.attachSucceeds ws).lots = .both .reset
    ∧ (s.attachSucceeds ws).handling = { s.handling with
        state := .inventory, tag := s.handling.tag + 1, robot := some ⟨s.handling.tag, .inventory, ⟨s.clock, 30000⟩⟩, homingDue := true }
    ∧ (s.attachSucceeds ws).out = s.out ++ [.robot s.handling.tag .inventory]
    ∧ (s.attachSucceeds ws).notice.pending = s.notice.pending ||| 0x200#32 ∧ (s.attachSucceeds ws).motion = s.motion := by
  simp [State.attachSucceeds, State.raise_attachResult, State.setPath, State.setAnchor, State.sendInventory, State.sendRobot,
    State.takeHandlerTag, State.emit, State.setHandling, State.askAll, State.holdHeader, State.setVersion, State.writeWhole, Timer.at,
    robotTimeout, classTableWords]

theorem State.checkLayout_fails {s : State} {why : AttachReason}
    (h : layoutCheck s.anchor.base (windowsOf s.path.layoutGot) (memoryTopOf s.path.layoutGot) = some why) :
    s.checkLayout = s.attachFails why := by
  simp only [State.checkLayout, h]

theorem State.checkLayout_passes {s : State}
    (h : layoutCheck s.anchor.base (windowsOf s.path.layoutGot) (memoryTopOf s.path.layoutGot) = none) :
    s.checkLayout = s.attachSucceeds (windowsOf s.path.layoutGot) := by
  simp only [State.checkLayout, h]

/-- Settles O18. -/
theorem layoutReadsEndInAttachOrItsReason : Obligations.LayoutReadsEndInAttachOrItsReason := by
  intro s k rest got hs hq hg
  have ran := exec_attachLayoutReadDone hs hq hg
  have left : (s.begin.layoutRead got).mport.requests = rest := congrArg List.tail hq
  refine ⟨fun hl => ⟨_, ran, ?_⟩, fun hl why hc => ⟨_, ran, ?_⟩, fun hl hc => ⟨_, ran, ?_⟩⟩
  · rw [if_neg (show ¬ got.length = layoutWords from Nat.ne_of_lt hl), State.finish_content, ← left]
    rfl
  · obtain ⟨anchor, path, mport, notice, handling, motion⟩ := (s.begin.layoutRead got).attachFails_facts why
    rw [if_pos (show got.length = layoutWords from hl), State.checkLayout_fails hc]
    simp only [State.finish_anchor, State.finish_path, State.finish_notice, State.finish_handling, State.finish_motion,
      State.finish_requests]
    rw [anchor, path, mport, notice, handling, motion]
    exact ⟨rfl, rfl, rfl, rfl, left, rfl, rfl, rfl⟩
  · obtain ⟨anchor, path, requests, lots, handling, out, notice, motion⟩ := (s.begin.layoutRead got).attachSucceeds_facts (windowsOf got)
    rw [if_pos (show got.length = layoutWords from hl), State.checkLayout_passes (s := s.begin.layoutRead got) hc]
    simp only [State.finish_anchor, State.finish_path, State.finish_notice, State.finish_handling, State.finish_motion, State.lot,
      State.finish_requests, State.finish_out, State.finish_lots]
    rw [show (s.begin.layoutRead got).path.layoutGot = got from rfl, anchor, path, requests, lots, handling, out, notice, motion, left]
    refine ⟨rfl, rfl, rfl, rfl, rfl, rfl, rfl, rfl, rfl, fun j => ?_, rfl, rfl⟩
    cases j <;> rfl

end Sys2Proof.Machine
end

section
/-! SUPPORT. Writes to defect entries, wafer entries and the class table: O40, O42, O46, O47. -/

namespace Sys2Proof.Machine

/-! ## Writes to the control word (R120 to R122, R133) -/

/-- A full write to the control word of an entry whose lot record is not locked. -/
theorem exec_control {s : State} {k : Slot} {i : Nat} (h : s.ReadyFor (.defectEntry k i)) (hl : s.path.closedLock.get k = false)
    {c : Instr} {v : Word} (hc : s.accessOf c = some (s.recordWrite (.defectEntry k i) 6 v 15)) :
    exec c s = .next (State.finish s (s.begin.judgeControl (s.recordWrite (.defectEntry k i) 6 v 15) k i none)) := by
  have unlocked : ¬ s.begin.path.closedLock.get k = true := Bool.not_eq_true _ ▸ hl
  rw [exec_defectEntry h (by decide) hc, State.judgeDefect, if_neg (by decide), if_neg unlocked, if_pos rfl]

theorem exec_post {s : State} {k : Slot} {i : Nat} (h : s.ReadyFor (.defectEntry k i)) (hl : s.path.closedLock.get k = false) :
    exec (.post k i 15) s = .next (State.finish s (s.begin.judgePost (s.recordWrite (.defectEntry k i) 6 codePost 15) k i none)) := by
  rw [exec_control h hl rfl, State.recordWrite, writeAccess, State.judgeControl_full (s := s.begin) _ _ _ _ _ h.attached, if_pos rfl]

theorem exec_withdraw {s : State} {k : Slot} {i : Nat} (h : s.ReadyFor (.defectEntry k i)) (hl : s.path.closedLock.get k = false) :
    exec (.withdraw k i 15) s = .next (State.finish s
      ((s.begin.withdraw k i).passCaptured (s.recordWrite (.defectEntry k i) 6 codeWithdraw 15) k i 6)) := by
  rw [exec_control h hl rfl, State.recordWrite, writeAccess, State.judgeControl_full (s := s.begin) _ _ _ _ _ h.attached,
    if_neg (by decide), if_pos rfl]

theorem State.judgePost_live {s : State} {k : Slot} {i : Nat} (h : s.entryLive k i = true) (a : PAccess) (known : Option Word) :
    s.judgePost a k i known = (s.countIgnored k i).passCaptured a k i 6 := if_pos h

theorem State.judgePost_full {s : State} {k : Slot} {i : Nat} (h : s.entryLive k i = false) (hp : 16 ≤ s.revisit.posting.length)
    (a : PAccess) (known : Option Word) : s.judgePost a k i known = s.hold a .postRoom := by
  rw [State.judgePost, if_neg (by simp [h]), if_pos (show postingSize ≤ _ from hp)]

theorem State.judgePost_unknown {s : State} {k : Slot} {i : Nat} (h : s.entryLive k i = false) (hp : s.revisit.posting.length < 16)
    (hv : s.oldVersion k i = none) (a : PAccess) :
    s.judgePost a k i none = (s.ask (.postVersion k i)).hold a .postVersion := by
  rw [State.judgePost, if_neg (by simp [h]), if_neg (show ¬ postingSize ≤ _ from not_le.mpr hp), hv]
  rfl

/-- Settles O40. -/
theorem postNotTakenIsCountedOrHeld : Obligations.PostNotTakenIsCountedOrHeld := by
  refine fun s k i h hl => ⟨fun hlive => ⟨_, exec_post h hl, ?_⟩, fun hlive hp => ⟨_, exec_post h hl, ?_⟩,
    fun hlive hp hv => ⟨_, exec_post h hl, ?_⟩⟩
  · rw [State.judgePost_live (s := s.begin) hlive, State.finish_content]
    rfl
  · rw [State.judgePost_full (s := s.begin) hlive hp, State.finish_content]
    rfl
  · rw [State.judgePost_unknown (s := s.begin) hlive hp hv, State.finish_content]
    rfl

theorem State.row_congr {s t : State} (h : t.reports = s.reports) (w : WaferName) : t.row w = s.row w := by
  rw [State.row, State.row, State.report, State.report, h]

theorem State.countOutcome_eq (s : State) (w : WaferName) (o : Outcome) :
    s.countOutcome w o = s.enter w fun r => { r with outcomes := r.outcomes.inc o } := rfl

/-- An ended entry's OPEN row counts its outcome (R128). -/
theorem State.finishEntry_eq (s : State) (e : Entry) {st : EntryState} {o : Outcome} (ho : st.outcome = some o) (why : EntryReason) :
    s.finishEntry e st why = (s.modEntry e.slot e.index fun x => { x with state := st, reason := why }).enter e.wafer
      fun r => { r with outcomes := r.outcomes.inc o } := by
  rw [State.finishEntry, ho]
  rfl

theorem State.row_enter_opened {s : State} {w : WaferName} {r : Row} (hr : s.row w = some r) (ho : r.state = .opened) (f : Row → Row) :
    (s.enter w f).row w = some (f r) := by
  rw [State.row_enter, if_pos rfl, hr]
  exact congrArg some (if_pos ho)

theorem State.row_enter_other {s : State} {w u : WaferName} (h : u ≠ w) (f : Row → Row) : (s.enter w f).row u = s.row u := by
  rw [State.row_enter, if_neg h]

/-- Settles O42: by the state of the entry's record. -/
theorem withdrawEndsAQueuedEntry : Obligations.WithdrawEndsAQueuedEntry := by
  refine fun s k i h hl => ⟨fun e r he hq hr ho => ⟨_, exec_withdraw h hl, ?_⟩, fun e he hq => ⟨_, exec_withdraw h hl, ?_⟩,
    fun he => ⟨_, exec_withdraw h hl, ?_⟩⟩
  · obtain ⟨rfl, rfl⟩ := State.entry_is he
    have ended : s.begin.withdraw e.slot e.index = (s.begin.modEntry e.slot e.index fun x => { x with state := .withdrawn, reason := .none }).enter
        e.wafer fun r => { r with outcomes := r.outcomes.inc .withdrawn } := by
      rw [← State.finishEntry_eq _ _ rfl, State.withdraw, State.begin_entry, he]
      exact if_pos hq
    rw [ended]
    refine ⟨?_, ?_, fun u hu => ?_, ?_⟩
    · rw [State.finish_entry]
      exact (State.entry_modEntry (f := fun x => { x with state := .withdrawn, reason := .none }) s e.slot e.index
        fun _ => ⟨rfl, rfl⟩).trans (congrArg _ he)
    · rw [State.finish_row]
      exact State.row_enter_opened (s := s.begin.modEntry _ _ _) hr ho _
    · rw [State.finish_row]
      exact State.row_enter_other (s := s.begin.modEntry _ _ _) hu _
    · rw [State.finish_reports, State.finish_content]
      rfl
  · have counted : s.begin.withdraw k i = s.begin.countIgnored k i := by
      rw [State.withdraw, State.begin_entry, he]
      exact if_neg hq
    rw [counted, State.finish_content]
    rfl
  · have nothing : s.begin.withdraw k i = s.begin := by rw [State.withdraw, State.begin_entry, he]
    rw [nothing, State.finish_content]
    rfl

/-! ## The class table (R164) -/

/-- The class table with byte `j` changed, if `b`. -/
def ClassTable.changed (t : ClassTable) (b : Bool) (j : Nat) (f : ClassByte → ClassByte) : ClassTable :=
  if b = true then { t with bytes := t.bytes.modify j f } else t

theorem ClassTable.changed_byte (t : ClassTable) (b : Bool) (j c : Nat) (f : ClassByte → ClassByte) :
    (t.changed b j f).bytes[c]? = if b = true ∧ j = c then t.bytes[c]?.map f else t.bytes[c]? := by
  cases b
  · simp [ClassTable.changed]
  · simp only [ClassTable.changed, if_true, List.getElem?_modify, true_and]
    split <;> cases t.bytes[c]? <;> rfl

theorem ClassTable.changed_valid (t : ClassTable) (b : Bool) (j : Nat) (f : ClassByte → ClassByte) : (t.changed b j f).valid = t.valid := by
  cases b <;> rfl

/-- The four bytes of word `w` changed, lane by lane. -/
def ClassTable.changedWord (t : ClassTable) (w : Nat) (b : Nat → Bool) (f : Nat → ClassByte → ClassByte) : ClassTable :=
  (((t.changed (b 0) (4 * w + 0) (f 0)).changed (b 1) (4 * w + 1) (f 1)).changed (b 2) (4 * w + 2) (f 2)).changed (b 3) (4 * w + 3) (f 3)

theorem ClassTable.changedWord_valid (t : ClassTable) (w : Nat) (b : Nat → Bool) (f : Nat → ClassByte → ClassByte) :
    (t.changedWord w b f).valid = t.valid := by
  simp only [ClassTable.changedWord, ClassTable.changed_valid]

theorem ClassTable.changedWord_byte (t : ClassTable) (w : Nat) (b : Nat → Bool) (f : Nat → ClassByte → ClassByte) {c : Nat} {x : ClassByte}
    (hx : t.bytes[c]? = some x) : (t.changedWord w b f).bytes[c]? = some (if c / 4 = w ∧ b (c % 4) = true then f (c % 4) x else x) := by
  simp only [ClassTable.changedWord, ClassTable.changed_byte, hx, Option.map_some]
  by_cases hw : c / 4 = w
  · obtain ⟨k, hk, rfl⟩ : ∃ k, k < 4 ∧ c = 4 * w + k := ⟨c % 4, by omega, by omega⟩
    rw [show (4 * w + k) % 4 = k by omega]
    interval_cases k
    · cases b 0 <;> simp
    · cases b 1 <;> simp [show (4 * w + 1) / 4 = w by omega]
    · cases b 2 <;> simp [show (4 * w + 2) / 4 = w by omega]
    · cases b 3 <;> simp [show (4 * w + 3) / 4 = w by omega]
  · have other (k : Nat) (hk : k < 4) : ¬ 4 * w + k = c := by omega
    rw [if_neg fun h => other 3 (by decide) h.2, if_neg fun h => other 2 (by decide) h.2, if_neg fun h => other 1 (by decide) h.2,
      if_neg fun h => other 0 (by decide) h.2, if_neg fun h => hw h.1]

/-- A captured word gives its enabled lanes' bytes the written values and marks them filled. -/
theorem ClassTable.capture_byte (t : ClassTable) (w : Nat) (data : Word) (be : Enables) {c : Nat} {x : ClassByte}
    (hx : t.bytes[c]? = some x) : (t.capture w data be).bytes[c]?
      = some (if c / 4 = w ∧ be.getLsbD (c % 4) = true then ⟨lane (c % 4) data, true⟩ else x) :=
  t.changedWord_byte w be.getLsbD (fun k _ => ⟨lane k data, true⟩) hx

theorem ClassTable.capture_valid (t : ClassTable) (w : Nat) (data : Word) (be : Enables) : (t.capture w data be).valid = t.valid :=
  t.changedWord_valid w be.getLsbD fun k _ => ⟨lane k data, true⟩

/-- A fetched word gives its bytes not yet filled the fetched values. -/
theorem ClassTable.fetched_byte (t : ClassTable) (w : Nat) (data : Word) {c : Nat} {x : ClassByte} (hx : t.bytes[c]? = some x) :
    (t.fetched w data).bytes[c]? = some (if c / 4 = w ∧ x.filled = false then ⟨lane (c % 4) data, false⟩ else x) := by
  refine (t.changedWord_byte w (fun _ => true) (fun k b => if b.filled then b else ⟨lane k data, b.filled⟩) hx).trans ?_
  by_cases hw : c / 4 = w <;> cases x.filled <;> simp [hw]

theorem ClassTable.fetched_valid (t : ClassTable) (w : Nat) (data : Word) : (t.fetched w data).valid = t.valid :=
  t.changedWord_valid w (fun _ => true) fun k b => if b.filled then b else ⟨lane k data, b.filled⟩

/-- The class table after its word `w` has been fetched; valid at the last word. -/
def ClassTable.withFetched (t : ClassTable) (w : Nat) (data : Word) : ClassTable :=
  { t.fetched w data with valid := (t.fetched w data).valid || decide (w + 1 = classTableWords) }

theorem exec_classTableFetchReadDone {s : State} {ws : Windows} {w : Nat} {rest : List PartRequest} (hws : s.path.windows = some ws)
    (hs : s.mport.serving = some .part) (hq : s.mport.requests = .classTable w :: rest) :
    exec .classTableFetchReadDone s = .next (State.finish s
      { s.begin.endService with classTable := s.classTable.withFetched w (s.mem.readWord (ws.classBase + 4 * w)) }) := by
  have served : s.begin.served = some (.classTable w) := State.served_part (s := s.begin) hs hq
  have windows : s.begin.path.windows = some ws := hws
  show Host.Outcome.next (State.finish s s.begin.serveClassTable) = _
  rw [State.serveClassTable, served, windows]
  rfl

/-- Settles O46. -/
theorem classTableTakesWritesOverFetches : Obligations.ClassTableTakesWritesOverFetches := by
  intro s w hw hlen
  have byte (c : Nat) (hc : c < 256) : ∃ x, s.classTable.bytes[c]? = some x := ⟨_, List.getElem?_eq_getElem (hlen ▸ hc)⟩
  refine ⟨fun v be hf ha hat => ?_, fun ws rest hws hs hq => ?_⟩
  · have judged : s.begin.judgeWrite (s.classTableWrite w v be) none
        = { s.begin with classTable := s.classTable.capture w v be }.pass (s.classTableWrite w v be) := by
      rw [State.judgeWrite, State.begin_wordAt, hat]
      exact if_pos (decide_eq_true ha)
    refine ⟨_, exec_access_free rfl hf, ?_⟩
    rw [judged, State.finish_classTable, State.finish_content]
    refine ⟨fun c hc => ?_, s.classTable.capture_valid w v be, rfl⟩
    obtain ⟨x, hx⟩ := byte c hc
    rw [hx]
    exact (s.classTable.capture_byte w v be hx).trans (apply_ite some _ _ _)
  · have left : s.begin.endService.mport.requests = rest := congrArg List.tail hq
    refine ⟨_, exec_classTableFetchReadDone hws hs hq, ?_⟩
    rw [State.finish_classTable, State.finish_content, ← left]
    refine ⟨fun c hc b hb => s.classTable.fetched_byte w _ hb, ?_, rfl⟩
    have last : (w + 1 = classTableWords) ↔ w = 63 := Nat.succ_inj
    exact congrArg₂ or (s.classTable.fetched_valid w _) (decide_eq_decide.mpr last)

/-! ## Captured HOST words (R124, R186) -/

/-- The line of an entry after a write to one of its HOST words. -/
def writtenLine (c : List CaptureLine) (k : Slot) (i w : Nat) (data : Word) (be : Enables) : CaptureLine :=
  let line := (captureLine c k i).getD (CaptureLine.fresh k i)
  { line with words := line.words.modify w fun x => x.write data be }

theorem captureWrite_eq (c : List CaptureLine) (k : Slot) (i w : Nat) (data : Word) (be : Enables) : captureWrite c k i w data be
    = (if (dropLine c k i).length < 16 then dropLine c k i else (dropLine c k i).drop 1) ++ [writtenLine c k i w data be] := rfl

/-- The line found for an entry, or a fresh one, carries the entry's name. -/
theorem captureLine_name (c : List CaptureLine) (k : Slot) (i : Nat) :
    ((captureLine c k i).getD (CaptureLine.fresh k i)).slot = k ∧ ((captureLine c k i).getD (CaptureLine.fresh k i)).index = i := by
  cases h : captureLine c k i with
  | none => exact ⟨rfl, rfl⟩
  | some l =>
    have is := List.find?_some h
    rw [CaptureLine.is, Bool.and_eq_true, beq_iff_eq, beq_iff_eq] at is
    exact is

theorem State.countChanged_eq (s : State) (k : Slot) (i : Nat) : s.countChanged k i
    = if s.entryLive k i then s.modLot k fun l => { l with changed := satInc 65535 l.changed } else s := by
  unfold State.countChanged State.entryLive
  cases s.entry k i <;> rfl

theorem exec_defectHostWrite {s : State} {k : Slot} {i : Nat} (h : s.ReadyFor (.defectEntry k i)) (hl : s.path.closedLock.get k = false)
    {w : Nat} (hw : w ∈ [0, 1, 2, 3, 4, 7]) (v : Word) (be : Enables) : exec (.defectHostWrite k i w v be) s = .next (State.finish s
      ((s.begin.countChanged k i).passCaptured (s.recordWrite (.defectEntry k i) w v be) k i w)) := by
  have unlocked : ¬ s.begin.path.closedLock.get k = true := Bool.not_eq_true _ ▸ hl
  have attached : s.begin.isAttached = true := decide_eq_true h.attached
  have offset : w ≠ 5 ∧ w ≠ 6 ∧ w ≤ 7 := by
    simp only [List.mem_cons, List.not_mem_nil, or_false] at hw
    omega
  have inside : w < 16 := by omega
  rw [exec_defectEntry h inside rfl, State.judgeDefect, if_neg offset.1, if_neg unlocked, if_neg offset.2.1, if_pos offset.2.2,
    if_pos attached]

/-- Settles O47. -/
theorem hostWritesAreCaptured : Obligations.HostWritesAreCaptured := by
  rintro s k i w v be _ h hl hw rfl
  obtain ⟨slot, index⟩ := captureLine_name s.path.capture k i
  have captured : ((s.begin.countChanged k i).passCaptured (s.recordWrite (.defectEntry k i) w v be) k i w).path.capture
      = captureWrite s.path.capture k i w v be := by
    rw [State.countChanged_eq]
    split <;> rfl
  refine ⟨_, writtenLine s.path.capture k i w v be, exec_defectHostWrite h hl hw v be, ?_, slot, index, ?_, ?_, ?_⟩
  · rw [State.finish_path, captured]
    rfl
  · rintro old rfl
    simp only [writtenLine, List.getElem?_modify]
    refine ⟨fun j hj => ?_, fun x hx => ⟨x.write v be, ?_, rfl, fun j hj => lane_mergeLanes be x.value v hj⟩⟩
    · simp [Ne.symm hj]
    · simp [hx]
  · rw [State.finish_path, captured]
    exact captureWrite_length _ _ _ _ _ _
  · rw [State.finish_path, State.finish_content, captured, State.countChanged_eq, show s.begin.entryLive k i = s.entryLive k i from rfl]
    cases s.entryLive k i <;> rfl

/-! ## Class writes (R165 to R167, R170) -/

theorem exec_classWrite {s : State} {k : Slot} {i : Nat} (h : s.ReadyFor (.defectEntry k i)) (v : Word) (be : Enables) :
    exec (.classWrite k i v be) s = .next (State.finish s (s.begin.judgeClass (s.recordWrite (.defectEntry k i) 5 v be) k i)) := by
  rw [exec_defectEntry h (by decide) rfl, State.judgeDefect, if_pos rfl]

/-- A class write under the lock of the lot record or of the index is masked, and counted late. -/
theorem State.judgeClass_locked {s : State} {k : Slot} {i : Nat} (h : s.path.closedLock.get k = true ∨ (s.classLocked k i).isSome)
    (a : PAccess) : s.judgeClass a k i = (s.lateClass a k i).mask a := if_pos (by simpa using h)

/-- The class word is under neither lock, and the part is attached. -/
structure State.ClassOpen (s : State) (k : Slot) (i : Nat) : Prop where
  record : s.path.closedLock.get k = false
  index : s.classLocked k i = none
  attached : s.isAttached = true

theorem State.ClassOpen.counted {s : State} {k : Slot} {i : Nat} (h : s.ClassOpen k i) {a : PAccess} (hb : a.be.getLsbD 0 = true) {e : Entry}
    (he : s.storeEntry k i = some e) (hs : e.state = .reviewed) (ho : e.rowClosed = false) (hv : s.classTable.valid = true) :
    s.judgeClass a k i = (s.countClass e (lane 0 a.data)).passCaptured a k i 5 := by
  simp [State.judgeClass, h.record, h.index, h.attached, hb, he, hs, hv, Entry.counts, ho]

theorem State.ClassOpen.unready {s : State} {k : Slot} {i : Nat} (h : s.ClassOpen k i) {a : PAccess} (hb : a.be.getLsbD 0 = true) {e : Entry}
    (he : s.storeEntry k i = some e) (hs : e.state = .reviewed) (hv : s.classTable.valid = false) :
    s.judgeClass a k i = s.hold a .classTable := by
  simp [State.judgeClass, h.record, h.index, h.attached, hb, he, hs, hv]

theorem State.ClassOpen.captured {s : State} {k : Slot} {i : Nat} (h : s.ClassOpen k i) {a : PAccess}
    (hn : a.be.getLsbD 0 = false ∨ ∀ e, s.storeEntry k i = some e → e.state ≠ .reviewed ∨ (e.rowClosed = true ∧ s.classTable.valid = true)) :
    s.judgeClass a k i = s.passCaptured a k i 5 := by
  cases hb : a.be.getLsbD 0 with
  | false => rw [State.judgeClass, if_neg (by simp [h.record, h.index]), if_neg (by simp [h.attached]), if_pos hb]
  | true =>
    have hn := hn.resolve_left (by simp [hb])
    cases he : s.storeEntry k i with
    | none => simp [State.judgeClass, h.record, h.index, h.attached, he]
    | some e =>
      rcases hn e he with hs | ⟨hc, hv⟩
      · simp [State.judgeClass, h.record, h.index, h.attached, he, hs, Entry.counts]
      · simp [State.judgeClass, h.record, h.index, h.attached, he, hv, hc, Entry.counts]

/-- The bins after an entry's counted class is exchanged for the class of code `c` (R166). -/
def State.recount (s : State) (bin : Option Nat) (c : Byte) (bins : List Nat) : List Nat :=
  let given := match bin with
    | some b => bins.modify b (· - 1)
    | none => bins
  if c = 0 then given else given.modify (s.binOf c) (· + 1)

theorem State.countClass_eq (s : State) (e : Entry) (c : Byte) : s.countClass e c =
    (s.modRow e.wafer fun r => { r with bins := s.recount e.bin c r.bins }).modEntry e.slot e.index
      fun x => { x with bin := if c = 0 then none else some (s.binOf c) } := by
  unfold State.countClass State.recount
  by_cases h : c = 0 <;> cases e.bin <;> simp only [h, if_true, if_false] <;> rfl

theorem State.lateClass_eq (s : State) (a : PAccess) (k : Slot) (i : Nat) :
    s.lateClass a k i = { s with reports := (s.lateClass a k i).reports } := by
  unfold State.lateClass State.countLate
  split
  · split <;> rfl
  · rfl

theorem State.countMasked_setReports (s : State) (r : Two Report) :
    ({ s with reports := r } : State).countMasked = { s.countMasked with reports := r } := by
  unfold State.countMasked State.raise
  split <;> rfl

theorem State.lateClass_row {s : State} {a : PAccess} {k : Slot} {i : Nat} {l : ClassLocked} (ha : s.isAttached = true)
    (hl : s.classLocked k i = some l) (u : WaferName) : (s.lateClass a k i).row u =
      if u = ⟨k, l.wafer⟩ ∧ a.be.getLsbD 0 = true then (s.row u).map fun r => { r with late := satInc 65535 r.late } else s.row u := by
  unfold State.lateClass State.countLate
  rw [hl, ha, Bool.true_and]
  cases a.be.getLsbD 0
  · simp
  · simp [State.row_modRow]

theorem State.lateClass_reports {s : State} {a : PAccess} {k : Slot} {i : Nat} (h : s.classLocked k i = none ∨ a.be.getLsbD 0 = false) :
    (s.lateClass a k i).reports = s.reports := by
  unfold State.lateClass State.countLate
  rcases h with h | h
  · rw [h]
    split <;> rfl
  · rw [h, Bool.and_false]
    rfl

/-- A masked class write: what it counts late is all that it changes besides its mask. -/
theorem State.begin_lateClass_mask (s : State) (a : PAccess) (k : Slot) (i : Nat) :
    ((s.begin.lateClass a k i).mask a).reports = (s.begin.lateClass a k i).reports
    ∧ ((s.begin.lateClass a k i).mask a).content = ({ s.countMasked with
        out := [], reports := (s.begin.lateClass a k i).reports, path := { s.path with slot := .waiting a.withheld } } : State).content := by
  have late := s.begin.lateClass_eq a k i
  generalize (s.begin.lateClass a k i).reports = r at late ⊢
  have masked : (s.begin.lateClass a k i).mask a = ({ s.countMasked.begin with reports := r } : State).setSlot (.waiting a.withheld) := by
    rw [late, State.mask, State.countMasked_setReports, State.begin_countMasked]
    rfl
  have path : s.countMasked.path = s.path := State.raise_path ..
  rw [masked, ← path]
  exact ⟨rfl, rfl⟩

/-- Settles O45: by the locks, the entry's record and the class table. -/
theorem classWritesAreCountedOnce : Obligations.ClassWritesAreCountedOnce := by
  rintro s k i v be _ h rfl
  have ran := exec_classWrite h v be
  have attached : s.begin.isAttached = true := decide_eq_true h.attached
  refine ⟨fun e r hl hc hb he hs ho hv hr => ⟨_, _, ran, rfl, ?_⟩, fun locked => ⟨_, ran, ?_⟩,
    fun e hl hc hb he hs hv => ⟨_, ran, ?_⟩, fun hl hc hn => ⟨_, ran, ?_⟩⟩
  · obtain ⟨rfl, rfl⟩ := State.storeEntry_is he
    have free : s.begin.ClassOpen e.slot e.index := ⟨hl, hc, attached⟩
    rw [free.counted hb he hs ho hv, State.countClass_eq, State.finish_reports, State.finish_content]
    simp only [State.finish_row]
    refine ⟨?_, fun u hu => ?_, rfl⟩
    · exact (State.row_modRow s e.wafer e.wafer _).trans (by rw [if_pos rfl, hr]; rfl)
    · exact (State.row_modRow s e.wafer u _).trans (if_neg hu)
  · rw [State.judgeClass_locked (s := s.begin) locked]
    obtain ⟨reports, content⟩ := s.begin_lateClass_mask (s.recordWrite (.defectEntry k i) 5 v be) k i
    have row (u : WaferName) := State.row_congr reports u
    simp only [State.finish_row, State.finish_reports, State.finish_content, row, content, reports]
    refine ⟨fun l r hc hr hb => ?_, fun l u hc hu => ?_, fun hn => ?_, trivial⟩
    · exact (State.lateClass_row (s := s.begin) attached hc _).trans (by rw [if_pos ⟨rfl, hb⟩, State.begin_row, hr]; rfl)
    · exact (State.lateClass_row (s := s.begin) attached hc _).trans (if_neg fun h => hu h.1)
    · exact State.lateClass_reports (s := s.begin) hn
  · rw [State.ClassOpen.unready (s := s.begin) ⟨hl, hc, attached⟩ hb he hs hv, State.finish_content]
    rfl
  · rw [State.ClassOpen.captured (s := s.begin) ⟨hl, hc, attached⟩ hn, State.finish_content]
    rfl

/-! ## A waiting review's end beside an alignment under way (R134) -/

/-- Two lot records, two defect tables, two reports and a class table that R175 accepts. -/
def spread : Windows := ⟨⟨0x1000, 0x2000⟩, ⟨0x10000, 0x50000⟩, ⟨0x4000, 0x6000⟩, 0x8000, ⟨4096, 1⟩⟩

def attachedIdle : State := { State.reset with
  anchor := { Anchor.reset 0 with attach := .attached }
  path := { Path.reset with windows := some spread } }

theorem attachedIdle_laid : attachedIdle.Laid spread := ⟨⟨0, rfl⟩, rfl, 0x50040, by decide⟩

/-- A review that waits for posts while the alignment of its wafer is MEASURING and its XY request waits: no run reaches it, since an
alignment under way has its review ALIGNING. -/
def waitingWhileMeasuring : State := { attachedIdle with
  lots := ⟨{ Lot.reset with
    state := .running, recipe := some Recipe.blank, wafers := [{ Wafer.fresh true false with state := .onStage }] }, .reset⟩
  revisit := { Revisit.reset with wafer := some ⟨.zero, 1⟩, review := .waiting }
  align := { Align.reset with wafer := some ⟨.zero, 1⟩, state := .measuring, phase := .move, xyReq := some ⟨0, false⟩ }
  motion := { Motion.reset with
    x := ⟨.moving, true, 0, 1⟩
    y := ⟨.moving, true, 0, 1⟩
    xyGroup := ⟨none, none, some ⟨.xy 1 1, false, [⟨.alignment, 0⟩]⟩⟩ } }

theorem waitingWhileMeasuring_ready : waitingWhileMeasuring.ReadyFor (.waferEntry .zero 1) :=
  ⟨rfl, ⟨rfl, rfl⟩, attachedIdle_laid.watches ⟨by decide, by decide⟩⟩

/-- The pending result of slot 0's wafer 1 after an outcome. -/
def pendingAfter : Host.Outcome State Fault Refusal → Option (Option FinalResult)
  | .next t => (t.wafer ⟨.zero, 1⟩).map (·.pendingResult)
  | _ => none

/-- The load position's request takes the alignment's waiting request's place, and its refusal fails the alignment. -/
theorem postingClose_failsAlignment :
    pendingAfter (exec (.postingClose .zero 1 15) waitingWhileMeasuring) = some (some .alignFailed) := by decide +kernel

/-- Refutes O43: the pending result is ALIGN_FAILED, not REVIEWED, when the end of the review fails an alignment of its wafer. -/
theorem not_postingCloseEndsAWaitingReview : ¬ Obligations.PostingCloseEndsAWaitingReview := by
  intro h
  obtain ⟨_, ended⟩ := (h _ _ _ waitingWhileMeasuring_ready).1 rfl rfl
  obtain ⟨t, ran, _, _, _, _, wafer, _⟩ := ended rfl rfl
  obtain ⟨y, hy, _, reviewed, _⟩ := wafer _ rfl
  have failed := postingClose_failsAlignment
  rw [ran] at failed
  simp [pendingAfter, hy, reviewed] at failed

/-! ## Closing a row (R136, R168, R169) -/

theorem exec_rowClose_locked {s : State} {k : Slot} {n : Nat} (h : s.ReadyFor (.waferEntry k n)) (hl : s.path.closedLock.get k = true) :
    exec (.rowClose k n 15) s = .next (State.finish s (s.begin.mask (s.recordWrite (.waferEntry k n) 2 codeClose 15))) := by
  rw [exec_waferEntry h (by decide) rfl, State.judgeWaferEntry, if_pos (show s.begin.path.closedLock.get k = true from hl)]

theorem exec_rowClose {s : State} {k : Slot} {n : Nat} (h : s.ReadyFor (.waferEntry k n)) (hl : s.path.closedLock.get k = false) :
    exec (.rowClose k n 15) s = .next (State.finish s
      (s.begin.rowCloseRequest (s.recordWrite (.waferEntry k n) 2 codeClose 15) ⟨k, n⟩)) := by
  have unlocked : ¬ s.begin.path.closedLock.get k = true := Bool.not_eq_true _ ▸ hl
  have attached : s.begin.isAttached = true := decide_eq_true h.attached
  have full : isFull (s.recordWrite (.waferEntry k n) 2 codeClose 15).be = true := rfl
  rw [exec_waferEntry h (by decide) rfl, State.judgeWaferEntry, if_neg unlocked, if_neg (by decide), if_neg (by decide), if_pos rfl,
    if_neg (not_not.mpr full), if_pos ⟨attached, rfl⟩]

theorem State.rowCloseRequest_closes {s : State} {w : WaferName} {st : WaferState} (hr : (s.report w.slot).state = .opened)
    (hc : s.rowClosed w = false) (hw : s.waferState w = some st) (hf : st.isFinal = true) (a : PAccess) :
    s.rowCloseRequest a w = (s.closeRow w).pass a := by
  simp [State.rowCloseRequest, hr, hc, hw, hf]

theorem State.rowCloseRequest_masked {s : State} {w : WaferName} (hr : (s.report w.slot).state = .opened) (hc : s.rowClosed w = false)
    (hw : ∀ st, s.waferState w = some st → st.isFinal = false) (a : PAccess) : s.rowCloseRequest a w = s.mask a := by
  cases h : s.waferState w with
  | none => simp [State.rowCloseRequest, hr, hc, h]
  | some st => simp [State.rowCloseRequest, hr, hc, h, hw st h]

theorem State.rowCloseRequest_passes {s : State} {w : WaferName} (h : (s.report w.slot).state = .none ∨ (s.report w.slot).state = .released
    ∨ ((s.report w.slot).state = .opened ∧ s.rowClosed w = true)) (a : PAccess) : s.rowCloseRequest a w = s.pass a := by
  rcases h with h | h | ⟨h, hc⟩
  · simp [State.rowCloseRequest, h]
  · simp [State.rowCloseRequest, h]
  · simp [State.rowCloseRequest, h, hc]

/-- The records of a wafer whose OPEN row closes. -/
def State.recordsOf (s : State) (w : WaferName) : List Entry := s.revisit.store.filter fun e => e.inOpenRowOf w

theorem State.closeRow_eq {s : State} {w : WaferName} (h : s.rowOpen w = true) : s.closeRow w =
    ((s.modRow w fun r => { r with state := .closed }).modReport w.slot fun r => { r with
      classLock := r.classLock ++ (((s.recordsOf w).filter fun e => !(r.classLock.any fun c => c.index == e.index)).map fun e =>
        ⟨e.index, w.n⟩) }).setRevisit { s.revisit with
      store := (s.revisit.store.filter fun e => !(e.inOpenRowOf w && s.clean e)).map fun e =>
        if e.inOpenRowOf w then { e with rowClosed := true } else e } := if_pos h

theorem State.row_modReport (s : State) (k : Slot) {f : Report → Report} (hf : ∀ r, (f r).rows = r.rows) (u : WaferName) :
    (s.modReport k f).row u = s.row u := by
  have rows : ((s.modReport k f).report u.slot).rows = (s.report u.slot).rows := by
    cases k <;> cases h : u.slot <;> simp [State.modReport, State.report, Two.get, Two.set, hf]
  rw [State.row, rows]
  rfl

theorem State.closeRow_row {s : State} {w : WaferName} (h : s.rowOpen w = true) (u : WaferName) :
    (s.closeRow w).row u = if u = w then (s.row u).map fun r => { r with state := .closed } else s.row u := by
  rw [← State.row_modRow, State.closeRow_eq h]
  exact (State.row_congr (State.setRevisit_reports ..) u).trans (State.row_modReport _ _ (by exact fun _ => rfl) u)

theorem State.closeRow_classLocked {s : State} {w : WaferName} (h : s.rowOpen w = true) (i : Nat) :
    (s.closeRow w).classLocked w.slot i = (s.classLocked w.slot i).or
      ((((s.recordsOf w).filter fun e => !((s.report w.slot).classLock.any fun c => c.index == e.index)).map fun e =>
        (⟨e.index, w.n⟩ : ClassLocked)).find? fun c => c.index == i) := by
  rw [State.closeRow_eq h]
  obtain ⟨k, n⟩ := w
  cases k <;> exact List.find?_append

/-- An index in the class lock keeps its guard, and those of the closed row's records are guarded (R169, R170). -/
theorem State.closeRow_guards {s : State} {w : WaferName} (h : s.rowOpen w = true) :
    (∀ e ∈ s.revisit.store, e.inOpenRowOf w = true → ((s.closeRow w).classLocked w.slot e.index).isSome)
    ∧ ∀ i, (s.classLocked w.slot i).isSome → (s.closeRow w).classLocked w.slot i = s.classLocked w.slot i := by
  refine ⟨fun e he hw => ?_, fun i hi => ?_⟩
  · rw [State.closeRow_classLocked h, Option.isSome_or, Bool.or_eq_true]
    by_cases hl : (s.report w.slot).classLock.any (fun c => c.index == e.index) = true
    · exact .inl (List.find?_isSome.mpr (List.any_eq_true.mp hl))
    · refine .inr (List.find?_isSome.mpr ⟨⟨e.index, w.n⟩, List.mem_map.mpr ⟨e, ?_, rfl⟩, beq_self_eq_true _⟩)
      exact List.mem_filter.mpr ⟨List.mem_filter.mpr ⟨he, hw⟩, by simpa using hl⟩
  · obtain ⟨l, hl⟩ := Option.isSome_iff_exists.mp hi
    rw [State.closeRow_classLocked h, hl]
    rfl

theorem Entry.inOpenRowOf_iff (e : Entry) (w : WaferName) : e.inOpenRowOf w = true ↔ e.wafer = w ∧ e.rowClosed = false := by
  simp [Entry.inOpenRowOf]

/-- A record of a row that has closed stays as it is. -/
theorem Entry.closed_again (e : Entry) (w : WaferName) : (if e.inOpenRowOf w then { e with rowClosed := true } else e)
    = if e.wafer = w then { e with rowClosed := true } else e := by
  by_cases hw : e.wafer = w
  · cases hc : e.rowClosed with
    | false => rw [if_pos ((e.inOpenRowOf_iff w).mpr ⟨hw, hc⟩), if_pos hw]
    | true =>
      rw [if_neg fun h => by simp [((e.inOpenRowOf_iff w).mp h).2] at hc, if_pos hw]
      cases e
      simp only at hc
      rw [hc]
  · rw [if_neg fun h => hw ((e.inOpenRowOf_iff w).mp h).1, if_neg hw]

@[simp] theorem State.finish_classLocked (s0 s : State) (k : Slot) (i : Nat) : (State.finish s0 s).classLocked k i = s.classLocked k i := by
  rw [State.classLocked, State.finish_report]
  rfl

/-- Settles O44. -/
theorem rowCloseClosesAFinalWafersRow : Obligations.RowCloseClosesAFinalWafersRow := by
  intro s k n h
  refine ⟨fun r st hl hrep hr ho hw hf => ⟨_, exec_rowClose h hl, ?_⟩, fun hl hrep hc hw => ⟨_, exec_rowClose h hl, ?_⟩,
    fun hl hrep => ⟨_, exec_rowClose h hl, ?_⟩, fun hl => ⟨_, exec_rowClose_locked h hl, ?_⟩, fun sound hc => ?_⟩
  · have row_open : s.begin.rowOpen ⟨k, n⟩ = true := by
      rw [State.rowOpen, State.begin_row, hr]
      exact decide_eq_true ho
    have not_closed : s.begin.rowClosed ⟨k, n⟩ = false := by
      rw [State.rowClosed, State.begin_row, hr]
      exact decide_eq_false (by simp [ho])
    obtain ⟨guards, kept⟩ := State.closeRow_guards row_open
    have row (u : WaferName) := State.closeRow_row row_open u
    rw [State.rowCloseRequest_closes (w := ⟨k, n⟩) (s := s.begin) hrep not_closed hw hf]
    have store : (s.begin.closeRow ⟨k, n⟩).revisit.store = ((s.revisit.store.filter fun e =>
        !(decide (e.wafer = ⟨k, n⟩) && !e.rowClosed && s.writtenBack e.id)).map fun e =>
          if e.wafer = ⟨k, n⟩ then { e with rowClosed := true } else e) := by
      have clean (e : Entry) : s.begin.clean e = s.writtenBack e.id := Bool.and_true _
      rw [State.closeRow_eq row_open, State.setRevisit_revisit, funext fun e => Entry.closed_again e ⟨k, n⟩]
      simp only [clean, Entry.inOpenRowOf]
      rfl
    simp only [State.finish_row, State.finish_revisit, State.finish_content, State.finish_reports,
      State.finish_classLocked]
    refine ⟨?_, fun u hu => ?_, fun e he hw hc => ?_, fun j hj => ?_, store, ?_⟩
    · exact (row _).trans (by rw [if_pos rfl, State.begin_row, hr]; rfl)
    · exact (row u).trans (if_neg hu)
    · exact guards e he ((e.inOpenRowOf_iff _).mpr ⟨hw, hc⟩)
    · exact kept j hj
    · rw [State.closeRow_eq row_open]
      rfl
  · rw [State.rowCloseRequest_masked (w := ⟨k, n⟩) (s := s.begin) hrep hc hw, State.finish_mask]
    rfl
  · rw [State.rowCloseRequest_passes (w := ⟨k, n⟩) (s := s.begin) hrep, State.finish_content]
    rfl
  · rw [State.finish_mask]
    rfl
  · rw [sound.path.lock h.attached k]
    exact decide_eq_true hc

end Sys2Proof.Machine
end

section
/-! SUPPORT. The motion link's answers and the settle timer: O48, O49, O50. -/

namespace Sys2Proof.Machine

/-! ## Answers to orders, settling and homing (R51, R54, R59) -/

theorem State.Awaits.orderWith {s : State} {g : MotionGroup} {o : MotionOrder} (h : s.Awaits g o) :
    s.motion.orderWith o.tag = some (g, o) := by
  obtain ⟨order, first⟩ := h
  cases g with
  | xy =>
    have order : s.motion.xyGroup.order = some o := order
    cases hz : s.motion.zGroup.order <;> simp [Motion.orderWith, order, hz]
  | z =>
    have order : s.motion.zGroup.order = some o := order
    cases hxy : s.motion.xyGroup.order with
    | none => simp [Motion.orderWith, order, hxy]
    | some p => simp [Motion.orderWith, order, hxy, first rfl p hxy]

theorem exec_arrived {s : State} {g : MotionGroup} {o : MotionOrder} (h : s.Awaits g o) {t : MoveTarget} (hk : o.kind = .move t) :
    exec (.arrived o.tag) s = .next (s.after (s.begin.arrive g o t)) := by
  have found : s.begin.motion.orderWith o.tag = some (g, o) := h.orderWith
  show Host.Outcome.next (State.finish s (s.begin.arrivedReply o.tag)) = _
  simp only [State.arrivedReply, found, hk]
  rfl

theorem exec_homed {s : State} {g : MotionGroup} {o : MotionOrder} (h : s.Awaits g o) (hk : o.kind = .home) :
    exec (.homed o.tag) s = .next (s.after (s.begin.homedGroup g)) := by
  have found : s.begin.motion.orderWith o.tag = some (g, o) := h.orderWith
  show Host.Outcome.next (State.finish s (s.begin.homedReply o.tag)) = _
  simp only [State.homedReply, found, hk]
  rfl

/-- An order arrived: the axes at its target, settling for its requesters (R51, R53). -/
def State.arriving (s : State) (g : MotionGroup) (o : MotionOrder) (t : MoveTarget) : State :=
  s.setMotion (((s.motion.setGroup g { s.motion.group g with
    order := none, settling := some ⟨.at s.clock s.settleTime, o.requesters⟩ }).enter g .settling).setPosition t)

theorem State.arrive_settles {s : State} (h : s.settleTime ≠ 0) (g : MotionGroup) (o : MotionOrder) (t : MoveTarget) :
    s.arrive g o t = s.arriving g o t := if_neg h

theorem State.arrive_settled {s : State} (h : s.settleTime = 0) (g : MotionGroup) (o : MotionOrder) (t : MoveTarget) :
    s.arrive g o t = (s.arriving g o t).settleExpires g o.requesters := if_pos h

theorem State.arriving_waiting (s : State) (g : MotionGroup) (o : MotionOrder) (t : MoveTarget) :
    ((s.arriving g o t).motion.group g).waiting = (s.motion.group g).waiting := by
  cases g <;> cases t <;> rfl

/-- A group settled: its requesters answered, and its waiting request still to be judged (R54). -/
def State.settledGroup (s : State) (g : MotionGroup) (rs : List Requester) : State :=
  let m := (s.motion.setGroup g { s.motion.group g with settling := none }).enter g .idle
  { s with
    motion := if g = .z then { m with epoch := m.epoch + 1 } else m
    scratch := { s.scratch with msgs := s.scratch.msgs ++ rs.map fun q => .settled q g } }

theorem State.settleExpires_eq (s : State) (g : MotionGroup) (rs : List Requester) :
    s.settleExpires g rs = (s.settledGroup g rs).judgeWaiting g := by
  cases g <;> rfl

theorem State.setGroup_group (s : State) (g : MotionGroup) : s.setGroup g (s.motion.group g) = s := by
  cases g <;> rfl

/-- A group without a waiting request stays as it is; written as `judgeWaiting_some` leaves it. -/
theorem State.judgeWaiting_none {s : State} {g : MotionGroup} (h : (s.motion.group g).waiting = none) :
    s.judgeWaiting g = s.setGroup g { s.motion.group g with waiting := none } := by
  simp only [State.judgeWaiting, h]
  rw [← h]
  exact (s.setGroup_group g).symm

theorem State.judgeWaiting_some {s : State} {g : MotionGroup} {w : WaitingMove} (h : (s.motion.group g).waiting = some w) :
    s.judgeWaiting g = (s.setGroup g { s.motion.group g with waiting := none }).judgeMove w.target w.requesters := by
  simp only [State.judgeWaiting, h]

theorem State.settledGroup_waiting (s : State) (g : MotionGroup) (rs : List Requester) :
    ((s.settledGroup g rs).motion.group g).waiting = (s.motion.group g).waiting := by
  cases g <;> rfl

/-- A settle expiry by the group's waiting request. -/
theorem State.settleExpires_none {s : State} {g : MotionGroup} (h : (s.motion.group g).waiting = none) (rs : List Requester) :
    s.settleExpires g rs = (s.settledGroup g rs).setGroup g { (s.settledGroup g rs).motion.group g with waiting := none } := by
  rw [State.settleExpires_eq, State.judgeWaiting_none ((s.settledGroup_waiting g rs).trans h)]

theorem State.settleExpires_some {s : State} {g : MotionGroup} {w : WaitingMove} (h : (s.motion.group g).waiting = some w)
    (rs : List Requester) : s.settleExpires g rs =
      ((s.settledGroup g rs).setGroup g { (s.settledGroup g rs).motion.group g with waiting := none }).judgeMove w.target w.requesters := by
  rw [State.settleExpires_eq, State.judgeWaiting_some ((s.settledGroup_waiting g rs).trans h)]

/-- A request judged, by its check (R52). -/
theorem State.judgeMove_eq (s : State) (t : MoveTarget) (rs : List Requester) : s.judgeMove t rs = match s.moveCheck t with
    | none => s.sendMove t rs
    | some why => s.sayAll (rs.map fun r => .refused r t.group why) := by
  unfold State.judgeMove
  cases s.moveCheck t <;> rfl

/-- Settles O48: by the group, the settle time and the waiting request. -/
theorem arrivedMoveSettles : Obligations.ArrivedMoveSettles := by
  intro s o
  refine ⟨fun x y h hk hs => ?_, fun z h hk hs => ?_, fun x y h hk hs hw => ?_, fun z h hk hs hw => ?_,
    fun x y w u h hk hs hw hu => ?_, fun z w u h hk hs hw hu => ?_⟩
  · rw [exec_arrived h hk, State.arrive_settles (s := s.begin) hs]
    rfl
  · rw [exec_arrived h hk, State.arrive_settles (s := s.begin) hs]
    rfl
  · rw [exec_arrived h hk, State.arrive_settled (s := s.begin) hs,
      State.settleExpires_none ((s.begin.arriving_waiting .xy o (.xy x y)).trans hw)]
    rfl
  · rw [exec_arrived h hk, State.arrive_settled (s := s.begin) hs,
      State.settleExpires_none ((s.begin.arriving_waiting .z o (.z z)).trans hw)]
    rfl
  · rw [exec_arrived h hk, State.arrive_settled (s := s.begin) hs,
      State.settleExpires_some ((s.begin.arriving_waiting .xy o (.xy x y)).trans hw), State.judgeMove_eq, hu]
    rfl
  · rw [exec_arrived h hk, State.arrive_settled (s := s.begin) hs,
      State.settleExpires_some ((s.begin.arriving_waiting .z o (.z z)).trans hw), State.judgeMove_eq, hu]
    rfl

/-- Settles O49: by the timer and the group's waiting request. -/
theorem settleExpiryAnswersTheRequesters : Obligations.SettleExpiryAnswersTheRequesters := by
  intro s u t g hs hu
  have ran (h : t.timer.due s.clock = true) : exec (.settleTimerExpiry g) s = .next (s.after (s.begin.settleExpires g t.requesters)) := by
    have found : (s.begin.motion.group g).settling = some t := hs
    show Host.Outcome.next (State.finish s (s.begin.settleTimesOut g)) = _
    simp only [State.settleTimesOut, found, State.whenDue]
    exact congrArg (fun v => Host.Outcome.next (State.finish s v)) (if_pos h)
  have settled : (s.begin.settledGroup g t.requesters).setGroup g
      { (s.begin.settledGroup g t.requesters).motion.group g with waiting := none } = u := by
    rw [hu]
    cases g <;> rfl
  refine ⟨fun h hw => ?_, fun w h hw => ?_, fun h => ⟨_, rfl, ?_⟩⟩
  · rw [ran h, State.settleExpires_none (s := s.begin) hw, settled]
  · rw [ran h, State.settleExpires_some (s := s.begin) hw, settled]
    exact congrArg (fun v => Host.Outcome.next (s.after v)) (u.judgeMove_eq w.target w.requesters)
  · have found : (s.begin.motion.group g).settling = some t := hs
    show (State.finish s (s.begin.settleTimesOut g)).content = _
    have waits : s.begin.settleTimesOut g = s.begin := by
      simp only [State.settleTimesOut, found, State.whenDue]
      exact if_neg (by rw [Bool.not_eq_true]; exact h)
    rw [waits, State.finish_content]
    rfl

/-- The end of a step keeps the content the command's effect has kept. -/
theorem State.after_content_kept (s : State) {u v : State} (h : u.kept = v.kept) : (s.after u).content.kept = v.content.kept := by
  rw [State.after, State.finish_content, State.content_kept, State.content_kept]
  exact congrArg (fun k : Kept => { k with wb := WriteBack.reset, mport := { k.mport with serving := none, drain := false } })
    (u.settle_kept.trans h)

/-- An axis IDLE before the consequences stands IDLE or MOVING after them, referenced. -/
theorem Axis.referenced_of_idle {a : AxisState} {b : Axis} (h : a = .idle) (step : AxisStep a b.state) (sound : b.flagSound) :
    (b.state = .idle ∨ b.state = .moving) ∧ b.referenced = true := by
  subst h
  obtain h | ⟨_, h⟩ := step
  · exact ⟨.inl h, by rw [sound, h]; rfl⟩
  · exact ⟨.inr h, by rw [sound, h]; rfl⟩

/-- A group homed, its waiting request still to be judged (R59). -/
def State.homedBefore (s : State) (g : MotionGroup) : State :=
  let m := (s.motion.setGroup g { s.motion.group g with order := none }).enter g .idle
  let s := s.setMotion ((m.setPosition (homeOf g)).setTarget (homeOf g))
  if g = .z then s.advanceEpoch else s

theorem State.homedGroup_eq (s : State) (g : MotionGroup) : s.homedGroup g = (s.homedBefore g).judgeWaiting g := rfl

theorem State.homedBefore_sound {s : State} (h : s.motion.Sound) (g : MotionGroup) : (s.homedBefore g).motion.Sound := by
  cases g
  · exact ⟨rfl, rfl, h.z, rfl⟩
  · exact ⟨h.x, h.y, rfl, h.paired⟩

/-- What HOMED leaves, by the group's waiting request and the consequences (R59). -/
theorem State.homed_after {s : State} (h : s.motion.Sound) (g : MotionGroup) :
    Quiet (s.begin.homedBefore g) (s.begin.homedGroup g).settle ∧ (s.after (s.begin.homedGroup g)).motion.Sound := by
  have quiet : Quiet (s.begin.homedBefore g) (s.begin.homedGroup g).settle := by
    rw [State.homedGroup_eq]
    exact quiet_settle (quiet_judgeWaiting (.refl _) g)
  refine ⟨quiet, ?_⟩
  rw [State.after, State.finish_motion]
  exact quiet.tame.motion (State.homedBefore_sound (s := s.begin) h g)

/-- Settles O50: by the group, from what the consequences may do to an axis and to the unit's sound form. -/
theorem homedAxesAreReferenced : Obligations.HomedAxesAreReferenced := by
  intro s o sound home
  refine ⟨fun h => ⟨_, exec_homed h home, ?_⟩, fun h => ⟨_, exec_homed h home, ?_⟩⟩
  · obtain ⟨quiet, after⟩ := State.homed_after sound .xy
    obtain ⟨stateX, refX⟩ := Axis.referenced_of_idle rfl quiet.motion.x (by simpa [State.after] using after.x)
    obtain ⟨stateY, refY⟩ := Axis.referenced_of_idle rfl quiet.motion.y (by simpa [State.after] using after.y)
    simp only [State.after, State.finish_motion]
    refine ⟨stateX, stateY, refX, refY, s.after_content_kept ?_⟩
    rw [State.homedGroup_eq, (quiet_judgeWaiting (.refl _) .xy).kept]
    rfl
  · obtain ⟨quiet, after⟩ := State.homed_after sound .z
    obtain ⟨stateZ, refZ⟩ := Axis.referenced_of_idle rfl quiet.motion.z (by simpa [State.after] using after.z)
    simp only [State.after, State.finish_motion]
    refine ⟨stateZ, refZ, s.after_content_kept ?_⟩
    rw [State.homedGroup_eq, (quiet_judgeWaiting (.refl _) .z).kept]
    rfl

end Sys2Proof.Machine
end

section
/-! SUPPORT. What move requests, focus requests and grabs leave alone, and the autofocus timer, the posting wait and the grab link's
answers to the revisit unit: O53, O54, O58, O59. -/

namespace Sys2Proof.Machine

/-! ## A command's step by its own effect -/

/-- A command whose own effect ends in the consequences. -/
theorem exec_after {c : Instr} (hr : ∀ sel lines, c ≠ .hardwareReset sel lines) {s u : State} (h : s.begin.effect c = u.settle) :
    exec c s = .next (s.after u) := by
  rw [exec_effect hr, h]
  rfl

/-- A command whose event has not happened changes nothing (log entries 2 and 14). -/
theorem exec_nothing {c : Instr} (hr : ∀ sel lines, c ≠ .hardwareReset sel lines) {s : State} (h : s.begin.effect c = s.begin) :
    ∃ t, exec c s = .next t ∧ t.content = ({ s with out := [] } : State).content := by
  rw [exec_effect hr, h]
  exact ⟨_, rfl, by rw [State.finish_content, State.begin_content]⟩

/-! ## The work of the motion unit, the autofocus unit and the grab link -/

/-- A state without the motion unit, the autofocus unit, the grab link and what is sent and told. -/
def State.rest (s : State) : State :=
  { s with
    motion := State.reset.motion, af := State.reset.af, grab := State.reset.grab, out := []
    scratch := { s.scratch with msgs := [] } }

section
variable (s : State)

@[simp] theorem State.setMotion_rest (m : Motion) : (s.setMotion m).rest = s.rest := rfl
@[simp] theorem State.setGroup_rest (g : MotionGroup) (r : GroupRecord) : (s.setGroup g r).rest = s.rest := rfl
@[simp] theorem State.setAf_rest (a : Autofocus) : (s.setAf a).rest = s.rest := rfl
@[simp] theorem State.setGrab_rest (g : GrabLink) : (s.setGrab g).rest = s.rest := rfl
@[simp] theorem State.say_rest (m : Msg) : (s.say m).rest = s.rest := rfl
@[simp] theorem State.sayAll_rest (ms : List Msg) : (s.sayAll ms).rest = s.rest := rfl
@[simp] theorem State.emit_rest (o : LinkOrder) : (s.emit o).rest = s.rest := rfl
@[simp] theorem State.takeRequest_rest : s.takeRequest.rest = s.rest := rfl
@[simp] theorem State.sendMove_rest (t : MoveTarget) (rs : List Requester) : (s.sendMove t rs).rest = s.rest := rfl

@[simp] theorem State.judgeMove_rest (t : MoveTarget) (rs : List Requester) : (s.judgeMove t rs).rest = s.rest := by
  unfold State.judgeMove
  split <;> rfl

@[simp] theorem State.waitMove_rest (w : WaitingMove) : (s.waitMove w).rest = s.rest := by
  unfold State.waitMove
  dsimp only
  split <;> rfl

@[simp] theorem State.requestMove_rest (t : MoveTarget) (r : Requester) : (s.requestMove t r).rest = s.rest := by
  unfold State.requestMove
  split <;> simp

@[simp] theorem State.judgeWaiting_rest (g : MotionGroup) : (s.judgeWaiting g).rest = s.rest := by
  unfold State.judgeWaiting
  dsimp only
  split <;> simp

@[simp] theorem State.waitLoad_rest (r : Requester) : (s.waitLoad r).rest = s.rest := by
  unfold State.waitLoad
  repeat' split
  all_goals simp

@[simp] theorem State.requestLoad_rest (u : MoveUnit) : (s.requestLoad u).rest = s.rest := by
  unfold State.requestLoad
  dsimp only
  repeat' split
  all_goals simp

@[simp] theorem State.answerFocus_rest (o : FocusOutcome) : (s.answerFocus o).rest = s.rest := by
  unfold State.answerFocus
  split <;> rfl

@[simp] theorem State.failFocus_rest (why : FocusReason) : (s.failFocus why).rest = s.rest := by simp [State.failFocus]

@[simp] theorem State.beginMeasureAt_rest (e : Word) : (s.beginMeasureAt e).rest = s.rest := rfl

@[simp] theorem State.focusMove_rest (st : FocusState) (z : Int) : (s.focusMove st z).rest = s.rest := by simp [State.focusMove]

@[simp] theorem State.requestFocus_rest (r : FocusRequest) : (s.requestFocus r).rest = s.rest := by
  unfold State.requestFocus
  dsimp only
  repeat' split
  all_goals simp [State.beginMeasure]

@[simp] theorem State.withdrawFocus_rest : s.withdrawFocus.rest = s.rest := by
  unfold State.withdrawFocus
  split <;> rfl

@[simp] theorem State.sendGrab_rest (a : GrabAsk) : (s.sendGrab a).rest = s.rest := rfl

@[simp] theorem State.askGrab_rest (a : GrabAsk) : (s.askGrab a).rest = s.rest := by
  unfold State.askGrab
  split <;> rfl

@[simp] theorem State.endGrab_rest : s.endGrab.rest = s.rest := by
  unfold State.endGrab
  dsimp only
  split <;> rfl

@[simp] theorem State.dropGrab_rest (k : GrabKind) : (s.dropGrab k).rest = s.rest := rfl

end

theorem State.rest_revisit {s t : State} (h : t.rest = s.rest) : t.revisit = s.revisit := (congrArg State.revisit h :)
theorem State.rest_lots {s t : State} (h : t.rest = s.rest) : t.lots = s.lots := (congrArg State.lots h :)
theorem State.rest_reports {s t : State} (h : t.rest = s.rest) : t.reports = s.reports := (congrArg State.reports h :)
theorem State.rest_align {s t : State} (h : t.rest = s.rest) : t.align = s.align := (congrArg State.align h :)

theorem State.rest_storeEntry {s t : State} (h : t.rest = s.rest) (k : Slot) (i : Nat) : t.storeEntry k i = s.storeEntry k i := by
  simp only [State.storeEntry, State.rest_revisit h]

theorem State.rest_row {s t : State} (h : t.rest = s.rest) (w : WaferName) : t.row w = s.row w := State.row_congr (State.rest_reports h) w

/-! ## The entries and the rows -/

/-- A state without the entries and what the reports say of them. -/
def State.bare (s : State) : State :=
  { s with
    revisit := { s.revisit with posting := [], store := [] }, reports := State.reset.reports
    scratch := { s.scratch with touched := [] } }

section
variable (s : State)

@[simp] theorem State.modEntry_bare (k : Slot) (i : Nat) (f : Entry → Entry) : (s.modEntry k i f).bare = s.bare := rfl
@[simp] theorem State.enter_bare (w : WaferName) (f : Row → Row) : (s.enter w f).bare = s.bare := rfl
@[simp] theorem State.countOutcome_bare (w : WaferName) (o : Outcome) : (s.countOutcome w o).bare = s.bare := rfl

@[simp] theorem State.finishEntry_bare (e : Entry) (st : EntryState) (why : EntryReason) : (s.finishEntry e st why).bare = s.bare := by
  unfold State.finishEntry
  split <;> simp

theorem State.finishEntries_bare (l : List Entry) (st : EntryState) (why : EntryReason) :
    ∀ s : State, (l.foldl (fun s e => s.finishEntry e st why) s).bare = s.bare := by
  induction l with
  | nil => exact fun _ => rfl
  | cons e l ih => exact fun s => (ih _).trans (s.finishEntry_bare e st why)

@[simp] theorem State.endQueued_bare (w : WaferName) (why : EntryReason) : (s.endQueued w why).bare = s.bare :=
  State.finishEntries_bare _ _ _ s

@[simp] theorem State.endActiveEntry_bare (why : EntryReason) : (s.endActiveEntry why).bare = s.bare := by
  unfold State.endActiveEntry
  split <;> simp

@[simp] theorem State.handDuration_bare (w : WaferName) (d : Word) : (s.handDuration w d).bare = s.bare := rfl
@[simp] theorem State.handMapFigures_bare (w : WaferName) : (s.handMapFigures w).bare = s.bare := rfl

end

theorem State.bare_lots {s t : State} (h : t.bare = s.bare) : t.lots = s.lots := (congrArg State.lots h :)
theorem State.bare_active {s t : State} (h : t.bare = s.bare) : t.revisit.active = s.revisit.active :=
  (congrArg (fun x : State => x.revisit.active) h :)
theorem State.bare_timer {s t : State} (h : t.bare = s.bare) : t.revisit.timer = s.revisit.timer :=
  (congrArg (fun x : State => x.revisit.timer) h :)

theorem State.wafer_congr {s t : State} (h : t.lots = s.lots) (w : WaferName) : t.wafer w = s.wafer w := by
  simp only [State.wafer, State.lot, h]

/-- Whether a row is OPEN is no matter of what is entered in rows. -/
def State.rowState (s : State) (w : WaferName) : Option RowState := (s.row w).map (·.state)

theorem State.rowState_enter (s : State) (w v : WaferName) {f : Row → Row} (hf : ∀ r, (f r).state = r.state) :
    (s.enter w f).rowState v = s.rowState v := by
  simp only [State.rowState, State.row_enter]
  split
  · cases s.row v with
    | none => rfl
    | some r => simp only [Option.map_some]; split <;> simp [hf]
  · rfl

theorem State.rowState_congr {s t : State} (h : t.reports = s.reports) (w : WaferName) : t.rowState w = s.rowState w := by
  simp only [State.rowState, State.row_congr h]

theorem State.rowState_finishEntry (s : State) (e : Entry) (st : EntryState) (why : EntryReason) (w : WaferName) :
    (s.finishEntry e st why).rowState w = s.rowState w := by
  unfold State.finishEntry
  split
  · exact State.rowState_enter _ _ _ fun _ => rfl
  · rfl

theorem State.rowState_finishEntries (l : List Entry) (st : EntryState) (why : EntryReason) (w : WaferName) :
    ∀ s : State, (l.foldl (fun s e => s.finishEntry e st why) s).rowState w = s.rowState w := by
  induction l with
  | nil => exact fun _ => rfl
  | cons e l ih => exact fun s => (ih _).trans (s.rowState_finishEntry e st why w)

theorem State.rowState_endQueued (s : State) (w v : WaferName) (why : EntryReason) : (s.endQueued w why).rowState v = s.rowState v :=
  State.rowState_finishEntries _ _ _ v s

theorem State.rowState_handMapFigures (s : State) (w v : WaferName) : (s.handMapFigures w).rowState v = s.rowState v :=
  State.rowState_enter s w v fun _ => rfl

theorem State.rowState_handDuration (s : State) (w v : WaferName) (d : Word) : (s.handDuration w d).rowState v = s.rowState v :=
  State.rowState_enter s w v fun _ => rfl

/-! ## The end of a wafer's review (R151) -/

/-- The wafer's record at the end of its review (R11). -/
def Wafer.reviewEnded (x : Wafer) (clock : Word) : Wafer :=
  if x.state = .onStage then { x with state := .reviewEnded, endClock := clock } else x

/-- An ON_STAGE wafer's end of review, by its parts (R11, R132, R163). -/
theorem State.toReviewEnded_of_onStage {s : State} {w : WaferName} {x : Wafer} (hx : s.wafer w = some x) (hs : x.state = .onStage) :
    s.toReviewEnded w = ((((s.modWafer w fun x => { x with state := .reviewEnded, endClock := s.clock }).handDuration w
      (s.clock - x.startClock)).handMapFigures w).endQueued w .waferUnavailable) := by
  simp only [State.toReviewEnded, hx, if_pos hs]
  rfl

theorem State.toReviewEnded_of_not {s : State} {w : WaferName} (h : s.waferState w ≠ some .onStage) : s.toReviewEnded w = s := by
  unfold State.toReviewEnded
  split
  · rename_i x hx
    exact if_neg fun hs => h (by simp [State.waferState, hx, hs])
  · rfl

theorem State.toReviewEnded_wafer (s : State) (w v : WaferName) :
    (s.toReviewEnded w).wafer v = if v = w then (s.wafer v).map (·.reviewEnded s.clock) else s.wafer v := by
  by_cases h : s.waferState w = some .onStage
  · obtain ⟨x, hx, hs⟩ := Option.map_eq_some_iff.1 h
    rw [State.toReviewEnded_of_onStage hx hs]
    refine (State.wafer_congr (s := s.modWafer w fun x => { x with state := .reviewEnded, endClock := s.clock })
      (State.bare_lots (by simp)) v).trans ?_
    rw [State.wafer_modWafer]
    by_cases hv : v = w
    · subst hv
      simp [hx, Wafer.reviewEnded, hs]
    · simp [hv]
  · rw [State.toReviewEnded_of_not h]
    by_cases hv : v = w
    · subst hv
      cases hx : s.wafer v with
      | none => simp
      | some x =>
        have hs : x.state ≠ .onStage := fun hs => h (by simp [State.waferState, hx, hs])
        simp [Wafer.reviewEnded, hs]
    · simp [hv]

theorem State.toReviewEnded_cases (s : State) (w : WaferName) : s.toReviewEnded w = s ∨ ∃ x : Wafer,
    s.toReviewEnded w = ((((s.modWafer w fun x => { x with state := .reviewEnded, endClock := s.clock }).handDuration w
      (s.clock - x.startClock)).handMapFigures w).endQueued w .waferUnavailable) := by
  by_cases h : s.waferState w = some .onStage
  · obtain ⟨x, hx, hs⟩ := Option.map_eq_some_iff.1 h
    exact .inr ⟨x, State.toReviewEnded_of_onStage hx hs⟩
  · exact .inl (State.toReviewEnded_of_not h)

theorem State.toReviewEnded_rowState (s : State) (w v : WaferName) : (s.toReviewEnded w).rowState v = s.rowState v := by
  obtain h | ⟨x, h⟩ := s.toReviewEnded_cases w
  · rw [h]
  · rw [h, State.rowState_endQueued, State.rowState_handMapFigures, State.rowState_handDuration]
    exact State.rowState_congr rfl v

theorem State.toReviewEnded_revisit (s : State) (w : WaferName) :
    (s.toReviewEnded w).revisit.active = s.revisit.active ∧ (s.toReviewEnded w).revisit.timer = s.revisit.timer := by
  obtain h | ⟨x, h⟩ := s.toReviewEnded_cases w
  · rw [h]
    exact ⟨rfl, rfl⟩
  · rw [h]
    have same := (((s.modWafer w fun x => { x with state := .reviewEnded, endClock := s.clock }).handDuration w
      (s.clock - x.startClock)).handMapFigures w).endQueued_bare w .waferUnavailable
    exact ⟨(State.bare_active same).trans rfl, (State.bare_timer same).trans rfl⟩

/-- The normal end up to the load-position request. -/
def State.reviewClosed (s : State) (w : WaferName) : State :=
  ((s.endReview.modWafer w fun x => { x with pendingResult := some .reviewed }).toReviewEnded w).enter w
    fun r => { r with postingTimeout := s.revisit.timeoutFlag }

theorem State.normalEnd_eq (s : State) (w : WaferName) : s.normalEnd w = (s.reviewClosed w).requestLoad .loadForReview := rfl

theorem State.normalEnd_rest (s : State) (w : WaferName) : (s.normalEnd w).rest = (s.reviewClosed w).rest := by
  rw [State.normalEnd_eq, State.requestLoad_rest]

/-- What a normal end makes of the wafer, its row and the revisit unit (R151). -/
theorem State.normalEnd_records (s : State) (w : WaferName) :
    (∀ x, s.wafer w = some x → ∃ y, (s.normalEnd w).wafer w = some y ∧ y.pendingResult = some .reviewed)
    ∧ (∀ r, s.row w = some r → r.state = .opened → ∃ r', (s.normalEnd w).row w = some r' ∧ r'.postingTimeout = s.revisit.timeoutFlag)
    ∧ (s.normalEnd w).revisit.active = none ∧ (s.normalEnd w).revisit.timer = none := by
  have same := s.normalEnd_rest w
  have ended := (s.endReview.modWafer w fun x => { x with pendingResult := some .reviewed }).toReviewEnded_revisit w
  refine ⟨fun x hx => ⟨({ x with pendingResult := some .reviewed } : Wafer).reviewEnded s.clock, ?_, ?_⟩, fun r hr ho => ?_,
    ?_, ?_⟩
  · have hx : s.endReview.wafer w = some x := hx
    rw [State.wafer_congr (State.rest_lots same)]
    refine (State.toReviewEnded_wafer _ w w).trans ?_
    rw [if_pos rfl, State.wafer_modWafer, if_pos rfl, hx]
    rfl
  · unfold Wafer.reviewEnded
    split <;> rfl
  · have opened : ((s.endReview.modWafer w fun x => { x with pendingResult := some .reviewed }).toReviewEnded w).rowState w
        = some .opened := by
      rw [State.toReviewEnded_rowState]
      refine (State.rowState_congr (s := s) rfl w).trans ?_
      simp [State.rowState, hr, ho]
    obtain ⟨r', hr', ho'⟩ := Option.map_eq_some_iff.1 opened
    exact ⟨_, (State.rest_row same w).trans (State.row_enter_opened hr' ho' _), rfl⟩
  · rw [State.rest_revisit same]
    exact ended.1
  · rw [State.rest_revisit same]
    exact ended.2

/-- Settles O59: by the timer, from what a normal end makes of the records. -/
theorem postingWaitExpiryEndsTheReview : Obligations.PostingWaitExpiryEndsTheReview := by
  intro s t0 w ht hw
  have ht : s.begin.revisit.timer = some t0 := ht
  have hw : s.begin.revisit.wafer = some w := hw
  refine ⟨fun due => ?_, fun early => exec_nothing (by nofun) ?_⟩
  · let b := s.begin.setRevisit { s.begin.revisit with timeoutFlag := true }
    obtain ⟨pending, row, active, timer⟩ := b.normalEnd_records w
    obtain ⟨review, staged⟩ := b.normalEnd_facts w
    have quiet := quiet_settle (.refl (b.normalEnd w))
    refine ⟨b.normalEnd w, _, exec_after (by nofun) ?_, rfl, pending, row, active, timer, ?_, fun onStage => ?_, s.after_content_kept ?_⟩
    · show s.begin.postingWaitEnds = _
      simp only [State.postingWaitEnds, ht, hw]
      exact State.whenDue_due s.begin due _
    · rw [State.after, State.finish_revisit]
      exact quiet.ended review
    · rw [State.after, State.finish_waferState]
      exact (quiet.waferState_eq w (by rw [staged onStage]; nofun)).trans (staged onStage)
    · exact (quiet_normalEnd (.refl b) w).kept
  · show s.begin.postingWaitEnds = _
    simp only [State.postingWaitEnds, ht, hw]
    exact State.whenDue_not s.begin early _

/-! ## The revisit's phases (R142 to R148) -/

theorem State.activeEntry_of {s : State} {a : ActiveRevisit} {e : Entry} (ha : s.revisit.active = some a)
    (he : s.storeEntry a.slot a.index = some e) (hs : e.state = .active) : s.activeEntry = some e := by
  simp [State.activeEntry, ha, he, hs]

/-- Phase MOVE asks for its two moves and leaves all else as it is (R142). -/
theorem State.beginMove_rest (s : State) (a : ActiveRevisit) (z : Int) : (s.beginMove a z).rest = (s.setActive (some { a with
    phase := .move, startZ := z, xyReq := some ⟨s.motion.nextReq, false⟩, zReq := some ⟨s.motion.nextReq + 1, false⟩ })).rest := by
  simp [State.beginMove]

/-- A failed attempt that is tried again (R147). -/
theorem State.failedAttempt_again {s : State} {e : Entry} (h : (e.attempts : Int) + 1 ≤ (s.recipe e.slot).retryLimit) (a : ActiveRevisit)
    (why : LastFailure) : s.failedAttempt a e why = (s.modEntry e.slot e.index fun x => { x with attempts := e.attempts + 1 }).beginMove
      { a with lastFailure := some why } (s.recipe e.slot).nominalZ := if_pos (by push_cast; exact h)

/-- The last failed attempt (R147). -/
theorem State.failedAttempt_last {s : State} {e : Entry} (h : (s.recipe e.slot).retryLimit < (e.attempts : Int) + 1) (a : ActiveRevisit)
    (why : LastFailure) : s.failedAttempt a e why = (s.modEntry e.slot e.index fun x => { x with attempts := e.attempts + 1 }).endActive e
      why.final.1 why.final.2 := if_neg (by push_cast; exact not_le.2 h)

/-- An entry's end as the store, the row and the revisit unit show it (R128, R148). -/
theorem State.endActive_facts {s : State} {e x : Entry} {k : Slot} {i : Nat} (hk : e.slot = k) (hi : e.index = i)
    (he : s.storeEntry k i = some x) (st : EntryState) (why : EntryReason) :
    (s.endActive e st why).storeEntry k i = some { x with state := st, reason := why }
    ∧ (s.endActive e st why).revisit.active = none
    ∧ (s.endActive e st why).scratch.msgs = s.scratch.msgs ++ [.lookAtList] := by
  subst hk hi
  have found : (s.modEntry e.slot e.index fun x => { x with state := st, reason := why }).storeEntry e.slot e.index
      = some { x with state := st, reason := why } := by
    rw [State.storeEntry_modEntry s e.slot e.index (f := fun x => { x with state := st, reason := why }) fun _ => ⟨rfl, rfl⟩, he]
    rfl
  unfold State.endActive State.finishEntry
  dsimp only
  split <;> exact ⟨found, rfl, rfl⟩

theorem State.failedAttempt_facts {s : State} {a : ActiveRevisit} {e : Entry} (he : s.storeEntry a.slot a.index = some e)
    (why : LastFailure) :
    ((e.attempts : Int) + 1 ≤ (s.recipe e.slot).retryLimit →
      (s.failedAttempt a e why).storeEntry a.slot a.index = some { e with attempts := e.attempts + 1 }
      ∧ (s.failedAttempt a e why).revisit.active = some { a with
          phase := .move, lastFailure := some why, startZ := (s.recipe e.slot).nominalZ
          xyReq := some ⟨s.motion.nextReq, false⟩, zReq := some ⟨s.motion.nextReq + 1, false⟩ })
    ∧ ((s.recipe e.slot).retryLimit < (e.attempts : Int) + 1 →
      (s.failedAttempt a e why).storeEntry a.slot a.index
        = some { e with attempts := e.attempts + 1, state := why.final.1, reason := why.final.2 }
      ∧ (s.failedAttempt a e why).revisit.active = none
      ∧ (s.failedAttempt a e why).scratch.msgs = s.scratch.msgs ++ [.lookAtList]) := by
  obtain ⟨hk, hi⟩ := State.storeEntry_is he
  have counted : (s.modEntry e.slot e.index fun x => { x with attempts := e.attempts + 1 }).storeEntry a.slot a.index
      = some { e with attempts := e.attempts + 1 } := by
    rw [← hk, ← hi] at he ⊢
    rw [State.storeEntry_modEntry s e.slot e.index (f := fun x => { x with attempts := e.attempts + 1 }) fun _ => ⟨rfl, rfl⟩, he]
    rfl
  refine ⟨fun again => ?_, fun last => ?_⟩
  · rw [State.failedAttempt_again again]
    have same := State.beginMove_rest (s.modEntry e.slot e.index fun x => { x with attempts := e.attempts + 1 })
      { a with lastFailure := some why } (s.recipe e.slot).nominalZ
    exact ⟨(State.rest_storeEntry same _ _).trans counted, congrArg Revisit.active (State.rest_revisit same)⟩
  · rw [State.failedAttempt_last last]
    exact State.endActive_facts hk hi counted _ _

theorem State.askGrab_sent {s : State} (h : s.grab.outstanding = none) (a : GrabAsk) :
    (s.askGrab a).grab.outstanding = some ⟨s.grab.tag, a, .at s.clock grabTimeout, false⟩ := by
  rw [State.askGrab, if_neg (by simp [h])]
  rfl

/-- An active autofocus request fails at its timer (R109). -/
theorem State.failFocus_eq {s : State} {r : FocusRequest} (hr : s.af.request = some r) (why : FocusReason) : s.failFocus why = { s with
    af := { s.af with state := .failed, outcome := some (.failed why), timer := none, zReq := none }
    scratch := { s.scratch with msgs := s.scratch.msgs ++ [.focusAnswer r.requester (.failed why)] } } := by
  simp only [State.failFocus, State.answerFocus, State.setAf, hr]
  rfl

theorem FocusState.isActive_of_mem {x : FocusState} (h : x ∈ [.prefocus, .measure, .step, .search]) : x.isActive = true := by
  revert h
  cases x <;> simp [FocusState.isActive]

theorem State.deliver_focusFailed {s : State} {a : ActiveRevisit} {e : Entry} (ha : s.revisit.active = some a) (hp : a.phase = .focus)
    (he : s.activeEntry = some e) (why : FocusReason) :
    s.deliver (.focusAnswer .revisit (.failed why)) = s.failedAttempt a e (.focus why) := by
  show s.revisitFocus (.failed why) = _
  simp only [State.revisitFocus, ha, he, if_pos hp]

theorem State.deliver_focused {s : State} {a : ActiveRevisit} {e : Entry} (ha : s.revisit.active = some a) (hp : a.phase = .focus)
    (he : s.activeEntry = some e) (z : Int) : s.deliver (.focusAnswer .revisit (.focused z))
      = ((s.modEntry e.slot e.index fun x => { x with focusZ := z }).setActive (some { a with phase := .grab })).askGrab
        ⟨.defect, e.hostReference, (s.recipe e.slot).framesPerGrab.toNat⟩ := by
  show s.revisitFocus (.focused z) = _
  simp only [State.revisitFocus, ha, he, if_pos hp]
  rfl

/-- Settles O58: the timer's expiry by its due time, and the revisit unit's answer by the outcome. -/
theorem autofocusExpiryFailsTheRequest : Obligations.AutofocusExpiryFailsTheRequest := by
  refine ⟨fun s t r why ht hr active hwhy => ⟨fun due => ?_, fun early => exec_nothing (by nofun) ?_⟩,
    fun s early => exec_nothing (by nofun) ?_, fun s a e c ha hp he hs hc => ?_⟩
  · have ht : s.begin.af.timer = some t := ht
    refine exec_after (by nofun) ?_
    show s.begin.focusTimesOut = _
    have expired : s.begin.focusExpires = s.begin.failFocus why := by
      rw [hwhy]
      exact if_pos (FocusState.isActive_of_mem active)
    simp only [State.focusTimesOut, ht]
    rw [State.whenDue_due s.begin due, expired, State.failFocus_eq (s := s.begin) hr]
    rfl
  · have ht : s.begin.af.timer = some t := ht
    show s.begin.focusTimesOut = _
    simp only [State.focusTimesOut, ht]
    exact State.whenDue_not s.begin early _
  · show s.begin.silenceTimesOut = _
    unfold State.silenceTimesOut
    split
    · rename_i t ht
      exact State.whenDue_not s.begin (early t ht) _
    · rfl
  · have found := State.activeEntry_of ha he hs
    subst hc
    refine ⟨fun why u hu => ?_, fun z u hu => ?_⟩
    · rw [hu, State.deliver_focusFailed ha hp found]
      exact State.failedAttempt_facts he (.focus why)
    · rw [hu, State.deliver_focused ha hp found]
      have same := ((s.modEntry e.slot e.index fun x => { x with focusZ := z }).setActive (some { a with phase := .grab })).askGrab_rest
        ⟨.defect, e.hostReference, (s.recipe e.slot).framesPerGrab.toNat⟩
      refine ⟨?_, congrArg Revisit.active (State.rest_revisit same), fun free => (State.askGrab_sent ?_ _).trans rfl⟩
      refine (State.rest_storeEntry same _ _).trans ?_
      obtain ⟨hk, hi⟩ := State.storeEntry_is he
      rw [← hk, ← hi] at he ⊢
      refine (State.storeEntry_modEntry s e.slot e.index (f := fun x => { x with focusZ := z }) fun _ => ⟨rfl, rfl⟩).trans ?_
      rw [he]
      rfl
      exact free

theorem State.kept_modEntry (s : State) (k : Slot) (i : Nat) {f : Entry → Entry} (hf : ∀ e, (f e).postKept = e.postKept) :
    (s.modEntry k i f).kept = s.kept := by
  have posts : (s.modEntry k i f).revisit.posting.map (·.postKept) = s.revisit.posting.map (·.postKept) := by
    simp only [State.modEntry, List.map_map]
    refine List.map_congr_left fun e _ => ?_
    simp only [Function.comp_apply]
    split
    · exact hf e
    · rfl
  show ({ s.kept with posts := (s.modEntry k i f).revisit.posting.map (·.postKept) } : Kept) = s.kept
  rw [posts]
  rfl

/-! ## The grab link's replies (R145 to R147) -/

theorem State.judgeGrab_taken {s : State} {o : Grab} (ho : s.grab.outstanding = some o) (hd : o.discard = false) {fits : GrabKind → Bool}
    (hf : fits o.ask.kind = true) : s.judgeGrab o.tag fits = .taken := by
  simp [State.judgeGrab, ho, hd, hf]

theorem State.judgeGrab_discarded {s : State} {o : Grab} (ho : s.grab.outstanding = some o) (hd : o.discard = true)
    (fits : GrabKind → Bool) : s.judgeGrab o.tag fits = .discarded := by
  simp [State.judgeGrab, ho, hd]

/-- The waiting grab is sent when the outstanding one ends (R144). -/
theorem State.endGrab_grab (s : State) :
    s.endGrab.grab.outstanding = (s.grab.waiting.map fun a => ⟨s.grab.tag, a, .at s.clock grabTimeout, false⟩)
    ∧ s.endGrab.grab.waiting = none := by
  unfold State.endGrab
  dsimp only
  cases s.grab.waiting <;> exact ⟨rfl, rfl⟩

theorem State.endGrab_none {s : State} (h : s.grab.waiting = none) :
    s.endGrab = s.setGrab { s.grab with outstanding := none } := by
  simp only [State.endGrab, h]

theorem State.endGrab_kept (s : State) : s.endGrab.kept = s.kept := by
  unfold State.endGrab
  dsimp only
  split <;> rfl

theorem State.endGrab_msgs (s : State) : s.endGrab.scratch = s.scratch ∧ s.endGrab.motion = s.motion := by
  unfold State.endGrab
  dsimp only
  split <;> exact ⟨rfl, rfl⟩

/-- A grab's failure, by its fault or its due timer, handed on when it is not discarded. -/
theorem exec_grabFailed {s : State} {c : Instr} {o : Grab} {why : LastFailure} (ho : s.grab.outstanding = some o)
    (hc : ((∃ code, c = .grabFault o.tag code) ∧ why = .grabFault) ∨ (c = .grabTimeout ∧ why = .grabTimeout ∧ o.timer.due s.clock = true))
    (hd : o.discard = false) : exec c s = .next (s.after (s.begin.endGrab.grabFails o.ask.kind why)) := by
  have ho : s.begin.grab.outstanding = some o := ho
  obtain ⟨⟨code, rfl⟩, rfl⟩ | ⟨rfl, rfl, due⟩ := hc
  · refine exec_after (by nofun) ?_
    show s.begin.grabFaultReply o.tag = _
    simp only [State.grabFaultReply, State.judgeGrab_taken ho hd (fits := fun _ => true) rfl, ho]
  · refine exec_after (by nofun) ?_
    show s.begin.grabTimesOut = _
    simp only [State.grabTimesOut, ho]
    rw [State.whenDue_due s.begin due, hd]
    rfl

theorem exec_grabDiscarded {s : State} {c : Instr} {o : Grab} (ho : s.grab.outstanding = some o)
    (hc : (∃ code, c = .grabFault o.tag code) ∨ (c = .grabTimeout ∧ o.timer.due s.clock = true))
    (hd : o.discard = true) : exec c s = .next (State.finish s s.begin.endGrab) := by
  have ho : s.begin.grab.outstanding = some o := ho
  obtain ⟨code, rfl⟩ | ⟨rfl, due⟩ := hc
  · rw [exec_effect (by nofun)]
    show Host.Outcome.next (State.finish s (s.begin.grabFaultReply o.tag)) = _
    simp only [State.grabFaultReply, State.judgeGrab_discarded ho hd, ho]
  · rw [exec_effect (by nofun)]
    show Host.Outcome.next (State.finish s s.begin.grabTimesOut) = _
    simp only [State.grabTimesOut, ho]
    rw [State.whenDue_due s.begin due, hd]
    rfl

/-- A grab for an entry done: the entry takes its frames and ends REVIEWED (R146). -/
theorem State.revisitGrabbed_eq {s : State} {a : ActiveRevisit} {e : Entry} (ha : s.revisit.active = some a) (hp : a.phase = .grab)
    (he : s.activeEntry = some e) (first frames : Word) : s.revisitGrabbed first frames
      = (s.modEntry e.slot e.index fun x => { x with firstFrame := first, frames := frames }).endActive e .reviewed .none := by
  simp only [State.revisitGrabbed, ha, he, if_pos hp]

/-- Settles O53: the entry by its own end, its frame words in the step's end from what consequences leave of a touched record. -/
theorem grabDoneReviewsTheEntry : Obligations.GrabDoneReviewsTheEntry := by
  intro s o a e first frames ho hd hk ha hp he hs
  have ho' : s.begin.grab.outstanding = some o := ho
  have same := s.begin.endGrab_rest
  have found : s.begin.endGrab.storeEntry a.slot a.index = some e := (State.rest_storeEntry same _ _).trans he
  have active : s.begin.endGrab.revisit.active = some a := (congrArg Revisit.active (State.rest_revisit same)).trans ha
  obtain ⟨slot, index⟩ := State.storeEntry_is he
  obtain ⟨outstanding, waiting⟩ := s.begin.endGrab_grab
  let taken := s.begin.endGrab.modEntry e.slot e.index fun x => { x with firstFrame := first, frames := frames }
  have framed : taken.storeEntry a.slot a.index = some { e with firstFrame := first, frames := frames } := by
    rw [← slot, ← index] at found ⊢
    refine (State.storeEntry_modEntry _ e.slot e.index (f := fun x => { x with firstFrame := first, frames := frames })
      fun _ => ⟨rfl, rfl⟩).trans ?_
    rw [found]
    rfl
  obtain ⟨entry, ended, told⟩ := State.endActive_facts slot index framed .reviewed .none
  have msgs : taken.scratch.msgs = [] := congrArg Scratch.msgs s.begin.endGrab_msgs.1
  have quiet := quiet_settle (quiet_endActive (.refl taken) e .reviewed .none)
  refine ⟨taken.endActive e .reviewed .none, _, exec_after (by nofun) ?_, rfl, entry, fun r hr open_ => ?_, ended, ?_, outstanding,
    waiting, ?_, s.after_content_kept ?_⟩
  · show s.begin.grabDoneReply o.tag first frames = _
    simp only [State.grabDoneReply, State.judgeGrab_taken ho' hd (fits := fun k => k == .defect) (by rw [hk]; rfl)]
    rw [State.revisitGrabbed_eq active hp (State.activeEntry_of active found hs)]
  · have hr : taken.row e.wafer = some r := (State.rest_row same _).trans hr
    exact State.row_enter_opened (s := taken.modEntry e.slot e.index fun x => { x with state := .reviewed, reason := .none }) hr open_ _
  · rw [told, msgs]
    rfl
  · obtain ⟨-, stays⟩ := quiet.stays e.id List.mem_cons_self
    obtain ⟨x, hx, id, words⟩ := stays _ (State.storeEntry_mem framed) rfl
    refine ⟨x, ?_, id, congrArg EntryWords.firstFrame words, congrArg EntryWords.frames words⟩
    rw [State.after, State.finish_revisit]
    exact hx
  · refine (quiet_endActive (.refl taken) e .reviewed .none).kept.trans ((State.kept_modEntry _ _ _ (by exact fun _ => rfl)).trans ?_)
    exact s.begin.endGrab_kept

/-! ## Entries ended together (R132) -/

/-- The store after the ends of the listed entries: every record of one of their names has ended. -/
def endedIn (l : List Entry) (st : EntryState) (why : EntryReason) (x : Entry) : Entry :=
  if l.any fun e => x.is e.slot e.index then { x with state := st, reason := why } else x

theorem State.finishEntry_store (s : State) (e : Entry) (st : EntryState) (why : EntryReason) :
    (s.finishEntry e st why).revisit.store
      = s.revisit.store.map fun x => if x.is e.slot e.index then { x with state := st, reason := why } else x := by
  unfold State.finishEntry
  split <;> rfl

theorem State.finishEntries_store (st : EntryState) (why : EntryReason) (l : List Entry) : ∀ s : State,
    (l.foldl (fun s e => s.finishEntry e st why) s).revisit.store = s.revisit.store.map (endedIn l st why) := by
  induction l with
  | nil =>
    intro s
    exact ((List.map_id _).symm.trans (List.map_congr_left fun _ _ => rfl))
  | cons e l ih =>
    intro s
    rw [List.foldl_cons, ih, State.finishEntry_store, List.map_map]
    refine List.map_congr_left fun x _ => ?_
    simp only [Function.comp_apply, endedIn, List.any_cons]
    by_cases h : x.is e.slot e.index = true
    · have h' : (({ x with state := st, reason := why } : Entry).is e.slot e.index) = true := h
      simp only [h, if_true, Bool.true_or]
      split <;> rfl
    · simp only [h, Bool.false_or, Bool.false_eq_true, if_false]

theorem State.endQueued_store (s : State) (w : WaferName) (why : EntryReason) :
    (s.endQueued w why).revisit.store = s.revisit.store.map (endedIn (s.queuedOf w) .aborted why) :=
  State.finishEntries_store _ _ _ s

theorem endedIn_of_mem {l : List Entry} {x : Entry} (h : x ∈ l) (st : EntryState) (why : EntryReason) :
    endedIn l st why x = { x with state := st, reason := why } :=
  if_pos (List.any_eq_true.2 ⟨x, h, by simp [Entry.is]⟩)

/-- After the end of its QUEUED entries a wafer has none. -/
theorem State.endQueued_queuedOf (s : State) (w : WaferName) (why : EntryReason) : (s.endQueued w why).queuedOf w = [] := by
  refine List.eq_nil_iff_forall_not_mem.2 fun x hx => ?_
  obtain ⟨inStore, wafer, queued, open_⟩ := State.mem_queuedOf.1 hx
  rw [State.endQueued_store] at inStore
  obtain ⟨y, hy, rfl⟩ := List.mem_map.1 inStore
  by_cases h : y ∈ s.queuedOf w
  · rw [endedIn_of_mem h] at queued
    cases queued
  · refine h (State.mem_queuedOf.2 ⟨hy, ?_⟩)
    unfold endedIn at wafer queued open_
    split at queued
    · cases queued
    · rename_i hn
      simp only [hn, Bool.false_eq_true, if_false] at wafer open_
      exact ⟨wafer, queued, open_⟩

theorem State.queuedOf_congr {s t : State} (h : t.revisit.store = s.revisit.store) (w : WaferName) : t.queuedOf w = s.queuedOf w := by
  simp only [State.queuedOf, h]

theorem State.endQueued_none {s : State} {w : WaferName} (h : s.queuedOf w = []) (why : EntryReason) : s.endQueued w why = s := by
  rw [State.endQueued, h]
  rfl

/-- A wafer without QUEUED entries has its review end without touching the store. -/
theorem State.toReviewEnded_store {s : State} {w : WaferName} (h : s.queuedOf w = []) :
    (s.toReviewEnded w).revisit.store = s.revisit.store := by
  obtain same | ⟨x, same⟩ := s.toReviewEnded_cases w
  · rw [same]
  · rw [same, State.endQueued_none]
    · rfl
    · exact (State.queuedOf_congr (s := s) rfl w).trans h

theorem State.bare_review {s t : State} (h : t.bare = s.bare) : t.revisit.review = s.revisit.review :=
  (congrArg (fun x : State => x.revisit.review) h :)
theorem State.bare_reviewed {s t : State} (h : t.bare = s.bare) : t.revisit.wafer = s.revisit.wafer :=
  (congrArg (fun x : State => x.revisit.wafer) h :)

/-- The end of a review changes a wafer's state and its clock only (R11). -/
theorem Wafer.reviewEnded_same (x : Wafer) (clock : Word) : (x.reviewEnded clock).pendingResult = x.pendingResult
    ∧ (x.reviewEnded clock).alignState = x.alignState ∧ (x.reviewEnded clock).alignMark = x.alignMark
    ∧ (x.reviewEnded clock).alignAttempts = x.alignAttempts ∧ (x.reviewEnded clock).alignReason = x.alignReason := by
  unfold Wafer.reviewEnded
  split <;> exact ⟨rfl, rfl, rfl, rfl, rfl⟩

/-! ## An alignment's failure (R80, R153) -/

@[simp] theorem State.setAlign_revisit (s : State) (a : Align) : (s.setAlign a).revisit = s.revisit := by
  unfold State.setAlign
  dsimp only
  split <;> rfl

@[simp] theorem State.setAlign_anchor (s : State) (a : Align) : (s.setAlign a).anchor = s.anchor := by
  unfold State.setAlign
  dsimp only
  split <;> rfl

/-- The wafer entry's alignment word, written from the record (R67). -/
def Wafer.shows (x : Wafer) (a : Align) : Wafer :=
  { x with alignState := a.state, alignMark := a.mark, alignAttempts := a.attempts, alignReason := a.reason }

theorem State.setAlign_wafer (s : State) {a : Align} {w : WaferName} (hw : a.wafer = some w) (v : WaferName) :
    (s.setAlign a).wafer v = if v = w then (s.wafer v).map (·.shows a) else s.wafer v := by
  simp only [State.setAlign, hw]
  exact State.wafer_modWafer _ w v _

/-- The record and the wafer's entries of a failed alignment, and the end of its review (R80, R153). -/
def State.alignEnds (s : State) (w : WaferName) (why : AlignReason) : State :=
  let s := s.setAlign { s.align with state := .failed, reason := why, xyReq := none, zReq := none }
  let s := s.modWafer w fun x => { x with pendingResult := some .alignFailed }
  let s := s.endQueued w .alignFail
  if s.revisit.wafer = some w ∧ s.revisit.review.inProgress then s.endReview else s

theorem State.alignFail_eq {s : State} {w : WaferName} (hw : s.align.wafer = some w) (why : AlignReason) :
    s.alignFail why = (((s.alignEnds w why).toReviewEnded w).raise .alignFail).requestLoad .loadForReview := by
  unfold State.alignFail
  split
  · rename_i none
    rw [hw] at none
    cases none
  · rename_i v some
    obtain rfl : w = v := Option.some.inj (hw.symm.trans some)
    rfl

/-- The parts of the state an alignment failure ends up with, by parts. -/
theorem State.alignEnds_facts {s : State} {w : WaferName} (hw : s.align.wafer = some w) (why : AlignReason) :
    (s.alignEnds w why).align = { s.align with state := .failed, reason := why, xyReq := none, zReq := none }
    ∧ (∀ v, (s.alignEnds w why).wafer v = if v = w then (s.wafer v).map fun x => { x.shows { s.align with
        state := .failed, reason := why } with pendingResult := some .alignFailed } else s.wafer v)
    ∧ (s.alignEnds w why).revisit.store = s.revisit.store.map (endedIn (s.queuedOf w) .aborted .alignFail)
    ∧ (s.alignEnds w why).queuedOf w = []
    ∧ (s.revisit.wafer = some w → s.revisit.review.inProgress = true → (s.alignEnds w why).revisit.review = .ended) := by
  generalize hb : ((s.setAlign { s.align with state := .failed, reason := why, xyReq := none, zReq := none }).modWafer w
    fun x => { x with pendingResult := some .alignFailed }) = b
  have revisit : b.revisit = s.revisit := by rw [← hb]; exact s.setAlign_revisit _
  have align : b.align = { s.align with state := .failed, reason := why, xyReq := none, zReq := none } := by
    rw [← hb]; exact s.setAlign_align _
  have queued : b.queuedOf w = s.queuedOf w := State.queuedOf_congr (by rw [revisit]) w
  have ends : s.alignEnds w why = if (b.endQueued w .alignFail).revisit.wafer = some w
      ∧ (b.endQueued w .alignFail).revisit.review.inProgress = true then (b.endQueued w .alignFail).endReview
      else b.endQueued w .alignFail := by
    rw [← hb]; rfl
  have bare := b.endQueued_bare w .alignFail
  have part {α : Type} (f : State → α) (hf : ∀ t : State, f t.endReview = f t) : f (s.alignEnds w why) = f (b.endQueued w .alignFail) := by
    rw [ends]
    split
    · exact hf _
    · rfl
  refine ⟨?_, fun v => ?_, ?_, ?_, fun reviewed progress => ?_⟩
  · rw [part State.align fun _ => rfl]
    exact (congrArg State.align bare :).trans align
  · rw [State.wafer_congr (s := b) ((part State.lots fun _ => rfl).trans (State.bare_lots bare)), ← hb, State.wafer_modWafer,
      State.setAlign_wafer s (a := { s.align with state := .failed, reason := why, xyReq := none, zReq := none }) hw]
    split
    · cases s.wafer v <;> rfl
    · rfl
  · rw [part (fun t => t.revisit.store) fun _ => rfl, State.endQueued_store, revisit, queued]
  · rw [part (fun t => t.queuedOf w) fun _ => rfl]
    exact b.endQueued_queuedOf w .alignFail
  · have review : (b.endQueued w .alignFail).revisit.review = s.revisit.review :=
      (State.bare_review bare).trans (congrArg Revisit.review revisit)
    have named : (b.endQueued w .alignFail).revisit.wafer = s.revisit.wafer :=
      (State.bare_reviewed bare).trans (congrArg Revisit.wafer revisit)
    rw [ends, if_pos ⟨named.trans reviewed, by rw [review]; exact progress⟩]
    rfl

theorem State.toReviewEnded_align (s : State) (w : WaferName) : (s.toReviewEnded w).align = s.align := by
  obtain same | ⟨x, same⟩ := s.toReviewEnded_cases w
  · rw [same]
  · rw [same]
    exact (congrArg State.align (State.endQueued_bare _ w .waferUnavailable) :)

@[simp] theorem State.raise_rest_revisit (s : State) (k : NoticeKind) : (s.raise k).revisit = s.revisit ∧ (s.raise k).align = s.align
    ∧ (s.raise k).lots = s.lots := by
  unfold State.raise
  split <;> exact ⟨rfl, rfl, rfl⟩

/-- What an alignment failure makes of the record, the wafer, the store and the review (R80, R132, R153). -/
theorem State.alignFail_records {s : State} {w : WaferName} (hw : s.align.wafer = some w) (why : AlignReason) :
    (s.alignFail why).align = { s.align with state := .failed, reason := why, xyReq := none, zReq := none }
    ∧ (∀ v, (s.alignFail why).wafer v = if v = w then (s.wafer v).map fun x => ({ x.shows { s.align with
        state := .failed, reason := why } with pendingResult := some .alignFailed } : Wafer).reviewEnded (s.alignEnds w why).clock
      else s.wafer v)
    ∧ (s.alignFail why).revisit.store = s.revisit.store.map (endedIn (s.queuedOf w) .aborted .alignFail)
    ∧ (s.revisit.wafer = some w → s.revisit.review.inProgress = true → (s.alignFail why).revisit.review = .ended) := by
  obtain ⟨align, wafer, store, queued, review⟩ := State.alignEnds_facts hw why
  have loaded := (((s.alignEnds w why).toReviewEnded w).raise .alignFail).requestLoad_rest .loadForReview
  obtain ⟨raisedRevisit, raisedAlign, raisedLots⟩ := ((s.alignEnds w why).toReviewEnded w).raise_rest_revisit .alignFail
  rw [State.alignFail_eq hw]
  refine ⟨?_, fun v => ?_, ?_, fun named progress => ?_⟩
  · rw [State.rest_align loaded, raisedAlign, State.toReviewEnded_align, align]
  · rw [State.wafer_congr ((State.rest_lots loaded).trans raisedLots), State.toReviewEnded_wafer, wafer]
    split
    · cases s.wafer v <;> rfl
    · rfl
  · rw [State.rest_revisit loaded, raisedRevisit, State.toReviewEnded_store queued, store]
  · rw [State.rest_revisit loaded, raisedRevisit]
    exact (quiet_toReviewEnded (.refl _) w).ended (review named progress)

theorem State.wafer_of_waferState {s b : State} {w : WaferName} (h : b.waferState w = s.waferState w) {x : Wafer} (hx : s.wafer w = some x) :
    ∃ y, b.wafer w = some y := by
  simp only [State.waferState, hx] at h
  cases hb : b.wafer w with
  | none => rw [hb] at h; cases h
  | some y => exact ⟨y, rfl⟩

/-- An alignment failure from the state its cause has left. -/
theorem State.alignFails_of {s b : State} {w : WaferName} (hw : b.align.wafer = some w) (revisit : b.revisit = s.revisit)
    (anchor : b.anchor = s.anchor) (state : b.waferState w = s.waferState w) (why : AlignReason) :
    s.AlignFails (b.alignFail why) w why := by
  obtain ⟨align, wafer, store, review⟩ := State.alignFail_records hw why
  obtain ⟨notice, staged⟩ := State.alignFail_facts hw why
  refine ⟨by rw [align]; exact ⟨rfl, rfl⟩, fun x hx => ?_, fun h => staged (state.trans h), fun h => notice ((by rw [anchor]; exact h)),
    fun named progress => review (by rw [revisit]; exact named) (by rw [revisit]; exact progress), fun e he => ?_⟩
  · obtain ⟨y, hy⟩ := State.wafer_of_waferState state hx
    refine ⟨_, (wafer w).trans (by rw [if_pos rfl, hy]; rfl), (Wafer.reviewEnded_same _ _).1⟩
  · have queued : e ∈ b.queuedOf w := by rw [State.queuedOf_congr (s := s) (by rw [revisit])]; exact he
    rw [store]
    exact ⟨_, List.mem_map_of_mem (State.mem_queuedOf.1 queued).1, by rw [endedIn_of_mem queued]; exact ⟨rfl, rfl, rfl⟩⟩

theorem State.recipe_of_kept {s t : State} (h : (⟨t.lots.zero.kept, t.lots.one.kept⟩ : Two LotKept) = ⟨s.lots.zero.kept, s.lots.one.kept⟩) (k : Slot) :
    t.recipe k = s.recipe k := by
  have same : (t.lot k).recipe = (s.lot k).recipe := by
    cases k
    · exact congrArg (fun x : Two LotKept => x.zero.recipe) h
    · exact congrArg (fun x : Two LotKept => x.one.recipe) h
  simp only [State.recipe, same]

@[simp] theorem State.setAlign_recipe (s : State) (a : Align) (k : Slot) : (s.setAlign a).recipe k = s.recipe k :=
  State.recipe_of_kept (congrArg Kept.lots (s.kept_setAlign a)) k

theorem State.alignRecipe_of {s : State} {w : WaferName} (hw : s.align.wafer = some w) : s.alignRecipe = s.recipe w.slot := by
  simp only [State.alignRecipe, hw]

/-- A missed mark that is tried again (R74). -/
theorem State.markMissed_again {s : State} {w : WaferName} (hw : s.align.wafer = some w)
    (h : (s.align.attempts : Int) + 1 ≤ (s.recipe w.slot).markRetryLimit) :
    s.markMissed = (s.setAlign { s.align with attempts := s.align.attempts + 1 }).askGrab markGrab := by
  have recipe : (s.setAlign { s.align with attempts := s.align.attempts + 1 }).alignRecipe = s.recipe w.slot := by
    rw [State.alignRecipe_of (w := w) (by rw [State.setAlign_align]; exact hw), State.setAlign_recipe]
  unfold State.markMissed
  dsimp only
  rw [recipe]
  exact if_pos (by push_cast; exact h)

/-- The last missed mark (R74). -/
theorem State.markMissed_last {s : State} {w : WaferName} (hw : s.align.wafer = some w)
    (h : (s.recipe w.slot).markRetryLimit < (s.align.attempts : Int) + 1) :
    s.markMissed = (s.setAlign { s.align with attempts := s.align.attempts + 1 }).alignFail .markNotFound := by
  have recipe : (s.setAlign { s.align with attempts := s.align.attempts + 1 }).alignRecipe = s.recipe w.slot := by
    rw [State.alignRecipe_of (w := w) (by rw [State.setAlign_align]; exact hw), State.setAlign_recipe]
  unfold State.markMissed
  dsimp only
  rw [recipe]
  exact if_neg (by push_cast; exact not_le.2 h)

theorem quiet_markMissed {s0 s : State} (h : Quiet s0 s) : Quiet s0 s.markMissed := by
  have counted : Quiet s0 (s.setAlign { s.align with attempts := s.align.attempts + 1 }) := quiet_setAlign h rfl
  unfold State.markMissed
  dsimp only
  split
  · exact quiet_askGrab counted _
  · exact quiet_alignFail counted _

/-- A missed mark with its attempts used up, from the state its cause has left. -/
theorem State.markMissed_fails {s b : State} {w : WaferName} (hw : b.align.wafer = some w)
    (h : (b.recipe w.slot).markRetryLimit < (b.align.attempts : Int) + 1) (revisit : b.revisit = s.revisit)
    (anchor : b.anchor = s.anchor) (state : b.waferState w = s.waferState w) :
    s.AlignFails b.markMissed w .markNotFound := by
  rw [State.markMissed_last hw h]
  refine State.alignFails_of ?_ ((b.setAlign_revisit _).trans revisit) ((b.setAlign_anchor _).trans anchor)
    ((State.waferState_setAlign b _ w).trans state) _
  rw [State.setAlign_align]
  exact hw

@[simp] theorem State.setAlign_grab (s : State) (a : Align) : (s.setAlign a).grab = s.grab := by
  unfold State.setAlign
  dsimp only
  split <;> rfl

/-- A grab asked for with none outstanding is sent (R144). -/
theorem State.askGrab_out {s : State} (h : s.grab.outstanding = none) (a : GrabAsk) : .grab s.grab.tag a ∈ (s.askGrab a).out := by
  rw [State.askGrab, if_neg (by simp [h])]
  exact List.mem_append_right _ List.mem_cons_self

/-- What the command's own effect has sent stays sent. -/
theorem State.after_sent (s : State) {u : State} {o : LinkOrder} (h : o ∈ u.out) : o ∈ (s.after u).out := by
  rw [State.after, State.finish_out]
  exact (quiet_settle (.refl u)).news.sent.subset h

theorem State.after_reviewEnded (s : State) {u : State} {w : WaferName} (h : u.waferState w = some .reviewEnded) :
    (s.after u).waferState w = some .reviewEnded := by
  rw [State.after, State.finish_waferState]
  exact ((quiet_settle (.refl u)).waferState_eq w (by rw [h]; nofun)).trans h

theorem State.begin_endGrab_same (s : State) : s.begin.endGrab.revisit = s.revisit ∧ s.begin.endGrab.anchor = s.anchor
    ∧ s.begin.endGrab.align = s.align ∧ s.begin.endGrab.lots = s.lots := by
  have same := s.begin.endGrab_rest
  exact ⟨State.rest_revisit (s := s.begin) same, (congrArg State.anchor same :), State.rest_align (s := s.begin) same,
    State.rest_lots (s := s.begin) same⟩

/-- A missed mark that is tried again is grabbed for again, at once when no grab waits (R74, R144). -/
theorem State.markMissed_sends {s : State} {w : WaferName} (hw : s.begin.endGrab.align.wafer = some w)
    (again : (s.begin.endGrab.align.attempts : Int) + 1 ≤ (s.begin.endGrab.recipe w.slot).markRetryLimit)
    (free : s.grab.waiting = none) : .grab s.grab.tag markGrab ∈ s.begin.endGrab.markMissed.out := by
  have grab (a : Align) : (s.begin.endGrab.setAlign a).grab = { s.grab with outstanding := none } := by
    rw [State.setAlign_grab, State.endGrab_none (s := s.begin) free]
    rfl
  have sent (a : Align) : .grab s.grab.tag markGrab ∈ ((s.begin.endGrab.setAlign a).askGrab markGrab).out := by
    have asked := State.askGrab_out (s := s.begin.endGrab.setAlign a) (by rw [grab]) markGrab
    rw [grab] at asked
    exact asked
  rw [State.markMissed_again hw again]
  exact sent _

/-- Settles O54: by the kind of the grab and the limits. -/
theorem grabFailuresAreRetried : Obligations.GrabFailuresAreRetried := by
  intro s c o why reason ho hc
  obtain ⟨revisit, anchor, align, lots⟩ := s.begin_endGrab_same
  have recipe (k : Slot) : s.begin.endGrab.recipe k = s.recipe k := by simp only [State.recipe, State.lot, lots]
  have motion : s.begin.endGrab.motion = s.motion := s.begin.endGrab_msgs.2
  have cause : ((∃ code, c = .grabFault o.tag code) ∧ why = .grabFault)
      ∨ (c = .grabTimeout ∧ why = .grabTimeout ∧ o.timer.due s.clock = true) := by
    obtain ⟨fault, hwhy, -⟩ | ⟨timeout, hwhy, -, due⟩ := hc
    · exact .inl ⟨fault, hwhy⟩
    · exact .inr ⟨timeout, hwhy, due⟩
  refine ⟨fun a e hd hk ha hp he hs => ?_, fun w hd hk hg hw => ?_, fun hd hw => ?_, fun early => exec_nothing (by nofun) ?_⟩
  · have found : s.begin.endGrab.storeEntry a.slot a.index = some e := (State.rest_storeEntry s.begin.endGrab_rest _ _).trans he
    have active : s.begin.endGrab.revisit.active = some a := (congrArg Revisit.active revisit).trans ha
    have failed : exec c s = .next (s.after (s.begin.endGrab.failedAttempt a e why)) := by
      rw [exec_grabFailed ho cause hd, hk]
      show Host.Outcome.next (s.after (s.begin.endGrab.revisitGrabFailed why)) = _
      simp only [State.revisitGrabFailed, active, State.activeEntry_of active found hs, if_pos hp]
    obtain ⟨again, last⟩ := State.failedAttempt_facts (a := a) found why
    rw [recipe, motion] at again
    rw [recipe] at last
    refine ⟨fun h => ⟨_, failed, again h⟩, fun h => ⟨_, failed, ?_⟩⟩
    obtain ⟨entry, none, told⟩ := last h
    refine ⟨entry.trans ?_, none, told.trans ?_⟩
    · obtain ⟨-, rfl, rfl⟩ | ⟨-, rfl, rfl, -⟩ := hc <;> rfl
    · rw [s.begin.endGrab_msgs.1]
      rfl
  · have failed : exec c s = .next (s.after s.begin.endGrab.markMissed) := by
      rw [exec_grabFailed ho cause hd, hk]
      show Host.Outcome.next (s.after s.begin.endGrab.alignGrabFailed) = _
      rw [State.alignGrabFailed, align, if_pos hg]
    have hw' : s.begin.endGrab.align.wafer = some w := by rw [align]; exact hw
    have kept : (s.after s.begin.endGrab.markMissed).content.kept = ({ s with out := [] } : State).content.kept :=
      s.after_content_kept ((quiet_markMissed (.refl _)).kept.trans s.begin.endGrab_kept)
    have fails (h : (s.recipe w.slot).markRetryLimit < (s.align.attempts : Int) + 1) :
        s.AlignFails s.begin.endGrab.markMissed w .markNotFound :=
      State.markMissed_fails hw' (by rw [align, recipe]; exact h) revisit anchor (State.waferState_congr lots w)
    refine ⟨fun h free => ⟨_, _, failed, rfl, ?_, ?_, kept⟩, fun h => ⟨_, _, failed, rfl, ?_, ?_, ?_, kept⟩⟩
    · rw [State.markMissed_again hw' (by rw [align, recipe]; exact h), State.rest_align (State.askGrab_rest _ _), State.setAlign_align, align]
    · exact State.after_sent s (State.markMissed_sends hw' (by rw [align, recipe]; exact h) free)
    · exact fails h
    · exact fun attached => s.after_noticed ((fails h).notice attached)
    · exact fun staged => s.after_reviewEnded ((fails h).stage staged)
  · refine ⟨_, exec_grabDiscarded ho ?_ hd, ?_⟩
    · obtain ⟨fault, -⟩ | ⟨timeout, -, -, due⟩ := hc
      · exact .inl fault
      · exact .inr ⟨timeout, due⟩
    · rw [State.finish_content, State.endGrab_none (s := s.begin) hw]
      rfl
  · have ho : s.begin.grab.outstanding = some o := ho
    show s.begin.grabTimesOut = _
    simp only [State.grabTimesOut, ho]
    exact State.whenDue_not s.begin early _

end Sys2Proof.Machine
end

section
/-! SUPPORT. A mark's result: the measurement, the solve and its checks, and the alignment's report: O52. -/

namespace Sys2Proof.Machine

/-! ## What shows the alignment -/

/-- The alignment words of a wafer entry. -/
structure AlignWords where
  state : TransformState
  mark : Nat
  attempts : Nat
  reason : AlignReason
  a : Int
  b : Int
  tx : Int
  ty : Int

def Wafer.alignWords (x : Wafer) : AlignWords := ⟨x.alignState, x.alignMark, x.alignAttempts, x.alignReason, x.a, x.b, x.tx, x.ty⟩

/-- The record and the wafer entries' alignment words are the same. -/
structure SameAlign (s t : State) : Prop where
  align : t.align = s.align
  words : ∀ v, (t.wafer v).map (·.alignWords) = (s.wafer v).map (·.alignWords)

theorem SameAlign.refl (s : State) : SameAlign s s := ⟨rfl, fun _ => rfl⟩

theorem SameAlign.trans {s t u : State} (h : SameAlign s t) (g : SameAlign t u) : SameAlign s u :=
  ⟨g.align.trans h.align, fun v => (g.words v).trans (h.words v)⟩

theorem SameAlign.of {s t : State} (lots : t.lots = s.lots) (align : t.align = s.align) : SameAlign s t :=
  ⟨align, fun v => by rw [State.wafer_congr lots]⟩

theorem SameAlign.rest {s t : State} (h : t.rest = s.rest) : SameAlign s t := .of (State.rest_lots h) (State.rest_align h)

theorem SameAlign.bare {s t : State} (h : t.bare = s.bare) : SameAlign s t := .of (State.bare_lots h) (congrArg State.align h :)

theorem SameAlign.modWafer (s : State) (w : WaferName) {f : Wafer → Wafer} (hf : ∀ x, (f x).alignWords = x.alignWords) :
    SameAlign s (s.modWafer w f) := by
  refine ⟨rfl, fun v => ?_⟩
  rw [State.wafer_modWafer]
  split
  · rw [Option.map_map]
    exact congrArg (fun g => Option.map g (s.wafer v)) (funext hf)
  · rfl

theorem SameAlign.toReviewEnded (s : State) (w : WaferName) : SameAlign s (s.toReviewEnded w) := by
  obtain same | ⟨x, same⟩ := s.toReviewEnded_cases w
  · rw [same]
    exact .refl s
  · rw [same]
    exact SameAlign.trans (t := s.modWafer w fun x => { x with state := .reviewEnded, endClock := s.clock })
      (.modWafer s w fun _ => rfl) (.bare (by simp))

theorem SameAlign.normalEnd (s : State) (w : WaferName) : SameAlign s (s.normalEnd w) := by
  refine SameAlign.trans ?_ (.rest (s.normalEnd_rest w))
  have ended : SameAlign s (s.endReview.modWafer w fun x => { x with pendingResult := some .reviewed }) :=
    SameAlign.trans (t := s.endReview) (.of rfl rfl) (.modWafer _ w fun _ => rfl)
  exact (ended.trans (.toReviewEnded _ w)).trans (.bare (State.enter_bare _ w _))

theorem SameAlign.endActive (s : State) (e : Entry) (st : EntryState) (why : EntryReason) : SameAlign s (s.endActive e st why) :=
  (SameAlign.bare (s.finishEntry_bare e st why)).trans (.of rfl rfl)

theorem SameAlign.beginTarget (s : State) (e : Entry) : SameAlign s (s.beginTarget e) := by
  unfold State.beginTarget
  dsimp only
  split
  · refine SameAlign.trans ?_ (.rest (State.beginMove_rest _ _ _))
    exact .of rfl rfl
  · exact (SameAlign.bare (s.modEntry_bare _ _ _)).trans (.endActive _ e _ _)

theorem SameAlign.takeEntry (s : State) (e : Entry) : SameAlign s (s.takeEntry e) := by
  refine SameAlign.trans ?_ (.beginTarget _ e)
  exact .of rfl rfl

theorem SameAlign.look (s : State) (w : WaferName) : SameAlign s (s.look w) := by
  unfold State.look
  repeat' split
  · exact .takeEntry s _
  · exact .normalEnd s w
  · obtain ⟨-, align, lots⟩ := (s.setRevisit { s.revisit with
        review := .waiting
        timer := if (s.recipe w.slot).postingWait = 0 then none else some (.at s.clock (s.recipe w.slot).postingWait.toNat)
      }).raise_rest_revisit .reviewWait
    exact .of lots align
  · exact .refl s

theorem SameAlign.alignedReport (s : State) : SameAlign s s.alignedReport := by
  unfold State.alignedReport
  repeat' split
  · exact .look s _
  · exact .refl s
  · exact .refl s

/-! ## The review leaves ALIGNING (R79, R139) -/

theorem State.endActive_review (s : State) (e : Entry) (st : EntryState) (why : EntryReason) :
    (s.endActive e st why).revisit.review = s.revisit.review :=
  State.bare_review (t := s.finishEntry e st why) (s.finishEntry_bare e st why)

theorem State.beginTarget_review (s : State) (e : Entry) : (s.beginTarget e).revisit.review = s.revisit.review := by
  unfold State.beginTarget
  dsimp only
  split
  · rw [State.rest_revisit (State.beginMove_rest _ _ _)]
    rfl
  · exact State.endActive_review _ _ _ _

theorem State.takeEntry_review (s : State) (e : Entry) : (s.takeEntry e).revisit.review = .revisiting :=
  State.beginTarget_review _ e

theorem State.look_review {s : State} {w : WaferName} (hw : s.wafer w ≠ none) : (s.look w).revisit.review ≠ .aligning := by
  unfold State.look
  repeat' split
  · rw [State.takeEntry_review]
    nofun
  · rw [(s.normalEnd_facts w).1]
    nofun
  · rw [State.waitForPosts, (State.raise_rest_revisit _ _).1]
    nofun
  · contradiction

theorem State.alignedReport_review {s : State} {w : WaferName} (h : s.revisit.wafer = some w) (hw : s.wafer w ≠ none) :
    s.alignedReport.revisit.review ≠ .aligning := by
  simp only [State.alignedReport, h]
  split
  · exact State.look_review hw
  · assumption

/-! ## What an alignment step keeps -/

/-- All that consequences keep is kept but what the record says. -/
def Aligns (s t : State) : Prop := t.kept = { s.kept with transform := t.align.kept }

theorem Aligns.quiet {s t u : State} (h : Aligns s t) (q : Quiet t u) : Aligns s u := by
  have same : u.align.kept = t.align.kept := congrArg Kept.transform q.kept
  rw [Aligns, q.kept, same, h]

theorem Aligns.refl (s : State) : Aligns s s := rfl

theorem Aligns.trans {s t u : State} (h : Aligns s t) (g : Aligns t u) : Aligns s u := by
  rw [Aligns, g, h]

theorem Aligns.setAlign (s : State) (a : Align) : Aligns s (s.setAlign a) := by
  rw [Aligns, State.kept_setAlign, State.setAlign_align]

theorem Aligns.showTransform (s : State) : Aligns s s.showTransform := by
  rw [Aligns, State.kept_showTransform, State.showTransform_align]
  rfl

theorem Aligns.beginMark (s : State) (n : Nat) : Aligns s (s.beginMark n) := by
  obtain ⟨a, -, -, -, -, -, -, quiet⟩ := s.beginMark_eq n
  exact (Aligns.setAlign s a).quiet quiet

theorem Aligns.alignFail (s : State) (why : AlignReason) : Aligns s (s.alignFail why) :=
  (Aligns.refl s).quiet (quiet_alignFail (.refl s) why)

theorem quiet_alignedReport {s0 s : State} (h : Quiet s0 s) : Quiet s0 s.alignedReport := by
  unfold State.alignedReport
  repeat' split
  · rename_i w _ aligning
    exact quiet_look h w (by rw [aligning]; nofun)
  · exact h
  · exact h

theorem Aligns.toAligned (s : State) : Aligns s s.toAligned :=
  (Aligns.setAlign s _).quiet (quiet_alignedReport (.refl _))

/-- The record's wafer entry shows the record. -/
def State.Shown (s : State) (w : WaferName) : Prop :=
  ∃ y, s.wafer w = some y ∧ y.alignState = s.align.state ∧ y.alignMark = s.align.mark ∧ y.alignAttempts = s.align.attempts
    ∧ y.alignReason = s.align.reason

theorem SameAlign.shown {s t : State} (h : SameAlign s t) {w : WaferName} (hs : s.Shown w) : t.Shown w := by
  obtain ⟨y, hy, state, mark, attempts, reason⟩ := hs
  have words := h.words w
  rw [hy] at words
  obtain ⟨z, hz, same⟩ := Option.map_eq_some_iff.1 words
  refine ⟨z, hz, ?_⟩
  rw [h.align, ← state, ← mark, ← attempts, ← reason]
  exact ⟨congrArg AlignWords.state same, congrArg AlignWords.mark same, congrArg AlignWords.attempts same,
    congrArg AlignWords.reason same⟩

theorem State.shown_setAlign {s : State} {a : Align} {w : WaferName} (hw : a.wafer = some w) (hx : ∃ x, s.wafer w = some x) :
    (s.setAlign a).Shown w := by
  obtain ⟨x, hx⟩ := hx
  refine ⟨x.shows a, ?_, ?_⟩
  · rw [State.setAlign_wafer s hw, if_pos rfl, hx]
    rfl
  · rw [State.setAlign_align]
    exact ⟨rfl, rfl, rfl, rfl⟩

theorem State.shown_alignFail {s : State} {w : WaferName} (hw : s.align.wafer = some w) (hx : ∃ x, s.wafer w = some x)
    (why : AlignReason) : (s.alignFail why).Shown w := by
  obtain ⟨x, hx⟩ := hx
  obtain ⟨align, wafer, -, -⟩ := State.alignFail_records hw why
  refine ⟨_, (wafer w).trans (by rw [if_pos rfl, hx]; rfl), ?_⟩
  obtain ⟨-, state, mark, attempts, reason⟩ := Wafer.reviewEnded_same ({ x.shows { s.align with
    state := .failed, reason := why } with pendingResult := some .alignFailed } : Wafer) (s.alignEnds w why).clock
  rw [align]
  exact ⟨state, mark, attempts, reason⟩

theorem State.exists_wafer_setAlign {s : State} (a : Align) {w : WaferName} (hx : ∃ x, s.wafer w = some x) :
    ∃ x, (s.setAlign a).wafer w = some x :=
  let ⟨_, hx⟩ := hx
  State.wafer_of_waferState (s.waferState_setAlign a w) hx

/-- What an alignment failure looks at is the same. -/
structure SameReview (s t : State) (w : WaferName) : Prop where
  revisit : t.revisit = s.revisit
  anchor : t.anchor = s.anchor
  state : t.waferState w = s.waferState w

theorem SameReview.trans {s t u : State} {w : WaferName} (h : SameReview s t w) (g : SameReview t u w) : SameReview s u w :=
  ⟨g.revisit.trans h.revisit, g.anchor.trans h.anchor, g.state.trans h.state⟩

theorem SameReview.setAlign (s : State) (a : Align) (w : WaferName) : SameReview s (s.setAlign a) w :=
  ⟨s.setAlign_revisit a, s.setAlign_anchor a, s.waferState_setAlign a w⟩

theorem SameReview.showTransform (s : State) (w : WaferName) : SameReview s s.showTransform w := by
  refine ⟨?_, ?_, s.waferState_showTransform w⟩ <;> (unfold State.showTransform; split <;> rfl)

theorem SameReview.wafer {s t : State} {w : WaferName} (h : SameReview s t w) (hx : ∃ x, s.wafer w = some x) : ∃ x, t.wafer w = some x :=
  let ⟨_, hx⟩ := hx
  State.wafer_of_waferState h.state hx

theorem SameReview.alignFails {s b : State} {w : WaferName} (h : SameReview s b w) (hw : b.align.wafer = some w) (why : AlignReason) :
    s.AlignFails (b.alignFail why) w why := State.alignFails_of hw h.revisit h.anchor h.state why

/-- The record at the beginning of a mark's measurement, before its moves are asked for (R71). -/
def Align.toMark (a : Align) (n : Nat) (p : Point) : Align :=
  ({ a with state := .measuring, mark := n, phase := .move, attempts := 0 }).setTarget p

theorem Align.setTarget_wafer (a : Align) (p : Point) : (a.setTarget p).wafer = a.wafer := by
  unfold Align.setTarget
  split <;> rfl

theorem Align.toMark_wafer (a : Align) (n : Nat) (p : Point) : (a.toMark n p).wafer = a.wafer := Align.setTarget_wafer _ p

/-- The point a mark is measured at. -/
def State.markPoint (s : State) (n : Nat) : Point := s.align.convert s.alignRecipe (s.alignRecipe.markAt n)

theorem State.beginMark_inTravel {s : State} {n : Nat} (h : (s.markPoint n).inTravel = true) :
    (s.beginMark n).rest = (s.setAlign { s.align.toMark n (s.markPoint n) with
      xyReq := some ⟨s.motion.nextReq, false⟩, zReq := some ⟨s.motion.nextReq + 1, false⟩ }).rest := by
  have travels : (s.align.convert s.alignRecipe (s.alignRecipe.markAt n)).inTravel = true := h
  unfold State.beginMark
  simp only [travels, if_true, State.requestMove_rest, State.takeRequest_rest]
  rfl

theorem State.beginMark_outOfTravel {s : State} {n : Nat} (h : (s.markPoint n).inTravel = false) :
    s.beginMark n = (s.setAlign { s.align.toMark n (s.markPoint n) with xyReq := none, zReq := none }).alignFail .markTravel := by
  have stays : ¬ (s.align.convert s.alignRecipe (s.alignRecipe.markAt n)).inTravel = true := by
    rw [Bool.not_eq_true]
    exact h
  unfold State.beginMark
  simp only [stays]
  rfl

/-- A mark's measurement begun, from the state its cause has left (R71, R80). -/
theorem State.beginMark_facts {s b : State} {w : WaferName} (hw : b.align.wafer = some w) (h : SameReview s b w) (n : Nat) :
    ((b.markPoint n).inTravel = true → (b.beginMark n).align = { b.align.toMark n (b.markPoint n) with
        xyReq := some ⟨b.motion.nextReq, false⟩, zReq := some ⟨b.motion.nextReq + 1, false⟩ })
    ∧ ((b.markPoint n).inTravel = false → s.AlignFails (b.beginMark n) w .markTravel)
    ∧ ((∃ x, b.wafer w = some x) → (b.beginMark n).Shown w) := by
  have named (x y : Option Awaited) : ({ b.align.toMark n (b.markPoint n) with xyReq := x, zReq := y } : Align).wafer = some w :=
    (b.align.toMark_wafer n _).trans hw
  refine ⟨fun travels => ?_, fun stays => ?_, fun hx => ?_⟩
  · rw [State.rest_align (State.beginMark_inTravel travels), State.setAlign_align]
  · rw [State.beginMark_outOfTravel stays]
    exact (h.trans (.setAlign b _ w)).alignFails (by rw [State.setAlign_align]; exact named _ _) _
  · cases travels : (b.markPoint n).inTravel with
    | true => exact (SameAlign.rest (State.beginMark_inTravel travels)).shown (State.shown_setAlign (named _ _) hx)
    | false =>
      rw [State.beginMark_outOfTravel travels]
      exact State.shown_alignFail (by rw [State.setAlign_align]; exact named _ _) (State.exists_wafer_setAlign _ hx) _

/-! ## The wafer entry's transform words (R69, R77) -/

/-- The transform words that a wafer's entry shows. -/
def State.coefs (s : State) (w : WaferName) : Option (Int × Int × Int × Int) := (s.wafer w).map fun x => (x.a, x.b, x.tx, x.ty)

theorem SameAlign.coefs {s t : State} (h : SameAlign s t) (w : WaferName) : t.coefs w = s.coefs w := by
  have words := congrArg (Option.map fun x : AlignWords => (x.a, x.b, x.tx, x.ty)) (h.words w)
  rw [Option.map_map, Option.map_map] at words
  exact words

theorem State.coefs_of_wafer {s t : State} {w : WaferName} {f : Wafer → Wafer} (h : t.wafer w = (s.wafer w).map f)
    (hf : ∀ x, (f x).a = x.a ∧ (f x).b = x.b ∧ (f x).tx = x.tx ∧ (f x).ty = x.ty) : t.coefs w = s.coefs w := by
  rw [State.coefs, State.coefs, h, Option.map_map]
  refine congrArg (fun g => Option.map g (s.wafer w)) (funext fun x => ?_)
  obtain ⟨a, b, tx, ty⟩ := hf x
  simp only [Function.comp_apply, a, b, tx, ty]

theorem State.coefs_setAlign {s : State} {a : Align} {w : WaferName} (hw : a.wafer = some w) : (s.setAlign a).coefs w = s.coefs w :=
  State.coefs_of_wafer ((s.setAlign_wafer hw w).trans (if_pos rfl)) fun _ => ⟨rfl, rfl, rfl, rfl⟩

theorem Wafer.reviewEnded_coefs (x : Wafer) (clock : Word) : (x.reviewEnded clock).a = x.a ∧ (x.reviewEnded clock).b = x.b
    ∧ (x.reviewEnded clock).tx = x.tx ∧ (x.reviewEnded clock).ty = x.ty := by
  unfold Wafer.reviewEnded
  split <;> exact ⟨rfl, rfl, rfl, rfl⟩

theorem State.coefs_alignFail {s : State} {w : WaferName} (hw : s.align.wafer = some w) (why : AlignReason) :
    (s.alignFail why).coefs w = s.coefs w := by
  obtain ⟨-, wafer, -, -⟩ := State.alignFail_records hw why
  exact State.coefs_of_wafer ((wafer w).trans (if_pos rfl)) fun x => Wafer.reviewEnded_coefs _ _

theorem State.coefs_beginMark {s : State} {w : WaferName} (hw : s.align.wafer = some w) (n : Nat) :
    (s.beginMark n).coefs w = s.coefs w := by
  have named (x y : Option Awaited) : ({ s.align.toMark n (s.markPoint n) with xyReq := x, zReq := y } : Align).wafer = some w :=
    (s.align.toMark_wafer n _).trans hw
  cases travels : (s.markPoint n).inTravel with
  | true =>
    rw [(SameAlign.rest (State.beginMark_inTravel travels)).coefs]
    exact State.coefs_setAlign (named _ _)
  | false =>
    rw [State.beginMark_outOfTravel travels, State.coefs_alignFail (by rw [State.setAlign_align]; exact named _ _)]
    exact State.coefs_setAlign (named _ _)

theorem State.coefs_showTransform {s : State} {w : WaferName} (hw : s.align.wafer = some w) (hx : ∃ x, s.wafer w = some x) :
    s.showTransform.coefs w = some (s.align.a, s.align.b, s.align.tx, s.align.ty) := by
  obtain ⟨x, hx⟩ := hx
  have shown : s.showTransform.wafer w = (s.wafer w).map
      fun x => { x with a := s.align.a, b := s.align.b, tx := s.align.tx, ty := s.align.ty } := by
    simp only [State.showTransform, hw]
    exact (State.wafer_modWafer s w w _).trans (if_pos rfl)
  rw [State.coefs, shown, hx]
  rfl

/-! ## The record ALIGNED (R79) -/

theorem State.toAligned_facts {s : State} {w : WaferName} (hw : s.align.wafer = some w) :
    s.toAligned.align = { s.align with state := .aligned }
    ∧ ((∃ x, s.wafer w = some x) → s.toAligned.Shown w)
    ∧ s.toAligned.coefs w = s.coefs w
    ∧ ∀ y, s.revisit.wafer = some y → s.wafer y ≠ none → s.toAligned.revisit.review ≠ .aligning := by
  have reported := SameAlign.alignedReport (s.setAlign { s.align with state := .aligned })
  refine ⟨reported.align.trans (s.setAlign_align _), fun hx => reported.shown (State.shown_setAlign hw hx), ?_, fun y hy named => ?_⟩
  · exact (reported.coefs w).trans (State.coefs_setAlign hw)
  · refine State.alignedReport_review (w := y) (by rw [State.setAlign_revisit]; exact hy) ?_
    rw [State.setAlign_wafer s (a := { s.align with state := .aligned }) hw]
    split
    · cases hn : s.wafer y with
      | none => exact absurd hn named
      | some x => nofun
    · exact named

/-! ## The solve (R75 to R77) -/

/-- The state in which the solve of the record's two marks has been handed to the row and the record. -/
def State.solvedWith (s : State) (v : Solved) : State :=
  ((s.handSolve v).setAlign { s.align with a := v.a, b := v.b, tx := v.tx, ty := v.ty }).showTransform

/-- The solve of the two measured marks. -/
def State.solution (s : State) : Solved := solve (s.alignRecipe.turnedMark 1) (s.alignRecipe.turnedMark 2)
  (s.align.m1.measured.getD ⟨0, 0⟩) (s.align.m2.measured.getD ⟨0, 0⟩)

theorem State.solveMarks_fails {s : State} {why : AlignReason} (h : solveCheck s.alignRecipe s.solution = some why) :
    s.solveMarks = (s.handSolve s.solution).alignFail why := by
  have h : solveCheck s.alignRecipe (solve (s.alignRecipe.turnedMark 1) (s.alignRecipe.turnedMark 2)
    (s.align.m1.measured.getD ⟨0, 0⟩) (s.align.m2.measured.getD ⟨0, 0⟩)) = some why := h
  simp only [State.solveMarks, h]
  rfl

theorem State.handSolve_align (s : State) (v : Solved) : (s.handSolve v).align = s.align := by
  unfold State.handSolve
  split <;> rfl

theorem State.solveMarks_passes {s : State} (h : solveCheck s.alignRecipe s.solution = none) :
    s.solveMarks = if s.alignRecipe.markCount = 3 then (s.solvedWith s.solution).beginMark 3 else (s.solvedWith s.solution).toAligned := by
  have h : solveCheck s.alignRecipe (solve (s.alignRecipe.turnedMark 1) (s.alignRecipe.turnedMark 2)
    (s.align.m1.measured.getD ⟨0, 0⟩) (s.align.m2.measured.getD ⟨0, 0⟩)) = none := h
  simp only [State.solveMarks, h, State.handSolve_align]
  rfl

theorem State.handSolve_of {s : State} {w : WaferName} (hw : s.align.wafer = some w) (v : Solved) :
    s.handSolve v = s.enter w fun r => { r with scale := v.scaleFigure, rotation := v.rotationFigure } := by
  simp only [State.handSolve, hw]

/-- What the solve hands on, before its checks' outcome (R77, R82). -/
theorem State.solvedWith_facts {s b : State} {w : WaferName} (hw : b.align.wafer = some w) (h : SameReview s b w) (v : Solved) :
    (b.solvedWith v).align = { b.align with a := v.a, b := v.b, tx := v.tx, ty := v.ty }
    ∧ SameReview s (b.solvedWith v) w ∧ Aligns (b.handSolve v) (b.solvedWith v)
    ∧ (b.solvedWith v).motion = b.motion ∧ (∀ k, (b.solvedWith v).recipe k = b.recipe k)
    ∧ ((∃ x, b.wafer w = some x) → (b.solvedWith v).coefs w = some (v.a, v.b, v.tx, v.ty)) := by
  have entered : SameReview b (b.handSolve v) w := by
    rw [State.handSolve_of hw]
    exact ⟨rfl, rfl, rfl⟩
  have same : SameReview (b.handSolve v) (b.solvedWith v) w := (SameReview.setAlign _ _ w).trans (.showTransform _ w)
  have aligns : Aligns (b.handSolve v) (b.solvedWith v) := (Aligns.setAlign _ _).trans (.showTransform _)
  have align : (b.solvedWith v).align = { b.align with a := v.a, b := v.b, tx := v.tx, ty := v.ty } :=
    (State.showTransform_align _).trans (State.setAlign_align _ _)
  refine ⟨align, (h.trans entered).trans same, aligns, ?_, fun k => ?_, fun hx => ?_⟩
  · unfold State.solvedWith State.showTransform State.setAlign State.handSolve
    dsimp only
    repeat' split
    all_goals rfl
  · refine (State.recipe_of_kept ?_ k).trans (?_ : (b.handSolve v).recipe k = b.recipe k)
    · exact congrArg Kept.lots aligns
    · rw [State.handSolve_of hw]
      rfl
  · refine (State.coefs_showTransform (w := w) (by rw [State.setAlign_align]; exact hw) ?_).trans ?_
    · exact (entered.trans (.setAlign _ _ w)).wafer hx
    · rw [State.setAlign_align]

/-! ## A mark measured (R74) -/

/-- The point measured in the record's current mark. -/
def State.measured (s : State) (p : Point) : State := s.setAlign (s.align.setMeasured p)

/-- A measurement changes the marks only. -/
theorem Align.setMeasured_same (a : Align) (p : Point) : (a.setMeasured p).wafer = a.wafer ∧ (a.setMeasured p).mark = a.mark
    ∧ ∀ c q, (a.setMeasured p).convert c q = a.convert c q := by
  unfold Align.setMeasured
  split <;> exact ⟨rfl, rfl, fun _ _ => rfl⟩

theorem State.measured_align (s : State) (p : Point) : (s.measured p).align = s.align.setMeasured p := s.setAlign_align _

theorem State.measured_wafer {s : State} {w : WaferName} (hw : s.align.wafer = some w) (p : Point) :
    (s.measured p).align.wafer = some w := by
  rw [State.measured_align, (s.align.setMeasured_same p).1]
  exact hw

theorem State.measured_recipe {s : State} {w : WaferName} (hw : s.align.wafer = some w) (p : Point) :
    (s.measured p).alignRecipe = s.recipe w.slot := by
  rw [State.alignRecipe_of (State.measured_wafer hw p)]
  exact s.setAlign_recipe _ _

theorem State.measured_motion (s : State) (p : Point) : (s.measured p).motion = s.motion := by
  unfold State.measured State.setAlign
  dsimp only
  split <;> rfl

theorem State.measured_markPoint {s : State} {w : WaferName} (hw : s.align.wafer = some w) (p : Point) (n : Nat) :
    (s.measured p).markPoint n = s.align.convert (s.recipe w.slot) ((s.recipe w.slot).markAt n) := by
  rw [State.markPoint, State.measured_recipe hw, State.measured_align, (s.align.setMeasured_same p).2.2]

theorem State.markMeasured_one {s : State} (h : s.align.mark = 1) (ox oy : Int) :
    s.markMeasured ox oy = (s.measured ⟨s.align.target.x + ox, s.align.target.y + oy⟩).beginMark 2 := by
  have mark : (s.measured ⟨s.align.target.x + ox, s.align.target.y + oy⟩).align.mark = 1 := by
    rw [State.measured_align, (Align.setMeasured_same _ _).2.1, h]
  unfold State.markMeasured
  dsimp only
  split
  · rfl
  · rename_i two; exact absurd (mark.symm.trans two) (by decide)
  · rename_i one _; exact absurd mark one

theorem State.markMeasured_two {s : State} (h : s.align.mark = 2) (ox oy : Int) :
    s.markMeasured ox oy = (s.measured ⟨s.align.target.x + ox, s.align.target.y + oy⟩).solveMarks := by
  have mark : (s.measured ⟨s.align.target.x + ox, s.align.target.y + oy⟩).align.mark = 2 := by
    rw [State.measured_align, (Align.setMeasured_same _ _).2.1, h]
  unfold State.markMeasured
  dsimp only
  split
  · rename_i one; exact absurd (mark.symm.trans one) (by decide)
  · rfl
  · rename_i _ two; exact absurd mark two

theorem State.markMeasured_later {s : State} (h : s.align.mark ≠ 1) (h2 : s.align.mark ≠ 2) (ox oy : Int) :
    s.markMeasured ox oy = (s.measured ⟨s.align.target.x + ox, s.align.target.y + oy⟩).checkResidual := by
  have mark : (s.measured ⟨s.align.target.x + ox, s.align.target.y + oy⟩).align.mark = s.align.mark := by
    rw [State.measured_align, (Align.setMeasured_same _ _).2.1]
  unfold State.markMeasured
  dsimp only
  split
  · rename_i one; exact absurd (mark.symm.trans one) h
  · rename_i two; exact absurd (mark.symm.trans two) h2
  · rfl

/-- The other marks of a record whose first mark is measured. -/
theorem Align.measured_one {a : Align} (h : a.mark = 1) (p : Point) : a.setMeasured p = { a with m1 := { a.m1 with measured := some p } } := by
  simp only [Align.setMeasured, h]

theorem Align.measured_two {a : Align} (h : a.mark = 2) (p : Point) : a.setMeasured p = { a with m2 := { a.m2 with measured := some p } } := by
  simp only [Align.setMeasured, h]

theorem Align.measured_three {a : Align} (h : a.mark = 3) (p : Point) :
    a.setMeasured p = { a with m3 := { a.m3 with measured := some p } } := by
  simp only [Align.setMeasured, h]

/-- Mark 1 measured: mark 2 begins, or its target is out of travel (R71, R80). -/
theorem State.markOne_facts {s b : State} {w : WaferName} (hw : b.align.wafer = some w) (h : SameReview s b w) (hm : b.align.mark = 1)
    {ox oy : Int} {p q : Point} (hp : p = ⟨b.align.target.x + ox, b.align.target.y + oy⟩)
    (hq : q = b.align.convert (b.recipe w.slot) ((b.recipe w.slot).markAt 2)) :
    (q.inTravel = true → (b.markMeasured ox oy).align = { b.align with
        state := .measuring, mark := 2, phase := .move, attempts := 0
        m1 := { b.align.m1 with measured := some p }, m2 := { b.align.m2 with target := some q }
        xyReq := some ⟨b.motion.nextReq, false⟩, zReq := some ⟨b.motion.nextReq + 1, false⟩ })
    ∧ (q.inTravel = false → s.AlignFails (b.markMeasured ox oy) w .markTravel)
    ∧ ((∃ x, b.wafer w = some x) → (b.markMeasured ox oy).Shown w) ∧ Aligns b (b.markMeasured ox oy) := by
  have measured := SameReview.setAlign b (b.align.setMeasured p) w
  obtain ⟨travels, stays, shown⟩ := State.beginMark_facts (State.measured_wafer hw p) (h.trans measured) 2
  rw [State.measured_markPoint hw, ← hq, State.measured_align, Align.measured_one hm, State.measured_motion] at travels
  rw [State.measured_markPoint hw, ← hq] at stays
  rw [State.markMeasured_one hm, ← hp]
  exact ⟨travels, stays, fun hx => shown (measured.wafer hx), (Aligns.setAlign b _).trans (.beginMark _ 2)⟩

/-- Mark 3 measured: the residual decides (R78). -/
theorem State.markThree_facts {s b : State} {w : WaferName} (hw : b.align.wafer = some w) (h : SameReview s b w) (hm : b.align.mark = 3)
    {ox oy : Int} {p : Point} (hp : p = ⟨b.align.target.x + ox, b.align.target.y + oy⟩) {r : Int}
    (hr : r = residual p (b.align.convert (b.recipe w.slot) ((b.recipe w.slot).markAt 3))) :
    (r ≤ (b.recipe w.slot).residualTolerance → (b.markMeasured ox oy).align = { b.align with
        state := .aligned, m3 := { b.align.m3 with measured := some p } }
      ∧ ∀ y, b.revisit.wafer = some y → b.wafer y ≠ none → (b.markMeasured ox oy).revisit.review ≠ .aligning)
    ∧ ((b.recipe w.slot).residualTolerance < r → s.AlignFails (b.markMeasured ox oy) w .residual)
    ∧ ((∃ x, b.wafer w = some x) → (b.markMeasured ox oy).Shown w) ∧ Aligns b (b.markMeasured ox oy) := by
  have measured := SameReview.setAlign b (b.align.setMeasured p) w
  have named := State.measured_wafer hw p
  have checked : (b.measured p).checkResidual
      = if r ≤ (b.recipe w.slot).residualTolerance then (b.measured p).toAligned else (b.measured p).alignFail .residual := by
    unfold State.checkResidual
    dsimp only
    rw [State.measured_recipe hw, State.measured_align, (b.align.setMeasured_same p).2.2, Align.measured_three hm, hr]
    rfl
  obtain ⟨aligned, shown, -, review⟩ := State.toAligned_facts named
  rw [State.markMeasured_later (by rw [hm]; decide) (by rw [hm]; decide), ← hp, checked]
  refine ⟨fun fits => ?_, fun exceeds => ?_, fun hx => ?_, ?_⟩
  · rw [if_pos fits]
    refine ⟨?_, fun y hy hn => review y ((congrArg Revisit.wafer measured.revisit).trans hy) ?_⟩
    · rw [aligned, State.measured_align, Align.measured_three hm]
    · refine fun none => hn ?_
      rw [State.measured, State.setAlign_wafer b (a := b.align.setMeasured p) ((b.align.setMeasured_same p).1.trans hw)] at none
      split at none
      · exact Option.map_eq_none_iff.1 none
      · exact none
  · rw [if_neg (not_le.2 exceeds)]
    exact (h.trans measured).alignFails named _
  · split
    · exact shown (measured.wafer hx)
    · exact State.shown_alignFail named (measured.wafer hx) _
  · refine (Aligns.setAlign b (b.align.setMeasured p)).trans ?_
    split
    · exact .toAligned _
    · exact .alignFail _ _

/-- The row's figures of a solve. -/
def Row.solved (v : Solved) (r : Row) : Row := { r with scale := v.scaleFigure, rotation := v.rotationFigure }

/-- A row's figures and the record are kept apart. -/
theorem State.enter_setAlign_kept (s : State) (a : Align) (w : WaferName) (f : Row → Row) :
    ((s.setAlign a).enter w f).kept = { (s.enter w f).kept with transform := ((s.setAlign a).enter w f).align.kept } := by
  unfold State.setAlign
  dsimp only
  split
  · exact State.kept_modWafer ({ s with align := a } |>.enter w f) _ _
  · rfl

/-- Mark 2 measured: the solve's checks decide, and a third mark may follow (R75 to R77, R82). -/
theorem State.markTwo_facts {s b : State} {w : WaferName} (hw : b.align.wafer = some w) (h : SameReview s b w) (hm : b.align.mark = 2)
    {ox oy : Int} {p : Point} {v : Solved} (hp : p = ⟨b.align.target.x + ox, b.align.target.y + oy⟩)
    (hv : v = solve ((b.recipe w.slot).turnedMark 1) ((b.recipe w.slot).turnedMark 2) (b.align.m1.measured.getD ⟨0, 0⟩) p) :
    (∀ q, solveCheck (b.recipe w.slot) v = none → (b.recipe w.slot).markCount = 3 →
        q = fineTransform v.a v.b v.tx v.ty ((b.recipe w.slot).turnedMark 3) →
      (q.inTravel = true → (b.markMeasured ox oy).align = { b.align with
          state := .measuring, mark := 3, phase := .move, attempts := 0, a := v.a, b := v.b, tx := v.tx, ty := v.ty
          m2 := { b.align.m2 with measured := some p }, m3 := { b.align.m3 with target := some q }
          xyReq := some ⟨b.motion.nextReq, false⟩, zReq := some ⟨b.motion.nextReq + 1, false⟩ })
      ∧ (q.inTravel = false → s.AlignFails (b.markMeasured ox oy) w .markTravel))
    ∧ (solveCheck (b.recipe w.slot) v = none → (b.recipe w.slot).markCount ≠ 3 → (b.markMeasured ox oy).align = { b.align with
          state := .aligned, a := v.a, b := v.b, tx := v.tx, ty := v.ty, m2 := { b.align.m2 with measured := some p } }
      ∧ ∀ y, b.revisit.wafer = some y → b.wafer y ≠ none → (b.markMeasured ox oy).revisit.review ≠ .aligning)
    ∧ (solveCheck (b.recipe w.slot) v = none → (∃ x, b.wafer w = some x) →
      (b.markMeasured ox oy).coefs w = some (v.a, v.b, v.tx, v.ty))
    ∧ (∀ why, solveCheck (b.recipe w.slot) v = some why → s.AlignFails (b.markMeasured ox oy) w why)
    ∧ ((∃ x, b.wafer w = some x) → (b.markMeasured ox oy).Shown w)
    ∧ ∃ d : State, d.kept = { (b.enter w (Row.solved v)).kept with transform := d.align.kept } ∧ Aligns d (b.markMeasured ox oy) := by
  have measured := SameReview.setAlign b (b.align.setMeasured p) w
  have named := State.measured_wafer hw p
  have recipe := State.measured_recipe hw p
  have solution : (b.measured p).solution = v := by
    rw [State.solution, recipe, State.measured_align, Align.measured_two hm, hv]
    rfl
  have entered : (b.measured p).handSolve v = (b.measured p).enter w (Row.solved v) := State.handSolve_of named v
  obtain ⟨align, review, aligns, motion, recipes, coefs⟩ := State.solvedWith_facts named (h.trans measured) v
  have given : ((b.measured p).solvedWith v).align.wafer = some w := by rw [align]; exact named
  have again : ((b.measured p).solvedWith v).alignRecipe = b.recipe w.slot := by
    rw [State.alignRecipe_of given, recipes, ← State.alignRecipe_of named, recipe]
  have point : ((b.measured p).solvedWith v).markPoint 3 = fineTransform v.a v.b v.tx v.ty ((b.recipe w.slot).turnedMark 3) := by
    rw [State.markPoint, again, align]
    rfl
  have passes (ok : solveCheck (b.recipe w.slot) v = none) : b.markMeasured ox oy = if (b.recipe w.slot).markCount = 3
      then ((b.measured p).solvedWith v).beginMark 3 else ((b.measured p).solvedWith v).toAligned := by
    rw [State.markMeasured_two hm, ← hp, State.solveMarks_passes (by rw [recipe, solution]; exact ok), solution, recipe]
  have fails {why : AlignReason} (bad : solveCheck (b.recipe w.slot) v = some why) :
      b.markMeasured ox oy = ((b.measured p).enter w (Row.solved v)).alignFail why := by
    rw [State.markMeasured_two hm, ← hp, State.solveMarks_fails (by rw [recipe, solution]; exact bad), solution, entered]
  obtain ⟨travels, stays, shownMark⟩ := State.beginMark_facts given review 3
  obtain ⟨toAligned, shownAligned, coefsAligned, left⟩ := State.toAligned_facts given
  have there (hx : ∃ x, b.wafer w = some x) : ∃ x, ((b.measured p).solvedWith v).wafer w = some x := by
    obtain ⟨x, hx⟩ := measured.wafer hx
    refine State.wafer_of_waferState (s := b.measured p) ?_ hx
    exact review.state.trans (h.trans measured).state.symm
  have waferThere {y : WaferName} (hn : b.wafer y ≠ none) : ((b.measured p).solvedWith v).wafer y ≠ none := by
    cases hx : b.wafer y with
    | none => exact absurd hx hn
    | some x =>
      obtain ⟨z, hz⟩ := State.wafer_of_waferState (s := b) (b := (b.measured p).solvedWith v) (by
        rw [State.solvedWith, State.waferState_showTransform, State.waferState_setAlign, entered]
        exact State.waferState_setAlign b _ y) hx
      rw [hz]
      nofun
  refine ⟨fun q ok three hq => ?_, fun ok notThree => ?_, fun ok hx => ?_, fun why bad => ?_, fun hx => ?_,
    (b.measured p).handSolve v, ?_, ?_⟩
  · rw [point, ← hq] at travels stays
    rw [passes ok, if_pos three]
    refine ⟨fun fits => ?_, stays⟩
    rw [travels fits, align, motion, State.measured_motion, State.measured_align, Align.measured_two hm]
    rfl
  · rw [passes ok, if_neg notThree]
    refine ⟨?_, fun y hy hn => left y ?_ (waferThere hn)⟩
    · rw [toAligned, align, State.measured_align, Align.measured_two hm]
    · exact (congrArg Revisit.wafer (review.revisit.trans h.revisit.symm)).trans hy
  · rw [passes ok]
    split
    · rw [State.coefs_beginMark given]
      exact coefs (measured.wafer hx)
    · rw [coefsAligned]
      exact coefs (measured.wafer hx)
  · rw [fails bad]
    exact ((h.trans measured).trans ⟨rfl, rfl, rfl⟩ : SameReview s ((b.measured p).enter w (Row.solved v)) w).alignFails named _
  · cases check : solveCheck (b.recipe w.slot) v with
    | none =>
      rw [passes check]
      split
      · exact shownMark (there hx)
      · exact shownAligned (there hx)
    | some why =>
      rw [fails check]
      exact State.shown_alignFail (s := (b.measured p).enter w (Row.solved v)) named (measured.wafer hx) _
  · rw [entered]
    exact State.enter_setAlign_kept b _ w _
  · cases check : solveCheck (b.recipe w.slot) v with
    | none =>
      rw [passes check]
      refine aligns.trans ?_
      split
      · exact .beginMark _ 3
      · exact .toAligned _
    | some why =>
      rw [fails check, entered]
      exact .alignFail _ _

theorem withinAbs_iff {m x : Int} : withinAbs m x = true ↔ (x.natAbs : Int) ≤ m := by
  simp only [withinAbs, within, decide_eq_true_eq]
  omega

/-- MARK_RESULT of the outstanding mark grab is the alignment unit's (R74, R145). -/
theorem exec_markResult {s : State} {o : Grab} (ho : s.grab.outstanding = some o) (hd : o.discard = false) (hk : o.ask.kind = .mark)
    (found : Bool) (ox oy : Int) :
    exec (.markResult o.tag found ox oy) s = .next (s.after (s.begin.endGrab.alignResult found ox oy)) := by
  have ho : s.begin.grab.outstanding = some o := ho
  refine exec_after (by nofun) ?_
  show s.begin.markReply o.tag found ox oy = _
  simp only [State.markReply, State.judgeGrab_taken ho hd (fits := fun k => k == .mark) (by rw [hk]; rfl)]

theorem State.alignResult_measured {s : State} (hg : s.align.grabbing = true) {ox oy : Int} (hx : ox.natAbs ≤ 500000)
    (hy : oy.natAbs ≤ 500000) : s.alignResult true ox oy = s.markMeasured ox oy := by
  rw [State.alignResult, if_pos hg, if_pos ⟨rfl, withinAbs_iff.2 (Int.ofNat_le.2 hx), withinAbs_iff.2 (Int.ofNat_le.2 hy)⟩]

theorem State.alignResult_missed {s : State} (hg : s.align.grabbing = true) {found : Bool} {ox oy : Int}
    (h : found = false ∨ 500000 < ox.natAbs ∨ 500000 < oy.natAbs) : s.alignResult found ox oy = s.markMissed := by
  rw [State.alignResult, if_pos hg, if_neg]
  rintro ⟨hf, hx, hy⟩
  have hx := withinAbs_iff (m := 500000).1 hx
  have hy := withinAbs_iff (m := 500000).1 hy
  obtain h | h | h := h
  · rw [hf] at h
    cases h
  · omega
  · omega

theorem Aligns.after {s b u : State} (h : Aligns b u) (hb : b.kept = s.begin.kept) :
    (s.after u).content.kept = ({ s with out := [], align := u.align } : State).content.kept := by
  refine s.after_content_kept ?_
  rw [h, hb]
  rfl

/-- A missed mark, its record and its wafer's entry. -/
theorem State.markMissed_facts {b : State} {w : WaferName} (hw : b.align.wafer = some w) :
    ((b.align.attempts : Int) + 1 ≤ (b.recipe w.slot).markRetryLimit →
      b.markMissed.align = { b.align with attempts := b.align.attempts + 1 })
    ∧ ((b.recipe w.slot).markRetryLimit < (b.align.attempts : Int) + 1 → b.markMissed.align.attempts = b.align.attempts + 1)
    ∧ ((∃ x, b.wafer w = some x) → b.markMissed.Shown w) := by
  have named : (b.setAlign { b.align with attempts := b.align.attempts + 1 }).align.wafer = some w := by
    rw [State.setAlign_align]
    exact hw
  refine ⟨fun again => ?_, fun last => ?_, fun hx => ?_⟩
  · rw [State.markMissed_again hw again, State.rest_align (State.askGrab_rest _ _), State.setAlign_align]
  · rw [State.markMissed_last hw last, (State.alignFail_records named _).1, State.setAlign_align]
  · obtain again | last := le_or_gt ((b.align.attempts : Int) + 1) (b.recipe w.slot).markRetryLimit
    · rw [State.markMissed_again hw again]
      exact (SameAlign.rest (State.askGrab_rest _ _)).shown (State.shown_setAlign hw hx)
    · rw [State.markMissed_last hw last]
      exact State.shown_alignFail named (State.exists_wafer_setAlign _ hx) _

/-- Whatever its outcome, a mark's result leaves the wafer's entry showing the record (R67). -/
theorem State.alignResult_shown {b : State} {w : WaferName} (hw : b.align.wafer = some w) (hg : b.align.grabbing = true)
    (hx : ∃ x, b.wafer w = some x) (found : Bool) (ox oy : Int) : (b.alignResult found ox oy).Shown w := by
  have same : SameReview b b w := ⟨rfl, rfl, rfl⟩
  unfold State.alignResult
  rw [if_pos hg]
  split
  · by_cases one : b.align.mark = 1
    · exact (State.markOne_facts hw same one rfl rfl).2.2.1 hx
    · by_cases two : b.align.mark = 2
      · exact (State.markTwo_facts hw same two rfl rfl).2.2.2.2.1 hx
      · have named := State.measured_wafer hw ⟨b.align.target.x + ox, b.align.target.y + oy⟩
        have there := State.exists_wafer_setAlign (b.align.setMeasured ⟨b.align.target.x + ox, b.align.target.y + oy⟩) hx
        rw [State.markMeasured_later one two]
        unfold State.checkResidual
        dsimp only
        split
        · exact (State.toAligned_facts named).2.1 there
        · exact State.shown_alignFail named there _
  · exact (State.markMissed_facts hw).2.2 hx

theorem State.endGrab_enter_kept (s : State) (w : WaferName) (f : Row → Row) : (s.endGrab.enter w f).kept = (s.enter w f).kept := by
  unfold State.endGrab
  dsimp only
  split <;> rfl

/-- Settles O52: by the mark the result is of, and whether it was found. -/
theorem markResultsAlignTheWafer : Obligations.MarkResultsAlignTheWafer := by
  intro s o w found ox oy c p v ho hd hk hg hw hc hp hv
  obtain ⟨revisit, anchor, align, lots⟩ := s.begin_endGrab_same
  have motion : s.begin.endGrab.motion = s.motion := s.begin.endGrab_msgs.2
  have recipe (k : Slot) : s.begin.endGrab.recipe k = s.recipe k := by simp only [State.recipe, State.lot, lots]
  have wafer (y : WaferName) : s.begin.endGrab.wafer y = s.wafer y := State.wafer_congr lots y
  have kept := s.begin.endGrab_kept
  have same : SameReview s s.begin.endGrab w := ⟨revisit, anchor, State.waferState_congr lots w⟩
  have named : s.begin.endGrab.align.wafer = some w := by rw [align]; exact hw
  have grabbing : s.begin.endGrab.align.grabbing = true := by rw [align]; exact hg
  have review {u : State} (h : ∀ y, s.begin.endGrab.revisit.wafer = some y → s.begin.endGrab.wafer y ≠ none → u.revisit.review ≠ .aligning) :
      ∀ y, s.revisit.wafer = some y → s.wafer y ≠ none → u.revisit.review ≠ .aligning := by
    intro y hy hn
    exact h y ((congrArg Revisit.wafer revisit).trans hy) (by rw [wafer]; exact hn)
  subst hc
  refine ⟨_, _, exec_markResult ho hd hk found ox oy, rfl, fun x hx => ?_, fun hf hx hy => ?_, fun miss => ?_⟩
  · exact State.alignResult_shown named grabbing ⟨x, (wafer w).trans hx⟩ found ox oy
  · subst hf
    rw [State.alignResult_measured grabbing hx hy]
    have here : p = ⟨s.begin.endGrab.align.target.x + ox, s.begin.endGrab.align.target.y + oy⟩ := by rw [align]; exact hp
    refine ⟨fun q one hq => ?_, fun two => ?_, fun three => ?_⟩
    · obtain ⟨travels, stays, -, aligns⟩ := State.markOne_facts (q := q) named same (by rw [align]; exact one) here
        (by rw [align, recipe]; exact hq)
      rw [align, motion] at travels
      exact ⟨travels, stays, aligns.after kept⟩
    · obtain ⟨third, done, coefs, fails, -, d, entered, aligns⟩ := State.markTwo_facts (v := v) named same (by rw [align]; exact two) here
        (by rw [align, recipe]; exact hv)
      rw [recipe] at third done coefs fails
      rw [align, motion] at third
      rw [align] at done
      refine ⟨third, fun ok few => ⟨(done ok few).1, review (done ok few).2⟩, fun ok x hx => ?_, fails, ?_⟩
      · obtain ⟨y, hy, words⟩ := Option.map_eq_some_iff.1 (coefs ok ⟨x, (wafer w).trans hx⟩)
        simp only [Prod.mk.injEq] at words
        exact ⟨y, hy, words⟩
      · refine s.after_content_kept ?_
        rw [aligns, entered]
        exact congrArg (fun k : Kept => { k with transform := (s.begin.endGrab.markMeasured ox oy).align.kept })
          (s.begin.endGrab_enter_kept w (Row.solved v))
    · obtain ⟨fits, exceeds, -, aligns⟩ := State.markThree_facts named same (by rw [align]; exact three) here rfl
      rw [align, recipe] at fits exceeds
      exact ⟨fun h => ⟨(fits h).1, review (fits h).2⟩, exceeds, aligns.after kept⟩
  · rw [State.alignResult_missed grabbing miss]
    obtain ⟨again, last, -⟩ := State.markMissed_facts named
    rw [align, recipe] at again last
    refine ⟨fun h => ⟨again h, fun free => ?_⟩, fun h => ⟨?_, last h⟩, ?_⟩
    · exact State.after_sent s (State.markMissed_sends named (by rw [align, recipe]; exact h) free)
    · exact State.markMissed_fails named (by rw [align, recipe]; exact h) revisit anchor same.state
    · exact Aligns.after ((Aligns.refl _).quiet (quiet_markMissed (.refl _))) kept

end Sys2Proof.Machine
end

section
/-! SUPPORT. A frame's arrival in a measurement, and what it makes of the autofocus request: O56. -/

namespace Sys2Proof.Machine

/-! ## The search (R106) -/

/-- The positions before the next one in range are skipped, each using an index and a budget. -/
theorem pickSearch_next {c : Recipe} {centre : Int} {m : Nat} (hm : within c.zLow c.zHigh (searchPosition centre c.searchStep m) = true) :
    ∀ (budget index : Nat), index < m → m ≤ index + budget →
      (∀ n, index < n → n < m → within c.zLow c.zHigh (searchPosition centre c.searchStep n) = false) →
      pickSearch c centre budget index = some (searchPosition centre c.searchStep m, m, index + budget - m) := by
  intro budget
  induction budget with
  | zero => intro index below atMost; omega
  | succ budget ih =>
    intro index below atMost skipped
    rw [pickSearch]
    obtain rfl | later := Nat.eq_or_lt_of_le (Nat.succ_le_of_lt below)
    · rw [if_pos hm]
      exact congrArg some (by rw [show index + (budget + 1) - (index + 1) = budget by omega])
    · rw [if_neg (by rw [skipped (index + 1) (by omega) later]; exact Bool.false_ne_true)]
      rw [ih (index + 1) later (by omega) fun n hn => skipped n (by omega)]
      rw [show index + 1 + budget - m = index + (budget + 1) - m by omega]

/-- No position in range is left in the budget. -/
theorem pickSearch_none {c : Recipe} {centre : Int} : ∀ (budget index : Nat),
    (∀ n, index < n → n ≤ index + budget → within c.zLow c.zHigh (searchPosition centre c.searchStep n) = false) →
    pickSearch c centre budget index = none := by
  intro budget
  induction budget with
  | zero => intro _ _; rfl
  | succ budget ih =>
    intro index out
    rw [pickSearch, if_neg (by rw [out (index + 1) (by omega) (by omega)]; exact Bool.false_ne_true)]
    exact ih (index + 1) fun n hn hle => out n (by omega) (by omega)

theorem within_iff {lo hi x : Int} : within lo hi x = true ↔ lo ≤ x ∧ x ≤ hi := decide_eq_true_iff

theorem within_false_iff {lo hi x : Int} : within lo hi x = false ↔ x < lo ∨ hi < x := by
  rw [← Bool.not_eq_true, within_iff]
  omega

/-! ## The Z request (R99, R104) -/

theorem State.waitMove_af (s : State) (w : WaitingMove) : (s.waitMove w).af = s.af := by
  unfold State.waitMove
  dsimp only
  split <;> rfl

/-- A move request leaves the autofocus unit as it is. -/
theorem State.requestMove_af (s : State) (t : MoveTarget) (r : Requester) : (s.requestMove t r).af = s.af := by
  unfold State.requestMove State.judgeMove
  repeat' split
  all_goals first | rfl | exact s.waitMove_af _

theorem State.focusMove_af (s : State) (st : FocusState) (z : Int) :
    (s.focusMove st z).af = { s.af with state := st, zReq := some s.motion.nextReq } := State.requestMove_af _ _ _

/-- A height in travel asked for while Z is IDLE is sent at once (R49, R52). -/
theorem State.focusMove_sent {s : State} (idle : s.motion.z.state = .idle) {z : Int} (low : 0 ≤ z) (high : z ≤ 3000000) (st : FocusState) :
    (s.focusMove st z).motion.zGroup.order
      = some ⟨s.motion.tag, .move (.z z), ⟨s.clock, 2000⟩, [⟨.autofocus, s.motion.nextReq⟩]⟩ := by
  let b := (s.setAf { s.af with state := st, zReq := some s.motion.nextReq }).takeRequest
  have check : b.moveCheck (.z z) = none := by
    have free : b.motion.groupIdle .z = true := decide_eq_true idle
    have travels : (MoveTarget.z z).inTravel = true := within_iff.2 ⟨low, high⟩
    simp [State.moveCheck, MoveTarget.group, free, travels]
  show (b.requestMove (.z z) ⟨.autofocus, s.motion.nextReq⟩).motion.zGroup.order = _
  have asked : b.requestMove (.z z) ⟨.autofocus, s.motion.nextReq⟩ = b.sendMove (.z z) [⟨.autofocus, s.motion.nextReq⟩] := by
    have still : b.motion.stateOf (MoveTarget.z z).group = .idle := idle
    simp only [State.requestMove, still, State.judgeMove, check]
  rw [asked]
  rfl

/-! ## A measurement's end (R103 to R107) -/

/-- A lit measurement in the window: the first wants a second, the second ends the request (R103). -/
theorem State.evaluateLit_inWindow {s : State} {e : Int} (h : withinAbs s.afRecipe.focusWindow e = true) :
    (s.af.inWindow = 0 → s.evaluateLit e
      = (s.setAf { s.af with atSearch := false, inWindow := 1 }).beginMeasureAt s.af.epoch)
    ∧ (1 ≤ s.af.inWindow → s.evaluateLit e = (s.setAf { s.af with atSearch := false, inWindow := s.af.inWindow + 1 }).endFocused) := by
  refine ⟨fun first => ?_, fun later => ?_⟩
  · unfold State.evaluateLit
    dsimp only
    rw [if_pos h, if_neg]
    · simp only [State.setAf, first]
    · simp only [State.setAf, first]
      omega
  · unfold State.evaluateLit
    dsimp only
    rw [if_pos h, if_pos]
    · rfl
    · show 2 ≤ s.af.inWindow + 1
      omega

/-- A lit measurement outside the window counts an iteration, and steps or fails (R103, R104). -/
def State.missed (s : State) : State := s.setAf { s.af with atSearch := false, inWindow := 0, iterations := s.af.iterations + 1 }

theorem State.evaluateLit_outside {s : State} {e : Int} (h : withinAbs s.afRecipe.focusWindow e = false) : s.evaluateLit e
    = if s.afRecipe.iterationLimit < (s.af.iterations : Int) + 1 then s.missed.failFocus .noConverge else s.missed.stepFocus e := by
  unfold State.evaluateLit
  dsimp only
  rw [if_neg (by rw [Bool.not_eq_true]; exact h)]
  simp only [State.setAf, State.missed]
  push_cast
  rfl

/-- The search a dark measurement goes on with, or begins (R106). -/
def State.searching (s : State) : State :=
  if s.af.atSearch then s else s.setAf { s.af with centre := s.af.zTarget, index := 0, inWindow := 0, atSearch := true }

theorem State.evaluateDark_next {s : State} {z : Int} {index budget : Nat}
    (h : pickSearch s.afRecipe s.searching.af.centre s.searching.af.budget s.searching.af.index = some (z, index, budget)) :
    s.evaluateDark = (s.searching.setAf { s.searching.af with zTarget := z, index := index, budget := budget }).focusMove .search z := by
  unfold State.searching at h ⊢
  simp only [State.evaluateDark, h]

theorem State.evaluateDark_none {s : State}
    (h : pickSearch s.afRecipe s.searching.af.centre s.searching.af.budget s.searching.af.index = none) :
    s.evaluateDark = (s.searching.setAf { s.searching.af with
      index := s.searching.af.index + s.searching.af.budget, budget := 0 }).failFocus .noSignal := by
  unfold State.searching at h ⊢
  simp only [State.evaluateDark, h]

/-- A frame of a measurement still short of its frames, or complete (R101). -/
theorem State.takeFrame_lit {s : State} {f : Summary} (h : f.dark = false) : s.takeFrame f
    = if s.afRecipe.framesPerMeasurement ≤ (s.af.taken : Int) + 1
      then (s.setAf { s.af with taken := s.af.taken + 1, sum := s.af.sum + f.e }).evaluateLit (rnd (s.af.sum + f.e) (s.af.taken + 1))
      else s.setAf { s.af with taken := s.af.taken + 1, sum := s.af.sum + f.e } := by
  unfold State.takeFrame
  rw [if_neg (by rw [h]; exact Bool.false_ne_true)]
  dsimp only [State.setAf]
  push_cast
  rfl

theorem State.takeFrame_dark {s : State} {f : Summary} (h : f.dark = true) :
    s.takeFrame f = (s.setAf { s.af with taken := 0, sum := 0 }).evaluateDark := if_pos h

/-- A request ended FOCUSED at its Z target (R108, R112). -/
theorem State.endFocused_eq {s : State} {r : FocusRequest} (hr : s.af.request = some r) : s.endFocused = { s with
    focusMap := learnFocus s.focusMap r.point s.af.zTarget
    af := { s.af with state := .focused, outcome := some (.focused s.af.zTarget), timer := none, zReq := none }
    scratch := { s.scratch with msgs := s.scratch.msgs ++ [.focusAnswer r.requester (.focused s.af.zTarget)] } } := by
  simp only [State.endFocused, State.answerFocus, State.setAf, hr]
  rfl

/-- A failure as the record and the messages show it (R108). -/
theorem State.failFocus_facts {s : State} {r : FocusRequest} (hr : s.af.request = some r) (hm : s.scratch.msgs = []) (why : FocusReason) :
    (s.failFocus why).af.state = .failed ∧ (s.failFocus why).af.outcome = some (.failed why)
    ∧ (s.failFocus why).scratch.msgs = [.focusAnswer r.requester (.failed why)] := by
  rw [State.failFocus_eq hr]
  refine ⟨rfl, rfl, ?_⟩
  show s.scratch.msgs ++ _ = _
  rw [hm]
  rfl

/-- The zone of a learned height, and every other zone (R112). -/
theorem learnFocus_zones (map : List Zone) (p : Point) (h : Int) :
    (∀ z, map[zoneOf p]? = some z → (learnFocus map p h)[zoneOf p]? = some (z.learn h))
    ∧ ∀ j, j ≠ zoneOf p → (learnFocus map p h)[j]? = map[j]? := by
  refine ⟨fun z hz => ?_, fun j hj => ?_⟩
  · simp [learnFocus, hz]
  · simp [learnFocus, Ne.symm hj]

@[simp] theorem State.after_focusMap (s u : State) : (s.after u).focusMap = u.focusMap :=
  (State.finish_focusMap s u.settle).trans (congrArg Kept.focusMap u.settle_kept :)

theorem ringAdd_newest (ring : List Summary) (f : Summary) : (ringAdd ring f).getLast? = some f := by
  unfold ringAdd ringSize
  dsimp only
  rw [List.drop_append_of_le_length (by simp)]
  exact List.getLast?_concat

theorem State.goodFrame_locked {s : State} (h : s.sensor.link = .locked) (words : List (BitVec 16)) (epoch : Word) :
    s.goodFrame words epoch = s.acceptFrame words epoch := by
  simp only [State.goodFrame, h]

theorem State.acceptFrame_eq (s : State) (words : List (BitVec 16)) (epoch : Word) : s.acceptFrame words epoch
    = (s.setSensor { s.sensor with
        sequence := s.sensor.sequence + 1
        ring := ringAdd s.sensor.ring (summarise (s.sensor.sequence + 1) words epoch s.lightMinimum) }).frameArrival
      (summarise (s.sensor.sequence + 1) words epoch s.lightMinimum) := rfl

/-- The accepted frame's arrival, at a receiver whose newest summary is the frame's (R92, R94, R101). -/
theorem exec_accepted {s : State} {w : BitVec 16} {f : Summary} (h : s.Accepts w f) (parity : Bool) :
    ∃ n : Sensor, n.newest = some f
      ∧ exec (.sensorWord w false parity) s = .next (s.after (({ s.begin with sensor := n } : State).frameArrival f)) := by
  obtain ⟨ws, p, e, inside, length, good, rfl⟩ := h.frame
  have inside : s.woken.sensor.assembler = .inside ws p e := inside
  have locked : s.woken.sensor.link = .locked := Sensor.woken_of_locked h.locked s.clock
  refine ⟨{ s.sensor.woken s.clock with
    assembler := .outside false false, sequence := s.sensor.sequence + 1
    ring := ringAdd s.sensor.ring (summarise (s.sensor.sequence + 1) (ws ++ [w]) e s.lightMinimum) }, ringAdd_newest _ _, ?_⟩
  rw [exec_sensorWord_eq, State.assemble_judge inside length, State.judgeFrame_good good, 
    State.goodFrame_locked (s := s.woken.setSensor { s.woken.sensor with assembler := .outside false false }) locked]
  refine congrArg (fun u => Host.Outcome.next (s.after u)) ?_
  exact State.acceptFrame_eq (s.woken.setSensor { s.woken.sensor with assembler := .outside false false }) (ws ++ [w]) e

/-- A frame of a measurement, or of one begun again in the motion unit's epoch, is taken (R101). -/
theorem State.frameArrival_taken {s : State} {f : Summary} {b : Autofocus} (hm : s.af.state = .measure)
    (hb : (f.epoch = s.af.epoch ∧ b = s.af)
      ∨ (f.epoch ≠ s.af.epoch ∧ f.epoch = s.motion.epoch ∧ b = { s.af with epoch := f.epoch, taken := 0, sum := 0, inWindow := 0 })) :
    s.frameArrival f = (s.setAf b).takeFrame f := by
  rw [State.frameArrival, if_neg (by rw [hm]; nofun)]
  obtain ⟨here, rfl⟩ | ⟨other, now, rfl⟩ := hb
  · rw [if_pos here]
    rfl
  · rw [if_neg other, if_pos now]

theorem State.frameArrival_disregarded {s : State} {f : Summary}
    (h : s.af.state ≠ .measure ∨ (f.epoch ≠ s.af.epoch ∧ f.epoch ≠ s.motion.epoch)) : s.frameArrival f = s := by
  rw [State.frameArrival]
  split
  · rfl
  · rename_i measuring
    obtain idle | ⟨other, old⟩ := h
    · exact absurd idle measuring
    · rw [if_neg other, if_neg old]

/-- A step against the error, in the focus range or not (R104). -/
theorem State.stepFocus_inRange {s : State} {e z : Int} (hz : z = s.af.zTarget - focusStep s.afRecipe e)
    (low : s.afRecipe.zLow ≤ z) (high : z ≤ s.afRecipe.zHigh) :
    s.stepFocus e = (s.setAf { s.af with zTarget := z }).focusMove .step z := by
  subst hz
  exact if_pos (within_iff.2 ⟨low, high⟩)

theorem State.stepFocus_outOfRange {s : State} {e z : Int} (hz : z = s.af.zTarget - focusStep s.afRecipe e)
    (out : z < s.afRecipe.zLow ∨ s.afRecipe.zHigh < z) : s.stepFocus e = s.failFocus .outOfRange := by
  subst hz
  exact if_neg (by rw [Bool.not_eq_true]; exact within_false_iff.2 out)

/-- The request a measurement is for, in its MEASURE state, told nothing yet. -/
structure State.Measures (s : State) (r : FocusRequest) (b : Autofocus) : Prop where
  af : s.af = b
  request : s.af.request = some r
  state : s.af.state = .measure
  msgs : s.scratch.msgs = []

theorem State.Measures.recipe {s : State} {r : FocusRequest} {b : Autofocus} (h : s.Measures r b) : s.afRecipe = s.recipe r.wafer.slot := by
  simp only [State.afRecipe, h.request]

/-- A measurement short of its frames takes the frame (R101). -/
theorem State.Measures.short {s : State} {r : FocusRequest} {b : Autofocus} (h : s.Measures r b) {f : Summary} (hd : f.dark = false)
    (hk : (b.taken : Int) + 1 < (s.recipe r.wafer.slot).framesPerMeasurement) :
    (s.takeFrame f).af = { b with taken := b.taken + 1, sum := b.sum + f.e } ∧ (s.takeFrame f).scratch.msgs = [] := by
  rw [State.takeFrame_lit hd, h.recipe, h.af, if_neg (not_le.2 hk)]
  exact ⟨rfl, h.msgs⟩

/-- A measurement whose last frame is in (R103). -/
def State.complete (s : State) (f : Summary) : State := s.setAf { s.af with taken := s.af.taken + 1, sum := s.af.sum + f.e }

theorem State.Measures.completes {s : State} {r : FocusRequest} {b : Autofocus} (h : s.Measures r b) {f : Summary} (hd : f.dark = false)
    (hk : (s.recipe r.wafer.slot).framesPerMeasurement ≤ (b.taken : Int) + 1) {e : Int} (he : e = rnd (b.sum + f.e) (b.taken + 1)) :
    s.takeFrame f = (s.complete f).evaluateLit e := by
  rw [State.takeFrame_lit hd, h.recipe, h.af, if_pos hk, he, State.complete, h.af]

theorem State.Measures.complete {s : State} {r : FocusRequest} {b : Autofocus} (h : s.Measures r b) (f : Summary) :
    (s.complete f).Measures r { b with taken := b.taken + 1, sum := b.sum + f.e } := by
  refine ⟨?_, h.request, h.state, h.msgs⟩
  rw [State.complete, ← h.af]
  rfl

/-- A complete measurement in the window: the first, and the second at one height (R103, R112). -/
theorem State.Measures.inWindow {s : State} {r : FocusRequest} {b : Autofocus} (h : s.Measures r b) {e : Int}
    (he : (e.natAbs : Int) ≤ (s.recipe r.wafer.slot).focusWindow) :
    (b.inWindow = 0 → (s.evaluateLit e).af = { b with
        taken := 0, sum := 0, inWindow := 1, atSearch := false, startMark := s.sensor.newest.map (·.sequence), zReq := none }
      ∧ (s.evaluateLit e).scratch.msgs = [])
    ∧ (1 ≤ b.inWindow → (s.evaluateLit e).af.state = .focused ∧ (s.evaluateLit e).af.outcome = some (.focused b.zTarget)
      ∧ (s.evaluateLit e).af.timer = none ∧ (s.evaluateLit e).scratch.msgs = [.focusAnswer r.requester (.focused b.zTarget)]
      ∧ (s.evaluateLit e).focusMap = learnFocus s.focusMap r.point b.zTarget) := by
  obtain ⟨first, second⟩ := State.evaluateLit_inWindow (s := s) (e := e) (withinAbs_iff.2 (by rw [h.recipe]; exact he))
  have measuring : b.state = .measure := h.af ▸ h.state
  refine ⟨fun zero => ?_, fun one => ?_⟩
  · rw [first (by rw [h.af]; exact zero), h.af]
    refine ⟨?_, h.msgs⟩
    show ({ b with state := .measure, epoch := b.epoch, startMark := s.sensor.newest.map (·.sequence), taken := 0, sum := 0, zReq := none
                   inWindow := 1, atSearch := false } : Autofocus) = _
    rw [← measuring]
  · rw [second (by rw [h.af]; exact one), h.af,
      State.endFocused_eq (s := s.setAf { b with atSearch := false, inWindow := b.inWindow + 1 }) (h.af ▸ h.request)]
    refine ⟨rfl, rfl, rfl, ?_, rfl⟩
    show s.scratch.msgs ++ _ = _
    rw [h.msgs]
    rfl

/-- A complete measurement outside the window (R103, R104). -/
theorem State.Measures.outside {s : State} {r : FocusRequest} {b : Autofocus} {c : Recipe} (h : s.Measures r b)
    (hc : c = s.recipe r.wafer.slot) {e : Int} (he : c.focusWindow < (e.natAbs : Int)) :
    (c.iterationLimit < (b.iterations : Int) + 1 → (s.evaluateLit e).af.state = .failed
      ∧ (s.evaluateLit e).af.outcome = some (.failed .noConverge)
      ∧ (s.evaluateLit e).scratch.msgs = [.focusAnswer r.requester (.failed .noConverge)])
    ∧ ∀ z, (b.iterations : Int) + 1 ≤ c.iterationLimit → z = b.zTarget - focusStep c e →
      (c.zLow ≤ z → z ≤ c.zHigh → (s.evaluateLit e).af = { b with
          state := .step, zTarget := z, inWindow := 0, iterations := b.iterations + 1, atSearch := false, zReq := some s.motion.nextReq }
        ∧ (s.motion.z.state = .idle → 0 ≤ z → z ≤ 3000000 → (s.evaluateLit e).motion.zGroup.order
          = some ⟨s.motion.tag, .move (.z z), ⟨s.clock, 2000⟩, [⟨.autofocus, s.motion.nextReq⟩]⟩))
      ∧ (z < c.zLow ∨ c.zHigh < z → (s.evaluateLit e).af.state = .failed ∧ (s.evaluateLit e).af.outcome = some (.failed .outOfRange)
        ∧ (s.evaluateLit e).scratch.msgs = [.focusAnswer r.requester (.failed .outOfRange)]) := by
  have outside := State.evaluateLit_outside (s := s) (e := e) (by
    rw [← Bool.not_eq_true, withinAbs_iff, h.recipe, ← hc]
    exact not_le.2 he)
  have asked : s.missed.af.request = some r := h.request
  have recipe : s.missed.afRecipe = c := by
    simp only [State.afRecipe, asked]
    exact hc.symm
  have target : s.missed.af.zTarget = b.zTarget := by
    rw [← h.af]
    rfl
  rw [h.recipe, ← hc, h.af] at outside
  refine ⟨fun spent => ?_, fun z left hz => ⟨fun low high => ?_, fun out => ?_⟩⟩
  · rw [outside, if_pos spent]
    exact State.failFocus_facts asked h.msgs _
  · rw [outside, if_neg (not_lt.2 left), State.stepFocus_inRange (z := z) (by rw [recipe, target]; exact hz)
      (by rw [recipe]; exact low) (by rw [recipe]; exact high)]
    refine ⟨?_, fun idle low high => State.focusMove_sent (s := s.missed.setAf { s.missed.af with zTarget := z }) idle low high _⟩
    rw [State.focusMove_af]
    show ({ s.af with state := .step, zTarget := z, inWindow := 0, iterations := s.af.iterations + 1, atSearch := false
                      zReq := some s.motion.nextReq } : Autofocus) = _
    rw [h.af]
  · rw [outside, if_neg (not_lt.2 left), State.stepFocus_outOfRange (z := z) (by rw [recipe, target]; exact hz) (by rw [recipe]; exact out)]
    exact State.failFocus_facts asked h.msgs _

/-- A dark measurement searches on, or fails when the budget is used up (R106). -/
theorem State.Measures.dark {s : State} {r : FocusRequest} {b : Autofocus} {c : Recipe} (h : s.Measures r b)
    (hc : c = s.recipe r.wafer.slot) {f : Summary} (hd : f.dark = true) {centre : Int} {i inW : Nat}
    (hs : (b.atSearch = true ∧ centre = b.centre ∧ i = b.index ∧ inW = b.inWindow)
      ∨ (b.atSearch = false ∧ centre = b.zTarget ∧ i = 0 ∧ inW = 0)) :
    (∀ m, i < m → m ≤ i + b.budget → within c.zLow c.zHigh (searchPosition centre c.searchStep m) = true →
        (∀ n, i < n → n < m → within c.zLow c.zHigh (searchPosition centre c.searchStep n) = false) → (s.takeFrame f).af = { b with
          state := .search, zTarget := searchPosition centre c.searchStep m, taken := 0, sum := 0, inWindow := inW, centre := centre
          index := m, budget := i + b.budget - m, atSearch := true, zReq := some s.motion.nextReq })
    ∧ ((∀ n, i < n → n ≤ i + b.budget → within c.zLow c.zHigh (searchPosition centre c.searchStep n) = false) →
      (s.takeFrame f).af.state = .failed ∧ (s.takeFrame f).af.outcome = some (.failed .noSignal)
      ∧ (s.takeFrame f).scratch.msgs = [.focusAnswer r.requester (.failed .noSignal)]) := by
  obtain ⟨rfl, request, -, msgs⟩ := h
  have searching : (s.setAf { s.af with taken := 0, sum := 0 }).searching
      = s.setAf { s.af with taken := 0, sum := 0, centre := centre, index := i, inWindow := inW, atSearch := true } := by
    obtain ⟨on, rfl, rfl, rfl⟩ | ⟨off, rfl, rfl, rfl⟩ := hs
    · rw [State.searching, if_pos (by exact on)]
      rw [← on]
    · rw [State.searching, if_neg (by rw [Bool.not_eq_true]; exact off)]
      rfl
  have recipe : (s.setAf { s.af with taken := 0, sum := 0 }).afRecipe = c := by
    have asked : (s.setAf { s.af with taken := 0, sum := 0 }).af.request = some r := request
    simp only [State.afRecipe, asked]
    exact hc.symm
  rw [State.takeFrame_dark hd]
  refine ⟨fun m below atMost fits skipped => ?_, fun out => ?_⟩
  · rw [State.evaluateDark_next (z := searchPosition centre c.searchStep m) (index := m) (budget := i + s.af.budget - m), searching,
      State.focusMove_af]
    · rfl
    · rw [searching, recipe]
      exact pickSearch_next fits _ _ below atMost skipped
  · rw [State.evaluateDark_none, searching]
    · refine State.failFocus_facts ?_ ?_ _
      · exact request
      · exact msgs
    · rw [searching, recipe]
      exact pickSearch_none _ _ out

/-- Settles O56: by the frame's epoch, its light, and the measurement's count and error. -/
theorem focusedHeightIsLearned : Obligations.FocusedHeightIsLearned := by
  intro s w parity f accepts
  obtain ⟨n, newest, ran⟩ := exec_accepted accepts parity
  refine ⟨fun h => ⟨_, ran, ?_⟩, fun r c b hm hr hc hb => ⟨_, _, ran, rfl, ?_⟩⟩
  · rw [State.frameArrival_disregarded (s := { s.begin with sensor := n }) h]
    exact ⟨rfl, rfl, rfl⟩
  · let x : State := ({ s.begin with sensor := n } : State).setAf b
    obtain ⟨request, state⟩ : b.request = some r ∧ b.state = .measure := by
      obtain ⟨-, rfl⟩ | ⟨-, -, rfl⟩ := hb
      · exact ⟨hr, hm⟩
      · exact ⟨hr, hm⟩
    have measures : x.Measures r b := ⟨rfl, request, state, rfl⟩
    rw [State.frameArrival_taken (s := { s.begin with sensor := n }) hm hb]
    refine ⟨fun lit short => ?_, fun e lit complete he => ?_, fun centre i inW at_ dark hs hat => ?_⟩
    · exact measures.short lit (by rw [← show c = x.recipe r.wafer.slot from hc]; exact short)
    · rw [measures.completes lit (by rw [← show c = x.recipe r.wafer.slot from hc]; exact complete) he]
      have done := measures.complete f
      have mark : (x.complete f).sensor.newest.map (·.sequence) = some f.sequence := congrArg (Option.map (·.sequence)) newest
      refine ⟨fun near first => ?_, fun near second => ?_, fun far => (done.outside hc far).1, fun z far left hz => ?_⟩
      · have ended := (done.inWindow (by rw [← show c = (x.complete f).recipe r.wafer.slot from hc]; exact near)).1 first
        rw [mark] at ended
        exact ended
      · obtain ⟨focused, outcome, timer, msgs, map⟩ :=
          (done.inWindow (by rw [← show c = (x.complete f).recipe r.wafer.slot from hc]; exact near)).2 second
        obtain ⟨zone, others⟩ := learnFocus_zones s.focusMap r.point b.zTarget
        refine ⟨focused, outcome, timer, msgs, fun z hz => ?_, fun j hj => ?_⟩
        · rw [State.after_focusMap, map]
          exact zone z hz
        · rw [State.after_focusMap, map]
          exact others j hj
      · exact (done.outside hc far).2 z left hz
    · obtain rfl : at_ = searchPosition centre c.searchStep := funext hat
      obtain ⟨next, spent⟩ := measures.dark hc dark hs
      refine ⟨fun m below atMost low high skipped => ?_, fun out => ?_⟩
      · exact next m below atMost (within_iff.2 ⟨low, high⟩) fun n hn hlt => within_false_iff.2 (skipped n hn hlt)
      · exact spent fun n hn hle => within_false_iff.2 (out n hn hle)

end Sys2Proof.Machine
end

section
/-! SUPPORT. What the messages inside a step and the lots' passing leave alone: the handling unit, the wafers' results, the lot states. -/

namespace Sys2Proof.Machine

/-! ## A wafer by messages -/

/-- What no message changes of a wafer's record. -/
structure WaferCore where
  selected : Bool
  mapResult : MapResult
  finalResult : FinalResult
  startClock : Word
  postingClosed : Bool

def Wafer.core (x : Wafer) : WaferCore := ⟨x.selected, x.mapResult, x.finalResult, x.startClock, x.postingClosed⟩

/-- A wafer's record by messages: only one ON_STAGE changes its state and its end clock. -/
structure WaferStep (x y : Wafer) : Prop where
  core : y.core = x.core
  state : x.state ≠ .onStage → y.state = x.state ∧ y.endClock = x.endClock

theorem WaferStep.refl (x : Wafer) : WaferStep x x := ⟨rfl, fun _ => ⟨rfl, rfl⟩⟩

theorem WaferStep.trans {x y z : Wafer} (h : WaferStep x y) (g : WaferStep y z) : WaferStep x z := by
  refine ⟨g.core.trans h.core, fun hs => ?_⟩
  obtain ⟨state, clock⟩ := h.state hs
  obtain ⟨state', clock'⟩ := g.state (by rw [state]; exact hs)
  exact ⟨state'.trans state, clock'.trans clock⟩

/-- Every wafer's record by messages. -/
def WafersStep (s t : State) : Prop := ∀ v x, s.wafer v = some x → ∃ y, t.wafer v = some y ∧ WaferStep x y

theorem WafersStep.trans {s t u : State} (h : WafersStep s t) (g : WafersStep t u) : WafersStep s u := fun v x hx => by
  obtain ⟨y, hy, step⟩ := h v x hx
  obtain ⟨z, hz, step'⟩ := g v y hy
  exact ⟨z, hz, step.trans step'⟩

theorem WafersStep.of {s t : State} (h : ∀ v, t.wafer v = s.wafer v) : WafersStep s t := fun v x hx => ⟨x, (h v).trans hx, .refl x⟩

theorem WafersStep.modWafer {s : State} {w : WaferName} {f : Wafer → Wafer} (hf : ∀ x, s.wafer w = some x → WaferStep x (f x)) :
    WafersStep s (s.modWafer w f) := fun v x hx => by
  rw [State.wafer_modWafer, hx]
  split
  · rename_i hv
    exact ⟨_, rfl, hf x (hv ▸ hx)⟩
  · exact ⟨_, rfl, .refl x⟩

/-! ## What messages leave alone -/

/-- What the step knows of versions: a step's messages and its touched records left out. -/
def Scratch.ledger (x : Scratch) : Scratch := { x with msgs := [], touched := [] }

/-- What a message does not reach: the handling unit, the lot states, the class locks, the wafers' results, and what the step has done to
versions. -/
structure Told (s t : State) : Prop where
  handling : t.handling = s.handling
  wafers : WafersStep s t
  lots : ∀ k, (t.lot k).state = (s.lot k).state
  classLock : ∀ k, (t.report k).classLock = (s.report k).classLock
  ledger : t.scratch.ledger = s.scratch.ledger

theorem Told.trans {s t u : State} (h : Told s t) (g : Told t u) : Told s u :=
  ⟨g.handling.trans h.handling, h.wafers.trans g.wafers, fun k => (g.lots k).trans (h.lots k),
    fun k => (g.classLock k).trans (h.classLock k), g.ledger.trans h.ledger⟩

theorem Told.of {s t : State} (handling : t.handling = s.handling) (lots : t.lots = s.lots) (reports : t.reports = s.reports)
    (ledger : t.scratch.ledger = s.scratch.ledger := by rfl) : Told s t :=
  ⟨handling, .of fun v => State.wafer_congr lots v, fun k => by rw [State.lot, lots]; rfl, fun k => by rw [State.report, reports]; rfl, ledger⟩

theorem Told.refl (s : State) : Told s s := .of rfl rfl rfl

theorem Told.rest {s t : State} (h : t.rest = s.rest) : Told s t :=
  .of (congrArg State.handling h :) (State.rest_lots h) (State.rest_reports h) (congrArg (fun x : State => x.scratch.ledger) h :)

theorem Told.modWafer {s : State} {w : WaferName} {f : Wafer → Wafer} (hf : ∀ x, s.wafer w = some x → WaferStep x (f x)) :
    Told s (s.modWafer w f) := by
  refine ⟨rfl, .modWafer hf, fun k => ?_, fun _ => rfl, rfl⟩
  rw [State.modWafer, State.lot_modLot]
  split
  · rename_i hk
    rw [hk]
  · rfl

theorem Told.enter (s : State) (w : WaferName) (f : Row → Row) : Told s (s.enter w f) := by
  refine ⟨rfl, .of fun _ => rfl, fun _ => rfl, fun k => ?_, rfl⟩
  obtain ⟨j, n⟩ := w
  cases j <;> cases k <;> rfl

theorem Told.raise (s : State) (k : NoticeKind) : Told s (s.raise k) := by
  unfold State.raise
  split <;> exact .of rfl rfl rfl

theorem Told.finishEntry (s : State) (e : Entry) (st : EntryState) (why : EntryReason) : Told s (s.finishEntry e st why) := by
  have modified : Told s (s.modEntry e.slot e.index fun x => { x with state := st, reason := why }) := .of rfl rfl rfl
  unfold State.finishEntry
  dsimp only
  split
  · exact modified.trans (.enter _ _ _)
  · exact modified

theorem Told.finishEntries (st : EntryState) (why : EntryReason) (l : List Entry) :
    ∀ s : State, Told s (l.foldl (fun s e => s.finishEntry e st why) s) := by
  induction l with
  | nil => exact .refl
  | cons e l ih => exact fun s => (Told.finishEntry s e st why).trans (ih _)

theorem Told.endQueued (s : State) (w : WaferName) (why : EntryReason) : Told s (s.endQueued w why) := .finishEntries _ _ _ s

theorem Told.toReviewEnded (s : State) (w : WaferName) : Told s (s.toReviewEnded w) := by
  by_cases h : s.waferState w = some .onStage
  · obtain ⟨x, hx, hs⟩ := Option.map_eq_some_iff.1 h
    rw [State.toReviewEnded_of_onStage hx hs]
    have modified : Told s (s.modWafer w fun x => { x with state := .reviewEnded, endClock := s.clock }) :=
      .modWafer fun y hy => ⟨rfl, fun staged => absurd ((Option.some.inj (hx.symm.trans hy)) ▸ hs) staged⟩
    exact ((modified.trans (.enter _ w _)).trans (.enter _ w _)).trans (.endQueued _ w _)
  · rw [State.toReviewEnded_of_not h]
    exact .refl s

theorem Told.setAlign (s : State) (a : Align) : Told s (s.setAlign a) := by
  unfold State.setAlign
  dsimp only
  split
  · exact Told.trans (t := { s with align := a }) (.of rfl rfl rfl) (.modWafer fun _ _ => ⟨rfl, fun _ => ⟨rfl, rfl⟩⟩)
  · exact .of rfl rfl rfl

theorem Told.alignEnds (s : State) (w : WaferName) (why : AlignReason) : Told s (s.alignEnds w why) := by
  generalize hb : s.setAlign { s.align with state := .failed, reason := why, xyReq := none, zReq := none } = b
  have begun : Told s b := by
    rw [← hb]
    exact .setAlign s _
  have marked : Told b (b.modWafer w fun x => { x with pendingResult := some .alignFailed }) :=
    .modWafer fun _ _ => ⟨rfl, fun _ => ⟨rfl, rfl⟩⟩
  have failed := (begun.trans marked).trans (.endQueued _ w .alignFail)
  unfold State.alignEnds
  dsimp only
  rw [hb]
  split
  · exact failed.trans (.of rfl rfl rfl)
  · exact failed

theorem Told.alignFail (s : State) (why : AlignReason) : Told s (s.alignFail why) := by
  cases hw : s.align.wafer with
  | none =>
    have same : s.alignFail why = s := by simp only [State.alignFail, hw]
    rw [same]
    exact .refl s
  | some w =>
    rw [State.alignFail_eq hw]
    exact (((Told.alignEnds s w why).trans (.toReviewEnded _ w)).trans (.raise _ _)).trans (.rest (State.requestLoad_rest _ _))

theorem Told.normalEnd (s : State) (w : WaferName) : Told s (s.normalEnd w) := by
  refine Told.trans ?_ (.rest (s.normalEnd_rest w))
  have ended : Told s (s.endReview.modWafer w fun x => { x with pendingResult := some .reviewed }) :=
    Told.trans (t := s.endReview) (.of rfl rfl rfl) (.modWafer fun _ _ => ⟨rfl, fun _ => ⟨rfl, rfl⟩⟩)
  exact (ended.trans (.toReviewEnded _ w)).trans (.enter _ w _)

theorem Told.endActive (s : State) (e : Entry) (st : EntryState) (why : EntryReason) : Told s (s.endActive e st why) :=
  (Told.finishEntry s e st why).trans (.of rfl rfl rfl)

theorem Told.beginMove (s : State) (a : ActiveRevisit) (z : Int) : Told s (s.beginMove a z) := by
  refine Told.trans ?_ (.rest (State.beginMove_rest s a z))
  exact .of rfl rfl rfl

theorem Told.beginTarget (s : State) (e : Entry) : Told s (s.beginTarget e) := by
  unfold State.beginTarget
  dsimp only
  split
  · refine Told.trans ?_ (.beginMove _ _ _)
    exact .of rfl rfl rfl
  · refine Told.trans ?_ (.endActive _ e _ _)
    exact .of rfl rfl rfl

theorem Told.takeEntry (s : State) (e : Entry) : Told s (s.takeEntry e) := by
  refine Told.trans ?_ (.beginTarget _ e)
  exact .of rfl rfl rfl

theorem Told.waitForPosts (s : State) (w : WaferName) : Told s (s.waitForPosts w) := by
  refine Told.trans ?_ (.raise _ _)
  exact .of rfl rfl rfl

theorem Told.look (s : State) (w : WaferName) : Told s (s.look w) := by
  unfold State.look
  repeat' split
  · exact .takeEntry s _
  · exact .normalEnd s w
  · exact .waitForPosts s w
  · exact .refl s

theorem Told.failedAttempt (s : State) (a : ActiveRevisit) (e : Entry) (why : LastFailure) : Told s (s.failedAttempt a e why) := by
  unfold State.failedAttempt
  dsimp only
  split
  · refine Told.trans ?_ (.beginMove _ _ _)
    exact .of rfl rfl rfl
  · refine Told.trans ?_ (.endActive _ e _ _)
    exact .of rfl rfl rfl

/-! ## Messages -/

theorem Told.alignSettled (s : State) (n : Nat) : Told s (s.alignSettled n) := by
  unfold State.alignSettled
  dsimp only
  repeat' split
  · exact .refl s
  · refine Told.trans ?_ (.rest (State.requestFocus_rest _ _))
    exact .setAlign s _
  · exact .setAlign s _
  · exact .refl s

theorem Told.revisitSettled (s : State) (n : Nat) : Told s (s.revisitSettled n) := by
  unfold State.revisitSettled State.beginFocus
  dsimp only
  repeat' split
  · refine Told.trans ?_ (.rest (State.requestFocus_rest _ _))
    exact .of rfl rfl rfl
  · exact .of rfl rfl rfl
  · exact .refl s
  · exact .refl s

theorem Told.alignFocus (s : State) (o : FocusOutcome) : Told s (s.alignFocus o) := by
  unfold State.alignFocus
  repeat' split
  · exact (Told.setAlign s _).trans (.rest (State.askGrab_rest _ _))
  · exact .alignFail s _
  · exact .refl s

theorem Told.revisitFocus (s : State) (o : FocusOutcome) : Told s (s.revisitFocus o) := by
  unfold State.revisitFocus
  repeat' split
  · refine Told.trans ?_ (.rest (State.askGrab_rest _ _))
    exact .of rfl rfl rfl
  · exact .failedAttempt s _ _ _
  · exact .refl s
  · exact .refl s

theorem Told.deliver (s : State) (m : Msg) : Told s (s.deliver m) := by
  cases m with
  | settled r g =>
    unfold State.deliver
    dsimp only
    split
    · exact .alignSettled s _
    · exact .revisitSettled s _
    · unfold State.focusSettled
      split
      · exact .rest (State.beginMeasureAt_rest _ _)
      · exact .refl s
    · exact .refl s
    · exact .refl s
  | refused r g why =>
    unfold State.deliver
    dsimp only
    split
    · unfold State.alignRefused
      split
      · exact .alignFail s _
      · exact .refl s
    · unfold State.revisitRefused
      repeat' split
      · exact .endActive s _ _ _
      · exact .refl s
      · exact .refl s
    · unfold State.focusRefused
      split
      · exact .rest (State.failFocus_rest _ _)
      · exact .refl s
    · exact .refl s
    · exact .refl s
  | focusAnswer u o =>
    cases u
    · exact .alignFocus s o
    · exact .revisitFocus s o
  | lookAtList =>
    show Told s s.lookAfterEnd
    unfold State.lookAfterEnd
    repeat' split
    · exact .look s _
    · exact .refl s
    · exact .refl s

theorem Told.drainFor : ∀ (n : Nat) (s : State), Told s (State.drainFor n s)
  | 0, s => .refl s
  | n + 1, s => by
    unfold State.drainFor
    split
    · exact .refl s
    · rename_i m rest _
      have set : Told s (s.setMsgs rest) := .of rfl rfl rfl
      exact (set.trans (.deliver _ m)).trans (Told.drainFor n _)

theorem Told.drain (s : State) : Told s s.drain := .drainFor _ s

/-! ## The lots' passing (R14) -/

/-- A state without what the lots' passing changes: the lot states, the reports, the locks, the notices and the store. -/
def State.unpassed (s : State) : State :=
  { s with
    lots := ⟨{ s.lots.zero with state := .empty }, { s.lots.one with state := .empty }⟩
    reports := State.reset.reports, notice := State.reset.notice
    path := { s.path with startLock := ⟨false, false⟩, closedLock := ⟨false, false⟩ }
    revisit := { s.revisit with store := [] } }

section
variable (s : State)

@[simp] theorem State.setLotState_unpassed (k : Slot) (st : LotState) : (s.setLotState k st).unpassed = s.unpassed := by cases k <;> rfl
@[simp] theorem State.modReport_unpassed (k : Slot) (f : Report → Report) : (s.modReport k f).unpassed = s.unpassed := rfl
@[simp] theorem State.setStartLock_unpassed (k : Slot) (b : Bool) : (s.setStartLock k b).unpassed = s.unpassed := rfl
@[simp] theorem State.setClosedLock_unpassed (k : Slot) (b : Bool) : (s.setClosedLock k b).unpassed = s.unpassed := rfl

@[simp] theorem State.raise_unpassed (k : NoticeKind) : (s.raise k).unpassed = s.unpassed := by
  unfold State.raise
  split <;> rfl

@[simp] theorem State.closeRow_unpassed (w : WaferName) : (s.closeRow w).unpassed = s.unpassed := by
  unfold State.closeRow
  split <;> rfl

theorem State.closeRows_unpassed (k : Slot) (l : List Nat) :
    ∀ s : State, (l.foldl (fun s n => s.closeRow ⟨k, n⟩) s).unpassed = s.unpassed := by
  induction l with
  | nil => exact fun _ => rfl
  | cons n l ih => exact fun s => (ih _).trans (s.closeRow_unpassed _)

@[simp] theorem State.closeReport_unpassed (k : Slot) : (s.closeReport k).unpassed = s.unpassed := by
  unfold State.closeReport
  simp [State.closeRows_unpassed k slots25 s]

@[simp] theorem State.lotChange_unpassed (k : Slot) : (s.lotChange k).unpassed = s.unpassed := by
  unfold State.lotChange
  dsimp only
  repeat' split
  all_goals simp

end

theorem foldl_unpassed {α : Type} {f : State → α → State} (hf : ∀ s a, (f s a).unpassed = s.unpassed) (l : List α) :
    ∀ s : State, (l.foldl f s).unpassed = s.unpassed := by
  induction l with
  | nil => exact fun _ => rfl
  | cons a l ih => exact fun s => (ih _).trans (hf s a)

@[simp] theorem State.lotPass_unpassed (s : State) : s.lotPass.unpassed = s.unpassed :=
  foldl_unpassed (fun s _ => by simp) _ s

theorem State.unpassed_wafer {s t : State} (h : t.unpassed = s.unpassed) (w : WaferName) : t.wafer w = s.wafer w := by
  have zero : t.lots.zero.wafers = s.lots.zero.wafers := (congrArg (fun x : State => x.lots.zero.wafers) h :)
  have one : t.lots.one.wafers = s.lots.one.wafers := (congrArg (fun x : State => x.lots.one.wafers) h :)
  obtain ⟨k, n⟩ := w
  cases k
  · exact congrArg (fun l => getAt l n) zero
  · exact congrArg (fun l => getAt l n) one

theorem State.lotPass_handling (s : State) : s.lotPass.handling = s.handling := (congrArg State.handling s.lotPass_unpassed :)
theorem State.lotPass_scratch (s : State) : s.lotPass.scratch = s.scratch := (congrArg State.scratch s.lotPass_unpassed :)
theorem State.lotPass_wafer (s : State) (w : WaferName) : s.lotPass.wafer w = s.wafer w := State.unpassed_wafer s.lotPass_unpassed w

/-! ## What a load request and the sending of orders leave alone -/

/-- A state without the motion unit, the handling unit, and what is sent and told. -/
def State.still (s : State) : State :=
  { s with
    motion := State.reset.motion, handling := State.reset.handling, out := []
    scratch := { s.scratch with msgs := [] } }

section
variable (s : State)

@[simp] theorem State.setMotion_still (m : Motion) : (s.setMotion m).still = s.still := rfl
@[simp] theorem State.setGroup_still (g : MotionGroup) (r : GroupRecord) : (s.setGroup g r).still = s.still := rfl
@[simp] theorem State.setHandling_still (h : Handling) : (s.setHandling h).still = s.still := rfl
@[simp] theorem State.say_still (m : Msg) : (s.say m).still = s.still := rfl
@[simp] theorem State.sayAll_still (ms : List Msg) : (s.sayAll ms).still = s.still := rfl
@[simp] theorem State.sendMove_still (t : MoveTarget) (rs : List Requester) : (s.sendMove t rs).still = s.still := rfl

@[simp] theorem State.judgeMove_still (t : MoveTarget) (rs : List Requester) : (s.judgeMove t rs).still = s.still := by
  unfold State.judgeMove
  split <;> rfl

@[simp] theorem State.waitMove_still (w : WaitingMove) : (s.waitMove w).still = s.still := by
  unfold State.waitMove
  dsimp only
  split <;> rfl

@[simp] theorem State.waitLoad_still (r : Requester) : (s.waitLoad r).still = s.still := by
  unfold State.waitLoad
  repeat' split
  all_goals simp

@[simp] theorem State.requestLoad_still (u : MoveUnit) : (s.requestLoad u).still = s.still := by
  unfold State.requestLoad
  dsimp only
  repeat' split
  all_goals simp

@[simp] theorem State.askLoad_still : s.askLoad.still = s.still := by
  unfold State.askLoad
  split <;> simp

@[simp] theorem State.chooseRobot_still : s.chooseRobot.still = s.still := by
  unfold State.chooseRobot
  repeat' split
  all_goals rfl

@[simp] theorem State.choosePrealign_still : s.choosePrealign.still = s.still := by
  unfold State.choosePrealign
  repeat' split
  all_goals rfl

@[simp] theorem State.chooseMap_still (p : Slot) : (s.chooseMap p).still = s.still := by
  unfold State.chooseMap
  split <;> rfl

@[simp] theorem State.restHandling_still : s.restHandling.still = s.still := by
  unfold State.restHandling
  split <;> rfl

@[simp] theorem State.sends_still : s.sends.still = s.still := by
  unfold State.sends
  split
  · simp
  · rfl

end

/-- A state without what the handling unit's orders change. -/
def State.unsent (s : State) : State := { s.rest with handling := State.reset.handling }

theorem State.sends_unsent (s : State) : s.sends.unsent = s.unsent :=
  congrArg (fun x : State => { x with af := State.reset.af, grab := State.reset.grab }) s.sends_still

theorem State.unsent_lots {s t : State} (h : t.unsent = s.unsent) : t.lots = s.lots := (congrArg State.lots h :)

/-! ## The consequences together -/

theorem State.drain_none {s : State} (h : s.scratch.msgs = []) : s.drain = s := by
  have drained (n : Nat) : State.drainFor n s = s := by
    cases n with
    | zero => rfl
    | succ n => simp only [State.drainFor, h]
  exact drained _

/-- With nothing told and no order to send, the consequences are the lots' passing. -/
theorem State.settle_stopped {s : State} (hm : s.scratch.msgs = []) (hs : s.handling.state.mayOrder = false) : s.settle = s.lotPass := by
  have passed : s.lotPass.sends = s.lotPass :=
    if_neg (by rw [State.lotPass_handling, hs]; exact Bool.false_ne_true)
  rw [State.settle, State.drain_none hm, passed, State.drain_none (by rw [State.lotPass_scratch]; exact hm)]

theorem State.settle_wafers (s : State) : WafersStep s s.settle := by
  have drained := (Told.drain s).wafers
  have passed : WafersStep s.drain s.drain.lotPass := .of (State.lotPass_wafer _)
  have sent : WafersStep s.drain.lotPass s.drain.lotPass.sends :=
    .of fun v => State.wafer_congr (State.unsent_lots (State.sends_unsent _)) v
  exact ((drained.trans passed).trans sent).trans (Told.drain _).wafers

theorem State.after_wafer (s : State) {u : State} {w : WaferName} {x : Wafer} (hx : u.wafer w = some x) :
    ∃ y, (s.after u).wafer w = some y ∧ WaferStep x y := by
  rw [State.after, State.finish_wafer]
  exact u.settle_wafers w x hx

theorem Two.get_set (x : Two α) (p q : Slot) (a : α) : (x.set p a).get q = if q = p then a else x.get q := by
  cases p <;> cases q <;> rfl

/-- A mapper without a MAP asked for stays as it is. -/
theorem State.chooseMap_mapper {s : State} {p : Slot} (h : s.handling.mapRequest.get p = false) (q : Slot) :
    (s.chooseMap q).handling.mapper.get p = s.handling.mapper.get p ∧ (s.chooseMap q).handling.mapRequest.get p = false := by
  unfold State.chooseMap
  split
  · rename_i asked
    have other : p ≠ q := by
      rintro rfl
      rw [h] at asked
      cases asked
    refine ⟨?_, ?_⟩
    · exact (Two.get_set _ _ _ _).trans (if_neg other)
    · exact ((Two.get_set _ _ _ _).trans (if_neg other)).trans h
  · exact ⟨rfl, h⟩

theorem State.rest_handling {s t : State} (h : t.rest = s.rest) : t.handling = s.handling := (congrArg State.handling h :)

/-- A mapper without a MAP asked for is not used by what the handling unit sends (R29). -/
theorem State.sends_mapper {s : State} {p : Slot} (h : s.handling.mapRequest.get p = false) :
    s.sends.handling.mapper.get p = s.handling.mapper.get p := by
  unfold State.sends
  split
  · have asked : s.askLoad.handling = s.handling := by
      unfold State.askLoad
      split
      · exact State.rest_handling (s.requestLoad_rest _)
      · rfl
    have robot (t : State) : t.chooseRobot.handling.mapper = t.handling.mapper ∧ t.chooseRobot.handling.mapRequest = t.handling.mapRequest := by
      unfold State.chooseRobot
      repeat' split
      all_goals exact ⟨rfl, rfl⟩
    have prealign (t : State) : t.choosePrealign.handling.mapper = t.handling.mapper
        ∧ t.choosePrealign.handling.mapRequest = t.handling.mapRequest := by
      unfold State.choosePrealign
      repeat' split
      all_goals exact ⟨rfl, rfl⟩
    have rested (t : State) : t.restHandling.handling.mapper = t.handling.mapper := by
      unfold State.restHandling
      split <;> rfl
    obtain ⟨robotMapper, robotRequest⟩ := robot s.askLoad
    obtain ⟨prealignMapper, prealignRequest⟩ := prealign s.askLoad.chooseRobot
    have clear : s.askLoad.chooseRobot.choosePrealign.handling.mapRequest.get p = false := by
      rw [prealignRequest, robotRequest, asked]
      exact h
    obtain ⟨zeroMapper, zeroClear⟩ := State.chooseMap_mapper clear .zero
    obtain ⟨oneMapper, -⟩ := State.chooseMap_mapper zeroClear .one
    rw [rested, oneMapper, zeroMapper, prealignMapper, robotMapper, asked]
  · rfl

/-- What the consequences do to the handling unit is what it sends in them. -/
theorem State.settle_handling (s : State) : ∃ d : State, d.handling = s.handling ∧ s.settle.handling = d.sends.handling :=
  ⟨s.drain.lotPass, (State.lotPass_handling _).trans (Told.drain s).handling, (Told.drain _).handling⟩

theorem State.settle_mapper {s : State} {p : Slot} (h : s.handling.mapRequest.get p = false) :
    s.settle.handling.mapper.get p = s.handling.mapper.get p := by
  obtain ⟨d, same, sent⟩ := s.settle_handling
  rw [sent, State.sends_mapper (by rw [same]; exact h), same]

/-- A stopped handling unit stays as it is by consequences. -/
theorem State.after_stopped (s : State) {u : State} (h : u.handling.state.mayOrder = false) : (s.after u).handling = u.handling := by
  rw [State.after, State.finish_handling]
  exact (quiet_settle (.refl u)).handling.stopped h

theorem State.after_mem_clock_cell (s : State) {u : State} (h : u.mem = s.mem ∧ u.clock = s.clock ∧ u.cell = s.cell) :
    (s.after u).mem = s.mem ∧ (s.after u).clock = s.clock ∧ (s.after u).cell = s.cell := by
  obtain ⟨mem, clock, cell⟩ := h
  have kept := u.settle_kept
  simp only [State.after, State.finish_mem, State.finish_clock, State.finish_cell]
  exact ⟨(congrArg Kept.mem kept).trans mem, (congrArg Kept.clock kept).trans clock, (congrArg Kept.cell kept).trans cell⟩

end Sys2Proof.Machine
end

section
/-! SUPPORT. The handler link's replies, faults and timeouts, the interlock, and the map's results: O30, O34, O35, O36, O37. -/

namespace Sys2Proof.Machine

/-! ## The interlock (R28, R35) -/

theorem Handling.rest_cases (h : Handling) : h.rest = .idle ∨ h.rest = .busy := by
  unfold Handling.rest
  split
  · exact .inr rfl
  · exact .inl rfl

theorem HandlingState.mayOrder_iff {x : HandlingState} : x.mayOrder = true ↔ x = .idle ∨ x = .busy := by
  cases x <;> simp [HandlingState.mayOrder]

/-- Settles O30: by the line's level and the handling state. -/
theorem interlockHoldsHandling : Obligations.InterlockHoldsHandling := by
  intro s
  refine ⟨fun closed => ?_, fun open_ => ?_, fun open_ => exec_nothing (by nofun) (if_pos open_), fun closed =>
    exec_nothing (by nofun) (if_neg (by rw [Bool.not_eq_true]; exact closed))⟩
  · refine ⟨_, exec_effect (by nofun) s, ?_⟩
    have opened : s.begin.effect .interlockOpen = s.begin.opensInterlock := if_neg (by rw [Bool.not_eq_true]; exact closed)
    rw [State.finish_content, opened]
    unfold State.opensInterlock
    dsimp only
    by_cases orders : s.handling.state = .idle ∨ s.handling.state = .busy
    · have may : (s.begin.setInterlock true).handling.state.mayOrder = true := HandlingState.mayOrder_iff.2 orders
      rw [if_pos may, if_pos orders]
      rfl
    · have mayNot : ¬ (s.begin.setInterlock true).handling.state.mayOrder = true := fun h => orders (HandlingState.mayOrder_iff.1 h)
      rw [if_neg mayNot, if_neg orders]
      rfl
  · let b := s.begin.setInterlock false
    let u := if b.handling.state = .hold then b.setHandling { b.handling with state := b.handling.rest } else b
    have closes : s.begin.effect .interlockClose = u.settle := if_pos open_
    refine ⟨_, exec_after (by nofun) closes, fun held => ?_, fun stopped => ?_, s.after_content_kept ?_⟩
    · have goesOn : u.handling.state.mayOrder = true := by
        show (if s.handling.state = .hold then b.setHandling { b.handling with state := b.handling.rest } else b).handling.state.mayOrder
          = true
        rw [if_pos held]
        exact HandlingState.mayOrder_iff.2 b.handling.rest_cases
      rw [State.after, State.finish_handling]
      exact HandlingState.mayOrder_iff.1 ((quiet_settle (.refl u)).handling.ordering goesOn)
    · have same : u = b := by
        refine if_neg fun held => ?_
        have held : s.handling.state = .hold := held
        rw [held] at stopped
        simp at stopped
      have halted : u.handling.state.mayOrder = false := by
        rw [same]
        show s.handling.state.mayOrder = false
        generalize s.handling.state = x at stopped
        revert stopped
        cases x <;> simp [HandlingState.mayOrder]
      rw [s.after_stopped halted, same]
      rfl
    · show (if b.handling.state = .hold then b.setHandling { b.handling with state := b.handling.rest } else b).kept = _
      split <;> rfl

/-! ## Prealignment (R30) -/

/-- Settles O34: by the wafer's state set, and what consequences leave of the others. -/
theorem prealignDoneMakesTheWaferReady : Obligations.PrealignDoneMakesTheWaferReady := by
  intro s o w ho hw hs
  have ran : s.begin.effect (.prealignDone o.tag) = (s.begin.endPrealign.setWaferState w .ready).settle := by
    have ho : s.begin.handling.prealigner = some o := ho
    have hw : s.begin.endPrealign.at .pa = .wafer w := hw
    have hs : s.begin.endPrealign.waferState w = some .prealigning := hs
    show s.begin.prealignReply o.tag = _
    simp only [State.prealignReply, ho, if_true, State.prealignDone, hw, hs]
  have set (v : WaferName) : (s.begin.endPrealign.setWaferState w .ready).waferState v
      = if v = w then (s.waferState v).map (fun _ => .ready) else s.waferState v := State.waferState_setWaferState _ w v _
  have ready : (s.begin.endPrealign.setWaferState w .ready).waferState w = some .ready := by
    rw [set, if_pos rfl, hs]
    rfl
  have quiet := quiet_settle (.refl (s.begin.endPrealign.setWaferState w .ready))
  refine ⟨_, exec_after (by nofun) ran, ?_, fun v other staged => ?_, s.after_content_kept ?_⟩
  · rw [State.after, State.finish_waferState, quiet.waferState_eq w (by rw [ready]; nofun), ready]
  · have same : (s.begin.endPrealign.setWaferState w .ready).waferState v = s.waferState v := by rw [set, if_neg other]
    rw [State.after, State.finish_waferState, quiet.waferState_eq v (by rw [same]; exact staged), same]
  · exact State.kept_modWafer _ _ _

/-! ## Halting (R28) -/

/-- A state without the handling unit and the notices. -/
def State.unhalted (s : State) : State := { s with handling := State.reset.handling, notice := State.reset.notice }

theorem State.enterHalted_unhalted (s : State) : s.enterHalted.unhalted = s.unhalted := by
  unfold State.enterHalted State.raise
  split <;> rfl

theorem State.halt_unhalted (s : State) : s.halt.unhalted = s.unhalted := by
  unfold State.halt
  split
  all_goals first | exact s.enterHalted_unhalted | rfl

theorem State.unhalted_others {s t : State} (h : t.unhalted = s.unhalted) :
    t.mem = s.mem ∧ t.clock = s.clock ∧ t.cell = s.cell ∧ t.scratch.msgs = s.scratch.msgs ∧ t.lots = s.lots :=
  ⟨(congrArg State.mem h :), (congrArg State.clock h :), (congrArg State.cell h :), (congrArg (fun x : State => x.scratch.msgs) h :),
    (congrArg State.lots h :)⟩

theorem State.enterHalted_handling (s : State) : s.enterHalted.handling = { s.handling with state := .halted, haltMark := false } := by
  unfold State.enterHalted State.raise
  split <;> rfl

theorem State.halt_handling {s : State} (h : s.handling.state ∈ [.idle, .busy, .hold]) :
    s.halt.handling = { s.handling with state := .halted, haltMark := false } := by
  simp only [List.mem_cons, List.not_mem_nil, or_false] at h
  unfold State.halt
  obtain h | h | h := h <;> rw [h] <;> exact s.enterHalted_handling

/-- With nothing told, a step that stops the handling unit leaves the wafers as its own effect made them. -/
theorem State.after_wafer_stopped (s : State) {u : State} (hm : u.scratch.msgs = []) (hs : u.handling.state.mayOrder = false)
    (w : WaferName) : (s.after u).wafer w = u.wafer w := by
  rw [State.after, State.finish_wafer, State.settle_stopped hm hs, State.lotPass_wafer]

/-! ## Faults and timeouts of robot orders (R27, R36, R37) -/

theorem State.robotWith_order {s : State} {o : RobotOrder} (ho : s.handling.robot = some o) : s.robotWith o.tag = some o.kind := by
  simp only [State.robotWith, ho, if_true]

theorem exec_robotFault {s : State} {o : RobotOrder} (ho : s.handling.robot = some o) (code : HandlerFaultCode) :
    exec (.handlerFault .robot o.tag code) s = .next (s.after (s.begin.endRobot.robotFault o.kind code)) := by
  refine exec_after (by nofun) ?_
  show s.begin.faultReply .robot o.tag code = _
  simp only [State.faultReply, State.robotWith_order (s := s.begin) ho]

theorem exec_robotTimeout {s : State} {o : RobotOrder} (ho : s.handling.robot = some o) (due : o.timer.due s.clock = true) :
    exec (.handlerOrderTimeout .robot) s = .next (s.after (s.begin.endRobot.robotTimesOut o.kind)) := by
  have ho : s.begin.handling.robot = some o := ho
  refine exec_after (by nofun) ?_
  show s.begin.handlerTimesOut .robot = _
  simp only [State.handlerTimesOut, ho]
  exact State.whenDue_due s.begin due _

/-- A move's fault: the suspect wafer, the uncertain move, and the halt (R36, R37). -/
def State.moveFaults (s : State) (k : RobotKind) (suspect uncertain : Bool) : State :=
  let s := if suspect then s.markSuspect k else s
  (if uncertain then s.recordUncertain k else s).halt

theorem State.robotFault_move {k : RobotKind} {src : Loc} (hk : k.source = some src) (s : State) (code : HandlerFaultCode) :
    s.robotFault k code = s.moveFaults k (decide (code = .vacuumLost)) (HandlerFaultCode.uncertain code) := by
  cases k with
  | inventory => cases hk
  | pick l a => by_cases h : code = .vacuumLost <;> simp [State.robotFault, State.moveFaults, h]
  | place l a => by_cases h : code = .vacuumLost <;> simp [State.robotFault, State.moveFaults, h]

theorem State.robotTimesOut_move {k : RobotKind} {src : Loc} (hk : k.source = some src) (s : State) :
    s.robotTimesOut k = s.moveFaults k false true := by
  cases k with
  | inventory => cases hk
  | pick l a => rfl
  | place l a => rfl

theorem State.bare_others {s t : State} (h : t.bare = s.bare) :
    t.handling = s.handling ∧ t.mem = s.mem ∧ t.clock = s.clock ∧ t.cell = s.cell ∧ t.scratch.msgs = s.scratch.msgs :=
  ⟨(congrArg State.handling h :), (congrArg State.mem h :), (congrArg State.clock h :), (congrArg State.cell h :),
    (congrArg (fun x : State => x.scratch.msgs) h :)⟩

/-- The wafer at a source becomes suspect, and its QUEUED entries end (R37). -/
theorem State.markSuspect_facts {s : State} {k : RobotKind} {src : Loc} (hk : k.source = some src) :
    (s.markSuspect k).handling = s.handling ∧ (s.markSuspect k).mem = s.mem ∧ (s.markSuspect k).clock = s.clock
    ∧ (s.markSuspect k).cell = s.cell ∧ (s.markSuspect k).scratch.msgs = s.scratch.msgs
    ∧ ∀ w x, s.at src = .wafer w → s.wafer w = some x →
      (s.markSuspect k).wafer w = some { x with pendingResult := some .suspect } := by
  generalize ho : s.at src = occupant
  cases occupant with
  | wafer w =>
    have marked : s.markSuspect k = (s.modWafer w fun x => { x with pendingResult := some .suspect }).endQueued w .waferUnavailable := by
      simp only [State.markSuspect, hk, ho]
    have bare := (s.modWafer w fun x => { x with pendingResult := some .suspect }).endQueued_bare w .waferUnavailable
    obtain ⟨handling, mem, clock, cell, msgs⟩ := State.bare_others bare
    rw [marked]
    refine ⟨handling, mem, clock, cell, msgs, fun v x hv hx => ?_⟩
    obtain rfl : w = v := Occupant.wafer.inj hv
    rw [State.wafer_congr (State.bare_lots bare), State.wafer_modWafer, if_pos rfl, hx]
    rfl
  | empty =>
    have same : s.markSuspect k = s := by simp only [State.markSuspect, hk, ho]
    rw [same]
    refine ⟨rfl, rfl, rfl, rfl, rfl, fun v x hv => ?_⟩
    cases hv
  | unknown =>
    have same : s.markSuspect k = s := by simp only [State.markSuspect, hk, ho]
    rw [same]
    refine ⟨rfl, rfl, rfl, rfl, rfl, fun v x hv => ?_⟩
    cases hv

theorem State.recordUncertain_eq {s : State} {k : RobotKind} {src dst : Loc} (hk : k.source = some src) (hd : k.destination = some dst) :
    s.recordUncertain k = s.setHandling { s.handling with
      uncertain := if s.at src = .unknown then s.handling.uncertain else some ⟨s.at src, src, dst⟩ } := by
  simp only [State.recordUncertain, hk, hd]
  split <;> rfl

/-- What a move's fault leaves, whatever it was (R27, R36, R37). -/
theorem State.moveFaults_facts {s : State} {k : RobotKind} {src dst : Loc} (hk : k.source = some src) (hd : k.destination = some dst)
    (state : s.handling.state ∈ [.idle, .busy, .hold]) (suspect uncertain : Bool) :
    (s.moveFaults k suspect uncertain).handling = { s.handling with
        state := .halted, haltMark := false
        uncertain := if uncertain = true ∧ s.at src ≠ .unknown then some ⟨s.at src, src, dst⟩ else s.handling.uncertain }
    ∧ (s.moveFaults k suspect uncertain).mem = s.mem ∧ (s.moveFaults k suspect uncertain).clock = s.clock
    ∧ (s.moveFaults k suspect uncertain).cell = s.cell ∧ (s.moveFaults k suspect uncertain).scratch.msgs = s.scratch.msgs
    ∧ (suspect = true → ∀ w x, s.at src = .wafer w → s.wafer w = some x →
      (s.moveFaults k suspect uncertain).wafer w = some { x with pendingResult := some .suspect }) := by
  generalize hb : (if suspect = true then s.markSuspect k else s) = b
  obtain ⟨handling, mem, clock, cell, msgs, wafer⟩ : b.handling = s.handling ∧ b.mem = s.mem ∧ b.clock = s.clock ∧ b.cell = s.cell
      ∧ b.scratch.msgs = s.scratch.msgs ∧ (suspect = true → ∀ w x, s.at src = .wafer w → s.wafer w = some x →
        b.wafer w = some { x with pendingResult := some .suspect }) := by
    rw [← hb]
    cases suspect with
    | true =>
      obtain ⟨handling, mem, clock, cell, msgs, wafer⟩ := State.markSuspect_facts (s := s) hk
      exact ⟨handling, mem, clock, cell, msgs, fun _ => wafer⟩
    | false => exact ⟨rfl, rfl, rfl, rfl, rfl, nofun⟩
  have place : b.at src = s.at src := State.at_congr (by rw [handling]) src
  generalize hd' : (if uncertain = true then b.recordUncertain k else b) = d
  have recorded : d = b.setHandling { b.handling with
      uncertain := if uncertain = true ∧ s.at src ≠ .unknown then some ⟨s.at src, src, dst⟩ else b.handling.uncertain } := by
    rw [← hd']
    cases uncertain with
    | true =>
      rw [if_pos rfl, State.recordUncertain_eq hk hd, place]
      by_cases unknown : s.at src = .unknown <;> simp [unknown]
    | false => simp [State.setHandling]
  have faults : s.moveFaults k suspect uncertain = d.halt := by
    rw [State.moveFaults, hb, hd']
  obtain ⟨mem', clock', cell', msgs', lots'⟩ := State.unhalted_others d.halt_unhalted
  rw [faults, mem', clock', cell', msgs', recorded]
  refine ⟨?_, mem, clock, cell, msgs, fun hs w x hw hx => ?_⟩
  · rw [State.halt_handling (by show b.handling.state ∈ _; rw [handling]; exact state)]
    show ({ b.handling with
      state := .halted, haltMark := false
      uncertain := if uncertain = true ∧ s.at src ≠ .unknown then some ⟨s.at src, src, dst⟩ else b.handling.uncertain } : Handling) = _
    rw [handling]
  · rw [← recorded, State.wafer_congr lots', recorded]
    exact wafer hs w x hw hx

theorem HandlerFaultCode.uncertain_iff (code : HandlerFaultCode) :
    HandlerFaultCode.uncertain code = true ↔ code ∈ [.vacuumLost, .stopped, .driveFault] := by
  cases code <;> simp [HandlerFaultCode.uncertain]

theorem State.halt_of {s : State} (h : s.handling.state ∈ [.idle, .busy, .hold]) : s.halt = s.enterHalted := by
  simp only [List.mem_cons, List.not_mem_nil, or_false] at h
  unfold State.halt
  obtain h | h | h := h <;> rw [h]

theorem State.enterHalted_kept (s : State) : s.enterHalted.kept = { s.kept with haltMark := false } := by
  unfold State.enterHalted State.raise
  split <;> rfl

/-- The end of a step whose own effect ends in HALTED (R28). -/
theorem State.after_halted {s b : State} (h : b.handling.state ∈ [.idle, .busy, .hold]) :
    (s.after b.halt).handling = { b.handling with state := .halted, haltMark := false } := by
  have handling := State.halt_handling h
  rw [s.after_stopped (by rw [handling]; rfl), handling]

theorem State.after_enterHalted (s b : State) : (s.after b.enterHalted).handling = { b.handling with state := .halted, haltMark := false } := by
  rw [s.after_stopped (by rw [b.enterHalted_handling]; rfl), b.enterHalted_handling]

theorem State.after_halt_kept {s b v : State} (h : b.handling.state ∈ [.idle, .busy, .hold])
    (hk : ({ b.kept with haltMark := false } : Kept) = v.kept) : (s.after b.halt).content.kept = v.content.kept := by
  refine s.after_content_kept ?_
  rw [State.halt_of h, State.enterHalted_kept]
  exact hk

theorem State.after_halt_others {s b : State} (h : b.mem = s.mem ∧ b.clock = s.clock ∧ b.cell = s.cell) :
    (s.after b.halt).mem = s.mem ∧ (s.after b.halt).clock = s.clock ∧ (s.after b.halt).cell = s.cell := by
  obtain ⟨mem, clock, cell, -, -⟩ := State.unhalted_others b.halt_unhalted
  exact s.after_mem_clock_cell ⟨mem.trans h.1, clock.trans h.2.1, cell.trans h.2.2⟩

theorem State.after_enterHalted_others {s b : State} (h : b.mem = s.mem ∧ b.clock = s.clock ∧ b.cell = s.cell) :
    (s.after b.enterHalted).mem = s.mem ∧ (s.after b.enterHalted).clock = s.clock ∧ (s.after b.enterHalted).cell = s.cell := by
  obtain ⟨mem, clock, cell, -, -⟩ := State.unhalted_others b.enterHalted_unhalted
  exact s.after_mem_clock_cell ⟨mem.trans h.1, clock.trans h.2.1, cell.trans h.2.2⟩

/-- A cancelled MAP's end frees its mapper, and what the handling unit then sends comes after (R29). -/
theorem State.freesMapper (s : State) (p : Slot) : s.FreesMapper (s.after (s.begin.setMapper p none)) p := by
  have quiet := quiet_settle (.refl (s.begin.setMapper p none))
  have freed : (s.begin.setMapper p none).handling.mapper.get p = none := (Two.get_set _ _ _ _).trans (if_pos rfl)
  refine ⟨fun clear => ⟨?_, ?_⟩, fun orders => ?_, fun stopped => s.after_stopped stopped, s.after_content_kept rfl⟩
  · rw [State.after, State.finish_handling, State.settle_mapper (s := s.begin.setMapper p none) clear, freed]
  · rw [State.after, State.finish_handling]
    exact quiet.handling.mapRequest p clear
  · rw [State.after, State.finish_handling]
    exact quiet.handling.ordering orders

/-- A MAP's fault or due timeout: freed when cancelled, and else asked for again with the halt (R29). -/
theorem State.mapperReply_cancelled {s : State} {o : MapOrder} (hc : o.cancelled = true) (p : Slot) :
    (if o.cancelled = true then s.setMapper p none else (s.setMapper p none).mapFails p) = s.setMapper p none := if_pos hc

theorem exec_mapperFault {s : State} {p : Slot} {o : MapOrder} (ho : s.handling.mapper.get p = some o) (code : HandlerFaultCode) :
    exec (.handlerFault (.mapper p) o.tag code) s = .next (s.after
      (if o.cancelled = true then s.begin.setMapper p none else (s.begin.setMapper p none).mapFails p)) := by
  have ho : s.begin.handling.mapper.get p = some o := ho
  refine exec_after (by nofun) ?_
  show s.begin.faultReply (.mapper p) o.tag code = _
  simp only [State.faultReply, ho, if_true]

theorem exec_mapperTimeout {s : State} {p : Slot} {o : MapOrder} (ho : s.handling.mapper.get p = some o)
    (due : o.timer.due s.clock = true) : exec (.handlerOrderTimeout (.mapper p)) s = .next (s.after
      (if o.cancelled = true then s.begin.setMapper p none else (s.begin.setMapper p none).mapFails p)) := by
  have ho : s.begin.handling.mapper.get p = some o := ho
  refine exec_after (by nofun) ?_
  show s.begin.handlerTimesOut (.mapper p) = _
  simp only [State.handlerTimesOut, ho]
  exact State.whenDue_due s.begin due _

theorem exec_prealignFault {s : State} {o : PrealignOrder} (ho : s.handling.prealigner = some o) (code : HandlerFaultCode) :
    exec (.handlerFault .prealigner o.tag code) s = .next (s.after s.begin.endPrealign.halt) := by
  have ho : s.begin.handling.prealigner = some o := ho
  refine exec_after (by nofun) ?_
  show s.begin.faultReply .prealigner o.tag code = _
  simp only [State.faultReply, ho, if_true]

theorem exec_prealignTimeout {s : State} {o : PrealignOrder} (ho : s.handling.prealigner = some o) (due : o.timer.due s.clock = true) :
    exec (.handlerOrderTimeout .prealigner) s = .next (s.after s.begin.endPrealign.halt) := by
  have ho : s.begin.handling.prealigner = some o := ho
  refine exec_after (by nofun) ?_
  show s.begin.handlerTimesOut .prealigner = _
  simp only [State.handlerTimesOut, ho]
  exact State.whenDue_due s.begin due _

theorem State.inventoryFails_inventory {s : State} (h : s.handling.state = .inventory) : s.inventoryFails = s.enterHalted := if_pos h

/-- Settles O36: by the unit the fault comes from. -/
theorem handlerFaultsHaltHandling : Obligations.HandlerFaultsHaltHandling := by
  intro s code
  refine ⟨fun o src dst state ho hsrc hdst => ⟨_, exec_robotFault ho code, ?_⟩, fun o state ho hk => ⟨_, exec_robotFault ho code, ?_⟩,
    fun o state ho => ⟨_, exec_prealignFault ho code, ?_⟩, fun p o state ho hc => ⟨_, exec_mapperFault ho code, ?_⟩,
    fun p o ho hc => ⟨_, exec_mapperFault ho code, ?_⟩⟩
  · obtain ⟨handling, mem, clock, cell, msgs, suspect⟩ := State.moveFaults_facts (s := s.begin.endRobot) hsrc hdst state
      (decide (code = .vacuumLost)) (HandlerFaultCode.uncertain code)
    rw [State.robotFault_move hsrc]
    have stopped : (s.begin.endRobot.moveFaults o.kind (decide (code = .vacuumLost)) (HandlerFaultCode.uncertain code)).handling.state.mayOrder
        = false := by rw [handling]; rfl
    refine ⟨?_, fun vacuum w x hw hx => ?_, s.after_mem_clock_cell ⟨mem, clock, cell⟩⟩
    · rw [s.after_stopped stopped, handling]
      simp only [HandlerFaultCode.uncertain_iff]
      rfl
    · refine ⟨_, (s.after_wafer_stopped (msgs.trans rfl) stopped w).trans (suspect (decide_eq_true vacuum) w x hw hx), rfl, rfl⟩
  · have fails : s.begin.endRobot.robotFault o.kind code = s.begin.endRobot.enterHalted := by
      rw [hk]
      exact State.inventoryFails_inventory (s := s.begin.endRobot) state
    rw [fails]
    exact ⟨State.after_enterHalted _ _, State.after_enterHalted_others (b := s.begin.endRobot) ⟨rfl, rfl, rfl⟩⟩
  · exact ⟨State.after_halted (b := s.begin.endPrealign) state, State.after_halt_kept (b := s.begin.endPrealign) state rfl⟩
  · rw [if_neg (by rw [hc]; exact Bool.false_ne_true)]
    exact ⟨State.after_halted (b := (s.begin.setMapper p none).setMapRequest p true) state,
      State.after_halt_kept (b := (s.begin.setMapper p none).setMapRequest p true) state rfl⟩
  · rw [State.mapperReply_cancelled hc]
    exact s.freesMapper p

/-- Settles O37: by the unit whose order's timer it is. -/
theorem handlerTimeoutsHaltHandling : Obligations.HandlerTimeoutsHaltHandling := by
  intro s
  refine ⟨fun state => ⟨fun o src dst ho due hsrc hdst known => ⟨_, exec_robotTimeout ho due, ?_⟩,
    fun o ho due => ⟨_, exec_prealignTimeout ho due, ?_⟩, fun p o ho due hc => ⟨_, exec_mapperTimeout ho due, ?_⟩⟩,
    fun o state ho hk due => ⟨_, exec_robotTimeout ho due, ?_⟩, fun p o ho due hc => ⟨_, exec_mapperTimeout ho due, ?_⟩,
    fun u robot prealigner mapper => exec_nothing (by nofun) ?_⟩
  · obtain ⟨handling, mem, clock, cell, -, -⟩ := State.moveFaults_facts (s := s.begin.endRobot) hsrc hdst state false true
    rw [State.robotTimesOut_move hsrc, s.after_stopped (by rw [handling]; rfl), handling, if_pos ⟨rfl, known⟩]
    exact ⟨rfl, s.after_mem_clock_cell ⟨mem, clock, cell⟩⟩
  · exact ⟨State.after_halted (b := s.begin.endPrealign) state, State.after_halt_others (b := s.begin.endPrealign) ⟨rfl, rfl, rfl⟩⟩
  · rw [if_neg (by rw [hc]; exact Bool.false_ne_true)]
    exact ⟨State.after_halted (b := (s.begin.setMapper p none).setMapRequest p true) state,
      State.after_halt_others (b := (s.begin.setMapper p none).setMapRequest p true) ⟨rfl, rfl, rfl⟩⟩
  · have fails : s.begin.endRobot.robotTimesOut o.kind = s.begin.endRobot.enterHalted := by
      rw [hk]
      exact State.inventoryFails_inventory (s := s.begin.endRobot) state
    rw [fails]
    exact ⟨State.after_enterHalted _ _, State.after_enterHalted_others (b := s.begin.endRobot) ⟨rfl, rfl, rfl⟩⟩
  · rw [State.mapperReply_cancelled hc]
    exact s.freesMapper p
  · show s.begin.handlerTimesOut u = _
    unfold State.handlerTimesOut
    cases u with
    | robot =>
      dsimp only
      split
      · rename_i o ho
        exact State.whenDue_not s.begin (robot rfl o ho) _
      · rfl
    | prealigner =>
      dsimp only
      split
      · rename_i o ho
        exact State.whenDue_not s.begin (prealigner rfl o ho) _
      · rfl
    | mapper p =>
      dsimp only
      split
      · rename_i o ho
        exact State.whenDue_not s.begin (mapper p o rfl ho) _
      · rfl

/-! ## A map's results (R12) -/

/-- The state a map answer leaves a WAITING wafer in (R11). -/
def leftBy : MapAnswer → WaferState
  | .present => .waiting
  | .empty => .absent
  | .double | .cross => .mapFault

/-- A wafer's record after its map answer (R11, R12). -/
def Wafer.mapped (a : MapAnswer) (x : Wafer) : Wafer :=
  if x.state = .waiting ∧ a ≠ .present then { x with mapResult := .answered a, state := leftBy a, finalResult := .notProcessed }
  else { x with mapResult := .answered a }

theorem Wafer.mapped_facts (a : MapAnswer) (x : Wafer) : (x.mapped a).mapResult = .answered a
    ∧ (x.state = .waiting → (x.mapped a).state = leftBy a)
    ∧ (x.state = .waiting → a ≠ .present → (x.mapped a).finalResult = .notProcessed)
    ∧ (x.state ≠ .waiting → (x.mapped a).state = x.state) := by
  unfold Wafer.mapped
  split
  · rename_i h
    exact ⟨rfl, fun _ => rfl, fun _ _ => rfl, fun h' => absurd h.1 h'⟩
  · rename_i h
    refine ⟨rfl, fun waiting => ?_, fun waiting away => absurd ⟨waiting, away⟩ h, fun _ => rfl⟩
    have present : a = .present := Classical.not_not.1 fun away => h ⟨waiting, away⟩
    rw [present]
    exact waiting

/-- A state without what a map's results change: the entries, the rows, the wafers, the places. -/
def State.unmarked (s : State) : State :=
  { s.bare with lots := State.reset.lots, handling := { s.handling with table := State.reset.handling.table } }

@[simp] theorem State.modWafer_unmarked (s : State) (w : WaferName) (f : Wafer → Wafer) : (s.modWafer w f).unmarked = s.unmarked := rfl
@[simp] theorem State.writeFinal_unmarked (s : State) (w : WaferName) (r : FinalResult) : (s.writeFinal w r).unmarked = s.unmarked := rfl

@[simp] theorem State.setAt_unmarked (s : State) (l : Loc) (o : Occupant) : (s.setAt l o).unmarked = s.unmarked := rfl

theorem State.unmarked_of_bare {s t : State} (h : t.bare = s.bare) : t.unmarked = s.unmarked :=
  congrArg (fun x : State => { x with
    lots := State.reset.lots, handling := { x.handling with table := State.reset.handling.table } }) h

@[simp] theorem State.endQueued_unmarked (s : State) (w : WaferName) (why : EntryReason) : (s.endQueued w why).unmarked = s.unmarked :=
  State.unmarked_of_bare (s.endQueued_bare w why)

/-- A WAITING wafer's end by its map answer (R11, R12, R22). -/
theorem State.mappedAway_facts (s : State) (w : WaferName) (st : WaferState) :
    (∀ v, (s.mappedAway w st).wafer v = if v = w then (s.wafer v).map fun x => { x with state := st, finalResult := .notProcessed }
      else s.wafer v)
    ∧ (s.mappedAway w st).at (.carrier w.slot w.n) = .empty
    ∧ (∀ l, s.at l = .empty → (s.mappedAway w st).at l = .empty)
    ∧ (s.mappedAway w st).unmarked = s.unmarked := by
  have bare := (((s.setWaferState w st).writeFinal w .notProcessed).setAt (.carrier w.slot w.n) .empty).endQueued_bare w .waferUnavailable
  have places (l : Loc) : (s.mappedAway w st).at l
      = (((s.setWaferState w st).writeFinal w .notProcessed).setAt (.carrier w.slot w.n) .empty).at l :=
    State.at_congr (by rw [← (State.bare_others bare).1]; rfl) l
  refine ⟨fun v => ?_, ?_, fun l hl => ?_, ?_⟩
  · rw [State.mappedAway, State.wafer_congr (State.bare_lots bare)]
    show ((s.modWafer w fun x => { x with state := st }).modWafer w fun x => { x with finalResult := .notProcessed }).wafer v = _
    rw [State.wafer_modWafer, State.wafer_modWafer]
    split
    · rw [Option.map_map]
      rfl
    · rfl
  · rw [places, State.at_setAt_empty]
  · rw [places]
    by_cases same : l = .carrier w.slot w.n
    · rw [same, State.at_setAt_empty]
    · rw [State.at_setAt_ne same]
      exact hl
  · rw [State.mappedAway, State.endQueued_unmarked, State.setAt_unmarked, State.writeFinal_unmarked]
    rfl

/-- The state in which a wafer's map result is written. -/
def State.answeredAt (s : State) (w : WaferName) (a : MapAnswer) : State := s.modWafer w fun x => { x with mapResult := .answered a }

theorem State.applyMap_away {s : State} {w : WaferName} (hw : s.waferState w = some .waiting) {a : MapAnswer} (ha : a ≠ .present) :
    s.applyMap w a = (s.answeredAt w a).mappedAway w (leftBy a) := by
  have waiting : (s.answeredAt w a).waferState w = some .waiting := (State.waferState_modWafer_of (by exact fun _ => rfl) s w w).trans hw
  cases a with
  | present => exact absurd rfl ha
  | empty => exact if_pos waiting
  | double => exact if_pos waiting
  | cross => exact if_pos waiting

theorem State.applyMap_stays {s : State} {w : WaferName} {a : MapAnswer} (h : ¬ (s.waferState w = some .waiting ∧ a ≠ .present)) :
    s.applyMap w a = s.answeredAt w a := by
  have state : (s.answeredAt w a).waferState w = s.waferState w := State.waferState_modWafer_of (by exact fun _ => rfl) s w w
  unfold State.applyMap
  dsimp only
  split
  · rename_i waiting
    have present : a = .present := Classical.not_not.1 fun away => h ⟨state.symm.trans waiting, away⟩
    rw [present]
    rfl
  · rfl

/-- One wafer's map answer applied (R12). -/
theorem State.applyMap_facts (s : State) (w : WaferName) (a : MapAnswer) :
    (∀ v, (s.applyMap w a).wafer v = if v = w then (s.wafer v).map (·.mapped a) else s.wafer v)
    ∧ (s.waferState w = some .waiting → a ≠ .present → (s.applyMap w a).at (.carrier w.slot w.n) = .empty)
    ∧ (∀ l, s.at l = .empty → (s.applyMap w a).at l = .empty)
    ∧ (s.applyMap w a).unmarked = s.unmarked := by
  have answered (v : WaferName) : (s.answeredAt w a).wafer v
      = if v = w then (s.wafer v).map fun x => { x with mapResult := .answered a } else s.wafer v := State.wafer_modWafer s w v _
  by_cases h : s.waferState w = some .waiting ∧ a ≠ .present
  · obtain ⟨wafer, place, places, same⟩ := (s.answeredAt w a).mappedAway_facts w (leftBy a)
    rw [State.applyMap_away h.1 h.2]
    refine ⟨fun v => ?_, fun _ _ => place, places, same⟩
    rw [wafer, answered]
    split
    · rename_i hv
      obtain ⟨x, hx, waiting⟩ := Option.map_eq_some_iff.1 h.1
      rw [hv, hx, Option.map_some, Option.map_some, Option.map_some, Wafer.mapped, if_pos ⟨waiting, h.2⟩]
    · rfl
  · rw [State.applyMap_stays h]
    refine ⟨fun v => ?_, fun waiting away => absurd ⟨waiting, away⟩ h, fun _ hl => hl, rfl⟩
    rw [answered]
    split
    · rename_i hv
      rw [hv]
      cases hx : s.wafer w with
      | none => rfl
      | some x =>
        rw [Option.map_some, Option.map_some, Wafer.mapped, if_neg]
        rintro ⟨waiting, away⟩
        exact h ⟨by rw [State.waferState, hx, Option.map_some, waiting], away⟩
    · rfl

/-- The answers applied to a port's wafers, one after another. -/
def State.applyMaps (s : State) (p : Slot) (results : List MapAnswer) (l : List Nat) : State :=
  l.foldl (fun s n => match getAt results n with
    | some a => s.applyMap ⟨p, n⟩ a
    | none => s) s

theorem State.applyMaps_cons (s : State) (p : Slot) (results : List MapAnswer) (n : Nat) (l : List Nat) :
    s.applyMaps p results (n :: l) = (((getAt results n).map (s.applyMap ⟨p, n⟩)).getD s).applyMaps p results l := by
  unfold State.applyMaps
  rw [List.foldl_cons]
  cases getAt results n <;> rfl

theorem State.applyMaps_facts (p : Slot) (results : List MapAnswer) (l : List Nat) (nodup : l.Nodup) : ∀ s : State,
    (∀ n, n ∉ l → (s.applyMaps p results l).wafer ⟨p, n⟩ = s.wafer ⟨p, n⟩)
    ∧ (∀ n ∈ l, ∀ a, getAt results n = some a →
      (s.applyMaps p results l).wafer ⟨p, n⟩ = (s.wafer ⟨p, n⟩).map (·.mapped a)
      ∧ (s.waferState ⟨p, n⟩ = some .waiting → a ≠ .present → (s.applyMaps p results l).at (.carrier p n) = .empty))
    ∧ (∀ l', s.at l' = .empty → (s.applyMaps p results l).at l' = .empty)
    ∧ (s.applyMaps p results l).unmarked = s.unmarked := by
  induction l with
  | nil => exact fun s => ⟨fun _ _ => rfl, nofun, fun _ h => h, rfl⟩
  | cons m l ih =>
    intro s
    obtain ⟨fresh, nodup⟩ := List.nodup_cons.1 nodup
    generalize hb : ((getAt results m).map (s.applyMap ⟨p, m⟩)).getD s = b
    obtain ⟨same, here, place, places, unmarked⟩ : (∀ n, n ≠ m → b.wafer ⟨p, n⟩ = s.wafer ⟨p, n⟩)
        ∧ (∀ a, getAt results m = some a → b.wafer ⟨p, m⟩ = (s.wafer ⟨p, m⟩).map (·.mapped a))
        ∧ (∀ a, getAt results m = some a → s.waferState ⟨p, m⟩ = some .waiting → a ≠ .present → b.at (.carrier p m) = .empty)
        ∧ (∀ l', s.at l' = .empty → b.at l' = .empty) ∧ b.unmarked = s.unmarked := by
      rw [← hb]
      cases ha : getAt results m with
      | none => exact ⟨fun _ _ => rfl, nofun, nofun, fun _ h => h, rfl⟩
      | some a =>
        obtain ⟨wafer, place, places, same⟩ := s.applyMap_facts ⟨p, m⟩ a
        refine ⟨fun n hn => (wafer _).trans (if_neg fun h => hn (congrArg WaferName.n h)), fun c hc => ?_, fun c hc => ?_, places, same⟩
        · obtain rfl := Option.some.inj hc
          exact (wafer _).trans (if_pos rfl)
        · obtain rfl := Option.some.inj hc
          exact place
    obtain ⟨others, listed, kept, rest⟩ := ih nodup b
    rw [State.applyMaps_cons, hb]
    refine ⟨fun n hn => ?_, fun n hn a ha => ?_, fun l' h => kept l' (places l' h), rest.trans unmarked⟩
    · rw [List.mem_cons, not_or] at hn
      rw [others n hn.2, same n hn.1]
    · by_cases hnm : n = m
      · subst hnm
        exact ⟨(others n fresh).trans (here a ha), fun waiting away => kept _ (place a ha waiting away)⟩
      · have inl : n ∈ l := (List.mem_cons.1 hn).resolve_left hnm
        obtain ⟨wafer, emptied⟩ := listed n inl a ha
        rw [same n hnm] at wafer
        refine ⟨wafer, fun waiting => emptied ?_⟩
        rw [State.waferState, same n hnm]
        exact waiting

/-! ## The map's reply (R29) -/

theorem slots25_nodup : slots25.Nodup := (List.nodup_range).map (Nat.succ_injective)

theorem getAt_of_le {α : Type} {l : List α} {n : Nat} (low : 1 ≤ n) (high : n ≤ l.length) : ∃ a, getAt l n = some a := by
  obtain ⟨m, rfl⟩ : ∃ m, n = m + 1 := ⟨n - 1, by omega⟩
  exact ⟨l[m], List.getElem?_eq_getElem high⟩

/-- What a reply of a MAP does before its consequences. -/
def State.mapDone (s : State) (p : Slot) (o : MapOrder) (results : List MapAnswer) : State :=
  if o.cancelled then s.setMapper p none else (s.setMapper p none).mapAnswered p results

theorem exec_mapDone {s : State} {p : Slot} {o : MapOrder} (ho : s.handling.mapper.get p = some o) (results : List MapAnswer) :
    exec (.mapDone p o.tag results) s = .next (s.after (s.begin.mapDone p o results)) := by
  have ho : s.begin.handling.mapper.get p = some o := ho
  refine exec_after (by nofun) ?_
  show s.begin.mapReply p o.tag results = _
  simp only [State.mapReply, ho, if_true]
  rfl

/-- The state in which a port's carrier map has been taken. -/
def State.takeMap (s : State) (p : Slot) (results : List MapAnswer) : State :=
  (s.setMapper p none).setHandling { (s.setMapper p none).handling with carrierMap := s.handling.carrierMap.set p (some results) }

theorem State.mapDone_active {s : State} {p : Slot} {o : MapOrder} (hc : o.cancelled = false) (active : (s.lot p).state.takesPosts = true)
    (results : List MapAnswer) : s.mapDone p o results = (s.takeMap p results).applyMaps p results slots25 := by
  rw [State.mapDone, hc]
  exact if_pos active

theorem State.mapDone_inactive {s : State} {p : Slot} {o : MapOrder} (hc : o.cancelled = false) (passive : (s.lot p).state.takesPosts = false)
    (results : List MapAnswer) : s.mapDone p o results = s.takeMap p results := by
  rw [State.mapDone, hc]
  exact if_neg (show ¬ (s.lot p).state.takesPosts = true by rw [passive]; nofun)

theorem State.mapDone_unmarked {s : State} {p : Slot} {o : MapOrder} (hc : o.cancelled = false) (results : List MapAnswer) :
    (s.mapDone p o results).unmarked = (s.takeMap p results).unmarked := by
  cases h : (s.lot p).state.takesPosts with
  | true =>
    rw [State.mapDone_active hc h]
    exact (State.applyMaps_facts p results slots25 slots25_nodup _).2.2.2
  | false => rw [State.mapDone_inactive hc h]

/-- What a map's reply leaves of the carrier map and of what no command of the handling unit touches. -/
theorem State.after_mapDone {s : State} {p : Slot} {o : MapOrder} (hc : o.cancelled = false) (results : List MapAnswer) :
    (s.after (s.begin.mapDone p o results)).handling.carrierMap = s.handling.carrierMap.set p (some results)
    ∧ (s.after (s.begin.mapDone p o results)).mem = s.mem ∧ (s.after (s.begin.mapDone p o results)).clock = s.clock
    ∧ (s.after (s.begin.mapDone p o results)).cell = s.cell ∧ (s.after (s.begin.mapDone p o results)).sensor = s.sensor := by
  have same := State.mapDone_unmarked (s := s.begin) (p := p) hc results
  generalize s.begin.mapDone p o results = u at same
  have others := s.after_mem_clock_cell (u := u)
    ⟨(congrArg State.mem same :), (congrArg State.clock same :), (congrArg State.cell same :)⟩
  refine ⟨?_, others.1, others.2.1, others.2.2, ?_⟩
  · rw [State.after, State.finish_handling]
    exact (congrArg Kept.carrierMap u.settle_kept :).trans (congrArg (fun x : State => x.handling.carrierMap) same :)
  · rw [State.after_sensor]
    exact (congrArg State.sensor same :)

/-- A wafer of an active lot when its port's map is answered (R12). -/
theorem State.after_mapDone_wafer {s : State} {p : Slot} {o : MapOrder} (hc : o.cancelled = false)
    (active : (s.lot p).state.takesPosts = true) {results : List MapAnswer} {n : Nat} (low : 1 ≤ n) (high : n ≤ 25) {a : MapAnswer}
    (ha : getAt results n = some a) {x : Wafer} (hx : s.wafer ⟨p, n⟩ = some x) :
    (∃ y, (s.after (s.begin.mapDone p o results)).wafer ⟨p, n⟩ = some y ∧ WaferStep (x.mapped a) y)
    ∧ (x.state = .waiting → a ≠ .present → (s.after (s.begin.mapDone p o results)).at (.carrier p n) = .empty) := by
  obtain ⟨-, listed, -, -⟩ := State.applyMaps_facts p results slots25 slots25_nodup (s.begin.takeMap p results)
  obtain ⟨wafer, emptied⟩ := listed n (mem_slots25.2 ⟨low, high⟩) a ha
  have hx : (s.begin.takeMap p results).wafer ⟨p, n⟩ = some x := hx
  rw [hx] at wafer
  rw [State.mapDone_active (s := s.begin) hc active]
  refine ⟨s.after_wafer wafer, fun waiting away => ?_⟩
  rw [State.after, State.finish_at, (quiet_settle (.refl _)).at_eq]
  exact emptied (by rw [State.waferState, hx, Option.map_some, waiting]) away

/-- Settles O35: by the wafers whose answers are applied, and what consequences leave of them. -/
theorem mapResultsAreApplied : Obligations.MapResultsAreApplied := by
  intro s p o results ho length
  refine ⟨fun cancelled => ⟨_, exec_mapDone ho results, ?_⟩, fun live => ⟨_, exec_mapDone ho results, ?_⟩⟩
  · rw [State.mapDone, if_pos cancelled]
    exact s.after_content_kept rfl
  · obtain ⟨map, others⟩ := s.after_mapDone (p := p) live results
    refine ⟨map, fun active n low high waiting => ?_, fun active n a x low high ha hx => ?_, fun passive n x hx => ?_, fun passive => ?_, others⟩
    · obtain ⟨x, hx, hs⟩ := Option.map_eq_some_iff.1 waiting
      obtain ⟨a, ha⟩ := getAt_of_le low (by rw [length]; exact high)
      obtain ⟨⟨y, hy, step⟩, -⟩ := State.after_mapDone_wafer live active low high ha hx
      obtain ⟨-, left, -, -⟩ := x.mapped_facts a
      have off : (x.mapped a).state ≠ .onStage := by
        rw [left hs]
        cases a <;> nofun
      rw [State.waferState, hy, Option.map_some, (step.state off).1, left hs, ha]
      cases a <;> rfl
    · obtain ⟨⟨y, hy, step⟩, place⟩ := State.after_mapDone_wafer live active low high ha hx
      obtain ⟨answered, -, final, kept⟩ := x.mapped_facts a
      refine ⟨y, hy, (congrArg WaferCore.mapResult step.core).trans answered, fun waiting away =>
        ⟨(congrArg WaferCore.finalResult step.core).trans (final waiting away), place waiting away⟩, fun other staged => ?_⟩
      rw [(step.state (by rw [kept other]; exact staged)).1, kept other]
    · rw [State.mapDone_inactive (s := s.begin) live passive]
      obtain ⟨y, hy, step⟩ := s.after_wafer (u := s.begin.takeMap p results) (w := ⟨p, n⟩) hx
      exact ⟨y, hy, (congrArg WaferCore.mapResult step.core :), fun staged => (step.state staged).1⟩
    · rw [State.mapDone_inactive (s := s.begin) live passive]
      exact s.after_content_kept rfl

end Sys2Proof.Machine
end

section
/-! SUPPORT. A wafer's record by a reported move and by an inventory, the location table by a move. -/

namespace Sys2Proof.Machine

/-! ## One wafer's record (R11) -/

/-- A state without the entries, the rows, the wafers, the notices and UA's put-back mark. -/
def State.around (s : State) : State :=
  { s.bare with
    lots := State.reset.lots, notice := State.reset.notice
    handling := { s.handling with table := { s.handling.table with putBack := false } } }

/-- A change of one wafer's record, with notices, entries and rows. -/
structure Records (s t : State) (w : WaferName) (f : Wafer → Wafer) : Prop where
  wafer : ∀ v, t.wafer v = if v = w then (s.wafer v).map f else s.wafer v
  around : t.around = s.around
  noticed : ∀ j : Nat, s.notice.pending.getLsbD j = true → t.notice.pending.getLsbD j = true

theorem Records.same {s : State} {w : WaferName} {f : Wafer → Wafer} (h : ∀ x, s.wafer w = some x → f x = x) : Records s s w f := by
  refine ⟨fun v => ?_, rfl, fun _ h => h⟩
  split
  · rename_i hv
    subst hv
    cases hx : s.wafer v with
    | none => rfl
    | some x => rw [Option.map_some, h x hx]
  · rfl

theorem Records.modWafer (s : State) (w : WaferName) (f : Wafer → Wafer) : Records s (s.modWafer w f) w f :=
  ⟨fun v => s.wafer_modWafer w v f, rfl, fun _ h => h⟩

theorem Records.congr {s t : State} {w : WaferName} {f g : Wafer → Wafer} (h : Records s t w f)
    (same : ∀ x, s.wafer w = some x → f x = g x) : Records s t w g := by
  refine ⟨fun v => ?_, h.around, h.noticed⟩
  rw [h.wafer]
  split
  · rename_i hv
    subst hv
    cases hx : s.wafer v with
    | none => rfl
    | some x => exact congrArg some (same x hx)
  · rfl

theorem Records.endQueued {s t : State} {w : WaferName} {f : Wafer → Wafer} (h : Records s t w f) (why : EntryReason) :
    Records s (t.endQueued w why) w f := by
  have bare := t.endQueued_bare w why
  refine ⟨fun v => (State.wafer_congr (State.bare_lots bare) v).trans (h.wafer v), ?_, fun j hj => ?_⟩
  · rw [← h.around]
    exact congrArg (fun x : State => ({ x with
      lots := State.reset.lots, notice := State.reset.notice
      handling := { x.handling with table := { x.handling.table with putBack := false } } } : State)) bare
  · have notice : (t.endQueued w why).notice = t.notice := (congrArg State.notice bare :)
    rw [notice]
    exact h.noticed j hj

theorem Records.raise {s t : State} {w : WaferName} {f : Wafer → Wafer} (h : Records s t w f) (k : NoticeKind) :
    Records s (t.raise k) w f := by
  refine ⟨fun v => ?_, ?_, fun j hj => (quiet_raise (.refl t) k).news.noticed j (h.noticed j hj)⟩
  · rw [← h.wafer v]
    exact State.wafer_congr (same_raise t k).lots v
  · rw [← h.around]
    unfold State.raise
    split <;> rfl

/-- A wafer RETURNED with its final result (R11). -/
def Wafer.returned (x : Wafer) : Wafer := { x with state := .returned, finalResult := x.pendingResult.getD .notProcessed }

/-- A wafer placed on ST only to be taken off (R34, R42). -/
def Wafer.reviewEndedAt (now : Word) (x : Wafer) : Wafer := { x with state := .reviewEnded, startClock := now, endClock := now }

/-- The final result that a wafer's record has ready for its return. -/
def State.dueResult (s : State) (w : WaferName) : FinalResult := ((s.wafer w).map fun x => x.pendingResult.getD .notProcessed).getD .notProcessed

/-- A wafer's record as it is returned, before the notice (R11). -/
def State.homed (s : State) (w : WaferName) : State := (s.modWafer w fun x => { x with state := .returned }).writeFinal w (s.dueResult w)

theorem State.toReturned_eq (s : State) (w : WaferName) :
    s.toReturned w = ((s.homed w).raise .waferReturned).endQueued w .waferUnavailable := by
  unfold State.toReturned State.homed State.dueResult
  cases s.wafer w <;> rfl

theorem State.homed_records (s : State) (w : WaferName) : Records s (s.homed w) w Wafer.returned := by
  have set : Records s (s.homed w) w fun x => { x with state := .returned, finalResult := s.dueResult w } := by
    refine ⟨fun v => ?_, rfl, fun _ h => h⟩
    show ((s.modWafer w fun x => { x with state := .returned }).modWafer w fun x => { x with finalResult := s.dueResult w }).wafer v = _
    rw [State.wafer_modWafer, State.wafer_modWafer]
    split
    · exact Option.map_map _ _ _
    · rfl
  refine set.congr fun x hx => ?_
  rw [State.dueResult, hx]
  rfl

theorem State.toReturned_records (s : State) (w : WaferName) : Records s (s.toReturned w) w Wafer.returned := by
  rw [State.toReturned_eq]
  exact ((s.homed_records w).raise .waferReturned).endQueued .waferUnavailable

theorem State.toReturned_noticed {s : State} (ha : s.anchor.attach = .attached) (w : WaferName) :
    (s.toReturned w).notice.pending.getLsbD 1 = true := by
  have attached : (s.homed w).anchor.attach = .attached := ha
  rw [State.toReturned_eq]
  exact (quiet_endQueued (.refl _) w .waferUnavailable).news.noticed 1 (State.raise_noticed attached .waferReturned)

theorem State.toReviewEndedAtOnce_records (s : State) (w : WaferName) :
    Records s (s.toReviewEndedAtOnce w) w (Wafer.reviewEndedAt s.clock) := by
  have set : Records s (((s.modWafer w (Wafer.reviewEndedAt s.clock)).handDuration w 0).handMapFigures w) w (Wafer.reviewEndedAt s.clock) :=
    ⟨fun v => s.wafer_modWafer w v _, rfl, fun _ h => h⟩
  exact set.endQueued .waferUnavailable

/-- A wafer's record as an inventory that finds it suspect leaves it (R42). -/
def Wafer.foundAt (now : Word) (l : Loc) (x : Wafer) : Wafer :=
  if x.state.isFinal then x
  else match l with
    | .carrier _ _ => x.returned
    | .ua | .la => { x with state := .returning }
    | .pa => { x with state := if x.state = .returning then .returning else .ready }
    | .st => if x.state = .reviewEnded ∨ x.state = .onStage then { x with state := .reviewEnded } else x.reviewEndedAt now

theorem State.suspectFound_records (s : State) (w : WaferName) (l : Loc) : Records s (s.suspectFound w l) w (Wafer.foundAt s.clock l) := by
  cases hx : s.wafer w with
  | none =>
    have same : s.suspectFound w l = s := by simp only [State.suspectFound, State.waferState, hx, Option.map_none]
    rw [same]
    exact .same fun x h => by rw [hx] at h; cases h
  | some x =>
    have set (st : WaferState) : Records s (s.setWaferState w st) w fun x => { x with state := st } := .modWafer s w _
    unfold State.suspectFound
    simp only [State.waferState, hx, Option.map_some]
    by_cases final : x.state.isFinal = true
    · rw [if_pos final]
      refine .same fun y hy => ?_
      obtain rfl := Option.some.inj (hx.symm.trans hy)
      exact if_pos final
    · rw [if_neg final]
      have found {g : Wafer → Wafer} {t : State} (h : Records s t w g) (same : g x = x.foundAt s.clock l) :
          Records s t w (Wafer.foundAt s.clock l) :=
        h.congr fun y hy => by obtain rfl := Option.some.inj (hx.symm.trans hy); exact same
      cases l with
      | carrier p n => exact found (s.toReturned_records w) (by rw [Wafer.foundAt, if_neg final])
      | ua => exact found (set .returning) (by rw [Wafer.foundAt, if_neg final])
      | la => exact found (set .returning) (by rw [Wafer.foundAt, if_neg final])
      | pa =>
        dsimp only
        split
        · rename_i returning
          exact found (g := id) (.same fun _ _ => rfl) (by rw [Wafer.foundAt, if_neg final, if_pos returning, ← returning]; rfl)
        · rename_i returning
          exact found (set .ready) (by rw [Wafer.foundAt, if_neg final, if_neg returning])
      | st =>
        dsimp only
        split
        · rename_i there
          exact found (set .reviewEnded) (by rw [Wafer.foundAt, if_neg final, if_pos there])
        · rename_i there
          exact found (s.toReviewEndedAtOnce_records w) (by rw [Wafer.foundAt, if_neg final, if_neg there])

/-- A wafer's record after a reported move (R11, R34). -/
def Wafer.movedTo (now : Word) (aborting : Bool) (dst : Loc) (x : Wafer) : Wafer :=
  match x.state, dst with
  | .returning, .carrier _ _ => x.returned
  | .returning, .st => x.reviewEndedAt now
  | st, dst => { x with state := st.moved dst (aborting || decide (x.pendingResult = some .suspect)) }

theorem Wafer.movedTo_state {x : Wafer} {dst : Loc} (now : Word) (aborting : Bool) :
    (x.movedTo now aborting dst).state = x.state.moved dst (aborting || decide (x.pendingResult = some .suspect))
    ∧ (x.movedTo now aborting dst).pendingResult = x.pendingResult := by
  unfold Wafer.movedTo
  split
  · rename_i returning
    exact ⟨by rw [returning]; rfl, rfl⟩
  · rename_i returning
    exact ⟨by rw [returning]; rfl, rfl⟩
  · exact ⟨rfl, rfl⟩

theorem Wafer.movedTo_of {x : Wafer} {st : WaferState} (hs : x.state = st) {dst : Loc} (carrier : st = .returning → dst.isCarrier = false)
    (stage : st = .returning → dst ≠ .st) (now : Word) (aborting : Bool) :
    x.movedTo now aborting dst = { x with state := st.moved dst (aborting || decide (x.pendingResult = some .suspect)) } := by
  unfold Wafer.movedTo
  rw [hs]
  split
  · exact absurd (carrier rfl) (by nofun)
  · exact absurd rfl (stage rfl)
  · rfl

theorem State.putBack_records (s : State) (w : WaferName) :
    Records s (s.setHandling { s.handling with table := { s.handling.table with putBack := true } }) w id :=
  ⟨fun v => by
    show s.wafer v = _
    rw [Option.map_id_fun, id]
    split <;> rfl, rfl, fun _ h => h⟩

theorem State.waferMoved_records {s : State} {w : WaferName} {x : Wafer} (hx : s.wafer w = some x) {dst : Loc}
    (off : x.state ≠ .onStage) (arrives : ¬ (x.state = .ready ∧ dst = .st)) :
    Records s (s.waferMoved w dst) w (Wafer.movedTo s.clock (decide ((s.lot w.slot).state = .aborting)) dst) := by
  have hw : s.waferState w = some x.state := by rw [State.waferState, hx, Option.map_some]
  have suspect : s.isSuspect w = decide (x.pendingResult = some .suspect) := by simp only [State.isSuspect, hx]
  generalize haborting : decide ((s.lot w.slot).state = .aborting) = aborting
  generalize hs : x.state = st at hw off arrives
  have towards {t : State} {g : Wafer → Wafer} (h : Records s t w g) (same : g x = x.movedTo s.clock aborting dst) :
      Records s t w (Wafer.movedTo s.clock aborting dst) :=
    h.congr fun y hy => by obtain rfl := Option.some.inj (hx.symm.trans hy); exact same
  have set (st' : WaferState) (same : ({ x with state := st' } : Wafer) = x.movedTo s.clock aborting dst) :
      Records s (s.setWaferState w st') w (Wafer.movedTo s.clock aborting dst) :=
    towards (.modWafer s w fun x => { x with state := st' }) same
  have stays (same : x = x.movedTo s.clock aborting dst) : Records s s w (Wafer.movedTo s.clock aborting dst) :=
    towards (g := id) (.same fun _ _ => rfl) same
  unfold State.waferMoved
  rw [hw]
  split
  case h_1 h => exact set _ (by rw [Wafer.movedTo_of (hs.trans (Option.some.inj h)) nofun nofun]; rfl)
  case h_2 h => exact set _ (by rw [Wafer.movedTo_of (hs.trans (Option.some.inj h)) nofun nofun]; rfl)
  case h_3 h =>
    have ready := hs.trans (Option.some.inj h)
    unfold State.readyOnUA
    split
    · rename_i away
      have away : (aborting || decide (x.pendingResult = some .suspect)) = true := by
        rw [← suspect, ← haborting, Bool.or_eq_true, decide_eq_true_eq]
        exact away
      exact set _ (by rw [Wafer.movedTo_of ready nofun nofun, away]; rfl)
    · rename_i away
      have away : (aborting || decide (x.pendingResult = some .suspect)) = false := by
        rw [← suspect, ← haborting, Bool.eq_false_iff, ne_eq, Bool.or_eq_true, decide_eq_true_eq]
        exact away
      exact stays (by rw [Wafer.movedTo_of ready nofun nofun, away]; exact congrArg (fun st => ({ x with state := st } : Wafer)) ready)
  case h_4 h => exact absurd ⟨Option.some.inj h, rfl⟩ arrives
  case h_5 h => exact set _ (by rw [Wafer.movedTo_of (hs.trans (Option.some.inj h)) nofun nofun]; rfl)
  case h_6 h => exact towards (s.toReturned_records w) (by simp only [Wafer.movedTo, hs.trans (Option.some.inj h)])
  case h_7 h => exact towards (s.toReviewEndedAtOnce_records w) (by simp only [Wafer.movedTo, hs.trans (Option.some.inj h)])
  case h_8 h =>
    have marked := State.putBack_records s w
    exact towards marked (by
      rw [Wafer.movedTo_of (hs.trans (Option.some.inj h)) nofun nofun]
      exact congrArg (fun st => ({ x with state := st } : Wafer)) (hs.trans (Option.some.inj h)))
  case h_9 dst _ _ h1 h2 h3 h4 h5 h6 h7 h8 =>
    have same : st.moved dst (aborting || decide (x.pendingResult = some .suspect)) = st := by
      unfold WaferState.moved
      split
      · exact (h1 rfl rfl).elim
      · exact (h2 rfl rfl).elim
      · exact (h3 rfl rfl).elim
      · exact (h5 rfl rfl).elim
      · exact (h6 _ _ rfl rfl).elim
      · exact (h7 rfl rfl).elim
      · rfl
    have carrier (returning : st = .returning) : dst.isCarrier = false := by
      cases dst with
      | carrier p n => exact (h6 p n (congrArg some returning) rfl).elim
      | _ => rfl
    refine stays ?_
    rw [Wafer.movedTo_of hs carrier (fun returning there => h7 (congrArg some returning) there), same]
    exact congrArg (fun st => ({ x with state := st } : Wafer)) hs

/-! ## The places of a move (R22, R34, R38) -/

/-- What a move's destination holds afterwards. -/
def State.landed (s : State) (src dst : Loc) : Occupant :=
  if s.inAbsentCarrier dst then s.at dst
  else if s.inAbsentCarrier src && !dst.isCarrier then .unknown
  else match s.at src with
    | .wafer w => .wafer w
    | _ => if dst.isCarrier then .empty else .unknown

/-- What a move writes at a destination that takes something. -/
theorem State.moveTable_takes {s : State} {src dst : Loc} (here : s.inAbsentCarrier dst = false) :
    s.moveTable src dst = (s.setAt src .empty).setAt dst (s.landed src dst) := by
  unfold State.moveTable State.landed
  simp only [here, Bool.false_eq_true, if_false]
  cases dst with
  | carrier p n => cases s.at src <;> simp [Loc.isCarrier]
  | _ => cases s.at src <;> cases s.inAbsentCarrier src <;> rfl

theorem State.moveTable_absent {s : State} {src dst : Loc} (absent : s.inAbsentCarrier dst = true) :
    s.moveTable src dst = s.setAt src .empty := by
  unfold State.moveTable
  cases dst with
  | carrier p n => exact if_pos absent
  | _ => exact nomatch absent

theorem State.landed_wafer {s : State} {src dst : Loc} (here : s.inAbsentCarrier dst = false) (there : s.inAbsentCarrier src = false)
    {w : WaferName} (hw : s.at src = .wafer w) : s.landed src dst = .wafer w := by
  simp [State.landed, here, there, hw]

/-- The places after a move: its source EMPTY, its destination as it takes what moved, the others as they were. -/
theorem State.moveTable_places {s : State} {src dst : Loc} (apart : src ≠ dst) :
    (s.moveTable src dst).at src = .empty ∧ (∀ l, l ≠ src → l ≠ dst → (s.moveTable src dst).at l = s.at l)
    ∧ (s.hasPlace dst ∨ s.landed src dst = .empty ∨ s.inAbsentCarrier dst = true → (s.moveTable src dst).at dst = s.landed src dst) := by
  cases here : s.inAbsentCarrier dst with
  | true =>
    rw [State.moveTable_absent here]
    refine ⟨s.at_setAt_empty src, fun l hl _ => State.at_setAt_ne hl _, fun _ => ?_⟩
    rw [State.at_setAt_ne (Ne.symm apart), State.landed, here]
    rfl
  | false =>
    rw [State.moveTable_takes here]
    refine ⟨?_, fun l hs hd => ?_, fun h => ?_⟩
    · rw [State.at_setAt_ne apart, s.at_setAt_empty src]
    · rw [State.at_setAt_ne hd, State.at_setAt_ne hs]
    · obtain place | empty | absent := h
      · rw [State.at_setAt ((s.hasPlace_setAt src dst .empty).2 place)]
      · rw [empty, State.at_setAt_empty]
      · cases absent

theorem same_moveTable (s : State) (src dst : Loc) : SamePart s (s.moveTable src dst) := by
  cases here : s.inAbsentCarrier dst with
  | true =>
    rw [State.moveTable_absent here]
    exact same_setAt s _ _
  | false =>
    rw [State.moveTable_takes here]
    exact (same_setAt s _ _).trans (same_setAt _ _ _)

theorem same_leaveFrom (s : State) (src : Loc) (o : Occupant) : SamePart s (s.leaveFrom src o) := by
  unfold State.leaveFrom
  split
  · exact same_stageLeft s _
  · exact .refl s

theorem State.leaveFrom_handling (s : State) (src : Loc) (o : Occupant) : (s.leaveFrom src o).handling = s.handling := by
  unfold State.leaveFrom
  split
  · exact s.stageLeft_handling _
  · rfl

/-- The stage wafer gone, the transform record does not name it, and the map is cleared (R70, R111). -/
theorem State.stageLeft_cleared (s : State) (w : WaferName) :
    (s.stageLeft w).focusMap = clearedMap ∧ (s.stageLeft w).align.wafer ≠ some w := by
  have leaves (b : State) : (b.reviewLeaves w).focusMap = b.focusMap ∧ (b.reviewLeaves w).align = b.align := by
    have bare := b.endActiveEntry_bare .waferUnavailable
    unfold State.reviewLeaves
    split
    · exact ⟨(congrArg State.focusMap bare :), (congrArg State.align bare :)⟩
    · exact ⟨rfl, rfl⟩
  obtain ⟨map, align⟩ := leaves ((s.alignLeaves w).focusLeaves)
  refine ⟨map, ?_⟩
  rw [State.stageLeft, align]
  show (s.alignLeaves w).withdrawFocus.align.wafer ≠ some w
  rw [State.rest_align ((s.alignLeaves w).withdrawFocus_rest), State.alignLeaves]
  split
  · nofun
  · assumption

/-- One end of a robot order is not in a carrier. -/
theorem RobotKind.source_isCarrier {k : RobotKind} {src dst : Loc} (hs : k.source = some src) (hd : k.destination = some dst)
    (h : src.isCarrier = true) : dst.isCarrier = false := by
  cases k with
  | pick l arm => cases arm <;> obtain rfl := Option.some.inj hd <;> rfl
  | place l arm => cases arm <;> obtain rfl := Option.some.inj hs <;> cases h
  | inventory => cases hs

theorem State.isCarrier_of_absent {s : State} {l : Loc} (h : s.inAbsentCarrier l = true) : l.isCarrier = true := by
  cases l with
  | carrier p n => rfl
  | _ => cases h

/-- What a move that concerns no wafer leaves at its destination (R34, R38). -/
theorem State.landed_lost {k : RobotKind} {src dst : Loc} (hs : k.source = some src) (hd : k.destination = some dst) {s : State}
    (lost : s.inAbsentCarrier src = true ∨ s.inAbsentCarrier dst = true ∨ s.at src = .unknown) :
    s.landed src dst = if s.inAbsentCarrier dst then s.at dst else if dst.isCarrier then .empty else .unknown := by
  unfold State.landed
  split
  · rfl
  · rename_i here
    obtain away | absent | unknown := lost
    · have outside := RobotKind.source_isCarrier hs hd (State.isCarrier_of_absent away)
      simp [away, outside]
    · exact absurd absent here
    · split
      · rename_i away
        simp only [Bool.and_eq_true, Bool.not_eq_true'] at away
        rw [away.2]
        rfl
      · rw [unknown]

theorem State.landed_lost_place {s : State} {o : Occupant} {dst : Loc}
    (h : o = if s.inAbsentCarrier dst then s.at dst else if dst.isCarrier then .empty else .unknown) :
    s.hasPlace dst ∨ o = .empty ∨ s.inAbsentCarrier dst = true := by
  cases dst with
  | carrier p n =>
    cases here : s.inAbsentCarrier (.carrier p n) with
    | true => exact .inr (.inr rfl)
    | false => exact .inr (.inl (by rw [h, here]; rfl))
  | _ => exact .inl trivial

/-! ## A move done (R22) -/

/-- A move before lot control hears of it: the table, and the departure from the stage. -/
def State.carried (s : State) (src dst : Loc) : State := (s.moveTable src dst).leaveFrom src (s.at src)

theorem State.moveDone_some {s : State} {src dst : Loc} {w : WaferName} (h : s.movedWafer src dst = some w) :
    s.moveDone src dst = (s.carried src dst).waferMoved w dst := by
  unfold State.moveDone
  simp only [h]
  rfl

theorem State.moveDone_none {s : State} {src dst : Loc} (h : s.movedWafer src dst = none) : s.moveDone src dst = s.carried src dst := by
  unfold State.moveDone
  simp only [h]
  rfl

theorem same_carried (s : State) (src dst : Loc) : SamePart s (s.carried src dst) := (same_moveTable s src dst).trans (same_leaveFrom _ _ _)

theorem State.carried_handling (s : State) (src dst : Loc) : (s.carried src dst).handling = (s.moveTable src dst).handling :=
  State.leaveFrom_handling _ _ _

theorem State.carried_at (s : State) (src dst l : Loc) : (s.carried src dst).at l = (s.moveTable src dst).at l :=
  State.at_congr (by rw [State.carried_handling]) l

theorem State.movedWafer_of {s : State} {src dst : Loc} (there : s.inAbsentCarrier src = false) (here : s.inAbsentCarrier dst = false)
    {w : WaferName} (hw : s.at src = .wafer w) : s.movedWafer src dst = some w := by
  simp [State.movedWafer, there, here, hw, Occupant.name]

theorem State.movedWafer_none {s : State} {src dst : Loc}
    (h : s.inAbsentCarrier src = true ∨ s.inAbsentCarrier dst = true ∨ s.at src = .unknown) : s.movedWafer src dst = none := by
  obtain h | h | h := h <;> simp [State.movedWafer, h, Occupant.name]

/-- What a reported move leaves alone. -/
structure Unmoved (s t : State) : Prop where
  places : ∀ l, t.at l = s.at l
  mem : t.mem = s.mem
  clock : t.clock = s.clock
  cell : t.cell = s.cell
  sensor : t.sensor = s.sensor
  mport : t.mport = s.mport
  uncertain : t.handling.uncertain = s.handling.uncertain
  carriers : t.handling.table.carriers = s.handling.table.carriers
  noticed : ∀ j : Nat, s.notice.pending.getLsbD j = true → t.notice.pending.getLsbD j = true

theorem Records.unmoved {s t : State} {w : WaferName} {f : Wafer → Wafer} (h : Records s t w f) : Unmoved s t where
  places l := by
    have table := (congrArg (fun x : State => x.handling.table) h.around :)
    have same : (t.setHandling { t.handling with table := { t.handling.table with putBack := false } }).at l
        = (s.setHandling { s.handling with table := { s.handling.table with putBack := false } }).at l := State.at_congr table l
    cases l <;> exact same
  mem := (congrArg State.mem h.around :)
  clock := (congrArg State.clock h.around :)
  cell := (congrArg State.cell h.around :)
  sensor := (congrArg State.sensor h.around :)
  mport := (congrArg State.mport h.around :)
  uncertain := (congrArg (fun x : State => x.handling.uncertain) h.around :)
  carriers := (congrArg (fun x : State => x.handling.table.carriers) h.around :)
  noticed := h.noticed

theorem Unmoved.refl (s : State) : Unmoved s s := ⟨fun _ => rfl, rfl, rfl, rfl, rfl, rfl, rfl, rfl, fun _ h => h⟩

/-- A wafer's state as it arrives on the stage (R11). -/
def State.staged (s : State) (w : WaferName) : State := s.modWafer w fun x => { x with state := .onStage, startClock := s.clock }

theorem State.waferMoved_arrives {s : State} {w : WaferName} (hw : s.waferState w = some .ready) :
    s.waferMoved w .st = (s.staged w).stageArrived w := by
  unfold State.waferMoved
  rw [hw]
  rfl

theorem State.waferMoved_still {s : State} {w : WaferName} (hw : s.waferState w = none ∨ s.waferState w = some .onStage) (dst : Loc) :
    s.waferMoved w dst = s := by
  unfold State.waferMoved
  split
  case h_9 => rfl
  all_goals
    rename_i h
    rw [h] at hw
    simp at hw

theorem State.waferMoved_returns {s : State} {w : WaferName} (hw : s.waferState w = some .returning) {p : Slot} {n : Nat} :
    s.waferMoved w (.carrier p n) = s.toReturned w := by
  unfold State.waferMoved
  rw [hw]

theorem State.staged_onStage {s : State} {w : WaferName} {st : WaferState} (hw : s.waferState w = some st) :
    (s.staged w).waferState w = some .onStage := by
  obtain ⟨x, hx, -⟩ := Option.map_eq_some_iff.1 hw
  rw [State.staged, State.waferState_modWafer, if_pos rfl, hx]
  rfl

/-- No notice is cleared by a wafer's arrival. -/
theorem State.stageArrived_noticed (s : State) (w : WaferName) (j : Nat) (h : s.notice.pending.getLsbD j = true) :
    (s.stageArrived w).notice.pending.getLsbD j = true := by
  have set (b : State) (a : Align) : (b.setAlign a).notice = b.notice := by
    unfold State.setAlign
    dsimp only
    split <;> rfl
  generalize hb : (s.reviewArrives w).setAlign { Align.reset with wafer := some w, state := .provisional } = b
  have begun : b.notice = s.notice := by
    rw [← hb, set]
    exact (congrArg State.notice (s.endActiveEntry_bare .waferUnavailable) :)
  have shown : b.showTransform.notice = s.notice := by
    rw [← begun]
    unfold State.showTransform
    split <;> rfl
  obtain ⟨a, -, -, -, -, -, -, quiet⟩ := b.showTransform.beginMark_eq 1
  rw [State.stageArrived, State.alignArrives, hb]
  exact quiet.news.noticed j (by rw [set, shown]; exact h)

/-- What a reported move leaves alone, the stage's records too but at a wafer's arrival there. -/
theorem State.waferMoved_unmoved (s : State) (w : WaferName) (dst : Loc) :
    Unmoved s (s.waferMoved w dst)
    ∧ (dst ≠ .st → (s.waferMoved w dst).focusMap = s.focusMap ∧ (s.waferMoved w dst).align = s.align) := by
  cases hx : s.wafer w with
  | none =>
    rw [State.waferMoved_still (.inl (by rw [State.waferState, hx]; rfl))]
    exact ⟨.refl s, fun _ => ⟨rfl, rfl⟩⟩
  | some x =>
    have hw : s.waferState w = some x.state := by rw [State.waferState, hx, Option.map_some]
    by_cases staged : x.state = .onStage
    · rw [State.waferMoved_still (.inr (hw.trans (congrArg some staged)))]
      exact ⟨.refl s, fun _ => ⟨rfl, rfl⟩⟩
    by_cases arrives : x.state = .ready ∧ dst = .st
    · obtain ⟨ready, rfl⟩ := arrives
      have hw := hw.trans (congrArg some ready)
      rw [State.waferMoved_arrives hw]
      refine ⟨?_, fun h => absurd rfl h⟩
      obtain ⟨-, k, -, -, -, -, -, kept⟩ := State.stageArrived_facts (State.staged_onStage hw)
      have same : (s.staged w).kept = s.kept := s.kept_modWafer w _
      rw [same] at kept
      have table := (congrArg Kept.table kept :)
      exact ⟨State.at_congr table, (congrArg Kept.mem kept :), (congrArg Kept.clock kept :), (congrArg Kept.cell kept :),
        (congrArg Kept.sensor kept :), (congrArg Kept.mport kept :), (congrArg Kept.uncertain kept :),
        congrArg LocationTable.carriers table, (s.staged w).stageArrived_noticed w⟩
    · have records := State.waferMoved_records hx (dst := dst) staged arrives
      exact ⟨records.unmoved, fun _ => ⟨(congrArg State.focusMap records.around :), (congrArg State.align records.around :)⟩⟩

/-! ## PICK_DONE and PLACE_DONE (R22) -/

theorem exec_robotDone {s : State} {c : Instr} {o : RobotOrder} {src dst : Loc} (hc : c = .pickDone o.tag ∨ c = .placeDone o.tag)
    (ho : s.handling.robot = some o) (hs : o.kind.source = some src) (hd : o.kind.destination = some dst) :
    exec c s = .next (s.after (s.begin.endRobot.moveDone src dst)) := by
  have answers : s.begin.robotWith o.tag = some o.kind := State.robotWith_order (s := s.begin) ho
  have done : s.begin.robotReply o.tag = (s.begin.endRobot.moveDone src dst).settle := by
    unfold State.robotReply
    rw [answers]
    split
    · rename_i h
      rw [Option.some.inj h] at hs
      cases hs
    · rename_i k _ h
      obtain rfl := Option.some.inj h
      simp only [State.robotDone, hs, hd]
    · rename_i h
      cases h
  obtain rfl | rfl := hc
  · exact exec_after (by nofun) done
  · exact exec_after (by nofun) done

/-- What consequences leave of a move's frame. -/
theorem State.after_unmoved (s : State) {b u : State} (mem : b.mem = s.mem) (clock : b.clock = s.clock) (cell : b.cell = s.cell)
    (sensor : b.sensor = s.sensor) (mport : b.mport = s.mport) (h : Unmoved b u) :
    (∀ l, (s.after u).at l = b.at l) ∧ (s.after u).mem = s.mem ∧ (s.after u).clock = s.clock ∧ (s.after u).cell = s.cell
    ∧ (s.after u).sensor = s.sensor ∧ (s.after u).mport.requests = s.mport.requests := by
  obtain ⟨mem, clock, cell⟩ := s.after_mem_clock_cell (u := u) ⟨h.mem.trans mem, h.clock.trans clock, h.cell.trans cell⟩
  refine ⟨fun l => ?_, mem, clock, cell, ?_, ?_⟩
  · rw [State.after, State.finish_at, (quiet_settle (.refl u)).at_eq, h.places]
  · rw [State.after_sensor, h.sensor, sensor]
  · rw [State.after, State.finish_requests]
    exact congrArg MPort.requests ((congrArg Kept.mport u.settle_kept :).trans (h.mport.trans mport))

/-- The moved wafer's record at the end of the step, when it does not arrive on the stage to be reviewed. -/
theorem State.after_movedTo (s : State) {b : State} {w : WaferName} {x : Wafer} (hx : b.wafer w = some x) {dst : Loc}
    (off : x.state ≠ .onStage) (arrives : ¬ (x.state = .ready ∧ dst = .st)) :
    ∃ y, (s.after (b.waferMoved w dst)).wafer w = some y
      ∧ WaferStep (x.movedTo b.clock (decide ((b.lot w.slot).state = .aborting)) dst) y := by
  refine s.after_wafer ?_
  rw [(State.waferMoved_records hx off arrives).wafer, if_pos rfl, hx]
  rfl

theorem WaferState.moved_ne_onStage {st : WaferState} (h : st ≠ .onStage) (dst : Loc) (away : Bool) : st.moved dst away ≠ .onStage := by
  unfold WaferState.moved
  split
  case h_7 => exact h
  case h_3 => split <;> nofun
  all_goals nofun

theorem Told.beginMark (s : State) (n : Nat) : Told s (s.beginMark n) := by
  unfold State.beginMark
  dsimp only
  split
  · refine Told.trans ?_ (.rest (State.requestMove_rest _ _ _))
    refine Told.trans ?_ (.rest (State.takeRequest_rest _))
    refine Told.trans ?_ (.rest (State.requestMove_rest _ _ _))
    exact (Told.setAlign s _).trans (.rest (State.takeRequest_rest _))
  · exact (Told.setAlign s _).trans (.alignFail _ _)

theorem Told.stageArrived (s : State) (w : WaferName) : Told s (s.stageArrived w) := by
  have reviewed : Told s (s.reviewArrives w) := by
    have ended : Told s (s.endActiveEntry .waferUnavailable) := by
      unfold State.endActiveEntry
      split
      · exact .finishEntry s _ _ _
      · exact .refl s
    exact ended.trans (.of rfl rfl rfl)
  have shown (b : State) : Told b b.showTransform := by
    unfold State.showTransform
    split
    · exact .modWafer fun _ _ => ⟨rfl, fun _ => ⟨rfl, rfl⟩⟩
    · exact .refl b
  exact ((reviewed.trans (.setAlign _ _)).trans (shown _)).trans (.beginMark _ 1)

/-- Settles O32: by the move's table, the moved wafer's record as lot control writes it, and what consequences leave of both. -/
theorem pickAndPlaceMoveTheWafer : Obligations.PickAndPlaceMoveTheWafer := by
  intro s c o src dst hc ho hs hd apart
  generalize hr : s.begin.endRobot = r
  have same : SamePart r (r.carried src dst) := same_carried r src dst
  obtain ⟨emptied, others, taken⟩ := r.moveTable_places apart
  have table (l : Loc) : r.at l = s.at l := by rw [← hr]; rfl
  have carrier (l : Loc) : r.inAbsentCarrier l = s.inAbsentCarrier l := by rw [← hr]; cases l <;> rfl
  have lots : (r.carried src dst).lots = s.lots := by rw [same.lots, ← hr]; rfl
  have mem : (r.carried src dst).mem = s.mem := by rw [same.mem, ← hr]; rfl
  have clock : (r.carried src dst).clock = s.clock := by rw [same.clock, ← hr]; rfl
  have cell : (r.carried src dst).cell = s.cell := by rw [same.cell, ← hr]; rfl
  have sensor : (r.carried src dst).sensor = s.sensor := by rw [same.sensor, ← hr]; rfl
  have mport : (r.carried src dst).mport = s.mport := by rw [same.mport, ← hr]; rfl
  have anchor : (r.carried src dst).anchor = s.anchor := by rw [same.anchor, ← hr]; rfl
  have ran := exec_robotDone hc ho hs hd
  rw [hr] at ran
  have at_b (l : Loc) : (r.carried src dst).at l = (r.moveTable src dst).at l := r.carried_at src dst l
  refine ⟨fun w place there here hw => ⟨_, ran, ?_⟩, fun lost => ⟨_, ran, ?_⟩⟩
  · have hw' : r.at src = .wafer w := (table src).trans hw
    rw [← carrier] at there here
    have gone : src = .st → (r.carried src dst).focusMap = clearedMap ∧ (r.carried src dst).align.wafer ≠ some w := by
      rintro rfl
      rw [State.carried, hw']
      exact State.stageLeft_cleared _ w
    have landed : (r.moveTable src dst).at dst = .wafer w :=
      (taken (.inl (by rw [← hr]; exact place))).trans (State.landed_wafer here there hw')
    rw [State.moveDone_some (State.movedWafer_of there here hw')]
    generalize r.carried src dst = b at *
    obtain ⟨unmoved, off⟩ := b.waferMoved_unmoved w dst
    obtain ⟨places, frame⟩ := s.after_unmoved mem clock cell sensor mport unmoved
    have record {x : Wafer} (hx : s.wafer w = some x) : b.wafer w = some x := (State.wafer_congr lots w).trans hx
    have waferState : b.waferState w = s.waferState w := State.waferState_congr lots w
    have lot : (b.lot w.slot).state = (s.lot w.slot).state := by rw [State.lot, lots]; rfl
    refine ⟨(places src).trans ((at_b src).trans emptied), (places dst).trans ((at_b dst).trans landed),
      fun l hs hd => (places l).trans ((at_b l).trans ((others l hs hd).trans (table l))),
      fun st hst staged arrives => ?_, fun ready there => ?_, fun x p n hx returning home => ⟨?_, fun attached => ?_⟩,
      fun x hx there hs => ?_, fun stage => ?_, frame⟩
    · obtain ⟨x, hx, rfl⟩ := Option.map_eq_some_iff.1 hst
      obtain ⟨y, hy, step⟩ := s.after_movedTo (record hx) staged arrives
      obtain ⟨moved, -⟩ := x.movedTo_state (dst := dst) b.clock (decide ((b.lot w.slot).state = .aborting))
      have suspect : s.isSuspect w = decide (x.pendingResult = some .suspect) := by simp only [State.isSuspect, hx]
      rw [State.waferState, hy, Option.map_some,
        (step.state (by rw [moved]; exact WaferState.moved_ne_onStage staged dst _)).1, moved, lot, suspect]
    · subst there
      rw [State.waferMoved_arrives (waferState.trans ready)]
      have staged := State.staged_onStage (waferState.trans ready)
      obtain ⟨state, k, hk, a, b', tx, ty, kept⟩ := State.stageArrived_facts staged
      generalize (b.staged w).stageArrived w = u at *
      have quiet := quiet_settle (.refl u)
      have kept := quiet.kept.trans kept
      have transform : (s.after u).align.kept = k := by
        rw [State.after, State.finish_align]
        exact (congrArg Kept.transform kept :)
      refine ⟨?_, ?_, (congrArg TransformKept.wafer transform).trans hk, (congrArg TransformKept.a transform).trans a,
        (congrArg TransformKept.b transform).trans b', (congrArg TransformKept.tx transform).trans tx,
        (congrArg TransformKept.ty transform).trans ty⟩
      · rw [State.after, State.finish_waferState]
        obtain state | state := state
        · exact quiet.onStage state
        · exact .inr ((quiet.waferState_eq w (by rw [state]; nofun)).trans state)
      · rw [State.after, State.finish_revisit]
        exact (congrArg Kept.reviewed kept :)
    · obtain ⟨y, hy, step⟩ := s.after_movedTo (record hx) (dst := dst) (by rw [returning]; nofun) (by rw [returning]; nofun)
      have returned : x.movedTo b.clock (decide ((b.lot w.slot).state = .aborting)) dst = x.returned := by
        simp only [Wafer.movedTo, returning, home]
      rw [returned] at step
      exact ⟨y, hy, (step.state (by nofun)).1, (congrArg WaferCore.finalResult step.core :)⟩
    · rw [home, State.waferMoved_returns (waferState.trans (by rw [State.waferState, hx, Option.map_some, returning]))]
      exact s.after_noticed (State.toReturned_noticed (by rw [anchor]; exact attached) w)
    · subst there
      obtain ready | returning := hs
      · rw [State.waferMoved_arrives (waferState.trans (by rw [State.waferState, hx, Option.map_some, ready]))]
        have staged : (b.staged w).wafer w = some { x with state := .onStage, startClock := b.clock } := by
          rw [State.staged, State.wafer_modWafer, if_pos rfl, record hx]
          rfl
        obtain ⟨y, hy, told⟩ := (Told.stageArrived (b.staged w) w).wafers w _ staged
        obtain ⟨z, hz, step⟩ := s.after_wafer hy
        refine ⟨z, hz, ?_, fun h => absurd (ready.symm.trans h) (by nofun)⟩
        rw [← clock]
        exact (congrArg WaferCore.startClock (step.core.trans told.core) :)
      · obtain ⟨y, hy, step⟩ := s.after_movedTo (record hx) (dst := .st) (by rw [returning]; nofun) (by rw [returning]; nofun)
        have ended : x.movedTo b.clock (decide ((b.lot w.slot).state = .aborting)) .st = x.reviewEndedAt s.clock := by
          simp only [Wafer.movedTo, returning, clock]
        rw [ended] at step
        exact ⟨y, hy, (congrArg WaferCore.startClock step.core :), fun _ => (step.state (by nofun)).2⟩
    · obtain ⟨map, align⟩ := off (by rw [← stage]; exact apart.symm)
      obtain ⟨cleared, left⟩ := gone stage
      rw [State.after_focusMap, map]
      refine ⟨cleared, ?_⟩
      have transform := (quiet_settle (.refl (b.waferMoved w dst))).kept
      rw [State.after, State.finish_align]
      rw [← align] at left
      exact fun h => left ((congrArg (fun k : Kept => k.transform.wafer) transform).symm.trans h)
  · rw [State.moveDone_none (State.movedWafer_none (by rw [carrier, carrier, table]; exact lost))]
    obtain ⟨places, frame⟩ := s.after_unmoved mem clock cell sensor mport (.refl _)
    refine ⟨(places src).trans ((at_b src).trans emptied), ?_,
      fun l hs hd => (places l).trans ((at_b l).trans ((others l hs hd).trans (table l))), fun v staged => ?_, frame⟩
    · have landed := State.landed_lost hs hd (s := r) (by rw [carrier, carrier, table]; exact lost)
      rw [places, at_b, taken (State.landed_lost_place landed), landed, carrier, table]
    · have same : (r.carried src dst).waferState v = s.waferState v := State.waferState_congr lots v
      rw [State.after, State.finish_waferState, (quiet_settle (.refl _)).waferState_eq v (by rw [same]; exact staged), same]

end Sys2Proof.Machine
end

section
/-! SUPPORT. An inventory's steps: an uncertain move settled, orphans cleared, places compared, suspects found: O33. -/

namespace Sys2Proof.Machine

/-! ## The places by an inventory (R41, R43) -/

/-- The outside places rewritten, and what that leaves. -/
structure Entries (s t : State) (ls : List Loc) (g : Loc → Occupant) : Prop where
  part : SamePart s t
  notice : t.notice = s.notice
  handling : t.handling = { s.handling with table := t.handling.table }
  carriers : t.handling.table.carriers = s.handling.table.carriers
  there : ∀ l ∈ ls, t.at l = g l
  elsewhere : ∀ l, l ∉ ls → t.at l = s.at l

theorem Entries.nil (s : State) (g : Loc → Occupant) : Entries s s [] g :=
  ⟨.refl s, rfl, rfl, rfl, nofun, fun _ _ => rfl⟩

theorem Entries.same {s : State} {ls : List Loc} {g : Loc → Occupant} (h : ∀ l ∈ ls, s.at l = g l) : Entries s s ls g :=
  ⟨.refl s, rfl, rfl, rfl, h, fun _ _ => rfl⟩

/-- One outside place written. -/
theorem Entries.setAt (s : State) {l : Loc} (hl : l ∈ outsidePlaces) (o : Occupant) : Entries s (s.setAt l o) [l] fun _ => o := by
  refine ⟨same_setAt s l o, rfl, rfl, ?_, fun m hm => ?_, fun m hm => ?_⟩
  · cases l with
    | carrier p n => simp [outsidePlaces] at hl
    | _ => rfl
  · rw [List.mem_singleton.1 hm]
    exact State.at_setAt_outside hl o
  · exact State.at_setAt_ne (fun h => hm (List.mem_singleton.2 h)) o

/-- Places rewritten one after another, each by the lots and what it holds. -/
theorem Entries.foldl {f : State → Loc → State} {g : State → Loc → Occupant}
    (step : ∀ s, ∀ l ∈ outsidePlaces, Entries s (f s l) [l] (g s)) (local' : ∀ s t l, t.lots = s.lots → t.at l = s.at l → g t l = g s l) :
    ∀ (ls : List Loc), ls.Nodup → (∀ l ∈ ls, l ∈ outsidePlaces) → ∀ s, Entries s (ls.foldl f s) ls (g s) := by
  intro ls
  induction ls with
  | nil => exact fun _ _ s => .nil s _
  | cons l ls ih =>
    intro nodup sub s
    obtain ⟨fresh, nodup⟩ := List.nodup_cons.1 nodup
    have first := step s l (sub l (List.mem_cons_self ..))
    have others := ih nodup (fun m hm => sub m (List.mem_cons_of_mem _ hm)) (f s l)
    refine ⟨first.part.trans others.part, others.notice.trans first.notice, ?_, others.carriers.trans first.carriers, fun m hm => ?_, fun m hm => ?_⟩
    · rw [List.foldl_cons]
      calc ((ls.foldl f (f s l)).handling) = { (f s l).handling with table := (ls.foldl f (f s l)).handling.table } := others.handling
        _ = { s.handling with table := (ls.foldl f (f s l)).handling.table } := by rw [first.handling]
    · obtain rfl | hm := List.mem_cons.1 hm
      · exact (others.elsewhere m fresh).trans (first.there m (List.mem_singleton.2 rfl))
      · rw [List.foldl_cons, others.there m hm]
        exact local' _ _ m first.part.lots (first.elsewhere m fun h => fresh (List.mem_singleton.1 h ▸ hm))
    · rw [List.mem_cons, not_or] at hm
      exact (others.elsewhere m hm.2).trans (first.elsewhere m fun h => hm.1 (List.mem_singleton.1 h))

theorem outsidePlaces_nodup : outsidePlaces.Nodup := by decide

theorem State.stageLeft_notice (s : State) (w : WaferName) : (s.stageLeft w).notice = s.notice := by
  have leaves (b : State) : (b.reviewLeaves w).notice = b.notice := by
    unfold State.reviewLeaves
    split
    · exact (congrArg State.notice (b.endActiveEntry_bare .waferUnavailable) :)
    · rfl
  have cleared : (s.alignLeaves w).notice = s.notice := by
    unfold State.alignLeaves
    split <;> rfl
  rw [State.stageLeft, leaves]
  exact (congrArg State.notice (s.alignLeaves w).withdrawFocus_rest :).trans cleared

theorem State.leaveFrom_notice (s : State) (src : Loc) (o : Occupant) : (s.leaveFrom src o).notice = s.notice := by
  unfold State.leaveFrom
  split
  · exact s.stageLeft_notice _
  · rfl

/-- What becomes of a place that names an ORPHANED wafer no longer sensed (R43). -/
def State.clearedAt (s : State) (x : Sensed) (l : Loc) : Occupant :=
  if s.stateAt l = some .orphaned ∧ x.get l = some false then .empty else s.at l

theorem State.clearOrphan_entries (x : Sensed) (s : State) {l : Loc} (hl : l ∈ outsidePlaces) :
    Entries s (s.clearOrphan x l) [l] (s.clearedAt x) := by
  by_cases gone : s.stateAt l = some .orphaned ∧ x.get l = some false
  · have set := Entries.setAt s hl .empty
    have cleared : s.clearOrphan x l = (s.setAt l .empty).leaveFrom l (s.at l) := if_pos gone
    have handling := State.leaveFrom_handling (s.setAt l .empty) l (s.at l)
    have places (m : Loc) : ((s.setAt l .empty).leaveFrom l (s.at l)).at m = (s.setAt l .empty).at m := State.at_congr (by rw [handling]) m
    rw [cleared]
    refine ⟨set.part.trans (same_leaveFrom _ _ _), (State.leaveFrom_notice _ _ _).trans set.notice, ?_, ?_, fun m hm => ?_, fun m hm => ?_⟩
    · rw [handling]
      exact set.handling
    · rw [handling]
      exact set.carriers
    · rw [places, set.there m hm, List.mem_singleton.1 hm, State.clearedAt, if_pos gone]
    · rw [places, set.elsewhere m hm]
  · have same : s.clearOrphan x l = s := if_neg gone
    rw [same]
    refine .same fun m hm => ?_
    rw [List.mem_singleton.1 hm, State.clearedAt, if_neg gone]

theorem Sensed.get_outside (x : Sensed) {l : Loc} (hl : l ∈ outsidePlaces) : x.get l = some ((x.get l).getD false) := by
  cases l with
  | carrier p n => simp [outsidePlaces] at hl
  | _ => rfl

/-- What a place holds after the comparison (R41). -/
def State.comparedAt (s : State) (x : Sensed) (l : Loc) : Occupant := (s.at l).compared ((x.get l).getD false)

theorem State.compareAt_entries (x : Sensed) (s : State) {l : Loc} (hl : l ∈ outsidePlaces) :
    Entries s (s.compareAt x l) [l] (s.comparedAt x) := by
  have sensed := x.get_outside hl
  unfold State.compareAt
  rw [sensed]
  dsimp only
  split
  · rename_i same
    refine .same fun m hm => ?_
    rw [List.mem_singleton.1 hm]
    exact same.symm
  · have set := Entries.setAt s hl ((s.at l).compared ((x.get l).getD false))
    refine ⟨set.part, set.notice, set.handling, set.carriers, fun m hm => ?_, set.elsewhere⟩
    rw [set.there m hm, List.mem_singleton.1 hm]
    rfl

/-- The places after an inventory has cleared and compared them: what the table named before, and what the sensors say (R41, R43). -/
def State.inventoryAt (s : State) (x : Sensed) (l : Loc) : Occupant :=
  if s.stateAt l = some .orphaned ∧ x.get l = some false then .empty
  else (s.at l).compared ((x.get l).getD false)

/-- The state after the places have been cleared of orphans no longer sensed. -/
def State.clearedOf (s : State) (x : Sensed) : State := outsidePlaces.foldl (fun s l => s.clearOrphan x l) s

/-- The state after the places have been compared with the sensors. -/
def State.comparedWith (s : State) (x : Sensed) : State := outsidePlaces.foldl (fun s l => s.compareAt x l) s

theorem State.clearedOf_entries (s : State) (x : Sensed) : Entries s (s.clearedOf x) outsidePlaces (s.clearedAt x) := by
  refine Entries.foldl (f := fun s l => s.clearOrphan x l) (g := fun s => s.clearedAt x) (fun s l hl => s.clearOrphan_entries x hl)
    (fun s t l lots same => ?_) outsidePlaces outsidePlaces_nodup (fun _ h => h) s
  have state : t.stateAt l = s.stateAt l := by
    rw [State.stateAt, State.stateAt, same]
    exact congrArg (fun f => (s.at l).name.bind f) (funext fun w => State.waferState_congr lots w)
  rw [State.clearedAt, State.clearedAt, state, same]

theorem State.comparedWith_entries (s : State) (x : Sensed) : Entries s (s.comparedWith x) outsidePlaces (s.comparedAt x) :=
  Entries.foldl (f := fun s l => s.compareAt x l) (g := fun s => s.comparedAt x) (fun s l hl => s.compareAt_entries x hl)
    (fun s t l _ same => by rw [State.comparedAt, State.comparedAt, same]) outsidePlaces outsidePlaces_nodup (fun _ h => h) s

theorem State.sorted_entries (s : State) (x : Sensed) :
    Entries s ((s.clearedOf x).comparedWith x) outsidePlaces (s.inventoryAt x) := by
  have cleared := s.clearedOf_entries x
  have compared := (s.clearedOf x).comparedWith_entries x
  refine ⟨cleared.part.trans compared.part, compared.notice.trans cleared.notice, ?_, compared.carriers.trans cleared.carriers,
    fun l hl => ?_, fun l hl => (compared.elsewhere l hl).trans (cleared.elsewhere l hl)⟩
  · generalize (s.clearedOf x).comparedWith x = u at compared
    rw [compared.handling, cleared.handling]
  · rw [compared.there l hl, State.comparedAt, cleared.there l hl, State.clearedAt, State.inventoryAt]
    split
    · rename_i gone
      rw [gone.2]
      rfl
    · rfl

/-- A place named a wafer after the comparison was named so before, and stays so when it is sensed. -/
theorem State.inventoryAt_wafer {s : State} {x : Sensed} {l : Loc} {w : WaferName} :
    (s.inventoryAt x l = .wafer w → s.at l = .wafer w) ∧ (s.at l = .wafer w → x.get l = some true → s.inventoryAt x l = .wafer w) := by
  unfold State.inventoryAt
  refine ⟨fun h => ?_, fun h sensed => ?_⟩
  · split at h
    · cases h
    · cases hl : s.at l with
      | wafer v =>
        rw [hl] at h
        exact h
      | empty =>
        rw [hl] at h
        unfold Occupant.compared at h
        dsimp only at h
        split at h <;> cases h
      | unknown =>
        rw [hl] at h
        unfold Occupant.compared at h
        dsimp only at h
        split at h <;> cases h
  · rw [if_neg (by rw [sensed]; nofun), h]
    rfl

/-! ## The suspects that an inventory finds (R42) -/

theorem State.isSuspect_of {s : State} {w : WaferName} {x : Wafer} (hx : s.wafer w = some x) :
    s.isSuspect w = decide (x.pendingResult = some .suspect) := by
  simp only [State.isSuspect, hx]

/-- A place where an inventory finds a suspect wafer. -/
def State.findsAt (s : State) (x : Sensed) (l : Loc) (w : WaferName) : Prop :=
  s.at l = .wafer w ∧ s.isSuspect w = true ∧ x.get l = some true

theorem State.findSuspect_of {s : State} {x : Sensed} {l : Loc} {w : WaferName} (h : s.findsAt x l w) :
    s.findSuspect x l = s.suspectFound w l := by
  obtain ⟨place, suspect, sensed⟩ := h
  simp only [State.findSuspect, place, suspect, sensed]
  rfl

theorem State.findSuspect_not {s : State} {x : Sensed} {l : Loc} (h : ∀ w, ¬ s.findsAt x l w) : s.findSuspect x l = s := by
  unfold State.findSuspect
  split
  · rename_i w place
    refine if_neg fun found => h w ⟨place, ?_⟩
    simpa using found
  · rfl

/-- What the inventory's last part leaves: one place's suspect at most changes. -/
theorem State.findSuspect_unmoved (s : State) (x : Sensed) (l : Loc) : Unmoved s (s.findSuspect x l) := by
  by_cases h : ∃ w, s.findsAt x l w
  · obtain ⟨w, h⟩ := h
    rw [State.findSuspect_of h]
    exact (s.suspectFound_records w l).unmoved
  · rw [State.findSuspect_not (not_exists.1 h)]
    exact .refl s

theorem State.findSuspect_wafer (s : State) (x : Sensed) (l : Loc) {w : WaferName} {y : Wafer} (hy : s.wafer w = some y) :
    ((s.at l ≠ .wafer w ∨ y.pendingResult ≠ some .suspect ∨ y.state.isFinal = true) → (s.findSuspect x l).wafer w = some y)
    ∧ (s.findsAt x l w → (s.findSuspect x l).wafer w = some (y.foundAt s.clock l)) := by
  refine ⟨fun untouched => ?_, fun h => ?_⟩
  · by_cases h : ∃ v, s.findsAt x l v
    · obtain ⟨v, h⟩ := h
      rw [State.findSuspect_of h, (s.suspectFound_records v l).wafer]
      by_cases same : w = v
      · subst same
        rw [if_pos rfl, hy, Option.map_some]
        obtain other | clean | final := untouched
        · exact absurd h.1 other
        · exact absurd (of_decide_eq_true ((State.isSuspect_of hy).symm.trans h.2.1)) clean
        · exact congrArg some (if_pos final)
      · rw [if_neg same]
        exact hy
    · rw [State.findSuspect_not (not_exists.1 h)]
      exact hy
  · rw [State.findSuspect_of h, (s.suspectFound_records w l).wafer, if_pos rfl, hy]
    rfl

theorem Unmoved.trans {s t u : State} (h : Unmoved s t) (g : Unmoved t u) : Unmoved s u :=
  ⟨fun l => (g.places l).trans (h.places l), g.mem.trans h.mem, g.clock.trans h.clock, g.cell.trans h.cell, g.sensor.trans h.sensor,
    g.mport.trans h.mport, g.uncertain.trans h.uncertain, g.carriers.trans h.carriers, fun j hj => g.noticed j (h.noticed j hj)⟩

/-- The suspects found at a list of places. -/
def State.findSuspects (s : State) (x : Sensed) (ls : List Loc) : State := ls.foldl (fun s l => s.findSuspect x l) s

theorem State.findSuspects_unmoved (x : Sensed) (ls : List Loc) : ∀ s : State, Unmoved s (s.findSuspects x ls) := by
  induction ls with
  | nil => exact .refl
  | cons l ls ih => exact fun s => (s.findSuspect_unmoved x l).trans (ih _)

/-- A wafer that is not found suspect at any of the places keeps its record. -/
theorem State.findSuspects_keeps (x : Sensed) {w : WaferName} {y : Wafer} (ls : List Loc) : ∀ s : State, s.wafer w = some y →
    ((∀ l ∈ ls, s.at l ≠ .wafer w) ∨ y.pendingResult ≠ some .suspect ∨ y.state.isFinal = true) →
    (s.findSuspects x ls).wafer w = some y := by
  induction ls with
  | nil => exact fun s hy _ => hy
  | cons l ls ih =>
    intro s hy untouched
    refine ih _ ((s.findSuspect_wafer x l hy).1 (untouched.imp_left fun h => h l (List.mem_cons_self ..))) (untouched.imp_left fun h m hm => ?_)
    rw [(s.findSuspect_unmoved x l).places]
    exact h m (List.mem_cons_of_mem _ hm)

/-- A suspect wafer found at one of the places, and named at no other of them. -/
theorem State.findSuspects_found (x : Sensed) {w : WaferName} {y : Wafer} {l : Loc} (ls : List Loc) (nodup : ls.Nodup) (hl : l ∈ ls) :
    ∀ s : State, s.wafer w = some y → s.findsAt x l w → (∀ m ∈ ls, m ≠ l → s.at m ≠ .wafer w) →
    (s.findSuspects x ls).wafer w = some (y.foundAt s.clock l) := by
  induction ls with
  | nil => cases hl
  | cons m ls ih =>
    intro s hy found alone
    obtain ⟨fresh, nodup⟩ := List.nodup_cons.1 nodup
    have unmoved := s.findSuspect_unmoved x m
    by_cases here : m = l
    · subst here
      refine State.findSuspects_keeps x ls _ ((s.findSuspect_wafer x m hy).2 found) (.inl fun n hn => ?_)
      rw [unmoved.places]
      exact alone n (List.mem_cons_of_mem _ hn) fun h => fresh (h ▸ hn)
    · have kept := (s.findSuspect_wafer x m hy).1 (.inl (alone m (List.mem_cons_self ..) here))
      have inl : l ∈ ls := (List.mem_cons.1 hl).resolve_left fun h => here h.symm
      have found' : (s.findSuspect x m).findsAt x l w :=
        ⟨(unmoved.places l).trans found.1, (State.isSuspect_of kept).trans ((State.isSuspect_of hy).symm.trans found.2.1), found.2.2⟩
      have := ih nodup inl _ kept found' fun n hn apart => by
        rw [unmoved.places]
        exact alone n (List.mem_cons_of_mem _ hn) apart
      rw [unmoved.clock] at this
      exact this

/-! ## An inventory's end (R41, R44) -/

/-- What an inventory's answer ends in: agreement or halting, when it was waited for. -/
def State.concluded (s : State) (agree : Bool) : State :=
  if s.handling.state ≠ .inventory then s
  else if agree && !s.handling.haltMark then s.inventoryAgrees
  else s.enterHalted

/-- Whether every place agrees with the sensors. -/
def State.agreesWith (s : State) (x : Sensed) : Bool := outsidePlaces.all fun l => s.agreesAt x l

theorem State.inventoryDone_eq (s : State) (x : Sensed) : s.inventoryDone x
    = ((((s.settleUncertain x).clearedOf x).comparedWith x).findSuspects x outsidePlaces).concluded
      (((s.settleUncertain x).clearedOf x).agreesWith x) := by
  unfold State.inventoryDone State.concluded State.findSuspects State.comparedWith State.agreesWith
  generalize hu : s.settleUncertain x = u
  rfl

theorem State.requestHome_rest (s : State) : s.requestHome.rest = s.rest := by
  unfold State.requestHome
  split <;> rfl

theorem State.unmoved_of_rest {s t : State} (h : t.rest = s.rest) : Unmoved s t where
  places := State.at_congr (congrArg (fun x : State => x.handling.table) h :)
  mem := (congrArg State.mem h :)
  clock := (congrArg State.clock h :)
  cell := (congrArg State.cell h :)
  sensor := (congrArg State.sensor h :)
  mport := (congrArg State.mport h :)
  uncertain := (congrArg (fun x : State => x.handling.uncertain) h :)
  carriers := (congrArg (fun x : State => x.handling.table.carriers) h :)
  noticed j hj := by
    have notice : t.notice = s.notice := (congrArg State.notice h :)
    rw [notice]
    exact hj

theorem State.enterHalted_unmoved (s : State) : Unmoved s s.enterHalted := by
  have handling := s.enterHalted_handling
  have raised := same_raise (s.setHandling { s.handling with state := .halted, haltMark := false }) .handlingHalt
  exact ⟨fun l => State.at_congr (by rw [handling]) l, raised.mem, raised.clock, raised.cell, raised.sensor, raised.mport, by rw [handling],
    by rw [handling], fun j hj => (quiet_raise (.refl _) .handlingHalt).news.noticed j hj⟩

/-- The state in which an inventory that agrees lets handling go on, before the homing that may be due. -/
def State.resumed (s : State) : State :=
  s.setHandling { s.handling with state := if s.cell.interlockOpen then .hold else s.handling.rest, homingDue := false }

theorem State.inventoryAgrees_eq (s : State) : s.inventoryAgrees = if s.handling.homingDue then s.resumed.requestHome else s.resumed := rfl

theorem State.concluded_unmoved (s : State) (agree : Bool) : Unmoved s (s.concluded agree) ∧ (s.concluded agree).lots = s.lots := by
  unfold State.concluded
  split
  · exact ⟨.refl s, rfl⟩
  split
  · have resumed : Unmoved s s.resumed := ⟨fun l => by cases l <;> rfl, rfl, rfl, rfl, rfl, rfl, rfl, rfl, fun _ h => h⟩
    rw [State.inventoryAgrees_eq]
    split
    · exact ⟨resumed.trans (State.unmoved_of_rest s.resumed.requestHome_rest), (State.rest_lots s.resumed.requestHome_rest).trans rfl⟩
    · exact ⟨resumed, rfl⟩
  · exact ⟨s.enterHalted_unmoved, (same_raise (s.setHandling _) .handlingHalt).lots⟩

/-- What an inventory's answer leaves, from the state in which an uncertain move has been settled: the places, and a wafer's record. -/
structure Inventoried (s t : State) (x : Sensed) : Prop where
  outside : ∀ l ∈ outsidePlaces, t.at l = s.inventoryAt x l
  inside : ∀ l, l ∉ outsidePlaces → t.at l = s.at l
  carriers : t.handling.table.carriers = s.handling.table.carriers
  uncertain : t.handling.uncertain = s.handling.uncertain
  noticed : ∀ j : Nat, s.notice.pending.getLsbD j = true → t.notice.pending.getLsbD j = true
  untouched : ∀ w y, s.wafer w = some y →
    ((∀ l ∈ outsidePlaces, s.at l ≠ .wafer w) ∨ y.pendingResult ≠ some .suspect ∨ y.state.isFinal = true) → t.wafer w = some y
  found : ∀ w y, s.wafer w = some y → y.pendingResult = some .suspect → ∀ l ∈ outsidePlaces, s.at l = .wafer w → x.get l = some true →
    (∀ m ∈ outsidePlaces, m ≠ l → s.at m ≠ .wafer w) → t.wafer w = some (y.foundAt s.clock l)

theorem State.inventoryDone_facts (s : State) (x : Sensed) : Inventoried (s.settleUncertain x) (s.inventoryDone x) x := by
  rw [State.inventoryDone_eq]
  generalize s.settleUncertain x = a
  generalize (a.clearedOf x).agreesWith x = agree
  have sorted := a.sorted_entries x
  generalize (a.clearedOf x).comparedWith x = c at sorted
  have searched := State.findSuspects_unmoved x outsidePlaces c
  obtain ⟨concluded, lots⟩ := (c.findSuspects x outsidePlaces).concluded_unmoved agree
  have rest := searched.trans concluded
  have record {w : WaferName} {y : Wafer} (h : a.wafer w = some y) : c.wafer w = some y := (State.wafer_congr sorted.part.lots w).trans h
  have last {w : WaferName} {y : Wafer} (h : (c.findSuspects x outsidePlaces).wafer w = some y) :
      ((c.findSuspects x outsidePlaces).concluded agree).wafer w = some y := (State.wafer_congr lots w).trans h
  have named {l : Loc} (hl : l ∈ outsidePlaces) {w : WaferName} (h : a.at l ≠ .wafer w) : c.at l ≠ .wafer w := fun h' =>
    h (State.inventoryAt_wafer.1 ((sorted.there l hl).symm.trans h'))
  refine ⟨fun l hl => (rest.places l).trans (sorted.there l hl), fun l hl => (rest.places l).trans (sorted.elsewhere l hl),
    rest.carriers.trans sorted.carriers, rest.uncertain.trans (by rw [sorted.handling]), fun j hj => rest.noticed j (by rw [sorted.notice]; exact hj),
    fun w y hy untouched => last (State.findSuspects_keeps x _ c (record hy) (untouched.imp_left fun h l hl => named hl (h l hl))),
    fun w y hy suspect l hl place sensed alone => ?_⟩
  rw [← sorted.part.clock]
  exact last (State.findSuspects_found x outsidePlaces outsidePlaces_nodup hl c (record hy)
    ⟨(sorted.there l hl).trans (State.inventoryAt_wafer.2 place sensed), (State.isSuspect_of (record hy)).trans (decide_eq_true suspect), sensed⟩
    fun m hm apart => named hm (alone m hm apart))

/-! ## An uncertain move settled (R41) -/

/-- The state in which an uncertain move is judged. -/
def State.judged (s : State) : State := s.setHandling { s.handling with uncertain := none }

/-- The suspect wafer an uncertain move is of, if it is of one that is not in a final state (R42). -/
def State.suspectOf (s : State) (u : UncertainMove) : Option WaferName :=
  (s.movedWafer u.source u.destination).filter fun w => s.isSuspect w && !((s.waferState w).map (·.isFinal)).getD true

theorem State.settleUncertain_none {s : State} (h : s.handling.uncertain = none) (x : Sensed) : s.settleUncertain x = s := by
  simp only [State.settleUncertain, h]

theorem State.settleUncertain_some {s : State} {u : UncertainMove} (h : s.handling.uncertain = some u) (x : Sensed) :
    (s.judged.suspectOf u = none → s.settleUncertain x = if u.taken x then s.judged.moveDone u.source u.destination else s.judged)
    ∧ (∀ w, s.judged.suspectOf u = some w → s.settleUncertain x
        = if u.taken x then
            if u.destination.isCarrier then (s.judged.carried u.source u.destination).suspectFound w u.destination
            else s.judged.carried u.source u.destination
          else if u.source.isCarrier then s.judged.suspectFound w u.source else s.judged) := by
  refine ⟨fun hs => ?_, fun w hs => ?_⟩
  · unfold State.suspectOf at hs
    unfold State.judged at *
    simp only [State.settleUncertain, h, hs]
  · unfold State.suspectOf at hs
    unfold State.judged at *
    simp only [State.settleUncertain, h, hs, State.carried]

theorem State.suspectOf_wafer {s : State} {u : UncertainMove} {w : WaferName} {y : Wafer} (hy : s.wafer w = some y)
    (hw : s.at u.source = .wafer w) (there : s.inAbsentCarrier u.source = false) (here : s.inAbsentCarrier u.destination = false) :
    s.suspectOf u = if y.pendingResult = some .suspect ∧ y.state.isFinal = false then some w else none := by
  have state : s.waferState w = some y.state := by rw [State.waferState, hy, Option.map_some]
  rw [State.suspectOf, State.movedWafer_of there here hw, Option.filter_some, State.isSuspect_of hy, state]
  by_cases suspect : y.pendingResult = some .suspect <;> cases final : y.state.isFinal <;> simp [suspect, final]

theorem State.suspectOf_facts {s : State} {u : UncertainMove} {w : WaferName} (h : s.suspectOf u = some w) :
    ∃ y, s.wafer w = some y ∧ y.pendingResult = some .suspect ∧ y.state.isFinal = false := by
  obtain ⟨-, h⟩ := Option.filter_eq_some_iff.1 h
  rw [Bool.and_eq_true, Bool.not_eq_true'] at h
  obtain ⟨suspect, final⟩ := h
  cases hy : s.wafer w with
  | none =>
    rw [State.waferState, hy] at final
    cases final
  | some y =>
    rw [State.isSuspect_of hy] at suspect
    rw [State.waferState, hy] at final
    exact ⟨y, rfl, of_decide_eq_true suspect, final⟩

theorem State.moveTable_uncertain (s : State) (src dst : Loc) : (s.moveTable src dst).handling.uncertain = s.handling.uncertain := by
  cases here : s.inAbsentCarrier dst with
  | true =>
    rw [State.moveTable_absent here]
    rfl
  | false =>
    rw [State.moveTable_takes here]
    rfl

theorem State.carried_uncertain (s : State) (src dst : Loc) : (s.carried src dst).handling.uncertain = s.handling.uncertain := by
  rw [State.carried_handling, State.moveTable_uncertain]

/-- No move is uncertain after an inventory (R41). -/
theorem State.settleUncertain_settled (s : State) (x : Sensed) : (s.settleUncertain x).handling.uncertain = none := by
  cases h : s.handling.uncertain with
  | none =>
    rw [State.settleUncertain_none h]
    exact h
  | some u =>
    obtain ⟨plain, suspect⟩ := State.settleUncertain_some h x
    have carried : (s.judged.carried u.source u.destination).handling.uncertain = none := State.carried_uncertain _ _ _
    cases hw : s.judged.suspectOf u with
    | none =>
      rw [plain hw]
      split
      · cases hm : s.judged.movedWafer u.source u.destination with
        | none =>
          rw [State.moveDone_none hm]
          exact carried
        | some w =>
          rw [State.moveDone_some hm]
          exact ((s.judged.carried u.source u.destination).waferMoved_unmoved w u.destination).1.uncertain.trans carried
      · rfl
    | some w =>
      rw [suspect w hw]
      split
      · split
        · exact ((s.judged.carried u.source u.destination).suspectFound_records w u.destination).unmoved.uncertain.trans carried
        · exact carried
      · split
        · exact (s.judged.suspectFound_records w u.source).unmoved.uncertain
        · rfl

/-- A suspect wafer found in its carrier is RETURNED. -/
theorem Wafer.foundAt_carrier {y : Wafer} (final : y.state.isFinal = false) {l : Loc} (hl : l.isCarrier = true) (now : Word) :
    y.foundAt now l = y.returned := by
  unfold Wafer.foundAt
  rw [if_neg (by rw [final]; nofun)]
  cases l with
  | carrier p n => rfl
  | _ => cases hl

theorem State.suspectFound_home {s : State} {w : WaferName} {y : Wafer} (hy : s.wafer w = some y) (final : y.state.isFinal = false)
    {l : Loc} (hl : l.isCarrier = true) : s.suspectFound w l = s.toReturned w := by
  unfold State.suspectFound
  simp only [State.waferState, hy, Option.map_some, final, Bool.false_eq_true, if_false]
  cases l with
  | carrier p n => rfl
  | _ => cases hl

/-- An uncertain move not taken as done leaves the places, and every wafer ORPHANED or not as it was. -/
theorem State.settleUncertain_notTaken {s : State} {x : Sensed} (h : ∀ u, s.handling.uncertain = some u → u.taken x = false) :
    (∀ l, (s.settleUncertain x).at l = s.at l)
    ∧ (∀ l, (s.settleUncertain x).stateAt l = some .orphaned ↔ s.stateAt l = some .orphaned)
    ∧ (s.settleUncertain x).handling.table.carriers = s.handling.table.carriers := by
  have same {t : State} (ht : t = s ∨ t = s.judged) : (∀ l, t.at l = s.at l) ∧ (∀ l, t.stateAt l = some .orphaned ↔ s.stateAt l = some .orphaned)
      ∧ t.handling.table.carriers = s.handling.table.carriers := by
    obtain rfl | rfl := ht
    · exact ⟨fun _ => rfl, fun _ => .rfl, rfl⟩
    · exact ⟨fun l => by cases l <;> rfl, fun l => by cases l <;> exact .rfl, rfl⟩
  cases hu : s.handling.uncertain with
  | none => exact same (.inl (State.settleUncertain_none hu x))
  | some u =>
    obtain ⟨plain, suspect⟩ := State.settleUncertain_some hu x
    have back := h u hu
    cases hw : s.judged.suspectOf u with
    | none => exact same (.inr ((plain hw).trans (if_neg (by rw [back]; nofun))))
    | some w =>
      have settled := (suspect w hw).trans (if_neg (by rw [back]; nofun))
      by_cases home : u.source.isCarrier = true
      · rw [if_pos home] at settled
        rw [settled]
        have records := s.judged.suspectFound_records w u.source
        obtain ⟨y, hy, -, final⟩ := State.suspectOf_facts hw
        have places (l : Loc) : (s.judged.suspectFound w u.source).at l = s.at l := (records.unmoved.places l).trans (by cases l <;> rfl)
        refine ⟨places, fun l => ?_, records.unmoved.carriers⟩
        have other (v : WaferName) : (s.judged.suspectFound w u.source).waferState v = some .orphaned ↔ s.waferState v = some .orphaned := by
          show _ ↔ s.judged.waferState v = some .orphaned
          rw [State.waferState, State.waferState, records.wafer]
          split
          · rename_i hv
            subst hv
            rw [hy, Option.map_some, Option.map_some, Option.map_some, Wafer.foundAt_carrier final home]
            refine ⟨nofun, fun h => ?_⟩
            rw [Option.some.inj h] at final
            cases final
          · exact .rfl
        rw [State.stateAt, State.stateAt, places]
        cases (s.at l).name with
        | none => exact .rfl
        | some v => exact other v
      · exact same (.inr (settled.trans (if_neg home)))

theorem Occupant.compared_eq (o : Occupant) (b : Bool) :
    o.compared b = if o.name.isSome then o else if b then .unknown else .empty := by
  cases o <;> cases b <;> rfl

theorem exec_inventoryDone {s : State} {o : RobotOrder} (ho : s.handling.robot = some o) (hk : o.kind = .inventory) (x : Sensed) :
    exec (.inventoryDone o.tag x.ua x.la x.pa x.st) s = .next (s.after (s.begin.endRobot.inventoryDone x)) := by
  have answers : s.begin.robotWith o.tag = some o.kind := State.robotWith_order (s := s.begin) ho
  refine exec_after (by nofun) ?_
  show s.begin.inventoryReply o.tag ⟨x.ua, x.la, x.pa, x.st⟩ = _
  rw [State.inventoryReply, answers, hk]

/-! ## INVENTORY_DONE (R41 to R44) -/

theorem Wafer.foundAt_state {y : Wafer} (final : y.state.isFinal = false) (now : Word) (l : Loc) :
    (y.foundAt now l).state = y.state.found l := by
  unfold Wafer.foundAt
  rw [if_neg (by rw [final]; nofun)]
  cases l with
  | pa =>
    dsimp only [WaferState.found]
  | st =>
    dsimp only
    split <;> rfl
  | _ => rfl

theorem WaferState.found_ne_onStage (st : WaferState) (l : Loc) : st.found l ≠ .onStage := by
  cases l with
  | pa =>
    unfold WaferState.found
    dsimp only
    split <;> nofun
  | _ => nofun

/-- What the end of an inventory's step leaves of the places and of a wafer's record. -/
theorem State.after_places (s u : State) :
    (∀ l, (s.after u).at l = u.at l) ∧ (s.after u).handling.table = u.handling.table
    ∧ (s.after u).handling.uncertain = u.handling.uncertain := by
  have kept := u.settle_kept
  refine ⟨fun l => ?_, ?_, ?_⟩
  · rw [State.after, State.finish_at, (quiet_settle (.refl u)).at_eq]
  · rw [State.after, State.finish_handling]
    exact (congrArg Kept.table kept :)
  · rw [State.after, State.finish_handling]
    exact (congrArg Kept.uncertain kept :)

theorem State.after_waferState (s : State) {u : State} {w : WaferName} {y : Wafer} (hy : u.wafer w = some y) (h : y.state ≠ .onStage) :
    (s.after u).waferState w = some y.state := by
  obtain ⟨z, hz, step⟩ := s.after_wafer hy
  rw [State.waferState, hz, Option.map_some, (step.state h).1]

/-- A suspect wafer's state once an inventory has found it (R42). -/
theorem State.after_found (s : State) {a u : State} {x : Sensed} (h : Inventoried a u x) {w : WaferName} {y : Wafer} (hy : a.wafer w = some y)
    (suspect : y.pendingResult = some .suspect) (final : y.state.isFinal = false) {l : Loc} (hl : l ∈ outsidePlaces)
    (place : a.at l = .wafer w) (sensed : x.get l = some true) (alone : ∀ m ∈ outsidePlaces, m ≠ l → a.at m ≠ .wafer w) :
    (s.after u).waferState w = some (y.state.found l) := by
  have found := h.found w y hy suspect l hl place sensed alone
  have state := y.foundAt_state final a.clock l
  rw [s.after_waferState found (by rw [state]; exact WaferState.found_ne_onStage _ _), state]

section
variable {r : State} {x : Sensed} {u : UncertainMove} {w : WaferName} {y : Wafer}

/-- The hypotheses of an uncertain move of a wafer between two places that are there (R41). -/
structure MoveUncertain (r : State) (u : UncertainMove) (w : WaferName) (y : Wafer) : Prop where
  uncertain : r.handling.uncertain = some u
  named : r.at u.source = .wafer w
  there : r.inAbsentCarrier u.source = false
  here : r.inAbsentCarrier u.destination = false
  apart : u.source ≠ u.destination
  place : r.hasPlace u.destination
  record : r.wafer w = some y

theorem MoveUncertain.suspectOf (h : MoveUncertain r u w y) :
    r.judged.suspectOf u = if y.pendingResult = some .suspect ∧ y.state.isFinal = false then some w else none :=
  State.suspectOf_wafer (s := r.judged) h.record (by rw [← h.named]; generalize u.source = l; cases l <;> rfl)
    (by rw [← h.there]; generalize u.source = l; cases l <;> rfl) (by rw [← h.here]; generalize u.destination = l; cases l <;> rfl)

/-- The state once an uncertain move has been carried out (R41). -/
theorem MoveUncertain.carried (h : MoveUncertain r u w y) :
    (r.judged.carried u.source u.destination).wafer w = some y
    ∧ (r.judged.carried u.source u.destination).lots = r.lots
    ∧ (r.judged.carried u.source u.destination).anchor = r.anchor
    ∧ (r.judged.carried u.source u.destination).at u.source = .empty
    ∧ (r.judged.carried u.source u.destination).at u.destination = .wafer w
    ∧ ∀ l, l ≠ u.source → l ≠ u.destination → (r.judged.carried u.source u.destination).at l = r.at l := by
  have table (l : Loc) : r.judged.at l = r.at l := by cases l <;> rfl
  have carrier (l : Loc) : r.judged.inAbsentCarrier l = r.inAbsentCarrier l := by cases l <;> rfl
  have part := same_carried r.judged u.source u.destination
  obtain ⟨emptied, others, taken⟩ := r.judged.moveTable_places h.apart
  have landed := State.landed_wafer (s := r.judged) ((carrier _).trans h.here) ((carrier _).trans h.there) ((table _).trans h.named)
  have place : r.judged.hasPlace u.destination := h.place
  refine ⟨(State.wafer_congr part.lots w).trans h.record, part.lots, part.anchor, (r.judged.carried_at ..).trans emptied,
    (r.judged.carried_at ..).trans ((taken (.inl place)).trans landed),
    fun l hs hd => (r.judged.carried_at ..).trans ((others l hs hd).trans (table l))⟩

/-- An uncertain move taken as done: the places (R41). -/
theorem MoveUncertain.taken_places (h : MoveUncertain r u w y) (taken : u.taken x = true) :
    (r.settleUncertain x).at u.source = .empty ∧ (r.settleUncertain x).at u.destination = .wafer w
    ∧ ∀ l, l ≠ u.source → l ≠ u.destination → (r.settleUncertain x).at l = r.at l := by
  obtain ⟨-, -, -, emptied, landed, others⟩ := h.carried
  obtain ⟨plain, suspect⟩ := State.settleUncertain_some h.uncertain x
  have unmoved : Unmoved (r.judged.carried u.source u.destination) (r.settleUncertain x) := by
    cases hw : r.judged.suspectOf u with
    | none =>
      rw [(plain hw).trans (if_pos taken)]
      cases hm : r.judged.movedWafer u.source u.destination with
      | none =>
        rw [State.moveDone_none hm]
        exact .refl _
      | some v =>
        rw [State.moveDone_some hm]
        exact ((r.judged.carried u.source u.destination).waferMoved_unmoved v u.destination).1
    | some v =>
      rw [(suspect v hw).trans (if_pos taken)]
      split
      · exact ((r.judged.carried u.source u.destination).suspectFound_records v u.destination).unmoved
      · exact .refl _
  exact ⟨(unmoved.places _).trans emptied, (unmoved.places _).trans landed, fun l hs hd => (unmoved.places l).trans (others l hs hd)⟩

/-- An uncertain move of a wafer that is not suspect, taken as done: its record (R11, R41). -/
theorem MoveUncertain.taken_record (h : MoveUncertain r u w y) (taken : u.taken x = true) (clean : y.pendingResult ≠ some .suspect)
    (off : y.state ≠ .onStage) (arrives : ¬ (y.state = .ready ∧ u.destination = .st)) :
    (r.settleUncertain x).wafer w = some (y.movedTo (r.judged.carried u.source u.destination).clock
      (decide ((r.lot w.slot).state = .aborting)) u.destination) := by
  obtain ⟨record, lots, -, -, -, -⟩ := h.carried
  have none : r.judged.suspectOf u = none := by rw [h.suspectOf, if_neg fun suspect => clean suspect.1]
  have carrier (l : Loc) : r.judged.inAbsentCarrier l = r.inAbsentCarrier l := by cases l <;> rfl
  have table (l : Loc) : r.judged.at l = r.at l := by cases l <;> rfl
  have moved := State.movedWafer_of (s := r.judged) ((carrier _).trans h.there) ((carrier _).trans h.here) ((table _).trans h.named)
  rw [((State.settleUncertain_some h.uncertain x).1 none).trans (if_pos taken), State.moveDone_some moved,
    (State.waferMoved_records record off arrives).wafer, if_pos rfl, record, Option.map_some, State.lot, lots]
  rfl

/-- A suspect wafer that an uncertain move's settling finds home (R42). -/
theorem MoveUncertain.home_record (h : MoveUncertain r u w y) (suspect : y.pendingResult = some .suspect) (final : y.state.isFinal = false)
    (home : u.taken x = true ∧ u.destination.isCarrier = true ∨ u.taken x = false ∧ u.source.isCarrier = true) :
    (r.settleUncertain x).wafer w = some y.returned
    ∧ (r.anchor.attach = .attached → (r.settleUncertain x).notice.pending.getLsbD 1 = true) := by
  obtain ⟨record, -, anchor, -, -, -⟩ := h.carried
  have some' : r.judged.suspectOf u = some w := by rw [h.suspectOf, if_pos ⟨suspect, final⟩]
  have settled := (State.settleUncertain_some h.uncertain x).2 w some'
  have found {b : State} (hb : b.wafer w = some y) (hz : b.anchor = r.anchor) {l : Loc} (hl : l.isCarrier = true) :
      (b.suspectFound w l).wafer w = some y.returned
      ∧ (r.anchor.attach = .attached → (b.suspectFound w l).notice.pending.getLsbD 1 = true) := by
    refine ⟨?_, fun attached => ?_⟩
    · rw [(b.suspectFound_records w l).wafer, if_pos rfl, hb, Option.map_some, Wafer.foundAt_carrier final hl]
    · rw [State.suspectFound_home hb final hl]
      exact State.toReturned_noticed (by rw [hz]; exact attached) w
  obtain ⟨taken, carrier⟩ | ⟨back, carrier⟩ := home
  · rw [settled, if_pos taken, if_pos carrier]
    exact found record anchor carrier
  · rw [settled, if_neg (by rw [back]; nofun), if_pos carrier]
    exact found (b := r.judged) h.record rfl carrier

/-- A suspect wafer whose uncertain move is taken as done to an outside place (R41). -/
theorem MoveUncertain.taken_suspect (h : MoveUncertain r u w y) (taken : u.taken x = true) (suspect : y.pendingResult = some .suspect)
    (final : y.state.isFinal = false) (outside : u.destination.isCarrier = false) : (r.settleUncertain x).wafer w = some y := by
  obtain ⟨record, -, -, -, -, -⟩ := h.carried
  have some' : r.judged.suspectOf u = some w := by rw [h.suspectOf, if_pos ⟨suspect, final⟩]
  rw [(State.settleUncertain_some h.uncertain x).2 w some', if_pos taken, if_neg (by rw [outside]; nofun)]
  exact record

end

theorem mem_outsidePlaces {l : Loc} : l ∈ outsidePlaces ↔ l.isCarrier = false := by
  cases l <;> simp [outsidePlaces, Loc.isCarrier]

theorem Sensed.get_carrier {x : Sensed} {l : Loc} (h : l.isCarrier = true) : x.get l = none := by
  cases l with
  | carrier p n => rfl
  | _ => cases h

theorem UncertainMove.taken_outside {u : UncertainMove} {x : Sensed} (taken : u.taken x = true) (outside : u.destination ∈ outsidePlaces) :
    x.get u.destination = some true := by
  have sensed := x.get_outside outside
  rw [UncertainMove.taken, sensed] at taken
  rw [sensed, show (x.get u.destination).getD false = true from taken]

/-- An inventory with an uncertain move of a wafer (R41, R42). -/
theorem MoveUncertain.inventoried {s r : State} {u : UncertainMove} {w : WaferName} {y : Wafer} {x : Sensed} (h : MoveUncertain r u w y) :
    (u.taken x = true → (s.after (r.inventoryDone x)).at u.destination = .wafer w
      ∧ (s.after (r.inventoryDone x)).at u.source = (if x.get u.source = some true then .unknown else .empty)
      ∧ (y.pendingResult ≠ some .suspect → y.state ≠ .onStage → ¬ (y.state = .ready ∧ u.destination = .st) →
          (s.after (r.inventoryDone x)).waferState w = some (y.state.moved u.destination (decide ((r.lot w.slot).state = .aborting))))
      ∧ (y.pendingResult = some .suspect → y.state.isFinal = false → (∀ m ∈ outsidePlaces, m ≠ u.source → r.at m ≠ .wafer w) →
          (s.after (r.inventoryDone x)).waferState w = some (y.state.found u.destination)))
    ∧ ((u.taken x = true ∧ u.destination.isCarrier = true ∨ u.taken x = false ∧ u.source.isCarrier = true) →
      y.pendingResult = some .suspect → y.state.isFinal = false →
      (∃ z, (s.after (r.inventoryDone x)).wafer w = some z ∧ z.state = .returned ∧ z.finalResult = .suspect)
      ∧ (r.anchor.attach = .attached → (s.after (r.inventoryDone x)).notice.pending.getLsbD 1 = true)) := by
  have facts := r.inventoryDone_facts x
  obtain ⟨places, -, -⟩ := s.after_places (r.inventoryDone x)
  refine ⟨fun taken => ?_, fun home suspect final => ?_⟩
  · obtain ⟨emptied, landed, others⟩ := h.taken_places taken
    refine ⟨(places _).trans ?_, (places _).trans ?_, fun clean off arrives => ?_, fun suspect final alone => ?_⟩
    · by_cases outside : u.destination ∈ outsidePlaces
      · rw [facts.outside _ outside]
        exact State.inventoryAt_wafer.2 landed (UncertainMove.taken_outside taken outside)
      · exact (facts.inside _ outside).trans landed
    · by_cases outside : u.source ∈ outsidePlaces
      · have none : (r.settleUncertain x).stateAt u.source = none := by rw [State.stateAt, emptied]; rfl
        rw [facts.outside _ outside, State.inventoryAt, none, if_neg nofun, emptied, x.get_outside outside]
        cases (x.get u.source).getD false <;> rfl
      · rw [facts.inside _ outside, emptied, Sensed.get_carrier (by simpa [mem_outsidePlaces] using outside)]
        rfl
    · obtain ⟨state, pending⟩ := y.movedTo_state (dst := u.destination) (r.judged.carried u.source u.destination).clock
        (decide ((r.lot w.slot).state = .aborting))
      have record := facts.untouched w _ (h.taken_record taken clean off arrives) (.inr (.inl (by rw [pending]; exact clean)))
      rw [s.after_waferState record (by rw [state]; exact WaferState.moved_ne_onStage off _ _), state, decide_eq_false clean, Bool.or_false]
    · by_cases outside : u.destination ∈ outsidePlaces
      · refine s.after_found facts (h.taken_suspect taken suspect final (mem_outsidePlaces.1 outside)) suspect final outside landed
          (UncertainMove.taken_outside taken outside) fun m hm apart => ?_
        by_cases left : m = u.source
        · rw [left, emptied]
          nofun
        · rw [others m left apart]
          exact alone m hm left
      · have carrier : u.destination.isCarrier = true := by simpa [mem_outsidePlaces] using outside
        obtain ⟨record, -⟩ := h.home_record suspect final (.inl ⟨taken, carrier⟩)
        rw [s.after_waferState (facts.untouched w _ record (.inr (.inr rfl))) nofun]
        generalize u.destination = l at carrier
        cases l with
        | carrier p n => rfl
        | _ => cases carrier
  · obtain ⟨record, noticed⟩ := h.home_record suspect final home
    obtain ⟨z, hz, step⟩ := s.after_wafer (facts.untouched w _ record (.inr (.inr rfl)))
    refine ⟨⟨z, hz, (step.state nofun).1, ?_⟩, fun attached => s.after_noticed (facts.noticed 1 (noticed attached))⟩
    refine (congrArg WaferCore.finalResult step.core).trans ?_
    show y.pendingResult.getD .notProcessed = .suspect
    rw [suspect]
    rfl

/-! ### An inventory without an uncertain move, an orphan or a suspect -/

theorem foldl_of_fixed {α β : Type} {f : α → β → α} {a : α} : ∀ {l : List β}, (∀ b ∈ l, f a b = a) → l.foldl f a = a
  | [], _ => rfl
  | b :: l, h => by
    rw [List.foldl_cons, h b (List.mem_cons_self ..)]
    exact foldl_of_fixed fun c hc => h c (List.mem_cons_of_mem _ hc)

/-- The comparison alone, when nothing else is to be settled. -/
theorem State.inventoryDone_plain {r : State} {x : Sensed} (certain : r.handling.uncertain = none)
    (orphans : ∀ l ∈ outsidePlaces, r.stateAt l ≠ some .orphaned)
    (suspects : ∀ l ∈ outsidePlaces, ∀ w, r.at l = .wafer w → r.isSuspect w = false) :
    r.inventoryDone x = (r.comparedWith x).concluded (r.agreesWith x) := by
  have cleared : r.clearedOf x = r := foldl_of_fixed fun l hl => if_neg fun gone => orphans l hl gone.1
  have compared := r.comparedWith_entries x
  have found : (r.comparedWith x).findSuspects x outsidePlaces = r.comparedWith x := by
    refine foldl_of_fixed fun l hl => State.findSuspect_not fun w found => ?_
    obtain ⟨place, suspect, -⟩ := found
    have named : r.at l = .wafer w := by
      rw [compared.there l hl, State.comparedAt, Occupant.compared_eq] at place
      split at place
      · exact place
      · split at place <;> cases place
    have clean := suspects l hl w named
    rw [State.isSuspect, State.wafer_congr compared.part.lots] at suspect
    rw [State.isSuspect, suspect] at clean
    cases clean
  rw [State.inventoryDone_eq, State.settleUncertain_none certain, cleared, found]

theorem State.agreesAt_iff {r : State} {x : Sensed} {l : Loc} (hl : l ∈ outsidePlaces) :
    r.agreesAt x l = true ↔ (r.at l).name.isSome = (x.get l).getD false := by
  rw [State.agreesAt, x.get_outside hl]
  cases r.at l <;> cases (x.get l).getD false <;> simp [Occupant.agrees, Occupant.name]

theorem State.agreesWith_iff {r : State} {x : Sensed} :
    r.agreesWith x = true ↔ ∀ l ∈ outsidePlaces, (r.at l).name.isSome = (x.get l).getD false := by
  rw [State.agreesWith, List.all_eq_true]
  exact forall₂_congr fun l hl => State.agreesAt_iff hl

/-- Homing asked for when it is allowed: every axis is HOMING (R58). -/
theorem State.requestHome_homes {s : State} (h : s.homeAllowed = true) :
    s.requestHome.motion.x.state = .homing ∧ s.requestHome.motion.y.state = .homing ∧ s.requestHome.motion.z.state = .homing := by
  rw [State.requestHome, if_pos h]
  exact ⟨rfl, rfl, rfl⟩

/-- A HOMING axis stays so by consequences. -/
theorem State.after_homing (s : State) {u : State}
    (h : u.motion.x.state = .homing ∧ u.motion.y.state = .homing ∧ u.motion.z.state = .homing) :
    (s.after u).motion.x.state = .homing ∧ (s.after u).motion.y.state = .homing ∧ (s.after u).motion.z.state = .homing := by
  obtain ⟨x, y, z⟩ := h
  have steps := (quiet_settle (.refl u)).motion
  have homing {a b : AxisState} (ha : a = .homing) (step : AxisStep a b) : b = .homing :=
    step.elim (fun same => same.trans ha) fun idle => by rw [ha] at idle; cases idle.1
  rw [State.after, State.finish_motion]
  exact ⟨homing x steps.x, homing y steps.y, homing z steps.z⟩

theorem State.homeAllowed_resumed {s c : State} (motion : c.motion = s.motion) (robot : c.handling.robot = none) (h : s.homeAllowed = true) :
    c.resumed.homeAllowed = true := by
  have free : c.resumed.robotAtStage = false := by
    unfold State.robotAtStage
    rw [show c.resumed.handling.robot = none from robot]
  unfold State.homeAllowed at *
  rw [free, show c.resumed.motion = s.motion from motion]
  rw [Bool.and_eq_true] at h ⊢
  exact ⟨h.1, rfl⟩

/-- An inventory that agrees lets handling go on, and homes the axes when that is due (R41, R44). -/
theorem State.after_inventoryAgrees (s c : State) :
    (c.cell.interlockOpen = true → (s.after c.inventoryAgrees).handling.state = .hold)
    ∧ (c.cell.interlockOpen = false → (s.after c.inventoryAgrees).handling.state.mayOrder = true)
    ∧ (s.after c.inventoryAgrees).handling.homingDue = false
    ∧ (c.handling.homingDue = true → c.resumed.homeAllowed = true → (s.after c.inventoryAgrees).motion.x.state = .homing
      ∧ (s.after c.inventoryAgrees).motion.y.state = .homing ∧ (s.after c.inventoryAgrees).motion.z.state = .homing) := by
  have handling : c.inventoryAgrees.handling = c.resumed.handling := by
    rw [State.inventoryAgrees_eq]
    split
    · exact (congrArg State.handling c.resumed.requestHome_rest :)
    · rfl
  have quiet := quiet_settle (.refl c.inventoryAgrees)
  refine ⟨fun open' => ?_, fun closed => ?_, ?_, fun due allowed => ?_⟩
  · have hold : c.inventoryAgrees.handling.state = .hold := by
      rw [handling]
      exact if_pos open'
    rw [s.after_stopped (by rw [hold]; rfl), hold]
  · have rest : c.inventoryAgrees.handling.state = c.handling.rest := by
      rw [handling]
      exact if_neg (by rw [closed]; nofun)
    rw [State.after, State.finish_handling]
    refine quiet.handling.ordering ?_
    rw [rest, HandlingState.mayOrder_iff]
    exact c.handling.rest_cases
  · rw [State.after, State.finish_handling]
    refine (congrArg Kept.homingDue quiet.kept :).trans ?_
    show c.inventoryAgrees.handling.homingDue = false
    rw [handling]
    rfl
  · refine s.after_homing ?_
    rw [State.inventoryAgrees_eq, if_pos due]
    exact State.requestHome_homes allowed

/-- Settles O33: an inventory with nothing to settle compares the places alone; else an uncertain move is settled, orphans leave their
places, the places are compared, and the suspects found. -/
theorem inventoryAgreesOrHalts : Obligations.InventoryAgreesOrHalts := by
  intro s o x ho hk hs
  have ran := exec_inventoryDone ho hk x
  generalize hr : s.begin.endRobot = r at ran
  have at_r (l : Loc) : r.at l = s.at l := by rw [← hr]; rfl
  have carrier (l : Loc) : r.inAbsentCarrier l = s.inAbsentCarrier l := by rw [← hr]; cases l <;> rfl
  have wafer (w : WaferName) : r.wafer w = s.wafer w := by rw [← hr]; rfl
  have stateAt (l : Loc) : r.stateAt l = s.stateAt l := by rw [← hr]; rfl
  have lots (k : Slot) : r.lot k = s.lot k := by rw [← hr]; rfl
  have anchor : r.anchor = s.anchor := by rw [← hr]; rfl
  have handling : r.handling = { s.handling with robot := none } := by rw [← hr]; rfl
  have uncertain : r.handling.uncertain = s.handling.uncertain := by rw [handling]
  obtain ⟨places, table, moves⟩ := s.after_places (r.inventoryDone x)
  refine ⟨fun certain orphans suspects => ?_, _, ran, ?_, ?_, ?_, ?_⟩
  · have compared := r.comparedWith_entries x
    have plain := State.inventoryDone_plain (r := r) (x := x) (uncertain.trans certain) (fun l hl => by rw [stateAt]; exact orphans l hl)
      (fun l hl w hw => by rw [State.isSuspect, wafer]; exact suspects l hl w ((at_r l).symm.trans hw))
    have state : (r.comparedWith x).handling.state = .inventory := by rw [compared.handling, handling]; exact hs
    have mark : (r.comparedWith x).handling.haltMark = s.handling.haltMark := by rw [compared.handling, handling]
    have due : (r.comparedWith x).handling.homingDue = s.handling.homingDue := by rw [compared.handling, handling]
    have robot : (r.comparedWith x).handling.robot = none := by rw [compared.handling, handling]
    have cell : (r.comparedWith x).cell = s.cell := by rw [compared.part.cell, ← hr]; rfl
    have motion : (r.comparedWith x).motion = s.motion := by rw [compared.part.motion, ← hr]; rfl
    have agrees : r.agreesWith x = true ↔ ∀ l ∈ outsidePlaces, (s.at l).name.isSome = (x.get l).getD false := by
      simp only [State.agreesWith_iff, at_r]
    have unmoved := ((r.comparedWith x).concluded_unmoved (r.agreesWith x)).1
    have frame : (s.after (r.inventoryDone x)).handling.table.carriers = s.handling.table.carriers
        ∧ (s.after (r.inventoryDone x)).mem = s.mem ∧ (s.after (r.inventoryDone x)).clock = s.clock
        ∧ (s.after (r.inventoryDone x)).cell = s.cell := by
      refine ⟨?_, s.after_mem_clock_cell ?_⟩
      · rw [table, plain, unmoved.carriers, compared.carriers, handling]
      · rw [plain, unmoved.mem, unmoved.clock, unmoved.cell, compared.part.mem, compared.part.clock, compared.part.cell, ← hr]
        exact ⟨rfl, rfl, rfl⟩
    have entry (l : Loc) (hl : l ∈ outsidePlaces) : (s.after (r.inventoryDone x)).at l = (s.at l).compared ((x.get l).getD false) := by
      rw [places, plain, unmoved.places, compared.there l hl, State.comparedAt, at_r]
    refine ⟨fun agree unmarked => ⟨_, ran, ?_⟩, fun disagree => ⟨_, ran, ?_⟩⟩
    · have ended : r.inventoryDone x = (r.comparedWith x).inventoryAgrees := by
        rw [plain, State.concluded, if_neg (by rw [state]; exact fun h => h rfl), agrees.2 agree, mark, unmarked]
        rfl
      obtain ⟨hold, on, home, homes⟩ := s.after_inventoryAgrees (r.comparedWith x)
      rw [cell] at hold on
      rw [due] at homes
      rw [ended] at frame entry ⊢
      refine ⟨hold, on, home, fun due allowed => homes due (State.homeAllowed_resumed motion robot allowed), fun l hl => ?_, frame⟩
      rw [entry l hl, Occupant.compared_eq, ← agree l hl]
      cases s.at l <;> simp [Occupant.name]
    · have ended : r.inventoryDone x = (r.comparedWith x).enterHalted := by
        rw [plain, State.concluded, if_neg (by rw [state]; exact fun h => h rfl), if_neg]
        rw [mark, Bool.and_eq_true, agrees, Bool.not_eq_true']
        rintro ⟨agree, unmarked⟩
        obtain ⟨l, hl, differs⟩ | marked := disagree
        · exact differs (agree l hl)
        · rw [marked] at unmarked
          cases unmarked
      rw [ended] at frame entry ⊢
      have halted := s.after_enterHalted (r.comparedWith x)
      refine ⟨by rw [halted], by rw [halted]; exact robot, by rw [halted], fun attached => s.after_noticed ?_, fun l hl => ?_, frame⟩
      · exact State.raise_noticed (by show (r.comparedWith x).anchor.attach = _; rw [compared.part.anchor, anchor]; exact attached) .handlingHalt
      · rw [entry l hl, Occupant.compared_eq]
  · rw [moves, (r.inventoryDone_facts x).uncertain, State.settleUncertain_settled]
  · intro back
    obtain ⟨same, orphans, carriers⟩ := State.settleUncertain_notTaken (s := r) (x := x) (by rw [uncertain]; exact back)
    have facts := r.inventoryDone_facts x
    refine ⟨fun l hl => ?_, ?_⟩
    · rw [places, facts.outside l hl, State.inventoryAt, same, at_r, Occupant.compared_eq]
      simp only [orphans, stateAt]
    · rw [table, facts.carriers, carriers, handling]
  · intro l w st certain place sensed hw suspect final alone
    have settled := State.settleUncertain_none (uncertain.trans certain) x
    have facts := r.inventoryDone_facts x
    rw [settled] at facts
    have hl : l ∈ outsidePlaces := by
      rw [mem_outsidePlaces]
      cases h : l.isCarrier with
      | true =>
        rw [Sensed.get_carrier h] at sensed
        cases sensed
      | false => rfl
    obtain ⟨y, hy, rfl⟩ := Option.map_eq_some_iff.1 hw
    refine ⟨?_, ?_⟩
    · rw [places, facts.outside l hl]
      exact State.inventoryAt_wafer.2 ((at_r l).trans place) sensed
    · exact s.after_found facts ((wafer w).trans hy) (of_decide_eq_true ((State.isSuspect_of hy).symm.trans suspect)) final hl
        ((at_r l).trans place) sensed fun m hm apart => by rw [at_r]; exact alone m hm apart
  · intro u w st hu hw there here apart place state
    obtain ⟨y, hy, rfl⟩ := Option.map_eq_some_iff.1 state
    have move : MoveUncertain r u w y := ⟨uncertain.trans hu, (at_r _).trans hw, (carrier _).trans there, (carrier _).trans here, apart,
      by rw [← hr]; exact place, (wafer w).trans hy⟩
    obtain ⟨taken, home⟩ := move.inventoried (s := s) (x := x)
    have suspect := State.isSuspect_of hy
    rw [lots] at taken
    rw [anchor] at home
    refine ⟨fun ht => ?_, fun hh hsus => home hh (of_decide_eq_true (suspect.symm.trans hsus))⟩
    obtain ⟨landed, left, moved, found⟩ := taken ht
    refine ⟨landed, left, fun clean => moved (of_decide_eq_false (suspect.symm.trans clean)), fun hsus final alone =>
      found (of_decide_eq_true (suspect.symm.trans hsus)) final fun m hm apart => by rw [at_r]; exact alone m hm apart⟩

end Sys2Proof.Machine
end

section
/-! SUPPORT. Entries and reviews cut off, messages to units at rest, records as the lots pass, and the motion fault: O51. -/

namespace Sys2Proof.Machine

/-! ## Entries cut off (R132, R152) -/

/-- A cut-off's map of the store: a record stays, or it has ended ABORTED with the reason, its step knowing of it. -/
def CutsOff (why : EntryReason) (touched : List RecId) (f : Entry → Entry) : Prop :=
  ∀ x, f x = x ∨ (f x = { x with state := .aborted, reason := why } ∧ x.id ∈ touched)

theorem CutsOff.mono {why : EntryReason} {l m : List RecId} {f : Entry → Entry} (h : CutsOff why l f) (sub : ∀ i ∈ l, i ∈ m) :
    CutsOff why m f := fun x => (h x).imp_right fun ⟨cut, here⟩ => ⟨cut, sub _ here⟩

theorem CutsOff.comp {why : EntryReason} {l : List RecId} {f g : Entry → Entry} (h : CutsOff why l f) (k : CutsOff why l g) :
    CutsOff why l (g ∘ f) := fun x => by
  obtain same | ⟨cut, here⟩ := h x
  · simp only [Function.comp_apply, same]
    exact k x
  · refine .inr ⟨?_, here⟩
    simp only [Function.comp_apply, cut]
    obtain same | ⟨cut', -⟩ := k { x with state := .aborted, reason := why }
    · exact same
    · exact cut'

/-- What a part of a cut-off does to the store. -/
structure Cuts (why : EntryReason) (s t : State) (f : Entry → Entry) : Prop where
  store : t.revisit.store = s.revisit.store.map f
  cuts : CutsOff why t.scratch.touched f
  touched : ∀ i ∈ s.scratch.touched, i ∈ t.scratch.touched

theorem Cuts.of {why : EntryReason} {s t : State} (store : t.revisit.store = s.revisit.store)
    (touched : t.scratch.touched = s.scratch.touched) : Cuts why s t id :=
  ⟨by rw [store, List.map_id], fun _ => .inl rfl, fun i hi => by rw [touched]; exact hi⟩

theorem Cuts.trans {why : EntryReason} {s t u : State} {f g : Entry → Entry} (h : Cuts why s t f) (k : Cuts why t u g) :
    Cuts why s u (g ∘ f) :=
  ⟨by rw [k.store, h.store, List.map_map], (h.cuts.mono k.touched).comp k.cuts, fun i hi => k.touched i (h.touched i hi)⟩

theorem Cuts.finishEntry (s : State) (e : Entry) (why : EntryReason) : Cuts why s (s.finishEntry e .aborted why)
    fun x => if x.is e.slot e.index then { x with state := .aborted, reason := why } else x := by
  have touched : (s.finishEntry e .aborted why).scratch.touched = .defectEntry e.slot e.index :: s.scratch.touched := rfl
  refine ⟨s.finishEntry_store e .aborted why, fun x => ?_, fun i hi => ?_⟩
  · by_cases h : x.is e.slot e.index = true
    · refine .inr ⟨if_pos h, ?_⟩
      have id : x.id = .defectEntry e.slot e.index := by
        simp only [Entry.is, Bool.and_eq_true, beq_iff_eq] at h
        rw [Entry.id, h.1, h.2]
      rw [touched, id]
      exact List.mem_cons_self
    · exact .inl (if_neg h)
  · rw [touched]
    exact List.mem_cons_of_mem _ hi

theorem Cuts.finishEntries (why : EntryReason) (l : List Entry) : ∀ s : State,
    ∃ f, Cuts why s (l.foldl (fun s e => s.finishEntry e .aborted why) s) f := by
  induction l with
  | nil => exact fun s => ⟨id, .of rfl rfl⟩
  | cons e l ih =>
    intro s
    obtain ⟨f, h⟩ := ih (s.finishEntry e .aborted why)
    exact ⟨_, (Cuts.finishEntry s e why).trans h⟩

theorem Cuts.endQueued (s : State) (w : WaferName) (why : EntryReason) : ∃ f, Cuts why s (s.endQueued w why) f :=
  Cuts.finishEntries why _ s

/-- A cut-off leaves no QUEUED record that was none before. -/
theorem Cuts.queuedOf {why : EntryReason} {s t : State} {f : Entry → Entry} (h : Cuts why s t f) {w : WaferName} (none : s.queuedOf w = []) :
    t.queuedOf w = [] := by
  refine List.eq_nil_iff_forall_not_mem.2 fun x hx => ?_
  obtain ⟨inStore, rest⟩ := State.mem_queuedOf.1 hx
  rw [h.store] at inStore
  obtain ⟨y, hy, rfl⟩ := List.mem_map.1 inStore
  obtain same | ⟨cut, -⟩ := h.cuts y
  · rw [same] at rest
    have := State.mem_queuedOf.2 ⟨hy, rest⟩
    rw [none] at this
    cases this
  · rw [cut] at rest
    cases rest.2.1

/-- A lot's QUEUED entries end, wafer by wafer (R132). -/
theorem Cuts.endQueuedOfLot (s : State) (k : Slot) (why : EntryReason) :
    (∃ f, Cuts why s (s.endQueuedOfLot k why) f) ∧ ∀ n < 25, (s.endQueuedOfLot k why).queuedOf ⟨k, n + 1⟩ = [] := by
  have general (l : List Nat) : ∀ s : State, (∃ f, Cuts why s (l.foldl (fun s n => s.endQueued ⟨k, n + 1⟩ why) s) f)
      ∧ ∀ n ∈ l, (l.foldl (fun s n => s.endQueued ⟨k, n + 1⟩ why) s).queuedOf ⟨k, n + 1⟩ = [] := by
    induction l with
    | nil => exact fun s => ⟨⟨id, .of rfl rfl⟩, nofun⟩
    | cons m l ih =>
      intro s
      obtain ⟨f, first⟩ := Cuts.endQueued s ⟨k, m + 1⟩ why
      obtain ⟨⟨g, later⟩, emptied⟩ := ih (s.endQueued ⟨k, m + 1⟩ why)
      refine ⟨⟨_, first.trans later⟩, fun n hn => ?_⟩
      obtain rfl | hn := List.mem_cons.1 hn
      · exact later.queuedOf (s.endQueued_queuedOf _ _)
      · exact emptied n hn
  obtain ⟨cuts, emptied⟩ := general (List.range 25) s
  exact ⟨cuts, fun n hn => emptied n (List.mem_range.2 hn)⟩

/-- A QUEUED entry that a cut-off has left none of has ended. -/
theorem Cuts.queued_ended {why : EntryReason} {s t : State} {f : Entry → Entry} (h : Cuts why s t f) {w : WaferName} (none : t.queuedOf w = [])
    {e : Entry} (he : e ∈ s.queuedOf w) : f e = { e with state := .aborted, reason := why } := by
  obtain ⟨inStore, rest⟩ := State.mem_queuedOf.1 he
  obtain same | ⟨cut, -⟩ := h.cuts e
  · have kept : e ∈ t.revisit.store := by
      rw [h.store]
      exact List.mem_map.2 ⟨e, inStore, same⟩
    have := State.mem_queuedOf.2 ⟨kept, rest⟩
    rw [none] at this
    cases this
  · exact cut

/-- A record that has ended in this step: it stays in the store until the step's end. -/
structure EndsHere (s : State) (e : Entry) (why : EntryReason) : Prop where
  touched : e.id ∈ s.scratch.touched
  record : ∃ x ∈ s.revisit.store, x.id = e.id ∧ x.state = .aborted ∧ x.reason = why ∧ x.host = e.host ∧ x.attempts = e.attempts
    ∧ x.firstFrame = e.firstFrame ∧ x.frames = e.frames

theorem Cuts.endsHere {why : EntryReason} {s t : State} {f : Entry → Entry} (h : Cuts why s t f) {e : Entry} (he : e ∈ s.revisit.store)
    (cut : f e = { e with state := .aborted, reason := why }) (off : e.state ≠ .aborted) : EndsHere t e why := by
  refine ⟨?_, f e, ?_, ?_⟩
  · obtain same | ⟨-, here⟩ := h.cuts e
    · rw [same] at cut
      exact absurd (congrArg Entry.state cut) off
    · exact here
  · rw [h.store]
    exact List.mem_map_of_mem he
  · rw [cut]
    exact ⟨rfl, rfl, rfl, rfl, rfl, rfl, rfl⟩

theorem EndsHere.of {s t : State} {e : Entry} {why : EntryReason} (h : EndsHere s e why) (store : t.revisit.store = s.revisit.store)
    (touched : t.scratch.touched = s.scratch.touched) : EndsHere t e why :=
  ⟨by rw [touched]; exact h.touched, by rw [store]; exact h.record⟩

/-! ## Messages to units at rest -/

/-- No revisit is active or looked for, and no mark is measured: messages change nothing of the review. -/
structure Quiescent (s : State) : Prop where
  active : s.revisit.active = none
  review : s.revisit.review ≠ .revisiting
  align : s.align.state ≠ .measuring

theorem Quiescent.of_rest {s t : State} (h : Quiescent s) (same : t.rest = s.rest) : Quiescent t :=
  ⟨by rw [State.rest_revisit same]; exact h.active, by rw [State.rest_revisit same]; exact h.review,
    by rw [State.rest_align same]; exact h.align⟩

theorem Quiescent.deliver {s : State} (h : Quiescent s) (m : Msg) :
    (s.deliver m).rest = s.rest ∧ (s.af.state = .idle → (s.deliver m).af = s.af) := by
  have unmeasured (p : Prop) : ¬ (s.align.state = .measuring ∧ p) := fun measuring => h.align measuring.1
  have same {t : State} (ht : t = s) : t.rest = s.rest ∧ (s.af.state = .idle → t.af = s.af) := by
    subst ht
    exact ⟨rfl, fun _ => rfl⟩
  have settles (n : Nat) : s.alignSettled n = s := by
    unfold State.alignSettled
    split
    · rfl
    · exact if_neg (unmeasured _)
  have revisits (n : Nat) : s.revisitSettled n = s := by
    unfold State.revisitSettled
    rw [h.active]
  have refuses (n : Nat) (why : MoveRefusal) : s.revisitRefused n why = s := by
    unfold State.revisitRefused
    rw [h.active]
  have answers (o : FocusOutcome) : s.revisitFocus o = s := by
    unfold State.revisitFocus
    rw [h.active]
  cases m with
  | settled r g =>
    unfold State.deliver
    dsimp only
    split
    · exact same (settles _)
    · exact same (revisits _)
    · unfold State.focusSettled
      split
      · exact ⟨rfl, fun idle => by rename_i active; rw [idle] at active; cases active.2⟩
      · exact same rfl
    · exact same rfl
    · exact same rfl
  | refused r g why =>
    unfold State.deliver
    dsimp only
    split
    · exact same (if_neg (unmeasured _))
    · exact same (refuses _ _)
    · unfold State.focusRefused
      split
      · exact ⟨s.failFocus_rest _, fun idle => by rename_i active; rw [idle] at active; cases active.2⟩
      · exact same rfl
    · exact same rfl
    · exact same rfl
  | focusAnswer u o =>
    cases u with
    | alignment => exact same (if_neg (unmeasured _))
    | revisit => exact same (answers o)
  | lookAtList =>
    refine same ?_
    show s.lookAfterEnd = s
    unfold State.lookAfterEnd
    split
    · exact if_neg fun revisiting => h.review revisiting.1
    · rfl

theorem Quiescent.drainFor : ∀ (n : Nat) {s : State}, Quiescent s →
    (State.drainFor n s).rest = s.rest ∧ (s.af.state = .idle → (State.drainFor n s).af = s.af)
  | 0, _, _ => ⟨rfl, fun _ => rfl⟩
  | n + 1, s, h => by
    unfold State.drainFor
    split
    · exact ⟨rfl, fun _ => rfl⟩
    · rename_i m rest _
      have set : Quiescent (s.setMsgs rest) := h.of_rest rfl
      obtain ⟨same, af⟩ := set.deliver m
      obtain ⟨same', af'⟩ := Quiescent.drainFor n (set.of_rest same)
      refine ⟨same'.trans same, fun idle => ?_⟩
      have af := af idle
      exact (af' (by rw [af]; exact idle)).trans af

theorem Quiescent.drain {s : State} (h : Quiescent s) : s.drain.rest = s.rest ∧ (s.af.state = .idle → s.drain.af = s.af) :=
  Quiescent.drainFor _ h

/-! ## Ended records as the lots pass (R136, R169) -/

theorem EndsHere.closeRow {s : State} {e : Entry} {why : EntryReason} (h : EndsHere s e why) (w : WaferName) : EndsHere (s.closeRow w) e why := by
  unfold State.closeRow
  split
  · obtain ⟨x, hx, id, rest⟩ := h.record
    refine ⟨h.touched, if x.inOpenRowOf w then { x with rowClosed := true } else x, List.mem_map_of_mem (List.mem_filter.2 ⟨hx, ?_⟩), ?_⟩
    · have unclean (u : State) (hu : u.scratch.touched = s.scratch.touched) : u.clean x = false := by
        have here : u.scratch.touched.contains x.id = true := by
          rw [hu, id]
          exact List.contains_iff_mem.2 h.touched
        rw [State.clean, here, Bool.not_true, Bool.and_false]
      rw [Bool.not_eq_true', Bool.and_eq_false_iff]
      exact .inr (unclean _ rfl)
    · split
      · exact ⟨id, rest⟩
      · exact ⟨id, rest⟩
  · exact h

theorem EndsHere.raise {s : State} {e : Entry} {why : EntryReason} (h : EndsHere s e why) (k : NoticeKind) : EndsHere (s.raise k) e why := by
  unfold State.raise
  split
  · exact h.of rfl rfl
  · exact h

theorem EndsHere.closeReport {s : State} {e : Entry} {why : EntryReason} (h : EndsHere s e why) (k : Slot) : EndsHere (s.closeReport k) e why := by
  have rows (l : List Nat) : ∀ s : State, EndsHere s e why → EndsHere (l.foldl (fun s n => s.closeRow ⟨k, n⟩) s) e why := by
    induction l with
    | nil => exact fun _ h => h
    | cons n l ih => exact fun s h => ih _ (h.closeRow _)
  have closed := rows slots25 s h
  unfold State.closeReport
  dsimp only
  refine EndsHere.raise (EndsHere.raise ?_ .lotEnd) .reportClosed
  exact closed.of rfl rfl

theorem EndsHere.lotChange {s : State} {e : Entry} {why : EntryReason} (h : EndsHere s e why) (k : Slot) : EndsHere (s.lotChange k) e why := by
  have set (st : LotState) : EndsHere (s.setLotState k st) e why := h.of rfl rfl
  unfold State.lotChange
  dsimp only
  repeat' split
  all_goals first
    | exact h
    | exact set _
    | exact (set _).closeReport k

theorem EndsHere.lotPass {s : State} {e : Entry} {why : EntryReason} (h : EndsHere s e why) : EndsHere s.lotPass e why := by
  have passes (l : List Nat) : ∀ s : State, EndsHere s e why →
      EndsHere (l.foldl (fun s _ => (s.lotChange .zero).lotChange .one) s) e why := by
    induction l with
    | nil => exact fun _ h => h
    | cons n l ih => exact fun s h => ih _ ((h.lotChange _).lotChange _)
  exact passes _ s h

theorem EndsHere.rest {s t : State} {e : Entry} {why : EntryReason} (h : EndsHere s e why) (same : t.rest = s.rest) : EndsHere t e why :=
  h.of (by rw [State.rest_revisit same]) (congrArg (fun x : State => x.scratch.touched) same :)

/-! ## The consequences of a step that leaves the units at rest -/

/-- What the consequences leave of a review that is not under way. -/
structure Settled (s t : State) : Prop where
  align : t.align = s.align
  active : t.revisit.active = s.revisit.active
  review : t.revisit.review = s.revisit.review
  timer : t.revisit.timer = s.revisit.timer
  wafer : ∀ v, t.wafer v = s.wafer v
  af : s.af.state = .idle → t.af = s.af
  ended : ∀ e why, EndsHere s e why → EndsHere t e why

theorem Settled.trans {s t u : State} (h : Settled s t) (g : Settled t u) : Settled s u :=
  ⟨g.align.trans h.align, g.active.trans h.active, g.review.trans h.review, g.timer.trans h.timer, fun v => (g.wafer v).trans (h.wafer v),
    fun idle => (g.af (by rw [h.af idle]; exact idle)).trans (h.af idle), fun e why he => g.ended e why (h.ended e why he)⟩

theorem Settled.drain {s : State} (h : Quiescent s) : Settled s s.drain := by
  obtain ⟨rest, af⟩ := h.drain
  have revisit := State.rest_revisit rest
  exact ⟨State.rest_align rest, by rw [revisit], by rw [revisit], by rw [revisit], State.wafer_congr (State.rest_lots rest), af,
    fun e why he => he.rest rest⟩

theorem Settled.lotPass (s : State) : Settled s s.lotPass := by
  have unpassed := s.lotPass_unpassed
  exact ⟨(congrArg State.align unpassed :), (congrArg (fun x : State => x.revisit.active) unpassed :),
    (congrArg (fun x : State => x.revisit.review) unpassed :), (congrArg (fun x : State => x.revisit.timer) unpassed :),
    s.lotPass_wafer, fun _ => (congrArg State.af unpassed :), fun _ _ he => he.lotPass⟩

theorem Settled.sends (s : State) : Settled s s.sends := by
  have still := s.sends_still
  have revisit : s.sends.revisit = s.revisit := (congrArg State.revisit still :)
  exact ⟨(congrArg State.align still :), by rw [revisit], by rw [revisit], by rw [revisit], State.wafer_congr (congrArg State.lots still :),
    fun _ => (congrArg State.af still :), fun _ _ he => he.of (by rw [revisit]) (congrArg (fun x : State => x.scratch.touched) still :)⟩

theorem Quiescent.settled {s t : State} (h : Quiescent s) (g : Settled s t) : Quiescent t :=
  ⟨by rw [g.active]; exact h.active, by rw [g.review]; exact h.review, by rw [g.align]; exact h.align⟩

theorem Settled.settle {s : State} (h : Quiescent s) : Settled s s.settle := by
  have drained := Settled.drain h
  have sent := (drained.trans (.lotPass _)).trans (.sends _)
  exact sent.trans (.drain (h.settled sent))

/-! ## A review cut off (R81, R152, R153) -/

/-- A record cut off: its pending result is ABORTED when none is set (R11). -/
def Wafer.pended (x : Wafer) : Wafer := { x with pendingResult := some (x.pendingResult.getD .aborted) }

/-- A wafer's record without its alignment word. -/
def Wafer.unshown (x : Wafer) : Wafer := x.shows Align.reset

theorem State.cutActive_facts (s : State) (why : EntryReason) : ∃ f, Cuts why s (s.cutActive why) f
    ∧ (∀ a e, s.revisit.active = some a → s.storeEntry a.slot a.index = some e → e.state = .active →
      f e = { e with state := .aborted, reason := why })
    ∧ (s.cutActive why).lots = s.lots ∧ (s.cutActive why).align = s.align ∧ (s.cutActive why).revisit.wafer = s.revisit.wafer := by
  cases ha : s.revisit.active with
  | none =>
    have same : s.cutActive why = s := by simp only [State.cutActive, ha]
    rw [same]
    refine ⟨id, .of rfl rfl, fun a e h => ?_, rfl, rfl, rfl⟩
    cases h
  | some a =>
    have bare := s.endActiveEntry_bare why
    have dropped : (s.cutActive why).rest = (s.endActiveEntry why).rest := by
      unfold State.cutActive
      rw [ha]
      dsimp only
      split
      · exact State.dropGrab_rest _ _
      all_goals rfl
    have revisit := State.rest_revisit dropped
    have touched : (s.cutActive why).scratch.touched = (s.endActiveEntry why).scratch.touched :=
      (congrArg (fun x : State => x.scratch.touched) dropped :)
    have frame : (s.cutActive why).lots = s.lots ∧ (s.cutActive why).align = s.align ∧ (s.cutActive why).revisit.wafer = s.revisit.wafer :=
      ⟨(State.rest_lots dropped).trans (State.bare_lots bare), (State.rest_align dropped).trans (congrArg State.align bare :),
        by rw [revisit]; exact State.bare_reviewed bare⟩
    cases he : s.activeEntry with
    | none =>
      have same : s.endActiveEntry why = s := by simp only [State.endActiveEntry, he]
      rw [same] at revisit touched
      refine ⟨id, .of (by rw [revisit]) touched, fun b e hb found active => ?_, frame⟩
      obtain rfl := Option.some.inj hb
      rw [State.activeEntry_of ha found active] at he
      cases he
    | some e =>
      have ended : s.endActiveEntry why = s.finishEntry e .aborted why := by simp only [State.endActiveEntry, he]
      rw [ended] at revisit touched
      have cut := Cuts.finishEntry s e why
      refine ⟨_, cut.trans (.of (by rw [revisit]) touched), fun b x hb found active => ?_, frame⟩
      obtain rfl := Option.some.inj hb
      rw [State.activeEntry_of ha found active] at he
      obtain rfl := Option.some.inj he
      exact if_pos (by simp [Entry.is])

/-- The entries of a review cut off. -/
theorem State.cutEntries_facts (s : State) (w : WaferName) (why : EntryReason) : ∃ f, Cuts why s ((s.cutActive why).endQueued w why) f
    ∧ (∀ a e, s.revisit.active = some a → s.storeEntry a.slot a.index = some e → e.state = .active →
      f e = { e with state := .aborted, reason := why })
    ∧ ((s.cutActive why).endQueued w why).queuedOf w = []
    ∧ ((s.cutActive why).endQueued w why).lots = s.lots ∧ ((s.cutActive why).endQueued w why).align = s.align
    ∧ ((s.cutActive why).endQueued w why).revisit.wafer = s.revisit.wafer := by
  obtain ⟨f, cut, active, lots, align, reviewed⟩ := s.cutActive_facts why
  obtain ⟨g, queued⟩ := Cuts.endQueued (s.cutActive why) w why
  have bare := (s.cutActive why).endQueued_bare w why
  refine ⟨g ∘ f, cut.trans queued, fun a e ha found live => ?_, State.endQueued_queuedOf _ _ _, (State.bare_lots bare).trans lots,
    (congrArg State.align bare :).trans align, (State.bare_reviewed bare).trans reviewed⟩
  simp only [Function.comp_apply, active a e ha found live]
  obtain same | ⟨again, -⟩ := queued.cuts { e with state := .aborted, reason := why }
  · exact same
  · exact again

theorem Wafer.unshown_shows (x : Wafer) (a : Align) : (x.shows a).unshown = x.unshown := rfl

theorem State.setAlign_unshown (s : State) (a : Align) (v : WaferName) :
    ((s.setAlign a).wafer v).map Wafer.unshown = (s.wafer v).map Wafer.unshown := by
  cases hw : a.wafer with
  | none =>
    have same : s.setAlign a = { s with align := a } := by simp only [State.setAlign, hw]
    rw [same]
    rfl
  | some w =>
    rw [State.setAlign_wafer s hw]
    split
    · rw [Option.map_map]
      rfl
    · rfl

/-- The alignment of a review cut off (R81). -/
theorem State.alignStop_facts (s : State) (al : AlignReason) :
    (s.align.state = .measuring → (s.alignStop al).align.state = .failed ∧ (s.alignStop al).align.reason = al)
    ∧ (s.alignStop al).align.state ≠ .measuring
    ∧ (∀ v, ((s.alignStop al).wafer v).map Wafer.unshown = (s.wafer v).map Wafer.unshown)
    ∧ (s.alignStop al).revisit = s.revisit ∧ (s.alignStop al).scratch.touched = s.scratch.touched ∧ (s.alignStop al).clock = s.clock := by
  by_cases measuring : s.align.state = .measuring
  · generalize hb : s.setAlign { s.align with state := .failed, reason := al, xyReq := none, zReq := none } = b
    have same : (s.alignStop al).rest = b.rest := by
      rw [← hb]
      unfold State.alignStop
      rw [if_pos measuring]
      dsimp only
      split <;> rfl
    have align : b.align = { s.align with state := .failed, reason := al, xyReq := none, zReq := none } := by rw [← hb, State.setAlign_align]
    have stopped := (State.rest_align same).trans align
    have touched : b.scratch.touched = s.scratch.touched ∧ b.clock = s.clock := by
      rw [← hb]
      unfold State.setAlign
      dsimp only
      split <;> exact ⟨rfl, rfl⟩
    refine ⟨fun _ => by rw [stopped]; exact ⟨rfl, rfl⟩, by rw [stopped]; nofun, fun v => ?_, ?_,
      (congrArg (fun x : State => x.scratch.touched) same :).trans touched.1, (congrArg State.clock same :).trans touched.2⟩
    · rw [State.wafer_congr (State.rest_lots same), ← hb, State.setAlign_unshown]
    · rw [State.rest_revisit same, ← hb, State.setAlign_revisit]
  · have same : s.alignStop al = s := if_neg measuring
    rw [same]
    exact ⟨fun h => absurd h measuring, measuring, fun _ => rfl, rfl, rfl, rfl⟩

/-- What a cut-off leaves of the review it ends, its wafer `w`. -/
structure ReviewCut (s t : State) (w : WaferName) (why : EntryReason) (al : AlignReason) : Prop where
  review : t.revisit.review = .ended
  active : t.revisit.active = none
  timer : t.revisit.timer = none
  af : t.af.state = .idle
  failed : s.align.state = .measuring → t.align.state = .failed ∧ t.align.reason = al
  unmeasured : t.align.state ≠ .measuring
  wafers : ∀ v, (t.wafer v).map Wafer.unshown
    = if v = w then (s.wafer v).map fun x => (x.pended.reviewEnded s.clock).unshown else (s.wafer v).map Wafer.unshown
  entries : ∃ f, Cuts why s t f ∧ ∀ a e, s.revisit.active = some a → s.storeEntry a.slot a.index = some e → e.state = .active →
    f e = { e with state := .aborted, reason := why }
  queued : t.queuedOf w = []

theorem ReviewCut.quiescent {s t : State} {w : WaferName} {why : EntryReason} {al : AlignReason} (h : ReviewCut s t w why al) : Quiescent t :=
  ⟨h.active, by rw [h.review]; nofun, h.unmeasured⟩

theorem State.withdrawFocus_idle (s : State) : s.withdrawFocus.af.state = .idle := by
  unfold State.withdrawFocus
  split
  · assumption
  · rfl

/-- The cut-off up to the wafer's own end of review. -/
def State.cutOff (s : State) (w : WaferName) (why : EntryReason) (al : AlignReason) : State :=
  (((((s.cutActive why).endQueued w why).alignStop al).withdrawFocus.endReview).pendAborted w)

theorem State.cutReview_eq {s : State} {w : WaferName} (hw : s.revisit.wafer = some w) (hp : s.revisit.review.inProgress = true)
    (why : EntryReason) (al : AlignReason) : s.cutReview why al
      = if (s.cutOff w why al).waferState w = some .onStage then ((s.cutOff w why al).toReviewEnded w).requestLoad .loadForReview
        else s.cutOff w why al := by
  unfold State.cutReview
  rw [hw]
  exact if_pos hp

theorem State.cutReview_not {s : State} (h : s.revisit.review.inProgress = false) (why : EntryReason) (al : AlignReason) :
    s.cutReview why al = s := by
  unfold State.cutReview
  split
  · rfl
  · exact if_neg (by rw [h]; nofun)

theorem State.cutOff_facts (s : State) (w : WaferName) (why : EntryReason) (al : AlignReason) :
    (s.cutOff w why al).revisit.review = .ended ∧ (s.cutOff w why al).revisit.active = none ∧ (s.cutOff w why al).revisit.timer = none
    ∧ (s.cutOff w why al).af.state = .idle ∧ (s.cutOff w why al).clock = s.clock
    ∧ (s.align.state = .measuring → (s.cutOff w why al).align.state = .failed ∧ (s.cutOff w why al).align.reason = al)
    ∧ (s.cutOff w why al).align.state ≠ .measuring
    ∧ (∀ v, ((s.cutOff w why al).wafer v).map Wafer.unshown
      = if v = w then (s.wafer v).map fun x => x.pended.unshown else (s.wafer v).map Wafer.unshown)
    ∧ (∃ f, Cuts why s (s.cutOff w why al) f ∧ ∀ a e, s.revisit.active = some a → s.storeEntry a.slot a.index = some e →
      e.state = .active → f e = { e with state := .aborted, reason := why })
    ∧ (s.cutOff w why al).queuedOf w = [] := by
  obtain ⟨f, cut, active, emptied, lots, align, -⟩ := s.cutEntries_facts w why
  have clock : ((s.cutActive why).endQueued w why).clock = s.clock := congrArg Kept.clock
    (quiet_endQueued (quiet_cutActive (.refl s) why) w why).kept
  unfold State.cutOff
  generalize (s.cutActive why).endQueued w why = b at *
  obtain ⟨failed, unmeasured, wafers, revisit, touched, clock'⟩ := b.alignStop_facts al
  have rest := (b.alignStop al).withdrawFocus_rest
  have idle := (b.alignStop al).withdrawFocus_idle
  generalize hc : (b.alignStop al).withdrawFocus = c at *
  have align' := State.rest_align rest
  have revisit' := (State.rest_revisit rest).trans revisit
  have touched' : c.scratch.touched = b.scratch.touched := (congrArg (fun x : State => x.scratch.touched) rest :).trans touched
  refine ⟨rfl, rfl, rfl, idle, (congrArg State.clock rest :).trans (clock'.trans clock), fun measuring => ?_, ?_, fun v => ?_,
    ⟨f, ?_, active⟩, ?_⟩
  · show c.align.state = .failed ∧ c.align.reason = al
    rw [align']
    exact failed (by rw [align]; exact measuring)
  · show c.align.state ≠ .measuring
    rw [align']
    exact unmeasured
  · have shown : (c.wafer v).map Wafer.unshown = (s.wafer v).map Wafer.unshown := by
      rw [State.wafer_congr (State.rest_lots rest), wafers, State.wafer_congr lots]
    show ((c.endReview.modWafer w Wafer.pended).wafer v).map Wafer.unshown = _
    rw [State.wafer_modWafer]
    show (if v = w then (c.wafer v).map Wafer.pended else c.wafer v).map Wafer.unshown = _
    split
    · have pend := congrArg (Option.map Wafer.pended) shown
      rw [Option.map_map, Option.map_map] at pend
      rw [Option.map_map]
      exact pend
    · exact shown
  · refine ⟨?_, cut.cuts.mono fun i hi => ?_, fun i hi => ?_⟩
    · exact (congrArg Revisit.store revisit').trans cut.store
    · exact (by rw [touched']; exact hi : i ∈ c.scratch.touched)
    · exact (by rw [touched']; exact cut.touched i hi : i ∈ c.scratch.touched)
  · exact (State.queuedOf_congr (s := b) (congrArg Revisit.store revisit') w).trans emptied

/-- The end of a review with no QUEUED entry left touches no unit's record. -/
theorem State.toReviewEnded_empty {s : State} {w : WaferName} (h : s.queuedOf w = []) : (s.toReviewEnded w).revisit = s.revisit
    ∧ (s.toReviewEnded w).scratch.touched = s.scratch.touched ∧ (s.toReviewEnded w).align = s.align ∧ (s.toReviewEnded w).af = s.af := by
  obtain same | ⟨x, same⟩ := s.toReviewEnded_cases w
  · rw [same]
    exact ⟨rfl, rfl, rfl, rfl⟩
  · rw [same, State.endQueued_none]
    · exact ⟨rfl, rfl, rfl, rfl⟩
    · exact (State.queuedOf_congr (s := s) rfl w).trans h

theorem State.cutReview_facts {s : State} {w : WaferName} (hw : s.revisit.wafer = some w) (hp : s.revisit.review.inProgress = true)
    (why : EntryReason) (al : AlignReason) : ReviewCut s (s.cutReview why al) w why al := by
  obtain ⟨review, active, timer, af, clock, failed, unmeasured, wafers, ⟨f, cut, live⟩, queued⟩ := s.cutOff_facts w why al
  rw [State.cutReview_eq hw hp]
  generalize s.cutOff w why al = c at *
  have ended (x : Wafer) : (x.reviewEnded s.clock).unshown = x.unshown.reviewEnded s.clock := by
    unfold Wafer.reviewEnded
    rw [show x.unshown.state = x.state from rfl]
    split <;> rfl
  have record (v : WaferName) : ((c.toReviewEnded w).wafer v).map Wafer.unshown
      = if v = w then (s.wafer v).map fun x => (x.pended.reviewEnded s.clock).unshown else (s.wafer v).map Wafer.unshown := by
    have wafer := wafers v
    rw [State.toReviewEnded_wafer, clock]
    split at wafer
    · rename_i hv
      rw [if_pos hv, if_pos hv]
      have := congrArg (Option.map (·.reviewEnded s.clock)) wafer
      rw [Option.map_map, Option.map_map] at this
      rw [Option.map_map]
      have left : Wafer.unshown ∘ (fun x : Wafer => x.reviewEnded s.clock) = (fun x : Wafer => x.reviewEnded s.clock) ∘ Wafer.unshown :=
        funext ended
      rw [left, this]
      exact congrArg (fun g => Option.map g (s.wafer v)) (funext fun x => (ended x.pended).symm)
    · rename_i hv
      rw [if_neg hv, if_neg hv]
      exact wafer
  split
  · have still := (c.toReviewEnded w).requestLoad_still .loadForReview
    obtain ⟨revisit, touched, align', af'⟩ := State.toReviewEnded_empty queued
    have revisit' : ((c.toReviewEnded w).requestLoad .loadForReview).revisit = c.revisit := (congrArg State.revisit still :).trans revisit
    have touched' : ((c.toReviewEnded w).requestLoad .loadForReview).scratch.touched = c.scratch.touched :=
      (congrArg (fun x : State => x.scratch.touched) still :).trans touched
    have align'' : ((c.toReviewEnded w).requestLoad .loadForReview).align = c.align := (congrArg State.align still :).trans align'
    have af'' : ((c.toReviewEnded w).requestLoad .loadForReview).af = c.af := (congrArg State.af still :).trans af'
    have lots : ((c.toReviewEnded w).requestLoad .loadForReview).lots = (c.toReviewEnded w).lots := (congrArg State.lots still :)
    exact ⟨by rw [revisit']; exact review, by rw [revisit']; exact active, by rw [revisit']; exact timer, by rw [af'']; exact af,
      by rw [align'']; exact failed, by rw [align'']; exact unmeasured, fun v => by rw [State.wafer_congr lots]; exact record v,
      ⟨f, cut.trans (.of (by rw [revisit']) touched'), live⟩, (State.queuedOf_congr (by rw [revisit']) w).trans queued⟩
  · rename_i off
    rw [State.toReviewEnded_of_not off] at record
    exact ⟨review, active, timer, af, failed, unmeasured, record, ⟨f, cut, live⟩, queued⟩

/-! ## A motion fault (R56, R57, R154) -/

theorem quiet_drainOthers {s0 : State} : ∀ (n : Nat) {s : State}, Quiet s0 s → Quiet s0 (State.drainOthers n s)
  | 0, _, h => h
  | n + 1, s, h => by
    unfold State.drainOthers
    split
    · exact h
    · exact quiet_drainOthers n (quiet_deliver (quiet_setMsgs h _) _)

theorem quiet_refuseFirst {s0 s : State} (h : Quiet s0 s) (ms : List Msg) : Quiet s0 (s.refuseFirst ms) :=
  quiet_drainOthers _ (foldl_quiet (fun _ _ m g => quiet_deliver g m) ms h)

theorem quiet_reportFault (s : State) : Quiet (s.raise .motionFault).halt s.reportFault := by
  unfold State.reportFault
  dsimp only
  split
  · exact quiet_cutReview (quiet_withdrawFocus (.refl _)) _ _
  · exact .refl _

theorem Told.drainOthers : ∀ (n : Nat) (s : State), Told s (State.drainOthers n s)
  | 0, s => .refl s
  | n + 1, s => by
    unfold State.drainOthers
    split
    · exact .refl s
    · rename_i m _
      have set : Told s (s.setMsgs (s.scratch.msgs.erase m)) := .of rfl rfl rfl
      exact (set.trans (.deliver _ m)).trans (Told.drainOthers n _)

theorem Told.refuseFirst (s : State) (ms : List Msg) : Told s (s.refuseFirst ms) := by
  have delivered (l : List Msg) : ∀ s : State, Told s (l.foldl State.deliver s) := by
    induction l with
    | nil => exact .refl
    | cons m l ih => exact fun s => (Told.deliver s m).trans (ih _)
  exact (delivered ms s).trans (.drainOthers _ _)

/-- The state in which a group has faulted and its waiting request is gone. -/
structure Faulted (s f : State) (g : MotionGroup) : Prop where
  fault : f.motion.stateOf g = .fault
  kept : f.kept = { s.kept with free := s.free + if (s.motion.group g).waiting.isSome then 1 else 0 }
  handling : f.handling = s.handling
  anchor : f.anchor = s.anchor
  out : f.out = s.out

/-- A motion fault: the group's fault, the refusal of its waiting request, and the report with its consequences. -/
theorem State.motionFault_steps (s : State) (g : MotionGroup) : ∃ f q, Faulted s f g ∧ Quiet f q ∧ q.handling = f.handling
    ∧ Quiet (q.raise .motionFault).halt (s.motionFault g) := by
  have fault : (s.faultGroup g).motion.stateOf g = .fault := by cases g <;> rfl
  have kept : (s.faultGroup g).kept = s.kept := by cases g <;> rfl
  cases hw : (s.motion.group g).waiting with
  | none =>
    have reported : s.motionFault g = (s.faultGroup g).reportFault := by
      unfold State.motionFault
      simp only [hw]
    rw [reported]
    exact ⟨_, _, ⟨fault, kept.trans (by rw [hw]; rfl), rfl, rfl, rfl⟩, .refl _, rfl, quiet_reportFault _⟩
  | some w =>
    generalize hb : (s.faultGroup g).setGroup g { (s.faultGroup g).motion.group g with waiting := none } = b
    have faulted : Faulted s { b with free := b.free + 1 } g := by
      rw [← hb]
      refine ⟨by cases g <;> rfl, ?_, rfl, rfl, rfl⟩
      rw [hw]
      cases g <;> rfl
    have reported : s.motionFault g = if Config.refusalFirst b.free then
        ({ b with free := b.free + 1 }.refuseFirst (refusals w.requesters g .notReady)).reportAfterRefusal
          ({ b with free := b.free + 1 }.focusWaits w.requesters)
        else ({ b with free := b.free + 1 }.reportFault).sayAll (refusals w.requesters g .notReady) := by
      unfold State.motionFault
      simp only [hw, hb]
    rw [reported]
    split
    · refine ⟨_, _, faulted, quiet_refuseFirst (.refl _) (refusals w.requesters g .notReady), (Told.refuseFirst _ _).handling, ?_⟩
      unfold State.reportAfterRefusal
      split
      · exact quiet_withdrawFocus (quiet_reportFault _)
      · exact quiet_reportFault _
    · exact ⟨_, _, faulted, .refl _, rfl, quiet_sayAll (quiet_reportFault _) _⟩

theorem State.halt_kept (s : State) : s.halt.kept = { s.kept with haltMark := s.halt.handling.haltMark } := by
  unfold State.halt
  split
  all_goals first
    | exact (s.enterHalted_kept).trans (by rw [State.enterHalted_handling])
    | rfl

theorem AxisStep.fault {a b : AxisState} (step : AxisStep a b) (h : a = .fault) : b = .fault :=
  step.elim (fun same => same.trans h) fun idle => by rw [h] at idle; cases idle.1

theorem Quiet.stateOf_fault {s t : State} (h : Quiet s t) {g : MotionGroup} (hg : s.motion.stateOf g = .fault) :
    t.motion.stateOf g = .fault := by
  cases g with
  | xy => exact h.motion.x.fault hg
  | z => exact h.motion.z.fault hg

/-- What a motion fault's step leaves, but for the review (R57). -/
theorem State.after_motionFault (s b : State) (g : MotionGroup) :
    (s.after (b.motionFault g)).motion.stateOf g = .fault
    ∧ (b.anchor.attach = .attached → (s.after (b.motionFault g)).notice.pending.getLsbD 5 = true)
    ∧ (b.handling.state ∈ [.idle, .busy, .hold] → (s.after (b.motionFault g)).handling.state = .halted)
    ∧ (b.handling.state ∈ [.idle, .busy, .hold] → b.anchor.attach = .attached →
      (s.after (b.motionFault g)).notice.pending.getLsbD 4 = true)
    ∧ b.out <+: (s.after (b.motionFault g)).out
    ∧ (b.motionFault g).kept = { b.kept with
        free := b.free + (if (b.motion.group g).waiting.isSome then 1 else 0)
        haltMark := (s.after (b.motionFault g)).handling.haltMark } := by
  obtain ⟨f, q, faulted, quiet, handling, reports⟩ := b.motionFault_steps g
  generalize b.motionFault g = u at *
  have raised := same_raise q .motionFault
  have halted := same_halt (q.raise .motionFault)
  obtain ⟨-, -, handled, noticed, news⟩ := (q.raise .motionFault).halt_facts
  have anchor : q.anchor = b.anchor := (congrArg Kept.anchor quiet.kept :).trans faulted.anchor
  have unit : (q.raise .motionFault).handling = b.handling := by
    have same : (q.raise .motionFault).handling = q.handling := by
      unfold State.raise
      split <;> rfl
    rw [same, handling, faulted.handling]
  have settled := quiet_settle (.refl u)
  refine ⟨?_, fun attached => ?_, fun going => ?_, fun going attached => ?_, ?_, ?_⟩
  · rw [State.after, State.finish_motion]
    refine (reports.trans settled).stateOf_fault ?_
    rw [halted.motion, raised.motion]
    exact quiet.stateOf_fault faulted.fault
  · refine s.after_noticed (reports.news.noticed 5 (news.noticed 5 ?_))
    exact State.raise_noticed (by rw [anchor]; exact attached) .motionFault
  · have stopped := handled (by rw [unit]; exact going)
    have same := reports.handling.stopped (by rw [stopped]; rfl)
    rw [s.after_stopped (by rw [same, stopped]; rfl), same, stopped]
  · exact s.after_noticed (reports.news.noticed 4 (noticed (by rw [unit]; exact going) (by rw [raised.anchor, anchor]; exact attached)))
  · rw [State.after, State.finish_out, ← faulted.out]
    have told : q.out = (q.raise .motionFault).out := by
      unfold State.raise
      split <;> rfl
    exact ((quiet.news.sent.trans (by rw [told])).trans news.sent).trans ((reports.trans settled).news.sent)
  · have mark : (s.after u).handling.haltMark = u.handling.haltMark := by
      rw [State.after, State.finish_handling]
      exact (congrArg Kept.haltMark u.settle_kept :)
    have raisedKept : (q.raise .motionFault).kept = q.kept := (quiet_raise (.refl q) .motionFault).kept
    have marked : u.handling.haltMark = (q.raise .motionFault).halt.handling.haltMark := (congrArg Kept.haltMark reports.kept :)
    rw [mark, marked, reports.kept, State.halt_kept, raisedKept, quiet.kept, faulted.kept]

/-- An ended entry is so when the step is over. -/
theorem State.after_ended (s : State) {u : State} (h : Quiescent u) {es : List Entry} {why : EntryReason} (all : ∀ e ∈ es, EndsHere u e why) :
    (s.after u).ended es why := by
  intro e he
  obtain ⟨x, hx, rest⟩ := ((Settled.settle h).ended e why (all e he)).record
  refine ⟨x, ?_, rest⟩
  rw [State.after, State.finish_revisit]
  exact hx

/-- A wafer's record at the end of a step that leaves the units at rest. -/
theorem State.after_settled (s : State) {u : State} (h : Quiescent u) :
    (s.after u).revisit.review = u.revisit.review ∧ (s.after u).revisit.active = u.revisit.active
    ∧ (s.after u).revisit.timer = u.revisit.timer ∧ (s.after u).align = u.align ∧ (u.af.state = .idle → (s.after u).af = u.af)
    ∧ ∀ v, (s.after u).wafer v = u.wafer v := by
  have settled := Settled.settle h
  simp only [State.after, State.finish_revisit, State.finish_align, State.finish_af, State.finish_wafer]
  exact ⟨settled.review, settled.active, settled.timer, settled.align, settled.af, settled.wafer⟩

/-- What a cut-off leaves of its wafer's record. -/
theorem ReviewCut.record {s t : State} {w : WaferName} {why : EntryReason} {al : AlignReason} (h : ReviewCut s t w why al) {x : Wafer}
    (hx : s.wafer w = some x) : ∃ y, t.wafer w = some y ∧ y.unshown = (x.pended.reviewEnded s.clock).unshown := by
  have record := h.wafers w
  rw [if_pos rfl, hx, Option.map_some] at record
  exact Option.map_eq_some_iff.1 record

theorem ReviewCut.other {s t : State} {w : WaferName} {why : EntryReason} {al : AlignReason} (h : ReviewCut s t w why al) {v : WaferName}
    (hv : v ≠ w) {x : Wafer} (hx : s.wafer v = some x) : ∃ y, t.wafer v = some y ∧ y.unshown = x.unshown := by
  have record := h.wafers v
  rw [if_neg hv, hx, Option.map_some] at record
  exact Option.map_eq_some_iff.1 record

theorem ReviewCut.endsActive {s t : State} {w : WaferName} {why : EntryReason} {al : AlignReason} (h : ReviewCut s t w why al)
    {a : ActiveRevisit} {e : Entry} (ha : s.revisit.active = some a) (he : s.storeEntry a.slot a.index = some e) (live : e.state = .active) :
    EndsHere t e why := by
  obtain ⟨f, cut, active⟩ := h.entries
  exact cut.endsHere (State.storeEntry_mem he) (active a e ha he live) (by rw [live]; nofun)

theorem ReviewCut.endsQueued {s t : State} {w : WaferName} {why : EntryReason} {al : AlignReason} (h : ReviewCut s t w why al)
    {e : Entry} (he : e ∈ s.queuedOf w) : EndsHere t e why := by
  obtain ⟨f, cut, -⟩ := h.entries
  obtain ⟨inStore, -, queued, -⟩ := State.mem_queuedOf.1 he
  exact cut.endsHere inStore (cut.queued_ended h.queued he) (by rw [queued]; nofun)

theorem Wafer.reviewEnded_state (x : Wafer) (clock : Word) :
    (x.reviewEnded clock).state = if x.state = .onStage then .reviewEnded else x.state := by
  unfold Wafer.reviewEnded
  split <;> rfl

theorem State.stateAt_congr {s t : State} (table : t.handling.table = s.handling.table) (lots : t.lots = s.lots) (l : Loc) :
    t.stateAt l = s.stateAt l := by
  rw [State.stateAt, State.stateAt, State.at_congr table]
  exact congrArg (fun f => (s.at l).name.bind f) (funext fun w => State.waferState_congr lots w)

/-- The state in which a motion fault with no waiting request cuts the review off (R153, R154). -/
def State.faultReported (s : State) (g : MotionGroup) : State := (((s.faultGroup g).raise .motionFault).halt).withdrawFocus

theorem State.motionFault_cuts {s : State} {g : MotionGroup} (none : (s.motion.group g).waiting = none)
    (staged : s.stateAt .st = some .onStage) : s.motionFault g = (s.faultReported g).cutReview .motionFault .motionFault := by
  have reported : s.motionFault g = (s.faultGroup g).reportFault := by
    unfold State.motionFault
    simp only [none]
  have table : ((s.faultGroup g).raise .motionFault).halt.handling.table = s.handling.table := by
    rw [State.halt_table]
    unfold State.raise
    split <;> rfl
  have lots : ((s.faultGroup g).raise .motionFault).halt.lots = s.lots :=
    (same_halt _).lots.trans ((same_raise _ _).lots)
  have there : ((s.faultGroup g).raise .motionFault).halt.stateAt .st = some .onStage := by
    rw [← staged]
    exact State.stateAt_congr table lots .st
  rw [reported]
  exact if_pos there

theorem State.faultReported_same (s : State) (g : MotionGroup) : (s.faultReported g).revisit = s.revisit
    ∧ (s.faultReported g).align = s.align ∧ (s.faultReported g).lots = s.lots ∧ (s.faultReported g).clock = s.clock := by
  have rest := (((s.faultGroup g).raise .motionFault).halt).withdrawFocus_rest
  have halted := ((s.faultGroup g).raise .motionFault).halt_unhalted
  obtain ⟨revisit, align, lots, clock⟩ : ((s.faultGroup g).raise .motionFault).revisit = s.revisit
      ∧ ((s.faultGroup g).raise .motionFault).align = s.align ∧ ((s.faultGroup g).raise .motionFault).lots = s.lots
      ∧ ((s.faultGroup g).raise .motionFault).clock = s.clock := by
    unfold State.raise
    split <;> exact ⟨rfl, rfl, rfl, rfl⟩
  exact ⟨((State.rest_revisit rest).trans (congrArg State.revisit halted :)).trans revisit,
    ((State.rest_align rest).trans (congrArg State.align halted :)).trans align,
    ((State.rest_lots rest).trans (congrArg State.lots halted :)).trans lots,
    ((congrArg State.clock rest :).trans (congrArg State.clock halted :)).trans clock⟩

theorem exec_motionFault {s : State} {g : MotionGroup} {o : MotionOrder} {code : MotionFaultCode} (h : s.Awaits g o) :
    exec (.motionLinkFault o.tag code) s = .next (s.after (s.begin.motionFault g)) := by
  have found : s.begin.motion.orderWith o.tag = some (g, o) := h.orderWith
  refine exec_after (by nofun) ?_
  show s.begin.motionFaultReply o.tag = _
  simp only [State.motionFaultReply, found]

theorem exec_motionTimeout {s : State} {g : MotionGroup} {o : MotionOrder} (ho : (s.motion.group g).order = some o)
    (due : o.timer.due s.clock = true) : exec (.motionOrderTimeout g) s = .next (s.after ((s.begin.sendStop g).motionFault g)) := by
  have ho : (s.begin.motion.group g).order = some o := ho
  refine exec_after (by nofun) ?_
  show s.begin.motionTimesOut g = _
  simp only [State.motionTimesOut, ho]
  exact State.whenDue_due s.begin due _

/-- The state in which a motion fault is taken: STOP is sent at a timeout (R56, R57). -/
structure FaultTaken (s b : State) : Prop where
  waiting : ∀ g, (b.motion.group g).waiting = (s.motion.group g).waiting
  revisit : b.revisit = s.revisit
  align : b.align = s.align
  lots : b.lots = s.lots
  clock : b.clock = s.clock
  handling : b.handling = s.handling
  anchor : b.anchor = s.anchor
  free : b.free = s.free
  kept : b.kept = ({ s with out := [] } : State).kept

theorem FaultTaken.begin (s : State) : FaultTaken s s.begin := ⟨fun _ => rfl, rfl, rfl, rfl, rfl, rfl, rfl, rfl, rfl⟩

theorem FaultTaken.sendStop (s : State) (g : MotionGroup) : FaultTaken s (s.begin.sendStop g) :=
  ⟨fun k => by cases k <;> rfl, rfl, rfl, rfl, rfl, rfl, rfl, rfl, rfl⟩

/-- The review that a motion fault ends (R153, R154). -/
theorem FaultTaken.ends {s b : State} (h : FaultTaken s b) {g : MotionGroup} (none : (s.motion.group g).waiting = none)
    (staged : s.stateAt .st = some .onStage) {w : WaferName} (hw : s.revisit.wafer = some w) (hp : s.revisit.review.inProgress = true) :
    (s.after (b.motionFault g)).revisit.review = .ended ∧ (s.after (b.motionFault g)).revisit.active = .none
    ∧ (s.waferState w = some .onStage → (s.after (b.motionFault g)).waferState w = some .reviewEnded)
    ∧ (∀ x, s.wafer w = some x → ∃ y, (s.after (b.motionFault g)).wafer w = some y ∧ y.pendingResult = some (x.pendingResult.getD .aborted))
    ∧ (s.align.state = .measuring → (s.after (b.motionFault g)).align.state = .failed ∧ (s.after (b.motionFault g)).align.reason = .motionFault)
    ∧ (s.after (b.motionFault g)).ended (s.queuedOf w) .motionFault
    ∧ ∀ a e, s.revisit.active = some a → s.storeEntry a.slot a.index = some e → e.state = .active →
      (s.after (b.motionFault g)).ended [e] .motionFault := by
  have there : b.stateAt .st = some .onStage := by
    rw [← staged]
    exact State.stateAt_congr (by rw [h.handling]) h.lots .st
  rw [State.motionFault_cuts ((h.waiting g).trans none) there]
  obtain ⟨revisit, align, lots, -⟩ := b.faultReported_same g
  generalize b.faultReported g = z at *
  have revisit := revisit.trans h.revisit
  have align := align.trans h.align
  have lots := lots.trans h.lots
  have cut := State.cutReview_facts (s := z) (by rw [revisit]; exact hw) (by rw [revisit]; exact hp) .motionFault .motionFault
  generalize z.cutReview .motionFault .motionFault = u at *
  obtain ⟨review, active, -, alignment, -, wafers⟩ := s.after_settled cut.quiescent
  have record {x : Wafer} (hx : s.wafer w = some x) := cut.record ((State.wafer_congr lots w).trans hx)
  refine ⟨review.trans cut.review, active.trans cut.active, fun onStage => ?_, fun x hx => ?_, fun measuring => ?_,
    s.after_ended cut.quiescent fun e he => cut.endsQueued (by rw [State.queuedOf_congr (congrArg Revisit.store revisit)]; exact he),
    fun a e ha he live => s.after_ended cut.quiescent fun e' he' => ?_⟩
  · obtain ⟨x, hx, hs⟩ := Option.map_eq_some_iff.1 onStage
    obtain ⟨y, hy, same⟩ := record hx
    have state : y.state = (x.pended.reviewEnded z.clock).state := (congrArg Wafer.state same :)
    rw [State.waferState, wafers, hy, Option.map_some, state, Wafer.reviewEnded_state]
    exact congrArg some (if_pos hs)
  · obtain ⟨y, hy, same⟩ := record hx
    refine ⟨y, (wafers w).trans hy, ?_⟩
    exact (congrArg Wafer.pendingResult same :).trans (x.pended.reviewEnded_same z.clock).1
  · rw [alignment]
    exact cut.failed (by rw [align]; exact measuring)
  · rw [List.mem_singleton.1 he']
    exact cut.endsActive (by rw [revisit]; exact ha) (by rw [State.storeEntry, revisit]; exact he) live

/-- Settles O51: by the fault's steps, and by the cut-off when no request waits. -/
theorem motionFaultsStopTheGroup : Obligations.MotionFaultsStopTheGroup := by
  intro s g o c
  refine ⟨fun h => ?_, fun ho early => ?_⟩
  · obtain ⟨b, taken, ran, stops⟩ : ∃ b, FaultTaken s b ∧ exec c s = .next (s.after (b.motionFault g))
        ∧ (c = .motionOrderTimeout g → .stop s.motion.tag g ∈ b.out) := by
      obtain ⟨⟨code, rfl⟩, awaits⟩ | ⟨rfl, ho, due⟩ := h
      · exact ⟨_, .begin s, exec_motionFault awaits, nofun⟩
      · exact ⟨_, .sendStop s g, exec_motionTimeout ho due, fun _ => List.mem_append_right _ (List.mem_singleton.2 rfl)⟩
    obtain ⟨fault, noticed, halted, haltNoticed, sent, kept⟩ := s.after_motionFault b g
    rw [taken.anchor] at noticed haltNoticed
    rw [taken.handling] at halted haltNoticed
    refine ⟨_, ran, fault, noticed, halted, haltNoticed, fun none staged w hw hp => taken.ends none staged hw hp,
      fun timeout => sent.subset (stops timeout), s.after_content_kept ?_⟩
    rw [kept, taken.kept, taken.free, taken.waiting]
    rfl
  · have ho : (s.begin.motion.group g).order = some o := ho
    refine exec_nothing (by nofun) ?_
    show s.begin.motionTimesOut g = s.begin
    simp only [State.motionTimesOut, ho]
    exact State.whenDue_not s.begin early _

end Sys2Proof.Machine
end

section
/-! SUPPORT. What messages and a step's consequences do to entries, wafers and rows. -/

namespace Sys2Proof.Machine

/-! ## What the review's work does to entries -/

/-- An entry's words that no work of the review changes. -/
structure EntryCore where
  slot : Slot
  index : Nat
  host : List (Option Word)
  wx : Int
  wy : Int
  sequence : Nat
  ignored : Nat
  rowClosed : Bool
  bin : Option Nat

def Entry.core (e : Entry) : EntryCore := ⟨e.slot, e.index, e.host, e.wx, e.wy, e.sequence, e.ignored, e.rowClosed, e.bin⟩

/-- QUEUED or ACTIVE: what the review works on. -/
def Entry.isOpen (e : Entry) : Prop := e.state = .queued ∨ e.state = .active

/-- A record as the review's work leaves it: only a QUEUED or ACTIVE one changes, and it stays admitted (R118, R131). -/
structure EntryWork (x y : Entry) : Prop where
  core : y.core = x.core
  admitted : y.state.isAdmitted = x.state.isAdmitted
  done : ¬ x.isOpen → y = x
  queued : y.state = .queued → x.state = .queued

theorem EntryWork.refl (x : Entry) : EntryWork x x := ⟨rfl, rfl, fun _ => rfl, id⟩

theorem EntryWork.trans {x y z : Entry} (h : EntryWork x y) (g : EntryWork y z) : EntryWork x z := by
  refine ⟨g.core.trans h.core, g.admitted.trans h.admitted, fun off => ?_, fun hz => h.queued (g.queued hz)⟩
  obtain rfl := h.done off
  exact g.done off

theorem EntryWork.id {x y : Entry} (h : EntryWork x y) : y.id = x.id := by
  have slot : y.slot = x.slot := (congrArg EntryCore.slot h.core :)
  have index : y.index = x.index := (congrArg EntryCore.index h.core :)
  rw [Entry.id, Entry.id, slot, index]

theorem EntryWork.wafer {x y : Entry} (h : EntryWork x y) : y.wafer = x.wafer := by
  have slot : y.slot = x.slot := (congrArg EntryCore.slot h.core :)
  have host : y.host = x.host := (congrArg EntryCore.host h.core :)
  simp only [Entry.wafer, Entry.waferSlot, Entry.hostWord, slot, host]

/-- An open record changed in words of its own, its state kept or ended. -/
theorem EntryWork.of {x y : Entry} (hx : x.isOpen) (core : y.core = x.core) (admitted : y.state.isAdmitted = true)
    (queued : y.state = .queued → x.state = .queued) : EntryWork x y :=
  ⟨core, by rw [admitted]; obtain h | h := hx <;> rw [h] <;> rfl, fun off => absurd hx off, queued⟩

/-- No entry has two records (R122, R129). -/
def State.Once (s : State) : Prop := ((s.revisit.posting ++ s.revisit.store).map Entry.id).Nodup

theorem Entry.is_iff {e : Entry} {k : Slot} {i : Nat} : e.is k i = true ↔ e.id = .defectEntry k i := by
  simp [Entry.is, Entry.id]

theorem State.Once.unique {s : State} (h : s.Once) {x y : Entry} (hx : x ∈ s.revisit.store) (hy : y ∈ s.revisit.store)
    (same : x.id = y.id) : x = y := by
  rw [State.Once, List.map_append, List.nodup_append] at h
  exact List.inj_on_of_nodup_map h.2.1 hx hy same

theorem State.Once.apart {s : State} (h : s.Once) {x y : Entry} (hx : x ∈ s.revisit.posting) (hy : y ∈ s.revisit.store) : x.id ≠ y.id := by
  rw [State.Once, List.map_append, List.nodup_append] at h
  exact h.2.2 _ (List.mem_map_of_mem hx) _ (List.mem_map_of_mem hy)

/-- A change of the entries' records: of those in the store alone, and while no entry has two records as the review's work changes them. -/
structure Edits (s t : State) (g : Entry → Entry) : Prop where
  id : ∀ x, (g x).id = x.id
  posting : t.revisit.posting = s.revisit.posting.map g
  store : t.revisit.store = s.revisit.store.map g
  others : ∀ x, (∀ y ∈ s.revisit.store, y.id ≠ x.id) → g x = x
  work : s.Once → ∀ x ∈ s.revisit.store, EntryWork x (g x)

theorem Edits.ids {s t : State} {g : Entry → Entry} (h : Edits s t g) : t.revisit.store.map Entry.id = s.revisit.store.map Entry.id := by
  rw [h.store, List.map_map]
  exact List.map_congr_left fun x _ => h.id x

theorem Edits.listed {s t : State} {g : Entry → Entry} (h : Edits s t g) (once : s.Once) : t.revisit.posting = s.revisit.posting := by
  rw [h.posting]
  have same : ∀ x ∈ s.revisit.posting, g x = x := fun x hx => h.others x fun y hy => (once.apart hx hy).symm
  exact (List.map_congr_left same).trans (List.map_id' _)

theorem Edits.once {s t : State} {g : Entry → Entry} (h : Edits s t g) (once : s.Once) : t.Once := by
  have listed := h.listed once
  unfold State.Once at once ⊢
  rw [List.map_append] at once ⊢
  rw [listed, h.ids]
  exact once

theorem Edits.trans {s t u : State} {f g : Entry → Entry} (h : Edits s t f) (k : Edits t u g) : Edits s u (g ∘ f) := by
  refine ⟨fun x => (k.id _).trans (h.id x), by rw [k.posting, h.posting, List.map_map], by rw [k.store, h.store, List.map_map],
    fun x off => ?_, fun once x hx => (h.work once x hx).trans (k.work (h.once once) _ ?_)⟩
  · have same := h.others x off
    rw [Function.comp_apply, same]
    refine k.others x fun y hy there => ?_
    rw [h.store] at hy
    obtain ⟨z, hz, rfl⟩ := List.mem_map.1 hy
    exact off z hz ((h.id z).symm.trans there)
  · rw [h.store]
    exact List.mem_map_of_mem hx

theorem Edits.of {s t : State} (posting : t.revisit.posting = s.revisit.posting) (store : t.revisit.store = s.revisit.store) : Edits s t (fun x => x) :=
  ⟨fun _ => rfl, by rw [posting, List.map_id'], by rw [store, List.map_id'], fun _ _ => rfl, fun _ x _ => .refl x⟩

/-- What the review's work on its wafer does: to the entries' records, to the wafer entries, and to the reports. -/
structure Work (s t : State) : Prop where
  edits : ∃ g, Edits s t g
  touched : ∀ i ∈ s.scratch.touched, i ∈ t.scratch.touched
  reviewed : t.revisit.wafer = s.revisit.wafer
  aligned : t.align.wafer = s.align.wafer
  wafers : ∀ v, s.revisit.wafer ≠ some v → s.align.wafer ≠ some v → t.wafer v = s.wafer v
  reports : ∀ k, (t.report k).state = (s.report k).state
  rows : ∀ k, (t.report k).rows.map (·.state) = (s.report k).rows.map (·.state)

theorem Work.trans {s t u : State} (h : Work s t) (w : Work t u) : Work s u := by
  obtain ⟨f, hf⟩ := h.edits
  obtain ⟨g, hg⟩ := w.edits
  exact ⟨⟨_, hf.trans hg⟩, fun i hi => w.touched i (h.touched i hi), w.reviewed.trans h.reviewed, w.aligned.trans h.aligned,
    fun v a b => (w.wafers v (by rw [h.reviewed]; exact a) (by rw [h.aligned]; exact b)).trans (h.wafers v a b),
    fun k => (w.reports k).trans (h.reports k), fun k => (w.rows k).trans (h.rows k)⟩

theorem Work.once {s t : State} (h : Work s t) (once : s.Once) : t.Once := by
  obtain ⟨g, edits⟩ := h.edits
  exact edits.once once

theorem Work.posting {s t : State} (h : Work s t) (once : s.Once) : t.revisit.posting = s.revisit.posting := by
  obtain ⟨g, edits⟩ := h.edits
  exact edits.listed once

theorem Work.store {s t : State} (h : Work s t) (once : s.Once) :
    ∃ g : Entry → Entry, t.revisit.store = s.revisit.store.map g ∧ ∀ x ∈ s.revisit.store, EntryWork x (g x) := by
  obtain ⟨g, edits⟩ := h.edits
  exact ⟨g, edits.store, edits.work once⟩

theorem Work.of {s t : State} (revisit : t.revisit.posting = s.revisit.posting ∧ t.revisit.store = s.revisit.store
      ∧ t.revisit.wafer = s.revisit.wafer) (touched : t.scratch.touched = s.scratch.touched) (aligned : t.align.wafer = s.align.wafer)
    (wafers : t.lots = s.lots) (reports : t.reports = s.reports) : Work s t := by
  obtain ⟨posting, store, reviewed⟩ := revisit
  exact ⟨⟨_, .of posting store⟩, fun i hi => by rw [touched]; exact hi, reviewed, aligned,
    fun v _ _ => State.wafer_congr wafers v, fun k => by rw [State.report, reports]; rfl, fun k => by rw [State.report, reports]; rfl⟩

theorem Work.refl (s : State) : Work s s := .of ⟨rfl, rfl, rfl⟩ rfl rfl rfl rfl

theorem Work.rest {s t : State} (h : t.rest = s.rest) : Work s t := by
  have revisit := State.rest_revisit h
  exact .of (by rw [revisit]; exact ⟨rfl, rfl, rfl⟩) (congrArg (fun x : State => x.scratch.touched) h :) (by rw [State.rest_align h])
    (State.rest_lots h) (State.rest_reports h)

theorem Work.modWafer {s : State} {w : WaferName} (here : s.revisit.wafer = some w ∨ s.align.wafer = some w) (f : Wafer → Wafer) :
    Work s (s.modWafer w f) := by
  refine ⟨⟨_, .of rfl rfl⟩, fun _ hi => hi, rfl, rfl, fun v a b => ?_, fun _ => rfl, fun _ => rfl⟩
  rw [State.wafer_modWafer]
  refine if_neg fun same => ?_
  subst same
  exact here.elim a b

theorem Work.enter (s : State) (w : WaferName) {f : Row → Row} (hf : ∀ r, (f r).state = r.state) : Work s (s.enter w f) := by
  refine ⟨⟨_, .of rfl rfl⟩, fun _ hi => hi, rfl, rfl, fun _ _ _ => rfl, fun k => ?_, fun k => ?_⟩
  · obtain ⟨j, n⟩ := w
    cases j <;> cases k <;> rfl
  · have same (l : List Row) (n : Nat) : (modAt l n fun r => if r.state = .opened then f r else r).map (·.state) = l.map (·.state) :=
      map_modAt l n fun r => by
        split
        · exact hf r
        · rfl
    obtain ⟨j, n⟩ := w
    cases j <;> cases k <;> first | rfl | exact same _ _

theorem Work.raise (s : State) (k : NoticeKind) : Work s (s.raise k) := by
  unfold State.raise
  split <;> exact .of ⟨rfl, rfl, rfl⟩ rfl rfl rfl rfl

theorem Work.setAlign {s : State} {a : Align} (h : a.wafer = s.align.wafer) : Work s (s.setAlign a) := by
  have set : Work s { s with align := a } := .of ⟨rfl, rfl, rfl⟩ rfl h rfl rfl
  unfold State.setAlign
  dsimp only
  split
  · rename_i w hw
    exact set.trans (.modWafer (.inr hw) _)
  · exact set

/-! ## Changes of open records -/

/-- The entry has a QUEUED or ACTIVE record in the store. -/
def State.Opens (s : State) (k : Slot) (i : Nat) : Prop := ∃ x ∈ s.revisit.store, x.is k i = true ∧ x.isOpen

/-- The entry has a record in the store, QUEUED or ACTIVE while no entry has two. -/
structure State.Works (s : State) (k : Slot) (i : Nat) : Prop where
  names : ∃ x ∈ s.revisit.store, x.is k i = true
  opens : s.Once → s.Opens k i

theorem State.Opens.works {s : State} {k : Slot} {i : Nat} (h : s.Opens k i) : s.Works k i := by
  obtain ⟨x, hx, is, opened⟩ := h
  exact ⟨⟨x, hx, is⟩, fun _ => ⟨x, hx, is, opened⟩⟩

theorem Work.modEntry {s : State} {k : Slot} {i : Nat} (h : s.Works k i) {f : Entry → Entry}
    (hf : ∀ x, x.isOpen → EntryWork x (f x)) (id : ∀ x, (f x).id = x.id := by exact fun _ => rfl) : Work s (s.modEntry k i f) := by
  refine ⟨⟨fun x => if x.is k i then f x else x, fun x => ?_, rfl, rfl, fun x off => if_neg fun there => ?_, fun once x hx => ?_⟩,
    fun j hj => List.mem_cons_of_mem _ hj, rfl, rfl, fun _ _ _ => rfl, fun _ => rfl, fun _ => rfl⟩
  · show (if x.is k i then f x else x).id = x.id
    split
    · exact id x
    · rfl
  · obtain ⟨y, hy, is⟩ := h.names
    exact off y hy ((Entry.is_iff.1 is).trans (Entry.is_iff.1 there).symm)
  · obtain ⟨e, he, is, opened⟩ := h.opens once
    split
    · rename_i there
      have same := once.unique hx he ((Entry.is_iff.1 there).trans (Entry.is_iff.1 is).symm)
      subst same
      exact hf x opened
    · exact .refl x

theorem State.Opens.modEntry {s : State} {k : Slot} {i : Nat} (h : s.Opens k i) {f : Entry → Entry}
    (hf : ∀ x, x.isOpen → EntryWork x (f x) ∧ (f x).isOpen) : (s.modEntry k i f).Opens k i := by
  obtain ⟨e, he, is, opened⟩ := h
  obtain ⟨work, stays⟩ := hf e opened
  have changed : (if e.is k i then f e else e) = f e := if_pos is
  exact ⟨f e, List.mem_map.2 ⟨e, he, changed⟩, Entry.is_iff.2 (work.id.trans (Entry.is_iff.1 is)), stays⟩

theorem State.activeEntry_opens {s : State} {e : Entry} (h : s.activeEntry = some e) : s.Opens e.slot e.index ∧ e.state = .active := by
  obtain ⟨found, active⟩ := Option.filter_eq_some_iff.1 h
  have active : e.state = .active := by simpa using active
  obtain ⟨a, -, he⟩ := Option.bind_eq_some_iff.1 found
  exact ⟨⟨e, List.mem_of_find?_eq_some he, by simp [Entry.is], .inr active⟩, active⟩

theorem Work.finishEntry {s : State} {e : Entry} (h : s.Works e.slot e.index) {st : EntryState} (why : EntryReason)
    (admitted : st.isAdmitted = true) (off : st ≠ .queued) : Work s (s.finishEntry e st why) := by
  have modified : Work s (s.modEntry e.slot e.index fun x => { x with state := st, reason := why }) :=
    .modEntry h fun x hx => .of hx rfl admitted fun queued => absurd queued off
  unfold State.finishEntry
  dsimp only
  split
  · exact modified.trans (.enter _ _ fun _ => rfl)
  · exact modified

theorem State.Opens.finishEntry {s : State} {k : Slot} {i : Nat} (h : s.Opens k i) {e : Entry} (other : e.id ≠ .defectEntry k i)
    (st : EntryState) (why : EntryReason) : (s.finishEntry e st why).Opens k i := by
  obtain ⟨x, hx, is, opened⟩ := h
  refine ⟨x, ?_, is, opened⟩
  rw [State.finishEntry_store]
  refine List.mem_map.2 ⟨x, hx, if_neg fun there => other ?_⟩
  exact (Entry.is_iff.1 there).symm.trans (Entry.is_iff.1 is)

theorem Work.names {s t : State} (h : Work s t) {k : Slot} {i : Nat} (names : ∃ x ∈ s.revisit.store, x.is k i = true) :
    ∃ x ∈ t.revisit.store, x.is k i = true := by
  obtain ⟨g, edits⟩ := h.edits
  obtain ⟨x, hx, is⟩ := names
  refine ⟨g x, ?_, Entry.is_iff.2 ((edits.id x).trans (Entry.is_iff.1 is))⟩
  rw [edits.store]
  exact List.mem_map_of_mem hx

theorem Edits.before {s t : State} {g : Entry → Entry} (h : Edits s t g) (once : t.Once) : s.Once := by
  have posting : t.revisit.posting.map Entry.id = s.revisit.posting.map Entry.id := by
    rw [h.posting, List.map_map]
    exact List.map_congr_left fun x _ => h.id x
  unfold State.Once at once ⊢
  rw [List.map_append] at once ⊢
  rw [← posting, ← h.ids]
  exact once

theorem Work.finishEntries {st : EntryState} (why : EntryReason) (admitted : st.isAdmitted = true) (off : st ≠ .queued) (l : List Entry) :
    ∀ {s : State}, (∀ e ∈ l, ∃ x ∈ s.revisit.store, x.is e.slot e.index = true) →
      (s.Once → (l.map Entry.id).Nodup ∧ ∀ e ∈ l, s.Opens e.slot e.index) → Work s (l.foldl (fun s e => s.finishEntry e st why) s) := by
  induction l with
  | nil => exact fun _ _ => .refl _
  | cons e l ih =>
    intro s names opens
    have first : Work s (s.finishEntry e st why) :=
      .finishEntry ⟨names e List.mem_cons_self, fun once => (opens once).2 e List.mem_cons_self⟩ why admitted off
    refine first.trans (ih (fun x hx => first.names (names x (List.mem_cons_of_mem _ hx))) fun once => ?_)
    obtain ⟨g, edits⟩ := first.edits
    obtain ⟨nodup, all⟩ := opens (edits.before once)
    obtain ⟨fresh, nodup⟩ := List.nodup_cons.1 nodup
    exact ⟨nodup, fun x hx => (all x (List.mem_cons_of_mem _ hx)).finishEntry
      (fun same => fresh (List.mem_map.2 ⟨x, hx, same.symm⟩)) _ _⟩

theorem State.queuedOf_ids {s : State} (once : s.Once) (w : WaferName) : ((s.queuedOf w).map Entry.id).Nodup := by
  rw [State.Once, List.map_append, List.nodup_append] at once
  rw [((s.queuedOf_perm w).map Entry.id).nodup_iff]
  exact List.Nodup.sublist (List.filter_sublist.map _) once.2.1

theorem State.queuedOf_opens {s : State} {w : WaferName} {e : Entry} (h : e ∈ s.queuedOf w) : s.Opens e.slot e.index := by
  obtain ⟨inStore, -, queued, -⟩ := State.mem_queuedOf.1 h
  exact ⟨e, inStore, by simp [Entry.is], .inl queued⟩

theorem Work.endQueued (s : State) (w : WaferName) (why : EntryReason) : Work s (s.endQueued w why) :=
  .finishEntries (st := .aborted) why rfl nofun _ (fun _ h => (State.queuedOf_opens h).works.names)
    fun once => ⟨State.queuedOf_ids once w, fun _ h => State.queuedOf_opens h⟩

/-! ## Ends of reviews -/

/-- The wafer is the one under review or the one aligned. -/
def State.Stages (s : State) (w : WaferName) : Prop := s.revisit.wafer = some w ∨ s.align.wafer = some w

theorem Work.stages {s t : State} (h : Work s t) {w : WaferName} (here : s.Stages w) : t.Stages w := by
  unfold State.Stages
  rw [h.reviewed, h.aligned]
  exact here

theorem Work.toReviewEnded {s : State} {w : WaferName} (here : s.Stages w) : Work s (s.toReviewEnded w) := by
  obtain same | ⟨x, same⟩ := s.toReviewEnded_cases w
  · rw [same]
    exact .refl s
  · rw [same]
    have left : Work s (s.modWafer w fun x => { x with state := .reviewEnded, endClock := s.clock }) := .modWafer here _
    have timed : Work (s.modWafer w fun x => { x with state := .reviewEnded, endClock := s.clock })
        ((s.modWafer w fun x => { x with state := .reviewEnded, endClock := s.clock }).handDuration w (s.clock - x.startClock)) :=
      .enter _ w fun _ => by exact rfl
    have shown := (left.trans timed).trans (u := ((s.modWafer w fun x => { x with state := .reviewEnded, endClock := s.clock }).handDuration w
        (s.clock - x.startClock)).handMapFigures w) (.enter _ w fun _ => by exact rfl)
    exact shown.trans (.endQueued _ w _)

theorem Work.endReview (s : State) : Work s s.endReview := .of ⟨rfl, rfl, rfl⟩ rfl rfl rfl rfl

theorem Work.setActive (s : State) (a : Option ActiveRevisit) : Work s (s.setActive a) := .of ⟨rfl, rfl, rfl⟩ rfl rfl rfl rfl

theorem Work.alignEnds {s : State} {w : WaferName} (here : s.Stages w) (why : AlignReason) : Work s (s.alignEnds w why) := by
  have begun : Work s (s.setAlign { s.align with state := .failed, reason := why, xyReq := none, zReq := none }) := .setAlign rfl
  have marked := begun.trans (.modWafer (begun.stages here) fun x => { x with pendingResult := some .alignFailed })
  have failed := marked.trans (.endQueued _ w .alignFail)
  unfold State.alignEnds
  dsimp only
  split
  · exact failed.trans (.endReview _)
  · exact failed

theorem Work.alignFail (s : State) (why : AlignReason) : Work s (s.alignFail why) := by
  cases hw : s.align.wafer with
  | none =>
    have same : s.alignFail why = s := by simp only [State.alignFail, hw]
    rw [same]
    exact .refl s
  | some w =>
    rw [State.alignFail_eq hw]
    have ended := Work.alignEnds (.inr hw) why
    have left := ended.trans (.toReviewEnded (ended.stages (.inr hw)))
    exact (left.trans (.raise _ _)).trans (.rest (State.requestLoad_rest _ _))

theorem Work.normalEnd {s : State} {w : WaferName} (here : s.revisit.wafer = some w) : Work s (s.normalEnd w) := by
  refine Work.trans ?_ (.rest (s.normalEnd_rest w))
  have ended : Work s (s.endReview.modWafer w fun x => { x with pendingResult := some .reviewed }) :=
    (Work.endReview s).trans (.modWafer (s := s.endReview) (.inl here) _)
  exact (ended.trans (.toReviewEnded (ended.stages (.inl here)))).trans (.enter _ w fun _ => rfl)

/-! ## Revisits -/

theorem Work.endActive {s : State} {e : Entry} (h : s.Opens e.slot e.index) {st : EntryState} (why : EntryReason)
    (admitted : st.isAdmitted = true) (off : st ≠ .queued) : Work s (s.endActive e st why) := by
  refine (Work.finishEntry h.works why admitted off).trans ?_
  exact .of ⟨rfl, rfl, rfl⟩ rfl rfl rfl rfl

theorem Work.beginMove (s : State) (a : ActiveRevisit) (z : Int) : Work s (s.beginMove a z) := by
  refine Work.trans ?_ (.rest (State.beginMove_rest s a z))
  exact .setActive s _

theorem Work.beginTarget {s : State} {e : Entry} (h : s.Opens e.slot e.index) : Work s (s.beginTarget e) := by
  have placed (x y : Int) : (s.modEntry e.slot e.index fun r => { r with stageX := x, stageY := y }).Opens e.slot e.index
      ∧ Work s (s.modEntry e.slot e.index fun r => { r with stageX := x, stageY := y }) :=
    ⟨h.modEntry fun r hr => ⟨⟨rfl, rfl, fun off => absurd hr off, id⟩, hr⟩, .modEntry h.works fun r hr => ⟨rfl, rfl, fun off => absurd hr off, id⟩⟩
  unfold State.beginTarget
  dsimp only
  obtain ⟨opens, work⟩ := placed (s.align.convert (s.recipe e.slot) ⟨e.wx, e.wy⟩).x (s.align.convert (s.recipe e.slot) ⟨e.wx, e.wy⟩).y
  split
  · exact work.trans (.beginMove _ _ _)
  · exact work.trans (.endActive opens _ rfl nofun)

theorem Work.takeEntry {s : State} {e : Entry} (h : s.Opens e.slot e.index) : Work s (s.takeEntry e) := by
  have takes (x : Entry) (hx : x.isOpen) : EntryWork x { x with state := .active, reason := .none, attempts := 0 } := .of hx rfl rfl nofun
  have opens := h.modEntry (f := fun x => { x with state := .active, reason := .none, attempts := 0 }) fun x hx => ⟨takes x hx, .inr rfl⟩
  have work := Work.modEntry h.works takes
  unfold State.takeEntry
  dsimp only
  generalize hb : s.modEntry e.slot e.index (fun x => { x with state := .active, reason := .none, attempts := 0 }) = b at opens work
  have set : Work b (b.setRevisit { b.revisit with
      review := .revisiting, timer := none
      active := some ⟨e.slot, e.index, .target, ⟨0, 0⟩, 0, none, none, none⟩ }) := .of ⟨rfl, rfl, rfl⟩ rfl rfl rfl rfl
  exact (work.trans set).trans (.beginTarget opens)

theorem Work.waitForPosts (s : State) (w : WaferName) : Work s (s.waitForPosts w) := by
  refine Work.trans ?_ (.raise _ _)
  exact .of ⟨rfl, rfl, rfl⟩ rfl rfl rfl rfl

theorem Work.look {s : State} {w : WaferName} (here : s.revisit.wafer = some w) : Work s (s.look w) := by
  unfold State.look
  split
  · rename_i e _ queue
    exact .takeEntry (State.queuedOf_opens (w := w) (by rw [queue]; exact List.mem_cons_self))
  · repeat' split
    · exact .normalEnd here
    · exact .waitForPosts s w
    · exact .refl s

theorem Work.failedAttempt {s : State} (a : ActiveRevisit) {e : Entry} (h : s.Opens e.slot e.index) (why : LastFailure) :
    Work s (s.failedAttempt a e why) := by
  have counts (x : Entry) (hx : x.isOpen) : EntryWork x { x with attempts := e.attempts + 1 } := ⟨rfl, rfl, fun off => absurd hx off, id⟩
  have opens := h.modEntry fun x hx => ⟨counts x hx, hx⟩
  have work := Work.modEntry h.works counts
  unfold State.failedAttempt
  dsimp only
  split
  · exact work.trans (.beginMove _ _ _)
  · refine work.trans (.endActive opens _ ?_ ?_) <;> cases why <;> first | rfl | nofun

/-! ## Messages -/

theorem Work.alignSettled (s : State) (n : Nat) : Work s (s.alignSettled n) := by
  unfold State.alignSettled
  dsimp only
  repeat' split
  · exact .refl s
  · refine Work.trans ?_ (.rest (State.requestFocus_rest _ _))
    exact .setAlign rfl
  · exact .setAlign rfl
  · exact .refl s

theorem Work.revisitSettled (s : State) (n : Nat) : Work s (s.revisitSettled n) := by
  unfold State.revisitSettled State.beginFocus
  dsimp only
  repeat' split
  · refine Work.trans ?_ (.rest (State.requestFocus_rest _ _))
    exact .setActive s _
  · exact .setActive s _
  · exact .refl s
  · exact .refl s

theorem Work.alignFocus (s : State) (o : FocusOutcome) : Work s (s.alignFocus o) := by
  unfold State.alignFocus
  repeat' split
  · refine Work.trans ?_ (.rest (State.askGrab_rest _ _))
    exact .setAlign rfl
  · exact .alignFail s _
  · exact .refl s

theorem Work.revisitFocus (s : State) (o : FocusOutcome) : Work s (s.revisitFocus o) := by
  unfold State.revisitFocus
  split
  · rename_i a e _ he
    obtain ⟨opens, -⟩ := State.activeEntry_opens he
    repeat' split
    · refine Work.trans ?_ (.rest (State.askGrab_rest _ _))
      refine Work.trans (Work.modEntry opens.works fun x hx => ?_) (.setActive _ _)
      exact ⟨rfl, rfl, fun off => absurd hx off, id⟩
    · exact .failedAttempt _ opens _
    · exact .refl s
  · exact .refl s

theorem Work.lookAfterEnd (s : State) : Work s s.lookAfterEnd := by
  unfold State.lookAfterEnd
  split
  · rename_i w hw
    split
    · exact .look hw
    · exact .refl s
  · exact .refl s

theorem Work.deliver (s : State) (m : Msg) : Work s (s.deliver m) := by
  cases m with
  | settled r g =>
    unfold State.deliver
    dsimp only
    split
    · exact .alignSettled s _
    · exact .revisitSettled s _
    · unfold State.focusSettled
      split
      · exact .rest (State.beginMeasureAt_rest _ _)
      · exact .refl s
    · exact .refl s
    · exact .refl s
  | refused r g why =>
    unfold State.deliver
    dsimp only
    split
    · unfold State.alignRefused
      split
      · exact .alignFail s _
      · exact .refl s
    · unfold State.revisitRefused
      split
      · rename_i a e _ he
        obtain ⟨opens, -⟩ := State.activeEntry_opens he
        split
        · exact .endActive opens _ rfl nofun
        · exact .refl s
      · exact .refl s
    · unfold State.focusRefused
      split
      · exact .rest (State.failFocus_rest _ _)
      · exact .refl s
    · exact .refl s
    · exact .refl s
  | focusAnswer u o =>
    cases u
    · exact .alignFocus s o
    · exact .revisitFocus s o
  | lookAtList => exact Work.lookAfterEnd s

theorem Work.drainFor : ∀ (n : Nat) (s : State), Work s (State.drainFor n s)
  | 0, s => .refl s
  | n + 1, s => by
    unfold State.drainFor
    split
    · exact .refl s
    · rename_i m rest _
      have set : Work s (s.setMsgs rest) := .of ⟨rfl, rfl, rfl⟩ rfl rfl rfl rfl
      exact (set.trans (.deliver _ m)).trans (Work.drainFor n _)

theorem Work.drain (s : State) : Work s s.drain := .drainFor _ s

/-! ## Ended records, and a step's consequences -/

theorem EndsHere.work {s t : State} {e : Entry} {why : EntryReason} (h : EndsHere s e why) (w : Work s t) (once : s.Once) : EndsHere t e why := by
  obtain ⟨x, hx, id, ended, rest⟩ := h.record
  obtain ⟨g, store, work⟩ := w.store once
  have same : g x = x := (work x hx).done fun opened => by
    obtain opened | opened := opened <;> rw [ended] at opened <;> cases opened
  refine ⟨w.touched _ h.touched, x, ?_, id, ended, rest⟩
  rw [store]
  exact List.mem_map.2 ⟨x, hx, same⟩

/-- The posting list is as it was, and the store holds no new record. -/
structure Fewer (s t : State) : Prop where
  posting : t.revisit.posting = s.revisit.posting
  store : (t.revisit.store.map Entry.id).Sublist (s.revisit.store.map Entry.id)

theorem Fewer.of {s t : State} (h : t.revisit = s.revisit) : Fewer s t := ⟨by rw [h], by rw [h]⟩

theorem Fewer.trans {s t u : State} (h : Fewer s t) (g : Fewer t u) : Fewer s u := ⟨g.posting.trans h.posting, g.store.trans h.store⟩

theorem Fewer.once {s t : State} (h : Fewer s t) (once : s.Once) : t.Once := by
  unfold State.Once at once ⊢
  rw [List.map_append] at once ⊢
  rw [h.posting]
  exact once.sublist (h.store.append_left _)

theorem Fewer.closeRow (s : State) (w : WaferName) : Fewer s (s.closeRow w) := by
  by_cases h : s.rowOpen w = true
  · rw [State.closeRow_eq h]
    refine ⟨rfl, ?_⟩
    have ids (l : List Entry) : (l.map fun e => if e.inOpenRowOf w then { e with rowClosed := true } else e).map Entry.id = l.map Entry.id := by
      rw [List.map_map]
      refine List.map_congr_left fun e _ => ?_
      simp only [Function.comp_apply]
      split <;> rfl
    exact (ids _).symm ▸ List.filter_sublist.map Entry.id
  · have same : s.closeRow w = s := if_neg h
    rw [same]
    exact .of rfl

theorem Fewer.closeReport (s : State) (k : Slot) : Fewer s (s.closeReport k) := by
  have rows (l : List Nat) : ∀ s : State, Fewer s (l.foldl (fun s n => s.closeRow ⟨k, n⟩) s) := by
    induction l with
    | nil => exact fun _ => .of rfl
    | cons n l ih => exact fun s => (Fewer.closeRow s _).trans (ih _)
  have raised (s : State) (k : NoticeKind) : Fewer s (s.raise k) := .of (State.raise_rest_revisit s k).1
  unfold State.closeReport
  dsimp only
  refine Fewer.trans (Fewer.trans ?_ (raised _ .lotEnd)) (raised _ .reportClosed)
  exact (rows slots25 s).trans (.of rfl)

theorem Fewer.lotChange (s : State) (k : Slot) : Fewer s (s.lotChange k) := by
  have set (st : LotState) : Fewer s (s.setLotState k st) := .of rfl
  unfold State.lotChange
  dsimp only
  repeat' split
  all_goals first
    | exact .of rfl
    | exact set _
    | exact (set _).trans (.closeReport _ k)

theorem Fewer.lotPass (s : State) : Fewer s s.lotPass := by
  have passes (l : List Nat) : ∀ s : State, Fewer s (l.foldl (fun s _ => (s.lotChange .zero).lotChange .one) s) := by
    induction l with
    | nil => exact fun _ => .of rfl
    | cons n l ih => exact fun s => ((Fewer.lotChange s _).trans (.lotChange _ _)).trans (ih _)
  exact passes _ s

/-- What a step's consequences spare: the wafers that are neither reviewed nor aligned, and the entries that have ended in the step. -/
structure Spared (s t : State) : Prop where
  once : t.Once
  reviewed : t.revisit.wafer = s.revisit.wafer
  aligned : t.align.wafer = s.align.wafer
  wafers : ∀ v, s.revisit.wafer ≠ some v → s.align.wafer ≠ some v → t.wafer v = s.wafer v
  ended : ∀ e why, EndsHere s e why → EndsHere t e why

theorem Spared.trans {s t u : State} (h : Spared s t) (g : Spared t u) : Spared s u :=
  ⟨g.once, g.reviewed.trans h.reviewed, g.aligned.trans h.aligned,
    fun v a b => (g.wafers v (by rw [h.reviewed]; exact a) (by rw [h.aligned]; exact b)).trans (h.wafers v a b),
    fun e why he => g.ended e why (h.ended e why he)⟩

theorem Work.spared {s t : State} (h : Work s t) (once : s.Once) : Spared s t :=
  ⟨h.once once, h.reviewed, h.aligned, h.wafers, fun _ _ he => he.work h once⟩

theorem Spared.lotPass {s : State} (once : s.Once) : Spared s s.lotPass :=
  ⟨(Fewer.lotPass s).once once, (congrArg (fun x : State => x.revisit.wafer) s.lotPass_unpassed :),
    (congrArg (fun x : State => x.align.wafer) s.lotPass_unpassed :), fun v _ _ => s.lotPass_wafer v, fun _ _ he => he.lotPass⟩

theorem Spared.sends {s : State} (once : s.Once) : Spared s s.sends := by
  have still := s.sends_still
  have revisit : s.sends.revisit = s.revisit := (congrArg State.revisit still :)
  exact ⟨(Fewer.of revisit).once once, by rw [revisit], (congrArg (fun x : State => x.align.wafer) still :),
    fun v _ _ => State.wafer_congr (congrArg State.lots still :) v,
    fun _ _ he => he.of (by rw [revisit]) (congrArg (fun x : State => x.scratch.touched) still :)⟩

theorem Spared.settle {s : State} (once : s.Once) : Spared s s.settle := by
  have told := (Work.drain s).spared once
  have passed := told.trans (.lotPass told.once)
  have sent := passed.trans (.sends passed.once)
  exact sent.trans ((Work.drain _).spared sent.once)

end Sys2Proof.Machine
end

section
/-! SUPPORT. An aborted lot: its wafers, its entries and the review cut off with it: O24. -/

namespace Sys2Proof.Machine

/-! ## Wafers aborted (R15) -/

/-- A wafer's record at an abort, but for the review of the stage wafer. -/
def Wafer.abortedAt (loc : Option Loc) (x : Wafer) : Wafer :=
  match x.state with
  | .waiting => { x with state := .returned, finalResult := .notProcessed }
  | .unaligned => { x.pended with state := .returning }
  | .ready => { x.pended with state := if loc = some .ua then .returning else .ready }
  | .prealigning | .onStage => x.pended
  | _ => x

section
variable {x : Wafer} (loc : Option Loc)

theorem Wafer.abortedAt_waiting (hs : x.state = .waiting) :
    x.abortedAt loc = { x with state := .returned, finalResult := .notProcessed } := by
  unfold Wafer.abortedAt
  rw [hs]

theorem Wafer.abortedAt_unaligned (hs : x.state = .unaligned) : x.abortedAt loc = { x.pended with state := .returning } := by
  unfold Wafer.abortedAt
  rw [hs]

theorem Wafer.abortedAt_ready (hs : x.state = .ready) :
    x.abortedAt loc = { x.pended with state := if loc = some .ua then .returning else .ready } := by
  unfold Wafer.abortedAt
  rw [hs]

theorem Wafer.abortedAt_pended (hs : x.state = .prealigning ∨ x.state = .onStage) : x.abortedAt loc = x.pended := by
  unfold Wafer.abortedAt
  obtain hs | hs := hs <;> rw [hs]

theorem Wafer.abortedAt_other (hs : x.state ∉ [.waiting, .unaligned, .ready, .prealigning, .onStage]) : x.abortedAt loc = x := by
  unfold Wafer.abortedAt
  split
  case h_6 => rfl
  all_goals
    rename_i h
    rw [h] at hs
    simp at hs

end

theorem State.abortWafer_records (s : State) (w : WaferName) : Records s (s.abortWafer w) w (Wafer.abortedAt (s.locationOf w)) := by
  cases hx : s.wafer w with
  | none =>
    have same : s.abortWafer w = s := by simp only [State.abortWafer, State.waferState, hx, Option.map_none]
    rw [same]
    exact .same fun x h => by rw [hx] at h; cases h
  | some x =>
    have towards {t : State} {g : Wafer → Wafer} (h : Records s t w g) (same : g x = x.abortedAt (s.locationOf w)) :
        Records s t w (Wafer.abortedAt (s.locationOf w)) :=
      h.congr fun y hy => by obtain rfl := Option.some.inj (hx.symm.trans hy); exact same
    have twice {f g : Wafer → Wafer} : Records s ((s.modWafer w f).modWafer w g) w (g ∘ f) := by
      refine ⟨fun v => ?_, rfl, fun _ h => h⟩
      rw [State.wafer_modWafer, State.wafer_modWafer]
      split
      · rw [Option.map_map]
      · rfl
    have final {f : Wafer → Wafer} {r : FinalResult} : Records s ((s.modWafer w f).writeFinal w r) w
        ((fun x => { x with finalResult := r }) ∘ f) :=
      ⟨(twice (f := f) (g := fun x => { x with finalResult := r })).wafer, rfl, fun _ h => h⟩
    have hw : s.waferState w = some x.state := by rw [State.waferState, hx, Option.map_some]
    unfold State.abortWafer
    rw [hw]
    split
    case h_1 h => exact towards final (Wafer.abortedAt_waiting _ (Option.some.inj h)).symm
    case h_2 h => exact towards twice (Wafer.abortedAt_unaligned _ (Option.some.inj h)).symm
    case h_3 h =>
      have ready := Option.some.inj h
      have same : (s.pendAborted w).locationOf w = s.locationOf w := State.locationOf_congr rfl w
      dsimp only
      rw [same]
      split
      · rename_i there
        exact towards twice (by rw [Wafer.abortedAt_ready _ ready, if_pos there]; rfl)
      · rename_i there
        refine towards (.modWafer s w _) ?_
        rw [Wafer.abortedAt_ready _ ready, if_neg there]
        exact congrArg (fun st => ({ x.pended with state := st } : Wafer)) ready
    case h_4 h => exact towards (.modWafer s w _) (Wafer.abortedAt_pended _ (.inl (Option.some.inj h))).symm
    case h_5 h => exact towards (.modWafer s w _) (Wafer.abortedAt_pended _ (.inr (Option.some.inj h))).symm
    case h_6 h1 h2 h3 h4 h5 =>
      refine towards (g := id) (.same fun _ _ => rfl) (Wafer.abortedAt_other _ fun listed => ?_).symm
      simp only [List.mem_cons, List.not_mem_nil, or_false] at listed
      obtain h | h | h | h | h := listed
      · exact h1 (congrArg some h)
      · exact h2 (congrArg some h)
      · exact h3 (congrArg some h)
      · exact h4 (congrArg some h)
      · exact h5 (congrArg some h)

/-- A slot's wafers changed one after another, each by its own record and what the changes leave alone. -/
theorem foldl_wafers {k : Slot} {f : State → Nat → State} {g : State → Nat → Wafer → Wafer}
    (step : ∀ s n v, (f s n).wafer v = if v = ⟨k, n⟩ then (s.wafer v).map (g s n) else s.wafer v)
    (stable : ∀ s n m, g (f s n) m = g s m) : ∀ (l : List Nat), l.Nodup → ∀ s : State,
    (∀ n ∈ l, (l.foldl f s).wafer ⟨k, n⟩ = (s.wafer ⟨k, n⟩).map (g s n))
    ∧ ∀ v : WaferName, (v.slot = k → v.n ∉ l) → (l.foldl f s).wafer v = s.wafer v := by
  intro l
  induction l with
  | nil => exact fun _ s => ⟨nofun, fun _ _ => rfl⟩
  | cons m l ih =>
    intro nodup s
    obtain ⟨fresh, nodup⟩ := List.nodup_cons.1 nodup
    obtain ⟨listed, others⟩ := ih nodup (f s m)
    have apart {n : Nat} (hn : n ≠ m) : (f s m).wafer ⟨k, n⟩ = s.wafer ⟨k, n⟩ :=
      (step s m _).trans (if_neg fun h => hn (congrArg WaferName.n h))
    refine ⟨fun n hn => ?_, fun v hv => ?_⟩
    · obtain rfl | hn := List.mem_cons.1 hn
      · exact (others ⟨k, n⟩ fun _ => fresh).trans ((step s n _).trans (if_pos rfl))
      · have ne : n ≠ m := fun h => fresh (h ▸ hn)
        rw [List.foldl_cons, listed n hn, apart ne, stable]
    · refine (others v fun h hm => hv h (List.mem_cons_of_mem _ hm)).trans ((step s m v).trans (if_neg fun h => ?_))
      subst h
      exact hv rfl List.mem_cons_self

/-- A state without its lots, its reports and its notices. -/
def State.unlisted (s : State) : State := { s with lots := State.reset.lots, reports := State.reset.reports }

theorem State.abortWafer_unlisted (s : State) (w : WaferName) : (s.abortWafer w).unlisted = s.unlisted := by
  unfold State.abortWafer
  dsimp only
  repeat' split
  all_goals rfl

theorem foldl_unlisted {α : Type} {f : State → α → State} (hf : ∀ s a, (f s a).unlisted = s.unlisted) (l : List α) :
    ∀ s : State, (l.foldl f s).unlisted = s.unlisted := by
  induction l with
  | nil => exact fun _ => rfl
  | cons a l ih => exact fun s => (ih _).trans (hf s a)

/-- The wafers of a slot aborted: every record by its state and place. -/
theorem State.abortWafers_wafer (s : State) (k : Slot) :
    (∀ n, 1 ≤ n → n ≤ 25 → (slots25.foldl (fun s n => s.abortWafer ⟨k, n⟩) s).wafer ⟨k, n⟩
      = (s.wafer ⟨k, n⟩).map (·.abortedAt (s.locationOf ⟨k, n⟩)))
    ∧ (∀ v : WaferName, (v.slot = k → ¬ (1 ≤ v.n ∧ v.n ≤ 25)) → (slots25.foldl (fun s n => s.abortWafer ⟨k, n⟩) s).wafer v = s.wafer v)
    ∧ (slots25.foldl (fun s n => s.abortWafer ⟨k, n⟩) s).unlisted = s.unlisted := by
  obtain ⟨listed, others⟩ := foldl_wafers (k := k) (f := fun s n => s.abortWafer ⟨k, n⟩)
    (g := fun s n => Wafer.abortedAt (s.locationOf ⟨k, n⟩)) (fun s n v => (s.abortWafer_records ⟨k, n⟩).wafer v)
    (fun s n m => congrArg Wafer.abortedAt (State.locationOf_congr (by rw [(s.abortWafer_same ⟨k, n⟩).1]) _)) slots25 slots25_nodup s
  exact ⟨fun n low high => listed n (mem_slots25.2 ⟨low, high⟩), fun v hv => others v fun h hm => hv h (mem_slots25.1 hm),
    foldl_unlisted (fun s n => s.abortWafer_unlisted _) _ s⟩

theorem State.unlisted_revisit {s t : State} (h : t.unlisted = s.unlisted) : t.revisit = s.revisit := (congrArg State.revisit h :)
theorem State.unlisted_af {s t : State} (h : t.unlisted = s.unlisted) : t.af = s.af := (congrArg State.af h :)
theorem State.unlisted_align {s t : State} (h : t.unlisted = s.unlisted) : t.align = s.align := (congrArg State.align h :)

theorem EndsHere.unlisted {s t : State} {e : Entry} {why : EntryReason} (h : EndsHere s e why) (same : t.unlisted = s.unlisted) :
    EndsHere t e why :=
  h.of (congrArg (fun x : State => x.revisit.store) same :) (congrArg (fun x : State => x.scratch.touched) same :)

theorem Quiescent.unlisted {s t : State} (h : Quiescent s) (same : t.unlisted = s.unlisted) : Quiescent t := by
  have revisit : t.revisit = s.revisit := (congrArg State.revisit same :)
  have align : t.align = s.align := (congrArg State.align same :)
  exact ⟨by rw [revisit]; exact h.active, by rw [revisit]; exact h.review, by rw [align]; exact h.align⟩

/-! ## A lot aborted (R15) -/

/-- The lot ABORTING, its QUEUED entries ended, its review still as it was. -/
def State.abortBegun (s : State) (k : Slot) : State := (((s.setLotState k .aborting).setMapRequest k false).endQueuedOfLot k .lotAbort)

/-- The review of a wafer of the slot cut off. -/
def State.abortCut (s : State) (k : Slot) : State :=
  if ((s.abortBegun k).revisit.wafer.map (·.slot)) = some k then (s.abortBegun k).cutReview .lotAbort .lotAbort else s.abortBegun k

theorem State.abortLot_cut (s : State) (k : Slot) : s.abortLot k = slots25.foldl (fun s n => s.abortWafer ⟨k, n⟩) (s.abortCut k) := by
  unfold State.abortLot State.abortCut State.abortBegun
  rfl

theorem State.endQueuedOfLot_bare (s : State) (k : Slot) (why : EntryReason) : (s.endQueuedOfLot k why).bare = s.bare := by
  have general (l : List Nat) : ∀ s : State, (l.foldl (fun s n => s.endQueued ⟨k, n + 1⟩ why) s).bare = s.bare := by
    induction l with
    | nil => exact fun _ => rfl
    | cons n l ih => exact fun s => (ih _).trans (s.endQueued_bare _ _)
  exact general _ s

theorem State.abortBegun_same (s : State) (k : Slot) : (s.abortBegun k).lots = (s.setLotState k .aborting).lots
    ∧ (s.abortBegun k).align = s.align ∧ (s.abortBegun k).clock = s.clock
    ∧ (s.abortBegun k).handling.table = s.handling.table ∧ (s.abortBegun k).revisit.wafer = s.revisit.wafer
    ∧ (s.abortBegun k).revisit.review = s.revisit.review ∧ (s.abortBegun k).revisit.active = s.revisit.active
    ∧ (s.abortBegun k).scratch.msgs = s.scratch.msgs := by
  have bare := ((s.setLotState k .aborting).setMapRequest k false).endQueuedOfLot_bare k .lotAbort
  unfold State.abortBegun
  generalize (((s.setLotState k .aborting).setMapRequest k false).endQueuedOfLot k .lotAbort) = b at bare
  exact ⟨(congrArg State.lots bare :), (congrArg State.align bare :), (congrArg State.clock bare :),
    (congrArg (fun x : State => x.handling.table) bare :), (State.bare_reviewed bare :), (State.bare_review bare :), (State.bare_active bare :),
    (congrArg (fun x : State => x.scratch.msgs) bare :)⟩

/-- A wafer's record does not show its lot's state. -/
theorem State.setLotState_wafer (s : State) (k : Slot) (st : LotState) (w : WaferName) : (s.setLotState k st).wafer w = s.wafer w := by
  obtain ⟨j, n⟩ := w
  cases j <;> cases k <;> rfl

theorem State.abortBegun_wafer (s : State) (k : Slot) (w : WaferName) : (s.abortBegun k).wafer w = s.wafer w :=
  (State.wafer_congr (s.abortBegun_same k).1 w).trans (s.setLotState_wafer k .aborting w)

/-- A wafer's review is cut off with its lot. -/
def State.cutWith (s : State) (k : Slot) (w : WaferName) : Bool :=
  decide (s.revisit.wafer = some w ∧ w.slot = k) && s.revisit.review.inProgress

theorem State.abortCut_reviews {s : State} {k : Slot} {w : WaferName} (h : s.cutWith k w = true) :
    ReviewCut (s.abortBegun k) (s.abortCut k) w .lotAbort .lotAbort := by
  obtain ⟨-, -, -, -, reviewed, review, -, -⟩ := s.abortBegun_same k
  rw [State.cutWith, Bool.and_eq_true, decide_eq_true_eq] at h
  obtain ⟨⟨named, slot⟩, progress⟩ := h
  have cut := State.cutReview_facts (s := s.abortBegun k) (reviewed.trans named) (by rw [review]; exact progress) .lotAbort .lotAbort
  unfold State.abortCut
  rw [if_pos (by rw [reviewed, named, Option.map_some, slot])]
  exact cut

theorem State.abortCut_not {s : State} {k : Slot} (h : ∀ w, s.cutWith k w = false) : s.abortCut k = s.abortBegun k := by
  obtain ⟨-, -, -, -, reviewed, review, -, -⟩ := s.abortBegun_same k
  unfold State.abortCut
  split
  · rename_i there
    rw [reviewed] at there
    obtain ⟨w, hw, slot⟩ := Option.map_eq_some_iff.1 there
    have off := h w
    rw [State.cutWith, decide_eq_true ⟨hw, slot⟩, Bool.true_and] at off
    exact State.cutReview_not (by rw [review]; exact off) _ _
  · rfl

theorem State.cutWith_unique {s : State} {k : Slot} {v w : WaferName} (hw : s.cutWith k w = true) (hv : v ≠ w) : s.cutWith k v = false := by
  rw [State.cutWith, Bool.and_eq_true, decide_eq_true_eq] at hw
  rw [State.cutWith, decide_eq_false, Bool.false_and]
  exact fun h => hv (Option.some.inj (h.1.symm.trans hw.1.1))

/-- A wafer's record once its review has been cut off. -/
theorem State.abortCut_wafer (s : State) (k : Slot) (v : WaferName) : ((s.abortCut k).wafer v).map Wafer.unshown
    = (s.wafer v).map fun x => (if s.cutWith k v then x.pended.reviewEnded s.clock else x).unshown := by
  obtain ⟨-, -, clock, -⟩ := s.abortBegun_same k
  by_cases h : ∃ w, s.cutWith k w = true
  · obtain ⟨w, hw⟩ := h
    have cut := (State.abortCut_reviews hw).wafers v
    rw [s.abortBegun_wafer, clock] at cut
    rw [cut]
    split
    · rename_i same
      rw [same, hw]
      rfl
    · rename_i other
      rw [State.cutWith_unique hw other]
      rfl
  · have none (w : WaferName) : s.cutWith k w = false := by
      rw [← Bool.not_eq_true]
      exact fun hw => h ⟨w, hw⟩
    rw [State.abortCut_not none, s.abortBegun_wafer, none v]
    rfl

theorem State.abortCut_locationOf (s : State) (k : Slot) (v : WaferName) : (s.abortCut k).locationOf v = s.locationOf v := by
  obtain ⟨-, -, -, table, -⟩ := s.abortBegun_same k
  refine State.locationOf_congr ?_ v
  rw [← table]
  unfold State.abortCut
  generalize s.abortBegun k = b
  have kept := (quiet_cutReview (.refl b) .lotAbort .lotAbort).kept
  split
  · generalize b.cutReview .lotAbort .lotAbort = c at kept
    exact (congrArg Kept.table kept :)
  · rfl

/-- A wafer's record at an abort of its lot (R11, R15, R152). -/
structure Aborted (x y : Wafer) (clock : Word) (reviewed : Bool) : Prop where
  pending : x.state ∈ [.unaligned, .prealigning, .ready, .onStage] ∨ reviewed = true →
    y.pendingResult = some (x.pendingResult.getD .aborted)
  waiting : x.state = .waiting → y.state = .returned ∧ y.finalResult = .notProcessed
  final : x.state ≠ .waiting → y.finalResult = x.finalResult
  ended : reviewed = true → x.state = .onStage → y.state = .reviewEnded ∧ y.endClock = clock
  outside : y.state.isOutside = x.state.isOutside

theorem Wafer.abortedAt_outside (x : Wafer) (loc : Option Loc) : (x.abortedAt loc).state.isOutside = x.state.isOutside := by
  cases hs : x.state with
  | waiting => rw [Wafer.abortedAt_waiting loc hs]; rfl
  | unaligned => rw [Wafer.abortedAt_unaligned loc hs]; rfl
  | ready =>
    rw [Wafer.abortedAt_ready loc hs]
    dsimp only
    split <;> rfl
  | prealigning => rw [Wafer.abortedAt_pended loc (.inl hs)]; exact congrArg WaferState.isOutside hs
  | onStage => rw [Wafer.abortedAt_pended loc (.inr hs)]; exact congrArg WaferState.isOutside hs
  | _ => rw [Wafer.abortedAt_other loc (by rw [hs]; decide), hs]

theorem Wafer.abortedAt_pending (x : Wafer) (loc : Option Loc) :
    (x.abortedAt loc).pendingResult = x.pendingResult ∨ (x.abortedAt loc).pendingResult = some (x.pendingResult.getD .aborted) := by
  unfold Wafer.abortedAt
  split
  all_goals first
    | exact .inl rfl
    | exact .inr rfl

theorem Wafer.abortedAt_aborted (x : Wafer) (loc : Option Loc) (clock : Word) : Aborted x (x.abortedAt loc) clock false := by
  refine ⟨fun h => ?_, fun waiting => ?_, fun off => ?_, nofun, x.abortedAt_outside loc⟩
  · have listed := h.resolve_right nofun
    simp only [List.mem_cons, List.not_mem_nil, or_false] at listed
    obtain hs | hs | hs | hs := listed
    · rw [Wafer.abortedAt_unaligned loc hs]; rfl
    · rw [Wafer.abortedAt_pended loc (.inl hs)]; rfl
    · rw [Wafer.abortedAt_ready loc hs]; rfl
    · rw [Wafer.abortedAt_pended loc (.inr hs)]; rfl
  · rw [Wafer.abortedAt_waiting loc waiting]
    exact ⟨rfl, rfl⟩
  · unfold Wafer.abortedAt
    split
    case h_1 h => exact absurd h off
    all_goals rfl

theorem Wafer.unshown_fields {x y : Wafer} (h : x.unshown = y.unshown) : x.state = y.state ∧ x.pendingResult = y.pendingResult
    ∧ x.finalResult = y.finalResult ∧ x.endClock = y.endClock :=
  ⟨(congrArg Wafer.state h :), (congrArg Wafer.pendingResult h :), (congrArg Wafer.finalResult h :), (congrArg Wafer.endClock h :)⟩

/-- The record of a wafer whose review is cut off with its lot. -/
theorem Wafer.cut_aborted {x c : Wafer} {clock : Word} (h : c.unshown = (x.pended.reviewEnded clock).unshown) (loc : Option Loc) :
    Aborted x (c.abortedAt loc) clock true := by
  obtain ⟨state, pending, final, ended⟩ := Wafer.unshown_fields h
  have pending := pending.trans (x.pended.reviewEnded_same clock).1
  have state := state.trans (x.pended.reviewEnded_state clock)
  have plain := c.abortedAt_aborted loc clock
  have unstaged (off : x.state ≠ .onStage) : c.state = x.state := state.trans (if_neg off)
  refine ⟨fun _ => ?_, fun waiting => plain.waiting ((unstaged (by rw [waiting]; nofun)).trans waiting), fun off => ?_, fun _ staged => ?_, ?_⟩
  · obtain same | again := c.abortedAt_pending loc
    · exact same.trans pending
    · rw [again, pending]
      rfl
  · have finals : (x.pended.reviewEnded clock).finalResult = x.finalResult := by
      unfold Wafer.reviewEnded
      split <;> rfl
    refine (plain.final ?_).trans (final.trans finals)
    rw [state]
    split
    · nofun
    · exact off
  · have done : c.state = .reviewEnded := state.trans (if_pos staged)
    rw [Wafer.abortedAt_other loc (by rw [done]; decide)]
    refine ⟨done, ended.trans ?_⟩
    unfold Wafer.reviewEnded
    rw [if_pos (show x.pended.state = .onStage from staged)]
  · rw [plain.outside, state]
    split
    · rename_i staged
      rw [show x.state = .onStage from staged]
      rfl
    · rfl

theorem Aborted.congr {x c y : Wafer} {clock : Word} (h : c.unshown = x.unshown) (g : Aborted c y clock false) : Aborted x y clock false := by
  obtain ⟨state, pending, final, -⟩ := Wafer.unshown_fields h
  obtain ⟨a, b, c, d, e⟩ := g
  rw [state] at a b c d e
  rw [pending] at a
  rw [final] at c
  exact ⟨a, b, c, d, e⟩

theorem State.abortLot_record {s : State} {k : Slot} {n : Nat} (low : 1 ≤ n) (high : n ≤ 25) {x : Wafer} (hx : s.wafer ⟨k, n⟩ = some x) :
    ∃ y, (s.abortLot k).wafer ⟨k, n⟩ = some y ∧ Aborted x y s.clock (s.cutWith k ⟨k, n⟩) := by
  obtain ⟨listed, -, -⟩ := (s.abortCut k).abortWafers_wafer k
  have cut := s.abortCut_wafer k ⟨k, n⟩
  rw [hx, Option.map_some] at cut
  obtain ⟨c, hc, same⟩ := Option.map_eq_some_iff.1 cut
  rw [State.abortLot_cut, listed n low high, hc]
  refine ⟨_, rfl, ?_⟩
  cases hr : s.cutWith k ⟨k, n⟩ with
  | true =>
    rw [hr] at same
    exact Wafer.cut_aborted same _
  | false =>
    rw [hr] at same
    exact (c.abortedAt_aborted _ _).congr same

/-- A wafer outside its carrier is so after an abort, and no other is. -/
theorem State.abortLot_outside (s : State) (k : Slot) (v : WaferName) :
    ((s.abortLot k).wafer v).map (·.state.isOutside) = (s.wafer v).map (·.state.isOutside) := by
  obtain ⟨listed, others, -⟩ := (s.abortCut k).abortWafers_wafer k
  have cut : ((s.abortCut k).wafer v).map (·.state.isOutside) = (s.wafer v).map (·.state.isOutside) := by
    have shown := congrArg (Option.map fun x : Wafer => x.state.isOutside) (s.abortCut_wafer k v)
    rw [Option.map_map, Option.map_map] at shown
    refine shown.trans (congrArg (fun g => Option.map g (s.wafer v)) (funext fun x => ?_))
    show (if s.cutWith k v then x.pended.reviewEnded s.clock else x).state.isOutside = x.state.isOutside
    split
    · rw [Wafer.reviewEnded_state]
      split
      · rename_i staged
        rw [show x.state = .onStage from staged]
        rfl
      · rfl
    · rfl
  rw [State.abortLot_cut, ← cut]
  obtain ⟨j, n⟩ := v
  by_cases here : j = k ∧ 1 ≤ n ∧ n ≤ 25
  · obtain ⟨rfl, low, high⟩ := here
    rw [listed n low high, Option.map_map]
    exact congrArg (fun g => Option.map g _) (funext fun x => x.abortedAt_outside _)
  · rw [others ⟨j, n⟩ fun hj hn => here ⟨hj, hn⟩]

theorem Lot.anyOutside_iff (l : Lot) : l.anyOutside = true ↔ ∃ n, (getAt l.wafers n).map (·.state.isOutside) = some true := by
  rw [Lot.anyOutside, List.any_eq_true]
  constructor
  · rintro ⟨x, hx, outside⟩
    obtain ⟨i, hi, rfl⟩ := List.getElem_of_mem hx
    exact ⟨i + 1, by rw [getAt, List.getElem?_eq_getElem hi, Option.map_some, outside]⟩
  · rintro ⟨n, hn⟩
    obtain ⟨x, hx, outside⟩ := Option.map_eq_some_iff.1 hn
    cases n with
    | zero => cases hx
    | succ i => exact ⟨x, List.mem_of_getElem? hx, outside⟩

/-- Two states whose wafers of a slot are outside alike have its lot outside alike. -/
theorem anyOutside_congr {s t : State} {k : Slot}
    (h : ∀ n, (t.wafer ⟨k, n⟩).map (·.state.isOutside) = (s.wafer ⟨k, n⟩).map (·.state.isOutside)) :
    (t.lot k).anyOutside = (s.lot k).anyOutside := by
  rw [Bool.eq_iff_iff, Lot.anyOutside_iff, Lot.anyOutside_iff]
  exact exists_congr fun n => Eq.congr_left (h n)

theorem Told.cutActive (s : State) (why : EntryReason) : Told s (s.cutActive why) := by
  have ended : Told s (s.endActiveEntry why) := by
    unfold State.endActiveEntry
    split
    · exact .finishEntry s _ _ _
    · exact .refl s
  unfold State.cutActive
  split
  · exact .refl s
  · dsimp only
    split
    · exact ended.trans (.rest (State.dropGrab_rest _ _))
    all_goals exact ended

theorem Told.alignStop (s : State) (al : AlignReason) : Told s (s.alignStop al) := by
  unfold State.alignStop
  split
  · dsimp only
    split
    · exact .setAlign s _
    · exact .setAlign s _
    · exact (Told.setAlign s _).trans (.rest (State.dropGrab_rest _ _))
  · exact .refl s

theorem Told.endReview (s : State) : Told s s.endReview := .of rfl rfl rfl

theorem Told.cutReview (s : State) (why : EntryReason) (al : AlignReason) : Told s (s.cutReview why al) := by
  cases hp : s.revisit.review.inProgress with
  | false =>
    rw [State.cutReview_not hp]
    exact .refl s
  | true =>
    cases hw : s.revisit.wafer with
    | none =>
      have same : s.cutReview why al = s := by
        unfold State.cutReview
        rw [hw]
      rw [same]
      exact .refl s
    | some w =>
      have off : Told s (s.cutOff w why al) := by
        have stopped := ((Told.cutActive s why).trans (.endQueued _ w why)).trans (.alignStop _ al)
        have ended := (stopped.trans (.rest (State.withdrawFocus_rest _))).trans (.endReview _)
        exact ended.trans (.modWafer fun _ _ => ⟨rfl, fun _ => ⟨rfl, rfl⟩⟩)
      rw [State.cutReview_eq hw hp]
      split
      · exact (off.trans (.toReviewEnded _ w)).trans (.rest (State.requestLoad_rest _ _))
      · exact off

/-- A lot just aborted is ABORTING (R15). -/
theorem State.abortLot_lotState (s : State) (k : Slot) : ((s.abortLot k).lot k).state = .aborting := by
  obtain ⟨lots, -⟩ := s.abortBegun_same k
  have begun : ((s.abortBegun k).lot k).state = .aborting := by
    rw [State.lot, lots]
    cases k <;> rfl
  have cut : ((s.abortCut k).lot k).state = .aborting := by
    rw [← begun]
    unfold State.abortCut
    generalize s.abortBegun k = b
    split
    · exact (Told.cutReview b _ _).lots k
    · rfl
  have folded := State.abortWafers k slots25 (s.abortCut k)
  obtain ⟨-, -, -, -, -, lotStates⟩ := folded
  rw [State.abortLot_cut]
  exact (lotStates k).trans cut

/-! ## A lot that stays ABORTING (R16) -/

/-- A lot that has a wafer outside its carrier to bring home. -/
structure Lasting (k : Slot) (s : State) : Prop where
  state : (s.lot k).state = .aborting
  outside : (s.lot k).anyOutside = true

theorem Lasting.of_lots {k : Slot} {s t : State} (h : Lasting k s) (lots : t.lots = s.lots) : Lasting k t := by
  have lot : t.lot k = s.lot k := by rw [State.lot, lots]; rfl
  exact ⟨by rw [lot]; exact h.state, by rw [lot]; exact h.outside⟩

theorem Lasting.drain {k : Slot} {s : State} (h : Lasting k s) : Lasting k s.drain := by
  have told := Told.drain s
  have quiet := quiet_drain (.refl s)
  refine ⟨(told.lots k).trans h.state, ?_⟩
  rw [anyOutside_congr fun n => ?_]
  · exact h.outside
  · have stage := (quiet.lots k).stage n
    obtain same | ⟨before, after⟩ := stage
    · have := congrArg (Option.map WaferState.isOutside) same
      rw [Option.map_map, Option.map_map] at this
      exact this
    · have late := congrArg (Option.map WaferState.isOutside) after
      have early := congrArg (Option.map WaferState.isOutside) before
      rw [Option.map_map] at late early
      exact late.trans early.symm

theorem State.lotChange_lot {s : State} {j k : Slot} (h : j ≠ k) : (s.lotChange j).lot k = s.lot k := by
  have set (st : LotState) : (s.setLotState j st).lot k = s.lot k := (s.lot_modLot j k _).trans (if_neg (Ne.symm h))
  have closed (st : LotState) : ((s.setLotState j st).closeReport j).lot k = s.lot k := by
    rw [State.lot, closeReport_lots]
    exact set st
  unfold State.lotChange
  dsimp only
  repeat' split
  all_goals first
    | rfl
    | exact set _
    | exact closed _

theorem Lasting.lotChange {k : Slot} {s : State} (h : Lasting k s) (j : Slot) : Lasting k (s.lotChange j) := by
  have wafers := State.unpassed_wafer (s.lotChange_unpassed j)
  have outside : ((s.lotChange j).lot k).anyOutside = true :=
    (anyOutside_congr (s := s) fun n => by rw [wafers]).trans h.outside
  refine ⟨?_, outside⟩
  by_cases here : j = k
  · subst here
    have same : s.lotChange j = s := by
      unfold State.lotChange
      simp only [h.state, h.outside]
      exact if_neg fun home => nomatch home.2
    rw [same]
    exact h.state
  · rw [State.lotChange_lot here]
    exact h.state

theorem Lasting.lotPass {k : Slot} {s : State} (h : Lasting k s) : Lasting k s.lotPass := by
  have passes (l : List Nat) : ∀ s : State, Lasting k s → Lasting k (l.foldl (fun s _ => (s.lotChange .zero).lotChange .one) s) := by
    induction l with
    | nil => exact fun _ h => h
    | cons n l ih => exact fun s h => ih _ ((h.lotChange _).lotChange _)
  exact passes _ s h

theorem Lasting.settle {k : Slot} {s : State} (h : Lasting k s) : Lasting k s.settle :=
  (h.drain.lotPass.of_lots (State.unsent_lots (State.sends_unsent _))).drain

/-- An aborted lot's state after the step (R16). -/
theorem State.abortLot_settled {s : State} {k : Slot} (h : (s.lot k).fetch = none) :
    ((s.abortLot k).settle.lot k).state = if (s.lot k).anyOutside then .aborting else .aborted := by
  have outside : ((s.abortLot k).lot k).anyOutside = (s.lot k).anyOutside := anyOutside_congr fun n => s.abortLot_outside k ⟨k, n⟩
  have fetch : ((s.abortLot k).lot k).fetch = none :=
    (congrArg LotKept.fetch (State.lot_kept (s.abortLot_facts k).2.2.2 k) :).trans h
  cases ho : (s.lot k).anyOutside with
  | true => exact (Lasting.settle ⟨s.abortLot_lotState k, outside.trans ho⟩).state
  | false => exact ended_settle (.inr ⟨s.abortLot_lotState k, fetch, outside.trans ho⟩)

/-! ## Entries of an aborted lot (R132, R152) -/

theorem EndsHere.cuts {s t : State} {e : Entry} {why : EntryReason} {f : Entry → Entry} (h : EndsHere s e why) (g : Cuts why s t f) :
    EndsHere t e why := by
  obtain ⟨x, hx, id, ended, reason, rest⟩ := h.record
  have same : f x = x := by
    obtain same | ⟨cut, -⟩ := g.cuts x
    · exact same
    · rw [cut]
      cases x
      cases ended
      cases reason
      rfl
  refine ⟨g.touched _ h.touched, x, ?_, id, ended, reason, rest⟩
  rw [g.store]
  exact List.mem_map.2 ⟨x, hx, same⟩

theorem CutsOff.id {why : EntryReason} {l : List RecId} {f : Entry → Entry} (h : CutsOff why l f) (x : Entry) : (f x).id = x.id := by
  obtain same | ⟨cut, -⟩ := h x
  · rw [same]
  · rw [cut]
    rfl

theorem Cuts.storeEntry {why : EntryReason} {s t : State} {f : Entry → Entry} (h : Cuts why s t f) {k : Slot} {i : Nat} {e : Entry}
    (he : s.storeEntry k i = some e) : t.storeEntry k i = some (f e) := by
  have is (x : Entry) : (f x).is k i = x.is k i := by
    rw [Bool.eq_iff_iff, Entry.is_iff, Entry.is_iff, h.cuts.id]
  rw [State.storeEntry, h.store, List.find?_map]
  simp only [Function.comp_def, is]
  rw [State.storeEntry] at he
  rw [he]
  rfl

theorem Work.setLotState (s : State) (k : Slot) (st : LotState) : Work s (s.setLotState k st) :=
  ⟨⟨_, .of rfl rfl⟩, fun _ hi => hi, rfl, rfl, fun v _ _ => s.setLotState_wafer k st v, fun _ => rfl,
    fun _ => rfl⟩

theorem Work.endQueuedOfLot (s : State) (k : Slot) (why : EntryReason) : Work s (s.endQueuedOfLot k why) := by
  have general (l : List Nat) : ∀ s : State, Work s (l.foldl (fun s n => s.endQueued ⟨k, n + 1⟩ why) s) := by
    induction l with
    | nil => exact .refl
    | cons n l ih => exact fun s => (Work.endQueued s _ why).trans (ih _)
  exact general _ s

theorem Work.cutActive (s : State) (why : EntryReason) : Work s (s.cutActive why) := by
  have ended : Work s (s.endActiveEntry why) := by
    unfold State.endActiveEntry
    split
    · rename_i e he
      exact .finishEntry (State.activeEntry_opens he).1.works why rfl nofun
    · exact .refl s
  unfold State.cutActive
  split
  · exact .refl s
  · dsimp only
    split
    · exact ended.trans (.rest (State.dropGrab_rest _ _))
    all_goals exact ended

theorem Work.alignStop (s : State) (al : AlignReason) : Work s (s.alignStop al) := by
  unfold State.alignStop
  split
  · dsimp only
    split
    · exact .setAlign rfl
    · exact .setAlign rfl
    · refine Work.trans ?_ (.rest (State.dropGrab_rest _ _))
      exact .setAlign rfl
  · exact .refl s

theorem Work.cutReview (s : State) (why : EntryReason) (al : AlignReason) : Work s (s.cutReview why al) := by
  cases hp : s.revisit.review.inProgress with
  | false =>
    rw [State.cutReview_not hp]
    exact .refl s
  | true =>
    cases hw : s.revisit.wafer with
    | none =>
      have same : s.cutReview why al = s := by
        unfold State.cutReview
        rw [hw]
      rw [same]
      exact .refl s
    | some w =>
      have active := Work.cutActive s why
      have stopped := (active.trans (.endQueued _ w why)).trans (.alignStop _ al)
      have ended := (stopped.trans (.rest (State.withdrawFocus_rest _))).trans (.endReview _)
      have off : Work s (s.cutOff w why al) := ended.trans (.modWafer (ended.stages (.inl hw)) _)
      rw [State.cutReview_eq hw hp]
      split
      · exact (off.trans (.toReviewEnded (off.stages (.inl hw)))).trans (.rest (State.requestLoad_rest _ _))
      · exact off

theorem Work.abortBegun (s : State) (k : Slot) : Work s (s.abortBegun k) := by
  have set := (Work.setLotState s k .aborting).trans (u := (s.setLotState k .aborting).setMapRequest k false) (.of ⟨rfl, rfl, rfl⟩ rfl rfl rfl rfl)
  exact set.trans (.endQueuedOfLot _ k _)

theorem Work.abortCut (s : State) (k : Slot) : Work s (s.abortCut k) := by
  have begun := Work.abortBegun s k
  unfold State.abortCut
  split
  · exact begun.trans (.cutReview _ _ _)
  · exact begun

theorem State.abortLot_unlisted (s : State) (k : Slot) : (s.abortLot k).unlisted = (s.abortCut k).unlisted := by
  obtain ⟨-, -, unlisted⟩ := (s.abortCut k).abortWafers_wafer k
  rw [State.abortLot_cut]
  exact unlisted

/-- The QUEUED entries of an aborted lot have ended. -/
theorem State.abortLot_endsQueued {s : State} (once : s.Once) (k : Slot) :
    ∀ e ∈ (List.range 25).flatMap fun n => s.queuedOf ⟨k, n + 1⟩, EndsHere (s.abortLot k) e .lotAbort := by
  intro e he
  obtain ⟨n, hn, listed⟩ := List.mem_flatMap.1 he
  obtain ⟨inStore, -, queued, -⟩ := State.mem_queuedOf.1 listed
  obtain ⟨⟨f, cuts⟩, emptied⟩ := Cuts.endQueuedOfLot ((s.setLotState k .aborting).setMapRequest k false) k .lotAbort
  have begun : EndsHere (s.abortBegun k) e .lotAbort :=
    cuts.endsHere inStore (cuts.queued_ended (emptied n (List.mem_range.1 hn)) listed) (by rw [queued]; nofun)
  have cut : EndsHere (s.abortCut k) e .lotAbort := by
    have once := (Work.abortBegun s k).once once
    unfold State.abortCut
    split
    · exact begun.work (.cutReview _ _ _) once
    · exact begun
  exact cut.unlisted (s.abortLot_unlisted k)

/-- The ACTIVE entry of a review cut off with its lot has ended. -/
theorem State.abortLot_endsActive {s : State} {k : Slot} {w : WaferName} (h : s.cutWith k w = true) {a : ActiveRevisit} {e : Entry}
    (ha : s.revisit.active = some a) (he : s.storeEntry a.slot a.index = some e) (live : e.state = .active) :
    EndsHere (s.abortLot k) e .lotAbort := by
  obtain ⟨⟨f, cuts⟩, -⟩ := Cuts.endQueuedOfLot ((s.setLotState k .aborting).setMapRequest k false) k .lotAbort
  have reviews := State.abortCut_reviews h
  obtain ⟨-, -, -, -, -, -, active, -⟩ := s.abortBegun_same k
  have framed : ((s.setLotState k .aborting).setMapRequest k false).storeEntry a.slot a.index = some e := he
  have found : (s.abortBegun k).storeEntry a.slot a.index = some (f e) := cuts.storeEntry framed
  have cut : EndsHere (s.abortCut k) e .lotAbort := by
    obtain same | ⟨cut, -⟩ := cuts.cuts e
    · rw [same] at found
      exact reviews.endsActive (active.trans ha) found live
    · have begun : EndsHere (s.abortBegun k) e .lotAbort := cuts.endsHere (State.storeEntry_mem framed) cut (by rw [live]; nofun)
      obtain ⟨g, again, -⟩ := reviews.entries
      exact begun.cuts again
  exact cut.unlisted (s.abortLot_unlisted k)

/-- The consequences of an abort leave the lot's wafers and the ended entries as the abort made them. -/
theorem State.abortLot_spared {s : State} (h : s.EntriesSound) (k : Slot) :
    (∀ n, (s.abortLot k).settle.wafer ⟨k, n⟩ = (s.abortLot k).wafer ⟨k, n⟩)
    ∧ ∀ e why, EndsHere (s.abortLot k) e why → EndsHere (s.abortLot k).settle e why := by
  have quiet (quiescent : Quiescent (s.abortCut k)) : _ := Settled.settle (quiescent.unlisted (s.abortLot_unlisted k))
  obtain ⟨lots, align, -, -, reviewed, review, active, -⟩ := s.abortBegun_same k
  by_cases cut : ∃ w, s.cutWith k w = true
  · obtain ⟨w, hw⟩ := cut
    have settled := quiet (State.abortCut_reviews hw).quiescent
    exact ⟨fun n => settled.wafer _, settled.ended⟩
  · have uncut (w : WaferName) : s.cutWith k w = false := by
      rw [← Bool.not_eq_true]
      exact fun hw => cut ⟨w, hw⟩
    have begun := State.abortCut_not uncut
    by_cases here : ∃ n, s.revisit.wafer = some ⟨k, n⟩
    · obtain ⟨n, hn⟩ := here
      have off := uncut ⟨k, n⟩
      rw [State.cutWith, decide_eq_true ⟨hn, rfl⟩, Bool.true_and] at off
      have idle : Quiescent s := by
        refine ⟨Option.not_isSome_iff_eq_none.1 fun some => ?_, fun revisiting => ?_, fun measuring => ?_⟩
        · rw [h.revisiting some] at off
          cases off
        · rw [revisiting] at off
          cases off
        · rw [h.aligned measuring] at off
          cases off
      have settled := quiet (by rw [begun]; exact ⟨by rw [active]; exact idle.active, by rw [review]; exact idle.review,
        by rw [align]; exact idle.align⟩)
      exact ⟨fun n => settled.wafer _, settled.ended⟩
    · have once := (Work.abortCut s k).once h.once
      have unlisted := s.abortLot_unlisted k
      have revisit : (s.abortLot k).revisit = (s.abortCut k).revisit := State.unlisted_revisit unlisted
      have align' : (s.abortLot k).align = (s.abortCut k).align := State.unlisted_align unlisted
      have spared := Spared.settle ((Fewer.of revisit).once once)
      have away (n : Nat) : s.revisit.wafer ≠ some ⟨k, n⟩ := fun there => here ⟨n, there⟩
      have reviewed' : (s.abortLot k).revisit.wafer = s.revisit.wafer := by
        rw [revisit, begun, reviewed]
      have aligned' : (s.abortLot k).align.wafer = s.revisit.wafer := by
        rw [align', begun, align, h.named]
      exact ⟨fun n => spared.wafers _ (by rw [reviewed']; exact away n) (by rw [aligned']; exact away n), spared.ended⟩

/-! ## ABORT taken (R15) -/

/-- The review of an aborted lot's wafer. -/
theorem State.abortLot_cuts {s : State} {k : Slot} {w : WaferName} (h : s.cutWith k w = true) : Quiescent (s.abortLot k)
    ∧ (s.abortLot k).revisit.review = .ended ∧ (s.abortLot k).revisit.timer = none ∧ (s.abortLot k).af.state = .idle
    ∧ (s.align.state = .measuring → (s.abortLot k).align.state = .failed ∧ (s.abortLot k).align.reason = .lotAbort) := by
  have cut := State.abortCut_reviews h
  have unlisted := s.abortLot_unlisted k
  obtain ⟨-, align, -⟩ := s.abortBegun_same k
  generalize s.abortLot k = u at *
  have revisit := State.unlisted_revisit unlisted
  have af := State.unlisted_af unlisted
  refine ⟨cut.quiescent.unlisted unlisted, by rw [revisit]; exact cut.review, by rw [revisit]; exact cut.timer, by rw [af]; exact cut.af,
    fun measuring => ?_⟩
  rw [State.unlisted_align unlisted]
  exact cut.failed (by rw [align]; exact measuring)

/-- The review of an aborted lot's wafer, when the step's consequences are over. -/
theorem State.abortLot_reviews {s : State} {k : Slot} {w : WaferName} (h : s.cutWith k w = true) :
    (s.abortLot k).settle.revisit.review = .ended ∧ (s.abortLot k).settle.revisit.active = none
    ∧ (s.abortLot k).settle.revisit.timer = none ∧ (s.abortLot k).settle.af.state = .idle
    ∧ (s.align.state = .measuring → (s.abortLot k).settle.align.state = .failed ∧ (s.abortLot k).settle.align.reason = .lotAbort)
    ∧ (∀ v, (s.abortLot k).settle.wafer v = (s.abortLot k).wafer v)
    ∧ ∀ e why, EndsHere (s.abortLot k) e why → EndsHere (s.abortLot k).settle e why := by
  obtain ⟨quiescent, review, timer, idle, failed⟩ := State.abortLot_cuts h
  have settled := Settled.settle quiescent
  exact ⟨settled.review.trans review, settled.active.trans quiescent.active, settled.timer.trans timer, by rw [settled.af idle]; exact idle,
    by rw [settled.align]; exact failed, settled.wafer, settled.ended⟩

theorem State.abortRequest_starting {s : State} {k : Slot} (h : (s.lot k).state = .starting) :
    s.abortRequest k = (s.setLotState k .aborting).setMapRequest k false := by
  simp only [State.abortRequest, h]

theorem State.abortRequest_active {s : State} {k : Slot} (h : (s.lot k).state.takesPosts = true) :
    s.abortRequest k = (s.abortLot k).settle := by
  unfold State.abortRequest
  cases hs : (s.lot k).state <;> rw [hs] at h <;> first | rfl | cases h

/-- The record of the wafer whose review is cut off with its lot. -/
theorem State.abortLot_reviewed {s : State} {k : Slot} {w : WaferName} (h : s.cutWith k w = true) {x : Wafer} (hx : s.wafer w = some x) :
    ∃ y, (s.abortLot k).wafer w = some y ∧ y.pendingResult = some (x.pendingResult.getD .aborted)
      ∧ (x.state = .onStage → y.state = .reviewEnded ∧ y.endClock = s.clock) := by
  obtain ⟨j, n⟩ := w
  have slot : j = k := by
    rw [State.cutWith, Bool.and_eq_true, decide_eq_true_eq] at h
    exact h.1.2
  subst slot
  by_cases range : 1 ≤ n ∧ n ≤ 25
  · obtain ⟨y, hy, made⟩ := State.abortLot_record range.1 range.2 hx
    exact ⟨y, hy, made.pending (.inr h), made.ended h⟩
  · obtain ⟨-, others, -⟩ := (s.abortCut j).abortWafers_wafer j
    have cut := s.abortCut_wafer j ⟨j, n⟩
    rw [hx, h, Option.map_some] at cut
    obtain ⟨y, hy, same⟩ := Option.map_eq_some_iff.1 cut
    obtain ⟨state, pending, -, ended⟩ := Wafer.unshown_fields same
    refine ⟨y, ?_, pending.trans (x.pended.reviewEnded_same s.clock).1, fun staged => ⟨?_, ?_⟩⟩
    · rw [State.abortLot_cut, others _ fun _ => range]
      exact hy
    · exact state.trans ((x.pended.reviewEnded_state s.clock).trans (if_pos staged))
    · refine ended.trans ?_
      simp only [if_true]
      unfold Wafer.reviewEnded
      rw [if_pos (show x.pended.state = .onStage from staged)]

theorem State.EntriesSound.begin {s : State} (h : s.EntriesSound) : s.begin.EntriesSound :=
  ⟨h.once, h.posting, h.active, h.limit, h.revisiting, h.timed, h.aligned, h.named⟩

/-- Settles O24. -/
theorem abortTakenStopsTheLot : Obligations.AbortTakenStopsTheLot := by
  refine fun s k h => ⟨fun starting => ⟨_, exec_lotRequest h rfl, ?_⟩, fun active => ⟨_, exec_lotRequest h rfl, ?_⟩⟩
  · have starting : (s.begin.lot k).state = .starting := starting
    rw [State.lotRequest_abort, State.abortRequest_starting starting, State.finish_content]
    rfl
  have active : (s.begin.lot k).state.takesPosts = true := active
  rw [State.lotRequest_abort, State.abortRequest_active active]
  obtain ⟨becomes, unasked, states, kept⟩ := s.begin.abortLot_facts k
  have quiet := quiet_settle (.refl (s.begin.abortLot k))
  have settled := @State.abortLot_settled s.begin k
  have records (n : Nat) := @State.abortLot_record s.begin k n
  have reviews (w : WaferName) := @State.abortLot_reviews s.begin k w
  have reviewed (w : WaferName) := @State.abortLot_reviewed s.begin k w
  have spared (sound : s.Sound) := State.abortLot_spared sound.entries.begin k
  have endsQueued (sound : s.Sound) := State.abortLot_endsQueued (s := s.begin) sound.entries.once k
  have endsActive (w : WaferName) := @State.abortLot_endsActive s.begin k w
  have cutOf (w : WaferName) (named : s.revisit.wafer = some w) (slot : w.slot = k) (progress : s.revisit.review.inProgress = true) :
      s.begin.cutWith k w = true := by
    rw [State.cutWith, Bool.and_eq_true, decide_eq_true_eq]
    exact ⟨⟨named, slot⟩, progress⟩
  generalize s.begin.abortLot k = u at *
  have final := (quiet.lots k).state
  have settledKept := u.settle_kept
  have steps := u.settle_wafers
  generalize u.settle = v at *
  refine ⟨fun fetch => ?_, ?_, ?_, fun n low high st hst off => ?_, fun n x low high hx waiting => ?_, fun sound => ⟨?_, ?_⟩,
    fun w named slot progress => ?_, ?_⟩
  · rw [State.finish_lot]
    exact settled fetch
  · rw [State.finish_lot]
    have reached : LotState.aborting.mayBecome (v.lot k).state = true := by
      have state : (u.lot k).state.mayBecome (v.lot k).state = true := final
      revert becomes state
      cases (u.lot k).state <;> cases (v.lot k).state <;> simp [LotState.mayBecome]
    show (v.lot k).state = .aborting ∨ (v.lot k).state = .aborted
    revert reached
    cases (v.lot k).state <;> simp [LotState.mayBecome]
  · rw [State.finish_handling]
    exact quiet.handling.mapRequest k unasked
  · have state := states n low high st hst off
    have home : st.aborted (s.begin.locationOf ⟨k, n⟩) ≠ .onStage := by
      unfold WaferState.aborted
      split
      · nofun
      · nofun
      · split <;> nofun
      · exact off
    rw [State.finish_waferState]
    exact (quiet.waferState_eq _ (by rw [state]; exact fun h => home (Option.some.inj h))).trans state
  · obtain ⟨y, hy, made⟩ := records n low high hx
    obtain ⟨returned, result⟩ := made.waiting waiting
    obtain ⟨z, hz, step⟩ := steps _ y hy
    have unstaged : y.state ≠ .onStage := by
      rw [returned]
      nofun
    refine ⟨z, ?_, (step.state unstaged).1.trans returned, ?_⟩
    · rw [State.finish_wafer]
      exact hz
    · exact (congrArg WaferCore.finalResult step.core :).trans result
  · intro n low high x hx listed
    obtain ⟨y, hy, made⟩ := records n low high hx
    refine ⟨y, ?_, made.pending (.inl listed)⟩
    rw [State.finish_wafer]
    exact ((spared sound).1 n).trans hy
  · intro e he
    obtain ⟨x, hx, rest⟩ := ((spared sound).2 e _ (endsQueued sound e he)).record
    refine ⟨x, ?_, rest⟩
    rw [State.finish_revisit]
    exact hx
  · have cut := cutOf w named slot progress
    obtain ⟨review, none, timer, af, failed, wafers, ended⟩ := reviews w cut
    have record (x : Wafer) (hx : s.wafer w = some x) := reviewed w cut hx
    simp only [State.finish_revisit, State.finish_af, State.finish_align, State.finish_wafer, State.finish_waferState]
    refine ⟨review, none, timer, af, fun staged => ?_, failed, fun x hx => ?_, fun a e ha he live => ?_⟩
    · obtain ⟨x, hx, hs⟩ := Option.map_eq_some_iff.1 staged
      obtain ⟨y, hy, -, done⟩ := record x hx
      exact Option.map_eq_some_iff.2 ⟨y, (wafers w).trans hy, (done hs).1⟩
    · obtain ⟨y, hy, pending, done⟩ := record x hx
      exact ⟨y, (wafers w).trans hy, pending, fun staged => (done staged).2⟩
    · intro x hx
      obtain rfl := List.mem_singleton.1 hx
      obtain ⟨y, hy, rest⟩ := (ended _ _ (endsActive w cut ha he live)).record
      refine ⟨y, ?_, rest⟩
      rw [State.finish_revisit]
      exact hy
  · have same : v.kept = s.begin.kept := settledKept.trans kept
    rw [State.finish_content]
    have slot : (v.pass (s.recordWrite (.lotHeader k) 35 codeAbort 15)).content.kept
        = (s.begin.pass (s.recordWrite (.lotHeader k) 35 codeAbort 15)).content.kept := by
      have passed (u : State) (a : PAccess) : (u.pass a).content.kept = { u.kept with
          wb := WriteBack.reset, mport := { u.mport with serving := none, drain := false }, slot := .waiting a } := rfl
      rw [passed, passed, same]
      rw [show v.mport = s.begin.mport from (congrArg Kept.mport same :)]
    exact slot

end Sys2Proof.Machine
end

section
/-! SUPPORT. A carrier lost: its wafers orphaned, its lot aborted, and the halt: O31. -/

namespace Sys2Proof.Machine

/-! ## Wafers whose carrier is lost (R38) -/

/-- A wafer's record when its carrier is lost. -/
def Wafer.orphaned (x : Wafer) : Wafer := if x.state.isOutside then { x with state := .orphaned, finalResult := .aborted } else x

/-- A wafer's record when its port's carrier map is lost. -/
def Wafer.unmapped (x : Wafer) : Wafer := if x.state = .waiting then { x with mapResult := .unmapped } else x

theorem State.orphan_wafer (s : State) (w v : WaferName) :
    (s.orphan w).wafer v = if v = w then (s.wafer v).map Wafer.orphaned else s.wafer v := by
  cases hx : s.wafer w with
  | none =>
    have same : s.orphan w = s := by simp only [State.orphan, hx]
    rw [same]
    split
    · rename_i hv
      rw [hv, hx]
      rfl
    · rfl
  | some x =>
    obtain ⟨u, hu, -, -, -, -, lots⟩ := s.orphan_figures w x
    have orphan : s.orphan w = if x.state.isOutside then (u.setWaferState w .orphaned).writeFinal w .aborted else s := by
      rw [hu]
      simp only [State.orphan, hx]
    rw [orphan]
    split
    · rename_i outside
      have written : ((u.setWaferState w .orphaned).writeFinal w .aborted).wafer v
          = (((u.modWafer w fun x => { x with state := .orphaned }).modWafer w fun x => { x with finalResult := .aborted })).wafer v := rfl
      rw [written, State.wafer_modWafer, State.wafer_modWafer, State.wafer_congr lots]
      split
      · rename_i hv
        rw [hv, hx]
        simp only [Option.map_some, Wafer.orphaned, if_pos outside]
      · rfl
    · rename_i inside
      split
      · rename_i hv
        rw [hv, hx]
        simp only [Option.map_some, Wafer.orphaned, if_neg inside]
      · rfl

theorem State.orphan_unlisted (s : State) (w : WaferName) : (s.orphan w).unlisted = s.unlisted := by
  unfold State.orphan
  split
  · rfl
  · dsimp only
    repeat' split
    all_goals rfl

/-- The carrier's line fallen. -/
def State.lineFallen (s : State) (p : Slot) : State := { s with cell := { s.cell with carrier := s.cell.carrier.set p false } }

/-- The carrier's line fallen and its wafers orphaned, its map dropped (R29, R38). -/
def State.carrierGone (s : State) (p : Slot) : State :=
  ((slots25.foldl (fun (s : State) n => s.orphan ⟨p, n⟩) (s.lineFallen p)).dropMap p).unmap p

theorem State.unmap_wafer (s : State) (p : Slot) (v : WaferName) :
    (s.unmap p).wafer v = if v.slot = p then (s.wafer v).map Wafer.unmapped else s.wafer v := by
  obtain ⟨k, n⟩ := v
  have mapped (l : List Wafer) : getAt (l.map Wafer.unmapped) n = (getAt l n).map Wafer.unmapped := by
    cases n with
    | zero => rfl
    | succ n => exact List.getElem?_map
  cases k <;> cases p <;> first | rfl | exact mapped _

theorem State.carrierGone_wafer (s : State) (p : Slot) :
    (∀ n, 1 ≤ n → n ≤ 25 → (s.carrierGone p).wafer ⟨p, n⟩ = (s.wafer ⟨p, n⟩).map fun x => x.orphaned.unmapped)
    ∧ ∀ n, ¬ (1 ≤ n ∧ n ≤ 25) → (s.carrierGone p).wafer ⟨p, n⟩ = (s.wafer ⟨p, n⟩).map Wafer.unmapped := by
  obtain ⟨listed, others⟩ := foldl_wafers (k := p) (f := fun (s : State) n => s.orphan ⟨p, n⟩) (g := fun _ _ => Wafer.orphaned)
    (fun s n v => s.orphan_wafer ⟨p, n⟩ v) (fun _ _ _ => rfl) slots25 slots25_nodup
    (s.lineFallen p)
  have dropped (u : State) (v : WaferName) : (u.dropMap p).wafer v = u.wafer v := rfl
  refine ⟨fun n low high => ?_, fun n out => ?_⟩
  · rw [State.carrierGone, State.unmap_wafer, if_pos rfl, dropped, listed n (mem_slots25.2 ⟨low, high⟩), Option.map_map]
    rfl
  · rw [State.carrierGone, State.unmap_wafer, if_pos rfl, dropped, others ⟨p, n⟩ fun _ hm => out (mem_slots25.1 hm)]
    rfl

/-- What the carrier's loss leaves alone beside its wafers. -/
theorem State.carrierGone_same (s : State) (p : Slot) : (s.carrierGone p).revisit = s.revisit ∧ (s.carrierGone p).align = s.align
    ∧ (s.carrierGone p).kept = { s.kept with
        cell := { s.cell with carrier := s.cell.carrier.set p false }, carrierMap := s.handling.carrierMap.set p none }
    ∧ (s.carrierGone p).handling = (s.dropMap p).handling
    ∧ ∀ k, ((s.carrierGone p).lot k).state = (s.lot k).state := by
  obtain ⟨-, -, handling, kept, -, -, states⟩ := State.orphans p slots25 (s.lineFallen p)
  have unlisted := foldl_unlisted (fun (s : State) n => s.orphan_unlisted ⟨p, n⟩) slots25 (s.lineFallen p)
  unfold State.carrierGone
  generalize slots25.foldl (fun (s : State) n => s.orphan ⟨p, n⟩) (s.lineFallen p) = u at *
  have unmapKept (u : State) : (u.unmap p).kept = u.kept := by cases p <;> rfl
  have dropKept : (u.dropMap p).kept = { u.kept with carrierMap := u.handling.carrierMap.set p none } := rfl
  refine ⟨(State.unlisted_revisit unlisted :), (State.unlisted_align unlisted :), ?_, ?_, fun k => ?_⟩
  · rw [unmapKept, dropKept, kept, handling]
    rfl
  · show (u.dropMap p).handling = _
    unfold State.dropMap
    rw [handling]
    rfl
  · refine Eq.trans ?_ (states k)
    cases k <;> cases p <;> rfl

theorem Wafer.orphaned_inside (x : Wafer) : x.orphaned.unmapped.state.isOutside = false := by
  have kept (y : Wafer) : y.unmapped.state = y.state := by
    unfold Wafer.unmapped
    split <;> rfl
  rw [kept]
  unfold Wafer.orphaned
  split
  · rfl
  · rename_i inside
    exact Bool.not_eq_true _ ▸ inside

/-- No wafer of a lost carrier is outside it in a non-final state (R38). -/
theorem State.carrierGone_inside {s : State} {p : Slot} (h : (s.lot p).wafers.length ≤ 25) : ((s.carrierGone p).lot p).anyOutside = false := by
  obtain ⟨listed, others⟩ := s.carrierGone_wafer p
  rw [← Bool.not_eq_true, Lot.anyOutside_iff]
  rintro ⟨n, hn⟩
  have there : ((s.carrierGone p).wafer ⟨p, n⟩).map (·.state.isOutside) = some true := hn
  by_cases range : 1 ≤ n ∧ n ≤ 25
  · rw [listed n range.1 range.2, Option.map_map] at there
    obtain ⟨x, -, outside⟩ := Option.map_eq_some_iff.1 there
    exact Bool.noConfusion (outside.symm.trans x.orphaned_inside)
  · have none : s.wafer ⟨p, n⟩ = none := by
      cases n with
      | zero => rfl
      | succ i =>
        refine List.getElem?_eq_none ?_
        have : (s.lot p).wafers.length ≤ i := by omega
        exact this
    rw [others n range, none] at there
    cases there

/-! ## CARRIER_LOSS (R34, R38) -/

/-- The loss's effect on the robot's put-back, and the halt. -/
def State.lossHalts (s : State) (outside putBack : Bool) : State :=
  if outside || putBack then (if putBack then s.setAt .ua .unknown else s).halt else if putBack then s.setAt .ua .unknown else s

/-- The lot of a lost carrier. -/
def State.lossAborts (s : State) (p : Slot) : State := if (s.lot p).state.takesPosts then s.abortLot p else s

theorem State.carrierLost_eq (s : State) (p : Slot) :
    s.carrierLost p = ((s.carrierGone p).lossAborts p).lossHalts (s.lot p).anyOutside (s.putBackFor p) := rfl

/-- What a halt leaves of the handling unit's orders. -/
theorem State.halt_orders (s : State) : s.halt.handling.mapper = s.handling.mapper ∧ s.halt.handling.mapRequest = s.handling.mapRequest
    ∧ s.halt.handling.carrierMap = s.handling.carrierMap := by
  unfold State.halt
  split
  case h_1 | h_2 | h_3 =>
    rw [State.enterHalted_handling]
    exact ⟨rfl, rfl, rfl⟩
  all_goals exact ⟨rfl, rfl, rfl⟩

theorem State.lossHalts_facts (s : State) (outside putBack : Bool) : (s.lossHalts outside putBack).unhalted = s.unhalted
    ∧ (s.lossHalts outside putBack).handling.mapper = s.handling.mapper
    ∧ (s.lossHalts outside putBack).handling.mapRequest = s.handling.mapRequest
    ∧ (s.lossHalts outside putBack).handling.carrierMap = s.handling.carrierMap
    ∧ (outside = true → s.handling.state ∈ [.idle, .busy, .hold] → (s.lossHalts outside putBack).handling.state = .halted) := by
  generalize hb : (if putBack then s.setAt .ua .unknown else s) = b
  have same : b.unhalted = s.unhalted ∧ b.handling.mapper = s.handling.mapper ∧ b.handling.mapRequest = s.handling.mapRequest
      ∧ b.handling.carrierMap = s.handling.carrierMap ∧ b.handling.state = s.handling.state := by
    rw [← hb]
    split <;> exact ⟨rfl, rfl, rfl, rfl, rfl⟩
  obtain ⟨unhalted, mapper, mapRequest, carrierMap, state⟩ := same
  have made : s.lossHalts outside putBack = if outside || putBack then b.halt else b := by
    rw [← hb]
    rfl
  rw [made]
  split
  · obtain ⟨mapper', mapRequest', carrierMap'⟩ := b.halt_orders
    refine ⟨b.halt_unhalted.trans unhalted, mapper'.trans mapper, mapRequest'.trans mapRequest, carrierMap'.trans carrierMap, fun _ orders => ?_⟩
    rw [State.halt_handling (by rw [state]; exact orders)]
  · rename_i quiet
    refine ⟨unhalted, mapper, mapRequest, carrierMap, fun out => ?_⟩
    rw [out] at quiet
    exact absurd rfl quiet

theorem exec_carrierLoss {s : State} {p : Slot} (h : s.cell.carrier.get p = true) :
    exec (.carrierLoss p) s = .next (s.after (s.begin.carrierLost p)) := by
  refine exec_after (by nofun) ?_
  show (if s.begin.carrierHere p then (s.begin.carrierLost p).settle else s.begin) = _
  exact if_pos h

theorem exec_carrierPresent {s : State} {p : Slot} (h : s.cell.carrier.get p = false) :
    exec (.carrierPresent p) s = .next (s.after (s.begin.carrierArrives p)) := by
  refine exec_after (by nofun) ?_
  show (if s.begin.carrierHere p then s.begin else (s.begin.carrierArrives p).settle) = _
  exact if_neg (by rw [State.carrierHere]; exact Bool.eq_false_iff.1 h)

theorem State.bare_handling {s t : State} (h : t.bare = s.bare) : t.handling = s.handling := (congrArg State.handling h :)
theorem State.unlisted_handling {s t : State} (h : t.unlisted = s.unlisted) : t.handling = s.handling := (congrArg State.handling h :)

/-- An abort's only change of the handling unit is that its port's MAP is no longer asked for (R29). -/
theorem State.abortLot_handling (s : State) (k : Slot) :
    (s.abortLot k).handling = { s.handling with mapRequest := s.handling.mapRequest.set k false } := by
  have begun : (s.abortBegun k).handling = ((s.setLotState k .aborting).setMapRequest k false).handling :=
    State.bare_handling (State.endQueuedOfLot_bare _ k _)
  have cut : (s.abortCut k).handling = (s.abortBegun k).handling := by
    unfold State.abortCut
    split
    · exact (Told.cutReview _ _ _).handling
    · rfl
  rw [State.unlisted_handling (s.abortLot_unlisted k), cut, begun]
  rfl

/-- The state in which a carrier's loss has taken its effect on the wafers and the lot. -/
theorem State.lossAborts_facts (s : State) (p : Slot) :
    ((s.carrierGone p).lossAborts p).kept = { s.kept with
      cell := { s.cell with carrier := s.cell.carrier.set p false }, carrierMap := s.handling.carrierMap.set p none }
    ∧ ((s.carrierGone p).lossAborts p).handling.mapper = (s.dropMap p).handling.mapper
    ∧ ((s.carrierGone p).lossAborts p).handling.mapRequest.get p = false
    ∧ ((s.carrierGone p).lossAborts p).handling.carrierMap = s.handling.carrierMap.set p none
    ∧ ((s.carrierGone p).lossAborts p).handling.state = s.handling.state := by
  obtain ⟨-, -, kept, handling, -⟩ := s.carrierGone_same p
  have asked : (s.carrierGone p).handling.mapRequest.get p = false := by
    rw [handling]
    exact (Two.get_set _ _ _ _).trans (if_pos rfl)
  unfold State.lossAborts
  generalize s.carrierGone p = g at *
  split
  · obtain ⟨-, unasked, -, same⟩ := g.abortLot_facts p
    refine ⟨same.trans kept, ?_, unasked, ?_, ?_⟩ <;> rw [State.abortLot_handling, handling] <;> rfl
  · refine ⟨kept, ?_, asked, ?_, ?_⟩ <;> rw [handling] <;> rfl

/-- The records of a lost carrier's wafers outside it. -/
theorem State.lossAborts_orphans {s : State} {p : Slot} {n : Nat} (low : 1 ≤ n) (high : n ≤ 25) {x : Wafer} (hx : s.wafer ⟨p, n⟩ = some x)
    (outside : x.state.isOutside = true) :
    ∃ y, ((s.carrierGone p).lossAborts p).wafer ⟨p, n⟩ = some y ∧ y.state = .orphaned ∧ y.finalResult = .aborted := by
  have gone := (s.carrierGone_wafer p).1 n low high
  rw [hx, Option.map_some] at gone
  have orphaned : x.orphaned.unmapped = { x with state := .orphaned, finalResult := .aborted } := by
    rw [Wafer.orphaned, if_pos outside]
    exact if_neg nofun
  rw [orphaned] at gone
  unfold State.lossAborts
  generalize s.carrierGone p = g at *
  split
  · obtain ⟨-, -, states, -⟩ := g.abortLot_facts p
    have home : g.waferState ⟨p, n⟩ = some .orphaned := by rw [State.waferState, gone]; rfl
    obtain ⟨y, hy, made⟩ := State.abortLot_record low high gone
    have state := states n low high _ home nofun
    rw [State.waferState, hy] at state
    exact ⟨y, hy, Option.some.inj state, made.final nofun⟩
  · exact ⟨_, gone, rfl, rfl⟩

/-- The lot of a lost carrier, aborted (R38). -/
theorem State.lossAborts_lot {s : State} {p : Slot} (h : (s.lot p).state.takesPosts = true) :
    (s.carrierGone p).lossAborts p = (s.carrierGone p).abortLot p := by
  obtain ⟨-, -, -, -, states⟩ := s.carrierGone_same p
  exact if_pos (by rw [states]; exact h)

theorem Quiescent.unhalted {s t : State} (h : Quiescent s) (same : t.unhalted = s.unhalted) : Quiescent t := by
  have revisit : t.revisit = s.revisit := (congrArg State.revisit same :)
  have align : t.align = s.align := (congrArg State.align same :)
  exact ⟨by rw [revisit]; exact h.active, by rw [revisit]; exact h.review, by rw [align]; exact h.align⟩

theorem EndsHere.unhalted {s t : State} {e : Entry} {why : EntryReason} (h : EndsHere s e why) (same : t.unhalted = s.unhalted) :
    EndsHere t e why :=
  h.of (congrArg (fun x : State => x.revisit.store) same :) (congrArg (fun x : State => x.scratch.touched) same :)

/-- The review of a wafer whose carrier is lost. -/
theorem State.lossAborts_cuts {s : State} {p : Slot} {w : WaferName} (named : s.revisit.wafer = some w) (slot : w.slot = p)
    (progress : s.revisit.review.inProgress = true) (posts : (s.lot p).state.takesPosts = true) :
    Quiescent ((s.carrierGone p).lossAborts p) ∧ ((s.carrierGone p).lossAborts p).revisit.review = .ended
    ∧ (s.align.state = .measuring → ((s.carrierGone p).lossAborts p).align.state = .failed
      ∧ ((s.carrierGone p).lossAborts p).align.reason = .lotAbort)
    ∧ (∀ x, s.wafer w = some x → ∃ y, ((s.carrierGone p).lossAborts p).wafer w = some y
      ∧ y.pendingResult = some (x.pendingResult.getD .aborted))
    ∧ ∀ a e, s.revisit.active = some a → s.storeEntry a.slot a.index = some e → e.state = .active →
      EndsHere ((s.carrierGone p).lossAborts p) e .lotAbort := by
  obtain ⟨revisit, align, -⟩ := s.carrierGone_same p
  obtain ⟨listed, others⟩ := s.carrierGone_wafer p
  rw [State.lossAborts_lot posts]
  generalize s.carrierGone p = g at *
  have cut : g.cutWith p w = true := by
    rw [State.cutWith, Bool.and_eq_true, decide_eq_true_eq, revisit]
    exact ⟨⟨named, slot⟩, progress⟩
  obtain ⟨quiescent, review, -, -, failed⟩ := State.abortLot_cuts cut
  refine ⟨quiescent, review, by rw [← align]; exact failed, fun x hx => ?_, fun a e ha he live => ?_⟩
  · obtain ⟨j, n⟩ := w
    obtain rfl : j = p := slot
    have gone : ∃ g', g.wafer ⟨j, n⟩ = some g' ∧ g'.pendingResult = x.pendingResult := by
      have pending (x : Wafer) : x.unmapped.pendingResult = x.pendingResult ∧ x.orphaned.pendingResult = x.pendingResult := by
        unfold Wafer.unmapped Wafer.orphaned
        repeat' split
        all_goals exact ⟨rfl, rfl⟩
      by_cases range : 1 ≤ n ∧ n ≤ 25
      · exact ⟨_, by rw [listed n range.1 range.2, hx]; rfl, (pending _).1.trans (pending x).2⟩
      · exact ⟨_, by rw [others n range, hx]; rfl, (pending x).1⟩
    obtain ⟨g', hg, same⟩ := gone
    obtain ⟨y, hy, pending, -⟩ := State.abortLot_reviewed cut hg
    exact ⟨y, hy, by rw [pending, same]⟩
  · exact State.abortLot_endsActive cut (by rw [revisit]; exact ha) (by rw [State.storeEntry, revisit]; exact he) live

/-- Settles O31: by the wafers orphaned, the lot's abort, and the halt. -/
theorem carrierLinesAreFollowed : Obligations.CarrierLinesAreFollowed := by
  refine fun s p => ⟨fun here => ⟨_, exec_carrierLoss here, ?_⟩, fun away => ⟨_, exec_carrierPresent away, ?_⟩, fun away => ?_, fun here => ?_⟩
  · obtain ⟨kept, mapper, unasked, map, state⟩ := s.begin.lossAborts_facts p
    have orphans (n : Nat) (low : 1 ≤ n) (high : n ≤ 25) (x : Wafer) := @State.lossAborts_orphans s.begin p n low high x
    have lost := @State.lossAborts_lot s.begin p
    have cuts (w : WaferName) := @State.lossAborts_cuts s.begin p w
    have inside := @State.carrierGone_inside s.begin p
    have aborts := (s.begin.carrierGone p).abortLot_facts p
    have aborting := (s.begin.carrierGone p).abortLot_lotState p
    have outsideAlike (n : Nat) := (s.begin.carrierGone p).abortLot_outside p ⟨p, n⟩
    rw [State.carrierLost_eq]
    generalize (s.begin.carrierGone p).lossAborts p = l at *
    obtain ⟨unhalted, mapper', mapRequest', map', halts⟩ := l.lossHalts_facts (s.begin.lot p).anyOutside (s.begin.putBackFor p)
    generalize l.lossHalts (s.begin.lot p).anyOutside (s.begin.putBackFor p) = r at *
    obtain ⟨mem, clock, cell, -, lots⟩ := State.unhalted_others unhalted
    have sensor : r.sensor = l.sensor := (congrArg State.sensor unhalted :)
    have mport : r.mport = l.mport := (congrArg State.mport unhalted :)
    have lot (k : Slot) : r.lot k = l.lot k := by rw [State.lot, lots]; rfl
    have settled := r.settle_kept
    have quiet := quiet_settle (.refl r)
    have unasked : r.handling.mapRequest.get p = false := by rw [mapRequest']; exact unasked
    have ordered (posts : (s.lot p).state.takesPosts = true) : (r.lot p).state = .aborting := by
      rw [lot, lost posts]
      exact aborting
    refine ⟨?_, ?_, ?_, ?_, fun posts fetch length => ?_, fun posts => ?_, fun n low high x hx outside => ?_,
      fun w named slot progress posts => ?_, fun outside orders => ?_, ?_, ?_, ?_, ?_⟩
    · rw [State.after, State.finish_cell]
      exact (congrArg Kept.cell settled).trans (cell.trans (congrArg Kept.cell kept))
    · rw [State.after, State.finish_handling]
      exact (congrArg Kept.carrierMap settled).trans (map'.trans map)
    · rw [State.after, State.finish_handling]
      exact quiet.handling.mapRequest p unasked
    · rw [State.after, State.finish_handling, State.settle_mapper unasked, mapper', mapper]
      exact (Two.get_set _ _ _ _).trans (if_pos rfl)
    · rw [State.after, State.finish_lot]
      refine ended_settle (.inr ⟨ordered posts, ?_, ?_⟩)
      · rw [lot]
        exact (congrArg LotKept.fetch (State.lot_kept (s := { s.begin with
          cell := { s.cell with carrier := s.cell.carrier.set p false }
          handling := { s.handling with carrierMap := s.handling.carrierMap.set p none } }) kept p)).trans fetch
      · rw [lot, lost posts, anyOutside_congr outsideAlike]
        exact inside length
    · have reached := (quiet.lots p).state
      rw [State.after, State.finish_lot]
      rw [show (r.lots.get p).state = .aborting from ordered posts] at reached
      show (r.settle.lots.get p).state = .aborting ∨ (r.settle.lots.get p).state = .aborted
      revert reached
      cases (r.settle.lots.get p).state <;> simp [LotState.mayBecome]
    · obtain ⟨y, hy, orphaned, result⟩ := orphans n low high x hx outside
      obtain ⟨z, hz, step⟩ := s.after_wafer (u := r) ((State.wafer_congr lots _).trans hy)
      exact ⟨z, hz, (step.state (by rw [orphaned]; nofun)).1.trans orphaned, (congrArg WaferCore.finalResult step.core :).trans result⟩
    · obtain ⟨quiescent, review, failed, record, ends⟩ := cuts w named slot progress posts
      have quiescent := quiescent.unhalted unhalted
      have revisit : r.revisit = l.revisit := (congrArg State.revisit unhalted :)
      have align : r.align = l.align := (congrArg State.align unhalted :)
      obtain ⟨review', active', -, align', -, wafers⟩ := s.after_settled quiescent
      refine ⟨?_, ?_, fun measuring => ?_, fun x hx => ?_, fun a e ha he live => ?_⟩
      · rw [review', revisit]
        exact review
      · rw [active']
        exact quiescent.active
      · rw [align', align]
        exact failed measuring
      · obtain ⟨y, hy, pending⟩ := record x hx
        exact ⟨y, (wafers w).trans ((State.wafer_congr lots _).trans hy), pending⟩
      · refine s.after_ended quiescent fun x hx => ?_
        obtain rfl := List.mem_singleton.1 hx
        exact (ends a x ha he live).unhalted unhalted
    · have halted := halts outside (by rw [state]; exact orders)
      rw [s.after_stopped (by rw [halted]; rfl)]
      exact halted
    · rw [State.after, State.finish_mem]
      exact (congrArg Kept.mem settled).trans (mem.trans (congrArg Kept.mem kept))
    · rw [State.after, State.finish_clock]
      exact (congrArg Kept.clock settled).trans (clock.trans (congrArg Kept.clock kept))
    · rw [State.after, State.finish_sensor]
      exact (congrArg Kept.sensor settled).trans (sensor.trans (congrArg Kept.sensor kept))
    · rw [State.after, State.finish_requests]
      exact (congrArg (fun k : Kept => k.mport.requests) settled).trans
        ((congrArg MPort.requests mport).trans (congrArg (fun k : Kept => k.mport.requests) kept))
  · exact s.after_content_kept rfl
  · refine exec_nothing (by nofun) ?_
    show (if s.begin.carrierHere p then (s.begin.carrierLost p).settle else s.begin) = _
    exact if_neg (Bool.eq_false_iff.1 away)
  · refine exec_nothing (by nofun) ?_
    show (if s.begin.carrierHere p then s.begin else (s.begin.carrierArrives p).settle) = _
    exact if_pos here

end Sys2Proof.Machine
end

section
/-! SUPPORT. A lot released, and the start fetch's last word: O25, O26. -/

namespace Sys2Proof.Machine

/-! ## The class lock of a slot whose lot does not end -/

theorem State.closeRow_other {s : State} {w : WaferName} {k : Slot} (h : k ≠ w.slot) : (s.closeRow w).report k = s.report k := by
  by_cases opened : s.rowOpen w = true
  · rw [State.closeRow_eq opened]
    obtain ⟨j, n⟩ := w
    cases j <;> cases k <;> first | rfl | exact absurd rfl h
  · rw [State.closeRow, if_neg opened]

theorem State.closeReport_other {s : State} {j k : Slot} (h : k ≠ j) : (s.closeReport j).report k = s.report k := by
  have rows (l : List Nat) : ∀ s : State, (l.foldl (fun (s : State) n => s.closeRow ⟨j, n⟩) s).report k = s.report k := by
    induction l with
    | nil => exact fun _ => rfl
    | cons n l ih => exact fun s => (ih _).trans (State.closeRow_other h)
  have raised (s : State) (n : NoticeKind) : (s.raise n).report k = s.report k := by
    unfold State.raise
    split <;> rfl
  unfold State.closeReport
  dsimp only
  have closed := rows slots25 s
  rw [raised, raised]
  generalize slots25.foldl (fun (s : State) n => s.closeRow ⟨j, n⟩) s = c at closed ⊢
  rw [← closed]
  cases j <;> cases k <;> first | rfl | exact absurd rfl h

/-- A slot without a lot. -/
structure Vacant (k : Slot) (s : State) : Prop where
  state : (s.lot k).state = .empty
  classLock : (s.report k).classLock = []

theorem Vacant.told {k : Slot} {s t : State} (h : Vacant k s) (g : Told s t) : Vacant k t :=
  ⟨(g.lots k).trans h.state, (g.classLock k).trans h.classLock⟩

theorem Vacant.lotChange {k : Slot} {s : State} (h : Vacant k s) (j : Slot) : Vacant k (s.lotChange j) := by
  by_cases here : j = k
  · subst here
    have same : s.lotChange j = s := by simp only [State.lotChange, h.state]
    rw [same]
    exact h
  · refine ⟨by rw [State.lotChange_lot here]; exact h.state, ?_⟩
    have other : (s.lotChange j).report k = s.report k := by
      unfold State.lotChange
      dsimp only
      repeat' split
      all_goals first
        | rfl
        | exact (State.closeReport_other (Ne.symm here)).trans rfl
    rw [other]
    exact h.classLock

theorem Vacant.lotPass {k : Slot} {s : State} (h : Vacant k s) : Vacant k s.lotPass := by
  have passes (l : List Nat) : ∀ s : State, Vacant k s → Vacant k (l.foldl (fun (s : State) _ => (s.lotChange .zero).lotChange .one) s) := by
    induction l with
    | nil => exact fun _ h => h
    | cons n l ih => exact fun s h => ih _ ((h.lotChange _).lotChange _)
  exact passes _ s h

theorem Vacant.settle {k : Slot} {s : State} (h : Vacant k s) : Vacant k s.settle := by
  have passed := (h.told (Told.drain s)).lotPass
  have still := s.drain.lotPass.sends_still
  have lots : s.drain.lotPass.sends.lots = s.drain.lotPass.lots := (congrArg State.lots still :)
  have reports : s.drain.lotPass.sends.reports = s.drain.lotPass.reports := (congrArg State.reports still :)
  have sent : Vacant k s.drain.lotPass.sends :=
    ⟨by rw [State.lot, lots]; exact passed.state, by rw [State.report, reports]; exact passed.classLock⟩
  exact sent.told (Told.drain _)

/-! ## RELEASE taken (R18, R172) -/

theorem keepAll_same (l : List RecId) : ∀ s : State, ∃ wb, l.foldl State.keep s = { s with wb := wb } := by
  induction l with
  | nil => exact fun s => ⟨s.wb, rfl⟩
  | cons id l ih =>
    intro s
    have kept : ∃ wb, s.keep id = { s with wb := wb } := by
      unfold State.keep
      split
      · exact ⟨_, rfl⟩
      · exact ⟨s.wb, rfl⟩
    obtain ⟨wb, kept⟩ := kept
    obtain ⟨wb', rest⟩ := ih (s.keep id)
    exact ⟨wb', by rw [List.foldl_cons, rest, kept]⟩

theorem Two.get_other (x : Two α) (k : Slot) (a : α) : (x.set k a).get k.other = x.get k.other := by
  cases k <;> rfl

/-- A RELEASE's own effect (R18, R172). -/
structure Released (s u : State) (k : Slot) : Prop where
  lot : u.lots = s.lots.set k { s.lot k with state := .empty, fetch := none, recipe := none, wafers := [] }
  report : (u.report k).state = .released ∧ (u.report k).rows = [] ∧ (u.report k).classLock = []
  locks : u.path.startLock.get k = false ∧ u.path.closedLock.get k = false
  slots : ∀ n, 1 ≤ n → n ≤ 25 → u.at (.carrier k n) = if (s.at (.carrier k n)).ofSlot k then .empty else s.at (.carrier k n)
  places : ∀ l ∈ outsidePlaces, u.at l = if (s.at l).ofSlot k then .unknown else s.at l
  others : u.mem = s.mem ∧ u.clock = s.clock ∧ u.cell = s.cell ∧ u.sensor = s.sensor ∧ u.classTable = s.classTable

/-- The slot's rows, class lock, recipe and wafers dropped, and its locks lifted (R18, R172). -/
def State.slotEmptied (s : State) (k : Slot) : State :=
  let s := s.modReport k fun r => { r with rows := [], classLock := [] }
  let s := s.setRevisit { s.revisit with store := s.revisit.store.map fun e => if e.slot = k then { e with bin := none } else e }
  let s := s.modLot k fun l => { l with state := .empty, fetch := none, recipe := none, wafers := [] }
  (s.setStartLock k false).setClosedLock k false

/-- The slot's report RELEASED, the words of its records kept (R172, R178). -/
def State.slotDropped (s : State) (k : Slot) : State := (releasedIds k).foldl State.keep (s.modReport k fun r => { r with state := .released })

theorem State.releaseLot_eq (s : State) (k : Slot) : s.releaseLot k = ((s.slotDropped k).releasePlaces k).slotEmptied k := by
  unfold State.releaseLot State.slotDropped State.slotEmptied
  rfl

theorem State.slotDropped_same (s : State) (k : Slot) : ∃ wb, s.slotDropped k = { s.modReport k (fun r => { r with state := .released }) with wb := wb } :=
  keepAll_same _ _

theorem State.slotEmptied_facts (s : State) (k : Slot) :
    (s.slotEmptied k).lots = s.lots.set k { s.lot k with state := .empty, fetch := none, recipe := none, wafers := [] }
    ∧ ((s.slotEmptied k).report k).state = (s.report k).state ∧ ((s.slotEmptied k).report k).rows = []
    ∧ ((s.slotEmptied k).report k).classLock = []
    ∧ (s.slotEmptied k).path.startLock.get k = false ∧ (s.slotEmptied k).path.closedLock.get k = false
    ∧ (s.slotEmptied k).handling = s.handling := by
  cases k <;> exact ⟨rfl, rfl, rfl, rfl, rfl, rfl, rfl⟩

theorem State.releaseLot_facts (s : State) (k : Slot) : Released s (s.releaseLot k) k := by
  obtain ⟨wb, dropped⟩ := s.slotDropped_same k
  obtain ⟨same, slots, places⟩ := (s.slotDropped k).releasePlaces_facts k
  rw [State.releaseLot_eq]
  have table (l : Loc) : (s.slotDropped k).at l = s.at l := by rw [dropped]; rfl
  have lots : ((s.slotDropped k).releasePlaces k).lots = s.lots := by rw [same.lots, dropped]; rfl
  have state : (((s.slotDropped k).releasePlaces k).report k).state = .released := by
    rw [(same.reports k).2, dropped]
    cases k <;> rfl
  have frame : ((s.slotDropped k).releasePlaces k).mem = s.mem ∧ ((s.slotDropped k).releasePlaces k).clock = s.clock
      ∧ ((s.slotDropped k).releasePlaces k).cell = s.cell ∧ ((s.slotDropped k).releasePlaces k).sensor = s.sensor
      ∧ ((s.slotDropped k).releasePlaces k).classTable = s.classTable := by
    rw [same.mem, same.clock, same.cell, same.sensor, same.classTable, dropped]
    exact ⟨rfl, rfl, rfl, rfl, rfl⟩
  simp only [table] at slots places
  generalize (s.slotDropped k).releasePlaces k = p at *
  obtain ⟨emptied, reported, rows, classLock, startLock, closedLock, handling⟩ := p.slotEmptied_facts k
  have there (l : Loc) : (p.slotEmptied k).at l = p.at l := State.at_congr (congrArg Handling.table handling) l
  refine ⟨?_, ⟨reported.trans state, rows, classLock⟩, ⟨startLock, closedLock⟩, fun n low high => (there _).trans (slots n low high),
    fun l hl => (there l).trans (places l hl), frame⟩
  rw [emptied, State.lot, lots]
  rfl

theorem State.releaseRequest_ended {s : State} {k : Slot} (h : (s.lot k).state = .done ∨ (s.lot k).state = .aborted) :
    s.releaseRequest k = (s.releaseLot k).settle := by
  unfold State.releaseRequest
  obtain h | h := h <;> rw [h]

/-- Settles O25. -/
theorem releaseEmptiesTheSlot : Obligations.ReleaseEmptiesTheSlot := by
  refine fun s k h ended => ⟨_, exec_lotRequest h rfl, ?_⟩
  have ended : (s.begin.lot k).state = .done ∨ (s.begin.lot k).state = .aborted := ended
  rw [State.lotRequest_release, State.releaseRequest_ended ended]
  obtain ⟨lots, ⟨state, rows, classLock⟩, ⟨startLock, closedLock⟩, slots, places, mem, clock, cell, sensor, classTable⟩ :=
    s.begin.releaseLot_facts k
  generalize s.begin.releaseLot k = u at *
  have quiet := quiet_settle (.refl u)
  have vacant : Vacant k u := ⟨by rw [State.lot, lots]; cases k <;> rfl, classLock⟩
  have settled := vacant.settle
  have kept := u.settle_kept
  generalize u.settle = v at *
  have lot : u.lot k = { s.lot k with state := .empty, fetch := none, recipe := none, wafers := [] } := by
    rw [State.lot, lots]
    cases k <;> rfl
  have other : u.lot k.other = s.lot k.other := by
    rw [State.lot, lots]
    exact Two.get_other _ _ _
  have same : (v.lots.get k).state = (u.lots.get k).state := settled.state.trans vacant.state.symm
  obtain ⟨reported, startLock', closedLock'⟩ := quiet.closing k same
  have place (l : Loc) : v.at l = u.at l := State.at_congr (congrArg Kept.table kept) l
  simp only [State.finish_lot, State.finish_report, State.finish_path, State.finish_at, State.finish_mem, State.finish_clock,
    State.finish_cell, State.finish_sensor, State.finish_classTable]
  refine ⟨settled.state, ?_, ?_, ?_, ?_, reported.trans state, ?_, settled.classLock, startLock'.trans startLock, closedLock'.trans closedLock,
    fun n low high => (place _).trans (slots n low high), fun l hl => (place l).trans (places l hl), rfl,
    (congrArg Kept.mem kept).trans mem, (congrArg Kept.clock kept).trans clock, (congrArg Kept.cell kept).trans cell,
    (congrArg Kept.sensor kept).trans sensor, (congrArg Kept.classTable kept).trans classTable⟩
  · exact (State.lot_kept kept k).trans (by rw [lot]; rfl)
  · refine List.length_eq_zero_iff.1 ((quiet.lots k).wafers.trans ?_)
    exact (congrArg (fun l : Lot => l.wafers.length) lot :)
  · exact (State.lot_kept kept k.other).trans (by rw [other])
  · have becomes := (quiet.lots k.other).state
    rw [show (u.lots.get k.other) = s.lot k.other from other] at becomes
    exact becomes
  · have counted : (v.report k).rows.map (·.kept) = (u.report k).rows.map (·.kept) :=
      congrArg ReportKept.rows (State.report_kept kept k)
    rw [rows] at counted
    exact List.map_eq_nil_iff.1 counted

/-! ## The start fetch's last word (R3, R4, R7, R16) -/

/-- The state in which a start fetch has taken one more word. -/
def State.fetchTakes (s : State) (k : Slot) (got : List (FetchItem × Word)) : State :=
  s.begin.endService.modLot k fun l => { l with fetch := some got }

theorem exec_startFetchReadDone {s : State} {ws : Windows} {k : Slot} {it : FetchItem} {rest : List PartRequest}
    {before got : List (FetchItem × Word)} (hws : s.path.windows = some ws) (hs : s.mport.serving = some .part)
    (hq : s.mport.requests = .startFetch k it :: rest) (hf : (s.lot k).fetch = some before)
    (hgot : got = before ++ [(it, s.mem.readWord (ws.itemAddress k it))]) :
    exec .startFetchReadDone s = .next (State.finish s
      (if fetchComplete got then ((s.fetchTakes k got).fetchDone k got).settle else s.fetchTakes k got)) := by
  have served : s.begin.served = some (.startFetch k it) := State.served_part (s := s.begin) hs hq
  have windows : s.begin.path.windows = some ws := hws
  have fetch : (s.begin.lot k).fetch = some before := hf
  subst hgot
  show Host.Outcome.next (State.finish s s.begin.serveStartFetch) = _
  simp only [State.serveStartFetch, served, windows, fetch]
  rfl

theorem exec_startFetchLast {s : State} {ws : Windows} {k : Slot} {it : FetchItem} {rest : List PartRequest}
    {before got : List (FetchItem × Word)} (hws : s.path.windows = some ws) (hs : s.mport.serving = some .part)
    (hq : s.mport.requests = .startFetch k it :: rest) (hf : (s.lot k).fetch = some before)
    (hgot : got = before ++ [(it, s.mem.readWord (ws.itemAddress k it))]) (last : fetchComplete got = true) :
    exec .startFetchReadDone s = .next (s.after ((s.fetchTakes k got).fetchDone k got)) := by
  rw [exec_startFetchReadDone hws hs hq hf hgot, if_pos last]
  rfl

theorem State.fetchTakes_same (s : State) (k : Slot) (got : List (FetchItem × Word)) :
    (s.fetchTakes k got).lot k = { s.lot k with fetch := some got } ∧ (s.fetchTakes k got).lot k.other = s.lot k.other := by
  cases k <;> exact ⟨rfl, rfl⟩

/-- A lot's table built and its report opened, the lot itself first changed by `f`. -/
theorem State.built (s : State) (k : Slot) (got : List (FetchItem × Word)) (aborted : Bool) (f : Lot → Lot) {u : State}
    (hu : u = ((s.modLot k f).buildWafers k got aborted).openReport k got aborted) :
    u.lot k = { f (s.lot k) with wafers := slots25.map fun n => Wafer.fresh (selectedOf got n) aborted }
    ∧ (u.report k).rows.length = 25 ∧ (u.report k).startClock = s.clock ∧ u.handling.mapRequest = s.handling.mapRequest ∧ u.mport = s.mport
    ∧ (∀ n, 1 ≤ n → n ≤ 25 → u.waferState ⟨k, n⟩ = some (Wafer.fresh (selectedOf got n) aborted).state)
    ∧ ∀ n, 1 ≤ n → n ≤ 25 → selectedOf got n = true → n ≤ (s.handling.table.carriers.get k).length → u.at (.carrier k n) = .wafer ⟨k, n⟩ := by
  obtain ⟨lots, rows, clock, mapRequest, mport, places⟩ := build_facts (s.modLot k f) k got aborted
  rw [← hu] at lots rows clock mapRequest mport places
  have lot : u.lot k = { f (s.lot k) with wafers := slots25.map fun n => Wafer.fresh (selectedOf got n) aborted } := by
    rw [State.lot, lots]
    cases k <;> rfl
  refine ⟨lot, by rw [rows, List.length_map]; rfl, clock, mapRequest, mport, fun n low high => ?_,
    fun n low high chosen there => places n low high chosen ⟨low, there⟩⟩
  have record : u.wafer ⟨k, n⟩ = some (Wafer.fresh (selectedOf got n) aborted) := by
    show getAt (u.lot k).wafers n = _
    rw [lot]
    exact getAt_slots25 (fun n => Wafer.fresh (selectedOf got n) aborted) low high
  rw [State.waferState, record]
  rfl

theorem State.fetchDone_refused {s : State} {k : Slot} {got : List (FetchItem × Word)} {code : RefusalCode} {field : Nat}
    (hs : (s.lot k).state = .starting) (hc : s.startCheck k got = some (code, field)) : s.fetchDone k got = s.refuseStart k code field := by
  simp only [State.fetchDone, hs, hc]

theorem State.fetchDone_started {s : State} {k : Slot} {got : List (FetchItem × Word)} (hs : (s.lot k).state = .starting)
    (hc : s.startCheck k got = none) : s.fetchDone k got = s.startLot k got := by
  simp only [State.fetchDone, hs, hc]

theorem State.fetchDone_aborted {s : State} {k : Slot} {got : List (FetchItem × Word)} (hs : (s.lot k).state = .aborting) :
    s.fetchDone k got = s.buildAborted k got := by
  simp only [State.fetchDone, hs]

/-- A wafer not on the stage is so when the step is over. -/
theorem State.after_waferOff (s : State) {u : State} {w : WaferName} {st : WaferState} (h : u.waferState w = some st) (off : st ≠ .onStage) :
    (s.after u).waferState w = some st := by
  rw [State.after, State.finish_waferState, (quiet_settle (.refl u)).waferState_eq w (by rw [h]; exact fun same => off (Option.some.inj same)), h]

theorem State.after_lotKept (s u : State) (k : Slot) : ((s.after u).lot k).kept = (u.lot k).kept := by
  rw [State.after, State.finish_lot]
  exact State.lot_kept u.settle_kept k

theorem State.after_lotState (s u : State) (k : Slot) : (u.lot k).state.mayBecome ((s.after u).lot k).state = true := by
  rw [State.after, State.finish_lot]
  exact ((quiet_settle (.refl u)).lots k).state

theorem State.after_requests (s u : State) : (s.after u).mport.requests = u.mport.requests := by
  rw [State.after, State.finish_requests]
  exact congrArg (fun k : Kept => k.mport.requests) u.settle_kept

theorem State.after_at (s u : State) (l : Loc) : (s.after u).at l = u.at l := by
  rw [State.after, State.finish_at]
  exact State.at_congr (congrArg Kept.table u.settle_kept) l

theorem State.after_reportKept (s u : State) (k : Slot) : ((s.after u).report k).kept = (u.report k).kept := by
  rw [State.after, State.finish_report]
  exact State.report_kept u.settle_kept k

theorem Report.kept_rows {r q : Report} (h : q.kept = r.kept) : q.rows.length = r.rows.length := by
  have := congrArg (fun k : ReportKept => k.rows.length) h
  rw [Report.kept, Report.kept, List.length_map, List.length_map] at this
  exact this

/-- A fresh table has no wafer outside its carrier. -/
theorem fresh_inside (got : List (FetchItem × Word)) (aborted : Bool) (l : List Nat) :
    (l.map fun n => Wafer.fresh (selectedOf got n) aborted).any (fun x => x.state.isOutside) = false := by
  rw [List.any_eq_false]
  intro x hx
  obtain ⟨n, -, rfl⟩ := List.mem_map.1 hx
  unfold Wafer.fresh
  dsimp only
  repeat' split
  all_goals nofun

/-- Settles O26. -/
theorem startFetchEndsInTheLotOrItsRefusal : Obligations.StartFetchEndsInTheLotOrItsRefusal := by
  intro s ws k it rest before got hws hs hq hf hgot
  obtain ⟨lot, other⟩ := s.fetchTakes_same k got
  have left : (s.fetchTakes k got).mport.requests = rest := congrArg List.tail hq
  have same : (s.fetchTakes k got).handling = s.handling ∧ (s.fetchTakes k got).report k = s.report k
      ∧ (s.fetchTakes k got).clock = s.clock := ⟨rfl, rfl, rfl⟩
  obtain ⟨handling, report, clock⟩ := same
  have check : (s.fetchTakes k got).startCheck k got = s.startCheck k got := rfl
  refine ⟨fun more => ⟨_, exec_startFetchReadDone hws hs hq hf hgot, ?_⟩,
    fun last starting code field failed => ⟨_, exec_startFetchLast hws hs hq hf hgot last, ?_⟩,
    fun last starting passed => ⟨_, exec_startFetchLast hws hs hq hf hgot last, ?_⟩,
    fun last aborting => ⟨_, exec_startFetchLast hws hs hq hf hgot last, ?_⟩⟩
  · rw [if_neg (by rw [more]; nofun), State.finish_content, ← left]
    rfl
  · rw [State.fetchDone_refused (by rw [lot]; exact starting) (check.trans failed)]
    generalize s.fetchTakes k got = b at *
    have refused : (b.refuseStart k code field).lot k = { b.lot k with state := .empty, refusal := code, badField := field, fetch := none }
        ∧ (b.refuseStart k code field).path.startLock.get k = false ∧ (b.refuseStart k code field).report k = b.report k := by
      cases k <;> exact ⟨rfl, rfl, rfl⟩
    obtain ⟨refusedLot, unlocked, reported⟩ := refused
    have vacant : ((s.after (b.refuseStart k code field)).lot k).state = .empty := by
      have becomes := s.after_lotState (b.refuseStart k code field) k
      rw [refusedLot] at becomes
      revert becomes
      cases ((s.after (b.refuseStart k code field)).lot k).state <;> simp [LotState.mayBecome]
    have quiet := quiet_settle (.refl (b.refuseStart k code field))
    obtain ⟨reportState, startLock, -⟩ := quiet.closing k (by
      rw [State.after, State.finish_lot] at vacant
      exact vacant.trans (congrArg Lot.state refusedLot).symm)
    refine ⟨vacant, ?_, ?_, ?_, ?_, ?_⟩
    · rw [State.after_lotKept, refusedLot, lot]
      rfl
    · rw [State.after, State.finish_path]
      exact startLock.trans unlocked
    · rw [State.after_requests]
      exact left
    · rw [State.after, State.finish_handling]
      exact (congrArg Kept.table quiet.kept).trans (congrArg Handling.table handling)
    · rw [State.after, State.finish_report]
      exact reportState.trans ((congrArg Report.state reported).trans (congrArg Report.state report))
  · rw [State.fetchDone_started (by rw [lot]; exact starting) (check.trans passed)]
    generalize s.fetchTakes k got = b at *
    obtain ⟨u, hu⟩ : ∃ u, u = ((b.modLot k fun l => { l with
        state := if (b.lot k.other).state = .running then .queued else .running, fetch := none
        recipe := some (recipeOf got) }).buildWafers k got false).openReport k got false := ⟨_, rfl⟩
    obtain ⟨builtLot, rows, start, -, mport, wafers, places⟩ := b.built k got false _ hu
    have started : b.startLot k got = u.setMapRequest k true := by
      rw [hu]
      rfl
    rw [started]
    have asked : (u.setMapRequest k true).handling.mapRequest.get k = true := (Two.get_set _ _ _ _).trans (if_pos rfl)
    have becomes := s.after_lotState (u.setMapRequest k true) k
    refine ⟨?_, ?_, fun n low high => ?_, fun n low high chosen there => ?_, ?_, ?_, ?_, ?_⟩
    · rw [show (u.setMapRequest k true).lot k = u.lot k from rfl, builtLot, other] at becomes
      exact becomes
    · rw [State.after_lotKept, show (u.setMapRequest k true).lot k = u.lot k from rfl, builtLot, lot]
      rfl
    · have fresh : (u.setMapRequest k true).waferState ⟨k, n⟩ = some (if selectedOf got n then .waiting else .skipped) := wafers n low high
      exact s.after_waferOff fresh (by split <;> nofun)
    · rw [State.after_at]
      exact places n low high chosen (by rw [handling]; exact there)
    · rw [Report.kept_rows (s.after_reportKept _ k)]
      exact rows
    · have startKept := congrArg ReportKept.startClock (s.after_reportKept (u.setMapRequest k true) k)
      exact (startKept.trans start).trans clock
    · rw [State.after, State.finish_handling]
      exact (quiet_settle (.refl _)).handling.mapAsked k (.inl asked)
    · rw [State.after_requests]
      exact (congrArg MPort.requests mport).trans left
  · rw [State.fetchDone_aborted (by rw [lot]; exact aborting)]
    generalize s.fetchTakes k got = b at *
    obtain ⟨u, hu⟩ : ∃ u, u = ((b.modLot k fun l => { l with fetch := none, recipe := some (recipeOf got) }).buildWafers k got true).openReport
        k got true := ⟨_, rfl⟩
    obtain ⟨builtLot, rows, -, -, mport, wafers, -⟩ := b.built k got true _ hu
    have made : b.buildAborted k got = u := hu.symm
    rw [made]
    refine ⟨?_, ?_, fun n low high => ?_, ?_, ?_⟩
    · rw [State.after, State.finish_lot]
      refine ended_settle (.inr ?_)
      rw [builtLot, lot]
      exact ⟨aborting, rfl, fresh_inside got true slots25⟩
    · rw [State.after_lotKept, builtLot, lot]
      rfl
    · exact s.after_waferOff (wafers n low high) (by split <;> nofun)
    · rw [Report.kept_rows (s.after_reportKept _ k)]
      exact rows
    · rw [State.after_requests]
      exact (congrArg MPort.requests mport).trans left

end Sys2Proof.Machine
end

section
/-! SUPPORT. The last fill of a post: its checks, its record, and its place in the store (O41). -/

namespace Sys2Proof.Machine

/-! ## A post whose words are gathered (R126) -/

/-- The state `m` in which a post is checked, its words gathered into `e`, against the state `s` that a claim speaks of. -/
structure Gathered (s m : State) (e : Entry) (rs : List PartRequest) (v : Word) : Prop where
  lots : m.lots = s.lots
  rows : ∀ k, (m.report k).rows = (s.report k).rows
  reports : ∀ k, (m.report k).state = (s.report k).state
  unattributed : ∀ k, (m.report k).unattributed = (s.report k).unattributed
  store : m.revisit.store = s.revisit.store
  review : m.revisit.review = s.revisit.review
  reviewed : m.revisit.wafer = s.revisit.wafer
  windows : m.path.windows = s.path.windows
  direct : m.wb.direct = s.wb.direct
  requests : m.mport.requests = rs
  fresh : ∀ x ∈ m.revisit.store, x.is e.slot e.index = false
  version : (if m.scratch.versioned.contains e.id then m.version e.id else m.version e.id + 1) = v

theorem Gathered.row {s m : State} {e : Entry} {rs : List PartRequest} {v : Word} (h : Gathered s m e rs v) (w : WaferName) :
    m.row w = s.row w := by
  rw [State.row, State.row, h.rows]

theorem Gathered.rowOpen {s m : State} {e : Entry} {rs : List PartRequest} {v : Word} (h : Gathered s m e rs v) (w : WaferName) :
    m.rowOpen w = s.rowOpen w := by
  rw [State.rowOpen, State.rowOpen, h.row]

theorem Gathered.recipe {s m : State} {e : Entry} {rs : List PartRequest} {v : Word} (h : Gathered s m e rs v) (k : Slot) :
    m.recipe k = s.recipe k := by
  simp only [State.recipe, State.lot, h.lots]

theorem Gathered.postCheck {s m : State} {e : Entry} {rs : List PartRequest} {v : Word} (h : Gathered s m e rs v) :
    m.postCheck e = s.postCheck e := by
  have closed : m.rowClosed e.wafer = s.rowClosed e.wafer := by rw [State.rowClosed, State.rowClosed, h.row]
  have taken : m.idTaken e.slot e.defectId = s.idTaken e.slot e.defectId := by rw [State.idTaken, State.idTaken, h.store]
  have lot : m.lot e.slot = s.lot e.slot := by rw [State.lot, h.lots]; rfl
  simp only [State.postCheck, closed, taken, lot, h.recipe, h.store, State.wafer_congr h.lots]

/-! ## Refusals (R127, R128, R184) -/

/-- A state without the direct writes and the M-port's requests. -/
def State.unqueued (s : State) : State := { s with wb := { s.wb with direct := [] }, mport := { s.mport with requests := [] } }

theorem State.enterDirect_unqueued (s : State) : s.enterDirect.unqueued = s.unqueued := by
  have general (n : Nat) : ∀ s : State, (State.enterDirectFor n s).unqueued = s.unqueued := by
    induction n with
    | zero => exact fun _ => rfl
    | succ n ih =>
      intro s
      unfold State.enterDirectFor
      split
      · split
        · exact (ih _).trans rfl
        · rfl
      · rfl
  exact general _ s

/-- The words of a refused post are added to the direct writes. -/
theorem State.addDirect_facts (s : State) (e : Entry) : (s.addDirect e).wb.direct = s.wb.direct ++ [⟨e.id, e.image⟩]
    ∧ (s.addDirect e).wb.dirty = s.wb.dirty.filter (fun d => d.id != e.id)
    ∧ (s.addDirect e).version e.id = (if s.scratch.versioned.contains e.id then s.version e.id else s.version e.id + 1)
    ∧ (s.addDirect e).revisit = s.revisit ∧ (s.addDirect e).reports = s.reports ∧ (s.addDirect e).mport = s.mport
    ∧ (s.addDirect e).path = s.path ∧ (s.addDirect e).lots = s.lots ∧ (s.addDirect e).mem = s.mem ∧ (s.addDirect e).clock = s.clock := by
  unfold State.addDirect
  dsimp only
  split
  · exact ⟨rfl, rfl, rfl, rfl, rfl, rfl, rfl, rfl, rfl, rfl⟩
  · refine ⟨rfl, rfl, ?_, rfl, rfl, rfl, rfl, rfl, rfl, rfl⟩
    simp [State.version, State.setVersion, versionIn, putVersion]

/-- The words that the one direct write puts into the queue (R184). -/
theorem State.moveDirect_words {s : State} {ws : Windows} {e : Entry} (gone : s.entry e.slot e.index = none)
    (hd : s.wb.direct = [⟨e.id, e.image⟩]) :
    (s.moveDirect ws ⟨e.id, e.image⟩ []).mport.requests = s.mport.requests ++ e.postWords ws (s.version e.id) := by
  have unowned : s.ownerImage e.id = none := by
    unfold State.ownerImage
    split
    · show (s.entry e.slot e.index).map (·.image) = none
      rw [gone]
      rfl
    · rfl
  have held : s.heldImage e.id = some e.image := by
    rw [State.heldImage, unowned, hd]
    simp [findImage]
  have word (w : Nat) : s.heldWord e.id w = if w = 15 then some (s.version e.id) else e.image.get w := by
    rw [State.heldWord, held]
    rfl
  have moved : (s.moveDirect ws ⟨e.id, e.image⟩ []).mport.requests
      = s.mport.requests ++ queueWords ws e.id (s.heldWord e.id) [8, 9, 10, 11, 12, 13, 14, 15] := rfl
  rw [moved]
  congr 1
  simp [queueWords, word, Entry.postWords, Entry.image, Image.get]

/-! ## Posts counted (R128, R162) -/

/-- A state without its reports. -/
def State.unreported (s : State) : State := { s with reports := State.reset.reports }

theorem State.countUnattributed_unreported (s : State) (k : Slot) : (s.countUnattributed k).unreported = s.unreported := by
  unfold State.countUnattributed
  split <;> rfl

theorem State.countPost_unreported (s : State) (w : WaferName) (fate : Option Outcome) : (s.countPost w fate).unreported = s.unreported := by
  unfold State.countPost
  split
  · rfl
  · split
    · exact s.countUnattributed_unreported _
    · rfl

theorem State.countUnattributed_header {s : State} {k : Slot} (h : (s.report k).state = .opened) :
    ((s.countUnattributed k).report k).unattributed = satInc 65535 (s.report k).unattributed := by
  rw [State.countUnattributed, if_pos h]
  cases k <;> rfl

theorem State.rowOpen_iff {s : State} {w : WaferName} {r : Row} (hr : s.row w = some r) : s.rowOpen w = decide (r.state = .opened) := by
  rw [State.rowOpen, hr]

theorem State.countPost_row {s : State} {w : WaferName} {r : Row} (hr : s.row w = some r) (opened : r.state = .opened)
    (fate : Option Outcome) : (s.countPost w fate).row w = some { r with
      posts := r.posts + 1, outcomes := match fate with | some o => r.outcomes.inc o | none => r.outcomes } := by
  rw [State.countPost, if_pos (by rw [State.rowOpen_iff hr]; exact decide_eq_true opened), State.row_modRow, if_pos rfl, hr]
  rfl

theorem State.countPost_closed {s : State} {w : WaferName} (h : s.rowOpen w = false) (o : Outcome) :
    s.countPost w (some o) = s.countUnattributed w.slot := by
  rw [State.countPost, if_neg (by rw [h]; nofun)]
  exact if_pos rfl

/-- A refused post counted (R128). -/
def State.countRefused (s : State) (e : Entry) (why : EntryReason) : State :=
  if why.unattributed then s.countUnattributed e.slot else s.countPost e.wafer (some .refused)

theorem State.countRefused_unreported (s : State) (e : Entry) (why : EntryReason) : (s.countRefused e why).unreported = s.unreported := by
  unfold State.countRefused
  split
  · exact s.countUnattributed_unreported _
  · exact s.countPost_unreported _ _

/-- The refused post's words as a direct write, queued at once when they fit (R184). -/
def State.refusedDirect (s : State) (e : Entry) : State := ((s.leavePosting e.slot e.index).addDirect e).enterDirect

theorem State.refusePost_eq (s : State) (e : Entry) (why : EntryReason) :
    s.refusePost e why = (s.refusedDirect { e with state := .refused, reason := why }).countRefused e why := rfl

theorem State.leavePosting_entry {s : State} {e : Entry} (h : ∀ x ∈ s.revisit.store, x.is e.slot e.index = false) :
    (s.leavePosting e.slot e.index).entry e.slot e.index = none := by
  have posted : ((s.revisit.posting.filter fun x => !x.is e.slot e.index).find? fun x => x.is e.slot e.index) = none := by
    refine List.find?_eq_none.2 fun x hx => ?_
    have := (List.mem_filter.1 hx).2
    simpa using this
  have stored : (s.revisit.store.find? fun x => x.is e.slot e.index) = none := List.find?_eq_none.2 fun x hx => by rw [h x hx]; nofun
  show ((s.revisit.posting.filter fun x => !x.is e.slot e.index).find? fun x => x.is e.slot e.index).or
    (s.revisit.store.find? fun x => x.is e.slot e.index) = none
  rw [posted, stored]
  rfl

theorem Gathered.refused {s m : State} {e : Entry} {rs : List PartRequest} {v : Word} (h : Gathered s m e rs v) (why : EntryReason) :
    s.Refused (m.refusePost e why) e rs v why := by
  rw [State.refusePost_eq]
  obtain ⟨direct, dirty, version, revisit, reports, mport, path, lots, -, -⟩ :=
    (m.leavePosting e.slot e.index).addDirect_facts { e with state := .refused, reason := why }
  have gone := State.leavePosting_entry h.fresh
  unfold State.refusedDirect
  dsimp only
  generalize hb : (m.leavePosting e.slot e.index).addDirect { e with state := .refused, reason := why } = b at *
  have version : b.version e.id = v := version.trans h.version
  have requests : b.mport.requests = rs := (congrArg MPort.requests mport).trans h.requests
  have queued : b.mport.queued = (rs.filter PartRequest.isWrite).length := by rw [MPort.queued, requests]
  have direct : b.wb.direct = s.wb.direct ++ [⟨e.id, Entry.image { e with state := .refused, reason := why }⟩] := by
    rw [direct]
    exact congrArg (· ++ _) h.direct
  have gone : b.entry e.slot e.index = none := by
    rw [← gone]
    simp only [State.entry, revisit]
  have entered := b.enterDirect_unqueued
  have counted := b.enterDirect.countRefused_unreported e why
  have store : (b.enterDirect.countRefused e why).revisit.store = s.revisit.store := by
    exact (congrArg (fun x : State => x.revisit.store) counted :).trans ((congrArg (fun x : State => x.revisit.store) entered :).trans
      ((congrArg Revisit.store revisit).trans h.store))
  have reported : b.enterDirect.reports = m.reports := (congrArg State.reports entered :).trans reports
  have rows (w : WaferName) : b.enterDirect.row w = s.row w := (State.row_congr reported w).trans (h.row w)
  have rowOpen (w : WaferName) : b.enterDirect.rowOpen w = s.rowOpen w := by rw [State.rowOpen, State.rowOpen, rows]
  refine ⟨store, fun ws hws none fits => ?_, fun full => ?_, fun d hd => ?_, fun off opened => ?_, fun on r hr opened => ?_⟩
  · have one : b.wb.direct = [⟨e.id, Entry.image { e with state := .refused, reason := why }⟩] := by rw [direct, none]; rfl
    have windows : b.path.windows = some ws := by rw [path]; exact h.windows.trans hws
    have moved := State.enterDirect_one windows one (by rw [queued]; exact fits)
    have words := State.moveDirect_words (s := b) (ws := ws) (e := { e with state := .refused, reason := why }) gone one
    refine ⟨(congrArg (fun x : State => x.wb.direct) counted :).trans ?_, (congrArg (fun x : State => x.mport.requests) counted :).trans ?_⟩
    · rw [moved]
      rfl
    · rw [moved, ← version, ← requests]
      exact words
  · have waits := State.enterDirect_waits (s := b) (.inr (by rw [queued]; exact full))
    rw [waits] at counted ⊢
    exact ⟨(congrArg (fun x : State => x.mport.requests) counted :).trans requests,
      (congrArg (fun x : State => versionIn x.wb.versions e.id) counted :).trans version, (congrArg (fun x : State => x.wb.direct) counted :).trans direct⟩
  · have same : (b.enterDirect.countRefused e why).wb.dirty = b.wb.dirty :=
      (congrArg (fun x : State => x.wb.dirty) counted :).trans (congrArg (fun x : State => x.wb.dirty) entered :)
    rw [same, dirty] at hd
    exact bne_iff_ne.1 (List.mem_filter.1 hd).2
  · have header : b.enterDirect.countRefused e why = b.enterDirect.countUnattributed e.slot := by
      unfold State.countRefused
      split
      · rfl
      · rename_i attributed
        exact State.countPost_closed (by rw [rowOpen]; exact off.resolve_left attributed) _
    have state : (b.enterDirect.report e.slot).state = .opened := by
      rw [State.report, reported]
      exact (h.reports e.slot).trans opened
    rw [header, State.countUnattributed_header state, State.report, reported]
    exact congrArg _ (h.unattributed e.slot)
  · have row : b.enterDirect.countRefused e why = b.enterDirect.countPost e.wafer (some .refused) := if_neg (by rw [on]; nofun)
    rw [row, State.countPost_row ((rows _).trans hr) opened]

/-! ## Admissions (R129, R131) -/

/-- The entry has a record with its HOST words and such a state in the store. -/
def State.HasRecord (s : State) (e : Entry) (st : EntryState) : Prop := ∃ x ∈ s.revisit.store, x.id = e.id ∧ x.host = e.host ∧ x.state = st

theorem State.HasRecord.modEntry {s : State} {e : Entry} {st st' : EntryState} (h : s.HasRecord e st) {f : Entry → Entry}
    (hf : ∀ x, (f x).id = x.id ∧ (f x).host = x.host ∧ (x.state = st → (f x).state = st')) :
    (s.modEntry e.slot e.index f).HasRecord e st' := by
  obtain ⟨x, hx, id, host, state⟩ := h
  obtain ⟨id', host', state'⟩ := hf x
  exact ⟨f x, List.mem_map.2 ⟨x, hx, if_pos (Entry.is_iff.2 id)⟩, id'.trans id, host'.trans host, state' state⟩

theorem State.HasRecord.of {s t : State} {e : Entry} {st : EntryState} (h : s.HasRecord e st) (same : t.revisit.store = s.revisit.store) :
    t.HasRecord e st := by
  unfold State.HasRecord
  rw [same]
  exact h

/-- What taking an entry makes of its record (R140, R141): ACTIVE, or ended TRAVEL in the same step. -/
theorem State.takeEntry_taken {s : State} {e : Entry} (he : e ∈ s.revisit.store) :
    (s.takeEntry e).HasRecord e .active ∨ (s.takeEntry e).HasRecord e .travel := by
  have given : s.HasRecord e e.state := ⟨e, he, rfl, rfl, rfl⟩
  have taken := given.modEntry (st' := .active) (f := fun x => { x with state := .active, reason := .none, attempts := 0 })
    fun _ => ⟨rfl, rfl, fun _ => rfl⟩
  unfold State.takeEntry State.beginTarget
  dsimp only
  generalize s.modEntry e.slot e.index (fun x => { x with state := .active, reason := .none, attempts := 0 }) = b at *
  generalize hc : b.setRevisit { b.revisit with
      review := .revisiting, timer := none, active := some ⟨e.slot, e.index, .target, ⟨0, 0⟩, 0, none, none, none⟩ } = c
  have taken : c.HasRecord e .active := taken.of (by rw [← hc]; rfl)
  generalize c.align.convert (c.recipe e.slot) ⟨e.wx, e.wy⟩ = p
  have targeted := taken.modEntry (f := fun x => { x with stageX := p.x, stageY := p.y }) fun _ => ⟨rfl, rfl, id⟩
  split
  · exact .inl (targeted.of (congrArg Revisit.store (State.rest_revisit (State.beginMove_rest _ _ _)) :))
  · have ended := targeted.modEntry (st' := .travel) (f := fun x => { x with state := .travel, reason := .outOfTravel })
      fun _ => ⟨rfl, rfl, fun _ => rfl⟩
    exact .inr (ended.of (by
      show (((c.modEntry e.slot e.index fun x => { x with stageX := p.x, stageY := p.y }).finishEntry e .travel .outOfTravel)).revisit.store = _
      rw [State.finishEntry_store]
      rfl))

theorem State.takeEntry_timer (s : State) (e : Entry) : (s.takeEntry e).revisit.timer = none := by
  unfold State.takeEntry State.beginTarget
  dsimp only
  split
  · exact (congrArg Revisit.timer (State.rest_revisit (State.beginMove_rest _ _ _)) :)
  · exact (congrArg (fun x : State => x.revisit.timer) (State.finishEntry_bare _ e .travel .outOfTravel) :)

theorem State.storeRecord_facts (s : State) (e : Entry) : (s.storeRecord e).revisit.store = s.revisit.store ++ [e]
    ∧ (s.storeRecord e).reports = s.reports ∧ (s.storeRecord e).revisit.review = s.revisit.review
    ∧ (s.storeRecord e).revisit.wafer = s.revisit.wafer ∧ (s.storeRecord e).mport = s.mport ∧ (s.storeRecord e).wb = s.wb
    ∧ (s.storeRecord e).revisit.posting = s.revisit.posting.filter (fun x => !x.is e.slot e.index) ∧ (s.storeRecord e).path = s.path :=
  ⟨rfl, rfl, rfl, rfl, rfl, rfl, rfl, rfl⟩

theorem State.inserted_not {s : State} {w : WaferName} (h : s.revisit.review ≠ .waiting ∨ s.revisit.wafer ≠ some w) : s.inserted w = s :=
  if_neg fun both => h.elim (fun off => off both.1) fun off => off both.2

theorem State.inserted_takes {s : State} {w : WaferName} {e : Entry} (waits : s.revisit.review = .waiting) (here : s.revisit.wafer = some w)
    (queue : s.queuedOf w = [e]) : s.inserted w = s.takeEntry e := by
  rw [State.inserted, if_pos ⟨waits, here⟩, queue]

/-- A state without the review's records, the reports, and the units' work. -/
def State.unworked (s : State) : State :=
  { s.rest with revisit := State.reset.revisit, reports := State.reset.reports, scratch := .empty }

theorem State.unworked_of_rest {s t : State} (h : t.rest = s.rest) : t.unworked = s.unworked :=
  congrArg (fun x : State => ({ x with revisit := State.reset.revisit, reports := State.reset.reports, scratch := .empty } : State)) h

theorem State.unworked_of_unreported {s t : State} (h : t.unreported = s.unreported) : t.unworked = s.unworked :=
  (congrArg (fun x : State => x.unworked) h :)

theorem State.unworked_of_bare {s t : State} (h : t.bare = s.bare) : t.unworked = s.unworked := (congrArg (fun x : State => x.unworked) h :)

theorem State.modEntry_unworked (s : State) (k : Slot) (i : Nat) (f : Entry → Entry) : (s.modEntry k i f).unworked = s.unworked := rfl
theorem State.setRevisit_unworked (s : State) (r : Revisit) : (s.setRevisit r).unworked = s.unworked := rfl
theorem State.setActive_unworked (s : State) (a : Option ActiveRevisit) : (s.setActive a).unworked = s.unworked := rfl
theorem State.say_unworked (s : State) (m : Msg) : (s.say m).unworked = s.unworked := rfl

theorem State.beginMove_unworked (s : State) (a : ActiveRevisit) (z : Int) : (s.beginMove a z).unworked = s.unworked := by
  rw [State.unworked_of_rest (s.beginMove_rest a z), State.setActive_unworked]

theorem State.endActive_unworked (s : State) (e : Entry) (st : EntryState) (why : EntryReason) :
    (s.endActive e st why).unworked = s.unworked := by
  rw [State.endActive, State.say_unworked, State.setActive_unworked, State.unworked_of_bare (s.finishEntry_bare e st why)]

theorem State.takeEntry_unworked (s : State) (e : Entry) : (s.takeEntry e).unworked = s.unworked := by
  unfold State.takeEntry State.beginTarget
  dsimp only
  split
  · rw [State.beginMove_unworked, State.modEntry_unworked, State.setRevisit_unworked, State.modEntry_unworked]
  · rw [State.endActive_unworked, State.modEntry_unworked, State.setRevisit_unworked, State.modEntry_unworked]

theorem State.inserted_unworked (s : State) (w : WaferName) : (s.inserted w).unworked = s.unworked := by
  unfold State.inserted
  repeat' split
  · exact s.takeEntry_unworked _
  · rfl
  · rfl

theorem State.takeIn_unworked (s : State) (e : Entry) : (s.takeIn e).unworked = s.unworked := by
  have counted (s : State) (w : WaferName) (fate : Option Outcome) := State.unworked_of_unreported (s.countPost_unreported w fate)
  have stored (s : State) (e : Entry) : (s.storeRecord e).unworked = s.unworked := rfl
  unfold State.takeIn
  dsimp only
  repeat' split
  · rw [State.inserted_unworked, stored, counted]
  · rw [State.inserted_unworked, stored, counted]
    exact State.unworked_of_bare (State.finishEntry_bare _ _ _ _)
  · rw [stored, counted]

/-- The posting list of an entry just taken in. -/
theorem State.inserted_listed {s : State} {w : WaferName} {k : Slot} {i : Nat} (h : ∀ x ∈ s.revisit.posting, x.is k i = false) :
    ∀ x ∈ (s.inserted w).revisit.posting, x.is k i = false := by
  unfold State.inserted
  split
  · rename_i waits
    split
    · rename_i e _ _
      have kept := (quiet_takeEntry (.refl s) e (by rw [waits.1]; nofun)).kept
      have posts : (s.takeEntry e).revisit.posting.map (·.postKept) = s.revisit.posting.map (·.postKept) := congrArg Kept.posts kept
      intro x hx
      have there : x.postKept ∈ s.revisit.posting.map (·.postKept) := by
        rw [← posts]
        exact List.mem_map_of_mem hx
      obtain ⟨y, hy, same⟩ := List.mem_map.1 there
      have slot : y.slot = x.slot := (congrArg PostKept.slot same :)
      have index : y.index = x.index := (congrArg PostKept.index same :)
      rw [← h y hy, Entry.is, Entry.is, slot, index]
    · exact h
  · exact h

theorem State.takeIn_listed (s : State) (e : Entry) : ∀ x ∈ (s.takeIn e).revisit.posting, x.is e.slot e.index = false := by
  have stored (s : State) (st : EntryState) (why : EntryReason) :
      ∀ x ∈ (s.storeRecord { e with state := st, reason := why }).revisit.posting, x.is e.slot e.index = false := fun x hx => by
    have := (List.mem_filter.1 hx).2
    exact Bool.not_eq_true' _ ▸ this
  unfold State.takeIn
  dsimp only
  repeat' split
  · exact State.inserted_listed (stored _ _ _)
  · exact State.inserted_listed (stored _ _ _)
  · exact stored _ _ _

theorem State.takeIn_below {s : State} {e : Entry} (h : (s.admittedOf e.wafer : Int) < (s.recipe e.slot).revisitLimit) :
    s.takeIn e = ((s.countPost e.wafer none).storeRecord { e with state := .queued }).inserted e.wafer := if_pos h

theorem State.takeIn_displaces {s : State} {e d : Entry} (h : (s.recipe e.slot).revisitLimit ≤ (s.admittedOf e.wafer : Int))
    (last : (s.queuedOf e.wafer).getLast? = some d) (lower : d.priority < e.priority) : s.takeIn e
      = (((s.finishEntry d .notSampled .displaced).countPost e.wafer none).storeRecord { e with state := .queued }).inserted e.wafer := by
  have found : s.displaced e.wafer e.priority = some d := by
    rw [State.displaced, last]
    exact if_pos lower
  simp only [State.takeIn, if_neg (not_lt.2 h), found]

theorem State.takeIn_limit {s : State} {e : Entry} (h : (s.recipe e.slot).revisitLimit ≤ (s.admittedOf e.wafer : Int))
    (last : ∀ d, (s.queuedOf e.wafer).getLast? = some d → e.priority ≤ d.priority) :
    s.takeIn e = (s.countPost e.wafer (some .notSampled)).storeRecord { e with state := .notSampled, reason := .limit } := by
  have none : s.displaced e.wafer e.priority = none := by
    unfold State.displaced
    split
    · rename_i d hd
      exact if_neg (not_lt.2 (last d hd))
    · rfl
  simp only [State.takeIn, if_neg (not_lt.2 h), none]

/-- A record placed in the store whose wafer has no other QUEUED one is the head of its list. -/
theorem State.storeRecord_queued {s : State} {e : Entry} (none : s.queuedOf e.wafer = []) (closed : e.rowClosed = false) :
    (s.storeRecord { e with state := .queued }).queuedOf e.wafer = [{ e with state := .queued }] := by
  have empty : (s.revisit.store.filter fun x => decide (x.wafer = e.wafer ∧ x.state = .queued) && !x.rowClosed) = [] := by
    rw [List.filter_eq_nil_iff]
    intro x hx chosen
    have listed : x ∈ s.queuedOf e.wafer := State.mem_queuedOf.2 ⟨hx, by simpa [and_assoc] using chosen⟩
    rw [none] at listed
    cases listed
  have wafer : Entry.wafer { e with state := .queued } = e.wafer := rfl
  rw [State.queuedOf, (s.storeRecord_facts _).1, List.filter_append, empty, List.filter_cons_of_pos]
  · rfl
  · rw [wafer, closed]
    simp

theorem State.row_countPost_of {s m : State} {e : Entry} {w : WaferName} {r : Row} (row : m.row w = s.row w) (hr : s.row w = some r)
    (opened : r.state = .opened) (fate : Option Outcome) : ((m.countPost w fate).storeRecord e).row w = some { r with
      posts := r.posts + 1, outcomes := match fate with | some o => r.outcomes.inc o | none => r.outcomes } :=
  (State.row_congr (m.countPost w fate |>.storeRecord_facts e).2.1 w).trans (State.countPost_row (row.trans hr) opened fate)

theorem State.countPost_revisit (s : State) (w : WaferName) (fate : Option Outcome) : (s.countPost w fate).revisit = s.revisit :=
  (congrArg State.revisit (s.countPost_unreported w fate) :)

theorem Gathered.admitted {s m : State} {e : Entry} {rs : List PartRequest} {v : Word} (h : Gathered s m e rs v) :
    s.Admitted (m.takeIn (s.placed e)) e := by
  have count : m.admittedOf e.wafer = s.admittedOf e.wafer := by rw [State.admittedOf, State.admittedOf, h.store]
  have queue : m.queuedOf e.wafer = s.queuedOf e.wafer := State.queuedOf_congr h.store _
  have stored (b : State) (same : b.revisit = m.revisit) (x : Entry) : (b.storeRecord x).revisit.store = s.revisit.store ++ [x] := by
    rw [(b.storeRecord_facts x).1, same, h.store]
  have away (b : State) (same : b.revisit = m.revisit) (x : Entry) (off : s.revisit.review ≠ .waiting ∨ s.revisit.wafer ≠ some e.wafer) :
      (b.storeRecord x).inserted e.wafer = b.storeRecord x := by
    obtain ⟨-, -, review, reviewed, -⟩ := b.storeRecord_facts x
    refine State.inserted_not ?_
    rw [review, reviewed, same, h.review, h.reviewed]
    exact off
  refine ⟨fun below off => ?_, fun below waits here none closed => ?_, fun full off d last lower => ?_, fun full last => ?_⟩
  · have taken := State.takeIn_below (s := m) (e := s.placed e) (by
      show (m.admittedOf e.wafer : Int) < (m.recipe e.slot).revisitLimit
      rw [count, h.recipe]
      exact below)
    rw [taken, show (s.placed e).wafer = e.wafer from rfl, away _ (m.countPost_revisit _ _) _ off]
    exact ⟨stored _ (m.countPost_revisit _ _) _, fun r hr opened => State.row_countPost_of (h.row _) hr opened none⟩
  · have taken := State.takeIn_below (s := m) (e := s.placed e) (by
      show (m.admittedOf e.wafer : Int) < (m.recipe e.slot).revisitLimit
      rw [count, h.recipe]
      exact below)
    have none : (m.countPost e.wafer Option.none).queuedOf e.wafer = [] :=
      (State.queuedOf_congr (by rw [m.countPost_revisit, h.store]) _).trans none
    have head := State.storeRecord_queued (s := m.countPost e.wafer Option.none) (e := s.placed e) none closed
    obtain ⟨store, -, review, reviewed, -⟩ := (m.countPost e.wafer Option.none).storeRecord_facts { s.placed e with state := .queued }
    rw [m.countPost_revisit] at review reviewed
    rw [taken, show (s.placed e).wafer = e.wafer from rfl, State.inserted_takes (review.trans (h.review.trans waits))
      (reviewed.trans (h.reviewed.trans here)) head]
    refine ⟨State.takeEntry_review _ _, State.takeEntry_timer _ _, ?_⟩
    have inStore : { s.placed e with state := .queued } ∈ ((m.countPost e.wafer Option.none).storeRecord
        { s.placed e with state := .queued }).revisit.store := by
      rw [store]
      exact List.mem_append_right _ List.mem_cons_self
    obtain ⟨x, hx, id, host, state⟩ | ⟨x, hx, id, host, state⟩ := State.takeEntry_taken inStore
    · exact ⟨x, hx, id, host, .inl state⟩
    · exact ⟨x, hx, id, host, .inr state⟩
  · have taken := State.takeIn_displaces (s := m) (e := s.placed e) (d := d) (by
      show (m.recipe e.slot).revisitLimit ≤ (m.admittedOf e.wafer : Int)
      rw [count, h.recipe]
      exact full) (by
      show (m.queuedOf e.wafer).getLast? = some d
      rw [queue]
      exact last) lower
    have named : d.wafer = e.wafer := (State.mem_queuedOf.1 (List.mem_of_getLast? last)).2.1
    have row : (m.finishEntry d .notSampled .displaced).row e.wafer = (s.row e.wafer).map fun r =>
        if r.state = .opened then { r with outcomes := r.outcomes.inc .notSampled } else r := by
      rw [State.finishEntry_eq m d (o := .notSampled) rfl, State.row_enter, if_pos named.symm]
      exact congrArg _ (h.row _)
    have finished : (m.finishEntry d .notSampled .displaced).revisit.review = m.revisit.review
        ∧ (m.finishEntry d .notSampled .displaced).revisit.wafer = m.revisit.wafer :=
      ⟨State.bare_review (m.finishEntry_bare _ _ _), State.bare_reviewed (m.finishEntry_bare _ _ _)⟩
    have store := m.finishEntry_store d .notSampled .displaced
    rw [taken, show (s.placed e).wafer = e.wafer from rfl]
    generalize m.finishEntry d .notSampled .displaced = b at *
    have stays : ((b.countPost e.wafer none).storeRecord { s.placed e with state := .queued }).inserted e.wafer
        = (b.countPost e.wafer none).storeRecord { s.placed e with state := .queued } := by
      obtain ⟨-, -, review, reviewed, -⟩ := (b.countPost e.wafer none).storeRecord_facts { s.placed e with state := .queued }
      refine State.inserted_not ?_
      rw [review, reviewed, b.countPost_revisit, finished.1, finished.2, h.review, h.reviewed]
      exact off
    rw [stays]
    refine ⟨?_, fun r hr opened => ?_⟩
    · rw [((b.countPost e.wafer none).storeRecord_facts _).1, b.countPost_revisit, store, h.store]
    · rw [hr, Option.map_some, if_pos opened] at row
      exact State.row_countPost_of rfl row opened none
  · have taken := State.takeIn_limit (s := m) (e := s.placed e) (by
      show (m.recipe e.slot).revisitLimit ≤ (m.admittedOf e.wafer : Int)
      rw [count, h.recipe]
      exact full) (by
      show ∀ d, (m.queuedOf e.wafer).getLast? = some d → e.priority ≤ d.priority
      rw [queue]
      exact last)
    rw [taken, show (s.placed e).wafer = e.wafer from rfl]
    exact ⟨stored _ (m.countPost_revisit _ _) _, fun r hr opened => State.row_countPost_of (h.row _) hr opened (some .notSampled)⟩

theorem State.refusePost_listed (s : State) (e : Entry) (why : EntryReason) :
    ∀ x ∈ (s.refusePost e why).revisit.posting, x.is e.slot e.index = false := by
  rw [State.refusePost_eq]
  obtain ⟨-, -, -, revisit, -⟩ := (s.leavePosting e.slot e.index).addDirect_facts { e with state := .refused, reason := why }
  have counted := (s.refusedDirect { e with state := .refused, reason := why }).countRefused_unreported e why
  have entered := ((s.leavePosting e.slot e.index).addDirect { e with state := .refused, reason := why }).enterDirect_unqueued
  have posting : ((s.refusedDirect { e with state := .refused, reason := why }).countRefused e why).revisit.posting
      = s.revisit.posting.filter fun x => !x.is e.slot e.index :=
    (congrArg (fun x : State => x.revisit.posting) counted :).trans
      ((congrArg (fun x : State => x.revisit.posting) entered :).trans (congrArg Revisit.posting revisit))
  rw [posting]
  intro x hx
  have := (List.mem_filter.1 hx).2
  exact Bool.not_eq_true' _ ▸ this

theorem Gathered.checkPost_none {s m : State} {e : Entry} {rs : List PartRequest} {v : Word} (h : Gathered s m e rs v)
    (passed : s.postCheck e = none) : m.checkPost e = m.takeIn (s.placed e) := by
  have check := h.postCheck.trans passed
  simp only [State.checkPost, check, h.recipe]
  rfl

theorem State.checkPost_some {m : State} {e : Entry} {why : EntryReason} (h : m.postCheck e = some why) : m.checkPost e = m.refusePost e why := by
  simp only [State.checkPost, h]

theorem Gathered.judged {s m : State} {e : Entry} {rs : List PartRequest} {v : Word} (h : Gathered s m e rs v) :
    s.Judged (m.checkPost e) e rs v := by
  refine ⟨fun why failed => ?_, fun passed => ?_, ?_⟩
  · rw [State.checkPost_some (h.postCheck.trans failed)]
    exact h.refused why
  · rw [h.checkPost_none passed]
    have frame := m.takeIn_unworked (s.placed e)
    exact ⟨h.admitted, (congrArg (fun x : State => x.mport.requests) frame :).trans h.requests,
      (congrArg (fun x : State => x.wb.direct) frame :).trans h.direct⟩
  · cases check : s.postCheck e with
    | some why =>
      rw [State.checkPost_some (h.postCheck.trans check)]
      exact m.refusePost_listed e why
    | none =>
      rw [h.checkPost_none check]
      exact m.takeIn_listed (s.placed e)

/-- The checks leave the path, memory, the clock and the class locks as they are. -/
theorem State.checkPost_frame (s : State) (e : Entry) : (s.checkPost e).path = s.path ∧ (s.checkPost e).mem = s.mem
    ∧ (s.checkPost e).clock = s.clock := by
  cases check : s.postCheck e with
  | some why =>
    rw [State.checkPost_some check, State.refusePost_eq]
    obtain ⟨-, -, -, -, -, -, path, -, mem, clock⟩ := (s.leavePosting e.slot e.index).addDirect_facts { e with state := .refused, reason := why }
    have counted := (s.refusedDirect { e with state := .refused, reason := why }).countRefused_unreported e why
    have entered := ((s.leavePosting e.slot e.index).addDirect { e with state := .refused, reason := why }).enterDirect_unqueued
    exact ⟨(congrArg State.path counted :).trans ((congrArg State.path entered :).trans path),
      (congrArg State.mem counted :).trans ((congrArg State.mem entered :).trans mem),
      (congrArg State.clock counted :).trans ((congrArg State.clock entered :).trans clock)⟩
  | none =>
    have frame : (s.checkPost e).unworked = s.unworked := by
      simp only [State.checkPost, check]
      exact State.takeIn_unworked s _
    exact ⟨(congrArg State.path frame :), (congrArg State.mem frame :), (congrArg State.clock frame :)⟩

/-! ## FILL_READ_DONE (R123) -/

/-- The entry's POSTING record takes a word. -/
def State.fillTakes (s : State) (k : Slot) (i w : Nat) (v : Word) : State :=
  s.setRevisit { s.revisit with
    posting := s.revisit.posting.map fun e => if e.is k i then { e with host := e.host.set w (some v) } else e }

theorem exec_fillReadDone {s : State} {ws : Windows} {k : Slot} {i w : Nat} {rest : List PartRequest} (hws : s.path.windows = some ws)
    (hs : s.mport.serving = some .part) (hq : s.mport.requests = .fill k i w :: rest) :
    exec .fillReadDone s = .next (s.after ((s.begin.endService.fillTakes k i w
      (s.mem.readWord (ws.recordBase (.defectEntry k i) + 4 * w))).checkIfFilled k i)) := by
  have served : s.begin.served = some (.fill k i w) := State.served_part (s := s.begin) hs hq
  have windows : s.begin.path.windows = some ws := hws
  refine exec_after (by nofun) ?_
  show s.begin.serveFill = _
  rw [State.serveFill, served, windows]
  rfl

theorem State.fillTakes_find {s : State} {k : Slot} {i w : Nat} {v : Word} {e : Entry} (h : (s.revisit.posting.find? fun x => x.is k i) = some e) :
    ((s.fillTakes k i w v).revisit.posting.find? fun x => x.is k i) = some { e with host := e.host.set w (some v) } := by
  have is (x : Entry) : (if x.is k i then { x with host := x.host.set w (some v) } else x).is k i = x.is k i := by
    split <;> rfl
  have there : e.is k i = true := List.find?_some (p := fun x : Entry => x.is k i) h
  show ((s.revisit.posting.map _).find? _) = _
  rw [List.find?_map]
  simp only [Function.comp_def, is]
  rw [h, Option.map_some, if_pos there]

theorem Entry.filled_iff (e : Entry) : e.filled = true ↔ none ∉ e.host := by
  rw [Entry.filled, List.all_eq_true]
  constructor
  · intro all missing
    have := all none missing
    cases this
  · intro off x hx
    cases x with
    | none => exact absurd hx off
    | some v => rfl

/-- Settles O41. -/
theorem filledPostIsChecked : Obligations.FilledPostIsChecked := by
  intro s ws k i w v rest e hws hs hq hv he
  have ran := exec_fillReadDone hws hs hq
  rw [← hv] at ran
  have found := State.fillTakes_find (s := s.begin.endService) (w := w) (v := v) he
  have left : (s.begin.endService.fillTakes k i w v).mport.requests = rest := congrArg List.tail hq
  have is : e.slot = k ∧ e.index = i := by simpa [Entry.is] using List.find?_some (p := fun x : Entry => x.is k i) he
  obtain ⟨rfl, rfl⟩ := is
  refine ⟨fun missing => ⟨_, ran, ?_⟩, fun complete free => ⟨_, ran, ?_⟩⟩
  · have waits : (s.begin.endService.fillTakes e.slot e.index w v).checkIfFilled e.slot e.index
        = s.begin.endService.fillTakes e.slot e.index w v := by
      rw [State.checkIfFilled, found]
      exact if_neg fun filled => (Entry.filled_iff _).1 filled missing
    rw [waits, ← left]
    exact (s.after_content_kept rfl).trans rfl
  · have checks : (s.begin.endService.fillTakes e.slot e.index w v).checkIfFilled e.slot e.index
        = (s.begin.endService.fillTakes e.slot e.index w v).checkPost { e with host := e.host.set w (some v) } := by
      rw [State.checkIfFilled, found]
      exact if_pos ((Entry.filled_iff _).2 complete)
    have gathered : Gathered s (s.begin.endService.fillTakes e.slot e.index w v) { e with host := e.host.set w (some v) } rest
        (s.version (.defectEntry e.slot e.index) + 1) :=
      ⟨rfl, fun _ => rfl, fun _ => rfl, fun _ => rfl, rfl, rfl, rfl, rfl, rfl, left,
        fun x hx => Bool.eq_false_iff.2 (List.find?_eq_none.1 free x hx), rfl⟩
    rw [checks]
    exact ⟨gathered.judged, State.checkPost_frame _ _⟩

end Sys2Proof.Machine
end

section
/-! SUPPORT. A post taken: the record it drops, the record it lists, and its checks when no word is missing: O39. -/

namespace Sys2Proof.Machine

/-! ## Version words at a step's end (R182) -/

theorem versionIn_put (l : List (RecId × Word)) (id : RecId) (v : Word) (j : RecId) :
    versionIn (putVersion l id v) j = if j = id then v else versionIn l j := by
  unfold versionIn putVersion
  rw [List.find?_cons]
  by_cases h : j = id
  · subst h
    simp
  · have off : (id == j) = false := by simpa using Ne.symm h
    have others : (l.filter fun p => p.1 != id).find? (fun p => p.1 == j) = l.find? fun p => p.1 == j := by
      rw [List.find?_filter]
      refine List.find?_congr fun p _ => ?_
      by_cases there : p.1 = j
      · simp [there, h]
      · simp [there]
    simp only [off, others, if_neg h]

/-- A record whose version the step has set keeps it at the step's end. -/
theorem State.commitRecord_versioned {s0 s : State} {j : RecId} (h : j ∈ s.scratch.versioned) (id : RecId) :
    (State.commitRecord s0 s id).version j = s.version j := by
  have put (dirty : List DirtyRecord) (v : Word) (hv : j = id → v = s.version j) :
      ({ s with wb := { s.wb with versions := putVersion s.wb.versions id v, dirty := dirty } } : State).version j = s.version j := by
    refine (versionIn_put _ _ _ _).trans ?_
    split
    · rename_i same
      exact hv same
    · rfl
  have set (changed : List Nat) : j = id → (if s.scratch.versioned.contains id || changed.isEmpty then s.version id else s.version id + 1) = s.version j := by
    rintro rfl
    rw [List.contains_iff_mem.2 h]
    rfl
  unfold State.commitRecord
  split
  · rfl
  · dsimp only
    split
    · exact put _ _ (set _)
    · exact put _ _ (set _)

theorem State.commitRecord_scratch (s0 s : State) (id : RecId) : (State.commitRecord s0 s id).scratch = s.scratch :=
  (congrArg State.scratch (State.commitRecord_withoutWb s0 s id) :)

theorem State.foldl_commitRecord_versioned (s0 : State) {j : RecId} (ids : List RecId) : ∀ {s : State}, j ∈ s.scratch.versioned →
    (ids.foldl (State.commitRecord s0) s).version j = s.version j := by
  induction ids with
  | nil => exact fun _ => rfl
  | cons id ids ih =>
    intro s h
    exact (ih (s := State.commitRecord s0 s id) (by rw [State.commitRecord_scratch]; exact h)).trans (State.commitRecord_versioned h id)

theorem State.commitAnchor_version (s0 s : State) (j : RecId) : (State.commitAnchor s0 s).version j = s.version j := by
  unfold State.commitAnchor
  split <;> rfl

theorem State.withoutWb_ownerImage {s t : State} (h : t.withoutWb = s.withoutWb) (id : RecId) : t.ownerImage id = s.ownerImage id :=
  (congrArg (fun x : State => x.ownerImage id) h :)

/-- The version word of a record that its owner holds outlasts the prune. -/
theorem State.prune_version {s : State} {j : RecId} (h : (s.ownerImage j).isSome) : s.prune.version j = s.version j := by
  have held (t : State) (same : t.ownerImage j = s.ownerImage j) : (t.heldImage j).isSome := by
    obtain ⟨im, owned⟩ := Option.isSome_iff_exists.1 h
    rw [State.heldImage, same, owned]
    rfl
  unfold State.version State.prune versionIn
  dsimp only
  rw [List.find?_filter]
  refine congrArg (fun o : Option (RecId × Word) => match o with | some p => p.2 | none => 0) (List.find?_congr fun p _ => ?_)
  by_cases there : p.1 = j
  · rw [there]
    exact (decide_eq_true ⟨held _ (State.withoutWb_ownerImage (s := s) rfl j), beq_self_eq_true j⟩).trans (beq_self_eq_true j).symm
  · simp [there]

/-- A version word that the step has set, of a record that its owner holds, stands at the step's end. -/
theorem State.finish_versioned (s0 : State) {s : State} {j : RecId} (set : j ∈ s.scratch.versioned) (held : (s.ownerImage j).isSome) :
    (State.finish s0 s).version j = s.version j := by
  have owned : ((State.commit s0 s).ownerImage j).isSome := by
    rw [State.withoutWb_ownerImage (State.commit_withoutWb s0 s)]
    exact held
  have pruned := State.prune_version owned
  rw [State.commit, State.commitAnchor_version, State.foldl_commitRecord_versioned s0 _ set] at pruned
  rw [State.version, State.finish_wb]
  exact pruned

/-! ## An entry listed while the consequences run (R121) -/

/-- The entry's record stands on the posting list, it has none in the store, and its index is in no class lock. -/
structure Listed (s : State) (e : Entry) : Prop where
  posting : e ∈ s.revisit.posting
  store : ∀ x ∈ s.revisit.store, x.id ≠ e.id
  unlocked : s.classLocked e.slot e.index = none

theorem Edits.listing {s t : State} {g : Entry → Entry} (h : Edits s t g) {e : Entry} (listed : Listed s e)
    (locks : ∀ k, (t.report k).classLock = (s.report k).classLock) : Listed t e := by
  refine ⟨?_, fun x hx => ?_, ?_⟩
  · rw [h.posting]
    exact List.mem_map.2 ⟨e, listed.posting, h.others e listed.store⟩
  · rw [h.store] at hx
    obtain ⟨y, hy, rfl⟩ := List.mem_map.1 hx
    rw [h.id]
    exact listed.store y hy
  · rw [State.classLocked, locks]
    exact listed.unlocked

theorem Listed.drain {s : State} {e : Entry} (h : Listed s e) : Listed s.drain e := by
  obtain ⟨g, edits⟩ := (Work.drain s).edits
  exact edits.listing h (Told.drain s).classLock

theorem Fewer.listing {s t : State} (h : Fewer s t) {e : Entry} (listed : Listed s e)
    (lock : t.classLocked e.slot e.index = s.classLocked e.slot e.index) : Listed t e := by
  refine ⟨by rw [h.posting]; exact listed.posting, fun x hx there => ?_, lock.trans listed.unlocked⟩
  obtain ⟨y, hy, same⟩ := List.mem_map.1 (h.store.subset (List.mem_map_of_mem (f := Entry.id) hx))
  exact listed.store y hy (same.trans there)

theorem Listed.closeRow {s : State} {e : Entry} (h : Listed s e) (w : WaferName) : Listed (s.closeRow w) e := by
  refine (Fewer.closeRow s w).listing h ?_
  by_cases here : e.slot = w.slot
  · by_cases opened : s.rowOpen w = true
    · rw [here, State.closeRow_classLocked opened, ← here, h.unlocked, Option.none_or, List.find?_eq_none]
      intro c hc there
      obtain ⟨x, hx, rfl⟩ := List.mem_map.1 hc
      have stored := (List.mem_filter.1 (List.mem_filter.1 hx).1)
      refine h.store x stored.1 ?_
      have slot : x.wafer = w := ((Entry.inOpenRowOf_iff x w).1 stored.2).1
      have same : x.slot = e.slot := (congrArg WaferName.slot slot).trans here.symm
      have index : x.index = e.index := by simpa using there
      rw [Entry.id, Entry.id, same, index]
    · rw [State.closeRow, if_neg opened]
  · rw [State.classLocked, State.closeRow_other here]
    rfl

theorem Listed.of {s t : State} {e : Entry} (h : Listed s e) (revisit : t.revisit = s.revisit) (reports : ∀ k, (t.report k).classLock = (s.report k).classLock) :
    Listed t e :=
  (Fewer.of revisit).listing h (by rw [State.classLocked, reports]; rfl)

theorem Listed.raise {s : State} {e : Entry} (h : Listed s e) (k : NoticeKind) : Listed (s.raise k) e := by
  unfold State.raise
  split
  · exact h.of rfl fun _ => rfl
  · exact h

theorem Listed.closeReport {s : State} {e : Entry} (h : Listed s e) (k : Slot) : Listed (s.closeReport k) e := by
  have rows (l : List Nat) : ∀ s : State, Listed s e → Listed (l.foldl (fun s n => s.closeRow ⟨k, n⟩) s) e := by
    induction l with
    | nil => exact fun _ h => h
    | cons n l ih => exact fun s h => ih _ (h.closeRow _)
  have closed := rows slots25 s h
  unfold State.closeReport
  dsimp only
  refine Listed.raise (Listed.raise ?_ .lotEnd) .reportClosed
  generalize slots25.foldl (fun (s : State) n => s.closeRow ⟨k, n⟩) s = c at closed ⊢
  exact closed.of rfl fun j => by cases k <;> cases j <;> rfl

theorem Listed.lotChange {s : State} {e : Entry} (h : Listed s e) (k : Slot) : Listed (s.lotChange k) e := by
  have set (st : LotState) : Listed (s.setLotState k st) e := h.of rfl fun _ => rfl
  unfold State.lotChange
  dsimp only
  repeat' split
  all_goals first
    | exact h
    | exact set _
    | exact (set _).closeReport k

theorem Listed.lotPass {s : State} {e : Entry} (h : Listed s e) : Listed s.lotPass e := by
  have passes (l : List Nat) : ∀ s : State, Listed s e → Listed (l.foldl (fun s _ => (s.lotChange .zero).lotChange .one) s) e := by
    induction l with
    | nil => exact fun _ h => h
    | cons n l ih => exact fun s h => ih _ ((h.lotChange _).lotChange _)
  exact passes _ s h

theorem Listed.settle {s : State} {e : Entry} (h : Listed s e) : Listed s.settle e := by
  have passed := h.drain.lotPass
  have still := s.drain.lotPass.sends_still
  have sent : Listed s.drain.lotPass.sends e :=
    passed.of (congrArg State.revisit still :) fun k => (congrArg (fun x : State => (x.report k).classLock) still :)
  exact sent.drain

/-- The consequences leave the step's record of the versions it has set, of the words it has written. -/
theorem State.settle_ledger (s : State) : s.settle.scratch.ledger = s.scratch.ledger := by
  have passed : s.drain.lotPass.scratch.ledger = s.drain.scratch.ledger := by rw [State.lotPass_scratch]
  have sent : s.drain.lotPass.sends.scratch.ledger = s.drain.lotPass.scratch.ledger :=
    (congrArg (fun x : State => x.scratch.ledger) s.drain.lotPass.sends_still :)
  exact (Told.drain _).ledger.trans (sent.trans (passed.trans (Told.drain s).ledger))

/-! ## A POST taken (R121, R123) -/

/-- The state in which a POST's write is judged as taken: the path free, the M-port's requests as they are by then. -/
def State.postTaken (s : State) (m : MPort) : State := { s.begin with path := { s.path with slot := .idle }, mport := m }

theorem State.judgePost_taken {s : State} {k : Slot} {i : Nat} {v : Word} {known : Option Word} (dead : s.entryLive k i = false)
    (room : s.revisit.posting.length < 16) (version : (known.filter fun _ => (s.storeEntry k i).isNone).or (s.oldVersion k i) = some v)
    (a : PAccess) : s.judgePost a k i known = s.passPost a k i (v + 1) := by
  have small : ¬ postingSize ≤ s.revisit.posting.length := Nat.not_le.2 room
  rw [State.judgePost, dead, if_neg Bool.false_ne_true, if_neg small, version]

theorem exec_postTaken {s : State} {k : Slot} {i : Nat} {v : Word} (h : s.ReadyFor (.defectEntry k i)) (unlocked : s.path.closedLock.get k = false)
    (dead : s.entryLive k i = false) (room : s.revisit.posting.length < 16) (version : s.oldVersion k i = some v) :
    exec (.post k i 15) s = .next (State.finish s ((s.postTaken s.mport).passPost (s.recordWrite (.defectEntry k i) 6 codePost 15) k i (v + 1))) := by
  have begun : s.postTaken s.mport = s.begin := by
    have path : ({ s.path with slot := .idle } : Path) = s.path := (congrArg (fun x => { s.path with slot := x }) h.free.idle).symm
    rw [State.postTaken, path]
    rfl
  rw [exec_post h unlocked, begun, State.judgePost_taken (s := s.begin) (known := none) dead room version]

theorem State.takeOffered_waiting {s : State} {a : PAccess} (h : s.path.slot = .waiting a) : s.takeOffered = s := by
  unfold State.takeOffered
  cases s.path.offered.length with
  | zero => rfl
  | succ n => simp only [State.takeOfferedFor, h]

theorem exec_postVersionRead {s : State} {k : Slot} {i : Nat} {rs : List PartRequest} (attached : s.anchor.attach = .attached)
    (watched : s.Watches (.defectEntry k i)) (held : s.path.slot = .held (s.recordWrite (.defectEntry k i) 6 codePost 15) .postVersion)
    (serving : s.mport.serving = some .part) (requests : s.mport.requests = .postVersion k i :: rs) (unstored : s.storeEntry k i = none)
    (unlocked : s.path.closedLock.get k = false) (dead : s.entryLive k i = false) (room : s.revisit.posting.length < 16) :
    exec .postVersionReadDone s = .next (State.finish s ((s.postTaken s.begin.endService.mport).passPost
      (s.recordWrite (.defectEntry k i) 6 codePost 15) k i (s.mem.readWord (s.entryVersionAddress k i) + 1))) := by
  rw [exec_effect (by nofun)]
  show Host.Outcome.next (State.finish s s.begin.servePostVersion) = _
  have served : s.begin.served = some (.postVersion k i) := State.served_part (s := s.begin) serving requests
  have slot : s.begin.path.slot = .held (s.recordWrite (.defectEntry k i) 6 codePost 15) .postVersion := held
  have word : (s.postTaken s.begin.endService.mport).wordAt (s.recordWrite (.defectEntry k i) 6 codePost 15).addr = .defect k i 6 :=
    watched 6 codePost 15 (by show 6 < 16; decide)
  have judged : (s.postTaken s.begin.endService.mport).judge (s.recordWrite (.defectEntry k i) 6 codePost 15)
      (some (s.mem.readWord (s.entryVersionAddress k i)))
        = (s.postTaken s.begin.endService.mport).passPost (s.recordWrite (.defectEntry k i) 6 codePost 15) k i
          (s.mem.readWord (s.entryVersionAddress k i) + 1) := by
    have free : ¬ (s.postTaken s.begin.endService.mport).path.closedLock.get k = true := Bool.not_eq_true _ ▸ unlocked
    have lifeless : (s.postTaken s.begin.endService.mport).entryLive k i = false := dead
    have version : ((some (s.mem.readWord (s.entryVersionAddress k i))).filter fun _ =>
        ((s.postTaken s.begin.endService.mport).storeEntry k i).isNone).or ((s.postTaken s.begin.endService.mport).oldVersion k i)
          = some (s.mem.readWord (s.entryVersionAddress k i)) := by
      have none : (s.postTaken s.begin.endService.mport).storeEntry k i = none := unstored
      rw [none]
      rfl
    rw [State.judge, if_pos (show (s.recordWrite (.defectEntry k i) 6 codePost 15).write = true from rfl), State.judgeWrite, word]
    show State.judgeDefect _ _ k i 6 _ = _
    rw [State.judgeDefect, if_neg (by decide), if_neg free, if_pos rfl, State.recordWrite, writeAccess, State.judgeControl_full (s.postTaken s.begin.endService.mport) _ _ _ _ _ attached, if_pos rfl]
    exact State.judgePost_taken lifeless room version _
  rw [State.servePostVersion, served, slot]
  show Host.Outcome.next (State.finish s (((s.postTaken s.begin.endService.mport).judge (s.recordWrite (.defectEntry k i) 6 codePost 15)
      (some (s.mem.readWord (s.entryVersionAddress k i)))).takeOffered)) = _
  rw [judged, State.takeOffered_waiting (a := s.recordWrite (.defectEntry k i) 6 codePost 15)]
  rfl

/-! ## The record of an earlier post dropped (R121, R167, R170) -/

theorem State.storeEntry_none {s : State} {k : Slot} {i : Nat} : s.storeEntry k i = none ↔ ∀ x ∈ s.revisit.store, x.is k i = false := by
  rw [State.storeEntry, List.find?_eq_none]
  exact forall₂_congr fun x _ => by rw [Bool.not_eq_true]

theorem State.dropEarlier_none {s : State} {k : Slot} {i : Nat} (h : s.storeEntry k i = none) : s.dropEarlier k i = s.unlockClass k i := by
  rw [State.dropEarlier, h]

theorem State.dropEarlier_some {s : State} {k : Slot} {i : Nat} {e : Entry} (h : s.storeEntry k i = some e) :
    s.dropEarlier k i = (s.dropRecord e).unlockClass k i := by
  rw [State.dropEarlier, h]

/-- The earlier record leaves the store, and only the reports change besides. -/
theorem State.dropEarlier_eq (s : State) (k : Slot) (i : Nat) : s.dropEarlier k i = { s with
    revisit := { s.revisit with store := s.revisit.store.filter fun x => !x.is k i }, reports := (s.dropEarlier k i).reports } := by
  cases h : s.storeEntry k i with
  | none =>
    have all : (s.revisit.store.filter fun x => !x.is k i) = s.revisit.store :=
      List.filter_eq_self.2 fun x hx => by rw [State.storeEntry_none.1 h x hx]; rfl
    rw [State.dropEarlier_none h, all]
    rfl
  | some e =>
    obtain ⟨rfl, rfl⟩ := State.storeEntry_is h
    rw [State.dropEarlier_some h]
    unfold State.dropRecord
    dsimp only
    split
    · split <;> rfl
    · rfl

/-- The earlier record's drop takes the same from two states with the same records and reports. -/
theorem State.dropEarlier_reports {s t : State} (revisit : t.revisit = s.revisit) (reports : t.reports = s.reports) (k : Slot) (i : Nat) :
    (t.dropEarlier k i).reports = (s.dropEarlier k i).reports := by
  have report (j : Slot) : t.report j = s.report j := by rw [State.report, reports]; rfl
  have stored : t.storeEntry k i = s.storeEntry k i := by rw [State.storeEntry, revisit]; rfl
  cases h : s.storeEntry k i with
  | none =>
    rw [State.dropEarlier_none h, State.dropEarlier_none (stored.trans h)]
    show t.reports.set k _ = s.reports.set k _
    rw [report, reports]
  | some e =>
    have back : (t.dropRecord e).reports = (s.dropRecord e).reports := by
      have counted (f : Row → Row) : (t.modRow e.wafer f).reports = (s.modRow e.wafer f).reports := by
        show t.reports.set e.wafer.slot _ = s.reports.set e.wafer.slot _
        rw [report, reports]
      unfold State.dropRecord
      dsimp only
      split
      · split
        · exact counted _
        · exact reports
      · exact reports
    rw [State.dropEarlier_some h, State.dropEarlier_some (stored.trans h)]
    show (t.dropRecord e).reports.set k _ = (s.dropRecord e).reports.set k _
    rw [State.report, State.report, back]

theorem State.modReport_same (s : State) (k : Slot) (f : Report → Report) : (s.modReport k f).report k = f (s.report k) := by
  cases k <;> rfl

theorem State.dropEarlier_unlocked (s : State) (k : Slot) (i : Nat) : (s.dropEarlier k i).classLocked k i = none := by
  have unlocked (t : State) : (t.unlockClass k i).classLocked k i = none := by
    unfold State.classLocked State.unlockClass
    rw [State.modReport_same, List.find?_eq_none]
    intro c hc
    simpa using (List.mem_filter.1 hc).2
  exact unlocked _

/-- The earlier record's drop changes no more of a report than its rows' bins and its class lock. -/
theorem State.dropEarlier_report (s : State) (k : Slot) (i : Nat) (j : Slot) : ((s.dropEarlier k i).report j).state = (s.report j).state
    ∧ ((s.dropEarlier k i).report j).unattributed = (s.report j).unattributed
    ∧ (s.storeEntry k i = none → ((s.dropEarlier k i).report j).rows = (s.report j).rows ∧ ((s.dropEarlier k i).report j).kept = (s.report j).kept) := by
  have unlock (t : State) : ((t.unlockClass k i).report j).state = (t.report j).state
      ∧ ((t.unlockClass k i).report j).unattributed = (t.report j).unattributed
      ∧ ((t.unlockClass k i).report j).rows = (t.report j).rows ∧ ((t.unlockClass k i).report j).kept = (t.report j).kept := by
    cases k <;> cases j <;> exact ⟨rfl, rfl, rfl, rfl⟩
  cases h : s.storeEntry k i with
  | none =>
    rw [State.dropEarlier_none h]
    obtain ⟨state, unattributed, rows, kept⟩ := unlock s
    exact ⟨state, unattributed, fun _ => ⟨rows, kept⟩⟩
  | some e =>
    have dropped : ((s.dropRecord e).report j).state = (s.report j).state ∧ ((s.dropRecord e).report j).unattributed = (s.report j).unattributed := by
      have counted (w : WaferName) (f : Row → Row) : (((s.modRow w f).leaveStore e.slot e.index).report j).state = (s.report j).state
          ∧ (((s.modRow w f).leaveStore e.slot e.index).report j).unattributed = (s.report j).unattributed := by
        obtain ⟨l, n⟩ := w
        cases l <;> cases j <;> exact ⟨rfl, rfl⟩
      unfold State.dropRecord
      dsimp only
      split
      · split
        · exact counted _ _
        · exact ⟨rfl, rfl⟩
      · exact ⟨rfl, rfl⟩
    obtain ⟨state, unattributed, -, -⟩ := unlock (s.dropRecord e)
    rw [State.dropEarlier_some h]
    exact ⟨state.trans dropped.1, unattributed.trans dropped.2, nofun⟩

/-! ## The post listed (R121, R123) -/

/-- The state that lists the post, the control word captured, the earlier record dropped. -/
def State.postListed (s : State) (m : MPort) (k : Slot) (i : Nat) (v : Word) : State :=
  (((s.postTaken m).capture k i 6 codePost 15).dropEarlier k i).listPost k i v

theorem State.postListed_eq (s : State) (m : MPort) (k : Slot) (i : Nat) (v : Word) : s.postListed m k i v =
    { s.begin with
      reports := (s.dropEarlier k i).reports
      mport := m
      revisit := { s.revisit with
        store := s.revisit.store.filter fun x => !x.is k i
        posting := s.revisit.posting ++ [Entry.fresh k i ((s.capture k i 6 codePost 15).handedWords k i) (s.nextSequence k)]
        postSequence := s.revisit.postSequence.set k (s.nextSequence k) }
      path := { s.path with slot := .idle, capture := dropLine (captureWrite s.path.capture k i 6 codePost 15) k i }
      wb := { s.wb with versions := putVersion s.wb.versions (.defectEntry k i) v }
      scratch := { Scratch.empty with versioned := [.defectEntry k i] } } := by
  rw [State.postListed, State.dropEarlier_eq,
    State.dropEarlier_reports (s := s) (t := (s.postTaken m).capture k i 6 codePost 15) rfl rfl]
  rfl

theorem State.takePost_waits {s : State} {k : Slot} {i : Nat} (h : missingFrom 0 (s.handedWords k i) ≠ []) (v : Word) :
    s.takePost k i v = ((s.dropEarlier k i).listPost k i v).countCaptureMiss.askAll ((missingFrom 0 (s.handedWords k i)).map fun w => .fill k i w) := by
  have some : ¬ (missingFrom 0 (s.handedWords k i)).isEmpty = true := fun empty => h (List.isEmpty_iff.1 empty)
  exact if_neg some

theorem State.takePost_checks {s : State} {k : Slot} {i : Nat} (h : missingFrom 0 (s.handedWords k i) = []) (v : Word) :
    s.takePost k i v = ((s.dropEarlier k i).listPost k i v).checkIfFilled k i :=
  if_pos (List.isEmpty_iff.2 h)

theorem missingFrom_nil : ∀ {k : Nat} {words : List (Option Word)}, missingFrom k words = [] → none ∉ words
  | _, [], _ => List.not_mem_nil
  | k, some _ :: rest, h => by
    have := missingFrom_nil (k := k + 1) (words := rest) h
    simpa using this
  | _, none :: _, h => nomatch h

/-! ## What the checks leave of the post sequence and the class locks -/

/-- The post sequence counts and the class locks are as before. -/
structure SameLocks (s t : State) : Prop where
  sequence : t.revisit.postSequence = s.revisit.postSequence
  classLock : ∀ k, (t.report k).classLock = (s.report k).classLock

theorem SameLocks.trans {s t u : State} (h : SameLocks s t) (g : SameLocks t u) : SameLocks s u :=
  ⟨g.sequence.trans h.sequence, fun k => (g.classLock k).trans (h.classLock k)⟩

theorem SameLocks.of {s t : State} (sequence : t.revisit.postSequence = s.revisit.postSequence) (reports : t.reports = s.reports) : SameLocks s t :=
  ⟨sequence, fun k => by rw [State.report, reports]; rfl⟩

theorem SameLocks.unreported {s t : State} (same : t.unreported = s.unreported) (locks : ∀ k, (t.report k).classLock = (s.report k).classLock) :
    SameLocks s t :=
  ⟨(congrArg (fun x : State => x.revisit.postSequence) same :), locks⟩

theorem SameLocks.countUnattributed (s : State) (j : Slot) : SameLocks s (s.countUnattributed j) := by
  refine .unreported (State.countUnattributed_unreported s j) fun k => ?_
  unfold State.countUnattributed
  split
  · cases j <;> cases k <;> rfl
  · rfl

theorem SameLocks.countPost (s : State) (w : WaferName) (fate : Option Outcome) : SameLocks s (s.countPost w fate) := by
  unfold State.countPost
  split
  · refine .unreported rfl fun k => ?_
    obtain ⟨j, n⟩ := w
    cases j <;> cases k <;> rfl
  · split
    · exact .countUnattributed s _
    · exact .of rfl rfl

theorem SameLocks.countRefused (s : State) (e : Entry) (why : EntryReason) : SameLocks s (s.countRefused e why) := by
  unfold State.countRefused
  split
  · exact .countUnattributed s _
  · exact .countPost s _ _

theorem SameLocks.refusePost (s : State) (e : Entry) (why : EntryReason) : SameLocks s (s.refusePost e why) := by
  rw [State.refusePost_eq]
  refine SameLocks.trans ?_ (.countRefused _ e why)
  obtain ⟨-, -, -, revisit, reports, -⟩ := (s.leavePosting e.slot e.index).addDirect_facts { e with state := .refused, reason := why }
  have entered := ((s.leavePosting e.slot e.index).addDirect { e with state := .refused, reason := why }).enterDirect_unqueued
  have sequence := congrArg Revisit.postSequence revisit
  exact .of ((congrArg (fun x : State => x.revisit.postSequence) entered :).trans sequence)
    ((congrArg State.reports entered :).trans reports)

theorem SameLocks.storeRecord (s : State) (e : Entry) : SameLocks s (s.storeRecord e) := .of rfl rfl

theorem SameLocks.finishEntry (s : State) (e : Entry) (st : EntryState) (why : EntryReason) : SameLocks s (s.finishEntry e st why) :=
  ⟨(congrArg (fun x : State => x.revisit.postSequence) (s.finishEntry_bare e st why) :), (Told.finishEntry s e st why).classLock⟩

theorem SameLocks.inserted (s : State) (w : WaferName) : SameLocks s (s.inserted w) := by
  unfold State.inserted
  split
  · rename_i waits
    split
    · rename_i e _ _
      have open_ : s.revisit.review ≠ .ended := by rw [waits.1]; nofun
      exact ⟨congrArg Kept.postSequence (quiet_takeEntry (.refl s) e open_).kept, (Told.takeEntry s e).classLock⟩
    · exact .of rfl rfl
  · exact .of rfl rfl

theorem SameLocks.takeIn (s : State) (e : Entry) : SameLocks s (s.takeIn e) := by
  unfold State.takeIn
  dsimp only
  split
  · exact ((SameLocks.countPost s _ _).trans (.storeRecord _ _)).trans (.inserted _ _)
  · split
    · exact (((SameLocks.finishEntry s _ _ _).trans (.countPost _ _ _)).trans (.storeRecord _ _)).trans (.inserted _ _)
    · exact (SameLocks.countPost s _ _).trans (.storeRecord _ _)

theorem SameLocks.checkPost (s : State) (e : Entry) : SameLocks s (s.checkPost e) := by
  cases check : s.postCheck e with
  | some why =>
    rw [State.checkPost_some check]
    exact .refusePost s e why
  | none =>
    simp only [State.checkPost, check]
    exact .takeIn s _

/-! ## The post checked at once (R123, R126) -/

theorem State.postListed_reports (s : State) (m : MPort) (k : Slot) (i : Nat) (v : Word) :
    (s.postListed m k i v).reports = (s.dropEarlier k i).reports := by
  rw [State.postListed_eq]

theorem State.postListed_gathered (s : State) (m : MPort) (k : Slot) (i : Nat) (v : Word) (words : List (Option Word)) (n : Nat) :
    Gathered (s.dropEarlier k i) (s.postListed m k i v) (Entry.fresh k i words n) m.requests v := by
  have reports := s.postListed_reports m k i v
  have listed := s.postListed_eq m k i v
  have dropped := s.dropEarlier_eq k i
  refine ⟨(congrArg State.lots listed :).trans (congrArg State.lots dropped :).symm,
    fun j => by rw [State.report, reports]; rfl, fun j => by rw [State.report, reports]; rfl, fun j => by rw [State.report, reports]; rfl,
    (congrArg (fun x : State => x.revisit.store) listed :).trans (congrArg (fun x : State => x.revisit.store) dropped :).symm,
    (congrArg (fun x : State => x.revisit.review) listed :).trans (congrArg (fun x : State => x.revisit.review) dropped :).symm,
    (congrArg (fun x : State => x.revisit.wafer) listed :).trans (congrArg (fun x : State => x.revisit.wafer) dropped :).symm,
    (congrArg (fun x : State => x.path.windows) listed :).trans (congrArg (fun x : State => x.path.windows) dropped :).symm,
    (congrArg (fun x : State => x.wb.direct) listed :).trans (congrArg (fun x : State => x.wb.direct) dropped :).symm,
    (congrArg (fun x : State => x.mport.requests) listed :), fun x hx => ?_, ?_⟩
  · have store : (s.postListed m k i v).revisit.store = s.revisit.store.filter fun x => !x.is k i :=
      (congrArg (fun x : State => x.revisit.store) listed :)
    rw [store] at hx
    exact Bool.not_eq_true' _ ▸ (List.mem_filter.1 hx).2
  · have set : (s.postListed m k i v).scratch.versioned = [.defectEntry k i] := (congrArg (fun x : State => x.scratch.versioned) listed :)
    have version : (s.postListed m k i v).version (.defectEntry k i) = v := by
      rw [listed]
      exact (versionIn_put _ _ _ _).trans (if_pos rfl)
    show (if (s.postListed m k i v).scratch.versioned.contains (.defectEntry k i) then _ else _) = _
    rw [set, if_pos (by simp)]
    exact version

/-- Without an earlier record the post is checked as against the state before it. -/
theorem State.postListed_gathered_fresh {s : State} {k : Slot} {i : Nat} (h : s.storeEntry k i = none) (m : MPort) (v : Word)
    (words : List (Option Word)) (n : Nat) : Gathered s (s.postListed m k i v) (Entry.fresh k i words n) m.requests v := by
  obtain ⟨lots, rows, reports, unattributed, store, review, reviewed, windows, direct, requests, fresh, version⟩ :=
    s.postListed_gathered m k i v words n
  have dropped := State.dropEarlier_none h
  rw [dropped] at lots store review reviewed windows direct
  refine ⟨lots, fun j => (rows j).trans ?_, fun j => (reports j).trans ?_, fun j => (unattributed j).trans ?_, store, review, reviewed, windows,
    direct, requests, fresh, version⟩
  · exact ((s.dropEarlier_report k i j).2.2 h).1
  · exact (s.dropEarlier_report k i j).1
  · exact (s.dropEarlier_report k i j).2.1

/-- A post without missing words is checked as it is listed. -/
theorem State.postTaken_checks {s : State} {m : MPort} {k : Slot} {i : Nat} {v : Word} {words : List (Option Word)}
    (hw : words = (s.capture k i 6 codePost 15).handedWords k i) (full : missingFrom 0 words = [])
    (alone : ∀ x ∈ s.revisit.posting, x.is k i = false) :
    ((s.postTaken m).capture k i 6 codePost 15).takePost k i v
      = (s.postListed m k i v).checkPost (Entry.fresh k i words (s.nextSequence k)) := by
  have taken : ((s.postTaken m).capture k i 6 codePost 15).takePost k i v = (s.postListed m k i v).checkIfFilled k i :=
    State.takePost_checks (by rw [← full, hw]; rfl) v
  have posting : (s.postListed m k i v).revisit.posting = s.revisit.posting ++ [Entry.fresh k i words (s.nextSequence k)] := by
    rw [hw]
    exact (congrArg (fun x : State => x.revisit.posting) (s.postListed_eq m k i v) :)
  have found : ((s.postListed m k i v).revisit.posting.find? fun x => x.is k i) = some (Entry.fresh k i words (s.nextSequence k)) := by
    rw [posting, List.find?_append, List.find?_eq_none.2 fun x hx => by rw [alone x hx]; exact Bool.false_ne_true, Option.none_or]
    simp [Entry.is, Entry.fresh]
  rw [taken, State.checkIfFilled, found]
  exact if_pos ((Entry.filled_iff _).2 (missingFrom_nil full))

/-! ## The post that waits for its words (R123) -/

/-- The state that lists the post and asks for its missing words. -/
def State.postFilling (s : State) (m : MPort) (k : Slot) (i : Nat) (v : Word) (words : List (Option Word)) : State :=
  (s.postListed m k i v).countCaptureMiss.askAll ((missingFrom 0 words).map fun w => .fill k i w)

theorem State.postTaken_waits {s : State} {m : MPort} {k : Slot} {i : Nat} {v : Word} {words : List (Option Word)}
    (hw : words = (s.capture k i 6 codePost 15).handedWords k i) (missing : missingFrom 0 words ≠ []) :
    ((s.postTaken m).capture k i 6 codePost 15).takePost k i v = s.postFilling m k i v words := by
  have handed : ((s.postTaken m).capture k i 6 codePost 15).handedWords k i = words := hw.symm
  have waits := State.takePost_waits (s := (s.postTaken m).capture k i 6 codePost 15) (k := k) (i := i) (by rw [handed]; exact missing) v
  rw [waits, handed]
  rfl

theorem State.postFilling_eq {s : State} {m : MPort} {k : Slot} {i : Nat} {v : Word} {words : List (Option Word)}
    (hw : words = (s.capture k i 6 codePost 15).handedWords k i) : s.postFilling m k i v words =
    { s.begin with
      reports := (s.dropEarlier k i).reports
      mport := { m with requests := m.requests ++ (missingFrom 0 words).map fun w => .fill k i w }
      anchor := { s.anchor with captureMiss := satInc 65535 s.anchor.captureMiss }
      revisit := { s.revisit with
        store := s.revisit.store.filter fun x => !x.is k i
        posting := s.revisit.posting ++ [Entry.fresh k i words (s.nextSequence k)]
        postSequence := s.revisit.postSequence.set k (s.nextSequence k) }
      path := { s.path with slot := .idle, capture := dropLine (captureWrite s.path.capture k i 6 codePost 15) k i }
      wb := { s.wb with versions := putVersion s.wb.versions (.defectEntry k i) v }
      scratch := { Scratch.empty with versioned := [.defectEntry k i] } } := by
  rw [State.postFilling, State.postListed_eq, ← hw]
  rfl

theorem State.postFilling_listed {s : State} {m : MPort} {k : Slot} {i : Nat} {v : Word} {words : List (Option Word)}
    (hw : words = (s.capture k i 6 codePost 15).handedWords k i) :
    Listed (s.postFilling m k i v words) (Entry.fresh k i words (s.nextSequence k)) := by
  have filling := State.postFilling_eq (m := m) (v := v) hw
  have posting : (s.postFilling m k i v words).revisit.posting = s.revisit.posting ++ [Entry.fresh k i words (s.nextSequence k)] :=
    (congrArg (fun x : State => x.revisit.posting) filling :)
  have store : (s.postFilling m k i v words).revisit.store = s.revisit.store.filter fun x => !x.is k i :=
    (congrArg (fun x : State => x.revisit.store) filling :)
  have reports : (s.postFilling m k i v words).reports = (s.dropEarlier k i).reports := (congrArg State.reports filling :)
  refine ⟨by rw [posting]; exact List.mem_append_right _ List.mem_cons_self, fun x hx there => ?_, ?_⟩
  · rw [store] at hx
    have off : x.is k i = false := Bool.not_eq_true' _ ▸ (List.mem_filter.1 hx).2
    have is : x.is k i = true := Entry.is_iff.2 there
    rw [is] at off
    cases off
  · have unlocked := s.dropEarlier_unlocked k i
    rw [State.classLocked, State.report] at unlocked ⊢
    rw [reports]
    exact unlocked

theorem Listed.owned {s : State} {e : Entry} (h : Listed s e) (attached : s.anchor.attach = .attached) :
    (s.ownerImage (.defectEntry e.slot e.index)).isSome := by
  have found : (s.revisit.posting.find? fun x => x.is e.slot e.index).isSome :=
    List.find?_isSome.2 ⟨e, h.posting, by simp [Entry.is]⟩
  rw [State.ownerImage, if_pos attached]
  show ((s.entry e.slot e.index).map Entry.image).isSome
  rw [Option.isSome_map, State.entry, Option.isSome_or, found]
  rfl

theorem State.pass_kept (s : State) (a : PAccess) : (s.pass a).kept = { s.kept with slot := .waiting a } := rfl

theorem State.postFilling_version {s : State} {m : MPort} {k : Slot} {i : Nat} {v : Word} {words : List (Option Word)}
    (hw : words = (s.capture k i 6 codePost 15).handedWords k i) (attached : s.anchor.attach = .attached) (a : PAccess) :
    (State.finish s ((s.postFilling m k i v words).settle.pass a)).version (.defectEntry k i) = v := by
  have filling := State.postFilling_eq (m := m) (v := v) hw
  have listed := (State.postFilling_listed (m := m) (v := v) hw).settle
  have kept := (s.postFilling m k i v words).settle_kept
  have ledger := (s.postFilling m k i v words).settle_ledger
  have versioned : (s.postFilling m k i v words).scratch.versioned = [.defectEntry k i] := (congrArg (fun x : State => x.scratch.versioned) filling :)
  have set : .defectEntry k i ∈ (s.postFilling m k i v words).settle.scratch.versioned := by
    have same : (s.postFilling m k i v words).settle.scratch.versioned = (s.postFilling m k i v words).scratch.versioned :=
      (congrArg Scratch.versioned ledger :)
    rw [same, versioned]
    exact List.mem_cons_self
  have anchor : (s.postFilling m k i v words).anchor.attach = s.anchor.attach := (congrArg (fun x : State => x.anchor.attach) filling :)
  have still : (s.postFilling m k i v words).settle.anchor.attach = .attached :=
    (congrArg (fun x : Kept => x.anchor.attach) kept :).trans (anchor.trans attached)
  have version : (s.postFilling m k i v words).settle.version (.defectEntry k i) = v := by
    have wb : (s.postFilling m k i v words).settle.wb = (s.postFilling m k i v words).wb := congrArg Kept.wb kept
    have versions : (s.postFilling m k i v words).wb.versions = putVersion s.wb.versions (.defectEntry k i) v :=
      (congrArg (fun x : State => x.wb.versions) filling :)
    rw [State.version, wb, versions, versionIn_put, if_pos rfl]
  exact (State.finish_versioned s (s := (s.postFilling m k i v words).settle.pass a) set (listed.owned still)).trans version

theorem captureLine_dropLine (c : List CaptureLine) (k : Slot) (i : Nat) : captureLine (dropLine c k i) k i = none := by
  rw [captureLine, dropLine, List.find?_eq_none]
  intro l hl
  rw [Bool.not_eq_true]
  exact Bool.not_eq_true' _ ▸ (List.mem_filter.1 hl).2

/-- The post listed and its missing words asked for, its write passed (R121, R123): what a POST not yet checked leaves. -/
def State.postAsked (s : State) (rs : List PartRequest) (k : Slot) (i : Nat) (words : List (Option Word)) (a : PAccess) : State :=
  { s with
    out := []
    revisit := { s.revisit with
      posting := s.revisit.posting ++ [Entry.fresh k i words (s.nextSequence k)]
      postSequence := s.revisit.postSequence.set k (s.nextSequence k) }
    anchor := { s.anchor with captureMiss := satInc 65535 s.anchor.captureMiss }
    mport := { s.mport with requests := rs ++ (missingFrom 0 words).map fun w => .fill k i w }
    path := { s.path with slot := .waiting a, capture := dropLine (captureWrite s.path.capture k i 6 codePost 15) k i } }

theorem State.postFilling_kept {s : State} {m : MPort} {k : Slot} {i : Nat} {v : Word} {words : List (Option Word)}
    (hw : words = (s.capture k i 6 codePost 15).handedWords k i) (fresh : s.storeEntry k i = none) (a : PAccess) :
    ((s.postFilling m k i v words).settle.pass a).content.kept = (s.postAsked m.requests k i words a).content.kept := by
  have passed : ((s.postFilling m k i v words).settle.pass a).kept = ((s.postFilling m k i v words).pass a).kept := by
    rw [State.pass_kept, State.settle_kept, State.pass_kept]
  rw [State.content_kept_of passed, State.postFilling_eq hw]
  have zero : (s.dropEarlier k i).reports.zero.kept = s.reports.zero.kept := ((s.dropEarlier_report k i .zero).2.2 fresh).2
  have one : (s.dropEarlier k i).reports.one.kept = s.reports.one.kept := ((s.dropEarlier_report k i .one).2.2 fresh).2
  have both : (⟨(s.dropEarlier k i).reports.zero.kept, (s.dropEarlier k i).reports.one.kept⟩ : Two ReportKept)
      = ⟨s.reports.zero.kept, s.reports.one.kept⟩ := by rw [zero, one]
  exact congrArg (fun r : Two ReportKept => { (s.postAsked m.requests k i words a).content.kept with reports := r }) both

/-- A counted bin goes back with the earlier record, of a row not closed (R121, R167). -/
theorem State.dropEarlier_bin {s : State} {k : Slot} {i : Nat} {e : Entry} {b : Nat} {r : Row} (he : s.storeEntry k i = some e)
    (reviewed : e.state = .reviewed) (opened : e.rowClosed = false) (bin : e.bin = some b) (hr : s.row e.wafer = some r) :
    (s.dropEarlier k i).row e.wafer = some { r with bins := binDec r.bins b } := by
  have given : s.dropRecord e = (s.modRow e.wafer fun r => { r with bins := binDec r.bins b }).leaveStore e.slot e.index := by
    unfold State.dropRecord
    rw [bin]
    exact congrArg (fun x : State => x.leaveStore e.slot e.index) (if_pos ⟨reviewed, by simp [opened]⟩)
  have unlock (t : State) : (t.unlockClass k i).row e.wafer = t.row e.wafer := State.row_modReport t k
    (f := fun r => { r with classLock := r.classLock.filter fun c => c.index != i }) (fun _ => rfl) _
  have counted : (s.modRow e.wafer fun r => { r with bins := binDec r.bins b }).row e.wafer = some { r with bins := binDec r.bins b } := by
    rw [State.row_modRow, if_pos rfl, hr]
    rfl
  rw [State.dropEarlier_some he, unlock, given]
  exact counted

/-! ## POST and POST_VERSION_READ_DONE (R121, R122) -/

/-- Settles O39. -/
theorem postTakenListsTheEntry : Obligations.PostTakenListsTheEntry := by
  intro s c k i v rs words n taken unlocked dead room hw hn
  have run : ∃ m : MPort, m.requests = rs ∧ s.anchor.attach = .attached ∧ exec c s = .next (State.finish s
      (((((s.postTaken m).capture k i 6 codePost 15).takePost k i (v + 1)).settle).pass (s.recordWrite (.defectEntry k i) 6 codePost 15))) := by
    rcases taken with ⟨rfl, ready, version, rfl⟩ | ⟨rfl, attached, watched, -, held, serving, requests, unstored, rfl⟩
    · exact ⟨s.mport, rfl, ready.attached, exec_postTaken ready unlocked dead room version⟩
    · exact ⟨s.begin.endService.mport, congrArg List.tail requests, attached,
        exec_postVersionRead attached watched held serving requests unstored unlocked dead room⟩
  clear taken
  obtain ⟨m, rfl, attached, run⟩ := run
  subst hn
  have waits (missing : missingFrom 0 words ≠ []) : exec c s = .next (State.finish s
      ((s.postFilling m k i (v + 1) words).settle.pass (s.recordWrite (.defectEntry k i) 6 codePost 15))) := by
    rw [run, State.postTaken_waits hw missing]
  have checks (full : missingFrom 0 words = []) (alone : ∀ x ∈ s.revisit.posting, x.is k i = false) : exec c s = .next (State.finish s
      ((((s.postListed m k i (v + 1)).checkPost (Entry.fresh k i words (s.nextSequence k))).settle).pass
        (s.recordWrite (.defectEntry k i) 6 codePost 15))) := by
    rw [run, State.postTaken_checks hw full alone]
  have listed := (State.postFilling_listed (m := m) (v := v + 1) hw).settle
  have version := State.postFilling_version (m := m) (v := v + 1) hw attached (s.recordWrite (.defectEntry k i) 6 codePost 15)
  have classLock : (State.finish s ((s.postFilling m k i (v + 1) words).settle.pass
      (s.recordWrite (.defectEntry k i) 6 codePost 15))).classLocked k i = none := by
    rw [State.finish_classLocked]
    exact listed.unlocked
  have posted := s.postListed_eq m k i (v + 1)
  obtain ⟨path, mem, clock⟩ := (s.postListed m k i (v + 1)).checkPost_frame (Entry.fresh k i words (s.nextSequence k))
  have locks := SameLocks.checkPost (s.postListed m k i (v + 1)) (Entry.fresh k i words (s.nextSequence k))
  have sequence : ((s.postListed m k i (v + 1)).checkPost (Entry.fresh k i words (s.nextSequence k))).revisit.postSequence
      = s.revisit.postSequence.set k (s.nextSequence k) :=
    locks.sequence.trans (congrArg (fun x : State => x.revisit.postSequence) posted :)
  have line : captureLine ((s.postListed m k i (v + 1)).checkPost (Entry.fresh k i words (s.nextSequence k))).path.capture k i = none := by
    rw [path, posted]
    exact captureLine_dropLine _ k i
  have lifted : ((s.postListed m k i (v + 1)).checkPost (Entry.fresh k i words (s.nextSequence k))).classLocked k i = none := by
    have unlocked := s.dropEarlier_unlocked k i
    rw [State.classLocked] at unlocked ⊢
    rw [locks.classLock, State.report, State.postListed_reports]
    exact unlocked
  have memory : ((s.postListed m k i (v + 1)).checkPost (Entry.fresh k i words (s.nextSequence k))).mem = s.mem :=
    mem.trans (congrArg State.mem posted :)
  have time : ((s.postListed m k i (v + 1)).checkPost (Entry.fresh k i words (s.nextSequence k))).clock = s.clock :=
    clock.trans (congrArg State.clock posted :)
  refine ⟨fun missing fresh => ⟨_, waits missing, version, classLock, ?_⟩,
    fun full fresh alone => ⟨_, checks full alone, ?_, sequence, line, lifted, memory, time⟩,
    fun missing e he => ⟨_, waits missing, ?_, classLock, ?_⟩,
    fun full e he alone => ⟨_, checks full alone, (s.postListed_gathered m k i (v + 1) words _).judged, lifted, fun x hx => ?_, sequence, line,
      memory, time⟩, fun missing e b r he reviewed opened bin hr => ?_⟩
  · rw [State.finish_content]
    exact State.postFilling_kept hw fresh _
  · exact (State.postListed_gathered_fresh fresh m (v + 1) words _).judged
  · rw [State.finish_storeEntry, State.storeEntry_none]
    intro x hx
    rw [← Bool.not_eq_true]
    exact fun is => listed.store x hx (Entry.is_iff.1 is)
  · rw [State.finish_revisit]
    exact ⟨_, listed.posting, by simp [Entry.is, Entry.fresh], rfl, rfl, rfl⟩
  · have store : (s.dropEarlier k i).revisit.store = s.revisit.store.filter fun x => !x.is k i :=
      (congrArg (fun x : State => x.revisit.store) (s.dropEarlier_eq k i) :)
    rw [store] at hx
    exact Bool.not_eq_true' _ ▸ (List.mem_filter.1 hx).2
  · have row : (s.postFilling m k i (v + 1) words).row e.wafer = some { r with bins := binDec r.bins b } := by
      rw [← State.dropEarlier_bin he reviewed opened bin hr]
      exact State.row_congr (congrArg State.reports (State.postFilling_eq (m := m) (v := v + 1) hw) :) _
    have kept := State.row_kept (s.postFilling m k i (v + 1) words).settle_kept e.wafer
    rw [row] at kept
    obtain ⟨r', hr', same⟩ := Option.map_eq_some_iff.1 kept
    refine ⟨_, r', waits missing, version, ?_, congrArg RowKept.posts same, congrArg RowKept.bins same⟩
    rw [State.finish_row]
    exact hr'

end Sys2Proof.Machine
end

section
/-! SUPPORT. A write that is judged stays in the path, and a held access is judged when its hold has ended. Settles O12. -/

namespace Sys2Proof.Machine

/-! ## A judged write stays in the path (R173) -/

@[simp] theorem State.setSlot_slot (s : State) (p : PathSlot) : (s.setSlot p).path.slot = p := rfl

theorem State.mask_engaged (s : State) (a : PAccess) : (s.mask a).path.slot ≠ .idle := by nofun
theorem State.pass_engaged (s : State) (a : PAccess) : (s.pass a).path.slot ≠ .idle := by nofun
theorem State.hold_engaged (s : State) (a : PAccess) (why : HoldReason) : (s.hold a why).path.slot ≠ .idle := by nofun
theorem State.passCaptured_engaged (s : State) (a : PAccess) (k : Slot) (i w : Nat) : (s.passCaptured a k i w).path.slot ≠ .idle := by nofun

theorem ite_engaged {p : Prop} [Decidable p] {s t : State} (hs : s.path.slot ≠ .idle) (ht : t.path.slot ≠ .idle) :
    (if p then s else t).path.slot ≠ .idle := by
  split <;> assumption

theorem State.judgeAnchor_engaged (s : State) (a : PAccess) (w : Nat) : (s.judgeAnchor a w).path.slot ≠ .idle := by
  have masked := s.mask_engaged a
  have passed := s.pass_engaged a
  have notice (n : Notice) := State.pass_engaged { s with notice := n } a
  exact ite_engaged (ite_engaged masked (ite_engaged (State.pass_engaged _ a)
      (ite_engaged (ite_engaged (State.mask_engaged _ a) (State.pass_engaged _ a)) passed)))
    (ite_engaged masked (ite_engaged (ite_engaged masked passed)
    (ite_engaged (ite_engaged masked (ite_engaged (State.pass_engaged _ a) passed))
    (ite_engaged (ite_engaged masked (ite_engaged (State.pass_engaged _ a) passed))
    (ite_engaged (notice _) (ite_engaged (ite_engaged masked (notice _)) (ite_engaged masked passed)))))))

theorem State.judgeHeader_engaged (s : State) (a : PAccess) (k : Slot) (w : Nat) : (s.judgeHeader a k w).path.slot ≠ .idle := by
  have masked := s.mask_engaged a
  have passed := s.pass_engaged a
  exact ite_engaged (ite_engaged masked (ite_engaged (State.pass_engaged _ a) passed))
    (ite_engaged (ite_engaged masked passed) (ite_engaged masked (ite_engaged masked passed)))

theorem State.rowCloseRequest_engaged (s : State) (a : PAccess) (w : WaferName) : (s.rowCloseRequest a w).path.slot ≠ .idle := by
  unfold State.rowCloseRequest
  split <;> try exact s.pass_engaged a
  refine ite_engaged (s.pass_engaged a) ?_
  split
  · exact ite_engaged (State.pass_engaged _ a) (s.mask_engaged a)
  · exact s.mask_engaged a

theorem State.judgeWaferEntry_engaged (s : State) (a : PAccess) (k : Slot) (n w : Nat) : (s.judgeWaferEntry a k n w).path.slot ≠ .idle := by
  have masked := s.mask_engaged a
  have passed := s.pass_engaged a
  exact ite_engaged masked (ite_engaged (ite_engaged masked passed)
    (ite_engaged (ite_engaged masked (ite_engaged (State.pass_engaged _ a) passed))
    (ite_engaged (ite_engaged masked (ite_engaged (s.rowCloseRequest_engaged a _) passed)) (ite_engaged masked passed))))

theorem State.judgePost_engaged (s : State) (a : PAccess) (k : Slot) (i : Nat) (known : Option Word) :
    (s.judgePost a k i known).path.slot ≠ .idle := by
  unfold State.judgePost
  refine ite_engaged (State.passCaptured_engaged _ a k i 6) (ite_engaged (s.hold_engaged a .postRoom) ?_)
  split
  · exact State.pass_engaged _ a
  · exact State.hold_engaged _ a .postVersion

theorem State.judgeClass_engaged (s : State) (a : PAccess) (k : Slot) (i : Nat) : (s.judgeClass a k i).path.slot ≠ .idle := by
  have captured (t : State) := t.passCaptured_engaged a k i 5
  unfold State.judgeClass
  refine ite_engaged (State.mask_engaged _ a) (ite_engaged (s.pass_engaged a) (ite_engaged (captured s) ?_))
  split
  · exact ite_engaged (s.hold_engaged a .classTable) (ite_engaged (captured _) (captured s))
  · exact captured s

theorem State.judgeDefect_engaged (s : State) (a : PAccess) (k : Slot) (i w : Nat) (known : Option Word) :
    (s.judgeDefect a k i w known).path.slot ≠ .idle := by
  have captured (t : State) (w : Nat) := t.passCaptured_engaged a k i w
  have control : (s.judgeControl a k i known).path.slot ≠ .idle :=
    ite_engaged (s.mask_engaged a) (ite_engaged (ite_engaged (s.judgePost_engaged a k i known)
      (ite_engaged (captured _ 6) (captured s 6))) (s.pass_engaged a))
  exact ite_engaged (s.judgeClass_engaged a k i) (ite_engaged (s.mask_engaged a) (ite_engaged control
    (ite_engaged (ite_engaged (captured _ w) (s.pass_engaged a)) (s.mask_engaged a))))

/-- A write that is judged passes, passes masked, or is held: it is in the path until it is served or released. -/
theorem State.judgeWrite_engaged (s : State) (a : PAccess) (known : Option Word) : (s.judgeWrite a known).path.slot ≠ .idle := by
  unfold State.judgeWrite
  split
  case h_1 => exact s.pass_engaged a
  case h_2 => exact s.judgeAnchor_engaged a _
  case h_3 => exact s.judgeHeader_engaged a _ _
  case h_4 => exact s.judgeWaferEntry_engaged a _ _ _
  case h_5 => exact s.judgeDefect_engaged a _ _ _ known
  case h_6 => exact s.mask_engaged a
  case h_7 => exact ite_engaged (State.pass_engaged _ a) (s.pass_engaged a)

/-- Behind an access in the path no offered one is taken. -/
theorem State.takeOffered_engaged {s : State} (h : s.path.slot ≠ .idle) : s.takeOffered = s := by
  unfold State.takeOffered
  cases s.path.offered.length with
  | zero => rfl
  | succ n =>
    rw [State.takeOfferedFor]
    split
    · contradiction
    · rfl

theorem State.takeOffered_none {s : State} (h : s.path.offered = []) : s.takeOffered = s := by
  rw [State.takeOffered, h]; rfl

/-! ## A held access released -/

theorem exec_heldAccessRelease (s : State) : exec .heldAccessRelease s = .next (State.finish s s.begin.releaseHeld) :=
  exec_effect (by nofun) s

theorem State.releaseHeld_ended {s : State} {a : PAccess} {why : HoldReason} (held : s.path.slot = .held a why)
    (ended : s.holdEnded why = true) : s.releaseHeld = ((s.setSlot .idle).take a).takeOffered := by
  simp only [State.releaseHeld, held, ended, if_true]

theorem State.releaseHeld_held {s : State} {a : PAccess} {why : HoldReason} (held : s.path.slot = .held a why)
    (waits : s.holdEnded why = false) : s.releaseHeld = s := by
  simp only [State.releaseHeld, held, waits, Bool.false_eq_true, if_false]

theorem State.take_free {s : State} (a : PAccess) (h : s.wb.direct = []) : s.take a = s.judge a none := by
  rw [State.take, h]; rfl

theorem State.take_busy {s : State} (a : PAccess) (h : s.wb.direct ≠ []) : s.take a = s.hold a .directWrites := by
  rw [State.take, if_neg (by simpa using h)]

/-- A released write is judged, and the path is then taken by it. -/
theorem State.releaseHeld_write {s : State} {a : PAccess} {why : HoldReason} (held : s.path.slot = .held a why)
    (ended : s.holdEnded why = true) (direct : s.wb.direct = []) (write : a.write = true) :
    s.releaseHeld = (s.setSlot .idle).judgeWrite a none := by
  rw [State.releaseHeld_ended held ended, State.take_free (s := s.setSlot .idle) a direct, State.judge, if_pos write]
  exact State.takeOffered_engaged (State.judgeWrite_engaged _ a none)

theorem State.holdEnded_iff {s : State} {why : HoldReason} :
    s.begin.holdEnded why = true ↔ (why = .directWrites ∧ s.wb.direct = []) ∨ (why = .postRoom ∧ s.revisit.posting.length < 16)
      ∨ (why = .classTable ∧ s.classTable.valid = true) := by
  have room : s.begin.holdEnded .postRoom = true ↔ s.revisit.posting.length < 16 := decide_eq_true_iff
  have direct : s.begin.holdEnded .directWrites = true ↔ s.wb.direct = [] := List.isEmpty_iff
  have table : s.begin.holdEnded .classTable = s.classTable.valid := rfl
  have version : s.begin.holdEnded .postVersion = false := rfl
  cases why <;> simp [room, direct, table, version]

/-- Settles O12: a write is judged as its command would be, a read answered or passed, and what has not ended stays held. -/
theorem heldAccessIsJudgedWhenItsHoldEnds : Obligations.HeldAccessIsJudgedWhenItsHoldEnds := by
  refine ⟨fun s a held write plain _ => ⟨_, exec_heldAccessRelease s, ?_⟩, fun s a why ended held offered hold => ?_⟩
  · rw [State.finish_content]
    by_cases direct : s.wb.direct = []
    · rw [State.releaseHeld_write (s := s.begin) held (State.holdEnded_iff.2 (.inl ⟨rfl, direct⟩)) direct write, State.judgeWrite]
      have there : (s.begin.setSlot .idle).wordAt a.addr = .plain := plain
      rw [there, if_pos direct]
      rfl
    · have waits : s.begin.holdEnded .directWrites = false :=
        Bool.eq_false_iff.2 fun e => direct (by simpa using State.holdEnded_iff.1 e)
      rw [State.releaseHeld_held (s := s.begin) held waits, if_neg direct]
      rfl
  have holds : s.begin.holdEnded why = true ↔ ended := State.holdEnded_iff.trans hold.symm
  refine ⟨fun c past direct access => ⟨_, exec_heldAccessRelease s, ?_⟩, fun past direct read => ⟨_, exec_heldAccessRelease s, ?_⟩,
    fun past direct => ⟨_, exec_heldAccessRelease s, ?_⟩, fun waits => ⟨_, exec_heldAccessRelease s, ?_⟩⟩
  · rw [State.releaseHeld_write (s := s.begin) held (holds.2 past) direct (State.accessOf_write access),
      exec_access_free (s := { s with path := { s.path with slot := .idle } }) (c := c) (a := a) (by cases c <;> exact access) ⟨rfl, direct⟩]
    rfl
  · rw [State.finish_content, State.releaseHeld_ended (s := s.begin) held (holds.2 past),
      State.take_free (s := s.begin.setSlot .idle) a direct, State.judge, if_neg (by simp [read]), State.judgeRead]
    have same : (s.begin.setSlot .idle).answer a.addr = s.answer a.addr := rfl
    rw [same]
    cases s.answer a.addr <;> dsimp only <;> rw [State.takeOffered_none]
    case some v => rfl
    case none => rfl
    all_goals exact offered
  · rw [State.finish_content, State.releaseHeld_ended (s := s.begin) held (holds.2 past),
      State.take_busy (s := s.begin.setSlot .idle) a direct,
      State.takeOffered_engaged (State.hold_engaged _ a .directWrites)]
    rfl
  · rw [State.finish_content, State.releaseHeld_held (s := s.begin) held (Bool.eq_false_iff.2 fun e => waits (holds.1 e))]
    rfl

end Sys2Proof.Machine
end

section
/-! SUPPORT. The invariant of the entries, the lots and the path, and what keeps it. -/

namespace Sys2Proof.Machine

/-! ## What the invariant of the entries, the lots and the path speaks of -/

structure LotFile where
  state : LotState
  fetch : Option (List (FetchItem × Word))
  recipe : Option Recipe
  bare : Bool

structure ReportFile where
  state : ReportState
  rows : List RowState

def Lot.file (l : Lot) : LotFile := ⟨l.state, l.fetch, l.recipe, l.wafers.isEmpty⟩
def Report.file (r : Report) : ReportFile := ⟨r.state, r.rows.map (·.state)⟩

/-- The records of the entries, the lots and the reports, with the closed-report locks and the attach state. -/
structure Files where
  posting : List Entry
  store : List Entry
  lots : Two LotFile
  reports : Two ReportFile
  closedLock : Two Bool
  attach : AttachState

/-- The review of the stage wafer, with the store's records. -/
structure ReviewFile where
  store : List Entry
  reviewed : Option WaferName
  review : ReviewState
  active : Option ActiveRevisit
  timer : Option Timer
  alignState : TransformState
  alignWafer : Option WaferName

/-- The write-back record, the M-port, the layout read so far, and what the step has set and written. -/
structure PortFile where
  wb : WriteBack
  mport : MPort
  layoutGot : List Word
  versioned : List RecId
  written : List RecId

def State.files (s : State) : Files where
  posting := s.revisit.posting
  store := s.revisit.store
  lots := ⟨s.lots.zero.file, s.lots.one.file⟩
  reports := ⟨s.reports.zero.file, s.reports.one.file⟩
  closedLock := s.path.closedLock
  attach := s.anchor.attach

def State.reviewFile (s : State) : ReviewFile where
  store := s.revisit.store
  reviewed := s.revisit.wafer
  review := s.revisit.review
  active := s.revisit.active
  timer := s.revisit.timer
  alignState := s.align.state
  alignWafer := s.align.wafer

def State.portFile (s : State) : PortFile := ⟨s.wb, s.mport, s.path.layoutGot, s.scratch.versioned, s.scratch.written⟩

section
variable {s t : State}

theorem State.files_lot (h : t.files = s.files) (k : Slot) : (t.lot k).file = (s.lot k).file := by
  cases k
  · exact (congrArg (fun x : Files => x.lots.zero) h :)
  · exact (congrArg (fun x : Files => x.lots.one) h :)

theorem State.files_report (h : t.files = s.files) (k : Slot) : (t.report k).file = (s.report k).file := by
  cases k
  · exact (congrArg (fun x : Files => x.reports.zero) h :)
  · exact (congrArg (fun x : Files => x.reports.one) h :)

end

/-- The rows of a report by their states: row `n` is OPEN. -/
def ReportFile.rowOpen (r : ReportFile) (n : Nat) : Bool := getAt r.rows n == some .opened

theorem getAt_map {α β : Type} (f : α → β) (l : List α) (n : Nat) : getAt (l.map f) n = (getAt l n).map f := by
  unfold getAt
  split <;> simp

theorem State.rowOpen_file (s : State) (w : WaferName) : s.rowOpen w = (s.report w.slot).file.rowOpen w.n := by
  rw [ReportFile.rowOpen, Report.file, getAt_map, State.rowOpen, State.row]
  cases getAt (s.report w.slot).rows w.n with
  | none => rfl
  | some r => cases h : r.state <;> simp [h]

theorem State.files_rowOpen {s t : State} (h : t.files = s.files) (w : WaferName) : t.rowOpen w = s.rowOpen w := by
  rw [State.rowOpen_file, State.rowOpen_file, State.files_report h]

theorem State.files_recipe {s t : State} (h : t.files = s.files) (k : Slot) : t.recipe k = s.recipe k :=
  congrArg (fun l : LotFile => l.recipe.getD Recipe.blank) (State.files_lot h k)

/-! ## The invariant in its two parts -/

/-- The entries' records, the lots and the reports, the closed-report locks, and what is held when not ATTACHED. -/
structure State.Kempt (s : State) : Prop where
  once : s.Once
  posting : ∀ e ∈ s.revisit.posting, e.state = .posting
  room : s.revisit.store.length ≤ 1024
  limit : ∀ w, 0 < s.admittedOf w → (s.admittedOf w : Int) ≤ (s.recipe w.slot).revisitLimit
  lots : ∀ k, s.LotSound k
  lock : s.anchor.attach = .attached → ∀ k, s.path.closedLock.get k = decide ((s.report k).state = .closed)
  apart : s.anchor.attach ≠ .attached → s.revisit.posting = [] ∧ s.revisit.store = []
    ∧ ∀ k, (s.lot k).state = .empty ∧ (s.report k).state = .none
  unlocked : s.anchor.attach = .detached ∨ s.anchor.attach = .checking → s.path.closedLock = .both false

/-- The review of the stage wafer (R67, R138 to R140, R149). -/
structure State.Reviews (s : State) : Prop where
  active : ∀ e ∈ s.revisit.store, e.state = .active → ∃ a, s.revisit.active = some a ∧ e.is a.slot a.index = true
  revisiting : s.revisit.active.isSome → s.revisit.review = .revisiting
  timed : s.revisit.timer.isSome → s.revisit.review = .waiting
  aligned : s.align.state = .measuring → s.revisit.review = .aligning
  named : s.align.wafer = s.revisit.wafer

structure State.Core (s : State) : Prop where
  kempt : s.Kempt
  reviews : s.Reviews

theorem State.LotSound.files {s t : State} {k : Slot} (h : s.LotSound k) (lot : (t.lot k).file = (s.lot k).file)
    (report : (t.report k).file = (s.report k).file) (store : t.revisit.store = s.revisit.store) : t.LotSound k := by
  have state : (t.lot k).state = (s.lot k).state := congrArg LotFile.state lot
  have fetch : (t.lot k).fetch = (s.lot k).fetch := congrArg LotFile.fetch lot
  have bare : (t.lot k).wafers.isEmpty = (s.lot k).wafers.isEmpty := congrArg LotFile.bare lot
  have reportState : (t.report k).state = (s.report k).state := congrArg ReportFile.state report
  have rows : (t.report k).rows.map (·.state) = (s.report k).rows.map (·.state) := congrArg ReportFile.rows report
  have opened (n : Nat) : t.rowOpen ⟨k, n⟩ = s.rowOpen ⟨k, n⟩ := by
    rw [State.rowOpen_file, State.rowOpen_file, report]
  refine ⟨by rw [state, fetch]; exact h.starting, by rw [state, fetch]; exact h.started, by rw [state, fetch, reportState]; exact h.report,
    fun none => ?_, fun there => ?_, fun there n => ?_, fun e he slot open_ => ?_⟩
  · rw [reportState] at none
    obtain ⟨wafers, empty⟩ := h.noTable none
    rw [wafers] at bare
    rw [empty] at rows
    exact ⟨List.isEmpty_iff.1 bare, List.map_eq_nil_iff.1 rows⟩
  · rw [reportState] at there
    have length := congrArg List.length rows
    rw [List.length_map, List.length_map, h.rows there] at length
    exact length
  · rw [reportState] at there
    rw [opened]
    exact h.closed there n
  · rw [store] at he
    have here := h.opened e he slot open_
    subst slot
    exact (opened _).trans here

theorem State.Kempt.same {s t : State} (h : s.Kempt) (same : t.files = s.files) : t.Kempt := by
  have posting : t.revisit.posting = s.revisit.posting := (congrArg Files.posting same :)
  have store : t.revisit.store = s.revisit.store := (congrArg Files.store same :)
  have closedLock : t.path.closedLock = s.path.closedLock := (congrArg Files.closedLock same :)
  have attach : t.anchor.attach = s.anchor.attach := (congrArg Files.attach same :)
  have lot (k : Slot) : (t.lot k).state = (s.lot k).state := congrArg LotFile.state (State.files_lot same k)
  have report (k : Slot) : (t.report k).state = (s.report k).state := congrArg ReportFile.state (State.files_report same k)
  refine ⟨by rw [State.Once, posting, store]; exact h.once, by rw [posting]; exact h.posting, by rw [store]; exact h.room, fun w => ?_,
    fun k => (h.lots k).files (State.files_lot same k) (State.files_report same k) store, fun attached k => ?_, fun apart => ?_, fun off => ?_⟩
  · rw [State.files_recipe same, State.admittedOf, store]
    exact h.limit w
  · rw [attach] at attached
    rw [closedLock, report]
    exact h.lock attached k
  · rw [attach] at apart
    rw [posting, store]
    simp only [lot, report]
    exact h.apart apart
  · rw [attach] at off
    rw [closedLock]
    exact h.unlocked off

theorem State.Reviews.same {s t : State} (h : s.Reviews) (same : t.reviewFile = s.reviewFile) : t.Reviews := by
  have store : t.revisit.store = s.revisit.store := (congrArg ReviewFile.store same :)
  have reviewed : t.revisit.wafer = s.revisit.wafer := (congrArg ReviewFile.reviewed same :)
  have review : t.revisit.review = s.revisit.review := (congrArg ReviewFile.review same :)
  have active : t.revisit.active = s.revisit.active := (congrArg ReviewFile.active same :)
  have timer : t.revisit.timer = s.revisit.timer := (congrArg ReviewFile.timer same :)
  have state : t.align.state = s.align.state := (congrArg ReviewFile.alignState same :)
  have wafer : t.align.wafer = s.align.wafer := (congrArg ReviewFile.alignWafer same :)
  exact ⟨by rw [store, active]; exact h.active, by rw [active, review]; exact h.revisiting, by rw [timer, review]; exact h.timed,
    by rw [state, review]; exact h.aligned, by rw [wafer, reviewed]; exact h.named⟩

theorem State.Core.same {s t : State} (h : s.Core) (files : t.files = s.files := by rfl) (review : t.reviewFile = s.reviewFile := by rfl) : t.Core :=
  ⟨h.kempt.same files, h.reviews.same review⟩

/-- An operation inside a step that keeps the entries, the lots and the locks sound, and that leaves the write-back record, the M-port and
the attach state as they are. -/
structure Neat (s t : State) : Prop where
  kempt : s.Kempt → t.Kempt
  port : t.portFile = s.portFile
  attach : t.anchor.attach = s.anchor.attach

theorem Neat.refl (s : State) : Neat s s := ⟨id, rfl, rfl⟩

theorem Neat.trans {s t u : State} (h : Neat s t) (g : Neat t u) : Neat s u :=
  ⟨fun kempt => g.kempt (h.kempt kempt), g.port.trans h.port, g.attach.trans h.attach⟩

theorem Neat.same {s t : State} (files : t.files = s.files := by rfl) (port : t.portFile = s.portFile := by rfl) : Neat s t :=
  ⟨fun kempt => kempt.same files, port, (congrArg Files.attach files :)⟩

theorem Neat.rest {s t : State} (h : t.rest = s.rest) : Neat s t := .same (congrArg State.files h :) (congrArg State.portFile h :)

/-- A neat operation that keeps the review of the stage wafer sound. -/
structure Tidy (s t : State) : Prop where
  neat : Neat s t
  reviews : s.Core → t.Reviews

theorem Tidy.core {s t : State} (h : Tidy s t) (core : s.Core) : t.Core := ⟨h.neat.kempt core.kempt, h.reviews core⟩

theorem Tidy.refl (s : State) : Tidy s s := ⟨.refl s, State.Core.reviews⟩

theorem Tidy.trans {s t u : State} (h : Tidy s t) (g : Tidy t u) : Tidy s u :=
  ⟨h.neat.trans g.neat, fun core => g.reviews (h.core core)⟩

theorem Tidy.same {s t : State} (files : t.files = s.files := by rfl) (review : t.reviewFile = s.reviewFile := by rfl)
    (port : t.portFile = s.portFile := by rfl) : Tidy s t :=
  ⟨.same files port, fun core => core.reviews.same review⟩

theorem Tidy.rest {s t : State} (h : t.rest = s.rest) : Tidy s t :=
  .same (congrArg State.files h :) (congrArg State.reviewFile h :) (congrArg State.portFile h :)

theorem Tidy.still {s t : State} (h : t.still = s.still) : Tidy s t :=
  .same (congrArg State.files h :) (congrArg State.reviewFile h :) (congrArg State.portFile h :)

/-! ## Changes of entries' records -/

/-- The files without the entries' records. -/
def Files.bare (f : Files) : Files := { f with posting := [], store := [] }

/-- Entries' records changed: no more of them, none newly admitted, and none in another row or in a row opened again. -/
structure Rewrites (s t : State) : Prop where
  bare : t.files.bare = s.files.bare
  once : t.Once
  posting : ∀ e ∈ t.revisit.posting, e.state = .posting
  fewer : t.revisit.store.length ≤ s.revisit.store.length
  limit : ∀ w, t.admittedOf w ≤ s.admittedOf w
  opened : ∀ e ∈ t.revisit.store, e.rowClosed = false → ∃ x ∈ s.revisit.store, x.rowClosed = false ∧ x.wafer = e.wafer
  apart : s.revisit.posting = [] ∧ s.revisit.store = [] → t.revisit.posting = [] ∧ t.revisit.store = []

theorem State.Kempt.rewrites {s t : State} (h : s.Kempt) (g : Rewrites s t) : t.Kempt := by
  have attach : t.anchor.attach = s.anchor.attach := (congrArg Files.attach g.bare :)
  have swap : ({ t with revisit := { t.revisit with posting := s.revisit.posting, store := s.revisit.store } } : State).files = s.files :=
    congrArg (fun f : Files => { f with posting := s.revisit.posting, store := s.revisit.store }) g.bare
  have there := h.same swap
  refine ⟨g.once, g.posting, g.fewer.trans h.room, fun w some => ?_, fun k => ?_, there.lock, fun apart => ?_, there.unlocked⟩
  · have fewer := g.limit w
    have bound := there.limit w (by show 0 < s.admittedOf w; omega)
    have same : (({ t with revisit := { t.revisit with posting := s.revisit.posting, store := s.revisit.store } } : State).admittedOf w : Int)
        = s.admittedOf w := rfl
    rw [same] at bound
    have recipe : ({ t with revisit := { t.revisit with posting := s.revisit.posting, store := s.revisit.store } } : State).recipe w.slot
        = t.recipe w.slot := rfl
    rw [recipe] at bound
    omega
  · obtain ⟨starting, started, report, noTable, rows, closed, opened⟩ := there.lots k
    refine ⟨starting, started, report, noTable, rows, closed, fun e he slot open_ => ?_⟩
    obtain ⟨x, hx, stays, wafer⟩ := g.opened e he open_
    rw [← wafer]
    exact opened x hx (by rw [← slot]; exact congrArg WaferName.slot wafer) stays
  · obtain ⟨posting, store, rest⟩ := there.apart apart
    obtain ⟨p, q⟩ := g.apart ⟨posting, store⟩
    exact ⟨p, q, rest⟩

/-- The review with the store's records changed, none newly ACTIVE. -/
theorem State.Reviews.fewer {s t : State} (h : s.Reviews) (same : { t.reviewFile with store := [] } = { s.reviewFile with store := [] })
    (active : ∀ e ∈ t.revisit.store, e.state = .active → ∃ x ∈ s.revisit.store, x.state = .active ∧ x.id = e.id) : t.Reviews := by
  have swap : ({ t with revisit := { t.revisit with store := s.revisit.store } } : State).reviewFile = s.reviewFile :=
    congrArg (fun f : ReviewFile => { f with store := s.revisit.store }) same
  obtain ⟨there, revisiting, timed, aligned, named⟩ := h.same swap
  refine ⟨fun e he live => ?_, revisiting, timed, aligned, named⟩
  obtain ⟨x, hx, was, id⟩ := active e he live
  obtain ⟨a, ha, is⟩ := there x hx was
  exact ⟨a, ha, Entry.is_iff.2 (id.symm.trans (Entry.is_iff.1 is))⟩

theorem admitted_map_le {l : List Entry} {g : Entry → Entry} (w : WaferName)
    (h : ∀ x ∈ l, (decide ((g x).wafer = w) && (g x).state.isAdmitted && !(g x).rowClosed) = true →
      (decide (x.wafer = w) && x.state.isAdmitted && !x.rowClosed) = true) :
    ((l.map g).filter fun e => decide (e.wafer = w) && e.state.isAdmitted && !e.rowClosed).length
      ≤ (l.filter fun e => decide (e.wafer = w) && e.state.isAdmitted && !e.rowClosed).length := by
  rw [← List.countP_eq_length_filter, ← List.countP_eq_length_filter, List.countP_map]
  exact List.countP_mono_left h

/-- What a change of the records of one entry may do to a store record. -/
structure EntryLess (x y : Entry) : Prop where
  id : y.id = x.id
  wafer : y.wafer = x.wafer
  closed : y.rowClosed = x.rowClosed
  admitted : y.state.isAdmitted = true → x.state.isAdmitted = true

theorem EntryLess.refl (x : Entry) : EntryLess x x := ⟨rfl, rfl, rfl, fun h => h⟩

theorem Rewrites.modEntry {s : State} (h : s.Kempt) {k : Slot} {i : Nat} {f : Entry → Entry}
    (store : ∀ x ∈ s.revisit.store, x.is k i = true → EntryLess x (f x))
    (posting : ∀ x ∈ s.revisit.posting, x.is k i = true → (f x).id = x.id ∧ (f x).state = .posting) : Rewrites s (s.modEntry k i f) := by
  have less (x : Entry) (hx : x ∈ s.revisit.store) : EntryLess x (if x.is k i then f x else x) := by
    split
    · rename_i is
      exact store x hx is
    · exact .refl x
  have same (x : Entry) (hx : x ∈ s.revisit.posting) :
      (if x.is k i then f x else x).id = x.id ∧ (if x.is k i then f x else x).state = .posting := by
    split
    · rename_i is
      exact posting x hx is
    · exact ⟨rfl, h.posting x hx⟩
  have stored : (s.modEntry k i f).revisit.store = s.revisit.store.map fun x => if x.is k i then f x else x := rfl
  have listed : (s.modEntry k i f).revisit.posting = s.revisit.posting.map fun x => if x.is k i then f x else x := rfl
  refine ⟨rfl, ?_, fun e he => ?_, (List.length_map _).le, fun w => admitted_map_le w fun x hx => ?_, fun e he open_ => ?_, fun none => ?_⟩
  · have ids : ((s.modEntry k i f).revisit.posting ++ (s.modEntry k i f).revisit.store).map Entry.id
        = (s.revisit.posting ++ s.revisit.store).map Entry.id := by
      rw [stored, listed, List.map_append, List.map_append, List.map_map, List.map_map]
      exact congrArg₂ _ (List.map_congr_left fun x hx => (same x hx).1) (List.map_congr_left fun x hx => (less x hx).id)
    rw [State.Once, ids]
    exact h.once
  · rw [listed] at he
    obtain ⟨x, hx, rfl⟩ := List.mem_map.1 he
    exact (same x hx).2
  · have y := less x hx
    rw [y.wafer, y.closed]
    simp only [Bool.and_eq_true]
    exact fun ⟨⟨a, b⟩, c⟩ => ⟨⟨a, y.admitted b⟩, c⟩
  · rw [stored] at he
    obtain ⟨x, hx, rfl⟩ := List.mem_map.1 he
    exact ⟨x, hx, (less x hx).closed.symm.trans open_, (less x hx).wafer.symm⟩
  · rw [stored, listed, none.1, none.2]
    exact ⟨rfl, rfl⟩

end Sys2Proof.Machine
end

section
/-! SUPPORT. The review of the stage wafer through the blocks' work, and what blocks tell each other. -/

namespace Sys2Proof.Machine

/-! ## The review of the stage wafer through the blocks' work -/

/-- No entry is under review and no mark is being measured. -/
structure State.BetweenEntries (s : State) : Prop where
  active : s.revisit.active = none
  aligned : s.align.state ≠ .measuring

section
variable {s t : State}

theorem State.Reviews.rest (h : s.Reviews) (same : t.rest = s.rest) : t.Reviews := h.same (congrArg State.reviewFile same :)

/-- Nothing is ACTIVE when the review names no entry. -/
theorem State.Reviews.none_active (h : s.Reviews) (none : s.revisit.active = none) {x : Entry} (hx : x ∈ s.revisit.store) :
    x.state ≠ .active := by
  intro active
  obtain ⟨a, ha, -⟩ := h.active x hx active
  rw [none] at ha
  cases ha

/-- The one ACTIVE record is the one found. -/
theorem State.Reviews.active_id (h : s.Reviews) {e x : Entry} (found : s.activeEntry = some e) (hx : x ∈ s.revisit.store)
    (active : x.state = .active) : x.id = e.id := by
  obtain ⟨a, ha, is⟩ := h.active x hx active
  obtain ⟨there, -⟩ := Option.filter_eq_some_iff.1 found
  rw [ha] at there
  have named : e.is a.slot a.index = true := by simpa using List.find?_some there
  exact (Entry.is_iff.1 is).trans (Entry.is_iff.1 named).symm

theorem State.Reviews.aligning (h : s.Reviews) (review : s.revisit.review = .aligning) : s.revisit.active = none := by
  by_contra some
  have revisiting := h.revisiting (Option.isSome_iff_ne_none.2 some)
  rw [review] at revisiting
  cases revisiting

theorem State.Reviews.waiting (h : s.Reviews) (review : s.revisit.review = .waiting) : s.BetweenEntries := by
  refine ⟨?_, fun measuring => ?_⟩
  · by_contra some
    have revisiting := h.revisiting (Option.isSome_iff_ne_none.2 some)
    rw [review] at revisiting
    cases revisiting
  · have aligning := h.aligned measuring
    rw [review] at aligning
    cases aligning

theorem State.Reviews.modWafer (h : s.Reviews) (w : WaferName) (f : Wafer → Wafer) : (s.modWafer w f).Reviews := h.same rfl
theorem State.Reviews.enter (h : s.Reviews) (w : WaferName) (f : Row → Row) : (s.enter w f).Reviews := h.same rfl

theorem State.raise_reviewFile (s : State) (k : NoticeKind) : (s.raise k).reviewFile = s.reviewFile := by
  unfold State.raise
  split <;> rfl

theorem State.Reviews.raise (h : s.Reviews) (k : NoticeKind) : (s.raise k).Reviews := h.same (s.raise_reviewFile k)

theorem State.setAlign_reviewFile (s : State) (a : Align) :
    (s.setAlign a).reviewFile = { s.reviewFile with alignState := a.state, alignWafer := a.wafer } := by
  unfold State.setAlign
  dsimp only
  split <;> rfl

theorem State.Reviews.setAlign (h : s.Reviews) {a : Align} (wafer : a.wafer = s.align.wafer)
    (measuring : a.state = .measuring → s.revisit.review = .aligning) : (s.setAlign a).Reviews := by
  have set : State.Reviews { s with align := a } := ⟨h.active, h.revisiting, h.timed, measuring, wafer.trans h.named⟩
  exact set.same (s.setAlign_reviewFile a)

/-- Records changed and none made ACTIVE. -/
theorem State.Reviews.modEntry (h : s.Reviews) (k : Slot) (i : Nat) {f : Entry → Entry} (id : ∀ x, (f x).id = x.id)
    (active : ∀ x, (f x).state = .active → x.state = .active) : (s.modEntry k i f).Reviews := by
  refine h.fewer rfl fun e he live => ?_
  obtain ⟨x, hx, rfl⟩ := List.mem_map.1 he
  refine ⟨x, hx, ?_, ?_⟩
  · split at live
    · exact active x live
    · exact live
  · split
    · exact (id x).symm
    · rfl

theorem State.Reviews.finishEntry (h : s.Reviews) (e : Entry) {st : EntryState} (why : EntryReason) (off : st ≠ .active) :
    (s.finishEntry e st why).Reviews := by
  have ended := h.modEntry (f := fun x => { x with state := st, reason := why }) e.slot e.index (fun _ => rfl) fun _ live => absurd live off
  unfold State.finishEntry
  dsimp only
  split
  · exact ended.enter _ _
  · exact ended

theorem State.Reviews.finishEntries {st : EntryState} (why : EntryReason) (off : st ≠ .active) (l : List Entry) :
    ∀ {s : State}, s.Reviews → (l.foldl (fun s e => s.finishEntry e st why) s).Reviews := by
  induction l with
  | nil => exact fun h => h
  | cons e l ih => exact fun h => ih (h.finishEntry e why off)

theorem State.Reviews.endQueued (h : s.Reviews) (w : WaferName) (why : EntryReason) : (s.endQueued w why).Reviews :=
  .finishEntries (st := .aborted) why nofun _ h

theorem State.Reviews.toReviewEnded (h : s.Reviews) (w : WaferName) : (s.toReviewEnded w).Reviews := by
  obtain same | ⟨x, same⟩ := s.toReviewEnded_cases w
  · rw [same]
    exact h
  · rw [same]
    exact (((h.modWafer w _).enter w _).enter w _).endQueued w _

theorem State.Reviews.endReview (h : s.Reviews) (none : ∀ e ∈ s.revisit.store, e.state ≠ .active) (aligned : s.align.state ≠ .measuring) :
    s.endReview.Reviews :=
  ⟨fun _ he active => absurd active (none _ he), nofun, nofun, fun measuring => absurd measuring aligned, h.named⟩

theorem State.Reviews.normalEnd (h : s.Reviews) (b : s.BetweenEntries) (w : WaferName) : (s.normalEnd w).Reviews :=
  (((h.endReview (fun _ he => h.none_active b.active he) b.aligned).modWafer w _).toReviewEnded w |>.enter w _).rest (State.requestLoad_rest _ _)

theorem State.Reviews.waitForPosts (h : s.Reviews) (b : s.BetweenEntries) (w : WaferName) : (s.waitForPosts w).Reviews := by
  refine State.Reviews.raise ?_ _
  refine ⟨h.active, fun some => ?_, fun _ => rfl, fun measuring => absurd measuring b.aligned, h.named⟩
  have none : s.revisit.active = none := b.active
  exact absurd some (by simp [State.setRevisit, none])

/-- An entry's end: no record stays ACTIVE. -/
theorem State.Reviews.endActive (h : s.Reviews) {e : Entry} (only : ∀ x ∈ s.revisit.store, x.state = .active → x.id = e.id)
    {st : EntryState} (why : EntryReason) (off : st ≠ .active) : (s.endActive e st why).Reviews := by
  have ended := h.finishEntry e why off
  refine ⟨fun x hx live => ?_, nofun, ended.timed, ended.aligned, ended.named⟩
  have stored : x ∈ (s.finishEntry e st why).revisit.store := hx
  rw [State.finishEntry_store] at stored
  obtain ⟨y, hy, rfl⟩ := List.mem_map.1 stored
  by_cases is : y.is e.slot e.index = true
  · rw [if_pos is] at live
    exact absurd live off
  · rw [if_neg is] at live
    exact absurd (Entry.is_iff.2 (only y hy live)) is

/-- The active revisit changed, its entry the same. -/
theorem State.Reviews.setActive (h : s.Reviews) {a b : ActiveRevisit} (active : s.revisit.active = some a) (slot : b.slot = a.slot)
    (index : b.index = a.index) : (s.setActive (some b)).Reviews := by
  refine ⟨fun x hx live => ⟨b, rfl, ?_⟩, fun _ => h.revisiting (by rw [active]; rfl), h.timed, h.aligned, h.named⟩
  obtain ⟨c, hc, is⟩ := h.active x hx live
  rw [active, Option.some.injEq] at hc
  rw [slot, index, hc]
  exact is

theorem State.Reviews.beginMove (h : s.Reviews) {a b : ActiveRevisit} (active : s.revisit.active = some a) (slot : b.slot = a.slot)
    (index : b.index = a.index) (z : Int) : (s.beginMove b z).Reviews :=
  (h.setActive (b := { b with
    phase := .move, startZ := z, xyReq := some ⟨s.motion.nextReq, false⟩, zReq := some ⟨s.motion.nextReq + 1, false⟩ })
    active slot index).rest (State.beginMove_rest s b z)

/-- Phase TARGET of the entry that the active revisit names. -/
theorem State.Reviews.beginTarget (h : s.Reviews) {e : Entry} {a : ActiveRevisit} (active : s.revisit.active = some a)
    (slot : a.slot = e.slot) (index : a.index = e.index) : (s.beginTarget e).Reviews := by
  have placed (x y : Int) : (s.modEntry e.slot e.index fun r => { r with stageX := x, stageY := y }).Reviews :=
    h.modEntry _ _ (fun _ => rfl) fun _ live => live
  unfold State.beginTarget
  dsimp only
  split
  · exact (placed _ _).beginMove active slot.symm index.symm _
  · refine (placed _ _).endActive (fun x hx live => ?_) _ nofun
    obtain ⟨b, hb, is⟩ := (placed _ _).active x hx live
    obtain rfl := Option.some.inj (active.symm.trans hb)
    rw [slot, index] at is
    exact Entry.is_iff.1 is

/-- The review with an entry taken (R140). -/
def State.taking (s : State) (e : Entry) : State :=
  (s.modEntry e.slot e.index fun x => { x with state := .active, reason := .none, attempts := 0 }).setRevisit
    { (s.modEntry e.slot e.index fun x => { x with state := .active, reason := .none, attempts := 0 }).revisit with
      review := .revisiting, timer := none
      active := some ⟨e.slot, e.index, .target, ⟨0, 0⟩, 0, none, none, none⟩ }

theorem State.takeEntry_eq (s : State) (e : Entry) : s.takeEntry e = (s.taking e).beginTarget e := rfl

theorem State.Reviews.taking (h : s.Reviews) (b : s.BetweenEntries) (e : Entry) : (s.taking e).Reviews := by
  refine ⟨fun x hx live => ⟨_, rfl, ?_⟩, fun _ => rfl, nofun, fun measuring => absurd measuring b.aligned, h.named⟩
  obtain ⟨y, hy, rfl⟩ := List.mem_map.1 hx
  by_cases is : y.is e.slot e.index = true
  · rw [if_pos is]
    exact is
  · rw [if_neg is] at live
    exact absurd live (h.none_active b.active hy)

theorem State.Reviews.takeEntry (h : s.Reviews) (b : s.BetweenEntries) (e : Entry) : (s.takeEntry e).Reviews := by
  rw [State.takeEntry_eq]
  exact (h.taking b e).beginTarget rfl rfl rfl

/-- The list looked at between two entries: its head taken, or the review ended, or the unit waiting (R140, R149). -/
theorem State.Reviews.look (h : s.Reviews) (b : s.BetweenEntries) (w : WaferName) : (s.look w).Reviews := by
  unfold State.look
  split
  · exact h.takeEntry b _
  · split
    · split
      · exact h.normalEnd b w
      · exact h.waitForPosts b w
    · exact h

theorem State.Reviews.lookAfterEnd (h : s.Reviews) : s.lookAfterEnd.Reviews := by
  unfold State.lookAfterEnd
  split
  · split
    · rename_i w _ idle
      obtain ⟨revisiting, none⟩ := idle
      refine h.look ⟨none, fun measuring => ?_⟩ w
      have aligning := h.aligned measuring
      rw [revisiting] at aligning
      cases aligning
    · exact h
  · exact h

/-! ## Alignment -/

/-- An alignment that fails ends the review that waits for it. -/
theorem State.Reviews.alignFail (h : s.Reviews) (idle : s.revisit.active = none) (why : AlignReason) : (s.alignFail why).Reviews := by
  cases hw : s.align.wafer with
  | none =>
    have same : s.alignFail why = s := by simp only [State.alignFail, hw]
    rw [same]
    exact h
  | some w =>
    rw [State.alignFail_eq hw]
    have ended : (s.alignEnds w why).Reviews := by
      have failed := ((h.setAlign (a := { s.align with state := .failed, reason := why, xyReq := none, zReq := none }) rfl nofun).modWafer w
        fun x => { x with pendingResult := some .alignFailed }).endQueued w .alignFail
      have bare := State.endQueued_bare ((s.setAlign { s.align with state := .failed, reason := why, xyReq := none, zReq := none }).modWafer w
        fun x => { x with pendingResult := some .alignFailed }) w .alignFail
      unfold State.alignEnds
      dsimp only
      split
      · refine failed.endReview (fun _ he => failed.none_active
          ((State.bare_active bare).trans ((congrArg Revisit.active (s.setAlign_revisit _)).trans idle)) he) ?_
        have align := (congrArg (fun x : State => x.align.state) bare :).trans (congrArg Align.state (s.setAlign_align _))
        exact fun measuring => TransformState.noConfusion (align.symm.trans measuring)
      · exact failed
    exact ((ended.toReviewEnded w).raise _).rest (State.requestLoad_rest _ _)

/-- The alignment is under way in a review that no entry's revisit has begun. -/
structure State.Aligning (s : State) : Prop where
  review : s.revisit.review = .aligning
  idle : s.revisit.active = none

theorem State.Reviews.measuring (h : s.Reviews) (measuring : s.align.state = .measuring) : s.Aligning :=
  ⟨h.aligned measuring, h.aligning (h.aligned measuring)⟩

theorem State.Aligning.of (h : s.Aligning) (same : t.revisit = s.revisit) : t.Aligning := ⟨by rw [same]; exact h.review, by rw [same]; exact h.idle⟩

theorem State.Aligning.setAlign (h : s.Aligning) (a : Align) : (s.setAlign a).Aligning := h.of (s.setAlign_revisit a)

theorem State.showTransform_reviewFile (s : State) : s.showTransform.reviewFile = s.reviewFile := by
  unfold State.showTransform
  split <;> rfl

theorem State.handSolve_reviewFile (s : State) (v : Solved) : (s.handSolve v).reviewFile = s.reviewFile := by
  unfold State.handSolve
  split <;> rfl

theorem State.Aligning.same (h : s.Aligning) (same : t.reviewFile = s.reviewFile) : t.Aligning :=
  ⟨(congrArg ReviewFile.review same :).trans h.review, (congrArg ReviewFile.active same :).trans h.idle⟩

theorem Align.setMeasured_wafer (a : Align) (p : Point) : (a.setMeasured p).wafer = a.wafer ∧ (a.setMeasured p).state = a.state := by
  unfold Align.setMeasured
  split <;> exact ⟨rfl, rfl⟩

theorem State.Reviews.beginMark (h : s.Reviews) (al : s.Aligning) (n : Nat) : (s.beginMark n).Reviews := by
  have wafer (p : Point) : (({ s.align with state := .measuring, mark := n, phase := .move, attempts := 0 } : Align).setTarget p).wafer
      = s.align.wafer := Align.setTarget_wafer _ p
  unfold State.beginMark
  dsimp only
  split
  · refine State.Reviews.rest (h.setAlign ?_ fun _ => al.review) ((State.requestMove_rest _ _ _).trans (State.requestMove_rest _ _ _))
    exact wafer _
  · refine State.Reviews.alignFail (h.setAlign ?_ fun _ => al.review) (al.setAlign _).idle _
    exact wafer _

theorem State.Reviews.toAligned (h : s.Reviews) (al : s.Aligning) : s.toAligned.Reviews := by
  have aligned := h.setAlign (a := { s.align with state := .aligned }) rfl nofun
  unfold State.toAligned State.alignedReport
  split
  · split
    · refine aligned.look ⟨(al.setAlign _).idle, ?_⟩ _
      rw [State.setAlign_align]
      nofun
    · exact aligned
  · exact aligned

theorem State.Reviews.solveMarks (h : s.Reviews) (al : s.Aligning) : s.solveMarks.Reviews := by
  unfold State.solveMarks
  dsimp only
  generalize solve _ _ _ _ = v
  have solved := h.same (s.handSolve_reviewFile v)
  have still := al.same (s.handSolve_reviewFile v)
  split
  · exact solved.alignFail still.idle _
  · have set : ((s.handSolve v).setAlign { (s.handSolve v).align with a := v.a, b := v.b, tx := v.tx, ty := v.ty }).Reviews :=
      solved.setAlign rfl fun measuring => solved.aligned measuring
    have shown := set.same (State.showTransform_reviewFile _)
    have under := (still.setAlign { (s.handSolve v).align with a := v.a, b := v.b, tx := v.tx, ty := v.ty }).same (State.showTransform_reviewFile _)
    split
    · exact shown.beginMark under 3
    · exact shown.toAligned under

theorem State.Reviews.markMeasured (h : s.Reviews) (al : s.Aligning) (ox oy : Int) : (s.markMeasured ox oy).Reviews := by
  unfold State.markMeasured
  dsimp only
  have set (p : Point) : (s.setAlign (s.align.setMeasured p)).Reviews := by
    obtain ⟨wafer, state⟩ := s.align.setMeasured_wafer p
    exact h.setAlign wafer fun measuring => h.aligned (state.symm.trans measuring)
  have under (p : Point) := al.setAlign (s.align.setMeasured p)
  split
  · exact (set _).beginMark (under _) 2
  · exact (set _).solveMarks (under _)
  · unfold State.checkResidual
    dsimp only
    split
    · exact (set _).toAligned (under _)
    · exact (set _).alignFail (under _).idle _

theorem State.Reviews.markMissed (h : s.Reviews) (al : s.Aligning) : s.markMissed.Reviews := by
  have set : (s.setAlign { s.align with attempts := s.align.attempts + 1 }).Reviews := h.setAlign rfl h.aligned
  unfold State.markMissed
  dsimp only
  split
  · exact set.rest (State.askGrab_rest _ _)
  · exact set.alignFail (al.setAlign _).idle _

theorem State.Reviews.alignResult (h : s.Reviews) (found : Bool) (ox oy : Int) : (s.alignResult found ox oy).Reviews := by
  unfold State.alignResult
  split
  · rename_i grabbing
    obtain ⟨measuring, -⟩ : s.align.state = .measuring ∧ s.align.phase = .grab := of_decide_eq_true grabbing
    split
    · exact h.markMeasured (h.measuring measuring) _ _
    · exact h.markMissed (h.measuring measuring)
  · exact h

theorem State.Reviews.alignGrabFailed (h : s.Reviews) : s.alignGrabFailed.Reviews := by
  unfold State.alignGrabFailed
  split
  · rename_i grabbing
    obtain ⟨measuring, -⟩ : s.align.state = .measuring ∧ s.align.phase = .grab := of_decide_eq_true grabbing
    exact h.markMissed (h.measuring measuring)
  · exact h

/-! ## Messages -/

theorem State.Reviews.alignSettled (h : s.Reviews) (n : Nat) : (s.alignSettled n).Reviews := by
  unfold State.alignSettled
  dsimp only
  split
  · exact h
  · split
    · split
      · refine State.Reviews.rest ?_ (State.requestFocus_rest _ _)
        exact h.setAlign rfl h.aligned
      · exact h.setAlign rfl h.aligned
    · exact h

theorem State.Reviews.alignRefused (h : s.Reviews) (n : Nat) : (s.alignRefused n).Reviews := by
  unfold State.alignRefused
  split
  · rename_i current
    exact h.alignFail (h.measuring current.1).idle _
  · exact h

theorem State.Reviews.alignFocus (h : s.Reviews) (o : FocusOutcome) : (s.alignFocus o).Reviews := by
  unfold State.alignFocus
  split
  · rename_i waits
    split
    · refine State.Reviews.rest ?_ (State.askGrab_rest _ _)
      exact h.setAlign rfl h.aligned
    · exact h.alignFail (h.measuring waits.1).idle _
  · exact h

theorem State.Reviews.revisitSettled (h : s.Reviews) (n : Nat) : (s.revisitSettled n).Reviews := by
  unfold State.revisitSettled State.beginFocus
  dsimp only
  split
  · rename_i a e active found
    repeat' split
    · refine State.Reviews.rest ?_ (State.requestFocus_rest _ _)
      exact h.setActive active rfl rfl
    · exact h.setActive active rfl rfl
    · exact h
  · exact h

theorem State.Reviews.revisitRefused (h : s.Reviews) (n : Nat) (why : MoveRefusal) : (s.revisitRefused n why).Reviews := by
  unfold State.revisitRefused
  split
  · rename_i a e active found
    split
    · exact h.endActive (fun x hx live => h.active_id found hx live) _ nofun
    · exact h
  · exact h

theorem State.Reviews.failedAttempt (h : s.Reviews) {a : ActiveRevisit} {e : Entry} (active : s.revisit.active = some a)
    (found : s.activeEntry = some e) (why : LastFailure) : (s.failedAttempt a e why).Reviews := by
  have counted : (s.modEntry e.slot e.index fun x => { x with attempts := e.attempts + 1 }).Reviews :=
    h.modEntry _ _ (fun _ => rfl) fun _ live => live
  have still : (s.modEntry e.slot e.index fun x => { x with attempts := e.attempts + 1 }).revisit.active = some a := active
  have only : ∀ x ∈ (s.modEntry e.slot e.index fun x => { x with attempts := e.attempts + 1 }).revisit.store, x.state = .active → x.id = e.id := by
    intro x hx live
    obtain ⟨y, hy, rfl⟩ := List.mem_map.1 hx
    split
    · rename_i is
      exact Entry.is_iff.1 is
    · rename_i not
      rw [if_neg not] at live
      exact h.active_id found hy live
  unfold State.failedAttempt
  dsimp only
  generalize s.modEntry e.slot e.index (fun x => { x with attempts := e.attempts + 1 }) = m at counted still only
  split
  · exact counted.beginMove (a := a) (b := { a with lastFailure := some why }) still rfl rfl _
  · exact counted.endActive only _ (by cases why <;> nofun)

theorem State.Reviews.revisitFocus (h : s.Reviews) (o : FocusOutcome) : (s.revisitFocus o).Reviews := by
  unfold State.revisitFocus
  split
  · rename_i a e active found
    split
    · split
      · refine State.Reviews.rest ?_ (State.askGrab_rest _ _)
        have placed (z : Int) : (s.modEntry e.slot e.index fun x => { x with focusZ := z }).Reviews :=
          h.modEntry _ _ (fun _ => rfl) fun _ live => live
        exact (placed _).setActive (a := a) active rfl rfl
      · exact h.failedAttempt active found _
    · exact h
  · exact h

theorem State.Reviews.deliver (h : s.Reviews) (m : Msg) : (s.deliver m).Reviews := by
  cases m with
  | settled r g =>
    unfold State.deliver
    dsimp only
    split
    · exact h.alignSettled _
    · exact h.revisitSettled _
    · unfold State.focusSettled
      split
      · exact h.rest (State.beginMeasureAt_rest _ _)
      · exact h
    · exact h
    · exact h
  | refused r g why =>
    unfold State.deliver
    dsimp only
    split
    · exact h.alignRefused _
    · exact h.revisitRefused _ _
    · unfold State.focusRefused
      split
      · exact h.rest (State.failFocus_rest _ _)
      · exact h
    · exact h
    · exact h
  | focusAnswer u o =>
    cases u
    · exact h.alignFocus o
    · exact h.revisitFocus o
  | lookAtList => exact State.Reviews.lookAfterEnd h

theorem State.Reviews.drainFor : ∀ (n : Nat) {s : State}, s.Reviews → (State.drainFor n s).Reviews
  | 0, _, h => h
  | n + 1, s, h => by
    unfold State.drainFor
    split
    · exact h
    · rename_i m rest _
      exact .drainFor n ((h.same (t := s.setMsgs rest) rfl).deliver m)

theorem State.Reviews.drain (h : s.Reviews) : s.drain.Reviews := .drainFor _ h

/-! ## The blocks' work keeps the invariant -/

/-- The review's work as a change of records: none newly admitted, each in its row. -/
theorem Rewrites.work (once : s.Once) (listed : ∀ e ∈ s.revisit.posting, e.state = .posting) (work : Work s t)
    (bare : t.files.bare = s.files.bare) : Rewrites s t := by
  have posting := work.posting once
  obtain ⟨g, store, each⟩ := work.store once
  have closed (x : Entry) (hx : x ∈ s.revisit.store) : (g x).rowClosed = x.rowClosed := (congrArg EntryCore.rowClosed (each x hx).core :)
  refine ⟨bare, work.once once, by rw [posting]; exact listed, by rw [store, List.length_map], fun w => ?_, fun e he opened => ?_, fun none => ?_⟩
  · rw [State.admittedOf, State.admittedOf, store]
    refine admitted_map_le w fun x hx => ?_
    rw [(each x hx).wafer, (each x hx).admitted, closed x hx]
    exact fun admitted => admitted
  · rw [store] at he
    obtain ⟨x, hx, rfl⟩ := List.mem_map.1 he
    exact ⟨x, hx, (closed x hx).symm.trans opened, (each x hx).wafer.symm⟩
  · rw [posting, store, none.1, none.2]
    exact ⟨rfl, rfl⟩

theorem isEmpty_of_length {α β : Type} {l : List α} {m : List β} (h : l.length = m.length) : l.isEmpty = m.isEmpty := by
  cases l <;> cases m <;> first | rfl | cases h

theorem Two.ext_get {α : Type} {a b : Two α} (h : ∀ k, a.get k = b.get k) : a = b := by
  cases a
  cases b
  exact congrArg₂ Two.mk (h .zero) (h .one)

/-- Consequences that leave a lot in its state leave the files but for the entries' records. -/
theorem Files.bare_of_work (work : Work s t) (quiet : Quiet s t) (lots : ∀ k, (t.lot k).state = (s.lot k).state) :
    t.files.bare = s.files.bare := by
  have lot (k : Slot) : (t.lot k).file = (s.lot k).file := by
    have kept : (t.lot k).kept = (s.lot k).kept := by
      cases k
      · exact (congrArg (fun x : Kept => x.lots.zero) quiet.kept :)
      · exact (congrArg (fun x : Kept => x.lots.one) quiet.kept :)
    have state := lots k
    have fetch : (t.lot k).fetch = (s.lot k).fetch := (congrArg LotKept.fetch kept :)
    have recipe : (t.lot k).recipe = (s.lot k).recipe := (congrArg LotKept.recipe kept :)
    have bare : (t.lot k).wafers.isEmpty = (s.lot k).wafers.isEmpty := isEmpty_of_length (quiet.lots k).wafers
    rw [Lot.file, Lot.file, state, fetch, recipe, bare]
  have report (k : Slot) : (t.report k).file = (s.report k).file := by rw [Report.file, Report.file, work.reports, work.rows]
  have closed (k : Slot) : t.path.closedLock.get k = s.path.closedLock.get k := (quiet.closing k (lots k)).2.2
  have attach : t.anchor.attach = s.anchor.attach := (congrArg (fun x : Kept => x.anchor.attach) quiet.kept :)
  have locks : t.path.closedLock = s.path.closedLock := Two.ext_get closed
  simp only [Files.bare, State.files, Files.mk.injEq, true_and]
  exact ⟨congrArg₂ Two.mk (lot .zero) (lot .one), congrArg₂ Two.mk (report .zero) (report .one), locks, attach⟩

theorem State.portFile_of_quiet (quiet : Quiet s t) (ledger : t.scratch.ledger = s.scratch.ledger) : t.portFile = s.portFile := by
  have wb : t.wb = s.wb := (congrArg Kept.wb quiet.kept :)
  have mport : t.mport = s.mport := (congrArg Kept.mport quiet.kept :)
  have got : t.path.layoutGot = s.path.layoutGot := (congrArg Kept.layoutGot quiet.kept :)
  have versioned : t.scratch.versioned = s.scratch.versioned := (congrArg Scratch.versioned ledger :)
  have written : t.scratch.written = s.scratch.written := (congrArg Scratch.written ledger :)
  rw [State.portFile, State.portFile, wb, mport, got, versioned, written]

theorem Neat.work (work : Work s t) (quiet : Quiet s t) (told : Told s t) : Neat s t :=
  ⟨fun kempt => kempt.rewrites (.work kempt.once kempt.posting work (Files.bare_of_work work quiet told.lots)),
    State.portFile_of_quiet quiet told.ledger, (congrArg (fun x : Kept => x.anchor.attach) quiet.kept :)⟩

/-- What blocks tell each other keeps the invariant. -/
theorem Tidy.deliver (s : State) (m : Msg) : Tidy s (s.deliver m) :=
  ⟨.work (.deliver s m) (quiet_deliver (.refl s) m) (.deliver s m), fun core => core.reviews.deliver m⟩

theorem Tidy.drain (s : State) : Tidy s s.drain :=
  ⟨.work (.drain s) (quiet_drain (.refl s)) (.drain s), fun core => core.reviews.drain⟩

end

end Sys2Proof.Machine
end

section
/-! SUPPORT. Rows, reports and lots closed keep the invariant, and so do a step's consequences. -/

namespace Sys2Proof.Machine

/-! ## Rows and reports closed (R169, R171, R136) -/

section
variable {s t : State}

theorem State.rowOpen_closeRow (h : s.rowOpen w = true) (u : WaferName) : (s.closeRow w).rowOpen u = (s.rowOpen u && decide (u ≠ w)) := by
  unfold State.rowOpen
  rw [State.closeRow_row h]
  by_cases same : u = w
  · rw [if_pos same]
    cases s.row u <;> simp [same]
  · rw [if_neg same]
    simp [same]

theorem State.closeRow_reportState (s : State) (w : WaferName) (k : Slot) : ((s.closeRow w).report k).state = (s.report k).state
    ∧ ((s.closeRow w).report k).rows.length = (s.report k).rows.length := by
  by_cases here : k = w.slot
  · by_cases h : s.rowOpen w = true
    · rw [State.closeRow_eq h]
      subst here
      have length (l : List Row) (n : Nat) : (modAt l n fun r => { r with state := .closed }).length = l.length := by
        cases n with
        | zero => rfl
        | succ n => exact List.length_modify _ _ _
      obtain ⟨k, n⟩ := w
      cases k <;> exact ⟨rfl, length _ _⟩
    · rw [State.closeRow, if_neg h]
      exact ⟨rfl, rfl⟩
  · rw [State.closeRow_other here]
    exact ⟨rfl, rfl⟩

/-- A row's records as its closing leaves them in the store. -/
theorem State.mem_closeRow (h : s.rowOpen w = true) {e : Entry} (he : e ∈ (s.closeRow w).revisit.store) :
    ∃ x ∈ s.revisit.store, e = if x.inOpenRowOf w then { x with rowClosed := true } else x := by
  rw [State.closeRow_eq h] at he
  obtain ⟨x, hx, rfl⟩ := List.mem_map.1 he
  exact ⟨x, (List.mem_filter.1 hx).1, rfl⟩

theorem State.closeRow_admitted (s : State) (w v : WaferName) : (s.closeRow w).admittedOf v ≤ s.admittedOf v := by
  by_cases h : s.rowOpen w = true
  · rw [State.admittedOf, State.closeRow_eq h]
    refine (admitted_map_le v fun x _ => ?_).trans (List.Sublist.length_le (List.Sublist.filter _ List.filter_sublist))
    split
    · simp
    · exact fun there => there
  · rw [State.closeRow, if_neg h]

/-- A row is open in no report but an open one. -/
theorem State.LotSound.rowOpen {k : Slot} {n : Nat} (h : s.LotSound k) (opened : s.rowOpen ⟨k, n⟩ = true) : (s.report k).state = .opened := by
  have bare (none : (s.report k).rows = []) : s.rowOpen ⟨k, n⟩ = false := by
    have row : s.row ⟨k, n⟩ = Option.none := by
      rw [State.row, none]
      cases n <;> rfl
    rw [State.rowOpen, row]
  cases hs : (s.report k).state with
  | opened => rfl
  | closed => exact absurd opened (by rw [h.closed hs n]; nofun)
  | none => exact absurd opened (by rw [bare (h.noTable (.inl hs)).2]; nofun)
  | released => exact absurd opened (by rw [bare (h.noTable (.inr hs)).2]; nofun)

theorem State.LotSound.closeRow {k : Slot} (h : s.LotSound k) (w : WaferName) : (s.closeRow w).LotSound k := by
  by_cases opened : s.rowOpen w = true
  · obtain ⟨state, length⟩ := s.closeRow_reportState w k
    have lots : (s.closeRow w).lot k = s.lot k := by rw [State.closeRow_eq opened]; rfl
    refine ⟨by rw [lots]; exact h.starting, by rw [lots]; exact h.started, by rw [lots, state]; exact h.report, fun none => ?_,
      fun there => ?_, fun there n => ?_, fun e he slot stays => ?_⟩
    · rw [state] at none
      obtain ⟨wafers, rows⟩ := h.noTable none
      rw [lots]
      exact ⟨wafers, List.length_eq_zero_iff.1 (by rw [length, rows]; rfl)⟩
    · rw [state] at there
      rw [length]
      exact h.rows there
    · rw [state] at there
      rw [State.rowOpen_closeRow opened, h.closed there]
      rfl
    · obtain ⟨x, hx, rfl⟩ := State.mem_closeRow opened he
      by_cases mine : x.inOpenRowOf w = true
      · rw [if_pos mine] at stays
        cases stays
      · rw [if_neg mine] at slot stays ⊢
        rw [State.rowOpen_closeRow opened, h.opened x hx slot stays, Bool.true_and, decide_eq_true_iff]
        intro same
        exact mine (by simp [Entry.inOpenRowOf, same, stays])
  · rw [State.closeRow, if_neg opened]
    exact h

theorem State.Kempt.closeRow (h : s.Kempt) (w : WaferName) : (s.closeRow w).Kempt := by
  by_cases opened : s.rowOpen w = true
  · have parts : (s.closeRow w).lots = s.lots ∧ (s.closeRow w).path = s.path ∧ (s.closeRow w).anchor = s.anchor
        ∧ (s.closeRow w).revisit.posting = s.revisit.posting := by
      rw [State.closeRow_eq opened]
      exact ⟨rfl, rfl, rfl, rfl⟩
    obtain ⟨lots, path, anchor, posting⟩ := parts
    have attached : s.anchor.attach = .attached := by
      by_contra apart
      obtain ⟨-, -, each⟩ := h.apart apart
      obtain ⟨-, none⟩ := each w.slot
      have there := (h.lots w.slot).rowOpen (n := w.n) opened
      rw [none] at there
      cases there
    refine ⟨(Fewer.closeRow s w).once h.once, by rw [posting]; exact h.posting,
      ?_, fun v some => ?_, fun k => (h.lots k).closeRow w,
      fun _ k => ?_, fun apart => ?_, fun off => ?_⟩
    · have fewer := (Fewer.closeRow s w).store.length_le
      rw [List.length_map, List.length_map] at fewer
      exact fewer.trans h.room
    · have fewer := s.closeRow_admitted w v
      have recipe : (s.closeRow w).recipe v.slot = s.recipe v.slot := by rw [State.recipe, State.lot, lots]; rfl
      have bound := h.limit v (by omega)
      rw [recipe]
      omega
    · rw [path, (s.closeRow_reportState w k).1]
      exact h.lock attached k
    · exact absurd ((congrArg Anchor.attach anchor).trans attached) apart
    · rw [anchor, attached] at off
      obtain off | off := off <;> cases off
  · rw [State.closeRow, if_neg opened]
    exact h

theorem State.Reviews.closeRow (h : s.Reviews) (w : WaferName) : (s.closeRow w).Reviews := by
  by_cases opened : s.rowOpen w = true
  · refine h.fewer (by rw [State.closeRow_eq opened]; rfl) fun e he live => ?_
    obtain ⟨x, hx, rfl⟩ := State.mem_closeRow opened he
    refine ⟨x, hx, ?_, ?_⟩
    · split at live <;> exact live
    · split <;> rfl
  · rw [State.closeRow, if_neg opened]
    exact h

theorem State.closeRow_portFile (s : State) (w : WaferName) : (s.closeRow w).portFile = s.portFile ∧ (s.closeRow w).anchor = s.anchor := by
  unfold State.closeRow
  split <;> exact ⟨rfl, rfl⟩

theorem Tidy.closeRow (s : State) (w : WaferName) : Tidy s (s.closeRow w) := by
  obtain ⟨port, anchor⟩ := s.closeRow_portFile w
  exact ⟨⟨fun kempt => kempt.closeRow w, port, by rw [anchor]⟩, fun core => core.reviews.closeRow w⟩

theorem Tidy.closeRows (k : Slot) (l : List Nat) : ∀ s : State, Tidy s (l.foldl (fun s n => s.closeRow ⟨k, n⟩) s) := by
  induction l with
  | nil => exact .refl
  | cons n l ih => exact fun s => (Tidy.closeRow s _).trans (ih _)

theorem closeRows_reportState (k j : Slot) (l : List Nat) : ∀ s : State,
    ((l.foldl (fun (s : State) n => s.closeRow ⟨k, n⟩) s).report j).state = (s.report j).state
    ∧ ((l.foldl (fun (s : State) n => s.closeRow ⟨k, n⟩) s).report j).rows.length = (s.report j).rows.length := by
  induction l with
  | nil => exact fun _ => ⟨rfl, rfl⟩
  | cons n l ih =>
    intro s
    obtain ⟨state, length⟩ := ih (s.closeRow ⟨k, n⟩)
    obtain ⟨same, long⟩ := s.closeRow_reportState ⟨k, n⟩ j
    exact ⟨state.trans same, length.trans long⟩

theorem closeRows_rowOpen (k : Slot) (l : List Nat) : ∀ (s : State) (n : Nat),
    (l.foldl (fun (s : State) n => s.closeRow ⟨k, n⟩) s).rowOpen ⟨k, n⟩ = true → n ∉ l ∧ s.rowOpen ⟨k, n⟩ = true := by
  induction l with
  | nil => exact fun _ _ h => ⟨nofun, h⟩
  | cons m l ih =>
    intro s n h
    obtain ⟨later, now⟩ := ih _ n h
    by_cases opened : s.rowOpen ⟨k, m⟩ = true
    · rw [State.rowOpen_closeRow opened, Bool.and_eq_true] at now
      obtain ⟨was, other⟩ := now
      have other : (⟨k, n⟩ : WaferName) ≠ ⟨k, m⟩ := of_decide_eq_true other
      exact ⟨fun there => (List.mem_cons.1 there).elim (fun same => other (by rw [same])) later, was⟩
    · have same : s.closeRow ⟨k, m⟩ = s := if_neg opened
      have now : s.rowOpen ⟨k, n⟩ = true := same ▸ now
      exact ⟨fun there => (List.mem_cons.1 there).elim (fun same => opened (same ▸ now)) later, now⟩

/-- The rows of a report are numbered from 1. -/
theorem State.rowOpen_le {k : Slot} {n : Nat} (h : s.rowOpen ⟨k, n⟩ = true) : 1 ≤ n ∧ n ≤ (s.report k).rows.length := by
  unfold State.rowOpen State.row at h
  cases n with
  | zero => cases h
  | succ n =>
    refine ⟨by omega, ?_⟩
    by_contra beyond
    have none : getAt (s.report k).rows (n + 1) = Option.none := List.getElem?_eq_none (by omega)
    rw [none] at h
    cases h

/-! ## The lots pass on (R9, R14, R16) -/

/-- A lot's end as its report closes: the lot state, the closed report and the locks (R17, R171). -/
def State.lotClosed (s : State) (k : Slot) (st : LotState) : State :=
  (((((s.setLotState k st).modReport k fun r => { r with state := .closed, endClock := s.clock }).setStartLock k false).setClosedLock k
    true).raise .lotEnd).raise .reportClosed

theorem State.closeRow_setLotState (s : State) (j : Slot) (st : LotState) (w : WaferName) :
    (s.setLotState j st).closeRow w = (s.closeRow w).setLotState j st := by
  by_cases h : s.rowOpen w = true
  · have there : (s.setLotState j st).rowOpen w = true := h
    rw [State.closeRow_eq h, State.closeRow_eq there]
    rfl
  · have same : s.closeRow w = s := if_neg h
    rw [same]
    exact if_neg h

theorem closeRows_setLotState (k j : Slot) (st : LotState) (l : List Nat) : ∀ s : State,
    l.foldl (fun (s : State) n => s.closeRow ⟨k, n⟩) (s.setLotState j st)
      = (l.foldl (fun (s : State) n => s.closeRow ⟨k, n⟩) s).setLotState j st := by
  induction l with
  | nil => exact fun _ => rfl
  | cons n l ih =>
    intro s
    rw [List.foldl_cons, List.foldl_cons, s.closeRow_setLotState]
    exact ih _

theorem State.closeReport_setLotState (s : State) (k : Slot) (st : LotState) :
    (s.setLotState k st).closeReport k = (slots25.foldl (fun (s : State) n => s.closeRow ⟨k, n⟩) s).lotClosed k st := by
  unfold State.closeReport State.lotClosed
  dsimp only
  rw [closeRows_setLotState]
  rfl

theorem State.raise_files (s : State) (k : NoticeKind) : (s.raise k).files = s.files ∧ (s.raise k).portFile = s.portFile := by
  unfold State.raise
  split <;> exact ⟨rfl, rfl⟩

theorem Tidy.raise (s : State) (k : NoticeKind) : Tidy s (s.raise k) :=
  .same (s.raise_files k).1 (s.raise_reviewFile k) (s.raise_files k).2

theorem State.report_modReport (s : State) (k j : Slot) (f : Report → Report) :
    (s.modReport k f).report j = if j = k then f (s.report k) else s.report j := Two.get_set _ _ _ _

/-- One slot changed, with its lot, its report and its closed-report lock, the entries' records and the other slot as they were. -/
structure SlotChange (s t : State) (k : Slot) : Prop where
  revisit : t.revisit.posting = s.revisit.posting ∧ t.revisit.store = s.revisit.store
  attach : t.anchor.attach = s.anchor.attach
  lot : ∀ j, j ≠ k → (t.lot j).file = (s.lot j).file
  report : ∀ j, j ≠ k → (t.report j).file = (s.report j).file
  lock : ∀ j, j ≠ k → t.path.closedLock.get j = s.path.closedLock.get j

theorem State.Kempt.slot (h : s.Kempt) {k : Slot} (c : SlotChange s t k) (sound : t.LotSound k)
    (recipe : (∃ n, 0 < s.admittedOf ⟨k, n⟩) → t.recipe k = s.recipe k)
    (lock : s.anchor.attach = .attached → t.path.closedLock.get k = decide ((t.report k).state = .closed))
    (apart : s.anchor.attach ≠ .attached → (t.lot k).state = .empty ∧ (t.report k).state = .none
      ∧ t.path.closedLock.get k = s.path.closedLock.get k) : t.Kempt := by
  obtain ⟨posting, store⟩ := c.revisit
  have lots (j : Slot) (other : j ≠ k) : (t.lot j).state = (s.lot j).state := congrArg LotFile.state (c.lot j other)
  have reports (j : Slot) (other : j ≠ k) : (t.report j).state = (s.report j).state := congrArg ReportFile.state (c.report j other)
  refine ⟨by rw [State.Once, posting, store]; exact h.once, by rw [posting]; exact h.posting, by rw [store]; exact h.room,
    fun w some => ?_, fun j => ?_,
    fun attached j => ?_, fun off => ?_, fun off => ?_⟩
  · rw [State.admittedOf, store] at some ⊢
    have same : t.recipe w.slot = s.recipe w.slot := by
      by_cases here : w.slot = k
      · subst here
        exact recipe ⟨w.n, some⟩
      · exact congrArg (fun l : LotFile => l.recipe.getD Recipe.blank) (c.lot w.slot here)
    rw [same]
    exact h.limit w some
  · by_cases here : j = k
    · rw [here]
      exact sound
    · exact (h.lots j).files (c.lot j here) (c.report j here) store
  · rw [c.attach] at attached
    by_cases here : j = k
    · rw [here]
      exact lock attached
    · rw [c.lock j here, reports j here]
      exact h.lock attached j
  · rw [c.attach] at off
    obtain ⟨p, q, each⟩ := h.apart off
    obtain ⟨lot, report, -⟩ := apart off
    refine ⟨posting.trans p, store.trans q, fun j => ?_⟩
    by_cases here : j = k
    · rw [here]
      exact ⟨lot, report⟩
    · rw [lots j here, reports j here]
      exact each j
  · rw [c.attach] at off
    have apart := apart (by obtain off | off := off <;> rw [off] <;> nofun)
    refine (Two.ext_get fun j => ?_).trans (h.unlocked off)
    by_cases here : j = k
    · rw [here]
      exact apart.2.2
    · exact c.lock j here

/-- A slot that holds an open report is one of an ATTACHED part. -/
theorem State.Kempt.attached (h : s.Kempt) {k : Slot} (there : (s.report k).state ≠ .none ∨ (s.lot k).state ≠ .empty) :
    s.anchor.attach = .attached := by
  by_contra apart
  obtain ⟨-, -, each⟩ := h.apart apart
  exact there.elim (fun not => not (each k).2) fun not => not (each k).1

/-- A lot whose rows are closed ends with its report. -/
theorem State.Kempt.lotClosed (h : s.Kempt) {k : Slot} {st : LotState} (ends : st = .done ∨ st = .aborted)
    (opened : (s.report k).state = .opened) (rows : ∀ n, s.rowOpen ⟨k, n⟩ = false) :
    (s.lotClosed k st).Kempt := by
  suffices base : (((((s.setLotState k st).modReport k fun r => { r with state := .closed, endClock := s.clock }).setStartLock k
      false).setClosedLock k true)).Kempt from (base.same (State.raise_files _ _).1).same (State.raise_files _ _).1
  have attached : s.anchor.attach = .attached := h.attached (k := k) (.inl (by rw [opened]; nofun))
  generalize ht : ((((s.setLotState k st).modReport k fun r => { r with state := .closed, endClock := s.clock }).setStartLock k
    false).setClosedLock k true) = t
  have lots (j : Slot) : t.lot j = if j = k then { s.lot k with state := st } else s.lot j := by
    have same : t.lots = (s.setLotState k st).lots := by rw [← ht]; rfl
    rw [State.lot, same]
    exact s.lot_modLot k j _
  have reports (j : Slot) : t.report j = if j = k then { s.report k with state := .closed, endClock := s.clock } else s.report j := by
    have same : t.reports = (s.modReport k fun r => { r with state := .closed, endClock := s.clock }).reports := by rw [← ht]; rfl
    rw [State.report, same]
    exact s.report_modReport k j _
  have locks (j : Slot) : t.path.closedLock.get j = if j = k then true else s.path.closedLock.get j := by
    rw [← ht]; exact Two.get_set _ _ _ _
  have lot : t.lot k = { s.lot k with state := st } := (lots k).trans (if_pos rfl)
  have report : t.report k = { s.report k with state := .closed, endClock := s.clock } := (reports k).trans (if_pos rfl)
  have change : SlotChange s t k := by
    refine ⟨by rw [← ht]; exact ⟨rfl, rfl⟩, by rw [← ht]; rfl, fun j other => ?_, fun j other => ?_, fun j other => ?_⟩
    · rw [lots, if_neg other]
    · rw [reports, if_neg other]
    · rw [locks, if_neg other]
  have rowsOpen (n : Nat) : t.rowOpen ⟨k, n⟩ = false := by
    unfold State.rowOpen State.row
    rw [report]
    exact rows n
  refine h.slot change ⟨fun starting => ?_, fun takes => ?_, ?_, fun none => ?_, fun there => ?_, fun _ n => rowsOpen n,
    fun e he slot stays => ?_⟩ (fun _ => by rw [State.recipe, lot]; rfl) (fun _ => ?_) fun apart => absurd attached apart
  · rw [lot] at starting
    obtain rfl | rfl := ends <;> cases starting
  · rw [lot] at takes
    obtain rfl | rfl := ends <;> cases takes
  · rw [lot, report]
    obtain rfl | rfl := ends <;> rfl
  · rw [report] at none
    obtain none | none := none <;> cases none
  · rw [report] at there
    cases there
  · rw [change.revisit.2] at he
    have open_ := (h.lots k).opened e he slot stays
    have wafer : e.wafer = ⟨k, e.waferSlot⟩ := by rw [Entry.wafer, slot]
    rw [wafer, rows] at open_
    cases open_
  · rw [locks, if_pos rfl, report]
    rfl

theorem State.lotClosed_reviewFile (s : State) (k : Slot) (st : LotState) : (s.lotClosed k st).reviewFile = s.reviewFile
    ∧ (s.lotClosed k st).portFile = s.portFile ∧ (s.lotClosed k st).anchor.attach = s.anchor.attach := by
  have raised (t : State) (n : NoticeKind) : (t.raise n).reviewFile = t.reviewFile ∧ (t.raise n).portFile = t.portFile
      ∧ (t.raise n).anchor.attach = t.anchor.attach :=
    ⟨t.raise_reviewFile n, (t.raise_files n).2, (congrArg Files.attach (t.raise_files n).1 :)⟩
  unfold State.lotClosed
  obtain ⟨review, port, attach⟩ := raised ((((((s.setLotState k st).modReport k fun r => { r with
    state := .closed, endClock := s.clock }).setStartLock k false).setClosedLock k true).raise .lotEnd)) .reportClosed
  obtain ⟨review', port', attach'⟩ := raised (((((s.setLotState k st).modReport k fun r => { r with
    state := .closed, endClock := s.clock }).setStartLock k false).setClosedLock k true)) .lotEnd
  exact ⟨review.trans review', port.trans port', attach.trans attach'⟩

/-- A lot ended: every row closed, then the report. -/
theorem Tidy.endLot {k : Slot} {st : LotState} (ends : st = .done ∨ st = .aborted)
    (opened : s.Kempt → (s.report k).state = .opened) : Tidy s ((s.setLotState k st).closeReport k) := by
  rw [State.closeReport_setLotState]
  have closed := Tidy.closeRows k slots25 s
  obtain ⟨state, length⟩ := closeRows_reportState k k slots25 s
  have none (n : Nat) := closeRows_rowOpen k slots25 s n
  generalize slots25.foldl (fun (s : State) n => s.closeRow ⟨k, n⟩) s = u at closed state length none
  obtain ⟨review, port, attach⟩ := u.lotClosed_reviewFile k st
  refine ⟨⟨fun kempt => ?_, port.trans closed.neat.port, attach.trans closed.neat.attach⟩, fun core => (closed.core core).reviews.same review⟩
  have open_ := opened kempt
  refine (closed.neat.kempt kempt).lotClosed ends (state.trans open_) fun n => ?_
  by_contra there
  have there : u.rowOpen ⟨k, n⟩ = true := by simpa using there
  obtain ⟨off, -⟩ := none n there
  obtain ⟨low, high⟩ := State.rowOpen_le there
  rw [length, (kempt.lots k).rows open_] at high
  refine off ?_
  rw [slots25]
  exact List.mem_map.2 ⟨n - 1, List.mem_range.2 (by omega), by omega⟩

/-- A lot that goes on with its report open. -/
theorem State.Kempt.setLotState (h : s.Kempt) {k : Slot} {st : LotState} (opened : (s.report k).state = .opened)
    (fetched : (s.lot k).fetch = none) (goes : st.takesPosts = true ∨ st = .aborting) : (s.setLotState k st).Kempt := by
  have lots (j : Slot) : (s.setLotState k st).lot j = if j = k then { s.lot k with state := st } else s.lot j := s.lot_modLot k j _
  have lot : (s.setLotState k st).lot k = { s.lot k with state := st } := (lots k).trans (if_pos rfl)
  have attached := h.attached (k := k) (.inl (by rw [opened]; nofun))
  have here := h.lots k
  refine h.slot (k := k) ⟨⟨rfl, rfl⟩, rfl, fun j other => by rw [lots, if_neg other], fun _ _ => rfl, fun _ _ => rfl⟩
    ⟨fun starting => ?_, fun _ => ?_, ?_, fun none => ?_, here.rows, here.closed, here.opened⟩
    (fun _ => by rw [State.recipe, lot]; rfl) (fun _ => h.lock attached k) fun apart => absurd attached apart
  · rw [lot] at starting
    obtain takes | rfl := goes
    · rw [show st = .starting from starting] at takes
      cases takes
    · cases starting
  · rw [lot]
    exact fetched
  · show LotState.reportFits ((s.setLotState k st).lot k).state _ (s.report k).state = true
    rw [lot, opened]
    show st.reportFits (s.lot k).fetch.isSome .opened = true
    rw [fetched]
    obtain takes | rfl := goes
    · cases st <;> first | rfl | cases takes
    · rfl
  · obtain none | none := none <;> exact absurd (opened.symm.trans none) nofun

theorem Tidy.setLotState {k : Slot} {st : LotState} (opened : s.Kempt → (s.report k).state = .opened ∧ (s.lot k).fetch = none)
    (goes : st.takesPosts = true ∨ st = .aborting) : Tidy s (s.setLotState k st) :=
  ⟨⟨fun kempt => kempt.setLotState (opened kempt).1 (opened kempt).2 goes, rfl, rfl⟩, fun core => core.reviews.same rfl⟩

/-- A lot that takes posts has an open report and no fetch. -/
theorem State.LotSound.takes {k : Slot} (h : s.LotSound k) (takes : (s.lot k).state.takesPosts = true) :
    (s.report k).state = .opened ∧ (s.lot k).fetch = none := by
  have fits := h.report
  refine ⟨?_, h.started takes⟩
  revert fits takes
  cases (s.lot k).state <;> simp [LotState.takesPosts, LotState.reportFits]

theorem Tidy.lotChange (s : State) (k : Slot) : Tidy s (s.lotChange k) := by
  have takes (at_ : (s.lot k).state.takesPosts = true) (core : s.Kempt) := (core.lots k).takes at_
  unfold State.lotChange
  dsimp only
  split
  case h_1 state =>
    split
    · exact .setLotState (takes (by rw [state]; rfl)) (.inl rfl)
    · exact .refl s
  case h_2 state =>
    split
    · exact .setLotState (takes (by rw [state]; rfl)) (.inl rfl)
    · exact .refl s
  case h_3 state =>
    split
    · exact .endLot (.inl rfl) fun core => (takes (by rw [state]; rfl) core).1
    · exact .refl s
  case h_4 state =>
    split
    · rename_i ended
      refine .endLot (.inr rfl) fun core => ?_
      have fits := (core.lots k).report
      rw [state, ended.1] at fits
      exact of_decide_eq_true fits
    · exact .refl s
  all_goals exact .refl s

theorem Tidy.lotPass (s : State) : Tidy s s.lotPass := by
  have passes (l : List Nat) : ∀ s : State, Tidy s (l.foldl (fun s _ => (s.lotChange .zero).lotChange .one) s) := by
    induction l with
    | nil => exact .refl
    | cons n l ih => exact fun s => ((Tidy.lotChange s _).trans (.lotChange _ _)).trans (ih _)
  exact passes _ s

theorem Tidy.sends (s : State) : Tidy s s.sends := .still s.sends_still

theorem Tidy.settle (s : State) : Tidy s s.settle := (((Tidy.drain s).trans (.lotPass _)).trans (.sends _)).trans (.drain _)

end

end Sys2Proof.Machine
end

section
/-! SUPPORT. Tidy operations: the sensor link, autofocus, the motion unit, orders, wafers and rows. -/

namespace Sys2Proof.Machine

section
variable (s : State)

/-! ## The sensor link and autofocus -/

theorem Tidy.setSensor (n : Sensor) : Tidy s (s.setSensor n) := .same
theorem Tidy.setAf (a : Autofocus) : Tidy s (s.setAf a) := .same

theorem Tidy.endFocused : Tidy s s.endFocused := by
  unfold State.endFocused
  dsimp only
  split
  · exact (Tidy.same (t := { s with focusMap := _ })).trans ((Tidy.setAf _ _).trans (.rest (State.answerFocus_rest _ _)))
  · exact (Tidy.setAf s _).trans (.rest (State.answerFocus_rest _ _))

theorem Tidy.stepFocus (e : Int) : Tidy s (s.stepFocus e) := by
  unfold State.stepFocus
  dsimp only
  split
  · exact (Tidy.setAf s _).trans (.rest (State.focusMove_rest _ _ _))
  · exact .rest (State.failFocus_rest _ _)

theorem Tidy.evaluateLit (e : Int) : Tidy s (s.evaluateLit e) := by
  have inside (t : State) : Tidy t (if 2 ≤ t.af.inWindow then t.endFocused else t.beginMeasureAt t.af.epoch) := by
    split
    · exact .endFocused t
    · exact .rest (State.beginMeasureAt_rest _ _)
  have outside (t : State) (c : Recipe) :
      Tidy t (if c.iterationLimit < (t.af.iterations : Int) then t.failFocus .noConverge else t.stepFocus e) := by
    split
    · exact .rest (State.failFocus_rest _ _)
    · exact .stepFocus t e
  unfold State.evaluateLit
  dsimp only
  split
  · exact ((Tidy.setAf s _).trans (.setAf _ _)).trans (inside _)
  · exact ((Tidy.setAf s _).trans (.setAf _ _)).trans (outside _ _)

theorem Tidy.evaluateDark : Tidy s s.evaluateDark := by
  have searches (t : State) (c : Recipe) : Tidy t (match pickSearch c t.af.centre t.af.budget t.af.index with
      | some (z, index, budget) => (t.setAf { t.af with zTarget := z, index := index, budget := budget }).focusMove .search z
      | none => (t.setAf { t.af with index := t.af.index + t.af.budget, budget := 0 }).failFocus .noSignal) := by
    split
    · exact (Tidy.setAf t _).trans (.rest (State.focusMove_rest _ _ _))
    · exact (Tidy.setAf t _).trans (.rest (State.failFocus_rest _ _))
  refine Tidy.trans ?_ (searches _ s.afRecipe)
  split
  · exact .refl s
  · exact .setAf s _

theorem Tidy.takeFrame (f : Summary) : Tidy s (s.takeFrame f) := by
  unfold State.takeFrame
  dsimp only
  split
  · exact (Tidy.setAf s _).trans (.evaluateDark _)
  · split
    · exact (Tidy.setAf s _).trans (.evaluateLit _ _)
    · exact .setAf s _

theorem Tidy.frameArrival (f : Summary) : Tidy s (s.frameArrival f) := by
  unfold State.frameArrival
  split
  · exact .refl s
  · split
    · exact .takeFrame s f
    · split
      · exact (Tidy.setAf s _).trans (.takeFrame _ f)
      · exact .refl s

theorem Tidy.acceptFrame (words : List (BitVec 16)) (epoch : Word) : Tidy s (s.acceptFrame words epoch) :=
  (Tidy.setSensor s _).trans (.frameArrival _ _)

theorem Tidy.goodFrame (words : List (BitVec 16)) (epoch : Word) : Tidy s (s.goodFrame words epoch) := by
  unfold State.goodFrame
  split
  · exact .acceptFrame s _ _
  · split
    · exact .setSensor s _
    · exact (Tidy.setSensor s _).trans (.acceptFrame _ _ _)
  · exact .refl s

theorem Tidy.badFrame : Tidy s s.badFrame := by
  unfold State.badFrame
  split
  · exact (Tidy.setSensor s _).trans (.raise _ _)
  · exact .setSensor s _
  · exact .refl s

theorem Tidy.misframe (next : Assembler) : Tidy s (s.misframe next) := (Tidy.setSensor s _).trans (.badFrame _)

theorem Tidy.judgeFrame (words : List (BitVec 16)) (parity : Bool) (epoch : Word) : Tidy s (s.judgeFrame words parity epoch) := by
  unfold State.judgeFrame
  dsimp only
  split
  · exact (Tidy.setSensor s _).trans (.goodFrame _ _ _)
  · exact (Tidy.setSensor s _).trans ((Tidy.setSensor _ _).trans (.badFrame _))

theorem Tidy.takeWord (w : BitVec 16) (mark parity : Bool) : Tidy s (s.takeWord w mark parity) := by
  have assembled (t : State) : Tidy t (t.assemble w mark parity) := by
    unfold State.assemble
    split
    · repeat' split
      · exact .setSensor t _
      · exact .refl t
      · exact .refl t
      · exact .misframe t _
    · repeat' split
      · exact (Tidy.misframe t _).trans (.setSensor _ _)
      · exact .setSensor t _
      · exact .judgeFrame t _ _ _
  unfold State.takeWord
  dsimp only
  exact (Tidy.setSensor s _).trans (assembled _)

theorem Tidy.fallSilent : Tidy s s.fallSilent := by
  unfold State.fallSilent
  dsimp only
  split
  · exact (Tidy.setSensor s _).trans (.raise _ _)
  · exact .setSensor s _

theorem Tidy.focusExpires : Tidy s s.focusExpires := by
  unfold State.focusExpires
  split
  · exact .rest (State.failFocus_rest _ _)
  · exact .refl s

/-! ## The motion unit -/

theorem State.settleExpires_rest (g : MotionGroup) (rs : List Requester) : (s.settleExpires g rs).rest = s.rest := by
  refine (State.judgeWaiting_rest _ g).trans ?_
  split <;> rfl

theorem State.arrive_rest (g : MotionGroup) (o : MotionOrder) (t : MoveTarget) : (s.arrive g o t).rest = s.rest := by
  unfold State.arrive
  dsimp only
  split
  · exact State.settleExpires_rest _ _ _
  · rfl

theorem State.homedGroup_rest (g : MotionGroup) : (s.homedGroup g).rest = s.rest := by
  refine (State.judgeWaiting_rest _ g).trans ?_
  split <;> rfl

/-! ## Orders, wafers and rows -/

theorem Tidy.setHandling (h : Handling) : Tidy s (s.setHandling h) := .same
theorem Tidy.setAt (l : Loc) (o : Occupant) : Tidy s (s.setAt l o) := .same
theorem Tidy.countStale : Tidy s s.countStale := .same

theorem Tidy.enterHalted : Tidy s s.enterHalted := (Tidy.setHandling s _).trans (.raise _ _)

theorem Tidy.halt : Tidy s s.halt := by
  unfold State.halt
  split
  · exact .enterHalted s
  · exact .enterHalted s
  · exact .enterHalted s
  · exact .setHandling s _
  · exact .refl s
  · exact .refl s

/-- A change of a lot that leaves its state, its fetch, its recipe and whether it has a table. -/
theorem Tidy.modLot (k : Slot) {f : Lot → Lot} (hf : ∀ l, (f l).file = l.file) : Tidy s (s.modLot k f) := by
  refine .same ?_
  have lots (j : Slot) : ((s.modLot k f).lot j).file = (s.lot j).file := by
    rw [State.lot_modLot]
    split
    · rename_i same
      rw [hf, same]
    · rfl
  exact (congrArg (fun l : Two LotFile => ({ s.files with lots := l } : Files)) (congrArg₂ Two.mk (lots .zero) (lots .one)) :)

theorem Tidy.modWafer (w : WaferName) (f : Wafer → Wafer) : Tidy s (s.modWafer w f) := by
  refine .modLot s w.slot fun l => ?_
  have table : (modAt l.wafers w.n f).isEmpty = l.wafers.isEmpty := by
    refine isEmpty_of_length ?_
    cases w.n with
    | zero => rfl
    | succ n => exact List.length_modify _ _ _
  simp only [Lot.file, table]

/-- A change of a report that leaves its state and its rows' states. -/
theorem Tidy.modReport (k : Slot) {f : Report → Report} (hf : (f (s.report k)).file = (s.report k).file) : Tidy s (s.modReport k f) := by
  refine .same ?_
  have reports (j : Slot) : ((s.modReport k f).report j).file = (s.report j).file := by
    rw [State.report_modReport]
    split
    · rename_i same
      rw [hf, same]
    · rfl
  exact (congrArg (fun r : Two ReportFile => ({ s.files with reports := r } : Files)) (congrArg₂ Two.mk (reports .zero) (reports .one)) :)

theorem Tidy.modRow (w : WaferName) {f : Row → Row} (hf : ∀ r, (f r).state = r.state) : Tidy s (s.modRow w f) := by
  refine .modReport s w.slot ?_
  simp only [Report.file, map_modAt _ _ hf]

theorem Tidy.enter (w : WaferName) {f : Row → Row} (hf : ∀ r, (f r).state = r.state) : Tidy s (s.enter w f) :=
  .modRow s w fun r => by
    split
    · exact hf r
    · rfl

theorem Tidy.writeFinal (w : WaferName) (r : FinalResult) : Tidy s (s.writeFinal w r) :=
  (Tidy.modWafer s w _).trans (.enter _ w fun _ => rfl)

theorem Tidy.endQueued (w : WaferName) (why : EntryReason) : Tidy s (s.endQueued w why) :=
  ⟨.work (.endQueued s w why) (quiet_endQueued (.refl s) w why) (.endQueued s w why), fun core => core.reviews.endQueued w why⟩

theorem Tidy.pendAborted (w : WaferName) : Tidy s (s.pendAborted w) := .modWafer s w _

end

end Sys2Proof.Machine
end

section
/-! SUPPORT. Tidy operations: alignment and the revisits' grabs. -/

namespace Sys2Proof.Machine

section
variable {s : State}

/-! ## Alignment and the revisits' grabs -/

theorem Neat.setAlign (s : State) (a : Align) : Neat s (s.setAlign a) := by
  have set : Neat s { s with align := a } := .same
  unfold State.setAlign
  dsimp only
  split
  · exact set.trans (Tidy.modWafer _ _ _).neat
  · exact set

theorem Neat.showTransform (s : State) : Neat s s.showTransform := by
  unfold State.showTransform
  split
  · exact (Tidy.modWafer s _ _).neat
  · exact .refl s

theorem Neat.alignFail (s : State) (why : AlignReason) : Neat s (s.alignFail why) :=
  .work (.alignFail s why) (quiet_alignFail (.refl s) why) (.alignFail s why)

theorem Neat.beginMark (s : State) (n : Nat) : Neat s (s.beginMark n) := by
  unfold State.beginMark
  dsimp only
  split
  · exact (Neat.setAlign s _).trans (.rest ((State.requestMove_rest _ _ _).trans (State.requestMove_rest _ _ _)))
  · exact (Neat.setAlign s _).trans (.alignFail _ _)

/-- The list looked at is that of the wafer under review. -/
theorem Neat.look {w : WaferName} (here : s.revisit.wafer = some w) (review : s.revisit.review ≠ .ended) : Neat s (s.look w) :=
  .work (.look here) (quiet_look (.refl s) w review) (.look s w)

theorem Neat.toAligned (s : State) : Neat s s.toAligned := by
  refine (Neat.setAlign s { s.align with state := .aligned }).trans ?_
  unfold State.toAligned
  generalize s.setAlign { s.align with state := .aligned } = t
  unfold State.alignedReport
  split
  · split
    · rename_i w reviewed aligning
      exact .look reviewed (by rw [aligning]; nofun)
    · exact .refl t
  · exact .refl t

theorem Neat.handSolve (s : State) (v : Solved) : Neat s (s.handSolve v) := by
  unfold State.handSolve
  split
  · refine Tidy.neat (.enter s _ ?_)
    exact fun _ => rfl
  · exact .refl s

theorem Neat.solveMarks (s : State) : Neat s s.solveMarks := by
  have goesOn (t : State) (r : Recipe) : Neat t (if r.markCount = 3 then t.beginMark 3 else t.toAligned) := by
    split
    · exact .beginMark t 3
    · exact .toAligned t
  unfold State.solveMarks
  dsimp only
  generalize solve _ _ _ _ = v
  split
  · exact (Neat.handSolve s _).trans (.alignFail _ _)
  · exact (Neat.handSolve s _).trans ((Neat.setAlign _ _).trans ((Neat.showTransform _).trans (goesOn _ _)))

theorem Neat.markMeasured (s : State) (ox oy : Int) : Neat s (s.markMeasured ox oy) := by
  have residual (t : State) : Neat t t.checkResidual := by
    unfold State.checkResidual
    dsimp only
    split
    · exact .toAligned t
    · exact .alignFail t _
  unfold State.markMeasured
  dsimp only
  split
  · exact (Neat.setAlign s _).trans (.beginMark _ 2)
  · exact (Neat.setAlign s _).trans (.solveMarks _)
  · exact (Neat.setAlign s _).trans (residual _)

theorem Neat.markMissed (s : State) : Neat s s.markMissed := by
  unfold State.markMissed
  dsimp only
  split
  · exact (Neat.setAlign s _).trans (.rest (State.askGrab_rest _ _))
  · exact (Neat.setAlign s _).trans (.alignFail _ _)

theorem Tidy.alignResult (s : State) (found : Bool) (ox oy : Int) : Tidy s (s.alignResult found ox oy) := by
  refine ⟨?_, fun core => core.reviews.alignResult found ox oy⟩
  unfold State.alignResult
  repeat' split
  · exact .markMeasured s ox oy
  · exact .markMissed s
  · exact .refl s

theorem Tidy.alignGrabFailed (s : State) : Tidy s s.alignGrabFailed := by
  refine ⟨?_, fun core => core.reviews.alignGrabFailed⟩
  unfold State.alignGrabFailed
  split
  · exact .markMissed s
  · exact .refl s

theorem Tidy.failedAttempt {a : ActiveRevisit} {e : Entry} (active : s.revisit.active = some a) (found : s.activeEntry = some e)
    (why : LastFailure) : Tidy s (s.failedAttempt a e why) :=
  ⟨.work (.failedAttempt a (State.activeEntry_opens found).1 why) (quiet_failedAttempt (.refl s) a e why) (.failedAttempt s a e why),
    fun core => core.reviews.failedAttempt active found why⟩

theorem Tidy.revisitGrabFailed (s : State) (why : LastFailure) : Tidy s (s.revisitGrabFailed why) := by
  unfold State.revisitGrabFailed
  split
  · rename_i a e active found
    split
    · exact .failedAttempt active found why
    · exact .refl s
  · exact .refl s

theorem Tidy.grabFails (s : State) (k : GrabKind) (why : LastFailure) : Tidy s (s.grabFails k why) := by
  cases k
  · exact .alignGrabFailed s
  · exact .revisitGrabFailed s why

/-- A record's words changed, its state as it was. -/
theorem Tidy.modEntry (s : State) (k : Slot) (i : Nat) {f : Entry → Entry} (hf : ∀ x, (f x).id = x.id ∧ (f x).wafer = x.wafer
    ∧ (f x).rowClosed = x.rowClosed ∧ (f x).state = x.state) : Tidy s (s.modEntry k i f) := by
  refine ⟨⟨fun kempt => kempt.rewrites (.modEntry kempt (fun x _ _ => ?_) fun x hx _ => ?_), rfl, rfl⟩, fun core => ?_⟩
  · obtain ⟨id, wafer, closed, state⟩ := hf x
    exact ⟨id, wafer, closed, fun admitted => state ▸ admitted⟩
  · obtain ⟨id, -, -, state⟩ := hf x
    exact ⟨id, state.trans (kempt.posting x hx)⟩
  · exact core.reviews.modEntry k i (fun x => (hf x).1) fun x live => (hf x).2.2.2 ▸ live

theorem Tidy.endActive {e : Entry} (found : s.activeEntry = some e) {st : EntryState} (why : EntryReason) (admitted : st.isAdmitted = true)
    (off : st ≠ .queued) (ends : st ≠ .active) : Tidy s (s.endActive e st why) :=
  ⟨.work (.endActive (State.activeEntry_opens found).1 why admitted off) (quiet_endActive (.refl s) e st why) (.endActive s e st why),
    fun core => core.reviews.endActive (fun _ hx live => core.reviews.active_id found hx live) why ends⟩

end

end Sys2Proof.Machine
end

section
/-! SUPPORT. Tidy operations: the stage wafer arrives, leaves and is cut off. -/

namespace Sys2Proof.Machine

section
variable {s : State}

/-! ## The stage wafer arrives, leaves, and is cut off (R23, R152, R155) -/

theorem Told.endActiveEntry (s : State) (why : EntryReason) : Told s (s.endActiveEntry why) := by
  unfold State.endActiveEntry
  split
  · exact .finishEntry s _ _ _
  · exact .refl s

theorem Work.endActiveEntry (s : State) (why : EntryReason) : Work s (s.endActiveEntry why) := by
  unfold State.endActiveEntry
  split
  · rename_i e he
    exact .finishEntry (State.activeEntry_opens he).1.works why rfl nofun
  · exact .refl s

theorem Neat.endActiveEntry (s : State) (why : EntryReason) : Neat s (s.endActiveEntry why) :=
  .work (.endActiveEntry s why) (quiet_endActiveEntry (.refl s) why) (.endActiveEntry s why)

theorem State.Reviews.endActiveEntry (h : s.Reviews) (why : EntryReason) : (s.endActiveEntry why).Reviews := by
  unfold State.endActiveEntry
  split
  · exact h.finishEntry _ why nofun
  · exact h

/-- The entry under review ended, no record is ACTIVE. -/
theorem State.endActiveEntry_none (once : s.Once)
    (one : ∀ x ∈ s.revisit.store, x.state = .active → ∃ a, s.revisit.active = some a ∧ x.is a.slot a.index = true) (why : EntryReason) :
    ∀ x ∈ (s.endActiveEntry why).revisit.store, x.state ≠ .active := by
  have unique {y : Entry} (a : ActiveRevisit) (found : s.storeEntry a.slot a.index = some y) (x : Entry) (hx : x ∈ s.revisit.store)
      (is : x.is a.slot a.index = true) : y = x := by
    have there : y.is a.slot a.index = true := by simpa using List.find?_some found
    exact once.unique (List.mem_of_find?_eq_some found) hx ((Entry.is_iff.1 there).trans (Entry.is_iff.1 is).symm)
  unfold State.endActiveEntry
  split
  · rename_i e found
    intro x hx live
    rw [State.finishEntry_store] at hx
    obtain ⟨y, hy, rfl⟩ := List.mem_map.1 hx
    by_cases is : y.is e.slot e.index = true
    · rw [if_pos is] at live
      cases live
    · rw [if_neg is] at live
      obtain ⟨a, active, named⟩ := one y hy live
      obtain ⟨there, -⟩ := Option.filter_eq_some_iff.1 found
      rw [active] at there
      obtain rfl := unique a there y hy named
      exact is (by simp [Entry.is])
  · rename_i missing
    intro x hx live
    obtain ⟨a, active, is⟩ := one x hx live
    cases found : s.storeEntry a.slot a.index with
    | none => exact absurd is (by rw [State.storeEntry_none.1 found x hx]; nofun)
    | some y =>
      obtain rfl := unique a found x hx is
      have there : s.activeEntry = some y := by
        rw [State.activeEntry, active, Option.bind_some, found]
        exact Option.filter_eq_some_iff.2 ⟨rfl, decide_eq_true live⟩
      rw [missing] at there
      cases there

theorem State.endActiveEntry_align (s : State) (why : EntryReason) : (s.endActiveEntry why).align = s.align :=
  (congrArg State.align (s.endActiveEntry_bare why) :)

/-- The review record of a wafer that arrives. -/
theorem Neat.reviewArrives (s : State) (w : WaferName) : Neat s (s.reviewArrives w) := (Neat.endActiveEntry s _).trans .same

theorem Neat.reviewLeaves (s : State) (w : WaferName) : Neat s (s.reviewLeaves w) := by
  unfold State.reviewLeaves
  split
  · exact (Neat.endActiveEntry s _).trans .same
  · exact .refl s

theorem Tidy.stageArrived (s : State) (w : WaferName) : Tidy s (s.stageArrived w) := by
  refine ⟨(Neat.reviewArrives s w).trans ((Neat.setAlign _ _).trans ((Neat.showTransform _).trans (.beginMark _ 1))), fun core => ?_⟩
  have none := State.endActiveEntry_none core.kempt.once core.reviews.active .waferUnavailable
  have begun : ((s.reviewArrives w).setAlign { Align.reset with wafer := some w, state := .provisional }).Reviews := by
    have set : State.Reviews { s.reviewArrives w with align := { Align.reset with wafer := some w, state := .provisional } } :=
      ⟨fun x hx live => absurd live (none x hx), nofun, nofun, nofun, rfl⟩
    exact set.same (State.setAlign_reviewFile _ _)
  have under : ((s.reviewArrives w).setAlign { Align.reset with wafer := some w, state := .provisional }).Aligning :=
    State.Aligning.setAlign ⟨rfl, rfl⟩ _
  exact (begun.same (State.showTransform_reviewFile _)).beginMark (under.same (State.showTransform_reviewFile _)) 1

theorem Neat.alignLeaves (s : State) (w : WaferName) : Neat s (s.alignLeaves w) := by
  unfold State.alignLeaves
  split
  · exact .same
  · exact .refl s

theorem Neat.focusLeaves (s : State) : Neat s s.focusLeaves :=
  (Neat.rest (State.withdrawFocus_rest s)).trans .same

/-- The records of alignment and of review name one wafer, and leave it together (R67, R70, R155). -/
theorem State.Reviews.stageLeft (h : s.Reviews) (once : s.Once) (w : WaferName) : (s.stageLeft w).Reviews := by
  have focus (t : State) : t.focusLeaves.revisit = t.revisit ∧ t.focusLeaves.align = t.align :=
    ⟨(congrArg State.revisit (State.withdrawFocus_rest t) :), (congrArg State.align (State.withdrawFocus_rest t) :)⟩
  by_cases named : s.revisit.wafer = some w
  · obtain ⟨revisit, align⟩ := focus { s with align := Align.reset }
    have left : s.stageLeft w = ({ s with align := Align.reset } : State).focusLeaves.reviewLeaves w := by
      have both : s.align.wafer = some w := h.named.trans named
      rw [State.stageLeft, State.alignLeaves, if_pos both]
    rw [left]
    generalize ({ s with align := Align.reset } : State).focusLeaves = t at revisit align
    have none : ∀ x ∈ (t.endActiveEntry .waferUnavailable).revisit.store, x.state ≠ .active :=
      State.endActiveEntry_none (by rw [State.Once, revisit]; exact once) (by rw [revisit]; exact h.active) _
    have reset : (t.endActiveEntry .waferUnavailable).align = Align.reset := (t.endActiveEntry_align _).trans align
    rw [State.reviewLeaves, if_pos (by rw [revisit]; exact named)]
    refine ⟨fun x hx live => absurd live (none x hx), nofun, nofun, fun measuring => ?_, congrArg Align.wafer reset⟩
    cases (congrArg Align.state reset).symm.trans measuring
  · obtain ⟨revisit, align⟩ := focus s
    have left : s.stageLeft w = s.focusLeaves := by
      have both : ¬ s.align.wafer = some w := fun there => named (h.named.symm.trans there)
      rw [State.stageLeft, State.alignLeaves, if_neg both, State.reviewLeaves, if_neg (by rw [revisit]; exact named)]
    rw [left]
    exact h.same (congrArg State.reviewFile (State.withdrawFocus_rest s) :)

theorem Tidy.stageLeft (s : State) (w : WaferName) : Tidy s (s.stageLeft w) :=
  ⟨(Neat.alignLeaves s w).trans ((Neat.focusLeaves _).trans (.reviewLeaves _ w)), fun core => core.reviews.stageLeft core.kempt.once w⟩

theorem State.Reviews.alignStop (h : s.Reviews) (al : AlignReason) : (s.alignStop al).Reviews := by
  have stopped : (s.setAlign { s.align with state := .failed, reason := al, xyReq := none, zReq := none }).Reviews := h.setAlign rfl nofun
  unfold State.alignStop
  split
  · dsimp only
    split
    · exact stopped
    · exact stopped
    · exact stopped.rest (State.dropGrab_rest _ _)
  · exact h

/-- After the cut of the entry under review no record is ACTIVE. -/
theorem State.Core.cutActive (h : s.Core) (why : EntryReason) : (s.cutActive why).Reviews
    ∧ ∀ x ∈ (s.cutActive why).revisit.store, x.state ≠ .active := by
  have ended := h.reviews.endActiveEntry why
  have none := State.endActiveEntry_none h.kempt.once h.reviews.active why
  unfold State.cutActive
  split
  · rename_i idle
    exact ⟨h.reviews, fun x hx => h.reviews.none_active idle hx⟩
  · dsimp only
    split
    · exact ⟨ended.rest (State.dropGrab_rest _ _), none⟩
    all_goals exact ⟨ended, none⟩

theorem State.endQueued_ended (h : ∀ x ∈ s.revisit.store, x.state ≠ .active) (w : WaferName) (why : EntryReason) :
    ∀ x ∈ (s.endQueued w why).revisit.store, x.state ≠ .active := by
  have general (l : List Entry) : ∀ s : State, (∀ x ∈ s.revisit.store, x.state ≠ .active) →
      ∀ x ∈ (l.foldl (fun s e => s.finishEntry e .aborted why) s).revisit.store, x.state ≠ .active := by
    induction l with
    | nil => exact fun _ h => h
    | cons e l ih =>
      refine fun s h => ih _ fun x hx => ?_
      rw [State.finishEntry_store] at hx
      obtain ⟨y, hy, rfl⟩ := List.mem_map.1 hx
      split
      · nofun
      · exact h y hy
  exact general _ s h

theorem State.Core.cutOff (h : s.Core) (w : WaferName) (why : EntryReason) (al : AlignReason) : (s.cutOff w why al).Reviews := by
  obtain ⟨cut, none⟩ := h.cutActive why
  have queued := cut.endQueued w why
  have none := State.endQueued_ended none w why
  have stopped := (queued.alignStop al).rest (State.withdrawFocus_rest _)
  obtain ⟨-, off, -, revisit, -, -⟩ := State.alignStop_facts ((s.cutActive why).endQueued w why) al
  have store : (((s.cutActive why).endQueued w why).alignStop al).withdrawFocus.revisit.store
      = ((s.cutActive why).endQueued w why).revisit.store := by
    rw [State.rest_revisit (State.withdrawFocus_rest _), revisit]
  exact (stopped.endReview (by rw [store]; exact none) (by rw [State.rest_align (State.withdrawFocus_rest _)]; exact off)).modWafer w _

theorem Tidy.cutReview (s : State) (why : EntryReason) (al : AlignReason) : Tidy s (s.cutReview why al) := by
  refine ⟨.work (.cutReview s why al) (quiet_cutReview (.refl s) why al) (.cutReview s why al), fun core => ?_⟩
  cases hp : s.revisit.review.inProgress with
  | false =>
    rw [State.cutReview_not hp]
    exact core.reviews
  | true =>
    cases hw : s.revisit.wafer with
    | none =>
      have same : s.cutReview why al = s := by
        unfold State.cutReview
        rw [hw]
      rw [same]
      exact core.reviews
    | some w =>
      have off := core.cutOff w why al
      rw [State.cutReview_eq hw hp]
      split
      · exact (off.toReviewEnded w).rest (State.requestLoad_rest _ _)
      · exact off

end

end Sys2Proof.Machine
end

section
/-! SUPPORT. Tidy operations: aborts, moves, inventories, maps, carrier loss and motion faults. -/

namespace Sys2Proof.Machine

theorem Tidy.fold {α : Type} {f : State → α → State} (h : ∀ s a, Tidy s (f s a)) (l : List α) : ∀ s : State, Tidy s (l.foldl f s) := by
  induction l with
  | nil => exact .refl
  | cons a l ih => exact fun s => (h s a).trans (ih _)

section
variable {s : State}

/-! ## Aborts (R15) -/

theorem Tidy.setMapRequest (s : State) (k : Slot) (b : Bool) : Tidy s (s.setMapRequest k b) := .setHandling s _

theorem Tidy.abortWafer (s : State) (w : WaferName) : Tidy s (s.abortWafer w) := by
  unfold State.abortWafer
  split
  · exact (Tidy.modWafer s w _).trans (.writeFinal _ w _)
  · exact (Tidy.modWafer s w _).trans (.pendAborted _ w)
  · dsimp only
    split
    · exact (Tidy.pendAborted s w).trans (.modWafer _ w _)
    · exact .pendAborted s w
  · exact .pendAborted s w
  · exact .pendAborted s w
  · exact .refl s

theorem Tidy.abortLot {k : Slot} (takes : (s.lot k).state.takesPosts = true) : Tidy s (s.abortLot k) := by
  have begun : Tidy s (s.abortBegun k) := by
    have set : Tidy s (s.setLotState k .aborting) := .setLotState (fun kempt => (kempt.lots k).takes takes) (.inr rfl)
    exact (set.trans (.setMapRequest _ k false)).trans (.fold (fun _ _ => .endQueued _ _ _) _ _)
  have cut : Tidy s (s.abortCut k) := by
    unfold State.abortCut
    split
    · exact begun.trans (.cutReview _ _ _)
    · exact begun
  rw [State.abortLot_cut]
  exact cut.trans (.fold (fun _ _ => .abortWafer _ _) _ _)

/-! ## Moves (R11, R22, R34) -/

theorem Tidy.setWaferState (s : State) (w : WaferName) (st : WaferState) : Tidy s (s.setWaferState w st) := .modWafer s w _

theorem Tidy.handDuration (s : State) (w : WaferName) (d : Word) : Tidy s (s.handDuration w d) := .enter s w fun _ => by exact rfl

theorem Tidy.handMapFigures (s : State) (w : WaferName) : Tidy s (s.handMapFigures w) := .enter s w fun _ => by exact rfl

theorem Tidy.toReturned (s : State) (w : WaferName) : Tidy s (s.toReturned w) :=
  (((Tidy.modWafer s w _).trans (.writeFinal _ w _)).trans (.raise _ _)).trans (.endQueued _ w _)

theorem Tidy.toReviewEndedAtOnce (s : State) (w : WaferName) : Tidy s (s.toReviewEndedAtOnce w) :=
  (((Tidy.modWafer s w _).trans (.handDuration _ w _)).trans (.handMapFigures _ w)).trans (.endQueued _ w _)

theorem Tidy.waferMoved (s : State) (w : WaferName) (dst : Loc) : Tidy s (s.waferMoved w dst) := by
  unfold State.waferMoved
  split
  · exact .setWaferState s w _
  · exact .setWaferState s w _
  · unfold State.readyOnUA
    split
    · exact .setWaferState s w _
    · exact .refl s
  · exact (Tidy.modWafer s w _).trans (.stageArrived _ w)
  · exact .setWaferState s w _
  · exact .toReturned s w
  · exact .toReviewEndedAtOnce s w
  · exact .setHandling s _
  · exact .refl s

theorem Tidy.moveTable (s : State) (src dst : Loc) : Tidy s (s.moveTable src dst) := by
  have set (o : Occupant) : Tidy s ((s.setAt src .empty).setAt dst o) := (Tidy.setAt s src _).trans (.setAt _ dst o)
  unfold State.moveTable
  dsimp only
  repeat' split
  all_goals first | exact set _ | exact .setAt s src _

theorem Tidy.leaveFrom (s : State) (src : Loc) (o : Occupant) : Tidy s (s.leaveFrom src o) := by
  unfold State.leaveFrom
  split
  · exact .stageLeft s _
  · exact .refl s

theorem Tidy.moveDone (s : State) (src dst : Loc) : Tidy s (s.moveDone src dst) := by
  unfold State.moveDone
  dsimp only
  split
  · exact ((Tidy.moveTable s src dst).trans (.leaveFrom _ _ _)).trans (.waferMoved _ _ _)
  · exact (Tidy.moveTable s src dst).trans (.leaveFrom _ _ _)

theorem Tidy.suspectFound (s : State) (w : WaferName) (l : Loc) : Tidy s (s.suspectFound w l) := by
  unfold State.suspectFound
  repeat' split
  all_goals first
    | exact .refl s
    | exact .setWaferState s w _
    | exact .toReturned s w
    | exact .toReviewEndedAtOnce s w

theorem Tidy.robotDone (s : State) (k : RobotKind) : Tidy s (s.robotDone k) := by
  unfold State.robotDone
  split
  · exact .moveDone s _ _
  · exact .refl s

theorem Tidy.recordUncertain (s : State) (k : RobotKind) : Tidy s (s.recordUncertain k) := by
  unfold State.recordUncertain
  repeat' split
  · exact .refl s
  · exact .setHandling s _
  · exact .refl s

theorem Tidy.markSuspect (s : State) (k : RobotKind) : Tidy s (s.markSuspect k) := by
  unfold State.markSuspect
  repeat' split
  · exact (Tidy.modWafer s _ _).trans (.endQueued _ _ _)
  · exact .refl s
  · exact .refl s

theorem Tidy.inventoryFails (s : State) : Tidy s s.inventoryFails := by
  unfold State.inventoryFails
  split
  · exact .enterHalted s
  · exact .halt s

theorem Tidy.moveFaults (s : State) (k : RobotKind) (suspect uncertain : Bool) : Tidy s (s.moveFaults k suspect uncertain) := by
  have marked (t : State) : Tidy t (if uncertain then t.recordUncertain k else t) := by
    split
    · exact .recordUncertain t k
    · exact .refl t
  have faulted : Tidy s (if suspect then s.markSuspect k else s) := by
    split
    · exact .markSuspect s k
    · exact .refl s
  exact (faulted.trans (marked _)).trans (.halt _)

theorem Tidy.robotFault (s : State) (k : RobotKind) (code : HandlerFaultCode) : Tidy s (s.robotFault k code) := by
  cases hk : k.source with
  | some src =>
    rw [State.robotFault_move hk]
    exact .moveFaults s k _ _
  | none =>
    cases k with
    | inventory => exact .inventoryFails s
    | pick => cases hk
    | place l a => cases a <;> cases hk

theorem Tidy.robotTimesOut (s : State) (k : RobotKind) : Tidy s (s.robotTimesOut k) := by
  unfold State.robotTimesOut
  split
  · exact .inventoryFails s
  · exact (Tidy.recordUncertain s _).trans (.halt _)
  · exact (Tidy.recordUncertain s _).trans (.halt _)

/-! ## Inventories (R41 to R44) -/

theorem Tidy.settleUncertain (s : State) (x : Sensed) : Tidy s (s.settleUncertain x) := by
  have judged (t : State) (u : UncertainMove) (w : Option WaferName) : Tidy t (match w with
      | none => if u.taken x then t.moveDone u.source u.destination else t
      | some w =>
        if u.taken x then
          let o := t.at u.source
          let s := (t.moveTable u.source u.destination).leaveFrom u.source o
          if u.destination.isCarrier then s.suspectFound w u.destination else s
        else if u.source.isCarrier then t.suspectFound w u.source else t) := by
    dsimp only
    repeat' split
    · exact .moveDone t _ _
    · exact .refl t
    · exact ((Tidy.moveTable t _ _).trans (.leaveFrom _ _ _)).trans (.suspectFound _ _ _)
    · exact (Tidy.moveTable t _ _).trans (.leaveFrom _ _ _)
    · exact .suspectFound t _ _
    · exact .refl t
  unfold State.settleUncertain
  split
  · exact .refl s
  · exact (Tidy.setHandling s _).trans (judged _ _ _)

theorem Tidy.clearOrphan (s : State) (x : Sensed) (l : Loc) : Tidy s (s.clearOrphan x l) := by
  unfold State.clearOrphan
  split
  · exact (Tidy.setAt s l _).trans (.leaveFrom _ l _)
  · exact .refl s

theorem Tidy.compareAt (s : State) (x : Sensed) (l : Loc) : Tidy s (s.compareAt x l) := by
  unfold State.compareAt
  repeat' split
  · exact .refl s
  · exact .setAt s l _
  · exact .refl s

theorem Tidy.findSuspect (s : State) (x : Sensed) (l : Loc) : Tidy s (s.findSuspect x l) := by
  unfold State.findSuspect
  repeat' split
  · exact .suspectFound s _ l
  · exact .refl s
  · exact .refl s

theorem Tidy.requestHome (s : State) : Tidy s s.requestHome := .rest s.requestHome_rest

theorem Tidy.inventoryAgrees (s : State) : Tidy s s.inventoryAgrees := by
  unfold State.inventoryAgrees
  dsimp only
  split
  · exact (Tidy.setHandling s _).trans (.requestHome _)
  · exact .setHandling s _

theorem Tidy.inventoryDone (s : State) (x : Sensed) : Tidy s (s.inventoryDone x) := by
  have ends (t : State) (agree : Bool) : Tidy t (if t.handling.state ≠ .inventory then t
      else if agree && !t.handling.haltMark then t.inventoryAgrees else t.enterHalted) := by
    repeat' split
    · exact .refl t
    · exact .inventoryAgrees t
    · exact .enterHalted t
  have moved := (Tidy.settleUncertain s x).trans (.fold (fun t l => Tidy.clearOrphan t x l) outsidePlaces _)
  exact ((moved.trans (.fold (fun t l => Tidy.compareAt t x l) outsidePlaces _)).trans
    (.fold (fun t l => Tidy.findSuspect t x l) outsidePlaces _)).trans (ends _ _)

/-! ## Maps, and the loss of a carrier (R12, R29, R38) -/

theorem Tidy.prealignDone (s : State) : Tidy s s.prealignDone := by
  unfold State.prealignDone
  repeat' split
  · exact .setWaferState s _ _
  · exact .refl s
  · exact .refl s

theorem Tidy.applyMap (s : State) (w : WaferName) (a : MapAnswer) : Tidy s (s.applyMap w a) := by
  have away (t : State) (st : WaferState) : Tidy t (t.mappedAway w st) :=
    (((Tidy.setWaferState t w st).trans (.writeFinal _ w _)).trans (.setAt _ _ _)).trans (.endQueued _ w _)
  have answered : Tidy s (s.modWafer w fun x => { x with mapResult := .answered a }) := .modWafer s w _
  unfold State.applyMap
  dsimp only
  split
  · split
    · exact answered
    · exact answered.trans (away _ _)
    · exact answered.trans (away _ _)
    · exact answered.trans (away _ _)
  · exact answered

theorem Tidy.mapAnswered (s : State) (p : Slot) (results : List MapAnswer) : Tidy s (s.mapAnswered p results) := by
  have applied (t : State) (n : Nat) : Tidy t (match getAt results n with
      | some a => t.applyMap ⟨p, n⟩ a
      | none => t) := by
    split
    · exact .applyMap t _ _
    · exact .refl t
  unfold State.mapAnswered
  dsimp only
  split
  · exact (Tidy.setHandling s _).trans (.fold (fun t n => applied t n) slots25 _)
  · exact .setHandling s _

theorem Tidy.mapFails (s : State) (p : Slot) : Tidy s (s.mapFails p) := (Tidy.setMapRequest s p true).trans (.halt _)

theorem Tidy.orphan (s : State) (w : WaferName) : Tidy s (s.orphan w) := by
  have staged (t : State) (x : Wafer) : Tidy t (if x.state = .onStage then (t.handDuration w (t.clock - x.startClock)).handMapFigures w else t) := by
    split
    · exact (Tidy.handDuration t w _).trans (.handMapFigures _ w)
    · exact .refl t
  unfold State.orphan
  split
  · exact .refl s
  · split
    · exact ((staged s _).trans (.setWaferState _ w _)).trans (.writeFinal _ w _)
    · exact .refl s

theorem Tidy.unmap (s : State) (p : Slot) : Tidy s (s.unmap p) :=
  .modLot s p fun l => by rw [Lot.file, Lot.file, isEmpty_of_length (List.length_map (as := l.wafers) _)]

theorem Tidy.carrierLost (s : State) (p : Slot) : Tidy s (s.carrierLost p) := by
  have aborted (t : State) : Tidy t (if (t.lot p).state.takesPosts then t.abortLot p else t) := by
    split
    · rename_i takes
      exact .abortLot takes
    · exact .refl t
  have unknown (t : State) (putBack : Bool) : Tidy t (if putBack then t.setAt .ua .unknown else t) := by
    split
    · exact .setAt t _ _
    · exact .refl t
  have halted (t : State) (b : Bool) : Tidy t (if b then t.halt else t) := by
    split
    · exact .halt t
    · exact .refl t
  have fallen : Tidy s { s with cell := { s.cell with carrier := s.cell.carrier.set p false } } := .same
  have dropped (t : State) : Tidy t (t.dropMap p) := .setHandling t _
  have orphaned := (fallen.trans (.fold (fun t n => Tidy.orphan t ⟨p, n⟩) slots25 _)).trans ((dropped _).trans (.unmap _ p))
  exact ((orphaned.trans (aborted _)).trans (unknown _ _)).trans (halted _ _)

/-! ## Motion faults (R56, R57) -/

theorem Tidy.reportFault (s : State) : Tidy s s.reportFault := by
  unfold State.reportFault
  dsimp only
  have raised := (Tidy.raise s .motionFault).trans (.halt _)
  split
  · exact (raised.trans (.rest (State.withdrawFocus_rest _))).trans (.cutReview _ _ _)
  · exact raised

theorem Tidy.drainOthers : ∀ (n : Nat) (s : State), Tidy s (State.drainOthers n s)
  | 0, s => .refl s
  | n + 1, s => by
    unfold State.drainOthers
    split
    · exact .refl s
    · rename_i m _
      have set : Tidy s (s.setMsgs (s.scratch.msgs.erase m)) := .same
      exact (set.trans (.deliver _ m)).trans (Tidy.drainOthers n _)

theorem Tidy.refuseFirst (s : State) (ms : List Msg) : Tidy s (s.refuseFirst ms) :=
  (Tidy.fold (fun s m => Tidy.deliver s m) ms s).trans (.drainOthers _ _)

theorem Tidy.motionFault (s : State) (g : MotionGroup) : Tidy s (s.motionFault g) := by
  have reported (t : State) (focus : Bool) : Tidy t (t.reportAfterRefusal focus) := by
    unfold State.reportAfterRefusal
    split
    · exact (Tidy.reportFault t).trans (.rest (State.withdrawFocus_rest _))
    · exact .reportFault t
  have stopped : Tidy s (s.faultGroup g) := .rest rfl
  unfold State.motionFault
  dsimp only
  split
  · exact stopped.trans (.reportFault _)
  · rename_i w _
    have cleared : Tidy s { ((s.faultGroup g).setGroup g { (s.faultGroup g).motion.group g with waiting := none }) with free := s.free + 1 } :=
      .same
    split
    · exact (cleared.trans (.refuseFirst _ _)).trans (reported _ _)
    · exact (cleared.trans (.reportFault _)).trans (.rest rfl)

end

end Sys2Proof.Machine
end

section
/-! SUPPORT. Tidy replies, timeouts and lines. -/

namespace Sys2Proof.Machine

section
variable (s : State)

/-! ## The grab link's, the handler's and the motion link's replies and timeouts -/

theorem Tidy.whenDue (t : Timer) {f : State → State} (h : Tidy s (f s)) : Tidy s (s.whenDue t f) := by
  unfold State.whenDue
  split
  · exact h
  · exact .refl s

theorem Tidy.then_settle {s t : State} (h : Tidy s t) : Tidy s t.settle := h.trans (.settle t)

theorem Tidy.endGrab : Tidy s s.endGrab := by
  unfold State.endGrab
  dsimp only
  split
  · exact .rest rfl
  · exact .rest rfl

theorem Tidy.revisitGrabbed (first frames : Word) : Tidy s (s.revisitGrabbed first frames) := by
  unfold State.revisitGrabbed
  split
  · rename_i a e active found
    split
    · have taken := Tidy.modEntry s e.slot e.index (f := fun x => { x with firstFrame := first, frames := frames })
        fun _ => ⟨rfl, rfl, rfl, rfl⟩
      obtain ⟨⟨x, hx, is, live⟩, -⟩ := State.activeEntry_opens found
      have opens : (s.modEntry e.slot e.index fun x => { x with firstFrame := first, frames := frames }).Opens e.slot e.index :=
        ⟨_, List.mem_map_of_mem hx, by rw [if_pos is]; exact is, by rw [if_pos is]; exact live⟩
      refine ⟨taken.neat.trans (.work (.endActive opens .none rfl nofun) (quiet_endActive (.refl _) e _ _) (.endActive _ e _ _)), fun core => ?_⟩
      refine (taken.reviews core).endActive (fun y hy stands => ?_) .none nofun
      obtain ⟨z, hz, rfl⟩ := List.mem_map.1 hy
      have same : (if z.is e.slot e.index then { z with firstFrame := first, frames := frames } else z).state = z.state
          ∧ (if z.is e.slot e.index then { z with firstFrame := first, frames := frames } else z).id = z.id := by
        split
        · exact ⟨rfl, rfl⟩
        · exact ⟨rfl, rfl⟩
      exact same.2.trans (core.reviews.active_id found hz (same.1.symm.trans stands))
    · exact .refl s
  · exact .refl s

theorem Tidy.markReply (tag : Tag) (found : Bool) (ox oy : Int) : Tidy s (s.markReply tag found ox oy) := by
  unfold State.markReply
  split
  · exact .countStale s
  · exact .endGrab s
  · exact ((Tidy.endGrab s).trans (.alignResult _ _ _ _)).then_settle

theorem Tidy.grabDoneReply (tag : Tag) (first frames : Word) : Tidy s (s.grabDoneReply tag first frames) := by
  unfold State.grabDoneReply
  split
  · exact .countStale s
  · exact .endGrab s
  · exact ((Tidy.endGrab s).trans (.revisitGrabbed _ _ _)).then_settle

theorem Tidy.grabFaultReply (tag : Tag) : Tidy s (s.grabFaultReply tag) := by
  unfold State.grabFaultReply
  split
  · exact ((Tidy.endGrab s).trans (.grabFails _ _ _)).then_settle
  · exact .endGrab s
  · exact .countStale s

theorem Tidy.grabTimesOut : Tidy s s.grabTimesOut := by
  unfold State.grabTimesOut
  split
  · refine .whenDue s _ ?_
    dsimp only
    split
    · exact .endGrab s
    · exact ((Tidy.endGrab s).trans (.grabFails _ _ _)).then_settle
  · exact .refl s

theorem Tidy.endRobot : Tidy s s.endRobot := .setHandling s _
theorem Tidy.endPrealign : Tidy s s.endPrealign := .setHandling s _
theorem Tidy.setMapper (p : Slot) (o : Option MapOrder) : Tidy s (s.setMapper p o) := .setHandling s _

theorem Tidy.robotReply (tag : Tag) : Tidy s (s.robotReply tag) := by
  unfold State.robotReply
  split
  · exact .countStale s
  · exact ((Tidy.endRobot s).trans (.robotDone _ _)).then_settle
  · exact .countStale s

theorem Tidy.inventoryReply (tag : Tag) (x : Sensed) : Tidy s (s.inventoryReply tag x) := by
  unfold State.inventoryReply
  split
  · exact ((Tidy.endRobot s).trans (.inventoryDone _ _)).then_settle
  · exact .countStale s

theorem Tidy.prealignReply (tag : Tag) : Tidy s (s.prealignReply tag) := by
  unfold State.prealignReply
  split
  · split
    · exact ((Tidy.endPrealign s).trans (.prealignDone _)).then_settle
    · exact .countStale s
  · exact .countStale s

/-- A MAP's end: what its answer does is left out when the MAP was cancelled (R29). -/
theorem Tidy.mapEnds (p : Slot) (cancelled : Bool) {f : State → State} (h : ∀ t, Tidy t (f t)) :
    Tidy s (if cancelled then s.setMapper p none else f (s.setMapper p none)).settle := by
  refine Tidy.then_settle ?_
  split
  · exact .setMapper s p none
  · exact (Tidy.setMapper s p none).trans (h _)

theorem Tidy.mapReply (p : Slot) (tag : Tag) (results : List MapAnswer) : Tidy s (s.mapReply p tag results) := by
  unfold State.mapReply
  split
  · split
    · exact .mapEnds s p _ (f := fun t => t.mapAnswered p results) fun t => .mapAnswered t p results
    · exact .countStale s
  · exact .countStale s

theorem Tidy.faultReply (u : HandlerUnit) (tag : Tag) (code : HandlerFaultCode) : Tidy s (s.faultReply u tag code) := by
  cases u with
  | robot =>
    dsimp only [State.faultReply]
    split
    · exact ((Tidy.endRobot s).trans (.robotFault _ _ _)).then_settle
    · exact .countStale s
  | prealigner =>
    dsimp only [State.faultReply]
    split
    · split
      · exact ((Tidy.endPrealign s).trans (.halt _)).then_settle
      · exact .countStale s
    · exact .countStale s
  | mapper p =>
    dsimp only [State.faultReply]
    split
    · rename_i o _
      split
      · exact Tidy.mapEnds s p o.cancelled (f := fun t => t.mapFails p) fun t => .mapFails t p
      · exact .countStale s
    · exact .countStale s

theorem Tidy.handlerTimesOut (u : HandlerUnit) : Tidy s (s.handlerTimesOut u) := by
  cases u with
  | robot =>
    dsimp only [State.handlerTimesOut]
    split
    · exact .whenDue s _ ((Tidy.endRobot s).trans (.robotTimesOut _ _)).then_settle
    · exact .refl s
  | prealigner =>
    dsimp only [State.handlerTimesOut]
    split
    · exact .whenDue s _ ((Tidy.endPrealign s).trans (.halt _)).then_settle
    · exact .refl s
  | mapper p =>
    dsimp only [State.handlerTimesOut]
    split
    · rename_i o _
      exact Tidy.whenDue s _ (f := fun s => (if o.cancelled then s.setMapper p none else (s.setMapper p none).mapFails p).settle)
        (Tidy.mapEnds s p o.cancelled (f := fun t => t.mapFails p) fun t => .mapFails t p)
    · exact .refl s

theorem Tidy.arrivedReply (tag : Tag) : Tidy s (s.arrivedReply tag) := by
  unfold State.arrivedReply
  split
  · split
    · exact (Tidy.rest (s.arrive_rest _ _ _)).then_settle
    · exact .countStale s
  · exact .countStale s

theorem Tidy.homedReply (tag : Tag) : Tidy s (s.homedReply tag) := by
  unfold State.homedReply
  split
  · split
    · exact (Tidy.rest (s.homedGroup_rest _)).then_settle
    · exact .countStale s
  · exact .countStale s

theorem Tidy.motionFaultReply (tag : Tag) : Tidy s (s.motionFaultReply tag) := by
  unfold State.motionFaultReply
  split
  · exact (Tidy.motionFault s _).then_settle
  · exact .countStale s

theorem Tidy.motionTimesOut (g : MotionGroup) : Tidy s (s.motionTimesOut g) := by
  have stop : Tidy s (s.sendStop g) := .rest rfl
  unfold State.motionTimesOut
  split
  · exact .whenDue s _ (stop.trans (.motionFault _ _)).then_settle
  · exact .refl s

theorem Tidy.settleTimesOut (g : MotionGroup) : Tidy s (s.settleTimesOut g) := by
  unfold State.settleTimesOut
  split
  · exact .whenDue s _ (Tidy.rest (s.settleExpires_rest _ _)).then_settle
  · exact .refl s

/-! ## Timers and lines -/

theorem Tidy.silenceTimesOut : Tidy s s.silenceTimesOut := by
  unfold State.silenceTimesOut
  split
  · exact .whenDue s _ (.fallSilent s)
  · exact .refl s

theorem Tidy.focusTimesOut : Tidy s s.focusTimesOut := by
  unfold State.focusTimesOut
  split
  · exact .whenDue s _ (Tidy.focusExpires s).then_settle
  · exact .refl s

/-- A normal end of review while the unit waits for posts (R150, R151). -/
theorem Tidy.normalEnd {s : State} (w : WaferName) (waits : s.Core → s.revisit.review = .waiting) : Tidy s (s.normalEnd w) := by
  refine ⟨?_, fun core => core.reviews.normalEnd (core.reviews.waiting (waits core)) w⟩
  have closed : Neat s s.endReview := .same
  have ended (t : State) : Neat t (t.toReviewEnded w) := by
    obtain same | ⟨x, same⟩ := t.toReviewEnded_cases w
    · rw [same]
      exact .refl t
    · rw [same]
      exact ((((Tidy.modWafer t w _).trans (.enter _ w fun _ => by exact rfl)).trans (.enter _ w fun _ => by exact rfl)).trans
        (.endQueued _ w _)).neat
  have reviewed := (closed.trans (Tidy.modWafer _ w fun x => { x with pendingResult := some .reviewed }).neat).trans (ended _)
  exact (reviewed.trans (Tidy.enter _ w (f := fun r => { r with postingTimeout := s.revisit.timeoutFlag }) fun _ => by exact rfl).neat).trans
    (.rest (State.requestLoad_rest _ _))

theorem Tidy.postingWaitEnds : Tidy s s.postingWaitEnds := by
  unfold State.postingWaitEnds
  split
  · rename_i t w timer _
    have flagged : Tidy s (s.setRevisit { s.revisit with timeoutFlag := true }) := .same
    exact .whenDue s _ (flagged.trans (.normalEnd w fun core => core.reviews.timed (by
      show s.revisit.timer.isSome = true
      rw [timer]
      rfl))).then_settle
  · exact .refl s

theorem Tidy.opensInterlock : Tidy s s.opensInterlock := by
  have set : Tidy s (s.setInterlock true) := .same
  unfold State.opensInterlock
  dsimp only
  split
  · exact set.trans (.setHandling _ _)
  · exact set

theorem Tidy.closesInterlock : Tidy s s.closesInterlock := by
  have set : Tidy s (s.setInterlock false) := .same
  unfold State.closesInterlock
  refine Tidy.then_settle ?_
  split
  · exact set.trans (.setHandling _ _)
  · exact set

end

end Sys2Proof.Machine
end

section
/-! SUPPORT. Tidy requests: masked, counted and passed writes, entries that end and leave, aborts. -/

namespace Sys2Proof.Machine

section
variable (s : State)

/-! ## What a write to a watched word asks for, with no part request of its own -/

theorem Tidy.pass (a : PAccess) : Tidy s (s.pass a) := .same
theorem Tidy.hold (a : PAccess) (why : HoldReason) : Tidy s (s.hold a why) := .same
theorem Tidy.setSlot (p : PathSlot) : Tidy s (s.setSlot p) := .same
theorem Tidy.capture (k : Slot) (i w : Nat) (v : Word) (be : Enables) : Tidy s (s.capture k i w v be) := .same

theorem Tidy.countMasked : Tidy s s.countMasked :=
  Tidy.trans (t := { s with anchor := { s.anchor with masked := satInc 65535 s.anchor.masked } }) .same (.raise _ _)

theorem Tidy.mask (a : PAccess) : Tidy s (s.mask a) := (Tidy.countMasked s).trans (.setSlot _ _)

theorem Tidy.passCaptured (a : PAccess) (k : Slot) (i w : Nat) : Tidy s (s.passCaptured a k i w) := (Tidy.capture s k i w _ _).trans (.pass _ a)

theorem Tidy.startBusy (k : Slot) : Tidy s (s.startBusy k) := .modLot s k fun _ => by exact rfl
theorem Tidy.ignoreLotRequest (k : Slot) : Tidy s (s.ignoreLotRequest k) := .modLot s k fun _ => by exact rfl

theorem Tidy.countIgnored (k : Slot) (i : Nat) : Tidy s (s.countIgnored k i) := .modEntry s k i fun _ => by exact ⟨rfl, rfl, rfl, rfl⟩

theorem Tidy.countChanged (k : Slot) (i : Nat) : Tidy s (s.countChanged k i) := by
  unfold State.countChanged
  split
  · split
    · exact .modLot s k fun _ => by exact rfl
    · exact .refl s
  · exact .refl s

theorem Tidy.countClass (e : Entry) (c : Byte) : Tidy s (s.countClass e c) :=
  (Tidy.modRow s e.wafer fun _ => by exact rfl).trans (.modEntry _ _ _ fun _ => by exact ⟨rfl, rfl, rfl, rfl⟩)

theorem Tidy.countLate (k : Slot) (i : Nat) : Tidy s (s.countLate k i) := by
  unfold State.countLate
  split
  · exact .modRow s _ fun _ => by exact rfl
  · exact .refl s

theorem Tidy.countUnattributed (k : Slot) : Tidy s (s.countUnattributed k) := by
  unfold State.countUnattributed
  split
  · exact .modReport s k rfl
  · exact .refl s

theorem Tidy.countPost (w : WaferName) (fate : Option Outcome) : Tidy s (s.countPost w fate) := by
  unfold State.countPost
  split
  · exact .modRow s w fun _ => by exact rfl
  · split
    · exact .countUnattributed s _
    · exact .refl s

theorem Tidy.unlockClass (k : Slot) (i : Nat) : Tidy s (s.unlockClass k i) := .modReport s k rfl

theorem Tidy.refuseDetach : Tidy s s.refuseDetach :=
  Tidy.trans (t := s.setAnchor { s.anchor with reason := .detachRefused }) .same (.raise _ _)

theorem Tidy.lateClass (a : PAccess) (k : Slot) (i : Nat) : Tidy s (s.lateClass a k i) := by
  unfold State.lateClass
  split
  · exact .countLate s k i
  · exact .refl s

theorem Tidy.judgeClass (a : PAccess) (k : Slot) (i : Nat) : Tidy s (s.judgeClass a k i) := by
  unfold State.judgeClass
  split
  · exact (Tidy.lateClass s a k i).trans (.mask _ a)
  · split
    · exact .pass s a
    · split
      · exact .passCaptured s a k i 5
      · split
        · split
          · exact .hold s a _
          · split
            · exact (Tidy.countClass s _ _).trans (.passCaptured _ a k i 5)
            · exact .passCaptured s a k i 5
        · exact .passCaptured s a k i 5

theorem Tidy.judgeClassTable (a : PAccess) (w : Nat) : Tidy s (s.judgeClassTable a w) := by
  unfold State.judgeClassTable
  split
  · exact .same
  · exact .pass s a

theorem Tidy.judgeRead (a : PAccess) : Tidy s (s.judgeRead a) := by
  unfold State.judgeRead
  split
  · exact .same
  · exact .pass s a

theorem Tidy.sendInventory : Tidy s s.sendInventory := .same

theorem Tidy.handlingRequest (v : Word) : Tidy s (s.handlingRequest v) := by
  have resumed : Tidy s s.resumeRequest := by
    unfold State.resumeRequest
    split
    · exact .sendInventory s
    · exact .refl s
  have inventoried : Tidy s s.inventoryRequest := by
    unfold State.inventoryRequest
    split
    · exact .sendInventory s
    · exact .refl s
  unfold State.handlingRequest
  split
  · exact resumed
  · split
    · exact inventoried
    · exact .refl s

theorem Tidy.motionRequest (v : Word) : Tidy s (s.motionRequest v) := by
  unfold State.motionRequest
  split
  · exact .requestHome s
  · exact .refl s

theorem Tidy.postingClose (w : WaferName) : Tidy s (s.postingClose w) := by
  have closed := Tidy.modWafer s w fun x => { x with postingClosed := true }
  unfold State.postingClose
  dsimp only
  split
  · split
    · rename_i waits
      exact (closed.trans (.normalEnd w fun _ => waits.1)).then_settle
    · exact closed
  · exact .refl s

theorem Tidy.rowCloseRequest (a : PAccess) (w : WaferName) : Tidy s (s.rowCloseRequest a w) := by
  unfold State.rowCloseRequest
  split
  · exact .pass s a
  · exact .pass s a
  · exact .pass s a
  · split
    · exact .pass s a
    · split
      · split
        · exact (Tidy.closeRow s w).trans (.pass _ a)
        · exact .mask s a
      · exact .mask s a

theorem Tidy.judgeWaferEntry (a : PAccess) (k : Slot) (n w : Nat) : Tidy s (s.judgeWaferEntry a k n w) := by
  unfold State.judgeWaferEntry
  split
  · exact .mask s a
  · split
    · split
      · exact .mask s a
      · exact .pass s a
    · split
      · split
        · exact .mask s a
        · split
          · exact (Tidy.postingClose s ⟨k, n⟩).trans (.pass _ a)
          · exact .pass s a
      · split
        · split
          · exact .mask s a
          · split
            · exact .rowCloseRequest s a ⟨k, n⟩
            · exact .pass s a
        · split
          · exact .mask s a
          · exact .pass s a

/-! ## Entries' records that end, leave and arrive -/

/-- A store record ends: an entry that was not admitted is not admitted by its end. -/
theorem Tidy.finishEntry {s : State} {e : Entry} (mem : e ∈ s.revisit.store) {st : EntryState} (why : EntryReason)
    (admitted : st.isAdmitted = true → e.state.isAdmitted = true) (off : st ≠ .active) : Tidy s (s.finishEntry e st why) := by
  have changed : Neat s (s.modEntry e.slot e.index fun x => { x with state := st, reason := why }) :=
    ⟨fun kempt => kempt.rewrites (.modEntry kempt
      (fun x hx is => ⟨rfl, rfl, rfl, fun there => by
        rw [kempt.once.unique hx mem (Entry.is_iff.1 is)]
        exact admitted there⟩)
      fun x hx is => absurd (Entry.is_iff.1 is) (kempt.once.apart hx mem)), rfl, rfl⟩
  have counted (t : State) (o : Outcome) : Tidy t (t.countOutcome e.wafer o) := .enter t _ fun _ => by exact rfl
  refine ⟨?_, fun core => core.reviews.finishEntry e why off⟩
  unfold State.finishEntry
  dsimp only
  split
  · exact changed.trans (counted _ _).neat
  · exact changed

theorem Tidy.withdraw (k : Slot) (i : Nat) : Tidy s (s.withdraw k i) := by
  unfold State.withdraw
  split
  · exact .refl s
  · rename_i e found
    split
    · rename_i queued
      obtain listed | ⟨-, stored⟩ := Option.or_eq_some_iff.1 found
      · have never (kempt : s.Kempt) : False :=
          absurd ((kempt.posting e (List.mem_of_find?_eq_some listed)).symm.trans queued) nofun
        have counted : Tidy _ (s.finishEntry e .withdrawn .none) :=
          .enter (s.modEntry e.slot e.index fun x => { x with state := .withdrawn, reason := .none }) e.wafer fun _ => by exact rfl
        exact ⟨⟨fun kempt => (never kempt).elim, counted.neat.port, counted.neat.attach⟩, fun core => (never core.kempt).elim⟩
      · exact .finishEntry (List.mem_of_find?_eq_some stored) .none nofun nofun
    · exact .countIgnored s k i

/-- Records leave the store, or lose nothing but their place in it. -/
theorem Rewrites.filter {s : State} (h : s.Kempt) (p q : Entry → Bool) : Rewrites s (s.setRevisit { s.revisit with
    posting := s.revisit.posting.filter p, store := s.revisit.store.filter q }) := by
  have once : (((s.revisit.posting.filter p) ++ (s.revisit.store.filter q)).map Entry.id).Nodup :=
    List.Nodup.sublist ((List.filter_sublist.append List.filter_sublist).map Entry.id) h.once
  refine ⟨rfl, once, fun e he => h.posting e (List.mem_of_mem_filter he), List.length_filter_le _ _, fun w => ?_, fun e he open_ =>
    ⟨e, List.mem_of_mem_filter he, open_, rfl⟩, fun none => ?_⟩
  · exact (List.filter_sublist.filter _).length_le
  · show s.revisit.posting.filter p = [] ∧ s.revisit.store.filter q = []
    rw [none.1, none.2]
    exact ⟨rfl, rfl⟩

theorem Tidy.filter (p q : Entry → Bool) : Tidy s (s.setRevisit { s.revisit with
    posting := s.revisit.posting.filter p, store := s.revisit.store.filter q }) :=
  ⟨⟨fun kempt => kempt.rewrites (.filter kempt p q), rfl, rfl⟩,
    fun core => core.reviews.fewer rfl fun e he live => ⟨e, List.mem_of_mem_filter he, live, rfl⟩⟩

theorem Tidy.leavePosting (k : Slot) (i : Nat) : Tidy s (s.leavePosting k i) := by
  have := Tidy.filter s (fun e => !e.is k i) fun _ => true
  rw [List.filter_true] at this
  exact this

theorem Tidy.leaveStore (k : Slot) (i : Nat) : Tidy s (s.leaveStore k i) := by
  have := Tidy.filter s (fun _ => true) fun e => !e.is k i
  rw [List.filter_true] at this
  exact this

theorem Tidy.dropRecord (e : Entry) : Tidy s (s.dropRecord e) := by
  unfold State.dropRecord
  dsimp only
  split
  · split
    · exact (Tidy.modRow s _ fun _ => by exact rfl).trans (.leaveStore _ _ _)
    · exact .leaveStore s _ _
  · exact .leaveStore s _ _

theorem Tidy.dropEarlier (k : Slot) (i : Nat) : Tidy s (s.dropEarlier k i) := by
  unfold State.dropEarlier
  split
  · exact (Tidy.dropRecord s _).trans (.unlockClass _ k i)
  · exact .unlockClass s k i

theorem Tidy.recordWrittenBack (id : RecId) : Tidy s (s.recordWrittenBack id) := by
  unfold State.recordWrittenBack
  split
  · split
    · split
      · exact .leaveStore s _ _
      · exact .refl s
    · exact .refl s
  all_goals exact .refl s

/-- An entry taken by a review that waits for posts (R130, R150). -/
theorem Tidy.inserted (w : WaferName) : Tidy s (s.inserted w) := by
  unfold State.inserted
  split
  · rename_i waits
    split
    · rename_i e rest queue
      have opens := State.queuedOf_opens (s := s) (w := w) (e := e) (by rw [queue]; exact List.mem_cons_self)
      exact ⟨.work (.takeEntry opens) (quiet_takeEntry (.refl s) e (by rw [waits.1]; nofun)) (.takeEntry s e),
        fun core => core.reviews.takeEntry (core.reviews.waiting waits.1) e⟩
    · exact .refl s
  · exact .refl s

/-! ## Aborts -/

theorem State.Kempt.abortStarting {s : State} (h : s.Kempt) {k : Slot} (starting : (s.lot k).state = .starting) :
    (s.setLotState k .aborting).Kempt := by
  have lots (j : Slot) : (s.setLotState k .aborting).lot j = if j = k then { s.lot k with state := .aborting } else s.lot j :=
    s.lot_modLot k j _
  have lot : (s.setLotState k .aborting).lot k = { s.lot k with state := .aborting } := (lots k).trans (if_pos rfl)
  have attached := h.attached (k := k) (.inr (by rw [starting]; nofun))
  have here := h.lots k
  have fits := here.report
  rw [starting] at fits
  refine h.slot (k := k) ⟨⟨rfl, rfl⟩, rfl, fun j other => by rw [lots, if_neg other], fun _ _ => rfl, fun _ _ => rfl⟩
    ⟨fun on => ?_, fun takes => ?_, ?_, fun none => ?_, here.rows, here.closed, here.opened⟩
    (fun _ => by rw [State.recipe, lot]; rfl) (fun _ => h.lock attached k) fun apart => absurd attached apart
  · rw [lot] at on
    cases on
  · rw [lot] at takes
    cases takes
  · rw [lot]
    show LotState.reportFits .aborting (s.lot k).fetch.isSome (s.report k).state = true
    rw [here.starting starting]
    exact fits
  · rw [lot]
    exact here.noTable none

theorem Tidy.abortRequest (k : Slot) : Tidy s (s.abortRequest k) := by
  unfold State.abortRequest
  split
  · rename_i starting
    exact Tidy.trans (t := s.setLotState k .aborting) ⟨⟨fun kempt => kempt.abortStarting starting, rfl, rfl⟩, fun core => core.reviews.same rfl⟩
      (.setMapRequest _ k false)
  · rename_i takes
    exact (Tidy.abortLot (by rw [takes]; rfl)).then_settle
  · rename_i takes
    exact (Tidy.abortLot (by rw [takes]; rfl)).then_settle
  · rename_i takes
    exact (Tidy.abortLot (by rw [takes]; rfl)).then_settle
  all_goals exact .ignoreLotRequest s k

end

end Sys2Proof.Machine
end

section
/-! SUPPORT. The whole invariant inside a step, and the operations on the part requests and the write-back record. -/

namespace Sys2Proof.Machine

/-! ## The whole invariant inside a step -/

/-- The layout words read and asked for, and the dirty list (R175, R183). -/
structure State.Ported (s : State) : Prop where
  layout : (s.mport.requests.filter PartRequest.isLayout).length
    = if s.anchor.attach = .checking then 10 - s.path.layoutGot.length else 0
  reading : s.anchor.attach = .checking → s.path.layoutGot.length < 10
  dirty : (s.wb.dirty.map (·.id)).Nodup

structure State.Hale (s : State) : Prop where
  core : s.Core
  port : s.Ported

section
variable {s t u : State}

theorem State.Ported.same (h : s.Ported) (port : t.portFile = s.portFile) (attach : t.anchor.attach = s.anchor.attach) : t.Ported := by
  have requests : t.mport.requests = s.mport.requests := (congrArg (fun x : PortFile => x.mport.requests) port :)
  have got : t.path.layoutGot = s.path.layoutGot := (congrArg PortFile.layoutGot port :)
  have dirty : t.wb.dirty = s.wb.dirty := (congrArg (fun x : PortFile => x.wb.dirty) port :)
  exact ⟨by rw [requests, got, attach]; exact h.layout, by rw [got, attach]; exact h.reading, by rw [dirty]; exact h.dirty⟩

theorem Tidy.hale (h : Tidy s t) (hale : s.Hale) : t.Hale := ⟨h.core hale.core, hale.port.same h.neat.port h.neat.attach⟩

/-- An operation that changes the part requests, the write-back record or what the step has written alone, and asks for no layout word. -/
structure Ship (s t : State) : Prop where
  files : t.files = s.files
  review : t.reviewFile = s.reviewFile
  got : t.path.layoutGot = s.path.layoutGot
  layouts : (t.mport.requests.filter PartRequest.isLayout).length = (s.mport.requests.filter PartRequest.isLayout).length
  dirty : (s.wb.dirty.map (·.id)).Nodup → (t.wb.dirty.map (·.id)).Nodup

theorem Ship.refl (s : State) : Ship s s := ⟨rfl, rfl, rfl, rfl, id⟩

theorem Ship.trans (h : Ship s t) (g : Ship t u) : Ship s u :=
  ⟨g.files.trans h.files, g.review.trans h.review, g.got.trans h.got, g.layouts.trans h.layouts, fun d => g.dirty (h.dirty d)⟩

theorem Ship.hale (h : Ship s t) (hale : s.Hale) : t.Hale := by
  have attach : t.anchor.attach = s.anchor.attach := (congrArg Files.attach h.files :)
  exact ⟨hale.core.same h.files h.review, by rw [h.layouts, h.got, attach]; exact hale.port.layout,
    by rw [h.got, attach]; exact hale.port.reading, h.dirty hale.port.dirty⟩

theorem Ship.same (files : t.files = s.files := by rfl) (review : t.reviewFile = s.reviewFile := by rfl)
    (got : t.path.layoutGot = s.path.layoutGot := by rfl) (mport : t.mport = s.mport := by rfl) (dirty : t.wb.dirty = s.wb.dirty := by rfl) :
    Ship s t := ⟨files, review, got, by rw [mport], by rw [dirty]; exact id⟩

theorem Ship.fold {α : Type} {f : State → α → State} (h : ∀ s a, Ship s (f s a)) (l : List α) : ∀ s : State, Ship s (l.foldl f s) := by
  induction l with
  | nil => exact .refl
  | cons a l ih => exact fun s => (h s a).trans (ih _)

end

section
variable (s : State)

/-! ## The part requests and the writer -/

theorem Ship.askAll {qs : List PartRequest} (none : ∀ q ∈ qs, q.isLayout = false) : Ship s (s.askAll qs) := by
  refine ⟨rfl, rfl, rfl, ?_, id⟩
  show ((s.mport.requests ++ qs).filter _).length = _
  have empty : qs.filter PartRequest.isLayout = [] := List.filter_eq_nil_iff.2 fun q hq => by rw [none q hq]; nofun
  rw [List.filter_append, empty, List.append_nil]

theorem Ship.ask {q : PartRequest} (off : q.isLayout = false) : Ship s (s.ask q) :=
  .askAll s (qs := [q]) fun p hp => by
    rw [List.mem_singleton.1 hp]
    exact off

theorem queueWords_isLayout (ws : Windows) (id : RecId) (value : Nat → Option Word) (offsets : List Nat) :
    ∀ q ∈ queueWords ws id value offsets, q.isLayout = false := by
  intro q hq
  obtain ⟨w, -, hw⟩ := List.mem_filterMap.1 hq
  obtain ⟨v, -, rfl⟩ := Option.map_eq_some_iff.1 hw
  rfl

theorem Ship.setVersion (id : RecId) (v : Word) : Ship s (s.setVersion id v) := .same
theorem Ship.writeWhole (id : RecId) : Ship s (s.writeWhole id) := .same

theorem Ship.keep (id : RecId) : Ship s (s.keep id) := by
  unfold State.keep
  split
  · exact .same
  · exact .refl s

theorem Ship.moveDirect (ws : Windows) (h : HeldImage) (rest : List HeldImage) : Ship s (s.moveDirect ws h rest) :=
  Ship.trans (t := { s with wb := { s.wb with direct := rest } }) .same (.askAll _ (queueWords_isLayout _ _ _ _))

theorem Ship.enterDirectFor (n : Nat) : ∀ s : State, Ship s (State.enterDirectFor n s) := by
  induction n with
  | zero => exact .refl
  | succ n ih =>
    intro s
    unfold State.enterDirectFor
    split
    · split
      · exact (Ship.moveDirect s _ _ _).trans (ih _)
      · exact .refl s
    · exact .refl s

theorem Ship.enterDirect : Ship s s.enterDirect := .enterDirectFor _ s

theorem Ship.moveDirty (ws : Windows) : Ship s (s.moveDirty ws) := by
  unfold State.moveDirty
  split
  · exact .refl s
  · rename_i d rest dirty
    have enters (l : List DirtyRecord) (qs : List PartRequest) (none : ∀ q ∈ qs, q.isLayout = false)
        (fewer : ((d :: rest).map (·.id)).Nodup → (l.map (·.id)).Nodup) : Ship s ({ s with wb := { s.wb with dirty := l } }.askAll qs) :=
      Ship.trans (t := { s with wb := { s.wb with dirty := l } }) ⟨rfl, rfl, rfl, rfl, by rw [dirty]; exact fewer⟩ (.askAll _ none)
    dsimp only
    split
    · split
      · exact enters _ _ (queueWords_isLayout _ _ _ _) fun once => (List.nodup_cons.1 once).2
      · exact .refl s
    · split
      · exact enters _ _ (queueWords_isLayout _ _ _ _) id
      · exact .refl s

theorem Ship.moveRecord : Ship s s.moveRecord := by
  unfold State.moveRecord
  split
  · exact .refl s
  · split
    · exact .moveDirty s _
    · split
      · exact .moveDirect s _ _ _
      · exact .refl s

theorem Ship.addDirect (e : Entry) : Ship s (s.addDirect e) := by
  have versioned : Ship s (if s.scratch.versioned.contains e.id then s else s.setVersion e.id (s.version e.id + 1)) := by
    split
    · exact .refl s
    · exact .setVersion s _ _
  refine versioned.trans ⟨rfl, rfl, rfl, rfl, fun once => ?_⟩
  exact once.sublist (List.filter_sublist.map _)

/-- A request that reads no layout word has been served. -/
theorem Ship.endService {q : PartRequest} (served : s.served = some q) (off : q.isLayout = false) : Ship s s.endService := by
  refine ⟨rfl, rfl, rfl, ?_, id⟩
  show (s.mport.requests.tail.filter _).length = _
  have head : s.mport.requests.head? = some q := by
    unfold State.served at served
    split at served
    · exact served
    · cases served
  obtain ⟨rest, all⟩ := List.head?_eq_some_iff.1 head
  rw [all, List.tail_cons, List.filter_cons, off]
  rfl

theorem Ship.serveWrite : Ship s s.serveWrite := by
  unfold State.serveWrite
  split
  · rename_i addr v id served
    have stored : Ship s { s.endService with mem := s.mem.writeWord addr v 15 } := by
      obtain ⟨files, review, got, layouts, dirty⟩ := Ship.endService s served rfl
      exact ⟨files, review, got, layouts, dirty⟩
    exact stored.trans (.enterDirect _)
  · exact .refl s

theorem Ship.serveClassTable : Ship s s.serveClassTable := by
  unfold State.serveClassTable
  split
  · rename_i w ws served _
    obtain ⟨files, review, got, layouts, dirty⟩ := Ship.endService s served rfl
    exact ⟨files, review, got, layouts, dirty⟩
  · exact .refl s

end

end Sys2Proof.Machine
end

section
/-! SUPPORT. Records that join the store, and admission by the revisit limit. -/

namespace Sys2Proof.Machine

section
variable {s t : State}

/-! ## Records that join the store -/

/-- What the checks of a post give: the row is OPEN, and the store has room. -/
structure State.Passed (s : State) (e : Entry) : Prop where
  takes : (s.lot e.slot).state.takesPosts = true
  slot : 1 ≤ e.waferSlot ∧ e.waferSlot ≤ 25
  opened : s.rowClosed e.wafer = false
  room : s.revisit.store.length < 1024

theorem State.passed_of_postCheck {e : Entry} (h : s.postCheck e = none) : s.Passed e := by
  unfold State.postCheck at h
  dsimp only at h
  split at h
  · cases h
  · rename_i takes
    split at h
    · cases h
    · rename_i slot
      split at h
      · cases h
      · split at h
        · cases h
        · split at h
          · cases h
          · rename_i closed
            split at h
            · cases h
            · split at h
              · cases h
              · split at h
                · cases h
                · split at h
                  · cases h
                  · split at h
                    · cases h
                    · rename_i room
                      exact ⟨Decidable.not_not.1 takes, Decidable.not_not.1 slot, Bool.eq_false_iff.2 closed, Nat.not_le.1 room⟩

theorem State.Kempt.rowOpen_of (h : s.Kempt) {e : Entry} (passed : s.Passed e) : s.rowOpen e.wafer = true := by
  have sound := h.lots e.slot
  have length : (s.report e.slot).rows.length = 25 := sound.rows (sound.takes passed.takes).1
  have opened := passed.opened
  obtain ⟨low, high⟩ := passed.slot
  obtain ⟨m, hm⟩ : ∃ m, e.waferSlot = m + 1 := ⟨e.waferSlot - 1, by omega⟩
  have row : s.row e.wafer = (s.report e.slot).rows[m]? := by
    show getAt (s.report e.slot).rows e.waferSlot = _
    rw [hm]
    rfl
  have there : m < (s.report e.slot).rows.length := by omega
  rw [State.rowClosed, row, List.getElem?_eq_getElem there] at opened
  rw [State.rowOpen, row, List.getElem?_eq_getElem there]
  dsimp only at opened ⊢
  generalize (s.report e.slot).rows[m].state = st at opened ⊢
  cases st with
  | opened => rfl
  | closed => cases opened

/-- A POSTING record may become the store record `e`. -/
structure State.Storable (s : State) (e : Entry) : Prop where
  listed : ∃ x ∈ s.revisit.posting, x.id = e.id
  room : s.revisit.store.length < 1024
  opened : s.rowOpen e.wafer = true
  limit : e.state.isAdmitted = true → (s.admittedOf e.wafer : Int) < (s.recipe e.slot).revisitLimit

theorem State.admittedOf_storeRecord (s : State) (e : Entry) (w : WaferName) : (s.storeRecord e).admittedOf w
    = s.admittedOf w + if (decide (e.wafer = w) && e.state.isAdmitted && !e.rowClosed) = true then 1 else 0 := by
  show ((s.revisit.store ++ [e]).filter _).length = _
  rw [List.filter_append, List.length_append, List.filter_singleton]
  split
  · rename_i joins
    rw [joins]
    rfl
  · rename_i off
    rw [Bool.eq_false_iff.2 off]
    rfl

theorem State.Kempt.storeRecord (h : s.Kempt) {e : Entry} (can : s.Storable e) : (s.storeRecord e).Kempt := by
  obtain ⟨x, hx, id⟩ := can.listed
  have attached : s.anchor.attach = .attached := by
    by_contra apart
    rw [(h.apart apart).1] at hx
    cases hx
  refine ⟨?_, fun y hy => h.posting y (List.mem_of_mem_filter hy), ?_, fun w some => ?_, fun k => ?_, h.lock, fun apart => absurd attached apart,
    h.unlocked⟩
  · have old : (((s.revisit.posting.filter fun y => !y.is e.slot e.index) ++ s.revisit.store).map Entry.id).Nodup :=
      h.once.sublist ((List.filter_sublist.append (List.Sublist.refl _)).map Entry.id)
    have fresh : e.id ∉ ((s.revisit.posting.filter fun y => !y.is e.slot e.index) ++ s.revisit.store).map Entry.id := by
      intro there
      obtain ⟨y, hy, same⟩ := List.mem_map.1 there
      obtain hy | hy := List.mem_append.1 hy
      · have off := (List.mem_filter.1 hy).2
        rw [Entry.is_iff.2 same] at off
        cases off
      · exact h.once.apart hx hy (id.trans same.symm)
    show (((s.revisit.posting.filter fun y => !y.is e.slot e.index) ++ (s.revisit.store ++ [e])).map Entry.id).Nodup
    rw [← List.append_assoc, List.map_append, List.map_singleton]
    exact old.append (List.nodup_singleton _) (List.disjoint_singleton.2 fresh)
  · show (s.revisit.store ++ [e]).length ≤ 1024
    rw [List.length_append]
    exact can.room
  · rw [State.admittedOf_storeRecord] at some ⊢
    show _ ≤ (s.recipe w.slot).revisitLimit
    split
    · rename_i joins
      simp only [Bool.and_eq_true, decide_eq_true_eq] at joins
      obtain ⟨⟨rfl, admitted⟩, -⟩ := joins
      have := can.limit admitted
      show _ ≤ (s.recipe e.slot).revisitLimit
      omega
    · rename_i off
      rw [if_neg off] at some
      exact h.limit w some
  · obtain ⟨starting, started, report, noTable, rows, closed, opened⟩ := h.lots k
    refine ⟨starting, started, report, noTable, rows, closed, fun y hy slot open_ => ?_⟩
    obtain hy | hy := List.mem_append.1 (show y ∈ s.revisit.store ++ [e] from hy)
    · exact opened y hy slot open_
    · rw [List.mem_singleton.1 hy]
      exact can.opened

theorem State.Reviews.storeRecord (h : s.Reviews) {e : Entry} (off : e.state ≠ .active) : (s.storeRecord e).Reviews := by
  obtain ⟨active, revisiting, timed, aligned, named⟩ := h
  refine ⟨fun x hx live => ?_, revisiting, timed, aligned, named⟩
  obtain hx | hx := List.mem_append.1 (show x ∈ s.revisit.store ++ [e] from hx)
  · exact active x hx live
  · rw [List.mem_singleton.1 hx] at live
    exact absurd live off

theorem Tidy.storeRecord (h : Tidy s t) {e : Entry} (off : e.state ≠ .active) (can : s.Kempt → t.Storable e) : Tidy s (t.storeRecord e) :=
  ⟨⟨fun kempt => (h.neat.kempt kempt).storeRecord (can kempt), h.neat.port, h.neat.attach⟩, fun core => (h.reviews core).storeRecord off⟩

theorem State.countPost_facts (s : State) (w : WaferName) (fate : Option Outcome) (k : Slot) :
    (s.countPost w fate).revisit = s.revisit ∧ (s.countPost w fate).recipe k = s.recipe k := by
  have same := s.countPost_unreported w fate
  exact ⟨(congrArg State.revisit same :), (congrArg (fun x : State => x.recipe k) same :)⟩

theorem State.rowOpen_countPost {w : WaferName} (h : s.rowOpen w = true) (fate : Option Outcome) : (s.countPost w fate).rowOpen w = true := by
  unfold State.rowOpen at h
  split at h
  · rename_i r hr
    rw [State.rowOpen_iff (State.countPost_row hr (of_decide_eq_true h) fate)]
    exact h
  · cases h

/-- The count of a post at its row leaves what the store needs of it. -/
theorem State.Storable.countPost {e : Entry} (can : s.Storable e) (fate : Option Outcome) : (s.countPost e.wafer fate).Storable e := by
  obtain ⟨revisit, recipe⟩ := s.countPost_facts e.wafer fate e.slot
  refine ⟨by rw [revisit]; exact can.listed, by rw [revisit]; exact can.room, State.rowOpen_countPost can.opened fate, fun admitted => ?_⟩
  rw [recipe, State.admittedOf, revisit]
  exact can.limit admitted

/-! ## Admission (R131) -/

theorem countP_lt {α : Type} {p q : α → Bool} {l : List α} (le : ∀ x ∈ l, q x = true → p x = true) {d : α} (mem : d ∈ l)
    (there : p d = true) (gone : q d = false) : l.countP q < l.countP p := by
  obtain ⟨a, b, rfl⟩ := List.append_of_mem mem
  have left := List.countP_mono_left fun x hx => le x (List.mem_append_left _ hx)
  have right := List.countP_mono_left fun x hx => le x (List.mem_append_right _ (List.mem_cons_of_mem _ hx))
  rw [List.countP_append, List.countP_append, List.countP_cons_of_pos there, List.countP_cons_of_neg (by rw [gone]; nofun)]
  omega

/-- An entry displaced is admitted no longer. -/
theorem State.admittedOf_finishEntry {d : Entry} {w : WaferName} (queued : d ∈ s.queuedOf w) (why : EntryReason) :
    (s.finishEntry d .notSampled why).admittedOf w < s.admittedOf w := by
  obtain ⟨mem, wafer, state, opened⟩ := State.mem_queuedOf.1 queued
  rw [State.admittedOf, State.admittedOf, State.finishEntry_store, ← List.countP_eq_length_filter, ← List.countP_eq_length_filter,
    List.countP_map]
  refine countP_lt (d := d) (fun x _ there => ?_) mem ?_ ?_
  · rw [Function.comp_apply] at there
    split at there
    · simp [EntryState.isAdmitted] at there
    · exact there
  · rw [state, opened, decide_eq_true wafer]
    rfl
  · rw [Function.comp_apply, if_pos (Entry.is_iff.2 rfl)]
    simp [EntryState.isAdmitted]

/-- The end of a store record leaves what the store needs of a post at its checks. -/
theorem State.Kempt.finishEntry_passed (h : s.Kempt) {d : Entry} (mem : d ∈ s.revisit.store) (st : EntryState) (why : EntryReason) :
    (s.finishEntry d st why).revisit.posting = s.revisit.posting
    ∧ (s.finishEntry d st why).revisit.store.length = s.revisit.store.length
    ∧ (∀ w, (s.finishEntry d st why).rowOpen w = s.rowOpen w) ∧ ∀ k, (s.finishEntry d st why).recipe k = s.recipe k := by
  refine ⟨?_, by rw [State.finishEntry_store, List.length_map], fun w => ?_, fun k => ?_⟩
  · have listed : (s.finishEntry d st why).revisit.posting
        = s.revisit.posting.map fun x => if x.is d.slot d.index then { x with state := st, reason := why } else x := by
      unfold State.finishEntry
      split <;> rfl
    rw [listed]
    refine (List.map_congr_left fun x hx => if_neg fun is => ?_).trans (List.map_id _)
    exact h.once.apart hx mem (Entry.is_iff.1 is)
  · have state := s.rowState_finishEntry d st why w
    unfold State.rowState at state
    unfold State.rowOpen
    cases hs : s.row w <;> cases ht : (s.finishEntry d st why).row w <;> rw [hs, ht] at state <;> simp_all
  · exact (congrArg (fun x : State => x.recipe k) (s.finishEntry_bare d st why) :)

theorem Tidy.takeIn {e : Entry} (listed : ∃ x ∈ s.revisit.posting, x.id = e.id) (passed : s.Passed e) :
    Tidy s (s.takeIn e) := by
  have open_ (kempt : s.Kempt) : s.rowOpen e.wafer = true := kempt.rowOpen_of passed
  unfold State.takeIn
  dsimp only
  split
  · rename_i below
    refine Tidy.trans (t := (s.countPost e.wafer none).storeRecord { e with state := .queued }) ?_ (.inserted _ _)
    refine (Tidy.countPost s _ _).storeRecord nofun fun kempt => ?_
    exact State.Storable.countPost (e := { e with state := .queued }) ⟨listed, passed.room, open_ kempt, fun _ => below⟩ none
  · split
    · rename_i below d displaced
      have last : d ∈ s.queuedOf e.wafer := by
        unfold State.displaced at displaced
        split at displaced
        · rename_i x last
          split at displaced
          · cases displaced
            exact List.mem_of_getLast? last
          · cases displaced
        · cases displaced
      obtain ⟨mem, wafer, state, -⟩ := State.mem_queuedOf.1 last
      have ended : Tidy s (s.finishEntry d .notSampled .displaced) := .finishEntry mem _ nofun nofun
      refine Tidy.trans (t := ((s.finishEntry d .notSampled .displaced).countPost e.wafer none).storeRecord { e with state := .queued })
        ?_ (.inserted _ _)
      refine (ended.trans (.countPost _ _ _)).storeRecord nofun fun kempt => ?_
      obtain ⟨posting, length, rows, recipes⟩ := kempt.finishEntry_passed mem .notSampled .displaced
      refine State.Storable.countPost (e := { e with state := .queued }) ⟨?_, ?_, ?_, fun _ => ?_⟩ none
      · rw [posting]
        exact listed
      · rw [length]
        exact passed.room
      · exact (rows _).trans (open_ kempt)
      · have fewer := State.admittedOf_finishEntry last .displaced
        have limit := kempt.limit e.wafer (by omega)
        have recipe := recipes e.slot
        show ((s.finishEntry d .notSampled .displaced).admittedOf e.wafer : Int) < _
        rw [recipe]
        show _ < (s.recipe e.wafer.slot).revisitLimit
        omega
    · refine (Tidy.countPost s _ _).storeRecord nofun fun kempt => ?_
      exact State.Storable.countPost (e := { e with state := .notSampled, reason := .limit })
        ⟨listed, passed.room, open_ kempt, nofun⟩ (some .notSampled)

end

end Sys2Proof.Machine
end

section
/-! SUPPORT. Posts checked, listed and filled. -/

namespace Sys2Proof.Machine

section
variable {s : State}

/-! ## Posts checked, listed and filled -/

theorem State.Hale.leavePosting (h : s.Hale) (k : Slot) (i : Nat) : (s.leavePosting k i).Hale := (Tidy.leavePosting s k i).hale h

theorem State.Hale.refusePost (h : s.Hale) (e : Entry) (why : EntryReason) : (s.refusePost e why).Hale := by
  have direct : ∀ x : Entry, (s.refusedDirect x).Hale := fun x =>
    (Ship.enterDirect _).hale ((Ship.addDirect _ _).hale (h.leavePosting _ _))
  have counted (t : State) : Tidy t (t.countRefused e why) := by
    unfold State.countRefused
    split
    · exact .countUnattributed t _
    · exact .countPost t _ _
  rw [State.refusePost_eq]
  exact (counted _).hale (direct _)

theorem State.Hale.checkPost (h : s.Hale) {e : Entry} (listed : ∃ x ∈ s.revisit.posting, x.id = e.id) : (s.checkPost e).Hale := by
  unfold State.checkPost
  split
  · exact h.refusePost e _
  · rename_i passed
    obtain ⟨takes, slot, opened, room⟩ := State.passed_of_postCheck passed
    exact (Tidy.takeIn (e := s.placed e) listed ⟨takes, slot, opened, room⟩).hale h

theorem State.Hale.checkIfFilled (h : s.Hale) (k : Slot) (i : Nat) : (s.checkIfFilled k i).Hale := by
  unfold State.checkIfFilled
  split
  · rename_i e found
    split
    · exact h.checkPost ⟨e, List.mem_of_find?_eq_some found, rfl⟩
    · exact h
  · exact h

/-- The records of the posting list changed, their names and state kept. -/
theorem State.Hale.listed (h : s.Hale) {f : Entry → Entry} (hf : ∀ x, (f x).id = x.id ∧ (f x).state = x.state) :
    (s.setRevisit { s.revisit with posting := s.revisit.posting.map f }).Hale := by
  have changed (kempt : s.Kempt) : Rewrites s (s.setRevisit { s.revisit with posting := s.revisit.posting.map f }) := by
    refine ⟨rfl, ?_, fun e he => ?_, le_rfl, fun _ => le_rfl, fun e he open_ => ⟨e, he, open_, rfl⟩, fun none => ?_⟩
    · show ((s.revisit.posting.map f ++ s.revisit.store).map Entry.id).Nodup
      rw [List.map_append, List.map_map, show Entry.id ∘ f = Entry.id from funext fun x => (hf x).1, ← List.map_append]
      exact kempt.once
    · obtain ⟨x, hx, rfl⟩ := List.mem_map.1 he
      exact (hf x).2.trans (kempt.posting x hx)
    · show s.revisit.posting.map f = [] ∧ _
      rw [none.1]
      exact ⟨rfl, none.2⟩
  have tidy : Tidy s (s.setRevisit { s.revisit with posting := s.revisit.posting.map f }) :=
    ⟨⟨fun kempt => kempt.rewrites (changed kempt), rfl, rfl⟩, fun core => core.reviews.same rfl⟩
  exact tidy.hale h

theorem State.Hale.fillWord (h : s.Hale) (k : Slot) (i w : Nat) (v : Word) : (s.fillWord k i w v).Hale := by
  refine State.Hale.checkIfFilled (h.listed fun x => ?_) k i
  split
  · exact ⟨rfl, rfl⟩
  · exact ⟨rfl, rfl⟩

theorem State.Hale.serveFill (h : s.Hale) : s.serveFill.Hale := by
  unfold State.serveFill
  split
  · rename_i served _
    exact (Tidy.settle _).hale (((Ship.endService s served rfl).hale h).fillWord _ _ _ _)
  · exact h

/-- No record of the entry is held. -/
def State.NoRecord (s : State) (k : Slot) (i : Nat) : Prop := ∀ x ∈ s.revisit.posting ++ s.revisit.store, x.id ≠ .defectEntry k i

theorem State.dropRecord_lists (s : State) (e : Entry) : (s.dropRecord e).revisit.posting = s.revisit.posting
    ∧ (s.dropRecord e).revisit.store = s.revisit.store.filter fun x => !x.is e.slot e.index := by
  unfold State.dropRecord
  dsimp only
  split
  · split
    · exact ⟨rfl, rfl⟩
    · exact ⟨rfl, rfl⟩
  · exact ⟨rfl, rfl⟩

theorem State.Kempt.dropEarlier_none (h : s.Kempt) {k : Slot} {i : Nat} (off : s.entryLive k i = false) : (s.dropEarlier k i).NoRecord k i := by
  have unlisted : ∀ x ∈ s.revisit.posting, x.id ≠ .defectEntry k i := by
    intro x hx same
    obtain ⟨e, he⟩ : ∃ e, (s.revisit.posting.find? fun e => e.is k i) = some e :=
      Option.isSome_iff_exists.1 (List.find?_isSome.2 ⟨x, hx, Entry.is_iff.2 same⟩)
    have state := h.posting e (List.mem_of_find?_eq_some he)
    rw [State.entryLive, State.entry, he] at off
    dsimp only [Option.or] at off
    rw [state] at off
    cases off
  unfold State.dropEarlier
  split
  · rename_i e found
    have is := List.find?_some found
    obtain ⟨posting, store⟩ := s.dropRecord_lists e
    intro x hx
    obtain hx | hx := List.mem_append.1 (show x ∈ (s.dropRecord e).revisit.posting ++ (s.dropRecord e).revisit.store from hx)
    · exact unlisted x (posting ▸ hx)
    · rw [store] at hx
      intro same
      have gone := (List.mem_filter.1 hx).2
      rw [Entry.is_iff.2 (same.trans (Entry.is_iff.1 is).symm)] at gone
      cases gone
  · rename_i none
    intro x hx
    obtain hx | hx := List.mem_append.1 (show x ∈ s.revisit.posting ++ s.revisit.store from hx)
    · exact unlisted x hx
    · exact fun same => List.find?_eq_none.1 none x hx (Entry.is_iff.2 same)

theorem State.Hale.listPost (h : s.Hale) (attached : s.anchor.attach = .attached) {k : Slot} {i : Nat} (none : s.NoRecord k i) (v : Word) :
    (s.listPost k i v).Hale := by
  have fresh : (Entry.fresh k i (s.handedWords k i) (s.nextSequence k)).id = .defectEntry k i := rfl
  have listed : (s.listPost k i v).revisit.posting = s.revisit.posting ++ [Entry.fresh k i (s.handedWords k i) (s.nextSequence k)] := rfl
  obtain ⟨once, posting, room, limit, lots, lock, apart, unlocked⟩ := h.core.kempt
  refine ⟨⟨⟨?_, fun e he => ?_, room, limit, fun k => ?_, lock, fun off => absurd attached off, unlocked⟩, h.core.reviews.same rfl⟩,
    h.port.layout, h.port.reading, h.port.dirty⟩
  · show (((s.revisit.posting ++ [Entry.fresh k i (s.handedWords k i) (s.nextSequence k)]) ++ s.revisit.store).map Entry.id).Nodup
    rw [List.append_assoc, List.singleton_append]
    refine ((List.perm_middle.map Entry.id).nodup_iff).2 ?_
    rw [List.map_cons, List.nodup_cons]
    refine ⟨fun there => ?_, once⟩
    obtain ⟨x, hx, same⟩ := List.mem_map.1 there
    exact none x hx (same.trans fresh)
  · rw [listed] at he
    obtain he | he := List.mem_append.1 he
    · exact posting e he
    · rw [List.mem_singleton.1 he]
      rfl
  · exact (lots k).files rfl rfl rfl

theorem State.Hale.takePost (h : s.Hale) (attached : s.anchor.attach = .attached) {k : Slot} {i : Nat} (off : s.entryLive k i = false) (v : Word) :
    (s.takePost k i v).Hale := by
  have dropped := Tidy.dropEarlier s k i
  have listed : ((s.dropEarlier k i).listPost k i v).Hale :=
    (dropped.hale h).listPost (dropped.neat.attach.trans attached) (h.core.kempt.dropEarlier_none off) v
  unfold State.takePost
  dsimp only
  split
  · exact listed.checkIfFilled k i
  · refine (Ship.askAll _ fun q hq => ?_).hale ((Ship.same (t := State.countCaptureMiss _)).hale listed)
    obtain ⟨w, -, rfl⟩ := List.mem_map.1 hq
    rfl

end

end Sys2Proof.Machine
end

section
/-! SUPPORT. Lots that begin: the start fetch, the table and the report. -/

namespace Sys2Proof.Machine

section
variable {s t : State} {k : Slot}

/-! ## Slots without a started report, and lots that begin (R3, R7, R16) -/

/-- A slot whose report is NONE or RELEASED has no record of an open row. -/
theorem State.LotSound.unopened (h : s.LotSound k) (none : (s.report k).state = .none ∨ (s.report k).state = .released) :
    ∀ e ∈ s.revisit.store, e.slot = k → e.rowClosed = true := by
  intro e he slot
  by_contra open_
  have row := h.opened e he slot (Bool.eq_false_iff.2 open_)
  have rows := (h.noTable none).2
  rw [State.rowOpen, State.row, show e.wafer.slot = k from slot, rows] at row
  cases hn : e.wafer.n <;> rw [hn] at row <;> cases row

theorem State.admittedOf_none (h : ∀ e ∈ s.revisit.store, e.slot = k → e.rowClosed = true) (n : Nat) : s.admittedOf ⟨k, n⟩ = 0 := by
  rw [State.admittedOf, List.length_eq_zero_iff]
  refine List.filter_eq_nil_iff.2 fun e he there => ?_
  simp only [Bool.and_eq_true, decide_eq_true_eq] at there
  obtain ⟨⟨wafer, -⟩, open_⟩ := there
  rw [h e he (congrArg WaferName.slot wafer)] at open_
  cases open_

/-- The slot's lot changed; its report is NONE or RELEASED and stays as it is. -/
structure LotChange (s t : State) (k : Slot) : Prop where
  revisit : t.revisit.posting = s.revisit.posting ∧ t.revisit.store = s.revisit.store
  attach : t.anchor.attach = s.anchor.attach
  lot : ∀ j, j ≠ k → (t.lot j).file = (s.lot j).file
  report : ∀ j, (t.report j).file = (s.report j).file
  lock : t.path.closedLock = s.path.closedLock

theorem LotChange.slotChange (h : LotChange s t k) : SlotChange s t k :=
  ⟨h.revisit, h.attach, h.lot, fun j _ => h.report j, fun j _ => by rw [h.lock]⟩

theorem LotChange.reportState (h : LotChange s t k) (j : Slot) : (t.report j).state = (s.report j).state := congrArg ReportFile.state (h.report j)

/-- A lot of a slot without a table changes its state, its fetch or its recipe. -/
theorem State.Kempt.lotChange (h : s.Kempt) (c : LotChange s t k) (none : (s.report k).state = .none ∨ (s.report k).state = .released)
    (bare : (t.lot k).wafers = []) (takes : (t.lot k).state.takesPosts = false) (starting : (t.lot k).state = .starting → (t.lot k).fetch.isSome)
    (fits : (t.lot k).state.reportFits (t.lot k).fetch.isSome (s.report k).state = true)
    (attached : s.anchor.attach = .attached ∨ (t.lot k).state = .empty) : t.Kempt := by
  have unopened := (h.lots k).unopened none
  have rows : (t.report k).rows = [] := by
    have rows := congrArg ReportFile.rows (c.report k)
    rw [Report.file, Report.file, ((h.lots k).noTable none).2, List.map_nil] at rows
    exact List.map_eq_nil_iff.1 rows
  have state := c.reportState k
  refine h.slot c.slotChange ⟨starting, fun on => absurd on (by rw [takes]; nofun), by rw [state]; exact fits,
    fun _ => ⟨bare, rows⟩, fun opened => ?_, fun closed => ?_, fun e he slot open_ => ?_⟩ (fun some => ?_) (fun on => ?_) fun off => ?_
  · rw [state] at opened
    obtain none | none := none <;> exact absurd (opened.symm.trans none) nofun
  · rw [state] at closed
    obtain none | none := none <;> exact absurd (closed.symm.trans none) nofun
  · rw [c.revisit.2] at he
    exact absurd (unopened e he slot) (by rw [open_]; nofun)
  · obtain ⟨n, some⟩ := some
    rw [State.admittedOf_none unopened] at some
    cases some
  · rw [c.lock, state]
    exact h.lock on k
  · obtain attached | empty := attached
    · exact absurd attached off
    · exact ⟨empty, state.trans ((h.apart off).2.2 k).2, by rw [c.lock]⟩

/-- A lot that had no table gets its report (R161). -/
theorem State.Kempt.reportOpens (h : s.Kempt) (c : LotChange s t k) (none : (s.report k).state = .none ∨ (s.report k).state = .released)
    (begun : (t.lot k).state.takesPosts = true ∨ (t.lot k).state = .aborting) (fetch : (t.lot k).fetch = Option.none)
    (attached : s.anchor.attach = .attached) {r : Report} (opened : r.state = .opened) (rows : r.rows.length = 25) :
    (t.modReport k fun _ => r).Kempt := by
  have unopened := (h.lots k).unopened none
  have reports (j : Slot) : (t.modReport k fun _ => r).report j = if j = k then r else t.report j := t.report_modReport k j _
  have here : (t.modReport k fun _ => r).report k = r := (reports k).trans (if_pos rfl)
  refine h.slot ⟨c.revisit, c.attach, c.lot, fun j other => by rw [reports, if_neg other]; exact c.report j, fun j _ => by
      show t.path.closedLock.get j = _
      rw [c.lock]⟩
    ⟨fun starting => ?_, fun _ => fetch, ?_, fun off => ?_, fun _ => by rw [here]; exact rows, fun closed => ?_, fun e he slot open_ => ?_⟩
    (fun some => ?_) (fun on => ?_) fun off => absurd attached off
  · have starting : (t.lot k).state = .starting := starting
    rw [starting] at begun
    obtain begun | begun := begun <;> cases begun
  · show LotState.reportFits (t.lot k).state (t.lot k).fetch.isSome ((t.modReport k fun _ => r).report k).state = true
    rw [here, opened, fetch]
    obtain begun | begun := begun
    · cases there : (t.lot k).state <;> rw [there] at begun <;> first | rfl | cases begun
    · rw [begun]
      rfl
  · rw [here, opened] at off
    obtain off | off := off <;> cases off
  · rw [here, opened] at closed
    cases closed
  · rw [show (t.modReport k fun _ => r).revisit.store = s.revisit.store from c.revisit.2] at he
    exact absurd (unopened e he slot) (by rw [open_]; nofun)
  · obtain ⟨n, some⟩ := some
    rw [State.admittedOf_none unopened] at some
    cases some
  · show t.path.closedLock.get k = _
    rw [c.lock, here, opened, h.lock on k]
    obtain none | none := none <;> rw [none] <;> rfl

end

section
variable {s : State} {k : Slot}

/-- A lot changed alone, its table and its report kept. -/
theorem LotChange.modLot (s : State) (k : Slot) (f : Lot → Lot) : LotChange s (s.modLot k f) k :=
  ⟨⟨rfl, rfl⟩, rfl, fun j other => by rw [State.lot_modLot, if_neg other], fun _ => rfl, rfl⟩

theorem LotChange.files {s t u : State} (c : LotChange s t k) (same : u.files = t.files) : LotChange s u k :=
  ⟨⟨(congrArg Files.posting same :).trans c.revisit.1, (congrArg Files.store same :).trans c.revisit.2⟩,
    (congrArg Files.attach same :).trans c.attach, fun j other => (State.files_lot same j).trans (c.lot j other),
    fun j => (State.files_report same j).trans (c.report j), (congrArg Files.closedLock same :).trans c.lock⟩

theorem LotChange.modLot_again {s t : State} (c : LotChange s t k) (f : Lot → Lot) : LotChange s (t.modLot k f) k :=
  ⟨c.revisit, c.attach, fun j other => by rw [State.lot_modLot, if_neg other]; exact c.lot j other, c.report, c.lock⟩

theorem State.lot_modLot_self (s : State) (k : Slot) (f : Lot → Lot) : (s.modLot k f).lot k = f (s.lot k) := by
  rw [State.lot_modLot, if_pos rfl]

/-- The slot STARTING, before its fetch begins (R3, R121, R124). -/
def State.startBegun (s : State) (k : Slot) : State :=
  let s := s.modLot k fun l => { l with state := .starting, refusal := .none, badField := 0, ignored := 0, changed := 0 }
  (s.setRevisit { s.revisit with postSequence := s.revisit.postSequence.set k 0 }).setStartLock k true

theorem State.takeStart_begun (s : State) (k : Slot) : s.takeStart k = (s.startBegun k).beginFetch k := rfl

theorem State.startBegun_lot (s : State) (k : Slot) :
    (s.startBegun k).lot k = { s.lot k with state := .starting, refusal := .none, badField := 0, ignored := 0, changed := 0 } :=
  s.lot_modLot_self k fun l => { l with state := .starting, refusal := .none, badField := 0, ignored := 0, changed := 0 }

theorem LotChange.startBegun (s : State) (k : Slot) : LotChange s (s.startBegun k) k :=
  LotChange.files (t := s.modLot k fun l => { l with state := .starting, refusal := .none, badField := 0, ignored := 0, changed := 0 })
    (.modLot s k _) rfl

/-- A slot EMPTY has no table. -/
theorem State.LotSound.untabled (h : s.LotSound k) (fits : (s.lot k).state.reportFits (s.lot k).fetch.isSome = fun r => r == .none || r == .released) :
    (s.report k).state = .none ∨ (s.report k).state = .released := by
  have report := h.report
  rw [fits] at report
  simpa using report

theorem State.Hale.takeStart (h : s.Hale) (attached : s.anchor.attach = .attached) (empty : (s.lot k).state = .empty) :
    (s.takeStart k).Hale := by
  have sound := h.core.kempt.lots k
  have none := sound.untabled (by rw [empty]; rfl)
  have fits := sound.report
  rw [empty] at fits
  have begun (known : List (FetchItem × Word)) : ((s.startBegun k).modLot k fun l => { l with fetch := some known }).Hale := by
    have c := (LotChange.startBegun s k).modLot_again fun l => { l with fetch := some known }
    have lot := (s.startBegun k).lot_modLot_self k fun l => { l with fetch := some known }
    rw [State.startBegun_lot] at lot
    refine ⟨⟨h.core.kempt.lotChange c none ?_ ?_ ?_ ?_ (.inl attached), h.core.reviews.same rfl⟩, h.port.layout, h.port.reading, h.port.dirty⟩
    · rw [lot]
      exact (sound.noTable none).1
    · rw [lot]
      rfl
    · rw [lot]
      exact fun _ => rfl
    · rw [lot]
      exact fits
  rw [State.takeStart_begun]
  unfold State.beginFetch
  split
  · exact begun []
  · refine (Ship.askAll _ fun q hq => ?_).hale (begun _)
    obtain ⟨it, -, rfl⟩ := List.mem_map.1 hq
    rfl

/-! ## The start fetch (R3, R4, R16) -/

theorem Ship.setAt (s : State) (l : Loc) (o : Occupant) : Ship s (s.setAt l o) := .same

/-- The entries of a table that is built (R10, R22). -/
theorem Ship.buildEntries (s : State) (k : Slot) (got : List (FetchItem × Word)) : Ship s (slots25.foldl (fun (s : State) n =>
    let s := if selectedOf got n then s.setAt (.carrier k n) (.wafer ⟨k, n⟩) else s
    (s.setVersion (.waferEntry k n) (fetchedWord got (.entryVersion n) + 1)).writeWhole (.waferEntry k n)) s) := by
  refine .fold (fun s n => ?_) slots25 s
  have placed : Ship s (if selectedOf got n then s.setAt (.carrier k n) (.wafer ⟨k, n⟩) else s) := by
    split
    · exact .setAt s _ _
    · exact .refl s
  exact placed.trans ((Ship.setVersion _ _ _).trans (.writeWhole _ _))

theorem Ship.openRows (s : State) (k : Slot) (got : List (FetchItem × Word)) : Ship s (slots25.foldl (fun (s : State) n =>
    (s.setVersion (.reportRow k n) (fetchedWord got (.rowVersion n) + 1)).writeWhole (.reportRow k n)) s) :=
  .fold (fun s _ => (Ship.setVersion s _ _).trans (.writeWhole _ _)) slots25 s

theorem Ship.ported {s t : State} (h : Ship s t) (port : s.Ported) : t.Ported := by
  have attach : t.anchor.attach = s.anchor.attach := (congrArg Files.attach h.files :)
  exact ⟨by rw [h.layouts, h.got, attach]; exact port.layout, by rw [h.got, attach]; exact port.reading, h.dirty port.dirty⟩

/-- The report of a slot opened (R161). -/
theorem State.openReport_hale {b : State} {got : List (FetchItem × Word)} {aborted : Bool}
    (opened : ∀ r : Report, r.state = .opened → r.rows.length = 25 → (b.modReport k fun _ => r).Hale) : (b.openReport k got aborted).Hale := by
  unfold State.openReport
  dsimp only
  refine (Ship.openRows _ k got).hale ((Ship.writeWhole _ _).hale ((Ship.setVersion _ _ _).hale (opened _ rfl ?_)))
  rw [List.length_map]
  rfl

/-- The table and the report of a slot, built together, from a state in which only the slot's lot has changed (R7, R16, R161). -/
theorem State.Hale.builds (h : s.Hale) {t : State} (c : LotChange s t k) (review : t.reviewFile = s.reviewFile) (port : t.portFile = s.portFile)
    (none : (s.report k).state = .none ∨ (s.report k).state = .released) (begun : (t.lot k).state.takesPosts = true ∨ (t.lot k).state = .aborting)
    (fetch : (t.lot k).fetch = Option.none) (attached : s.anchor.attach = .attached) (got : List (FetchItem × Word)) (aborted : Bool) :
    ((t.buildWafers k got aborted).openReport k got aborted).Hale := by
  have built := Ship.buildEntries (t.modLot k fun l => { l with wafers := slots25.map fun n => Wafer.fresh (selectedOf got n) aborted }) k got
  have c' := (c.modLot_again fun l => { l with wafers := slots25.map fun n => Wafer.fresh (selectedOf got n) aborted }).files built.files
  have file := State.files_lot built.files k
  rw [State.lot_modLot_self] at file
  change Ship _ (t.buildWafers k got aborted) at built
  change LotChange s (t.buildWafers k got aborted) k at c'
  change ((t.buildWafers k got aborted).lot k).file = _ at file
  generalize t.buildWafers k got aborted = b at *
  have state : (b.lot k).state = (t.lot k).state := congrArg LotFile.state file
  have fetched : (b.lot k).fetch = Option.none := (congrArg LotFile.fetch file).trans fetch
  have ported : b.Ported := built.ported (h.port.same port c.attach)
  have reviews : b.Reviews := h.core.reviews.same (built.review.trans review)
  refine State.openReport_hale fun r open_ rows => ⟨⟨h.core.kempt.reportOpens c' none (by rw [state]; exact begun) fetched attached open_ rows,
    reviews.same rfl⟩, ported.layout, ported.reading, ported.dirty⟩

end

section
variable {s : State} {k : Slot}

theorem State.LotSound.fetching {h : s.LotSound k} (fetch : (s.lot k).fetch.isSome) (begun : (s.lot k).state = .starting ∨ (s.lot k).state = .aborting) :
    (s.report k).state = .none ∨ (s.report k).state = .released := by
  refine h.untabled ?_
  obtain begun | begun := begun
  · rw [begun]
    rfl
  · rw [begun, fetch]
    rfl

theorem State.Hale.fetchDone (h : s.Hale) (got : List (FetchItem × Word)) (fetch : (s.lot k).fetch.isSome) : (s.fetchDone k got).Hale := by
  have sound := h.core.kempt.lots k
  unfold State.fetchDone
  split
  · rename_i starting
    have none := State.LotSound.fetching (h := sound) fetch (.inl starting)
    have attached := h.core.kempt.attached (k := k) (.inr (by rw [starting]; nofun))
    have fits := sound.report
    rw [starting] at fits
    split
    · rename_i code field _
      have lot := s.lot_modLot_self k fun l => { l with state := .empty, refusal := code, badField := field, fetch := Option.none }
      have c := LotChange.files (u := s.refuseStart k code field)
        (.modLot s k fun l => { l with state := .empty, refusal := code, badField := field, fetch := Option.none }) rfl
      have lot : (s.refuseStart k code field).lot k = _ := lot
      refine ⟨⟨h.core.kempt.lotChange c none ?_ ?_ ?_ ?_ (.inl attached), h.core.reviews.same rfl⟩, h.port.layout, h.port.reading, h.port.dirty⟩
      · rw [lot]
        exact (sound.noTable none).1
      · rw [lot]
        rfl
      · rw [lot]
        nofun
      · rw [lot]
        exact fits
    · unfold State.startLot
      dsimp only
      have begun (first : LotState) (takes : first.takesPosts = true) :
          ((((s.modLot k fun l => { l with state := first, fetch := Option.none, recipe := some (recipeOf got) }).buildWafers k got false).openReport
            k got false).setMapRequest k true).Hale := by
        have lot := s.lot_modLot_self k fun l => { l with state := first, fetch := Option.none, recipe := some (recipeOf got) }
        exact (Tidy.setMapRequest _ _ _).hale (h.builds (.modLot s k _) rfl rfl none (.inl (by rw [lot]; exact takes)) (by rw [lot]) attached got false)
      split
      · exact begun .queued rfl
      · exact begun .running rfl
  · rename_i aborting
    have none := State.LotSound.fetching (h := sound) fetch (.inr aborting)
    have attached := h.core.kempt.attached (k := k) (.inr (by rw [aborting]; nofun))
    have lot := s.lot_modLot_self k fun l => { l with fetch := Option.none, recipe := some (recipeOf got) }
    unfold State.buildAborted
    have c := LotChange.modLot s k fun l => { l with fetch := Option.none, recipe := some (recipeOf got) }
    have review : (s.modLot k fun l => { l with fetch := Option.none, recipe := some (recipeOf got) }).reviewFile = s.reviewFile := rfl
    have port : (s.modLot k fun l => { l with fetch := Option.none, recipe := some (recipeOf got) }).portFile = s.portFile := rfl
    generalize (s.modLot k fun l => { l with fetch := Option.none, recipe := some (recipeOf got) }) = t at *
    exact h.builds c review port none (.inr (by rw [lot]; exact aborting)) (by rw [lot]) attached got true
  · exact h

/-- The words of a fetch under way change nothing of the invariant. -/
theorem State.Kempt.fetches (h : s.Kempt) {old : List (FetchItem × Word)} (fetch : (s.lot k).fetch = some old) (got : List (FetchItem × Word)) :
    (s.modLot k fun l => { l with fetch := some got }).Kempt := by
  have lot := s.lot_modLot_self k fun l => { l with fetch := some got }
  obtain ⟨starting, started, report, noTable, rows, closed, opened⟩ := h.lots k
  have c := LotChange.modLot s k fun l => { l with fetch := some got }
  rw [fetch] at report
  refine h.slot c.slotChange ⟨fun _ => by rw [lot]; rfl, fun takes => ?_, ?_, ?_, rows, closed, opened⟩
    (fun _ => by rw [State.recipe, lot]; rfl) (fun on => h.lock on k) fun off => ?_
  · rw [lot] at takes
    rw [started takes] at fetch
    cases fetch
  · rw [lot]
    exact report
  · rw [lot]
    exact noTable
  · rw [lot]
    exact ⟨((h.apart off).2.2 k).1, ((h.apart off).2.2 k).2, rfl⟩

theorem State.Hale.serveStartFetch (h : s.Hale) : s.serveStartFetch.Hale := by
  unfold State.serveStartFetch
  split
  · rename_i k it ws served _
    have ended := (Ship.endService s served rfl).hale h
    split
    · rename_i old fetch
      have gets (got : List (FetchItem × Word)) : (s.endService.modLot k fun l => { l with fetch := some got }).Hale :=
        ⟨⟨ended.core.kempt.fetches (k := k) fetch got, ended.core.reviews.same rfl⟩, ended.port.layout, ended.port.reading, ended.port.dirty⟩
      dsimp only
      split
      · exact (Tidy.settle _).hale ((gets _).fetchDone _ (by rw [State.lot_modLot_self]; rfl))
      · exact gets _
    · exact ended
  · exact h

end

end Sys2Proof.Machine
end

section
/-! SUPPORT. Releases. -/

namespace Sys2Proof.Machine

/-! ## Release (R18, R172) -/

section
variable {s t u : State}

theorem Rewrites.same (once : s.Once) (listed : ∀ e ∈ s.revisit.posting, e.state = .posting) (files : t.files = s.files) : Rewrites s t := by
  have posting : t.revisit.posting = s.revisit.posting := (congrArg Files.posting files :)
  have store : t.revisit.store = s.revisit.store := (congrArg Files.store files :)
  exact ⟨congrArg Files.bare files, by rw [State.Once, posting, store]; exact once, by rw [posting]; exact listed, by rw [store],
    fun w => by rw [State.admittedOf, store]; rfl, fun e he open_ => ⟨e, store ▸ he, open_, rfl⟩,
    fun none => ⟨posting.trans none.1, store.trans none.2⟩⟩

theorem Rewrites.trans (h : Rewrites s t) (g : Rewrites t u) : Rewrites s u := by
  refine ⟨g.bare.trans h.bare, g.once, g.posting, g.fewer.trans h.fewer, fun w => (g.limit w).trans (h.limit w), fun e he open_ => ?_,
    fun none => g.apart (h.apart none)⟩
  obtain ⟨x, hx, stays, wafer⟩ := g.opened e he open_
  obtain ⟨y, hy, stood, was⟩ := h.opened x hx stays
  exact ⟨y, hy, stood, was.trans wafer⟩

/-- The stage wafer's leaving ends entries' records and changes no others. -/
theorem Rewrites.stageLeft (once : s.Once) (listed : ∀ e ∈ s.revisit.posting, e.state = .posting) (w : WaferName) : Rewrites s (s.stageLeft w) := by
  have aligned : ((s.alignLeaves w).focusLeaves).files = s.files := by
    have focus (t : State) : t.focusLeaves.files = t.files := (congrArg State.files (State.withdrawFocus_rest t) :)
    rw [focus]
    unfold State.alignLeaves
    split
    · rfl
    · rfl
  have before := Rewrites.same once listed aligned
  refine before.trans ?_
  show Rewrites _ (((s.alignLeaves w).focusLeaves).reviewLeaves w)
  generalize (s.alignLeaves w).focusLeaves = t at before
  unfold State.reviewLeaves
  split
  · have bare : (t.endActiveEntry .waferUnavailable).files.bare = t.files.bare :=
      Files.bare_of_work (.endActiveEntry t _) (quiet_endActiveEntry (.refl t) _) (Told.endActiveEntry t _).lots
    have ended := Rewrites.work before.once before.posting (.endActiveEntry t .waferUnavailable) bare
    exact ended.trans (.same ended.once ended.posting rfl)
  · exact .same before.once before.posting rfl

theorem Ship.raise (s : State) (k : NoticeKind) : Ship s (s.raise k) := by
  obtain ⟨files, port⟩ := s.raise_files k
  exact .same files (s.raise_reviewFile k) (congrArg PortFile.layoutGot port :) (congrArg PortFile.mport port :)
    (congrArg (fun x : PortFile => x.wb.dirty) port :)

theorem Ship.halt (s : State) : Ship s s.halt := by
  unfold State.halt
  split
  · exact Ship.trans (t := s.setHandling _) .same (.raise _ _)
  · exact Ship.trans (t := s.setHandling _) .same (.raise _ _)
  · exact Ship.trans (t := s.setHandling _) .same (.raise _ _)
  · exact .same
  · exact .refl s
  · exact .refl s

theorem Ship.forgetAt (s : State) (k : Slot) (l : Loc) : Ship s (s.forgetAt k l) := by
  unfold State.forgetAt
  split
  · exact .setAt s l _
  · exact .refl s

/-- A release's places: all but the stage wafer's leaving. -/
theorem Ship.releasePlaces (s : State) (k : Slot) :
    ∃ t, Ship s t ∧ (s.releasePlaces k = t ∨ ∃ w, s.releasePlaces k = t.stageLeft w) := by
  have slots : Ship s (slots25.foldl (fun (s : State) n =>
      if (s.at (.carrier k n)).ofSlot k then s.setAt (.carrier k n) .empty else s) s) := by
    refine .fold (fun s n => ?_) slots25 s
    split
    · exact .setAt s _ _
    · exact .refl s
  have halted (t : State) (b : Bool) : Ship t (if b then t.halt else t) := by
    split
    · exact .halt t
    · exact .refl t
  have places := (((slots.trans (.forgetAt _ k .ua)).trans (.forgetAt _ k .la)).trans (.forgetAt _ k .pa)).trans (.forgetAt _ k .st)
  have all := places.trans (halted _ (s.handling.table.putBack && (s.at .ua).ofSlot k))
  refine ⟨_, all, ?_⟩
  unfold State.releasePlaces
  dsimp only
  split
  · split
    · exact .inr ⟨_, rfl⟩
    · exact .inl rfl
  · exact .inl rfl

end

section
variable {s : State} {k : Slot}

theorem State.Ported.stageLeft (h : s.Ported) (w : WaferName) : (s.stageLeft w).Ported :=
  h.same (Tidy.stageLeft s w).neat.port (Tidy.stageLeft s w).neat.attach

/-- The bins of a released slot's records cleared. -/
theorem Rewrites.clearBins (h : s.Kempt) (k : Slot) : Rewrites s (s.setRevisit { s.revisit with
    store := s.revisit.store.map fun e => if e.slot = k then { e with bin := none } else e }) := by
  have same (e : Entry) : (if e.slot = k then { e with bin := none } else e).id = e.id
      ∧ (if e.slot = k then { e with bin := none } else e).wafer = e.wafer
      ∧ (if e.slot = k then { e with bin := none } else e).rowClosed = e.rowClosed
      ∧ (if e.slot = k then { e with bin := none } else e).state = e.state := by
    split
    · exact ⟨rfl, rfl, rfl, rfl⟩
    · exact ⟨rfl, rfl, rfl, rfl⟩
  refine ⟨rfl, ?_, h.posting, (List.length_map _).le, fun w => admitted_map_le w fun x _ there => ?_, fun e he open_ => ?_, fun none => ?_⟩
  · show ((s.revisit.posting ++ s.revisit.store.map _).map Entry.id).Nodup
    rw [List.map_append, List.map_map]
    have ids := h.once
    rw [State.Once, List.map_append] at ids
    rw [show Entry.id ∘ (fun e : Entry => if e.slot = k then { e with bin := none } else e) = Entry.id from funext fun x => (same x).1]
    exact ids
  · obtain ⟨-, wafer, closed, state⟩ := same x
    rw [wafer, closed, state] at there
    exact there
  · obtain ⟨x, hx, rfl⟩ := List.mem_map.1 he
    obtain ⟨-, wafer, closed, -⟩ := same x
    exact ⟨x, hx, closed.symm.trans open_, wafer.symm⟩
  · show s.revisit.posting = [] ∧ s.revisit.store.map _ = []
    rw [none.1, none.2]
    exact ⟨rfl, rfl⟩

theorem State.Reviews.clearBins (h : s.Reviews) (k : Slot) : (s.setRevisit { s.revisit with
    store := s.revisit.store.map fun e => if e.slot = k then { e with bin := none } else e }).Reviews := by
  refine h.fewer rfl fun e he live => ?_
  obtain ⟨x, hx, rfl⟩ := List.mem_map.1 he
  refine ⟨x, hx, ?_⟩
  split at live
  · rename_i slot
    rw [if_pos slot]
    exact ⟨live, rfl⟩
  · rename_i slot
    rw [if_neg slot]
    exact ⟨live, rfl⟩

/-- The slot emptied: its report, CLOSED until then, RELEASED without rows (R18, R172). -/
theorem State.Kempt.slotEmptied {p : State} (closed : (s.report k).state = .closed) (attached : s.anchor.attach = .attached)
    (h : ({ p with reports := s.reports } : State).Kempt) (released : (p.report k).state = .released)
    (others : ∀ j, j ≠ k → (p.report j).file = (s.report j).file) (attach : p.anchor.attach = s.anchor.attach) : (p.slotEmptied k).Kempt := by
  have q := h.rewrites (.clearBins h k)
  have lots (j : Slot) : (p.slotEmptied k).lot j = if j = k then { p.lot k with state := .empty, fetch := none, recipe := none, wafers := [] }
      else p.lot j :=
    State.lot_modLot p k j fun l => { l with state := .empty, fetch := none, recipe := none, wafers := [] }
  have reports (j : Slot) : (p.slotEmptied k).report j = if j = k then { p.report k with rows := [], classLock := [] } else p.report j :=
    p.report_modReport k j fun r => { r with rows := [], classLock := [] }
  have lot := (lots k).trans (if_pos rfl)
  have report := (reports k).trans (if_pos rfl)
  have gone : ∀ e ∈ (p.slotEmptied k).revisit.store, e.slot = k → e.rowClosed = true := by
    intro e he slot
    by_contra open_
    have there := (q.lots k).opened e he slot (Bool.eq_false_iff.2 open_)
    rw [show e.wafer = ⟨k, e.wafer.n⟩ from congrArg (fun j => (⟨j, e.wafer.n⟩ : WaferName)) slot, (q.lots k).closed closed] at there
    cases there
  refine q.slot (k := k) ⟨⟨rfl, rfl⟩, rfl, fun j other => ?_, fun j other => ?_, fun j other => ?_⟩
    ⟨?_, ?_, ?_, fun _ => ⟨by rw [lot], by rw [report]⟩, ?_, ?_, fun e he slot open_ => absurd (gone e he slot) (by rw [open_]; nofun)⟩
    (fun some => ?_) (fun _ => ?_) fun off => absurd (attach.trans attached) off
  · rw [lots, if_neg other]
    rfl
  · rw [reports, if_neg other]
    exact others j other
  · show (p.path.closedLock.set k false).get j = p.path.closedLock.get j
    rw [Two.get_set, if_neg other]
  · rw [lot]
    nofun
  · rw [lot]
    nofun
  · rw [lot, report]
    show LotState.reportFits .empty _ (p.report k).state = true
    rw [released]
    rfl
  · rw [report]
    exact fun opened => absurd (released.symm.trans opened) nofun
  · rw [report]
    exact fun shut => absurd (released.symm.trans shut) nofun
  · obtain ⟨n, some⟩ := some
    have some : 0 < (p.slotEmptied k).admittedOf ⟨k, n⟩ := some
    rw [State.admittedOf_none gone] at some
    cases some
  · rw [report]
    show (p.path.closedLock.set k false).get k = decide ((p.report k).state = .closed)
    rw [Two.get_set, if_pos rfl, released]
    rfl

theorem Files.bare_report {s t : State} (h : t.files.bare = s.files.bare) (j : Slot) : (t.report j).file = (s.report j).file := by
  cases j
  · exact (congrArg (fun x : Files => x.reports.zero) h :)
  · exact (congrArg (fun x : Files => x.reports.one) h :)

theorem State.Hale.releaseLot (h : s.Hale) (ends : (s.lot k).state = .done ∨ (s.lot k).state = .aborted) : (s.releaseLot k).Hale := by
  have sound := h.core.kempt.lots k
  have attached := h.core.kempt.attached (k := k) (.inr (by obtain ends | ends := ends <;> rw [ends] <;> nofun))
  have closed : (s.report k).state = .closed := by
    have fits := sound.report
    obtain ends | ends := ends
    · rw [ends] at fits
      simpa [LotState.reportFits] using fits
    · rw [ends] at fits
      simpa [LotState.reportFits] using fits
  have dropped : Ship (s.modReport k fun r => { r with state := .released }) (s.slotDropped k) := .fold Ship.keep _ _
  have report (j : Slot) : (s.modReport k fun r => { r with state := .released }).report j
      = if j = k then { s.report k with state := .released } else s.report j := s.report_modReport k j _
  obtain ⟨t, ship, left⟩ := Ship.releasePlaces (s.slotDropped k) k
  have shipped := dropped.trans ship
  have before := Rewrites.same (s := s.modReport k fun r => { r with state := .released }) h.core.kempt.once h.core.kempt.posting shipped.files
  have reviews : t.Reviews := (h.core.reviews.same (t := s.modReport k fun r => { r with state := .released }) rfl).same shipped.review
  have ported : t.Ported := shipped.ported ⟨h.port.layout, h.port.reading, h.port.dirty⟩
  obtain ⟨rewrites, reviews, ported⟩ : Rewrites (s.modReport k fun r => { r with state := .released }) ((s.slotDropped k).releasePlaces k)
      ∧ ((s.slotDropped k).releasePlaces k).Reviews ∧ ((s.slotDropped k).releasePlaces k).Ported := by
    obtain left | ⟨w, left⟩ := left
    · rw [left]
      exact ⟨before, reviews, ported⟩
    · rw [left]
      exact ⟨before.trans (.stageLeft before.once before.posting w), reviews.stageLeft before.once w, ported.stageLeft w⟩
  have reports := Files.bare_report rewrites.bare
  rw [State.releaseLot_eq]
  generalize (s.slotDropped k).releasePlaces k = p at *
  have whole : Rewrites s ({ p with reports := s.reports } : State) :=
    ⟨congrArg (fun f : Files => { f with reports := s.files.reports }) rewrites.bare, rewrites.once, rewrites.posting, rewrites.fewer,
      rewrites.limit, rewrites.opened, rewrites.apart⟩
  have released : (p.report k).state = .released := by
    rw [show (p.report k).state = _ from congrArg ReportFile.state (reports k), Report.file, report, if_pos rfl]
  refine ⟨⟨State.Kempt.slotEmptied closed attached (h.core.kempt.rewrites whole) released (fun j other => ?_)
    (congrArg Files.attach rewrites.bare :), (reviews.clearBins k).same rfl⟩, ported.layout, ported.reading, ported.dirty⟩
  rw [reports, report, if_neg other]

end

end Sys2Proof.Machine
end

section
/-! SUPPORT. Attach and detach. -/

namespace Sys2Proof.Machine

section
variable {s t : State} {k : Slot}

/-! ## A part that holds nothing (R177) -/

/-- Nothing is held: no entry, no lot and no report. -/
structure State.Bare (s : State) : Prop where
  posting : s.revisit.posting = []
  store : s.revisit.store = []
  slots : ∀ k, (s.lot k).state = .empty ∧ (s.report k).state = .none
  lots : ∀ k, s.LotSound k
  reviews : s.Reviews
  dirty : (s.wb.dirty.map (·.id)).Nodup

theorem State.Hale.bare (h : s.Hale) (off : s.anchor.attach ≠ .attached) : s.Bare := by
  obtain ⟨posting, store, slots⟩ := h.core.kempt.apart off
  exact ⟨posting, store, slots, h.core.kempt.lots, h.core.reviews, h.port.dirty⟩

theorem State.Bare.same (h : s.Bare) (revisit : t.revisit = s.revisit := by rfl) (align : t.align = s.align := by rfl)
    (lots : t.lots = s.lots := by rfl) (reports : t.reports = s.reports := by rfl) (wb : t.wb.dirty = s.wb.dirty := by rfl) : t.Bare := by
  obtain ⟨posting, store, slots, sound, reviews, dirty⟩ := h
  refine ⟨by rw [revisit]; exact posting, by rw [revisit]; exact store, fun k => ?_, fun k => ?_, reviews.same ?_, by rw [wb]; exact dirty⟩
  · rw [State.lot, lots, State.report, reports]
    exact slots k
  · exact (sound k).files (by rw [State.lot, lots]; rfl) (by rw [State.report, reports]; rfl) (by rw [revisit])
  · rw [State.reviewFile, State.reviewFile, revisit, align]

/-- A part that holds nothing is kept whatever its attach state becomes. -/
theorem State.Bare.kempt (h : s.Bare) (locks : s.anchor.attach ≠ .detaching → s.path.closedLock = .both false) : s.Kempt := by
  obtain ⟨posting, store, slots, lots, -, -⟩ := h
  refine ⟨?_, fun e he => ?_, ?_, fun w some => ?_, lots, fun on k => ?_,
    fun _ => ⟨posting, store, slots⟩, fun off => locks (by obtain off | off := off <;> rw [off] <;> exact AttachState.noConfusion)⟩
  · rw [State.Once, posting, store]
    exact List.nodup_nil
  · rw [posting] at he
    cases he
  · rw [store]
    exact Nat.zero_le 1024
  · rw [State.admittedOf, store] at some
    cases some
  · rw [locks (by rw [on]; exact AttachState.noConfusion), (slots k).2]
    cases k <;> rfl

/-- A lot slot and a report as they are after a reset. -/
theorem State.LotSound.reset (lot : s.lot k = .reset) (none : (s.report k).state = .none) (rows : (s.report k).rows = [])
    (store : s.revisit.store = []) : s.LotSound k := by
  constructor
  · rw [lot]
    exact LotState.noConfusion
  · rw [lot]
    exact Bool.noConfusion
  · rw [lot, none]
    rfl
  · rw [lot]
    exact fun _ => ⟨rfl, rows⟩
  · rw [none]
    exact ReportState.noConfusion
  · rw [none]
    exact ReportState.noConfusion
  · rw [store]
    exact fun e he => absurd he List.not_mem_nil

/-! ## Attach (R175, R176) -/

theorem State.Ported.layouts (h : s.Ported) (off : s.anchor.attach ≠ .checking) : (s.mport.requests.filter PartRequest.isLayout).length = 0 := by
  rw [h.layout, if_neg off]

theorem State.Hale.beginAttach (h : s.Hale) (detached : s.anchor.attach = .detached) : s.beginAttach.Hale := by
  have bare : s.beginAttach.Bare := (h.bare (by rw [detached]; exact AttachState.noConfusion)).same
  refine ⟨⟨bare.kempt fun _ => h.core.kempt.unlocked (.inl detached), bare.reviews⟩, ?_, fun _ => Nat.zero_lt_succ _, bare.dirty⟩
  show ((s.mport.requests ++ (List.range layoutWords).map PartRequest.layout).filter _).length = _
  rw [List.filter_append, List.length_append, h.port.layouts (by rw [detached]; exact AttachState.noConfusion)]
  rfl

theorem State.Bare.attachFails (h : s.Bare) (locks : s.path.closedLock = .both false)
    (layouts : (s.mport.requests.filter PartRequest.isLayout).length = 0) (why : AttachReason) : (s.attachFails why).Hale := by
  have bare : ((s.setAnchor { s.anchor with attach := .detached, reason := why }).setPath
      { s.path with layoutLock := false, layoutGot := [] }).Bare := h.same
  exact (Tidy.raise _ _).hale ⟨⟨bare.kempt fun _ => locks, bare.reviews⟩, layouts, AttachState.noConfusion, bare.dirty⟩

theorem Ship.holdHeader (s : State) (k : Slot) : Ship s (s.holdHeader k) := (Ship.setVersion s _ _).trans (.writeWhole _ _)

/-- What an accepted layout sets going (R176, R44). -/
def State.takesHold (s : State) : State :=
  let s := (s.holdHeader .zero).holdHeader .one
  let s := (s.askAll ((List.range classTableWords).map .classTable)).sendInventory
  (s.setHandling { s.handling with homingDue := true }).raise .attachResult

theorem State.Hale.takesHold (h : s.Hale) : s.takesHold.Hale := by
  have asked (t : State) : Ship t (t.askAll ((List.range classTableWords).map .classTable)) := .askAll t fun q hq => by
    obtain ⟨w, -, rfl⟩ := List.mem_map.1 hq
    rfl
  have told (t : State) : Tidy t ((t.sendInventory.setHandling { t.sendInventory.handling with homingDue := true }).raise .attachResult) :=
    ((Tidy.sendInventory t).trans (.setHandling _ _)).trans (.raise _ _)
  exact (told _).hale ((asked _).hale (((Ship.holdHeader s .zero).trans (.holdHeader _ .one)).hale h))

/-- The part ATTACHED with its windows, before it takes hold of the lot headers. -/
def State.attachedTo (s : State) (ws : Windows) : State :=
  let s := s.setAnchor { s.anchor with attach := .attached, reason := .none }
  let s := s.setPath { s.path with windows := some ws, layoutGot := [] }
  { s with lots := .both .reset }

theorem State.attachSucceeds_eq (s : State) (ws : Windows) : s.attachSucceeds ws = (s.attachedTo ws).takesHold := rfl

theorem State.Bare.attachSucceeds (h : s.Bare) (locks : s.path.closedLock = .both false)
    (layouts : (s.mport.requests.filter PartRequest.isLayout).length = 0) (ws : Windows) : (s.attachSucceeds ws).Hale := by
  obtain ⟨posting, store, slots, lots, reviews, dirty⟩ := h
  have sound (k : Slot) : (s.attachedTo ws).LotSound k :=
    .reset (by cases k <;> rfl) (slots k).2 ((lots k).noTable (.inl (slots k).2)).2 store
  have bare : (s.attachedTo ws).Bare :=
    ⟨posting, store, fun k => ⟨by cases k <;> rfl, (slots k).2⟩, sound, reviews.same rfl, dirty⟩
  obtain ⟨once, listed, room, limit, -, lock, -, -⟩ := bare.kempt fun _ => locks
  rw [State.attachSucceeds_eq]
  exact State.Hale.takesHold ⟨⟨⟨once, listed, room, limit, sound, lock, fun off => absurd rfl off, fun off => by
    obtain off | off := off <;> cases off⟩, bare.reviews⟩, layouts, AttachState.noConfusion, dirty⟩

theorem State.Bare.checkLayout (h : s.Bare) (locks : s.path.closedLock = .both false)
    (layouts : (s.mport.requests.filter PartRequest.isLayout).length = 0) : s.checkLayout.Hale := by
  unfold State.checkLayout
  dsimp only
  split
  · exact h.attachFails locks layouts _
  · exact h.attachSucceeds locks layouts _

/-- A layout word returned, the layout words still asked for being the ones missing after it. -/
theorem State.Bare.layoutWord (h : s.Bare) (checking : s.anchor.attach = .checking) (locks : s.path.closedLock = .both false)
    (reading : s.path.layoutGot.length < 10) (layouts : (s.mport.requests.filter PartRequest.isLayout).length + 1 = 10 - s.path.layoutGot.length)
    (v : Word) : (s.layoutWord v).Hale := by
  have bare : (s.setPath { s.path with layoutGot := s.path.layoutGot ++ [v] }).Bare := h.same
  have length : (s.path.layoutGot ++ [v]).length = s.path.layoutGot.length + 1 := List.length_append
  unfold State.layoutWord
  dsimp only
  split
  · rename_i whole
    rw [length] at whole
    unfold layoutWords at whole
    refine bare.checkLayout locks ?_
    show (s.mport.requests.filter PartRequest.isLayout).length = 0
    omega
  · rename_i missing
    rw [length] at missing
    unfold layoutWords at missing
    refine ⟨⟨bare.kempt fun _ => locks, bare.reviews⟩, ?_, fun _ => ?_, bare.dirty⟩
    · show (s.mport.requests.filter PartRequest.isLayout).length
        = if s.anchor.attach = .checking then 10 - (s.path.layoutGot ++ [v]).length else 0
      rw [if_pos checking, length]
      omega
    · show (s.path.layoutGot ++ [v]).length < 10
      omega

theorem State.Hale.serveLayout (h : s.Hale) : s.serveLayout.Hale := by
  unfold State.serveLayout
  split
  · rename_i k served
    obtain ⟨rest, all⟩ : ∃ rest, s.mport.requests = .layout k :: rest := by
      unfold State.served at served
      split at served
      · exact List.head?_eq_some_iff.1 served
      · cases served
    have count := h.port.layout
    rw [all, List.filter_cons, if_pos (show PartRequest.isLayout (.layout k) = true from rfl), List.length_cons] at count
    have checking : s.anchor.attach = .checking := by
      by_contra off
      rw [if_neg off] at count
      cases count
    rw [if_pos checking] at count
    have bare : s.endService.Bare := (h.bare (by rw [checking]; exact AttachState.noConfusion)).same
    refine bare.layoutWord checking (h.core.kempt.unlocked (.inr checking)) (h.port.reading checking) ?_ _
    show (s.mport.requests.tail.filter _).length + 1 = 10 - s.path.layoutGot.length
    rw [all, List.tail_cons]
    exact count
  · exact h

/-! ## Detach (R177) -/

theorem State.Hale.keepForDetach (h : s.Hale) : s.keepForDetach.Hale := by
  have refused (l : List Entry) : ∀ t : State, t.Hale → (l.foldl (fun t e => t.refusePost e .lotNotActive) t).Hale := by
    induction l with
    | nil => exact fun _ h => h
    | cons e l ih => exact fun t h => ih _ (h.refusePost e _)
  exact Ship.hale (.fold Ship.keep _ _) (refused _ s h)

theorem State.detachGroup_rest (s : State) (g : MotionGroup) : (s.detachGroup g).rest = s.rest := by
  unfold State.detachGroup
  dsimp only
  split
  · rfl
  · rfl

theorem State.detachMotion_rest (s : State) : s.detachMotion.rest = s.rest :=
  (State.detachGroup_rest (s.detachGroup .xy) .z).trans (s.detachGroup_rest .xy)

theorem State.detachMotion_wb (s : State) : s.detachMotion.wb = s.wb := (congrArg State.wb s.detachMotion_rest :)

/-- Every block's detach values, and the part DETACHING (R177). -/
def State.detachValues (s : State) : State :=
  { s with
    lots := .both .reset
    reports := .both .reset
    classTable := .reset
    handling := s.handling.detach
    align := .reset
    sensor := .reset
    af := .reset
    focusMap := clearedMap
    revisit := .reset
    grab := .reset
    anchor := { s.anchor with attach := .detaching, masked := 0, captureMiss := 0, stale := 0 }
    notice := .reset
    path := { s.path with startLock := .both false, capture := [] }
    mport := s.mport.dropReads }

theorem State.beginDetach_eq (s : State) : s.beginDetach = s.keepForDetach.detachMotion.detachValues := by
  unfold State.beginDetach State.detachValues
  generalize s.keepForDetach.detachMotion = d
  rfl

theorem State.detachValues_hale (dirty : (s.wb.dirty.map (·.id)).Nodup) : s.detachValues.Hale := by
  have sound (k : Slot) : s.detachValues.LotSound k := .reset (by cases k <;> rfl) (by cases k <;> rfl) (by cases k <;> rfl) rfl
  have reviews : s.detachValues.Reviews := ⟨fun _ he => absurd he List.not_mem_nil, fun on => absurd on Bool.noConfusion,
    fun on => absurd on Bool.noConfusion, fun on => absurd on TransformState.noConfusion, rfl⟩
  have bare : s.detachValues.Bare := ⟨rfl, rfl, fun k => by cases k <;> exact ⟨rfl, rfl⟩, sound, reviews, dirty⟩
  refine ⟨⟨bare.kempt fun off => absurd rfl off, reviews⟩, ?_, AttachState.noConfusion, dirty⟩
  show ((s.mport.requests.filter PartRequest.isWrite).filter PartRequest.isLayout).length = 0
  rw [List.filter_filter]
  refine List.length_eq_zero_iff.2 (List.filter_eq_nil_iff.2 fun q _ => ?_)
  cases q <;> exact Bool.noConfusion

theorem State.Hale.beginDetach (h : s.Hale) : s.beginDetach.Hale := by
  rw [State.beginDetach_eq]
  refine State.detachValues_hale ?_
  rw [State.detachMotion_wb]
  exact h.keepForDetach.port.dirty

theorem State.Hale.detached (h : s.Hale) (detaching : s.anchor.attach = .detaching) : s.detached.Hale := by
  have bare : s.detached.Bare := (h.bare (by rw [detaching]; exact AttachState.noConfusion)).same
  exact ⟨⟨bare.kempt fun _ => rfl, bare.reviews⟩, h.port.layouts (by rw [detaching]; exact AttachState.noConfusion), AttachState.noConfusion,
    bare.dirty⟩

end

end Sys2Proof.Machine
end

section
/-! SUPPORT. The path unit and every command's own effect. -/

namespace Sys2Proof.Machine

section
variable {s t : State}

/-! ## Writes judged -/

theorem State.Hale.tidy (h : s.Hale) (g : Tidy s t) : t.Hale := g.hale h
theorem State.Hale.pass (h : s.Hale) (a : PAccess) : (s.pass a).Hale := h.tidy (.pass s a)
theorem State.Hale.mask (h : s.Hale) (a : PAccess) : (s.mask a).Hale := h.tidy (.mask s a)

theorem State.Hale.judgeAnchor (h : s.Hale) (a : PAccess) (w : Nat) : (s.judgeAnchor a w).Hale := by
  unfold State.judgeAnchor
  split
  · split
    · exact h.mask a
    · split
      · rename_i attach
        exact (h.beginAttach attach.2).pass a
      · split
        · split
          · exact (h.tidy (.refuseDetach s)).mask a
          · exact h.beginDetach.pass a
        · exact h.pass a
  · split
    · exact h.mask a
    · split
      · split
        · exact h.mask a
        · exact h.pass a
      · split
        · split
          · exact h.mask a
          · split
            · exact (h.tidy (.handlingRequest s _)).pass a
            · exact h.pass a
        · split
          · split
            · exact h.mask a
            · split
              · exact (h.tidy (.motionRequest s _)).pass a
              · exact h.pass a
          · split
            · exact h.tidy .same
            · split
              · split
                · exact h.mask a
                · exact h.tidy .same
              · split
                · exact h.mask a
                · exact h.pass a

theorem State.isAttached_iff : s.isAttached = true ↔ s.anchor.attach = .attached := by
  simp [State.isAttached]

theorem State.Hale.lotRequest (h : s.Hale) (attached : s.anchor.attach = .attached) (k : Slot) (v : Word) : (s.lotRequest k v).Hale := by
  have started : (s.startRequest k).Hale := by
    unfold State.startRequest
    split
    · rename_i empty
      exact h.takeStart attached empty
    all_goals exact h.tidy (.startBusy s k)
  have released : (s.releaseRequest k).Hale := by
    unfold State.releaseRequest
    split
    · rename_i done
      exact (h.releaseLot (.inl done)).tidy (.settle _)
    · rename_i aborted
      exact (h.releaseLot (.inr aborted)).tidy (.settle _)
    all_goals exact h.tidy (.ignoreLotRequest s k)
  unfold State.lotRequest
  split
  · exact started
  · split
    · exact h.tidy (.abortRequest s k)
    · split
      · exact released
      · exact h.tidy (.ignoreLotRequest s k)

theorem State.Hale.judgeHeader (h : s.Hale) (a : PAccess) (k : Slot) (w : Nat) : (s.judgeHeader a k w).Hale := by
  unfold State.judgeHeader
  dsimp only
  split
  · split
    · exact h.mask a
    · split
      · rename_i attached
        exact (h.lotRequest (State.isAttached_iff.1 attached) k _).pass a
      · exact h.pass a
  · split
    · split
      · exact h.mask a
      · exact h.pass a
    · split
      · exact h.mask a
      · split
        · exact h.mask a
        · exact h.pass a

theorem State.Hale.passPost (h : s.Hale) (attached : s.anchor.attach = .attached) (a : PAccess) {k : Slot} {i : Nat}
    (off : s.entryLive k i = false) (v : Word) : (s.passPost a k i v).Hale :=
  (((h.tidy (.capture s k i 6 a.data a.be)).takePost attached off v).tidy (.settle _)).pass a

theorem State.Hale.judgePost (h : s.Hale) (attached : s.anchor.attach = .attached) (a : PAccess) (k : Slot) (i : Nat) (known : Option Word) :
    (s.judgePost a k i known).Hale := by
  unfold State.judgePost
  split
  · exact (h.tidy (.countIgnored s k i)).tidy (.passCaptured _ a k i 6)
  · rename_i off
    split
    · exact h.tidy (.hold s a _)
    · split
      · exact h.passPost attached a (Bool.eq_false_iff.2 off) _
      · exact ((Ship.ask s rfl).hale h).tidy (.hold _ a _)

theorem State.Hale.judgeControl (h : s.Hale) (a : PAccess) (k : Slot) (i : Nat) (known : Option Word) : (s.judgeControl a k i known).Hale := by
  unfold State.judgeControl
  split
  · exact h.mask a
  · split
    · rename_i attached
      split
      · exact h.judgePost (State.isAttached_iff.1 attached) a k i known
      · split
        · exact (h.tidy (.withdraw s k i)).tidy (.passCaptured _ a k i 6)
        · exact h.tidy (.passCaptured s a k i 6)
    · exact h.pass a

theorem State.Hale.judgeDefect (h : s.Hale) (a : PAccess) (k : Slot) (i w : Nat) (known : Option Word) : (s.judgeDefect a k i w known).Hale := by
  unfold State.judgeDefect
  split
  · exact h.tidy (.judgeClass s a k i)
  · split
    · exact h.mask a
    · split
      · exact h.judgeControl a k i known
      · split
        · split
          · exact (h.tidy (.countChanged s k i)).tidy (.passCaptured _ a k i w)
          · exact h.pass a
        · exact h.mask a

theorem State.Hale.judge (h : s.Hale) (a : PAccess) (known : Option Word) : (s.judge a known).Hale := by
  unfold State.judge
  split
  · unfold State.judgeWrite
    split
    · exact h.pass a
    · exact h.judgeAnchor a _
    · exact h.judgeHeader a _ _
    · exact h.tidy (.judgeWaferEntry s a _ _ _)
    · exact h.judgeDefect a _ _ _ known
    · exact h.mask a
    · exact h.tidy (.judgeClassTable s a _)
  · exact h.tidy (.judgeRead s a)

theorem State.Hale.take (h : s.Hale) (a : PAccess) : (s.take a).Hale := by
  unfold State.take
  split
  · exact h.judge a none
  · exact h.tidy (.hold s a _)

theorem State.Hale.takeOfferedFor (n : Nat) : ∀ {s : State}, s.Hale → (s.takeOfferedFor n).Hale := by
  induction n with
  | zero => exact fun h => h
  | succ n ih =>
    intro s h
    unfold State.takeOfferedFor
    split
    · rename_i a rest _ _
      exact ih ((h.tidy (t := s.setPath { s.path with offered := rest }) .same).take a)
    · exact h

theorem State.Hale.takeOffered (h : s.Hale) : s.takeOffered.Hale := h.takeOfferedFor _

theorem State.Hale.present (h : s.Hale) (a : PAccess) : (s.present a).Hale := by
  unfold State.present
  split
  · exact h.take a
  · exact h.tidy .same
  · exact h.tidy .same

/-! ## The ports' service -/

theorem State.Hale.releaseHeld (h : s.Hale) : s.releaseHeld.Hale := by
  unfold State.releaseHeld
  split
  · split
    · exact ((h.tidy (.setSlot s .idle)).take _).takeOffered
    · exact h
  · exact h
  · exact h

theorem State.Hale.servePPort (h : s.Hale) : s.servePPort.Hale := by
  unfold State.servePPort
  split
  · rename_i a _ _
    have free : State.Hale { s with mport := { s.mport with serving := none } } :=
      ⟨h.core.same rfl rfl, h.port.layout, h.port.reading, h.port.dirty⟩
    refine State.Hale.takeOffered ?_
    split
    · exact (free.tidy (t := { s with mport := { s.mport with serving := none }, mem := s.mem.writeWord a.addr a.data a.be }) .same).tidy
        (.setSlot _ _)
    · exact (free.tidy .same).tidy (.setSlot _ _)
  · exact h

theorem State.Hale.servePostVersion (h : s.Hale) : s.servePostVersion.Hale := by
  unfold State.servePostVersion
  split
  · rename_i served _
    exact ((((Ship.endService s served rfl).hale h).tidy (.setSlot _ .idle)).judge _ _).takeOffered
  · exact h

theorem Tidy.carrierLoss (s : State) (p : Slot) : Tidy s (if s.carrierHere p then (s.carrierLost p).settle else s) := by
  split
  · exact (Tidy.carrierLost s p).then_settle
  · exact .refl s

theorem Tidy.carrierPresent (s : State) (p : Slot) : Tidy s (if s.carrierHere p then s else (s.carrierArrives p).settle) := by
  split
  · exact .refl s
  · exact Tidy.then_settle (t := s.carrierArrives p) .same

/-- The commands that present no write. -/
theorem State.Hale.event (h : s.Hale) (c : Instr) : (s.event c).Hale := by
  cases c with
  | attachLayoutReadDone => exact h.serveLayout
  | detachComplete =>
    dsimp only [State.event]
    split
    · rename_i detaching
      exact h.detached detaching.1
    · exact h
  | startFetchReadDone => exact h.serveStartFetch
  | heldAccessRelease => exact h.releaseHeld
  | postVersionReadDone => exact h.servePostVersion
  | fillReadDone => exact h.serveFill
  | classTableFetchReadDone => exact (Ship.serveClassTable s).hale h
  | pPortAccessServed => exact h.servePPort
  | writeQueueWordWritten => exact (Ship.serveWrite s).hale h
  | writerMove => exact (Ship.moveRecord s).hale h
  | recordWrittenBack id => exact h.tidy (.recordWrittenBack s id)
  | interlockOpen =>
    dsimp only [State.event]
    split
    · exact h
    · exact h.tidy (.opensInterlock s)
  | interlockClose =>
    dsimp only [State.event]
    split
    · exact h.tidy (.closesInterlock s)
    · exact h
  | carrierLoss p => exact h.tidy (.carrierLoss s p)
  | carrierPresent p => exact h.tidy (.carrierPresent s p)
  | pickDone tag => exact h.tidy (.robotReply s tag)
  | placeDone tag => exact h.tidy (.robotReply s tag)
  | inventoryDone tag ua la pa st => exact h.tidy (.inventoryReply s tag _)
  | prealignDone tag => exact h.tidy (.prealignReply s tag)
  | mapDone p tag results => exact h.tidy (.mapReply s p tag results)
  | handlerFault u tag code => exact h.tidy (.faultReply s u tag code)
  | handlerOrderTimeout u => exact h.tidy (.handlerTimesOut s u)
  | arrived tag => exact h.tidy (.arrivedReply s tag)
  | homed tag => exact h.tidy (.homedReply s tag)
  | motionLinkFault tag code => exact h.tidy (.motionFaultReply s tag)
  | motionOrderTimeout g => exact h.tidy (.motionTimesOut s g)
  | settleTimerExpiry g => exact h.tidy (.settleTimesOut s g)
  | markResult tag found ox oy => exact h.tidy (.markReply s tag found ox oy)
  | grabDone tag first frames => exact h.tidy (.grabDoneReply s tag first frames)
  | grabFault tag code => exact h.tidy (.grabFaultReply s tag)
  | grabTimeout => exact h.tidy (.grabTimesOut s)
  | sensorWord w mark parity => exact h.tidy (Tidy.takeWord s w mark parity).then_settle
  | silenceTimerExpiry => exact h.tidy (.silenceTimesOut s)
  | autofocusTimerExpiry => exact h.tidy (.focusTimesOut s)
  | postingWaitExpiry => exact h.tidy (.postingWaitEnds s)
  | _ => exact h

/-- Every command's own effect keeps the invariant. -/
theorem State.Hale.effect (h : s.Hale) (c : Instr) : (s.effect c).Hale := by
  unfold State.effect
  split
  · exact h.present _
  · exact h.event c

end

end Sys2Proof.Machine
end

section
/-! SUPPORT. The end of a step, and every step keeps the machine's sound form. -/

namespace Sys2Proof.Machine

/-! ## The end of a step -/

theorem addDirty_nodup {l : List DirtyRecord} (h : (l.map (·.id)).Nodup) (id : RecId) (ws : List Nat) : ((addDirty l id ws).map (·.id)).Nodup := by
  unfold addDirty
  split
  · exact h
  · split
    · have ids : (l.map fun d => if d.id = id then { d with words := mergeOffsets ws d.words } else d).map (·.id) = l.map (·.id) := by
        rw [List.map_map]
        refine List.map_congr_left fun d _ => ?_
        rw [Function.comp_apply]
        split
        · rfl
        · rfl
      rw [ids]
      exact h
    · rename_i none
      rw [List.map_append, List.map_singleton]
      refine h.append (List.nodup_singleton _) (List.disjoint_singleton.2 fun there => none ?_)
      obtain ⟨d, hd, same⟩ := List.mem_map.1 there
      exact List.any_eq_true.2 ⟨d, hd, beq_iff_eq.2 same⟩

theorem State.commitRecord_nodup (s0 : State) {s : State} (h : (s.wb.dirty.map (·.id)).Nodup) (id : RecId) :
    ((State.commitRecord s0 s id).wb.dirty.map (·.id)).Nodup := by
  unfold State.commitRecord
  split
  · exact h
  · dsimp only
    split
    · exact h.sublist (List.filter_sublist.map _)
    · exact addDirty_nodup h _ _

theorem State.finish_nodup (s0 : State) {s : State} (h : (s.wb.dirty.map (·.id)).Nodup) : ((State.finish s0 s).wb.dirty.map (·.id)).Nodup := by
  have committed (ids : List RecId) : ∀ t : State, (t.wb.dirty.map (·.id)).Nodup → ((ids.foldl (State.commitRecord s0) t).wb.dirty.map (·.id)).Nodup := by
    induction ids with
    | nil => exact fun _ h => h
    | cons id ids ih => exact fun t h => ih _ (State.commitRecord_nodup s0 h id)
  have anchor (t : State) : (State.commitAnchor s0 t).wb.dirty = t.wb.dirty := by
    unfold State.commitAnchor
    split
    · rfl
    · rfl
  rw [State.finish_wb]
  show ((State.commitAnchor s0 _).wb.dirty.map _).Nodup
  rw [anchor]
  exact committed _ _ h

theorem State.Hale.finish {s : State} (h : s.Hale) (s0 : State) : (State.finish s0 s).Hale := by
  have content := State.finish_content s0 s
  have attach : (State.finish s0 s).anchor = s.anchor := (congrArg State.anchor content :)
  have got : (State.finish s0 s).path.layoutGot = s.path.layoutGot := (congrArg (fun x : State => x.path.layoutGot) content :)
  have requests : (State.finish s0 s).mport.requests = s.mport.requests := by
    rw [State.finish_mport]
    rfl
  exact ⟨h.core.same (congrArg State.files content :) (congrArg State.reviewFile content :),
    by rw [requests, attach, got]; exact h.port.layout, by rw [attach, got]; exact h.port.reading, State.finish_nodup s0 h.port.dirty⟩

/-! ## Every step keeps the machine's sound form -/

section
variable {s t : State}

theorem State.Sound.hale (h : s.Sound) : s.Hale where
  core := ⟨⟨h.entries.once, h.entries.posting, h.bounded.store, h.entries.limit, h.lots, h.path.lock, h.path.apart, h.path.unlocked⟩,
    ⟨h.entries.active, h.entries.revisiting, h.entries.timed, h.entries.aligned, h.entries.named⟩⟩
  port := ⟨h.path.layout, h.path.reading, h.path.dirty⟩

/-- The rest of the sound form: the axes, the sizes of the lists other than the store's, the anchor's place, and memory's form. -/
structure State.Formed (s : State) : Prop where
  motion : s.motion.Sound
  posting : s.revisit.posting.length ≤ 16
  ring : s.sensor.ring.length ≤ 8
  capture : s.path.capture.length ≤ 16
  queue : s.mport.queued ≤ 32
  anchor : s.AnchorPlaced
  memory : s.mem.wf = true

theorem State.Sound.formed (h : s.Sound) : s.Formed :=
  ⟨h.motion, h.bounded.posting, h.bounded.ring, h.bounded.capture, h.bounded.queue, h.anchor, h.memory⟩

theorem State.Hale.sound (h : s.Hale) (f : s.Formed) : s.Sound where
  motion := f.motion
  bounded := ⟨f.posting, h.core.kempt.room, f.ring, f.capture, f.queue⟩
  anchor := f.anchor
  memory := f.memory
  entries := ⟨h.core.kempt.once, h.core.kempt.posting, h.core.reviews.active, h.core.kempt.limit, h.core.reviews.revisiting,
    h.core.reviews.timed, h.core.reviews.aligned, h.core.reviews.named⟩
  lots := h.core.kempt.lots
  path := ⟨h.core.kempt.lock, h.core.kempt.apart, h.core.kempt.unlocked, h.port.layout, h.port.reading, h.port.dirty⟩

theorem State.Formed.tame (f : s.Formed) (h : Tame s t) : t.Formed := by
  obtain ⟨sel, base⟩ := f.anchor
  exact ⟨h.motion f.motion, h.posting f.posting, h.ring f.ring, h.capture f.capture, h.queue f.queue, ⟨sel, h.base.trans base⟩,
    by rw [h.mem]; exact f.memory⟩

/-- Memory rewritten in its canonical form. -/
theorem State.Formed.mem (f : s.Formed) {m : Memory} (wf : m.wf = true) : State.Formed { s with mem := m } :=
  ⟨f.motion, f.posting, f.ring, f.capture, f.queue, f.anchor, wf⟩

theorem servePPort_wf (h : s.mem.wf = true) : s.servePPort.mem.wf = true := by
  unfold State.servePPort
  split
  · rename_i a _ _
    dsimp only
    generalize hu : (if a.write = true then _ else _ : State) = u
    have wf : u.mem.wf = true := by
      subst hu
      split
      · exact Memory.wf_writeWord h _ _ _
      · exact h
    rw [(tame_takeOffered (tame_setSlot (.refl u) .idle)).mem]
    exact wf
  · exact h

theorem serveWrite_wf (h : s.mem.wf = true) : s.serveWrite.mem.wf = true := by
  unfold State.serveWrite
  split
  · rename_i addr v _ _
    rw [(tame_enterDirect (.refl _)).mem]
    exact Memory.wf_writeWord h addr v 15
  · exact h

theorem State.Formed.effect (f : s.Formed) (c : Instr) : (s.effect c).Formed := by
  by_cases hp : c = .pPortAccessServed
  · subst hp
    exact (f.mem (servePPort_wf f.memory)).tame (servePPort_tame s).1
  by_cases hw : c = .writeQueueWordWritten
  · subst hw
    exact (f.mem (serveWrite_wf f.memory)).tame (serveWrite_tame s).1
  exact f.tame (tame_effect (.refl s) hp hw)

theorem State.Sound.effect_step (h : s.Sound) (c : Instr) : (State.finish s (s.begin.effect c)).Sound := by
  have begun : s.begin.Hale := ⟨h.hale.core.same rfl rfl, h.hale.port.layout, h.hale.port.reading, h.hale.port.dirty⟩
  have formed := ((h.formed.tame (tame_begin (.refl s))).effect c).tame (tame_finish (.refl _) s)
  exact ((begun.effect c).finish s).sound formed

/-- HARDWARE_RESET gives the sound form afresh, over memory as it is. -/
theorem resetWith_sound (sel : BitVec 2) (lines : CellLines) {mem : Memory} (wf : mem.wf = true) (pending : List Instr) (free : Nat) :
    (State.resetWith sel lines mem pending free).Sound := by
  have reset := resetIsSound
  refine State.Hale.sound ⟨reset.hale.core.same rfl rfl, reset.hale.port.layout, reset.hale.port.reading, reset.hale.port.dirty⟩ ?_
  exact ⟨reset.motion, Nat.zero_le 16, Nat.zero_le 8, Nat.zero_le 16, Nat.zero_le 32, ⟨sel, rfl⟩, wf⟩

/-- Settles O4: the invariant of the entries, the lots and the path through every command's own effect and the step's end, and the rest
by what every operation keeps. -/
theorem everyStepKeepsSound : Obligations.EveryStepKeepsSound := by
  intro s t h ran
  have f := h.formed
  obtain ⟨pending, rest⟩ : ∃ cs, s.pending = cs := ⟨_, rfl⟩
  cases pending with
  | nil =>
    rw [step, rest] at ran
    cases ran
    exact ((Tidy.same (t := s.tick)).hale h.hale).sound ⟨f.motion, f.posting, f.ring, f.capture, f.queue, f.anchor, f.memory⟩
  | cons c cs =>
    have popped : State.Sound { s with pending := cs } :=
      ((Tidy.same (s := s)).hale h.hale).sound ⟨f.motion, f.posting, f.ring, f.capture, f.queue, f.anchor, f.memory⟩
    rw [step, rest] at ran
    by_cases reset : ∃ sel lines, c = .hardwareReset sel lines
    · obtain ⟨sel, lines, rfl⟩ := reset
      cases ran
      exact resetWith_sound sel lines h.memory _ _
    · have ran := (exec_effect (fun sel lines e => reset ⟨sel, lines, e⟩) { s with pending := cs }).symm.trans ran
      cases ran
      exact popped.effect_step c

end

end Sys2Proof.Machine
end

section
/-! SUPPORT. The arbiter's state and the version words inside a step, and what posts do to them. -/

namespace Sys2Proof.Machine

/-! ## The arbiter's state and the version words inside a step -/

/-- An operation that leaves the arbiter and the version words as they are; reads that a detach drops may be in service. -/
structure Books (s t : State) : Prop where
  drain : t.mport.drain = s.mport.drain
  serving : s.mport.serving ≠ some .part → t.mport.serving = s.mport.serving
  versions : t.wb.versions = s.wb.versions
  versioned : t.scratch.versioned = s.scratch.versioned
  written : t.scratch.written = s.scratch.written

section
variable {s t u : State}

theorem Books.refl (s : State) : Books s s := ⟨rfl, fun _ => rfl, rfl, rfl, rfl⟩

theorem Books.trans (h : Books s t) (g : Books t u) : Books s u :=
  ⟨g.drain.trans h.drain, fun off => (g.serving (by rw [h.serving off]; exact off)).trans (h.serving off), g.versions.trans h.versions,
    g.versioned.trans h.versioned, g.written.trans h.written⟩

theorem Books.same (mport : t.mport = s.mport := by rfl) (wb : t.wb = s.wb := by rfl)
    (versioned : t.scratch.versioned = s.scratch.versioned := by rfl) (written : t.scratch.written = s.scratch.written := by rfl) : Books s t :=
  ⟨by rw [mport], fun _ => by rw [mport], by rw [wb], versioned, written⟩

theorem Books.port (h : t.portFile = s.portFile) : Books s t :=
  .same (congrArg PortFile.mport h :) (congrArg PortFile.wb h :) (congrArg PortFile.versioned h :) (congrArg PortFile.written h :)

theorem Tidy.books (h : Tidy s t) : Books s t := .port h.neat.port

theorem Books.fold {α : Type} {f : State → α → State} (h : ∀ s a, Books s (f s a)) (l : List α) : ∀ s : State, Books s (l.foldl f s) := by
  induction l with
  | nil => exact .refl
  | cons a l ih => exact fun s => (h s a).trans (ih _)

/-- A version word as it was, its record not written by the step. -/
structure Unmarked (s t : State) (id : RecId) : Prop where
  version : t.version id = s.version id
  versioned : id ∈ t.scratch.versioned ↔ id ∈ s.scratch.versioned
  written : id ∈ t.scratch.written ↔ id ∈ s.scratch.written

/-- The version word of an entry's record, one more by the step itself (R121, R182). -/
structure Entered (s t : State) (id : RecId) : Prop where
  version : t.version id = s.version id + 1
  versioned : id ∈ t.scratch.versioned
  entry : ∃ k i, id = .defectEntry k i

/-- An operation that leaves the arbiter as it is, and every version word but those of `p` as it is or, of an entry, one more. -/
structure Booked (p : RecId → Prop) (s t : State) : Prop where
  drain : t.mport.drain = s.mport.drain
  serving : s.mport.serving ≠ some .part → t.mport.serving = s.mport.serving
  marks : ∀ id, ¬ p id → Unmarked s t id ∨ Entered s t id

theorem Books.unmarked (h : Books s t) (id : RecId) : Unmarked s t id :=
  ⟨by rw [State.version, State.version, h.versions], by rw [h.versioned], by rw [h.written]⟩

theorem Books.booked (h : Books s t) : Booked (fun _ => False) s t := ⟨h.drain, h.serving, fun id _ => .inl (h.unmarked id)⟩

theorem Books.then {p : RecId → Prop} (h : Books s t) (g : Booked p t u) : Booked p s u := by
  refine ⟨g.drain.trans h.drain, fun off => (g.serving (by rw [h.serving off]; exact off)).trans (h.serving off), fun id out => ?_⟩
  obtain ⟨version, versioned, written⟩ := h.unmarked id
  obtain mark | mark := g.marks id out
  · exact .inl ⟨mark.version.trans version, mark.versioned.trans versioned, mark.written.trans written⟩
  · exact .inr ⟨by rw [mark.version, version], mark.versioned, mark.entry⟩

theorem Booked.then {p : RecId → Prop} (h : Booked p s t) (g : Books t u) : Booked p s u := by
  refine ⟨g.drain.trans h.drain, fun off => (g.serving (by rw [h.serving off]; exact off)).trans (h.serving off), fun id out => ?_⟩
  obtain ⟨version, versioned, written⟩ := g.unmarked id
  obtain mark | mark := h.marks id out
  · exact .inl ⟨version.trans mark.version, versioned.trans mark.versioned, written.trans mark.written⟩
  · exact .inr ⟨version.trans mark.version, versioned.2 mark.versioned, mark.entry⟩

theorem Booked.mono {p q : RecId → Prop} (h : Booked p s t) (le : ∀ id, p id → q id) : Booked q s t :=
  ⟨h.drain, h.serving, fun id out => h.marks id fun there => out (le id there)⟩

/-- The same with no claim about the version words. -/
theorem Booked.all (drain : t.mport.drain = s.mport.drain) (serving : s.mport.serving ≠ some .part → t.mport.serving = s.mport.serving) :
    Booked (fun _ => True) s t := ⟨drain, serving, fun _ out => absurd trivial out⟩

end

section
variable (s : State)

/-! ## The operations on the part requests and the write-back record -/

theorem Books.askAll (qs : List PartRequest) : Books s (s.askAll qs) := ⟨rfl, fun _ => rfl, rfl, rfl, rfl⟩
theorem Books.ask (q : PartRequest) : Books s (s.ask q) := ⟨rfl, fun _ => rfl, rfl, rfl, rfl⟩

theorem Books.endService {s : State} {q : PartRequest} (served : s.served = some q) : Books s s.endService := by
  refine ⟨rfl, fun off => ?_, rfl, rfl, rfl⟩
  unfold State.served at served
  split at served
  · rename_i part
    exact absurd part off
  · cases served

theorem Books.keep (id : RecId) : Books s (s.keep id) := by
  unfold State.keep
  split
  · exact ⟨rfl, fun _ => rfl, rfl, rfl, rfl⟩
  · exact .refl s

theorem Books.moveDirect (ws : Windows) (h : HeldImage) (rest : List HeldImage) : Books s (s.moveDirect ws h rest) :=
  ⟨rfl, fun _ => rfl, rfl, rfl, rfl⟩

theorem Books.enterDirect : Books s s.enterDirect := by
  have general (n : Nat) : ∀ s : State, Books s (State.enterDirectFor n s) := by
    induction n with
    | zero => exact .refl
    | succ n ih =>
      intro s
      unfold State.enterDirectFor
      split
      · split
        · exact (Books.moveDirect s _ _ _).trans (ih _)
        · exact .refl s
      · exact .refl s
  exact general _ s

theorem Books.moveRecord : Books s s.moveRecord := by
  have dirty (ws : Windows) : Books s (s.moveDirty ws) := by
    unfold State.moveDirty
    split
    · exact .refl s
    · dsimp only
      split
      · split
        · exact ⟨rfl, fun _ => rfl, rfl, rfl, rfl⟩
        · exact .refl s
      · split
        · exact ⟨rfl, fun _ => rfl, rfl, rfl, rfl⟩
        · exact .refl s
  unfold State.moveRecord
  split
  · exact .refl s
  · split
    · exact dirty _
    · split
      · exact .moveDirect s _ _ _
      · exact .refl s

theorem State.version_setVersion (s : State) (id j : RecId) (v : Word) :
    (s.setVersion id v).version j = if j = id then v else s.version j := versionIn_put _ id v j

/-- A version word set, and no other. -/
theorem Unmarked.setVersion {id j : RecId} (other : j ≠ id) (v : Word) : Unmarked s (s.setVersion id v) j :=
  ⟨by rw [State.version_setVersion, if_neg other], List.mem_cons.trans (or_iff_right other), Iff.rfl⟩

theorem Booked.addDirect (e : Entry) : Booked (fun _ => False) s (s.addDirect e) := by
  by_cases versioned : s.scratch.versioned.contains e.id = true
  · rw [State.addDirect, if_pos versioned]
    exact Books.booked ⟨rfl, fun _ => rfl, rfl, rfl, rfl⟩
  · rw [State.addDirect, if_neg versioned]
    have set : Booked (fun _ => False) s (s.setVersion e.id (s.version e.id + 1)) := by
      refine ⟨rfl, fun _ => rfl, fun id _ => ?_⟩
      by_cases here : id = e.id
      · rw [here]
        exact .inr ⟨(State.version_setVersion _ _ _ _).trans (if_pos rfl), List.mem_cons_self, _, _, rfl⟩
      · exact .inl (Unmarked.setVersion s here _)
    exact set.then ⟨rfl, fun _ => rfl, rfl, rfl, rfl⟩

theorem Books.addDirect {e : Entry} (versioned : e.id ∈ s.scratch.versioned) : Books s (s.addDirect e) := by
  rw [State.addDirect, if_pos (List.contains_iff_mem.2 versioned)]
  exact ⟨rfl, fun _ => rfl, rfl, rfl, rfl⟩

/-! ## Posts -/

theorem Books.countRefused (e : Entry) (why : EntryReason) : Books s (s.countRefused e why) := by
  unfold State.countRefused
  split
  · exact (Tidy.countUnattributed s _).books
  · exact (Tidy.countPost s _ _).books

theorem Booked.refusePost (e : Entry) (why : EntryReason) : Booked (fun _ => False) s (s.refusePost e why) := by
  rw [State.refusePost_eq]
  have direct := (Tidy.leavePosting s e.slot e.index).books.then (.addDirect _ { e with state := .refused, reason := why })
  exact (direct.then (.enterDirect _)).then (.countRefused _ e why)

theorem Books.refusePost {e : Entry} (versioned : e.id ∈ s.scratch.versioned) (why : EntryReason) : Books s (s.refusePost e why) := by
  rw [State.refusePost_eq]
  have direct := (Tidy.leavePosting s e.slot e.index).books.trans (.addDirect _ (e := { e with state := .refused, reason := why }) versioned)
  exact (direct.trans (.enterDirect _)).trans (.countRefused _ e why)

/-- A post at its checks is refused, or its version words stay as they are. -/
theorem State.checkPost_cases {s : State} {e : Entry} (listed : ∃ x ∈ s.revisit.posting, x.id = e.id) :
    (∃ why, s.checkPost e = s.refusePost e why) ∨ Books s (s.checkPost e) := by
  cases check : s.postCheck e with
  | some why => exact .inl ⟨why, State.checkPost_some check⟩
  | none =>
    obtain ⟨takes, slot, opened, room⟩ := State.passed_of_postCheck check
    rw [State.checkPost, check]
    exact .inr (Tidy.takeIn (e := s.placed e) listed ⟨takes, slot, opened, room⟩).books

theorem Booked.checkIfFilled (k : Slot) (i : Nat) : Booked (fun _ => False) s (s.checkIfFilled k i) := by
  unfold State.checkIfFilled
  split
  · rename_i e found
    split
    · obtain ⟨why, refused⟩ | kept := State.checkPost_cases (s := s) (e := e) ⟨e, List.mem_of_find?_eq_some found, rfl⟩
      · rw [refused]
        exact .refusePost s e why
      · exact kept.booked
    · exact (Books.refl s).booked
  · exact (Books.refl s).booked

theorem Books.checkIfFilled {k : Slot} {i : Nat} (versioned : .defectEntry k i ∈ s.scratch.versioned) : Books s (s.checkIfFilled k i) := by
  unfold State.checkIfFilled
  split
  · rename_i e found
    split
    · obtain ⟨why, refused⟩ | kept := State.checkPost_cases (s := s) (e := e) ⟨e, List.mem_of_find?_eq_some found, rfl⟩
      · rw [refused]
        exact .refusePost s (by
          have is : e.is k i = true := List.find?_some (p := fun e : Entry => e.is k i) found
          rw [Entry.is_iff.1 is]
          exact versioned) why
      · exact kept
    · exact .refl s
  · exact .refl s

theorem Booked.fillWord (k : Slot) (i w : Nat) (v : Word) : Booked (fun _ => False) s (s.fillWord k i w v) :=
  Books.then (t := s.setRevisit { s.revisit with
    posting := s.revisit.posting.map fun e => if e.is k i then { e with host := e.host.set w (some v) } else e }) .same (.checkIfFilled _ k i)

/-- A post listed with the version `v`. -/
theorem State.takePost_marks (k : Slot) (i : Nat) (v : Word) : (s.takePost k i v).mport.drain = s.mport.drain
    ∧ (s.mport.serving ≠ some .part → (s.takePost k i v).mport.serving = s.mport.serving)
    ∧ (∀ id, id ≠ .defectEntry k i → Unmarked s (s.takePost k i v) id)
    ∧ (s.takePost k i v).version (.defectEntry k i) = v ∧ .defectEntry k i ∈ (s.takePost k i v).scratch.versioned := by
  have dropped := (Tidy.dropEarlier s k i).books
  have listed (id : RecId) : ((s.dropEarlier k i).listPost k i v).version id
      = if id = .defectEntry k i then v else (s.dropEarlier k i).version id := State.version_setVersion _ _ _ _
  have joined : Books ((s.dropEarlier k i).listPost k i v) (s.takePost k i v) := by
    unfold State.takePost
    dsimp only
    split
    · exact .checkIfFilled _ List.mem_cons_self
    · exact Books.trans (t := State.countCaptureMiss _) .same (.askAll _ _)
  obtain ⟨drain, serving, versions, versioned, written⟩ := joined
  have version (id : RecId) : (s.takePost k i v).version id = ((s.dropEarlier k i).listPost k i v).version id := by
    rw [State.version, State.version, versions]
  refine ⟨drain.trans dropped.drain, fun off => (serving ?_).trans (dropped.serving off), fun id other => ?_, ?_, ?_⟩
  · show (s.dropEarlier k i).mport.serving ≠ _
    rw [dropped.serving off]
    exact off
  · obtain ⟨v', d', w'⟩ := dropped.unmarked id
    refine ⟨by rw [version, listed, if_neg other, v'], ?_, ?_⟩
    · rw [versioned]
      exact (List.mem_cons.trans (or_iff_right other)).trans d'
    · rw [written]
      exact w'
  · rw [version, listed, if_pos rfl]
  · rw [versioned]
    exact List.mem_cons_self

end

end Sys2Proof.Machine
end

section
/-! SUPPORT. The arbiter's state and the version words: lots, attach and detach. -/

namespace Sys2Proof.Machine

/-! ## Lots that begin and end -/

/-- The arbiter as it is; reads that a detach drops may be in service. -/
structure Arbited (s t : State) : Prop where
  drain : t.mport.drain = s.mport.drain
  serving : s.mport.serving ≠ some .part → t.mport.serving = s.mport.serving

/-- Every version word but those of `p` as it is, and the arbiter too. -/
structure Sets (p : RecId → Prop) (s t : State) : Prop where
  arbited : Arbited s t
  marks : ∀ id, ¬ p id → Unmarked s t id

section
variable {s t u : State} {p : RecId → Prop}

theorem Arbited.trans (h : Arbited s t) (g : Arbited t u) : Arbited s u :=
  ⟨g.drain.trans h.drain, fun off => (g.serving (by rw [h.serving off]; exact off)).trans (h.serving off)⟩

theorem Booked.arbited (h : Booked p s t) : Arbited s t := ⟨h.drain, h.serving⟩
theorem Books.arbited (h : Books s t) : Arbited s t := ⟨h.drain, h.serving⟩

theorem Unmarked.trans {id : RecId} (h : Unmarked s t id) (g : Unmarked t u id) : Unmarked s u id :=
  ⟨g.version.trans h.version, g.versioned.trans h.versioned, g.written.trans h.written⟩

theorem Sets.trans (h : Sets p s t) (g : Sets p t u) : Sets p s u :=
  ⟨h.arbited.trans g.arbited, fun id out => (h.marks id out).trans (g.marks id out)⟩

theorem Sets.booked (h : Sets p s t) : Booked p s t := ⟨h.arbited.drain, h.arbited.serving, fun id out => .inl (h.marks id out)⟩

theorem Books.sets (h : Books s t) (p : RecId → Prop) : Sets p s t := ⟨h.arbited, fun id _ => h.unmarked id⟩

theorem Sets.fold {α : Type} {f : State → α → State} (h : ∀ s a, Sets p s (f s a)) (l : List α) : ∀ s : State, Sets p s (l.foldl f s) := by
  induction l with
  | nil => exact fun s => (Books.refl s).sets p
  | cons a l ih => exact fun s => (h s a).trans (ih _)

/-- A record of `p` written whole, with a version set for it. -/
theorem Sets.whole (s : State) {id : RecId} (there : p id) (v : Word) : Sets p s ((s.setVersion id v).writeWhole id) := by
  refine ⟨⟨rfl, fun _ => rfl⟩, fun j out => ?_⟩
  have other : j ≠ id := fun same => out (same ▸ there)
  obtain ⟨version, versioned, written⟩ := Unmarked.setVersion s other v
  exact ⟨version, versioned, (List.mem_cons.trans (or_iff_right other)).trans written⟩

end

/-- The records that the start of a lot writes whole: its wafer entries, its report and the report's rows (R10, R161). -/
def RecId.ofTable (k : Slot) : RecId → Prop
  | .waferEntry j _ | .reportHeader j | .reportRow j _ => j = k
  | .lotHeader _ | .defectEntry _ _ => False

section
variable (s : State)

theorem Books.takeStart (k : Slot) : Books s (s.takeStart k) := by
  have begun : Books s (s.startBegun k) := .same
  rw [State.takeStart_begun]
  unfold State.beginFetch
  split
  · exact begun.trans .same
  · exact begun.trans ((Books.same (t := State.modLot _ k _)).trans (.askAll _ _))

theorem Sets.buildWafers (k : Slot) (got : List (FetchItem × Word)) (aborted : Bool) : Sets (RecId.ofTable k) s (s.buildWafers k got aborted) := by
  have tabled : Books s (s.modLot k fun l => { l with wafers := slots25.map fun n => Wafer.fresh (selectedOf got n) aborted }) := .same
  have entries (t : State) : Sets (RecId.ofTable k) t (slots25.foldl (fun (s : State) n =>
      let s := if selectedOf got n then s.setAt (.carrier k n) (.wafer ⟨k, n⟩) else s
      (s.setVersion (.waferEntry k n) (fetchedWord got (.entryVersion n) + 1)).writeWhole (.waferEntry k n)) t) := by
    refine .fold (fun s n => ?_) slots25 t
    have placed : Books s (if selectedOf got n then s.setAt (.carrier k n) (.wafer ⟨k, n⟩) else s) := by
      split
      · exact .same
      · exact .refl s
    exact (placed.sets _).trans (Sets.whole (p := RecId.ofTable k) _ (id := .waferEntry k n) rfl _)
  exact (tabled.sets _).trans (entries _)

theorem Sets.openReport (k : Slot) (got : List (FetchItem × Word)) (aborted : Bool) : Sets (RecId.ofTable k) s (s.openReport k got aborted) := by
  have rows (t : State) : Sets (RecId.ofTable k) t (slots25.foldl (fun (t : State) n =>
      (t.setVersion (.reportRow k n) (fetchedWord got (.rowVersion n) + 1)).writeWhole (.reportRow k n)) t) :=
    Sets.fold (fun t n => Sets.whole (p := RecId.ofTable k) t (id := .reportRow k n) rfl _) slots25 t
  have header (t : State) (v : Word) : Sets (RecId.ofTable k) t ((t.setVersion (.reportHeader k) v).writeWhole (.reportHeader k)) :=
    Sets.whole (p := RecId.ofTable k) t (id := .reportHeader k) rfl v
  have opened (f : Report → Report) : Books s (s.modReport k f) := .same
  unfold State.openReport
  dsimp only
  exact ((opened _).sets _).trans ((header _ _).trans (rows _))

theorem Sets.fetchDone (k : Slot) (got : List (FetchItem × Word)) : Sets (RecId.ofTable k) s (s.fetchDone k got) := by
  have changed (f : Lot → Lot) : Sets (RecId.ofTable k) s (s.modLot k f) := Books.sets .same _
  have built (t : State) (aborted : Bool) : Sets (RecId.ofTable k) t ((t.buildWafers k got aborted).openReport k got aborted) :=
    (Sets.buildWafers t k got aborted).trans (.openReport _ k got aborted)
  unfold State.fetchDone
  split
  · split
    · exact Books.sets .same _
    · unfold State.startLot
      exact ((changed _).trans (built _ false)).trans ((Tidy.setMapRequest _ _ _).books.sets _)
  · unfold State.buildAborted
    exact (changed _).trans (built _ true)
  · exact (Books.refl s).sets _

theorem Books.releaseLot (k : Slot) : Books s (s.releaseLot k) := by
  have dropped : Books s (s.slotDropped k) :=
    Books.trans (t := s.modReport k fun r => { r with state := .released }) .same (.fold Books.keep _ _)
  have placed (t : State) : Books t (t.releasePlaces k) := by
    have slots : Books t (slots25.foldl (fun (s : State) n =>
        if (s.at (.carrier k n)).ofSlot k then s.setAt (.carrier k n) .empty else s) t) := by
      refine .fold (fun s n => ?_) slots25 t
      split
      · exact .same
      · exact .refl s
    have forgotten (t : State) (l : Loc) : Books t (t.forgetAt k l) := by
      unfold State.forgetAt
      split
      · exact .same
      · exact .refl t
    have halted (t : State) (b : Bool) : Books t (if b then t.halt else t) := by
      split
      · exact (Tidy.halt t).books
      · exact .refl t
    have left (t : State) (w : WaferName) : Books t (if w.slot = k then t.stageLeft w else t) := by
      split
      · exact (Tidy.stageLeft t w).books
      · exact .refl t
    have places := (((slots.trans (forgotten _ .ua)).trans (forgotten _ .la)).trans (forgotten _ .pa)).trans (forgotten _ .st)
    unfold State.releasePlaces
    dsimp only
    split
    · exact (places.trans (halted _ _)).trans (left _ _)
    · exact places.trans (halted _ _)
  have emptied (t : State) : Books t (t.slotEmptied k) := .same
  rw [State.releaseLot_eq]
  exact (dropped.trans (placed _)).trans (emptied _)

/-! ## Attach and detach -/

theorem Books.beginAttach : Books s s.beginAttach := Books.trans (t := State.setPath _ _) .same (.askAll _ _)

theorem Books.attachFails (why : AttachReason) : Books s (s.attachFails why) := Books.trans (t := State.setPath _ _) .same (Tidy.raise _ _).books

theorem Arbited.attachSucceeds (ws : Windows) : Arbited s (s.attachSucceeds ws) := by
  have attached : Arbited s (s.attachedTo ws) := ⟨rfl, fun _ => rfl⟩
  have held (t : State) (k : Slot) : Arbited t (t.holdHeader k) := ⟨rfl, fun _ => rfl⟩
  rw [State.attachSucceeds_eq]
  exact ((attached.trans (held _ .zero)).trans (held _ .one)).trans
    ((Books.askAll _ _).trans (((Tidy.sendInventory _).trans (.setHandling _ _)).trans (.raise _ _)).books).arbited

theorem Booked.checkLayout : Booked (fun _ => True) s s.checkLayout := by
  unfold State.checkLayout
  dsimp only
  split
  · exact .all (Books.attachFails s _).drain (Books.attachFails s _).serving
  · exact .all (Arbited.attachSucceeds s _).drain (Arbited.attachSucceeds s _).serving

theorem Arbited.beginDetach : Arbited s s.beginDetach := by
  have refused (l : List Entry) : ∀ t : State, Arbited t (l.foldl (fun t e => t.refusePost e .lotNotActive) t) := by
    induction l with
    | nil => exact fun t => (Books.refl t).arbited
    | cons e l ih => exact fun t => (Booked.refusePost t e _).arbited.trans (ih _)
  have kept : Arbited s s.keepForDetach := (refused _ s).trans (Books.fold Books.keep _ _).arbited
  have moved : Arbited s.keepForDetach s.keepForDetach.detachMotion := (Tidy.rest (State.detachMotion_rest _)).books.arbited
  have dropped (t : State) : Arbited t t.detachValues := by
    refine ⟨rfl, fun off => ?_⟩
    show t.mport.dropReads.serving = t.mport.serving
    unfold MPort.dropReads
    cases h : t.mport.serving with
    | none => rfl
    | some x =>
      cases x with
      | pPort => rfl
      | part => exact absurd h off
  rw [State.beginDetach_eq]
  exact (kept.trans moved).trans (dropped _)

end

end Sys2Proof.Machine
end

section
/-! SUPPORT. Every command's own effect accounts for the arbiter and the version words. -/

namespace Sys2Proof.Machine

/-- An operation accounts for the version words: but for those of records that nobody held before it, or of any record when the part is
not ATTACHED after it, each is as it was or, of an entry, one more. -/
def Accounts (s t : State) : Prop :=
  ∃ p, Booked p s t ∧ (s.Hale → ∀ id, p id → s.ownerImage id = none ∨ t.anchor.attach ≠ .attached)

section
variable {s t u : State}

theorem Books.accounts (h : Books s t) : Accounts s t := ⟨_, h.booked, fun _ _ no => no.elim⟩
theorem Tidy.accounts (h : Tidy s t) : Accounts s t := h.books.accounts

theorem Accounts.then (h : Accounts s t) (g : Books t u) (attach : u.anchor.attach = t.anchor.attach) : Accounts s u := by
  obtain ⟨p, booked, excused⟩ := h
  exact ⟨p, booked.then g, fun hale id there => by rw [attach]; exact excused hale id there⟩

theorem Accounts.tidy (h : Accounts s t) (g : Tidy t u) : Accounts s u := h.then g.books g.neat.attach

theorem Books.before (h : Books s t) (hale : s.Hale → t.Hale) (held : ∀ id, t.ownerImage id = s.ownerImage id) (g : Accounts t u) :
    Accounts s u := by
  obtain ⟨p, booked, excused⟩ := g
  exact ⟨p, h.then booked, fun sound id there => by rw [← held]; exact excused (hale sound) id there⟩

theorem Accounts.arbited (h : Accounts s t) : Arbited s t := by
  obtain ⟨p, booked, -⟩ := h
  exact booked.arbited

theorem Arbited.unattached (h : Arbited s t) (off : t.anchor.attach ≠ .attached) : Accounts s t :=
  ⟨fun _ => True, .all h.drain h.serving, fun _ _ _ => .inr off⟩

/-- Nobody holds a record while the part is not ATTACHED (R177). -/
theorem State.ownerImage_off (off : s.anchor.attach ≠ .attached) (id : RecId) : s.ownerImage id = none := if_neg off

end

section
variable (s : State)

/-! ## Writes judged -/

theorem Accounts.pass (a : PAccess) : Accounts s (s.pass a) := (Tidy.pass s a).accounts
theorem Accounts.mask (a : PAccess) : Accounts s (s.mask a) := (Tidy.mask s a).accounts

theorem Accounts.judgeAnchor (a : PAccess) (w : Nat) : Accounts s (s.judgeAnchor a w) := by
  unfold State.judgeAnchor
  split
  · split
    · exact .mask s a
    · split
      · exact (Books.beginAttach s).accounts.then (Tidy.pass _ a).books rfl
      · split
        · split
          · exact ((Tidy.refuseDetach s).trans (.mask _ a)).accounts
          · exact ((Arbited.beginDetach s).trans (Tidy.pass _ a).books.arbited).unattached AttachState.noConfusion
        · exact .pass s a
  · split
    · exact .mask s a
    · split
      · split
        · exact .mask s a
        · exact .pass s a
      · split
        · split
          · exact .mask s a
          · split
            · exact ((Tidy.handlingRequest s _).trans (.pass _ a)).accounts
            · exact .pass s a
        · split
          · split
            · exact .mask s a
            · split
              · exact ((Tidy.motionRequest s _).trans (.pass _ a)).accounts
              · exact .pass s a
          · split
            · exact Tidy.accounts .same
            · split
              · split
                · exact .mask s a
                · exact Tidy.accounts .same
              · split
                · exact .mask s a
                · exact .pass s a

theorem Books.lotRequest (k : Slot) (v : Word) : Books s (s.lotRequest k v) := by
  have started : Books s (s.startRequest k) := by
    unfold State.startRequest
    split
    · exact .takeStart s k
    all_goals exact (Tidy.startBusy s k).books
  have released : Books s (s.releaseRequest k) := by
    unfold State.releaseRequest
    split
    · exact (Books.releaseLot s k).trans (Tidy.settle _).books
    · exact (Books.releaseLot s k).trans (Tidy.settle _).books
    all_goals exact (Tidy.ignoreLotRequest s k).books
  unfold State.lotRequest
  split
  · exact started
  · split
    · exact (Tidy.abortRequest s k).books
    · split
      · exact released
      · exact (Tidy.ignoreLotRequest s k).books

theorem Accounts.judgeHeader (a : PAccess) (k : Slot) (w : Nat) : Accounts s (s.judgeHeader a k w) := by
  unfold State.judgeHeader
  dsimp only
  split
  · split
    · exact .mask s a
    · split
      · exact ((Books.lotRequest s k _).trans (Tidy.pass _ a).books).accounts
      · exact .pass s a
  · split
    · split
      · exact .mask s a
      · exact .pass s a
    · split
      · exact .mask s a
      · split
        · exact .mask s a
        · exact .pass s a

theorem State.ownerImage_defect {s : State} {k : Slot} {i : Nat} (none : s.entry k i = Option.none) : s.ownerImage (.defectEntry k i) = Option.none := by
  unfold State.ownerImage
  split
  · exact congrArg (Option.map Entry.image) none
  · rfl

/-- An entry that is not live and has no store record has no record (R118, R122). -/
theorem State.Kempt.entry_none {s : State} (h : s.Kempt) {k : Slot} {i : Nat} (off : s.entryLive k i = false)
    (none : s.storeEntry k i = Option.none) : s.entry k i = Option.none := by
  rw [State.entryLive] at off
  cases found : s.entry k i with
  | none => rfl
  | some e =>
    rw [found] at off
    obtain listed | ⟨-, stored⟩ := Option.or_eq_some_iff.1 found
    · have state := h.posting e (List.mem_of_find?_eq_some listed)
      have off : e.state.isLive = false := off
      rw [state] at off
      cases off
    · cases none.symm.trans stored

/-- A POST taken with a version one more than its store record's, if it has one (R121, R182). -/
theorem Accounts.passPost (a : PAccess) {k : Slot} {i : Nat} {v : Word} (off : s.entryLive k i = false)
    (next : (s.storeEntry k i).isSome = true → v = s.version (.defectEntry k i) + 1) : Accounts s (s.passPost a k i v) := by
  have captured : Books s (s.capture k i 6 a.data a.be) := .same
  obtain ⟨drain, serving, others, version, versioned⟩ := (s.capture k i 6 a.data a.be).takePost_marks k i v
  have ends : Tidy ((s.capture k i 6 a.data a.be).takePost k i v) (s.passPost a k i v) := (Tidy.settle _).trans (.pass _ a)
  refine Accounts.tidy ⟨fun id => id = .defectEntry k i ∧ (s.storeEntry k i).isSome = false, ⟨drain, serving, fun id out => ?_⟩,
    fun hale id there => .inl ?_⟩ ends
  · by_cases here : id = .defectEntry k i
    · subst here
      have some : (s.storeEntry k i).isSome = true := by
        by_contra none
        exact out ⟨rfl, Bool.eq_false_iff.2 none⟩
      exact .inr ⟨by rw [version, next some], versioned, _, _, rfl⟩
    · obtain ⟨same, marked, whole⟩ := others id here
      exact .inl ⟨same, marked, whole⟩
  · obtain ⟨rfl, none⟩ := there
    exact State.ownerImage_defect (hale.core.kempt.entry_none off (Option.isNone_iff_eq_none.1 (by rw [← Option.not_isSome, none]; rfl)))

theorem Accounts.judgePost (a : PAccess) (k : Slot) (i : Nat) (known : Option Word) : Accounts s (s.judgePost a k i known) := by
  unfold State.judgePost
  split
  · exact ((Tidy.countIgnored s k i).trans (.passCaptured _ a k i 6)).accounts
  · rename_i off
    split
    · exact (Tidy.hold s a _).accounts
    · split
      · rename_i v found
        refine .passPost s a (Bool.eq_false_iff.2 off) fun some => ?_
        have known : (known.filter fun _ => (s.storeEntry k i).isNone) = none := by
          rw [← Option.not_isSome, some]
          cases known <;> rfl
        rw [known, Option.none_or, State.oldVersion, if_pos some] at found
        rw [Option.some_inj.1 found]
      · exact ((Books.ask s _).trans (Tidy.hold _ a _).books).accounts

theorem Accounts.judgeControl (a : PAccess) (k : Slot) (i : Nat) (known : Option Word) : Accounts s (s.judgeControl a k i known) := by
  unfold State.judgeControl
  split
  · exact .mask s a
  · split
    · split
      · exact .judgePost s a k i known
      · split
        · exact ((Tidy.withdraw s k i).trans (.passCaptured _ a k i 6)).accounts
        · exact (Tidy.passCaptured s a k i 6).accounts
    · exact .pass s a

theorem Accounts.judgeDefect (a : PAccess) (k : Slot) (i w : Nat) (known : Option Word) : Accounts s (s.judgeDefect a k i w known) := by
  unfold State.judgeDefect
  split
  · exact (Tidy.judgeClass s a k i).accounts
  · split
    · exact .mask s a
    · split
      · exact .judgeControl s a k i known
      · split
        · split
          · exact ((Tidy.countChanged s k i).trans (.passCaptured _ a k i w)).accounts
          · exact .pass s a
        · exact .mask s a

theorem Accounts.judge (a : PAccess) (known : Option Word) : Accounts s (s.judge a known) := by
  unfold State.judge
  split
  · unfold State.judgeWrite
    split
    · exact .pass s a
    · exact .judgeAnchor s a _
    · exact .judgeHeader s a _ _
    · exact (Tidy.judgeWaferEntry s a _ _ _).accounts
    · exact .judgeDefect s a _ _ _ known
    · exact .mask s a
    · exact (Tidy.judgeClassTable s a _).accounts
  · exact (Tidy.judgeRead s a).accounts

theorem Accounts.take (a : PAccess) : Accounts s (s.take a) := by
  unfold State.take
  split
  · exact .judge s a none
  · exact (Tidy.hold s a _).accounts

/-! ## Accesses taken one after another -/

/-- Only the path has changed: accesses taken from the line, a read's answer. -/
def PathOnly (s t : State) : Prop := ∃ path, t = { s with path := path } ∧ path.layoutGot = s.path.layoutGot
  ∧ path.closedLock = s.path.closedLock

variable {s} in
theorem PathOnly.trans {t u : State} (h : PathOnly s t) (g : PathOnly t u) : PathOnly s u := by
  obtain ⟨path, rfl, got, closed⟩ := h
  obtain ⟨path', rfl, got', closed'⟩ := g
  exact ⟨path', rfl, got'.trans got, closed'.trans closed⟩

variable {s} in
theorem PathOnly.before {t u : State} (h : PathOnly s t) (g : Accounts t u) : Accounts s u := by
  obtain ⟨path, rfl, got, closed⟩ := h
  have same : Tidy s { s with path := path } := by
    refine .same ?_ rfl ?_
    · show ({ s.files with closedLock := path.closedLock } : Files) = s.files
      rw [closed]
      rfl
    · show ({ s.portFile with layoutGot := path.layoutGot } : PortFile) = s.portFile
      rw [got]
      rfl
  exact same.books.before same.hale (fun _ => rfl) g

theorem PathOnly.setPath {path : Path} (got : path.layoutGot = s.path.layoutGot := by rfl)
    (closed : path.closedLock = s.path.closedLock := by rfl) : PathOnly s (s.setPath path) := ⟨path, rfl, got, closed⟩

/-- An access taken engages the path, or is a read answered at once. -/
theorem State.take_cases (a : PAccess) : (s.take a).path.slot ≠ .idle ∨ PathOnly s (s.take a) := by
  unfold State.take
  split
  · unfold State.judge
    split
    · exact .inl (s.judgeWrite_engaged a none)
    · unfold State.judgeRead
      split
      · exact .inr ⟨_, rfl, rfl, rfl⟩
      · exact .inl (s.pass_engaged a)
  · exact .inl (s.hold_engaged a _)

theorem State.takeOfferedFor_engaged (n : Nat) {s : State} (h : s.path.slot ≠ .idle) : s.takeOfferedFor n = s := by
  cases n with
  | zero => rfl
  | succ n =>
    unfold State.takeOfferedFor
    split
    · rename_i idle _
      exact absurd idle h
    · rfl

theorem Accounts.takeOfferedFor (n : Nat) : ∀ s : State, Accounts s (s.takeOfferedFor n) := by
  induction n with
  | zero => exact fun s => (Books.refl s).accounts
  | succ n ih =>
    intro s
    unfold State.takeOfferedFor
    split
    · rename_i a rest _ _
      have next : PathOnly s (s.setPath { s.path with offered := rest }) := ⟨_, rfl, rfl, rfl⟩
      generalize s.setPath { s.path with offered := rest } = m at next
      obtain engaged | only := m.take_cases a
      · rw [State.takeOfferedFor_engaged n engaged]
        exact next.before (.take m a)
      · exact (next.trans only).before (ih _)
    · exact (Books.refl s).accounts

theorem Accounts.takeOffered : Accounts s s.takeOffered := .takeOfferedFor _ s

/-- An access taken, and the ones offered behind it. -/
theorem Accounts.takes (a : PAccess) : Accounts s (s.take a).takeOffered := by
  obtain engaged | only := s.take_cases a
  · rw [State.takeOffered_engaged engaged]
    exact .take s a
  · exact only.before (.takeOffered _)

theorem Accounts.present (a : PAccess) : Accounts s (s.present a) := by
  unfold State.present
  split
  · exact .take s a
  · exact Tidy.accounts .same
  · exact Tidy.accounts .same

/-- A read's version word known, an access judged and the ones offered behind it. -/
theorem Accounts.judges (a : PAccess) (known : Option Word) : Accounts s (s.judge a known).takeOffered := by
  by_cases write : a.write = true
  · have engaged : (s.judge a known).path.slot ≠ .idle := by
      rw [State.judge, if_pos write]
      exact s.judgeWrite_engaged a known
    rw [State.takeOffered_engaged engaged]
    exact .judge s a known
  · rw [State.judge, if_neg write]
    unfold State.judgeRead
    split
    · exact PathOnly.before (.setPath s) (.takeOffered _)
    · rw [State.takeOffered_engaged (s.pass_engaged a)]
      exact .pass s a

/-! ## The ports' service -/

/-- The access in service has ended, and the M-port is free. -/
structure Serviced (s t : State) : Prop where
  drain : t.mport.drain = s.mport.drain
  free : t.mport.serving = none
  versions : t.wb.versions = s.wb.versions
  scratch : t.scratch = s.scratch

/-- A command's own effect: after the end of the service it ends, or with the arbiter as it is. -/
def Answers (s : State) (c : Instr) (t : State) : Prop :=
  (s.frees c ∧ ∃ b, Serviced s b ∧ ∃ p, Booked p b t ∧ (s.Hale → ∀ id, p id → s.ownerImage id = none ∨ t.anchor.attach ≠ .attached))
    ∨ (¬ s.frees c ∧ Accounts s t)

variable {s} in
theorem Answers.of {c : Instr} {b t : State} (frees : s.frees c) (ended : Serviced s b) (hale : s.Hale → b.Hale)
    (held : ∀ id, b.ownerImage id = s.ownerImage id) (g : Accounts b t) : Answers s c t := by
  obtain ⟨p, booked, excused⟩ := g
  exact .inl ⟨frees, b, ended, p, booked, fun h id there => by rw [← held]; exact excused (hale h) id there⟩

/-- Part requests served are all but the layout reads answered so. -/
theorem Answers.served {s : State} {c : Instr} {q : PartRequest} {t : State} (frees : s.frees c) (served : s.served = some q)
    (off : q.isLayout = false) (g : Accounts s.endService t) : Answers s c t :=
  .of (b := s.endService) frees ⟨rfl, rfl, rfl, rfl⟩ (Ship.endService s served off).hale (fun _ => rfl) g

theorem Accounts.fetchDone {k : Slot} (got : List (FetchItem × Word)) (fetch : (s.lot k).fetch.isSome) : Accounts s (s.fetchDone k got) := by
  by_cases begun : (s.lot k).state = .starting ∨ (s.lot k).state = .aborting
  · refine ⟨_, (Sets.fetchDone s k got).booked, fun hale id there => .inl ?_⟩
    have sound := hale.core.kempt.lots k
    obtain ⟨wafers, rows⟩ := sound.noTable (State.LotSound.fetching (h := sound) fetch begun)
    have wafer (n : Nat) : s.wafer ⟨k, n⟩ = none := by
      show getAt (s.lot k).wafers n = none
      rw [wafers]
      cases n <;> rfl
    have row (n : Nat) : s.row ⟨k, n⟩ = none := by
      show getAt (s.report k).rows n = none
      rw [rows]
      cases n <;> rfl
    unfold State.ownerImage
    split
    · cases id with
      | waferEntry j n =>
        obtain rfl : j = k := there
        exact congrArg (Option.map _) (wafer n)
      | reportHeader j =>
        obtain rfl : j = k := there
        exact if_pos (by rw [rows]; rfl)
      | reportRow j n =>
        obtain rfl : j = k := there
        exact congrArg (Option.map _) (row n)
      | lotHeader j => exact there.elim
      | defectEntry j i => exact there.elim
    · rfl
  · have same : s.fetchDone k got = s := by
      unfold State.fetchDone
      split
      · rename_i starting
        exact absurd (.inl starting) begun
      · rename_i aborting
        exact absurd (.inr aborting) begun
      · rfl
    rw [same]
    exact (Books.refl s).accounts

/-- The start fetch is no part of a lot's image. -/
theorem State.ownerImage_fetch (k : Slot) (got : Option (List (FetchItem × Word))) (id : RecId) :
    (s.modLot k fun l => { l with fetch := got }).ownerImage id = s.ownerImage id := by
  have lots (j : Slot) : ((s.modLot k fun l => { l with fetch := got }).lot j).image = (s.lot j).image
      ∧ ((s.modLot k fun l => { l with fetch := got }).lot j).wafers = (s.lot j).wafers := by
    rw [State.lot_modLot]
    split
    · rename_i same
      rw [same]
      exact ⟨rfl, rfl⟩
    · exact ⟨rfl, rfl⟩
  unfold State.ownerImage
  refine if_congr Iff.rfl ?_ rfl
  cases id with
  | lotHeader j => exact congrArg some (lots j).1
  | waferEntry j n =>
    have wafer : (s.modLot k fun l => { l with fetch := got }).wafer ⟨j, n⟩ = s.wafer ⟨j, n⟩ := congrArg (getAt · n) (lots j).2
    dsimp only
    rw [wafer]
    rfl
  | defectEntry j i => rfl
  | reportHeader j => rfl
  | reportRow j n => rfl

theorem Answers.serveStartFetch : Answers s .startFetchReadDone s.serveStartFetch := by
  unfold State.serveStartFetch
  split
  · rename_i k it ws served windows
    refine .served ⟨by rw [windows]; rfl, k, it, served⟩ served rfl ?_
    split
    · rename_i old fetch
      have gets (got : List (FetchItem × Word)) : Books s.endService (s.endService.modLot k fun l => { l with fetch := some got }) := .same
      have keeps (got : List (FetchItem × Word)) (h : s.endService.Hale) : (s.endService.modLot k fun l => { l with fetch := some got }).Hale :=
        ⟨⟨h.core.kempt.fetches (k := k) fetch got, h.core.reviews.same rfl⟩, h.port.layout, h.port.reading, h.port.dirty⟩
      have owned (got : List (FetchItem × Word)) (id : RecId) :
          (s.endService.modLot k fun l => { l with fetch := some got }).ownerImage id = s.endService.ownerImage id := State.ownerImage_fetch _ k _ id
      dsimp only
      split
      · refine (gets _).before (keeps _) (owned _) (.tidy (.fetchDone _ _ ?_) (.settle _))
        rw [State.lot_modLot_self]
        rfl
      · exact (gets _).accounts
    · exact (Books.refl _).accounts
  · rename_i none
    refine .inr ⟨fun frees => ?_, (Books.refl s).accounts⟩
    obtain ⟨some, k, it, served⟩ := frees
    obtain ⟨ws, windows⟩ := Option.isSome_iff_exists.1 some
    exact none k it ws served windows

theorem Answers.servePostVersion : Answers s .postVersionReadDone s.servePostVersion := by
  unfold State.servePostVersion
  split
  · rename_i k i a served held
    refine .served ⟨k, i, a, served, held⟩ served rfl ?_
    exact PathOnly.before (t := s.endService.setSlot .idle) ⟨_, rfl, rfl, rfl⟩ (.judges _ a _)
  · rename_i none
    refine .inr ⟨fun frees => ?_, (Books.refl s).accounts⟩
    obtain ⟨k, i, a, served, held⟩ := frees
    exact none k i a served held

theorem Answers.serveFill : Answers s .fillReadDone s.serveFill := by
  unfold State.serveFill
  split
  · rename_i k i w ws served windows
    refine .served ⟨by rw [windows]; rfl, k, i, w, served⟩ served rfl ?_
    exact Accounts.tidy ⟨_, .fillWord _ k i w _, fun _ _ no => no.elim⟩ (.settle _)
  · rename_i none
    refine .inr ⟨fun frees => ?_, (Books.refl s).accounts⟩
    obtain ⟨some, k, i, w, served⟩ := frees
    obtain ⟨ws, windows⟩ := Option.isSome_iff_exists.1 some
    exact none k i w ws served windows

theorem Answers.serveClassTable : Answers s .classTableFetchReadDone s.serveClassTable := by
  unfold State.serveClassTable
  split
  · rename_i w ws served windows
    exact .served ⟨by rw [windows]; rfl, w, served⟩ served rfl (Tidy.accounts .same)
  · rename_i none
    refine .inr ⟨fun frees => ?_, (Books.refl s).accounts⟩
    obtain ⟨some, w, served⟩ := frees
    obtain ⟨ws, windows⟩ := Option.isSome_iff_exists.1 some
    exact none w ws served windows

theorem Answers.serveWrite : Answers s .writeQueueWordWritten s.serveWrite := by
  unfold State.serveWrite
  split
  · rename_i addr v id served
    refine .served ⟨addr, v, id, served⟩ served rfl ?_
    exact (Books.trans (t := { s.endService with mem := s.mem.writeWord addr v 15 }) .same (.enterDirect _)).accounts
  · rename_i none
    exact .inr ⟨fun ⟨addr, v, id, served⟩ => none addr v id served, (Books.refl s).accounts⟩

/-- A layout read is asked for by a part that checks a layout. -/
theorem State.Hale.checking {s : State} (h : s.Hale) {k : Nat} (served : s.served = some (.layout k)) : s.anchor.attach = .checking := by
  by_contra off
  have none := h.port.layouts off
  obtain ⟨rest, all⟩ : ∃ rest, s.mport.requests = .layout k :: rest := by
    unfold State.served at served
    split at served
    · exact List.head?_eq_some_iff.1 served
    · cases served
  rw [all, List.filter_cons, if_pos (show PartRequest.isLayout (.layout k) = true from rfl), List.length_cons] at none
  cases none

theorem Answers.serveLayout : Answers s .attachLayoutReadDone s.serveLayout := by
  unfold State.serveLayout
  split
  · rename_i k served
    refine .inl ⟨⟨k, served⟩, s.endService, ⟨rfl, rfl, rfl, rfl⟩, fun _ => True, ?_, fun hale id _ =>
      .inl (State.ownerImage_off (by rw [hale.checking served]; exact AttachState.noConfusion) id)⟩
    have read (t : State) (got : List Word) : Books t (t.setPath { t.path with layoutGot := got }) := ⟨rfl, fun _ => rfl, rfl, rfl, rfl⟩
    unfold State.layoutWord
    dsimp only
    split
    · exact (read _ _).then (.checkLayout _)
    · exact (read _ _).booked.mono fun _ no => no.elim
  · rename_i none
    exact .inr ⟨fun ⟨k, served⟩ => none k served, (Books.refl s).accounts⟩

theorem Answers.servePPort : Answers s .pPortAccessServed s.servePPort := by
  unfold State.servePPort
  split
  · rename_i a serving waiting
    refine .of (b := { s with mport := { s.mport with serving := none } }) ⟨serving, by rw [waiting]; rfl⟩ ⟨rfl, rfl, rfl, rfl⟩
      (fun h => ⟨h.core.same rfl rfl, h.port.layout, h.port.reading, h.port.dirty⟩) (fun _ => rfl) ?_
    dsimp only
    split
    · have stored : Tidy { s with mport := { s.mport with serving := none } } (State.setSlot { s with
        mport := { s.mport with serving := none }, mem := s.mem.writeWord a.addr a.data a.be } .idle) := .same
      exact stored.books.before stored.hale (fun _ => rfl) (.takeOffered _)
    · exact PathOnly.before ((PathOnly.setPath _).trans (.setPath _)) (.takeOffered _)
  · rename_i none
    refine .inr ⟨fun frees => ?_, (Books.refl s).accounts⟩
    obtain ⟨serving, waits⟩ := frees
    cases slot : s.path.slot with
    | waiting a => exact none a serving slot
    | idle =>
      rw [slot] at waits
      cases waits
    | held a why =>
      rw [slot] at waits
      cases waits

theorem Accounts.releaseHeld : Accounts s s.releaseHeld := by
  unfold State.releaseHeld
  split
  · split
    · exact PathOnly.before (t := s.setSlot .idle) ⟨_, rfl, rfl, rfl⟩ (.takes _ _)
    · exact (Books.refl s).accounts
  · exact (Books.refl s).accounts
  · exact (Books.refl s).accounts

end

end Sys2Proof.Machine
end

section
/-! SUPPORT. The arbiter at the end of a step: O8. -/

namespace Sys2Proof.Machine

section
variable (s : State)

variable {s} in
/-- A command that serves nothing at the M-port. -/
theorem Accounts.answers {c : Instr} {t : State} (h : Accounts s t) (off : ¬ s.frees c := by exact fun no => no) : Answers s c t := .inr ⟨off, h⟩

theorem Tidy.ite {p : Prop} [Decidable p] {s t u : State} (ht : p → Tidy s t) (hu : Tidy s u) : Tidy s (if p then t else u) := by
  split
  · rename_i there
    exact ht there
  · exact hu

/-- The commands that present no write. -/
theorem Answers.event (c : Instr) : Answers s c (s.event c) := by
  cases c with
  | attachLayoutReadDone => exact .serveLayout s
  | detachComplete =>
    refine Accounts.answers ?_
    dsimp only [State.event]
    split
    · exact Arbited.unattached (t := s.detached) ⟨rfl, fun _ => rfl⟩ AttachState.noConfusion
    · exact (Books.refl s).accounts
  | startFetchReadDone => exact .serveStartFetch s
  | heldAccessRelease => exact (Accounts.releaseHeld s).answers
  | postVersionReadDone => exact .servePostVersion s
  | fillReadDone => exact .serveFill s
  | classTableFetchReadDone => exact .serveClassTable s
  | pPortAccessServed => exact .servePPort s
  | writeQueueWordWritten => exact .serveWrite s
  | writerMove => exact (Books.moveRecord s).accounts.answers
  | recordWrittenBack id => exact (Tidy.recordWrittenBack s id).accounts.answers
  | interlockOpen =>
    refine Accounts.answers (Tidy.accounts ?_)
    dsimp only [State.event]
    split
    · exact .refl s
    · exact .opensInterlock s
  | interlockClose => exact (Tidy.ite (fun _ => .closesInterlock s) (.refl s)).accounts.answers
  | carrierLoss p => exact (Tidy.carrierLoss s p).accounts.answers
  | carrierPresent p => exact (Tidy.carrierPresent s p).accounts.answers
  | pickDone tag => exact (Tidy.robotReply s tag).accounts.answers
  | placeDone tag => exact (Tidy.robotReply s tag).accounts.answers
  | inventoryDone tag ua la pa st => exact (Tidy.inventoryReply s tag _).accounts.answers
  | prealignDone tag => exact (Tidy.prealignReply s tag).accounts.answers
  | mapDone p tag results => exact (Tidy.mapReply s p tag results).accounts.answers
  | handlerFault u tag code => exact (Tidy.faultReply s u tag code).accounts.answers
  | handlerOrderTimeout u => exact (Tidy.handlerTimesOut s u).accounts.answers
  | arrived tag => exact (Tidy.arrivedReply s tag).accounts.answers
  | homed tag => exact (Tidy.homedReply s tag).accounts.answers
  | motionLinkFault tag code => exact (Tidy.motionFaultReply s tag).accounts.answers
  | motionOrderTimeout g => exact (Tidy.motionTimesOut s g).accounts.answers
  | settleTimerExpiry g => exact (Tidy.settleTimesOut s g).accounts.answers
  | markResult tag found ox oy => exact (Tidy.markReply s tag found ox oy).accounts.answers
  | grabDone tag first frames => exact (Tidy.grabDoneReply s tag first frames).accounts.answers
  | grabFault tag code => exact (Tidy.grabFaultReply s tag).accounts.answers
  | grabTimeout => exact (Tidy.grabTimesOut s).accounts.answers
  | sensorWord w mark parity => exact (Tidy.takeWord s w mark parity).then_settle.accounts.answers
  | silenceTimerExpiry => exact (Tidy.silenceTimesOut s).accounts.answers
  | autofocusTimerExpiry => exact (Tidy.focusTimesOut s).accounts.answers
  | postingWaitExpiry => exact (Tidy.postingWaitEnds s).accounts.answers
  | _ => exact (Books.refl s).accounts.answers

/-- Every command's own effect. -/
theorem Answers.effect (c : Instr) : Answers s c (s.effect c) := by
  unfold State.effect
  split
  · rename_i a access
    refine (Accounts.present s a).answers ?_
    cases c with
    | attachLayoutReadDone => cases access
    | startFetchReadDone => cases access
    | postVersionReadDone => cases access
    | fillReadDone => cases access
    | classTableFetchReadDone => cases access
    | pPortAccessServed => cases access
    | writeQueueWordWritten => cases access
    | _ => exact id
  · exact .event s c

/-! ## The arbiter at the end of a step (R185) -/

variable {s} in
/-- The arbiter's choice when the M-port is free. -/
theorem State.arbitrate_free (free : s.mport.serving = none) :
    s.arbitrate.mport.serving = chooseServer s.arbitrate.mport.drain s.path.slot.isWaiting (!s.mport.requests.isEmpty) := by
  rw [State.arbitrate]
  dsimp only
  rw [free]

variable {s} in
theorem State.arbitrate_serving {x : Server} (serving : s.mport.serving = some x) : s.arbitrate.mport.serving = some x := by
  rw [State.arbitrate]
  dsimp only
  rw [serving]

theorem PathSlot.isWaiting_iff (p : PathSlot) : p.isWaiting = true ↔ ∃ a, p = .waiting a := by
  cases p with
  | waiting a => exact ⟨fun _ => ⟨a, rfl⟩, fun _ => rfl⟩
  | idle => exact ⟨nofun, nofun⟩
  | held a why => exact ⟨nofun, nofun⟩

/-- What the arbiter may choose, by the accesses that wait and the drain flag. -/
theorem chooseServer_of (drain pWaits partWaits : Bool) :
    (pWaits = true → drain = false ∨ partWaits = false → chooseServer drain pWaits partWaits = some .pPort)
    ∧ (pWaits = true → drain = true → partWaits = true → chooseServer drain pWaits partWaits = some .part)
    ∧ (pWaits = false → partWaits = true → chooseServer drain pWaits partWaits = some .part)
    ∧ (pWaits = false → partWaits = false → chooseServer drain pWaits partWaits = none) := by
  revert drain pWaits partWaits
  decide

/-- The arbiter at the end of a step whose command's own effect has left `u`. -/
theorem State.finish_arbiter (s u : State) :
    (State.finish s u).mport.drain = drainFlag (State.finish s u).mport.queued u.mport.drain
    ∧ (State.finish s u).path.slot = u.path.slot ∧ (State.finish s u).mport.requests = u.mport.requests
    ∧ (State.finish s u).mport.serving = u.arbitrate.mport.serving ∧ (State.finish s u).mport.drain = u.arbitrate.mport.drain := by
  have slot : (State.finish s u).path.slot = u.path.slot := (congrArg (fun x : State => x.path.slot) (State.finish_content s u) :)
  rw [State.finish_queued, State.finish_mport]
  exact ⟨rfl, slot, rfl, rfl, rfl⟩

theorem State.finish_readData (s u : State) : (State.finish s u).path.readData = u.path.readData :=
  (congrArg (fun x : State => x.path.readData) (State.finish_content s u) :)

/-- A P-port access served, its write stored or its word read. -/
def State.accessServed (s : State) (a : PAccess) : State :=
  let s := { s with mport := { s.mport with serving := none } }
  (if a.write then { s with mem := s.mem.writeWord a.addr a.data a.be }
    else s.setPath { s.path with readData := some (s.mem.readWord a.addr) }).setSlot .idle

theorem exec_pPortAccessServed {s : State} {a : PAccess} (serving : s.mport.serving = some .pPort) (waiting : s.path.slot = .waiting a)
    (offered : s.path.offered = []) : exec .pPortAccessServed s = .next (State.finish s (s.begin.accessServed a)) := by
  have serving' : s.begin.mport.serving = some .pPort := serving
  have waiting' : s.begin.path.slot = .waiting a := waiting
  have none : (s.begin.accessServed a).path.offered = [] := by
    unfold State.accessServed
    dsimp only
    split
    · exact offered
    · exact offered
  show Host.Outcome.next (State.finish s s.begin.servePPort) = _
  rw [State.servePPort, serving', waiting']
  exact congrArg (fun u => Host.Outcome.next (State.finish s u)) (State.takeOffered_none none)

/-- Settles O8. -/
theorem servedAccessReadsOrStoresItsWord : Obligations.ServedAccessReadsOrStoresItsWord := by
  refine ⟨fun s a wf serving waiting offered => ?_, fun c s reset => ?_⟩
  · refine ⟨_, exec_pPortAccessServed serving waiting offered, ?_, fun write => ?_, fun read => ?_⟩
    · rw [State.finish_content, State.finish_mem, State.finish_readData]
      unfold State.accessServed
      dsimp only
      split
      · rfl
      · rfl
    · have stored : s.begin.accessServed a = State.setSlot { s.begin with
          mport := { s.mport with serving := none }, mem := s.mem.writeWord a.addr a.data a.be } .idle := by
        rw [State.accessServed, if_pos write]
        rfl
      simp only [State.byteAt, State.finish_mem, State.finish_readData, stored]
      exact ⟨rfl, fun k hk => Memory.readByte_writeWord_lane wf a.addr a.data a.be k hk,
        fun b off => Memory.readByte_writeWord_other wf a.addr a.data a.be b off⟩
    · have brought : s.begin.accessServed a = State.setSlot (State.setPath { s.begin with mport := { s.mport with serving := none } }
          { s.path with readData := some (s.mem.readWord a.addr) }) .idle := by
        rw [State.accessServed, if_neg (by rw [read]; nofun)]
        rfl
      simp only [State.byteAt, State.finish_mem, State.finish_readData, brought]
      exact ⟨rfl, fun _ => rfl⟩
  · have drain : (s.begin.effect c).mport.drain = s.mport.drain := by
      obtain ⟨-, b, ended, p, booked, -⟩ | ⟨-, accounts⟩ := Answers.effect s.begin c
      · exact booked.drain.trans ended.drain
      · exact accounts.arbited.drain
    obtain ⟨flag, slot, requests, served, flag'⟩ := State.finish_arbiter s (s.begin.effect c)
    refine ⟨_, exec_effect reset s, ?_, fun free => ?_, fun serving on => ?_⟩
    · rw [flag, drain]
      rfl
    · have free : (s.begin.effect c).mport.serving = none := by
        obtain ⟨-, b, ended, p, booked, -⟩ | ⟨on, accounts⟩ := Answers.effect s.begin c
        · exact (booked.serving (by rw [ended.free]; nofun)).trans ended.free
        · have none := free.resolve_right on
          exact (accounts.arbited.serving (by show s.mport.serving ≠ _; rw [none]; nofun)).trans none
      rw [served, State.arbitrate_free free, ← flag', slot, requests]
      generalize (State.finish s (s.begin.effect c)).mport.drain = d
      obtain ⟨port, parts, part, rests⟩ := chooseServer_of d (s.begin.effect c).path.slot.isWaiting
        (!(s.begin.effect c).mport.requests.isEmpty)
      have idle : (∀ a, (s.begin.effect c).path.slot ≠ .waiting a) → (s.begin.effect c).path.slot.isWaiting = false := fun off =>
        Bool.eq_false_iff.2 fun waits => by
          obtain ⟨a, slot⟩ := (PathSlot.isWaiting_iff _).1 waits
          exact off a slot
      have empty : (s.begin.effect c).mport.requests = [] → (!(s.begin.effect c).mport.requests.isEmpty) = false := fun none => by
        rw [none]
        rfl
      have asked : (s.begin.effect c).mport.requests ≠ [] → (!(s.begin.effect c).mport.requests.isEmpty) = true := fun some => by
        rw [Bool.not_eq_true', Bool.eq_false_iff]
        exact fun none => some (List.isEmpty_iff.1 none)
      exact ⟨fun waits quiet => port ((PathSlot.isWaiting_iff _).2 waits) (quiet.imp id empty),
        fun waits drains some => parts ((PathSlot.isWaiting_iff _).2 waits) drains (asked some),
        fun off some => part (idle off) (asked some), fun off none => rests (idle off) (empty none)⟩
    · obtain ⟨frees, -⟩ | ⟨-, accounts⟩ := Answers.effect s.begin c
      · exact absurd frees on
      · have kept := (accounts.arbited.serving (by show s.mport.serving ≠ _; rw [serving]; nofun)).trans serving
        rw [served, State.arbitrate_serving kept]

end

end Sys2Proof.Machine
end

section
/-! SUPPORT. Version words and dirty words at a step's end. -/

namespace Sys2Proof.Machine

/-! ## Offsets marked dirty (R183) -/

theorem mem_insertOffset {w x : Nat} {l : List Nat} : x ∈ insertOffset w l ↔ x = w ∨ x ∈ l := by
  induction l with
  | nil => rw [insertOffset, List.mem_singleton, or_iff_left List.not_mem_nil]
  | cons v rest ih =>
    rw [insertOffset]
    split
    · exact List.mem_cons
    · split
      · rename_i same
        rw [same]
        exact ⟨.inr, fun h => h.elim (fun h => h ▸ List.mem_cons_self) id⟩
      · rw [List.mem_cons, ih, List.mem_cons]
        tauto

theorem mem_mergeOffsets {x : Nat} {ws vs : List Nat} : x ∈ mergeOffsets ws vs ↔ x ∈ ws ∨ x ∈ vs := by
  induction ws with
  | nil => exact (or_iff_right List.not_mem_nil).symm
  | cons w ws ih => rw [mergeOffsets, List.foldr_cons, mem_insertOffset, ← mergeOffsets, ih, List.mem_cons, or_assoc]

/-- A record stands on the dirty list with these words marked. -/
def Marks (l : List DirtyRecord) (id : RecId) (ws : List Nat) : Prop := ∃ d ∈ l, d.id = id ∧ ∀ w ∈ ws, w ∈ d.words

theorem Marks.addDirty (l : List DirtyRecord) (id : RecId) {ws : List Nat} (some : ws ≠ []) : Marks (addDirty l id ws) id ws := by
  unfold Sys2Proof.Machine.addDirty
  rw [if_neg (by rw [List.isEmpty_iff]; exact some)]
  split
  · rename_i there
    obtain ⟨d, hd, same⟩ := List.any_eq_true.1 there
    have same : d.id = id := beq_iff_eq.1 same
    refine ⟨_, List.mem_map_of_mem hd, ?_⟩
    rw [if_pos same]
    exact ⟨same, fun w hw => mem_mergeOffsets.2 (.inl hw)⟩
  · exact ⟨_, List.mem_append_right _ List.mem_cons_self, rfl, fun w hw => mem_mergeOffsets.2 (.inl hw)⟩

theorem Marks.addDirty_other {l : List DirtyRecord} {id : RecId} {ws : List Nat} (h : Marks l id ws) {j : RecId} (other : j ≠ id) (vs : List Nat) :
    Marks (Sys2Proof.Machine.addDirty l j vs) id ws := by
  obtain ⟨d, hd, same, marked⟩ := h
  unfold Sys2Proof.Machine.addDirty
  split
  · exact ⟨d, hd, same, marked⟩
  · split
    · refine ⟨_, List.mem_map_of_mem hd, ?_⟩
      rw [if_neg (by rw [same]; exact other.symm)]
      exact ⟨same, marked⟩
    · exact ⟨d, List.mem_append_left _ hd, same, marked⟩

theorem Marks.filter {l : List DirtyRecord} {id : RecId} {ws : List Nat} (h : Marks l id ws) {j : RecId} (other : j ≠ id) :
    Marks (l.filter fun d => d.id != j) id ws := by
  obtain ⟨d, hd, same, marked⟩ := h
  exact ⟨d, List.mem_filter.2 ⟨hd, by rw [same]; exact bne_iff_ne.2 other.symm⟩, same, marked⟩

/-! ## One record at a step's end (R182, R183) -/

/-- The offsets of a held record that the step has changed, of `s0`'s image `old` and the new one. -/
def State.changes (s : State) (id : RecId) (old new : Image) : List Nat :=
  if s.scratch.written.contains id then new.map (·.1) else changedOffsets old new

section
variable {s0 s : State} {id j : RecId}

theorem State.commitRecord_heldImage (s0 s : State) (id j : RecId) : (State.commitRecord s0 s id).heldImage j = s.heldImage j := by
  have owner := State.withoutWb_ownerImage (State.commitRecord_withoutWb s0 s id) j
  have lists : (State.commitRecord s0 s id).wb.direct = s.wb.direct ∧ (State.commitRecord s0 s id).wb.kept = s.wb.kept := by
    unfold State.commitRecord
    split
    · exact ⟨rfl, rfl⟩
    · dsimp only
      split
      · exact ⟨rfl, rfl⟩
      · exact ⟨rfl, rfl⟩
  rw [State.heldImage, State.heldImage, owner, lists.1, lists.2]

theorem State.version_put (s : State) (id j : RecId) (v : Word) (dirty : List DirtyRecord) :
    ({ s with wb := { s.wb with versions := putVersion s.wb.versions id v, dirty := dirty } } : State).version j
      = if j = id then v else s.version j := versionIn_put _ id v j

theorem State.commitRecord_other (other : j ≠ id) : (State.commitRecord s0 s j).version id = s.version id
    ∧ ∀ ws, Marks s.wb.dirty id ws → Marks (State.commitRecord s0 s j).wb.dirty id ws := by
  unfold State.commitRecord
  split
  · exact ⟨rfl, fun _ marks => marks⟩
  · dsimp only
    split
    · exact ⟨(State.version_put _ _ _ _ _).trans (if_neg other.symm), fun _ marks => marks.filter other⟩
    · exact ⟨(State.version_put _ _ _ _ _).trans (if_neg other.symm), fun _ marks => marks.addDirty_other other _⟩

/-- The record's new version word and its offsets marked dirty, with no direct write of it waiting. -/
theorem State.commitRecord_eq {old new : Image} (held : s.heldImage id = some new) (was : s0.heldImage id = some old)
    (direct : (s.wb.direct.any fun h => h.id == id) = false) :
    State.commitRecord s0 s id
      = { s with wb := { s.wb with
          versions := putVersion s.wb.versions id
            (if s.scratch.versioned.contains id || (s.changes id old new).isEmpty then s.version id else s.version id + 1)
          dirty := addDirty s.wb.dirty id
            (if (if s.scratch.versioned.contains id || (s.changes id old new).isEmpty then s.version id else s.version id + 1) ≠ s0.version id
              ∨ s0.heldImage id = none then insertOffset (versionOffset id) (s.changes id old new) else s.changes id old new) } } := by
  rw [State.commitRecord, held]
  dsimp only
  rw [direct, was]
  rfl

/-- A record held before the step and after it, that is not on the direct-write list. -/
theorem State.commitRecord_held {old new : Image} (held : s.heldImage id = some new) (was : s0.heldImage id = some old)
    (off : ∀ h ∈ s.wb.direct, h.id ≠ id) :
    (State.commitRecord s0 s id).version id
      = (if s.scratch.versioned.contains id || (s.changes id old new).isEmpty then s.version id else s.version id + 1)
    ∧ ((State.commitRecord s0 s id).version id ≠ s0.version id →
      Marks (State.commitRecord s0 s id).wb.dirty id (insertOffset (versionOffset id) (s.changes id old new))) := by
  have direct : (s.wb.direct.any fun h => h.id == id) = false := by
    rw [Bool.eq_false_iff]
    intro there
    obtain ⟨h, hh, same⟩ := List.any_eq_true.1 there
    exact off h hh (beq_iff_eq.1 same)
  rw [State.commitRecord_eq held was direct]
  generalize (if s.scratch.versioned.contains id || (s.changes id old new).isEmpty then s.version id else s.version id + 1) = v
  have version := (State.version_put s id id v (addDirty s.wb.dirty id
    (if v ≠ s0.version id ∨ s0.heldImage id = none then insertOffset (versionOffset id) (s.changes id old new) else s.changes id old new))).trans
    (if_pos rfl)
  refine ⟨version, fun differs => ?_⟩
  rw [version] at differs
  rw [if_pos (Or.inl differs)]
  refine Marks.addDirty _ _ fun none => ?_
  have there : versionOffset id ∈ insertOffset (versionOffset id) (s.changes id old new) := mem_insertOffset.2 (.inl rfl)
  rw [none] at there
  cases there

/-- Records other than `id` at a step's end leave what is held, its version word and its marks. -/
theorem State.foldl_commitRecord_other (s0 : State) (ids : List RecId) : ∀ {s : State}, id ∉ ids →
    (ids.foldl (State.commitRecord s0) s).version id = s.version id
    ∧ (ids.foldl (State.commitRecord s0) s).heldImage id = s.heldImage id
    ∧ (ids.foldl (State.commitRecord s0) s).scratch = s.scratch
    ∧ ∀ ws, Marks s.wb.dirty id ws → Marks (ids.foldl (State.commitRecord s0) s).wb.dirty id ws := by
  induction ids with
  | nil => exact fun _ => ⟨rfl, rfl, rfl, fun _ marks => marks⟩
  | cons j ids ih =>
    intro s out
    obtain ⟨first, rest⟩ := not_or.1 fun h => out (List.mem_cons.2 h)
    obtain ⟨version, held, scratch, marks⟩ := ih (s := State.commitRecord s0 s j) rest
    obtain ⟨version', marks'⟩ := State.commitRecord_other (s0 := s0) (s := s) (j := j) fun same => first same.symm
    exact ⟨version.trans version', held.trans (State.commitRecord_heldImage s0 s j id), scratch.trans (State.commitRecord_scratch s0 s j),
      fun ws h => marks ws (marks' ws h)⟩

/-- A record that is a candidate once, at a step's end. -/
theorem State.commit_once {old new : Image} (once : s.candidates.count id = 1) (held : s.heldImage id = some new)
    (was : s0.heldImage id = some old) (off : ∀ h ∈ s.wb.direct, h.id ≠ id) :
    (State.commit s0 s).version id
      = (if s.scratch.versioned.contains id || (s.changes id old new).isEmpty then s.version id else s.version id + 1)
    ∧ ((State.commit s0 s).version id ≠ s0.version id →
      Marks (State.commit s0 s).wb.dirty id (insertOffset (versionOffset id) (s.changes id old new))) := by
  have mem : id ∈ s.candidates := List.count_pos_iff.1 (by omega)
  have anchor (t : State) : (State.commitAnchor s0 t).version id = t.version id ∧ (State.commitAnchor s0 t).wb.dirty = t.wb.dirty := by
    unfold State.commitAnchor
    split
    · exact ⟨rfl, rfl⟩
    · exact ⟨rfl, rfl⟩
  obtain ⟨a, b, all⟩ := List.append_of_mem mem
  have out : id ∉ a ∧ id ∉ b := by
    rw [all, List.count_append, List.count_cons_self] at once
    exact ⟨List.count_eq_zero.1 (by omega), List.count_eq_zero.1 (by omega)⟩
  rw [State.commit, (anchor _).1, (anchor _).2, all, List.foldl_append, List.foldl_cons]
  obtain ⟨version, held', scratch, -⟩ := State.foldl_commitRecord_other (id := id) s0 a (s := s) out.1
  have direct := State.foldl_commitRecord_direct s0 a s
  generalize a.foldl (State.commitRecord s0) s = x at *
  obtain ⟨version', -, -, marks⟩ := State.foldl_commitRecord_other (id := id) s0 b (s := State.commitRecord s0 x id) out.2
  obtain ⟨becomes, marked⟩ := State.commitRecord_held (s0 := s0) (s := x) (held'.trans held) was (by rw [direct]; exact off)
  have same : x.changes id old new = s.changes id old new := by rw [State.changes, State.changes, scratch]
  rw [scratch, same, version] at becomes
  rw [same] at marked
  rw [version']
  exact ⟨becomes, fun differs => marks _ (marked differs)⟩

end

end Sys2Proof.Machine
end

section
/-! SUPPORT. The writer's move and the version words of a step: O10. -/

namespace Sys2Proof.Machine

/-! ## A record is one candidate (R182) -/

theorem count_rows {f : Nat → RecId} (inj : Function.Injective f) {n : Nat} (low : 1 ≤ n) (high : n ≤ 25) :
    (((List.range 25).map (· + 1)).map f).count (f n) = 1 := by
  rw [List.count_map_of_injective _ _ inj]
  refine List.count_eq_one_of_mem ?_ ?_
  · exact List.nodup_range.map fun a b h => Nat.succ.inj h
  · exact List.mem_map.2 ⟨n - 1, List.mem_range.2 (by omega), by omega⟩

theorem State.entry_of_owned {s : State} {k : Slot} {i : Nat} {im : Image} (owned : s.ownerImage (.defectEntry k i) = some im) :
    ∃ e ∈ s.revisit.posting ++ s.revisit.store, e.id = .defectEntry k i := by
  cases found : s.entry k i with
  | none => cases (State.ownerImage_defect found).symm.trans owned
  | some e =>
    obtain listed | ⟨-, stored⟩ := Option.or_eq_some_iff.1 found
    · have is : e.is k i = true := List.find?_some (p := fun e : Entry => e.is k i) listed
      exact ⟨e, List.mem_append_left _ (List.mem_of_find?_eq_some listed), Entry.is_iff.1 is⟩
    · have is : e.is k i = true := List.find?_some (p := fun e : Entry => e.is k i) stored
      exact ⟨e, List.mem_append_right _ (List.mem_of_find?_eq_some stored), Entry.is_iff.1 is⟩

/-- A record that is held by its owner, and that has a place in the layout, is a candidate once unless it is on the direct-write list. -/
theorem State.candidates_once {s : State} (once : s.Once) {id : RecId} {im : Image} (owned : s.ownerImage id = some im)
    (off : ∀ h ∈ s.wb.direct, h.id ≠ id) (place : ∀ k n, id = .waferEntry k n ∨ id = .reportRow k n → 1 ≤ n ∧ n ≤ 25) :
    s.candidates.count id = 1 := by
  have direct : (s.wb.direct.map (·.id)).count id = 0 := List.count_eq_zero.2 fun there => by
    obtain ⟨h, hh, same⟩ := List.mem_map.1 there
    exact off h hh same
  have entries (never : ∀ e : Entry, e.id ≠ id) : ((s.revisit.posting ++ s.revisit.store).map Entry.id).count id = 0 :=
    List.count_eq_zero.2 fun there => by
      obtain ⟨e, -, same⟩ := List.mem_map.1 there
      exact never e same
  have rows {f : Nat → RecId} (never : ∀ n, f n ≠ id) : (((List.range 25).map (· + 1)).map f).count id = 0 := List.count_eq_zero.2 fun there => by
    obtain ⟨n, -, same⟩ := List.mem_map.1 there
    exact never n same
  simp only [State.candidates, List.count_append, direct]
  cases id with
  | lotHeader k =>
    rw [entries (by simp [Entry.id]), rows (by simp), rows (by simp), rows (by simp), rows (by simp)]
    cases k <;> simp
  | waferEntry k n =>
    obtain ⟨low, high⟩ := place k n (.inl rfl)
    rw [entries (by simp [Entry.id]), rows (f := fun n => .reportRow .zero n) (by simp), rows (f := fun n => .reportRow .one n) (by simp)]
    cases k with
    | zero =>
      rw [count_rows (f := fun n => .waferEntry .zero n) (fun a b h => by cases h; rfl) low high, rows (by simp)]
      simp
    | one =>
      rw [count_rows (f := fun n => .waferEntry .one n) (fun a b h => by cases h; rfl) low high, rows (by simp)]
      simp
  | defectEntry k i =>
    have mine : ((s.revisit.posting ++ s.revisit.store).map Entry.id).count (.defectEntry k i) = 1 := by
      refine List.count_eq_one_of_mem once (List.mem_map.2 ?_)
      exact State.entry_of_owned owned
    rw [mine, rows (by simp), rows (by simp), rows (by simp), rows (by simp)]
    simp
  | reportHeader k =>
    rw [entries (by simp [Entry.id]), rows (by simp), rows (by simp), rows (by simp), rows (by simp)]
    cases k <;> simp
  | reportRow k n =>
    obtain ⟨low, high⟩ := place k n (.inr rfl)
    rw [entries (by simp [Entry.id]), rows (f := fun n => .waferEntry .zero n) (by simp), rows (f := fun n => .waferEntry .one n) (by simp)]
    cases k with
    | zero =>
      rw [count_rows (f := fun n => .reportRow .zero n) (fun a b h => by cases h; rfl) low high, rows (by simp)]
      simp
    | one =>
      rw [count_rows (f := fun n => .reportRow .one n) (fun a b h => by cases h; rfl) low high, rows (by simp)]
      simp

section
variable {s u : State} {id : RecId} {old new : Image}

theorem State.finish_once (once : u.candidates.count id = 1) (owned : u.ownerImage id = some new) (was : s.ownerImage id = some old)
    (off : ∀ h ∈ u.wb.direct, h.id ≠ id) :
    (State.finish s u).version id
      = (if u.scratch.versioned.contains id || (u.changes id old new).isEmpty then u.version id else u.version id + 1)
    ∧ ((State.finish s u).version id ≠ s.version id →
      Marks (State.finish s u).wb.dirty id (insertOffset (versionOffset id) (u.changes id old new))) := by
  have held (x : State) {im : Image} (h : x.ownerImage id = some im) : x.heldImage id = some im := by
    rw [State.heldImage, h]
    rfl
  obtain ⟨version, marks⟩ := State.commit_once (s0 := s) once (held u owned) (held s was) off
  have kept : ((State.commit s u).ownerImage id).isSome := by
    rw [State.withoutWb_ownerImage (State.commit_withoutWb s u), owned]
    rfl
  have same : (State.finish s u).version id = (State.commit s u).version id := by
    rw [← State.prune_version kept, State.version, State.finish_wb]
    rfl
  rw [same, version, State.finish_wb]
  rw [version] at marks
  exact ⟨rfl, marks⟩

/-- A step whose own effect has left `u`, with the version word of a record held before and after it accounted for. -/
theorem State.finish_record (once : u.Once) (owned : u.ownerImage id = some new) (was : s.ownerImage id = some old)
    (off : ∀ h ∈ u.wb.direct, h.id ≠ id) (place : ∀ k n, id = .waferEntry k n ∨ id = .reportRow k n → 1 ≤ n ∧ n ≤ 25)
    (mark : Unmarked s.begin u id ∨ Entered s.begin u id) :
    (∀ w ∈ new.map Prod.fst, old.get w ≠ new.get w → (State.finish s u).version id = s.version id + 1
      ∧ ∃ d ∈ (State.finish s u).wb.dirty, d.id = id ∧ w ∈ d.words ∧ versionOffset id ∈ d.words)
    ∧ ((∀ w ∈ new.map Prod.fst, old.get w = new.get w) → (∀ k i, id ≠ .defectEntry k i) → (State.finish s u).version id = s.version id) := by
  obtain ⟨version, marks⟩ := State.finish_once (State.candidates_once once owned off place) owned was off
  refine ⟨fun w mem differs => ?_, fun same other => ?_⟩
  · have changed : w ∈ u.changes id old new := by
      unfold State.changes
      split
      · exact mem
      · exact List.mem_filter.2 ⟨mem, bne_iff_ne.2 differs⟩
    have some : (u.changes id old new).isEmpty = false := by
      rw [Bool.eq_false_iff, Ne, List.isEmpty_iff]
      exact fun none => List.not_mem_nil (none ▸ changed)
    have next : (State.finish s u).version id = s.version id + 1 := by
      rw [version, some, Bool.or_false]
      obtain mark | mark := mark
      · have out : u.scratch.versioned.contains id = false := by
          rw [Bool.eq_false_iff, Ne, List.contains_iff_mem, mark.versioned]
          exact List.not_mem_nil
        rw [out, if_neg nofun, mark.version]
        rfl
      · rw [if_pos (List.contains_iff_mem.2 mark.versioned), mark.version]
        rfl
    obtain ⟨d, hd, same, marked⟩ := marks (by rw [next]; bv_omega)
    exact ⟨next, d, hd, same, marked w (mem_insertOffset.2 (.inr changed)), marked _ (mem_insertOffset.2 (.inl rfl))⟩
  · obtain mark | mark := mark
    · have out : u.scratch.written.contains id = false := by
        rw [Bool.eq_false_iff, Ne, List.contains_iff_mem, mark.written]
        exact List.not_mem_nil
      have none : u.changes id old new = [] := by
        rw [State.changes, out, if_neg nofun]
        refine List.filter_eq_nil_iff.2 fun w mem differs => ?_
        exact bne_iff_ne.1 differs (same w mem)
      rw [version, none, List.isEmpty_nil, Bool.or_true, if_pos rfl, mark.version]
      rfl
    · obtain ⟨k, i, entry⟩ := mark.entry
      exact absurd entry (other k i)

/-- What a command's own effect makes of the version word of a record held before it and after it. -/
theorem State.Sound.marked (h : s.Sound) (c : Instr) (was : s.ownerImage id = some old) (owned : (s.begin.effect c).ownerImage id = some new) :
    Unmarked s.begin (s.begin.effect c) id ∨ Entered s.begin (s.begin.effect c) id := by
  have begun : s.begin.Hale := ⟨h.hale.core.same rfl rfl, h.hale.port.layout, h.hale.port.reading, h.hale.port.dirty⟩
  have attached : (s.begin.effect c).anchor.attach = .attached := by
    by_contra off
    cases (State.ownerImage_off off id).symm.trans owned
  have in_ {p : RecId → Prop} (excused : ∀ j, p j → s.begin.ownerImage j = none ∨ (s.begin.effect c).anchor.attach ≠ .attached) : ¬ p id := by
    intro there
    obtain none | off := excused id there
    · cases none.symm.trans was
    · exact off attached
  obtain ⟨-, b, ended, p, booked, excused⟩ | ⟨-, p, booked, excused⟩ := Answers.effect s.begin c
  · have version : b.version id = s.begin.version id := by rw [State.version, State.version, ended.versions]
    obtain mark | mark := booked.marks id (in_ (excused begun))
    · obtain ⟨same, versioned, written⟩ := mark
      rw [ended.scratch] at versioned written
      exact .inl ⟨same.trans version, versioned, written⟩
    · exact .inr ⟨by rw [mark.version, version], mark.versioned, mark.entry⟩
  · exact booked.marks id (in_ (excused begun))

end

/-! ## The writer's move (R183, R184) -/

theorem exec_writerMove (s : State) : exec .writerMove s = .next (State.finish s s.begin.moveRecord) := exec_effect (by nofun) s

theorem changedOffsets_self (im : Image) : changedOffsets im im = [] :=
  List.filter_eq_nil_iff.2 fun _ _ differs => bne_iff_ne.1 differs rfl

/-- Nothing held has changed since the step began in `s0`, and no direct write waits. -/
structure Still (s0 s : State) : Prop where
  direct : s.wb.direct = []
  held : ∀ id, s.heldImage id = s0.heldImage id
  versions : ∀ id, s.version id = s0.version id
  written : s.scratch.written = []

theorem Still.commitRecord {s0 s : State} (h : Still s0 s) (id : RecId) :
    Still s0 (State.commitRecord s0 s id) ∧ (State.commitRecord s0 s id).wb.dirty = s.wb.dirty := by
  have direct := (State.commitRecord_direct s0 s id).trans h.direct
  have held (j : RecId) := (State.commitRecord_heldImage s0 s id j).trans (h.held j)
  have written : (State.commitRecord s0 s id).scratch.written = [] := by
    rw [State.commitRecord_scratch]
    exact h.written
  cases image : s.heldImage id with
  | none =>
    have same : State.commitRecord s0 s id = s := by rw [State.commitRecord, image]
    rw [same]
    exact ⟨h, rfl⟩
  | some im =>
    have changes : s.changes id im im = [] := by rw [State.changes, h.written, changedOffsets_self]; rfl
    have eq : State.commitRecord s0 s id = { s with wb := { s.wb with versions := putVersion s.wb.versions id (s.version id) } } := by
      rw [State.commitRecord_eq image ((h.held id).symm.trans image) (by rw [h.direct]; rfl), changes, List.isEmpty_nil, Bool.or_true, if_pos rfl,
        if_neg (fun differs => differs.elim (fun v => v (h.versions id)) (by rw [← h.held id, image]; nofun))]
      rfl
    refine ⟨⟨direct, held, fun j => ?_, written⟩, by rw [eq]⟩
    rw [eq]
    refine (versionIn_put _ id (s.version id) j).trans ?_
    split
    · rename_i same
      rw [same]
      exact h.versions id
    · exact h.versions j

/-- A step that changes no held record leaves the dirty list as its own effect has left it. -/
theorem Still.finish {s u : State} (h : Still s u) : (State.finish s u).wb.dirty = u.wb.dirty := by
  have all (ids : List RecId) : ∀ x : State, Still s x → (ids.foldl (State.commitRecord s) x).wb.dirty = x.wb.dirty := by
    induction ids with
    | nil => exact fun _ _ => rfl
    | cons id ids ih =>
      intro x still
      obtain ⟨next, same⟩ := still.commitRecord id
      exact (ih _ next).trans same
  have anchor (t : State) : (State.commitAnchor s t).wb.dirty = t.wb.dirty := by
    unfold State.commitAnchor
    split
    · rfl
    · rfl
  rw [State.finish_wb]
  exact (anchor _).trans (all _ u h)

/-- Words of the dirty list that enter the queue, with no direct write waiting. -/
theorem State.finish_moved {s : State} (direct : s.wb.direct = []) (l : List DirtyRecord) (qs : List PartRequest) :
    (State.finish s (({ s.begin with wb := { s.wb with dirty := l } } : State).askAll qs)).wb.dirty = l
    ∧ (State.finish s (({ s.begin with wb := { s.wb with dirty := l } } : State).askAll qs)).content
      = ({ s.askAll qs with out := [] } : State).content :=
  ⟨Still.finish ⟨direct, fun _ => rfl, fun _ => rfl, rfl⟩, State.finish_content _ _⟩

theorem State.moveRecord_dirty {s : State} {ws : Windows} {d : DirtyRecord} {rest : List DirtyRecord} (windows : s.path.windows = some ws)
    (direct : s.wb.direct = []) (dirty : s.wb.dirty = d :: rest) : s.moveRecord
      = if d.words.length ≤ queueSize then
          (if d.words.length ≤ queueSize - s.mport.queued then
            ({ s with wb := { s.wb with dirty := rest } } : State).askAll (queueWords ws d.id (s.heldWord d.id) d.words) else s)
        else if queueSize ≤ queueSize - s.mport.queued then
          ({ s with wb := { s.wb with dirty := { d with words := d.words.drop queueSize } :: rest } } : State).askAll
            (queueWords ws d.id (s.heldWord d.id) (d.words.take queueSize)) else s := by
  have next : s.moveRecord = s.moveDirty ws := by
    rw [State.moveRecord, windows]
    dsimp only
    rw [direct]
  rw [next, State.moveDirty, dirty]

theorem State.moveRecord_direct {s : State} {ws : Windows} {h : HeldImage} {rest : List HeldImage} (windows : s.path.windows = some ws)
    (direct : s.wb.direct = h :: rest) : s.moveRecord = if s.mport.queued + 8 ≤ queueSize then s.moveDirect ws h rest else s := by
  rw [State.moveRecord, windows]
  dsimp only
  rw [direct]

/-- Nothing enters the queue. -/
theorem writerMove_waits {s : State} (waits : s.begin.moveRecord = s.begin) :
    exec .writerMove s = .next (State.finish s s.begin) := by
  rw [exec_writerMove, waits]

/-- Settles O10: the writer's move by the head of each list, and the version words by every command's own effect and the step's end. -/
theorem writerMovesTheOldestRecord : Obligations.WriterMovesTheOldestRecord := by
  refine ⟨fun s ws windows => ⟨fun h rest direct fits => ?_, fun d rest direct dirty fits => ?_, fun d rest direct dirty long empty => ?_,
    fun d rest direct dirty some full => ?_, fun h rest direct full => ?_⟩, fun c s t id old new sound ran was is off place => ?_⟩
  · have moved := State.moveRecord_direct (s := s.begin) windows direct
    rw [if_pos (show s.begin.mport.queued + 8 ≤ queueSize from fits)] at moved
    refine ⟨_, exec_writerMove s, ?_, ?_⟩
    · rw [State.finish_direct, moved]
      rfl
    · rw [State.finish_content, moved]
      rfl
  · have moved := State.moveRecord_dirty (s := s.begin) windows direct dirty
    rw [if_pos (by unfold queueSize; omega), if_pos (by unfold queueSize; show _ ≤ 32 - s.mport.queued; omega)] at moved
    obtain ⟨left, content⟩ := State.finish_moved direct rest (queueWords ws d.id (s.heldWord d.id) d.words)
    exact ⟨_, by rw [exec_writerMove, moved]; rfl, left, content⟩
  · have moved := State.moveRecord_dirty (s := s.begin) windows direct dirty
    rw [if_neg (by unfold queueSize; omega), if_pos (by unfold queueSize; show _ ≤ 32 - s.mport.queued; omega)] at moved
    obtain ⟨left, content⟩ := State.finish_moved direct ({ d with words := d.words.drop 32 } :: rest)
      (queueWords ws d.id (s.heldWord d.id) (d.words.take 32))
    exact ⟨_, by rw [exec_writerMove, moved]; rfl, left, content⟩
  · have moved := State.moveRecord_dirty (s := s.begin) windows direct dirty
    have length := List.length_pos_iff.2 some
    have waits : s.begin.moveRecord = s.begin := by
      rw [moved]
      have queued : s.begin.mport.queued = s.mport.queued := rfl
      split
      · rename_i short
        rw [if_neg]
        unfold queueSize at short ⊢
        omega
      · rename_i long
        rw [if_neg]
        unfold queueSize at long ⊢
        omega
    exact ⟨_, writerMove_waits waits, Still.finish ⟨direct, fun _ => rfl, fun _ => rfl, rfl⟩, State.finish_content _ _⟩
  · have moved := State.moveRecord_direct (s := s.begin) windows direct
    rw [if_neg (by show ¬ s.mport.queued + 8 ≤ 32; omega)] at moved
    exact ⟨_, writerMove_waits moved, State.finish_direct _ _, State.finish_content _ _⟩
  · by_cases reset : ∃ sel lines, c = .hardwareReset sel lines
    · obtain ⟨sel, lines, rfl⟩ := reset
      cases ran
      cases (State.ownerImage_off AttachState.noConfusion id).symm.trans is
    · cases (exec_effect (fun sel lines e => reset ⟨sel, lines, e⟩) s).symm.trans ran
      have owned : (s.begin.effect c).ownerImage id = some new :=
        (congrArg (fun x : State => x.ownerImage id) (State.finish_content s (s.begin.effect c)) :).symm.trans is
      rw [State.finish_direct] at off
      have begun : s.begin.Hale := ⟨sound.hale.core.same rfl rfl, sound.hale.port.layout, sound.hale.port.reading, sound.hale.port.dirty⟩
      exact State.finish_record (begun.effect c).core.kempt.once owned was off place (sound.marked c was owned)

end Sys2Proof.Machine
end

section
/-! SUPPORT. Detach, block by block: O19. -/

namespace Sys2Proof.Machine

/-! ## POSTING entries refused and records kept (R137, R177) -/

/-- A state without the reports, the revisit unit's records, the writer's lists and the part requests. -/
def State.unposted (s : State) : State :=
  { s with reports := State.reset.reports, revisit := .reset, wb := WriteBack.reset, mport := { s.mport with requests := [] }, scratch := .empty }

/-- The detach's own direct writes of `l`: the requests of `s` and after them words of `l`'s records, as the direct-write list holds
records of `l` only. -/
structure Refuses (l : List Entry) (s t : State) : Prop where
  unposted : t.unposted = s.unposted
  direct : ∀ h ∈ t.wb.direct, ∃ e ∈ l, h.id = e.id
  requests : ∃ extra, t.mport.requests = s.mport.requests ++ extra ∧ ∀ q ∈ extra, ∃ addr v, ∃ e ∈ l, q = .write addr v e.id

section
variable {l : List Entry} {s t : State}

theorem Refuses.same {u : State} (r : Refuses l s t) (unposted : u.unposted = t.unposted) (wb : u.wb = t.wb) (mport : u.mport = t.mport) :
    Refuses l s u :=
  ⟨unposted.trans r.unposted, wb ▸ r.direct, mport ▸ r.requests⟩

theorem mem_queueWords {ws : Windows} {id : RecId} {value : Nat → Option Word} {offsets : List Nat} {q : PartRequest}
    (h : q ∈ queueWords ws id value offsets) : ∃ addr v, q = .write addr v id := by
  obtain ⟨w, -, made⟩ := List.mem_filterMap.1 h
  obtain ⟨v, -, rfl⟩ := Option.map_eq_some_iff.1 made
  exact ⟨_, v, rfl⟩

theorem Refuses.moveDirect {ws : Windows} {h : HeldImage} {rest : List HeldImage} (r : Refuses l s t) (direct : t.wb.direct = h :: rest) :
    Refuses l s (t.moveDirect ws h rest) := by
  obtain ⟨extra, requests, words⟩ := r.requests
  refine ⟨r.unposted, fun x hx => r.direct x (direct ▸ List.mem_cons_of_mem _ hx),
    extra ++ queueWords ws h.id (t.heldWord h.id) [8, 9, 10, 11, 12, 13, 14, 15], ?_, fun q hq => ?_⟩
  · rw [← List.append_assoc, ← requests]
    rfl
  · rcases List.mem_append.1 hq with hq | hq
    · exact words q hq
    · obtain ⟨e, he, same⟩ := r.direct h (direct ▸ List.mem_cons_self)
      obtain ⟨addr, v, made⟩ := mem_queueWords hq
      exact ⟨addr, v, e, he, same ▸ made⟩

theorem Refuses.enterDirect (r : Refuses l s t) : Refuses l s t.enterDirect := by
  have general (n : Nat) : ∀ t : State, Refuses l s t → Refuses l s (State.enterDirectFor n t) := by
    induction n with
    | zero => exact fun _ r => r
    | succ n ih =>
      intro t r
      unfold State.enterDirectFor
      split
      · rename_i direct
        split
        · exact ih _ (r.moveDirect direct)
        · exact r
      · exact r
  exact general _ t r

theorem Refuses.refusePost (r : Refuses l s t) {e : Entry} (he : e ∈ l) (why : EntryReason) : Refuses l s (t.refusePost e why) := by
  rw [State.refusePost_eq]
  have added : Refuses l s ((t.leavePosting e.slot e.index).addDirect { e with state := .refused, reason := why }) := by
    obtain ⟨direct, -, -, -, -, mport, -⟩ := (t.leavePosting e.slot e.index).addDirect_facts { e with state := .refused, reason := why }
    refine ⟨Eq.trans ?_ r.unposted, fun h hh => ?_, ?_⟩
    · unfold State.addDirect
      dsimp only
      split
      · rfl
      · rfl
    · rw [direct] at hh
      rcases List.mem_append.1 hh with old | new
      · exact r.direct h old
      · exact ⟨e, he, congrArg HeldImage.id (List.mem_singleton.1 new)⟩
    · rw [mport]
      exact r.requests
  have counted := (t.refusedDirect { e with state := .refused, reason := why }).countRefused_unreported e why
  have entered : Refuses l s (t.refusedDirect { e with state := .refused, reason := why }) := added.enterDirect
  exact entered.same (congrArg State.unposted counted :) (congrArg State.wb counted :) (congrArg State.mport counted :)

theorem State.keep_eq (s : State) (id : RecId) : (s.keep id).unposted = s.unposted ∧ (s.keep id).mport = s.mport := by
  unfold State.keep
  split
  · exact ⟨rfl, rfl⟩
  · exact ⟨rfl, rfl⟩

theorem State.keepAll_eq (ids : List RecId) : ∀ s : State, (ids.foldl State.keep s).unposted = s.unposted
    ∧ (ids.foldl State.keep s).mport = s.mport := by
  induction ids with
  | nil => exact fun _ => ⟨rfl, rfl⟩
  | cons id ids ih =>
    intro s
    obtain ⟨unposted, mport⟩ := ih (s.keep id)
    obtain ⟨unposted', mport'⟩ := s.keep_eq id
    exact ⟨unposted.trans unposted', mport.trans mport'⟩

theorem State.keepForDetach_eq (direct : s.wb.direct = []) : s.keepForDetach.unposted = s.unposted
    ∧ ∃ extra, s.keepForDetach.mport.requests = s.mport.requests ++ extra
      ∧ ∀ q ∈ extra, ∃ addr v, ∃ e ∈ s.revisit.posting, q = .write addr v e.id := by
  have all (es : List Entry) (sub : ∀ e ∈ es, e ∈ s.revisit.posting) : ∀ t : State, Refuses s.revisit.posting s t →
      Refuses s.revisit.posting s (es.foldl (fun t e => t.refusePost e .lotNotActive) t) := by
    induction es with
    | nil => exact fun _ r => r
    | cons e es ih =>
      intro t r
      exact ih (fun x hx => sub x (List.mem_cons_of_mem _ hx)) _ (r.refusePost (sub e List.mem_cons_self) _)
  have refused := all s.revisit.posting (fun _ he => he) s ⟨rfl, fun h hh => absurd (direct ▸ hh) List.not_mem_nil, [], by simp, by simp⟩
  unfold State.keepForDetach
  dsimp only
  obtain ⟨unposted, mport⟩ := State.keepAll_eq (s.revisit.posting.foldl (fun t e => t.refusePost e .lotNotActive) s).candidates
    (s.revisit.posting.foldl (fun t e => t.refusePost e .lotNotActive) s)
  rw [mport]
  exact ⟨unposted.trans refused.unposted, refused.requests⟩

/-- One POSTING entry, with no record in the store and room for its eight words (R137, R184). -/
theorem State.keepForDetach_one {e : Entry} {ws : Windows} (posting : s.revisit.posting = [e]) (fresh : s.storeEntry e.slot e.index = none)
    (windows : s.path.windows = some ws) (direct : s.wb.direct = []) (fits : s.mport.queued + 8 ≤ 32) :
    s.begin.keepForDetach.mport.requests
      = s.mport.requests ++ Entry.postWords { e with state := .refused, reason := .lotNotActive } ws (s.version e.id + 1) := by
  have unstored : ∀ x ∈ s.revisit.store, x.is e.slot e.index = false := fun x hx => Bool.eq_false_iff.2 (List.find?_eq_none.1 fresh x hx)
  have gathered : Gathered s s.begin e s.mport.requests (s.version e.id + 1) :=
    ⟨rfl, fun _ => rfl, fun _ => rfl, fun _ => rfl, rfl, rfl, rfl, rfl, rfl, rfl, unstored, rfl⟩
  unfold State.keepForDetach
  dsimp only
  rw [(State.keepAll_eq _ _).2, State.begin_revisit, posting]
  exact ((gathered.refused .lotNotActive).queued ws windows direct fits).2

end

/-! ## The motion unit's detach (R61) -/

/-- An axis at detach, by whether its group's order is out and whether the group is SETTLING. -/
def Axis.detached (a : Axis) (out settling : Bool) : Axis :=
  if out then { a with state := .unreferenced, referenced := false }
  else if settling then { a with state := .idle, referenced := true } else a

/-- The tag that the STOP of Z takes: behind that of X and Y, when theirs is sent. -/
def Motion.zStopTag (m : Motion) : Tag := if m.xyGroup.order.isSome then m.tag + 1 else m.tag

theorem State.detachGroup_xy (s : State) : (s.detachGroup .xy).motion = { s.motion with
      xyGroup := .reset, tag := s.motion.zStopTag
      x := s.motion.x.detached s.motion.xyGroup.order.isSome (decide (s.motion.x.state = .settling))
      y := s.motion.y.detached s.motion.xyGroup.order.isSome (decide (s.motion.x.state = .settling)) }
    ∧ (s.detachGroup .xy).out = s.out ++ if s.motion.xyGroup.order.isSome then [.stop s.motion.tag .xy] else [] := by
  unfold State.detachGroup Motion.zStopTag Axis.detached
  dsimp only [Motion.group, Motion.stateOf, Motion.setGroup]
  cases s.motion.xyGroup.order with
  | some o => exact ⟨rfl, rfl⟩
  | none =>
    refine ⟨?_, (List.append_nil _).symm⟩
    by_cases settling : s.motion.x.state = .settling
    · simp [settling, Motion.enter, Axis.enter, AxisState.isReferenced, State.setMotion]
    · simp [settling, State.setMotion]

theorem State.detachGroup_z (s : State) : (s.detachGroup .z).motion = { s.motion with
      zGroup := .reset, tag := if s.motion.zGroup.order.isSome then s.motion.tag + 1 else s.motion.tag
      z := s.motion.z.detached s.motion.zGroup.order.isSome (decide (s.motion.z.state = .settling)) }
    ∧ (s.detachGroup .z).out = s.out ++ if s.motion.zGroup.order.isSome then [.stop s.motion.tag .z] else [] := by
  unfold State.detachGroup Axis.detached
  dsimp only [Motion.group, Motion.stateOf, Motion.setGroup]
  cases s.motion.zGroup.order with
  | some o => exact ⟨rfl, rfl⟩
  | none =>
    refine ⟨?_, (List.append_nil _).symm⟩
    by_cases settling : s.motion.z.state = .settling
    · simp [settling, Motion.enter, Axis.enter, AxisState.isReferenced, State.setMotion]
    · simp [settling, State.setMotion]

theorem State.detachMotion_motion (s : State) : s.detachMotion.motion = { s.motion with
      xyGroup := .reset, zGroup := .reset, tag := 0, epoch := 0
      x := s.motion.x.detached s.motion.xyGroup.order.isSome (decide (s.motion.x.state = .settling))
      y := s.motion.y.detached s.motion.xyGroup.order.isSome (decide (s.motion.x.state = .settling))
      z := s.motion.z.detached s.motion.zGroup.order.isSome (decide (s.motion.z.state = .settling)) }
    ∧ s.detachMotion.out = s.out ++ (if s.motion.xyGroup.order.isSome then [.stop s.motion.tag .xy] else [])
      ++ if s.motion.zGroup.order.isSome then [.stop s.motion.zStopTag .z] else [] := by
  obtain ⟨xy, sent⟩ := s.detachGroup_xy
  obtain ⟨z, sent'⟩ := (s.detachGroup .xy).detachGroup_z
  rw [xy] at z sent'
  rw [sent] at sent'
  have motion : s.detachMotion.motion = { ((s.detachGroup .xy).detachGroup .z).motion with tag := 0, epoch := 0 } := rfl
  rw [motion, z]
  exact ⟨rfl, sent'⟩

/-! ## The location table's detach (R45) -/

theorem Occupant.detached_eq (o other : Occupant) : o.detached other = if o.name.isSome then other else o := by
  cases o <;> rfl

theorem Handling.detach_carrier (h : Handling) (p : Slot) (n : Nat) : h.detach.table.get (.carrier p n)
    = if (h.table.get (.carrier p n)).name.isSome then .empty else h.table.get (.carrier p n) := by
  have table : h.detach.table.get (.carrier p n) = (getAt ((h.table.carriers.get p).map fun o => o.detached .empty) n).getD .empty := by
    cases p <;> rfl
  rw [table, getAt_map]
  show ((getAt (h.table.carriers.get p) n).map fun o => o.detached .empty).getD .empty
    = if ((getAt (h.table.carriers.get p) n).getD .empty).name.isSome then .empty else (getAt (h.table.carriers.get p) n).getD .empty
  cases getAt (h.table.carriers.get p) n with
  | none => rfl
  | some o => exact o.detached_eq .empty

theorem Handling.detach_outside (h : Handling) : ∀ l ∈ outsidePlaces, h.detach.table.get l
    = if (h.table.get l).name.isSome then .unknown else h.table.get l := by
  simp only [outsidePlaces, List.forall_mem_cons]
  exact ⟨Occupant.detached_eq _ _, Occupant.detached_eq _ _, Occupant.detached_eq _ _, Occupant.detached_eq _ _, nofun⟩

/-! ## The detach (R177) -/

/-- Settles O19: the posts refused and the records kept, the motion unit's detach, and every other block's detach values. -/
theorem detachGivesEveryBlockItsDetachValues : Obligations.DetachGivesEveryBlockItsDetachValues := by
  intro s free placed attached inactive
  have judged : s.begin.judgeAnchor ⟨true, s.anchor.base + 4 * 0, codeDetach, 15⟩ 0
      = s.begin.keepForDetach.detachMotion.detachValues.pass ⟨true, s.anchor.base, codeDetach, 15⟩ := by
    rw [State.judgeAnchor_attach, if_neg (by rintro ⟨h, -⟩; exact absurd h (by decide)), if_pos ⟨rfl, attached⟩, ← State.beginDetach_eq]
    exact if_neg (by rw [show s.begin.lotActive = false from inactive]; nofun)
  have ran := exec_anchor (c := .detach 15) (v := codeDetach) free placed (by decide) rfl
  rw [judged] at ran
  obtain ⟨kept, extra, requests, words⟩ := State.keepForDetach_eq (s := s.begin) free.direct
  have one (e : Entry) (ws : Windows) (posting : s.revisit.posting = [e]) (fresh : s.storeEntry e.slot e.index = none)
      (windows : s.path.windows = some ws) (fits : s.mport.queued + 8 ≤ 32) :=
    State.keepForDetach_one posting fresh windows free.direct fits
  generalize s.begin.keepForDetach = k at ran kept requests one
  obtain ⟨motion, sent⟩ := k.detachMotion_motion
  have rest := k.detachMotion_rest
  have unmoved : k.motion = s.motion := (congrArg State.motion kept :)
  have unsent : k.out = [] := (congrArg State.out kept :)
  have anchor : k.detachMotion.anchor = s.anchor := (congrArg State.anchor rest :).trans (congrArg State.anchor kept :)
  have path : k.detachMotion.path = s.path := (congrArg State.path rest :).trans (congrArg State.path kept :)
  have handling : k.detachMotion.handling = s.handling := (congrArg State.handling rest :).trans (congrArg State.handling kept :)
  have mem : k.detachMotion.mem = s.mem := (congrArg State.mem rest :).trans (congrArg State.mem kept :)
  have clock : k.detachMotion.clock = s.clock := (congrArg State.clock rest :).trans (congrArg State.clock kept :)
  have cell : k.detachMotion.cell = s.cell := (congrArg State.cell rest :).trans (congrArg State.cell kept :)
  have mport : k.detachMotion.mport = k.mport := (congrArg State.mport rest :)
  rw [unmoved] at motion sent
  rw [unsent] at sent
  have asked : k.detachMotion.mport.requests.filter PartRequest.isWrite = s.mport.requests.filter PartRequest.isWrite ++ extra := by
    rw [mport, requests, List.filter_append]
    congr 1
    refine List.filter_eq_self.2 fun q hq => ?_
    obtain ⟨addr, v, e, -, rfl⟩ := words q hq
    rfl
  generalize k.detachMotion = d at *
  refine ⟨_, ran, ?_⟩
  simp only [State.finish_anchor, State.finish_notice, State.finish_path, State.finish_lot, State.finish_report, State.finish_handling,
    State.finish_at, State.finish_motion, State.finish_out, State.finish_align, State.finish_sensor, State.finish_af, State.finish_focusMap,
    State.finish_revisit, State.finish_grab, State.finish_classTable, State.finish_requests, State.finish_mem, State.finish_clock,
    State.finish_cell]
  refine ⟨?anchor, rfl, rfl, rfl, (congrArg Path.windows path :), (congrArg Path.layoutLock path :), (congrArg Path.closedLock path :), ?slots, rfl,
    rfl, rfl, ?ports, rfl, rfl, rfl, ?carriers, ?outside, ?motion⟩
  case anchor =>
    show ({ d.anchor with attach := .detaching, masked := 0, captureMiss := 0, stale := 0 } : Anchor) = _
    rw [anchor]
  case slots => exact fun j => by cases j <;> exact ⟨rfl, rfl, rfl, rfl⟩
  case ports => exact fun p => by cases p <;> exact ⟨rfl, rfl, rfl⟩
  case carriers =>
    intro p n
    show d.handling.detach.table.get (.carrier p n) = _
    rw [handling]
    exact s.handling.detach_carrier p n
  case outside =>
    intro l hl
    show d.handling.detach.table.get l = _
    rw [handling]
    exact s.handling.detach_outside l hl
  have moved : (d.detachValues.pass ⟨true, s.anchor.base, codeDetach, 15⟩).motion = d.motion := rfl
  have stops : (d.detachValues.pass ⟨true, s.anchor.base, codeDetach, 15⟩).out = d.out := rfl
  have queue : (d.detachValues.pass ⟨true, s.anchor.base, codeDetach, 15⟩).mport.requests = d.mport.requests.filter PartRequest.isWrite := rfl
  rw [moved, motion, stops, sent, queue, asked]
  refine ⟨rfl, rfl, rfl, rfl, ?z, ?xy, rfl, rfl, rfl, rfl, rfl, rfl, ?map, rfl, rfl, ?sequence, rfl, rfl, rfl, rfl, rfl, ⟨extra, rfl, ?ours, ?unposted, ?single⟩,
    mem, clock, cell⟩
  case z => simp only [Axis.detached, decide_eq_true_eq]
  case xy =>
    intro a b ab
    simp only [List.mem_cons, Prod.mk.injEq, List.not_mem_nil, or_false] at ab
    rcases ab with ⟨rfl, rfl⟩ | ⟨rfl, rfl⟩
    · simp only [Axis.detached, decide_eq_true_eq]
    · simp only [Axis.detached, decide_eq_true_eq]
  case map => exact fun zone there => by rw [List.eq_of_mem_replicate there]
  case sequence => exact fun j => by cases j <;> rfl
  case ours =>
    intro q hq
    obtain ⟨addr, v, e, he, made⟩ := words q hq
    exact ⟨addr, v, e, he, made⟩
  case unposted =>
    intro posting
    refine List.eq_nil_iff_forall_not_mem.2 fun q hq => ?_
    obtain ⟨-, -, e, he, -⟩ := words q hq
    exact List.not_mem_nil (posting ▸ he)
  case single =>
    intro e ws posting fresh windows fits
    exact List.append_cancel_left (requests.symm.trans (one e ws posting fresh windows fits))

end Sys2Proof.Machine
end
